-- ==== Sys2Proof/Word.lean ====
section
/-! DEFINITION. The word and byte types of Ifeum 3 (spec/00 R5, spec/06 R118). -/

namespace Sys2Proof

/-- A byte of memory or of a register. -/
abbrev Byte := BitVec 8

/-- A 64-bit register value, instruction word or effective address. -/
abbrev Word := BitVec 64

end Sys2Proof
end

