-- ==== Sys2Proof/Machine/Bits.lean ====
section
/-! DEFINITION. Bit fields, extensions and element access over naturals and words (spec/00 R5, R9). -/

namespace Sys2Proof.Machine

/-- Bits `hi:lo` of `x` (R9: x[hi:lo]). -/
def bits (x hi lo : Nat) : Nat := (x >>> lo) % 2 ^ (hi + 1 - lo)

/-- Bit `n` of `x`. -/
def bit (x n : Nat) : Bool := x.testBit n

/-- `x` with bits `hi:lo` replaced by the low bits of `v`. -/
def setBits (x hi lo v : Nat) : Nat :=
  let w := hi + 1 - lo
  x - (((x >>> lo) % 2 ^ w) <<< lo) + ((v % 2 ^ w) <<< lo)

/-- The low `w` bits of `x` as a two's-complement integer. -/
def sInt (w x : Nat) : Int :=
  let y := x % 2 ^ w
  if 2 * y < 2 ^ w then (y : Int) else (y : Int) - (2 : Int) ^ w

/-- The low `w` bits of `x` as an unsigned integer. -/
def uInt (w x : Nat) : Int := ((x % 2 ^ w : Nat) : Int)

/-- An integer reduced modulo `2^w` (R95, without saturation). -/
def wrap (w : Nat) (x : Int) : Nat := (x % ((2 ^ w : Nat) : Int)).toNat

/-- The 64-bit word of an integer, modulo `2^64`. -/
def toWord (x : Int) : Word := BitVec.ofNat 64 (wrap 64 x)

/-- SX(x, w) of R9 as a 64-bit word: the low `w` bits of `x`, sign-extended. -/
def sxWord (w x : Nat) : Word := toWord (sInt w x)

/-- ZX(x, w) of R9 as a 64-bit word. -/
def zxWord (w x : Nat) : Word := BitVec.ofNat 64 (x % 2 ^ w)

/-- Lower and upper bounds of a `w`-bit integer, signed or unsigned. -/
def loBound (w : Nat) (u : Bool) : Int := if u then 0 else -((2 ^ (w - 1) : Nat) : Int)
def hiBound (w : Nat) (u : Bool) : Int := if u then ((2 ^ w : Nat) : Int) - 1 else ((2 ^ (w - 1) : Nat) : Int) - 1

/-- R95, R96: clamp once to the nearest bound; the flag says that clamping happened. -/
def clampTo (w : Nat) (u : Bool) (x : Int) : Int × Bool :=
  if x < loBound w u then (loBound w u, true)
  else if hiBound w u < x then (hiBound w u, true)
  else (x, false)

/-- Number of bits needed for `x` (0 for 0). -/
def bitLen (x : Nat) : Nat := if x = 0 then 0 else Nat.log2 x + 1

/-- Number of one bits among the low `n` bits of `x`. -/
def popcount : Nat → Nat → Nat
  | 0, _ => 0
  | n + 1, x => (if x.testBit n then 1 else 0) + popcount n x

/-- Element `i` of width `w` bits of a register value (little-endian, R5). -/
def elem (w x i : Nat) : Nat := (x >>> (w * i)) % 2 ^ w

/-- `x` with element `i` of width `w` replaced. -/
def setElem (w x i v : Nat) : Nat := setBits x (w * i + w - 1) (w * i) v

/-- The value whose element `i`, for `i < n`, is `f i` (each of `w` bits). -/
def packElems (w : Nat) (f : Nat → Nat) : Nat → Nat
  | 0 => 0
  | n + 1 => packElems w f n + (f n % 2 ^ w) <<< (w * n)

/-- The list `0, 1, …, n - 1`. -/
def upto (n : Nat) : List Nat := List.range n

/-- Floor of the square root, by bits: `isqrtGo k r x` settles the bits of the root below `2^k`. -/
def isqrtGo : Nat → Nat → Nat → Nat
  | 0, r, _ => r
  | k + 1, r, x =>
    let c := r + 2 ^ k
    isqrtGo k (if c * c ≤ x then c else r) x

/-- The integer square root, rounded down. -/
def isqrt (x : Nat) : Nat := isqrtGo (bitLen x / 2 + 1) 0 x

/-- Ceiling of `a / b`. -/
def ceilDiv (a b : Nat) : Nat := (a + b - 1) / b

/-- The least power of two that is at least `n`. -/
def pow2AtLeast (n : Nat) : Nat := if n ≤ 1 then 1 else 2 ^ (Nat.log2 (n - 1) + 1)

/-- A Boolean as 0 or 1. -/
def b2n (b : Bool) : Nat := if b then 1 else 0

end Sys2Proof.Machine
end

