-- ==== Sys2Proof/Syntax.lean ====
section
/-! DEFINITION. The instructions: one constructor per row of spec/opcode_table.json. -/

namespace Sys2Proof

/-- The fields of an R-form or I-form word besides K, OP and FN[7:4] (spec/06 R119–R122). In I-form `imm` is present, and B,
C, the chain bits, MN and MOD are absent (zero). -/
structure Fields where
  d   : BitVec 6
  a   : BitVec 6
  b   : BitVec 6
  c   : BitVec 6
  ca  : Bool
  cb  : Bool
  cc  : Bool
  m   : BitVec 3
  mn  : Bool
  /-- the variant field FN[3:0] -/
  var : BitVec 4
  lm  : Bool
  rnd : BitVec 3
  sat : Bool
  u   : Bool
  p   : Bool
  seg : BitVec 3
  xm  : BitVec 6
  imm : Option (BitVec 32)
  deriving DecidableEq, Repr

/-- The fields of one slot of a paired word (spec/06 R127). -/
structure Half where
  hop : BitVec 6
  d   : BitVec 5
  a   : BitVec 5
  ca  : Bool
  imm : BitVec 14
  deriving DecidableEq, Repr

/-- The fields of a tile instruction besides TOP (spec/06 R132). -/
structure TileWord where
  lvl  : BitVec 3
  fp   : Bool
  crec : BitVec 48
  w1   : Word
  w2   : Word
  w3   : Word
  deriving DecidableEq, Repr

/-- A firmware image (spec/18 R339): which one it is (0 hub, 1 Marigold, 2 Primrose), its 128-byte header, its version number, its
body, and the key and signature it carries: x then y, and r then s, 48 bytes each, big-endian. -/
structure Image where
  kind    : Nat
  header  : List (BitVec 8)
  version : Nat
  body    : List (BitVec 8)
  key     : BitVec 768
  sig     : BitVec 768
  deriving DecidableEq, Repr

/-- What Primrose's sensors read (spec/18 R340): the temperature of each die, of the coolant where it enters and leaves, the board's
power, and the current of each of the three connectors. -/
structure Sensors where
  die0   : Int
  die1   : Int
  hub    : Int
  inlet  : Int
  outlet : Int
  power  : Nat
  amps   : Nat × Nat × Nat
  deriving DecidableEq, Repr

/-- Who asks for service at an arbitration point (spec/18 R342). -/
inductive Requester where
  /-- a page-table walk -/
  | walk
  /-- context save and restore -/
  | context
  | marigold
  /-- any other access of a thread of a priority -/
  | thread (prio : Nat)
  /-- a merge of an update line -/
  | merge
  | iris | tileLeaf | staging | zinnia
  | lupin
  /-- a promotion, demotion or migration copy -/
  | verbena
  | aster
  | vredst
  /-- a host access through a BAR -/
  | hostBar
  /-- the fetch of a tile-queue ring or of a loop record from host memory -/
  | ringFetch
  | scrub
  /-- error-log writes and other maintenance -/
  | maintenance
  deriving DecidableEq, Repr

/-- A participant of a collective that issued COLL on another device, as it reaches Aster (spec/12 R308): its rank, the fields
that must agree, and the elements it sends. -/
structure Remote where
  rank  : Nat
  efmt  : Nat
  op    : Nat
  kind  : Nat
  count : Nat
  root  : Nat
  data  : List Nat
  deriving DecidableEq, Repr

/-- A column block of a logit row (spec/13 R314): the cluster, tile, unit row and first column its program named for it, and the
columns it holds; then the partition's channel that drains it, the address of the list it writes, and that of its completion record
(R312). -/
structure BlockAt where
  cluster : Nat
  tile    : Nat
  row     : Nat
  col     : Nat
  cols    : Nat
  chan    : Nat
  dst     : Nat
  crec    : Nat
  deriving DecidableEq, Repr

/-- A KV entry that an iteration appends (spec/13 R321): of the draft model or the target, its position, the page of the slot's page
list it lies in, its offset and length there, and whether the page also holds positions of earlier iterations. -/
structure KvEntry where
  draft : Bool
  pos   : Nat
  page  : Nat
  off   : Nat
  len   : Nat
  older : Bool
  deriving DecidableEq, Repr

/-- What the spec does not give of a generation loop's programs, as far as its next step needs it (spec/13 R312, R314, R320, R321):
how many tile instructions its next run takes, the KV entries of the iteration, the fresh pages copies go to (by number in the
page list), the blocks of each row that a run leaves, whether further groups of blocks follow, and the references that a commit adds:
number in the page list, and the slot and number in its list that receive the page. -/
structure LoopRows where
  count   : Nat
  entries : List KvEntry
  fresh   : List (Nat × Nat)
  blocks  : List (List BlockAt)
  more    : Bool
  adds    : List (Nat × Nat × Nat)
  deriving DecidableEq, Repr, Inhabited

/-- One instruction of the opcode table: an instruction word, a tile instruction, or a step of an engine, of the scheduler,
of the host or of the platform. -/
inductive Instr where
  /-- ADD (R150). Adds two scalar operands, with optional saturation and unsigned operands. -/
  | add (f : Fields)
  /-- SUB (R150). Subtracts scalar operand b from a, with optional saturation. -/
  | sub (f : Fields)
  /-- MUL (R150). Multiplies two scalar operands and keeps the low w bits, with optional saturation. -/
  | mul (f : Fields)
  /-- MULH (R151). Writes the upper w bits of the 2w-bit product of two scalar operands. -/
  | mulh (f : Fields)
  /-- DIV (R152). Divides two scalars, rounding towards zero; a zero divisor raises the integer-divide cause. -/
  | div (f : Fields)
  /-- REM (R152). Writes the remainder of a scalar division; a zero divisor raises the integer-divide cause. -/
  | rem (f : Fields)
  /-- AND (R150). Bitwise AND of two scalar operands. -/
  | and (f : Fields)
  /-- OR (R150). Bitwise OR of two scalar operands. -/
  | or (f : Fields)
  /-- XOR (R150). Bitwise XOR of two scalar operands. -/
  | xor (f : Fields)
  /-- SHL (R153). Shifts a scalar left by the shift amount. -/
  | shl (f : Fields)
  /-- SHR (R153). Logical right shift of a scalar. -/
  | shr (f : Fields)
  /-- SRA (R153). Arithmetic right shift of a scalar. -/
  | sra (f : Fields)
  /-- MIN (R150). Writes the smaller of two scalar operands, signed or unsigned. -/
  | min (f : Fields)
  /-- MAX (R150). Writes the larger of two scalar operands, signed or unsigned. -/
  | max (f : Fields)
  /-- SLT (R154). Writes 1 when a is less than (or at most) b, else 0. -/
  | slt (f : Fields)
  /-- SEQ (R154). Writes 1 when a equals (or differs from) b, else 0. -/
  | seq (f : Fields)
  /-- CLZ (R155). Counts leading zero bits of a scalar. -/
  | clz (f : Fields)
  /-- POPC (R155). Counts one bits of a scalar. -/
  | popc (f : Fields)
  /-- EXT (R156). Sign- or zero-extends the low w bits of a scalar to 64 bits. -/
  | ext (f : Fields)
  /-- BFX (R157). Extracts a bit field under a control value. -/
  | bfx (f : Fields)
  /-- BFI (R157). Inserts a bit field into the destination under a control value. -/
  | bfi (f : Fields)
  /-- MOV (R158). Copies a scalar register. -/
  | mov (f : Fields)
  /-- LI (R158). Loads a sign-extended 32-bit constant. -/
  | li (f : Fields)
  /-- LIH (R158). Sets the upper 32 bits of the destination, keeping its low 32 bits. -/
  | lih (f : Fields)
  /-- LEA (R159). Computes an address without accessing memory. -/
  | lea (f : Fields)
  /-- SEL (R160). Selects a or b according to whether c is nonzero. -/
  | sel (f : Fields)
  /-- FADD (R161). Scalar floating-point addition with rounding and flags. -/
  | fadd (f : Fields)
  /-- FSUB (R161). Scalar floating-point subtraction. -/
  | fsub (f : Fields)
  /-- FMUL (R161). Scalar floating-point multiplication. -/
  | fmul (f : Fields)
  /-- FFMA (R162). Scalar fused multiply-add with a single rounding. -/
  | ffma (f : Fields)
  /-- FDIV (R161). Scalar floating-point division. -/
  | fdiv (f : Fields)
  /-- FSQRT (R161). Scalar floating-point square root. -/
  | fsqrt (f : Fields)
  /-- FMIN (R161). Scalar minimumNumber. -/
  | fmin (f : Fields)
  /-- FMAX (R161). Scalar maximumNumber. -/
  | fmax (f : Fields)
  /-- FCMP (R163). Compares two scalar floats under EQ, LT, LE or UN and writes 1 or 0. -/
  | fcmp (f : Fields)
  /-- FCVT (R164). Converts a scalar between floating-point and integer types. -/
  | fcvt (f : Fields)
  /-- FCLASS (R165). Writes a one-hot classification of a scalar float. -/
  | fclass (f : Fields)
  /-- BR (R167). Branches unconditionally to a PC-relative target. -/
  | br (f : Fields)
  /-- BRC (R167). Branches when two registers compare under the condition. -/
  | brc (f : Fields)
  /-- JMP (R168). Jumps to a register-based target. -/
  | jmp (f : Fields)
  /-- CALL (R168). Branches to a PC-relative target and writes the link. -/
  | call (f : Fields)
  /-- CALLR (R168). Jumps to a register-based target and writes the link. -/
  | callr (f : Fields)
  /-- LOOP (R169). Decrements a counter and branches while it is nonzero. -/
  | loop (f : Fields)
  /-- LD (R170). Loads a scalar of width w from memory, sign- or zero-extended. -/
  | ld (f : Fields)
  /-- ST (R171). Stores the low w bits of a scalar to memory. -/
  | st (f : Fields)
  /-- AMO (R173). Atomic read-modify-write at the home L2 slice, with optional acquire and release. -/
  | amo (f : Fields)
  /-- AMO_UPD (R173). Update-mode atomic add through an update line, with no read. -/
  | amoUpd (f : Fields)
  /-- CAS (R174). Atomic compare and swap at the home L2 slice. -/
  | cas (f : Fields)
  /-- ACQ (R176). Reads a guard word as an acquire. -/
  | acq (f : Fields)
  /-- REL (R176). Writes a guard word as a release. -/
  | rel (f : Fields)
  /-- BIND (R177). Binds a region to a guard in the partition's binding table. -/
  | bind (f : Fields)
  /-- UNBIND (R177). Removes the binding whose base is named. -/
  | unbind (f : Fields)
  /-- FENCE (R178). Releases and then acquires the default object at the VCFG scope. -/
  | fence (f : Fields)
  /-- IFENCE (R178). Discards the core's fetched words and L1 instruction cache lines. -/
  | ifence (f : Fields)
  /-- LAUNCH (R179). Reads a thread descriptor, queues a launch and returns its sequence number. -/
  | launch (f : Fields)
  /-- EXIT (R180). Waits for vector work, releases, leaves groups and frees the thread's slot. -/
  | exit (f : Fields)
  /-- YIELD (R181). Resets the pass counter and pauses the thread. -/
  | yield (f : Fields)
  /-- WAIT (R182). Waits until a memory word differs from, or reaches, a comparand. -/
  | wait (f : Fields)
  /-- GJOIN (R183). Joins a group object and writes a group handle. -/
  | gjoin (f : Fields)
  /-- GLEAVE (R183). Leaves the group named by a handle, possibly completing its phase. -/
  | gleave (f : Fields)
  /-- GBAR (R184). Arrives at a group barrier and waits for the phase to complete. -/
  | gbar (f : Fields)
  /-- GRED (R184). Arrives with a value in a group reduction and receives the result. -/
  | gred (f : Fields)
  /-- TRAP (R185). Raises software trap cause 0x1E0 + n. -/
  | trap (f : Fields)
  /-- BRK (R186). Raises the breakpoint cause with a code in XVAL. -/
  | brk (f : Fields)
  /-- XRET (R351). Clears INH and resumes the trapped context at XPC with its recorded progress. -/
  | xret (f : Fields)
  /-- CRR (R188). Reads a control register into a scalar. -/
  | crr (f : Fields)
  /-- CRW (R188). Writes a control register and returns its old value. -/
  | crw (f : Fields)
  /-- CRW_SET (R188). Sets bits of a control register and returns its old value. -/
  | crwSet (f : Fields)
  /-- CRW_CLR (R188). Clears bits of a control register and returns its old value. -/
  | crwClr (f : Fields)
  /-- PAIRED_WORD (R129). Issues a paired word whose two half-instruction slots read before either writes. -/
  | pairedWord (h0 : Half) (h1 : Half)
  /-- VSETVL (R200). Sets SEW, GROUP, SCOPE and VL and returns VL. -/
  | vsetvl (f : Fields)
  /-- VSETVL_CHAIN (R201). Grants VL from a chain word with acquire, waiting while nothing is published. -/
  | vsetvlChain (f : Fields)
  /-- VLQ (R202). Returns the spill frame size for a VL and SEW. -/
  | vlq (f : Fields)
  /-- VCPUB (R203). Publishes a chain word with release. -/
  | vcpub (f : Fields)
  /-- VADD (R204). Element-wise integer add. -/
  | vadd (f : Fields)
  /-- VSUB (R204). Element-wise integer subtract. -/
  | vsub (f : Fields)
  /-- VMUL (R204). Element-wise integer multiply. -/
  | vmul (f : Fields)
  /-- VMULH (R204). Element-wise high half of the product. -/
  | vmulh (f : Fields)
  /-- VMACC (R204). Element-wise multiply-accumulate into the destination. -/
  | vmacc (f : Fields)
  /-- VDOT2 (R207). Paired INT16 dot product into saturating INT32. -/
  | vdot2 (f : Fields)
  /-- VMIN (R204). Element-wise integer minimum. -/
  | vmin (f : Fields)
  /-- VMAX (R204). Element-wise integer maximum. -/
  | vmax (f : Fields)
  /-- VAND (R204). Element-wise AND. -/
  | vand (f : Fields)
  /-- VOR (R204). Element-wise OR. -/
  | vor (f : Fields)
  /-- VXOR (R204). Element-wise XOR. -/
  | vxor (f : Fields)
  /-- VSHL (R205). Element-wise left shift. -/
  | vshl (f : Fields)
  /-- VSHR (R205). Element-wise logical right shift, optionally rounding. -/
  | vshr (f : Fields)
  /-- VSRA (R205). Element-wise arithmetic right shift, optionally rounding. -/
  | vsra (f : Fields)
  /-- VABS (R206). Element-wise absolute value. -/
  | vabs (f : Fields)
  /-- VMV (R206). Copies a vector, scalar or immediate to active elements. -/
  | vmv (f : Fields)
  /-- VCMP (R208). Integer compare into a mask register. -/
  | vcmp (f : Fields)
  /-- VSEL (R209). Selects elements from two sources by a mask. -/
  | vsel (f : Fields)
  /-- VWIDEN (R210). Widens elements to twice SEW. -/
  | vwiden (f : Fields)
  /-- VNARROW (R210). Narrows elements from twice SEW, optionally saturating. -/
  | vnarrow (f : Fields)
  /-- VFADD (R211). Element-wise floating-point add. -/
  | vfadd (f : Fields)
  /-- VFSUB (R211). Element-wise floating-point subtract. -/
  | vfsub (f : Fields)
  /-- VFMUL (R211). Element-wise floating-point multiply. -/
  | vfmul (f : Fields)
  /-- VFDIV (R211). Element-wise floating-point divide. -/
  | vfdiv (f : Fields)
  /-- VFSQRT (R211). Element-wise floating-point square root. -/
  | vfsqrt (f : Fields)
  /-- VFMIN (R211). Element-wise minimumNumber. -/
  | vfmin (f : Fields)
  /-- VFMAX (R211). Element-wise maximumNumber. -/
  | vfmax (f : Fields)
  /-- VFEXP2 (R116). Element-wise correctly rounded exp2. -/
  | vfexp2 (f : Fields)
  /-- VFLOG2 (R116). Element-wise correctly rounded log2. -/
  | vflog2 (f : Fields)
  /-- VFFMA (R212). Element-wise fused multiply-add with sign variants. -/
  | vffma (f : Fields)
  /-- VFCMP (R213). Floating-point compare into a mask register. -/
  | vfcmp (f : Fields)
  /-- VFCVT (R214). Converts elements between integer, float and binary8 formats. -/
  | vfcvt (f : Fields)
  /-- VRED (R215). Reduces active elements and a seed to a scalar by a fixed tree. -/
  | vred (f : Fields)
  /-- VSCAN (R216). Sequential prefix combination of active elements. -/
  | vscan (f : Fields)
  /-- VSLIDEUP (R217). Slides elements up with boundary fill. -/
  | vslideup (f : Fields)
  /-- VSLIDEDN (R217). Slides elements down with boundary fill. -/
  | vslidedn (f : Fields)
  /-- VPERM (R218). Permutes elements by index. -/
  | vperm (f : Fields)
  /-- VCOMPRESS (R219). Packs active elements to the front and counts them. -/
  | vcompress (f : Fields)
  /-- VEXPAND (R219). Unpacks elements into active positions. -/
  | vexpand (f : Fields)
  /-- VIOTA (R219). Writes the count of active elements below each index. -/
  | viota (f : Fields)
  /-- VEXTR (R220). Moves one vector element to a scalar. -/
  | vextr (f : Fields)
  /-- VINS (R220). Inserts a scalar into one vector element. -/
  | vins (f : Fields)
  /-- MLOG (R221). Bitwise logic on mask registers. -/
  | mlog (f : Fields)
  /-- MPOP (R222). Counts set mask bits among active elements. -/
  | mpop (f : Fields)
  /-- MFIRST (R222). Finds the lowest counted mask bit. -/
  | mfirst (f : Fields)
  /-- MLIST (R223). Converts a mask to a sorted u32 index list register. -/
  | mlist (f : Fields)
  /-- MBITS (R224). Moves bits from a vector group to a mask register. -/
  | mbits (f : Fields)
  /-- MBITS_TOV (R224). Moves bits from a mask register to a vector group. -/
  | mbitsTov (f : Fields)
  /-- VSORT (R236). Stably sorts one register, with optional payload. -/
  | vsort (f : Fields)
  /-- VMERGE (R237). Merges two sorted runs into two registers. -/
  | vmerge (f : Fields)
  /-- VMERGEP (R237). Merges two runs keeping the first VL outputs and returns the counts taken. -/
  | vmergep (f : Fields)
  /-- VTOPK (R237). Keeps the first k outputs of a merge of two runs. -/
  | vtopk (f : Fields)
  /-- VINTER (R238). Intersects two sorted runs. -/
  | vinter (f : Fields)
  /-- VDIFF (R238). Keeps keys of run A unmatched in run B. -/
  | vdiff (f : Fields)
  /-- VUNIQUE (R238). Removes adjacent duplicate keys from a run. -/
  | vunique (f : Fields)
  /-- VRANK (R239). Ranks probes against a sorted run. -/
  | vrank (f : Fields)
  /-- VPART (R240). Partitions elements into buckets by sorted pivots. -/
  | vpart (f : Fields)
  /-- VSCHK (R241). Checks a register is in order and marks its sort state. -/
  | vschk (f : Fields)
  /-- VSGET (R242). Reads a register's sort-state word. -/
  | vsget (f : Fields)
  /-- VSCLR (R242). Clears a register's sort-state word. -/
  | vsclr (f : Fields)
  /-- VLD (R246). Unit-stride or segment vector load. -/
  | vld (f : Fields)
  /-- VLDS (R246). Strided vector load. -/
  | vlds (f : Fields)
  /-- VLDT (R247). Tile vector load of VROWS rows at VPITCH. -/
  | vldt (f : Fields)
  /-- VLDA (R248). Background vector load checked at issue and filled asynchronously. -/
  | vlda (f : Fields)
  /-- VST (R246). Unit-stride or segment vector store. -/
  | vst (f : Fields)
  /-- VSTS (R246). Strided vector store. -/
  | vsts (f : Fields)
  /-- VSTT (R247). Tile vector store. -/
  | vstt (f : Fields)
  /-- VGATHW (R249). Loads a window and gathers indexed elements, marking those outside it. -/
  | vgathw (f : Fields)
  /-- VSCAT (R250). Indexed vector store. -/
  | vscat (f : Fields)
  /-- VSCADD (R251). Indexed scatter-add through update lines. -/
  | vscadd (f : Fields)
  /-- VXFER_PUT (R252). Offers a register group to a partner thread's get. -/
  | vxferPut (f : Fields)
  /-- VXFER_GET (R252). Receives a register group from a partner thread's put. -/
  | vxferGet (f : Fields)
  /-- VREDST (R253). Adds a register group into memory as atomic adds at home slices. -/
  | vredst (f : Fields)
  /-- VSPILL (R254). Writes a register group and its VCFG to a spill frame. -/
  | vspill (f : Fields)
  /-- VFILL (R254). Restores a register group from a spill frame. -/
  | vfill (f : Fields)
  /-- XRND (R255). Rounds 128-bit exact words to FP32, BF16 or FP64. -/
  | xrnd (f : Fields)
  /-- SOPEN (R258). Opens a stream register from a fibre descriptor. -/
  | sopen (f : Fields)
  /-- SNEXT (R259). Loads the next chunk of a fibre with its sort state checked. -/
  | snext (f : Fields)
  /-- SSEEK (R260). Gallops a stream forward to the first key not before a target. -/
  | sseek (f : Fields)
  /-- STEND (R261). Returns the keys remaining in a stream. -/
  | stend (f : Fields)
  /-- SCLOSE (R261). Closes a stream register. -/
  | sclose (f : Fields)
  /-- MATT (R274). Requests a grant of matrix unit rows and zeroes them. -/
  | matt (f : Fields)
  /-- MDET (R275). Waits for matrix work and frees the thread's grant. -/
  | mdet (f : Fields)
  /-- MMA (R276). Matrix multiply into an accumulator tile. -/
  | mma (f : Fields)
  /-- MMAS (R278). 2:4 structured-sparse matrix multiply. -/
  | mmas (f : Fields)
  /-- MDRAIN (R279). Moves tile rows to memory with conversion. -/
  | mdrain (f : Fields)
  /-- MLDACC (R279). Loads tile rows from memory with conversion. -/
  | mldacc (f : Fields)
  /-- WSET (R280). Opens a window register with a copy of a trellis record. -/
  | wset (f : Fields)
  /-- WDEC (R281). Decodes trellis-coded weights into a vector. -/
  | wdec (f : Fields)
  /-- ZENC (R284). Passes a trellis encoding job to the die's Zinnia. -/
  | zenc (f : Fields)
  /-- CPROG (R293). Loads a channel record into a Lupin channel. -/
  | cprog (f : Fields)
  /-- CGO (R294). Releases, resolves addresses and starts a loaded channel. -/
  | cgo (f : Fields)
  /-- CWAIT (R295). Waits until a channel's watermark passes an address or the channel ends. -/
  | cwait (f : Fields)
  /-- CKILL (R296). Stops a running channel or discards a loaded record. -/
  | ckill (f : Fields)
  /-- LHINT (R297). Sets tier priority and next-use step of tiered pages. -/
  | lhint (f : Fields)
  /-- LSTEP (R297). Writes STEP and raises the partition tier step. -/
  | lstep (f : Fields)
  /-- LPREF (R298). Asks Verbena to promote pages, optionally bound to a group handle. -/
  | lpref (f : Fields)
  /-- TSUB (R307). Checks and queues a tile instruction at its level with release. -/
  | tsub (f : Fields)
  /-- TWAIT (R307). Waits until a completion record is nonzero and acquires its outputs. -/
  | twait (f : Fields)
  /-- COLL (R308). Hands a collective record to the die's Aster with release. -/
  | coll (f : Fields)
  /-- VRAND (R310). Writes Philox counter-based random words. -/
  | vrand (f : Fields)
  /-- TMMA (R304). Tile matrix multiply decomposed across levels. -/
  | tmma (t : TileWord)
  /-- TEWISE (R304). Tile element-wise operation or conversion. -/
  | tewise (t : TileWord)
  /-- TREDUCE (R304). Tile reduction over marked dimensions. -/
  | treduce (t : TileWord)
  /-- TCONV (R304). Tile convolution. -/
  | tconv (t : TileWord)
  /-- TCOPY (R304). Tile copy with format conversion. -/
  | tcopy (t : TileWord)
  /-- TSORT (R304). Sorts each tile row stably. -/
  | tsort (t : TileWord)
  /-- TMERGE (R304). Merges paired rows of two tiles. -/
  | tmerge (t : TileWord)
  /-- TTOPK (R304). Keeps the first k outputs of each row's stable sort. -/
  | ttopk (t : TileWord)
  /-- TINTER (R304). Intersects paired rows of two tiles. -/
  | tinter (t : TileWord)
  /-- TGATHER (R304). Gathers table rows by index. -/
  | tgather (t : TileWord)
  /-- TSCADD (R304). Scatter-adds values into a target tile by index. -/
  | tscadd (t : TileWord)
  /-- TSAMPLE (R305). Samples one token per logit row by Gumbel choice. -/
  | tsample (t : TileWord)
  /-- TENC (R304). Runs the Zinnia encoder over tile weights. -/
  | tenc (t : TileWord)
  /-- TLAUNCH (R306). Queues a thread descriptor, splitting COUNT across partitions. -/
  | tlaunch (t : TileWord)
  /-- TILE_LEAF_RUN (R299). A level-0 leaf runs on a core in a decomposer context, waiting for free unit rows when needed. -/
  | tileLeafRun (d : Nat) (j : Nat) (l : Nat)
  /-- TILE_COMPLETION (R303). The accepting level writes the completion record once all its leaves end. -/
  | tileCompletion (d : Nat) (j : Nat)
  /-- TLAUNCH_COMPLETE (R306). TLAUNCH writes its record when every thread it created has exited. -/
  | tlaunchComplete (d : Nat) (j : Nat)
  /-- LAUNCH_QUEUE_ROOM (R26). A LAUNCH or TSUB waiting on a full queue proceeds when room appears. -/
  | launchQueueRoom (k : Nat)
  /-- THREAD_CREATE (R28). The scheduler creates the next thread of the head launch entry when a table entry is free. -/
  | threadCreate (p : Nat) (entry : Option Nat)
  /-- THREAD_PLACE (R32). The dispatcher places the first placeable created thread on a core. -/
  | threadPlace (p : Nat)
  /-- L_THREAD_RESERVE (R33). An L thread passed over for 65,536 cycles reserves the next empty core. -/
  | lThreadReserve (p : Nat) (c : Nat)
  /-- ISSUE (R34). Each cycle a core issues at most one word from its ready threads. -/
  | issue (c : Nat)
  /-- PASS_BOOST (R35). A thread's pass counter reaching 256 boosts it. -/
  | passBoost (k : Nat)
  /-- YIELD_END (R181). A yielded thread becomes ready after another issue or 64 cycles. -/
  | yieldEnd (k : Nat)
  /-- WAIT_REEVAL (R182). A WAIT re-reads its word when the line is written or 4,096 cycles pass. -/
  | waitReeval (k : Nat)
  /-- GROUP_WAIT_RELEASE (R42). A waiting group member leaves its wait when the phase differs from its own. -/
  | groupWaitRelease (k : Nat)
  /-- CHAIN_WAKE (R48). A waiting VSETVL.chain re-reads the chain word when it is written. -/
  | chainWake (k : Nat)
  /-- VXFER_PAIR (R252). A put and a get meet and move the group bytes. -/
  | vxferPair (k : Nat)
  /-- FIFO_POP_WAKE (R61). A FIFO load waiting for entries completes when enough are pushed. -/
  | fifoPopWake (k : Nat)
  /-- WATERMARK_STALL_RESUME (R87). An access stalled on a channel watermark proceeds once it passes. -/
  | watermarkStallResume (k : Nat)
  /-- VLDA_FILL (R248). A background load fills its group element group by element group and finishes. -/
  | vldaFill (k : Nat)
  /-- MATRIX_FINISH (R277). An MMA or MMAS finishes and raises its flags in FFLAGS. -/
  | matrixFinish (k : Nat)
  /-- ZINNIA_JOB (R284). Zinnia encodes a job's blocks and writes sD on finishing. -/
  | zinniaJob (die : Nat)
  /-- ZENC_FAULT_TAKEN (R366). A cause found by Zinnia is taken at the thread's next stopping point. -/
  | zencFaultTaken (k : Nat)
  /-- UPDATE_LINE_MERGE (R65). An update line merges into the L2 on eviction, recall or release. -/
  | updateLineMerge (c : Nat) (line : Nat)
  /-- MSC_ACCESS (R66). A memory-side slice serves an access, allocating a miss only on second touch. -/
  | mscAccess (ch : Nat) (line : Nat)
  /-- MSC_FILTER_CLEAR (R66). At 2^20 accesses the slice clears its filter and count. -/
  | mscFilterClear (ch : Nat)
  /-- VERBENA_DEMOTE (R72). Verbena demotes a page when free fast-tier frames fall below LOW. -/
  | verbenaDemote (p : Nat)
  /-- VERBENA_PROMOTE (R72). Verbena promotes a page on LPREF or when its next use is within the horizon. -/
  | verbenaPromote (p : Nat)
  /-- TIER_NO_ROOM (R73). Verbena logs code 0x180, again at most once per 2^20 die-clock cycles. -/
  | tierNoRoom (p : Nat)
  /-- LPREF_COMPLETE (R298). A prefetch completes, releasing held arrivals bound to its handle. -/
  | lprefComplete (k : Nat) (id : Nat)
  /-- MIGRATION_COPY (R373). Verbena sets MIG and copies a page's lines, recopying written ones. -/
  | migrationCopy (p : Nat) (n : Nat)
  /-- MIGRATION_SWITCH (R373). With at most 64 marked lines Verbena switches the page to its destination. -/
  | migrationSwitch (p : Nat) (n : Nat)
  /-- LUPIN_COPY (R286). A running channel copies bytes over its loop nest. -/
  | lupinCopy (p : Nat) (n : Nat)
  /-- LUPIN_FILL (R286). A running channel fills bytes with a pattern. -/
  | lupinFill (p : Nat) (n : Nat)
  /-- LUPIN_CONV (R286). A running channel converts elements with a scale. -/
  | lupinConv (p : Nat) (n : Nat)
  /-- LUPIN_COMPRESS (R287). A running channel compresses a dense matrix into CSR. -/
  | lupinCompress (p : Nat) (n : Nat)
  /-- LUPIN_SELACC (R288). A running channel drains logits and applies a min-p filter. -/
  | lupinSelacc (p : Nat) (n : Nat)
  /-- CHANNEL_FAULT (R381). A running channel meeting a fault ends as CKILL would and records the code. -/
  | channelFault (p : Nat) (n : Nat)
  /-- COLLECTIVE_MEET (R308). Participants meet; disagreement writes STATE 2 with 0x12B. -/
  | collectiveMeet (n : Nat) (remote : List Remote)
  /-- COLLECTIVE_COMPLETE (R309). Aster finishes the collective and writes STAT with release. -/
  | collectiveComplete (n : Nat)
  /-- LOOP_ITERATION (R312). Marigold runs one generation-loop iteration. -/
  | loopIteration (p : Nat) (n : Nat) (rows : LoopRows)
  /-- TQ_ENTRY_READ (R335). The device reads a queue entry when its decomposer queue has room. -/
  | tqEntryRead (q : Nat)
  /-- ARBITRATION_PERIOD (R342). A point ends a 4,096-cycle period and counts overruns. -/
  | arbitrationPeriod (slots : Nat) (demand : List (Requester × Nat))
  /-- BMODE_CHANGE_DONE (R63). BUSY clears within 4,096 cycles when the mode change completes. -/
  | bmodeChangeDone (c : Nat) (b : Nat)
  /-- SLOT_STOP (R348). A slot with STOP set stops at its next stopping point. -/
  | slotStop (c : Nat) (j : Nat)
  /-- PSWAP_HALT (R357). Halts a partition's slots, channels and decomposers. -/
  | pswapHalt (p : Nat)
  /-- PSWAP_SAVE (R357). Saves a halted partition's context to the shadow store or ADDR. -/
  | pswapSave (p : Nat)
  /-- PSWAP_RESTORE (R357). Restores a saved partition context. -/
  | pswapRestore (p : Nat)
  /-- PSWAP_RESUME (R357). Clears the stop bits that halt set. -/
  | pswapResume (p : Nat)
  /-- PSWAP_KILL (R358). Discards a partition's context and ends its engine work. -/
  | pswapKill (p : Nat)
  /-- PSWAP_DONE (R357). A PSWAP operation finishes and BUSY clears. -/
  | pswapDone (die : Nat)
  /-- CORRECTED_ERROR (R376). A corrected error adds to the corrected count only. -/
  | correctedError
  /-- FUNDAMENTAL_RESET (R339). The device starts: images are checked and DEVREADY is set. -/
  | fundamentalReset (hw : Nat)
  /-- DEVREADY_TIMEOUT (R404). DEVREADY not set within 2 s fails the start. -/
  | devreadyTimeout
  /-- FLR_PF (R399). A physical-function reset resets all partitions and device registers. -/
  | flrPf
  /-- LINK_LOSS (R401). Surprise PCI Express link loss sets LINKLOST and poisons host traffic. -/
  | linkLoss
  /-- LINK_RETRAIN (R402). The link trains again and configuration requests are answered. -/
  | linkRetrain
  /-- RESTART (R403). Primrose applies fundamental reset to the hub and compute dies. -/
  | restart
  /-- THERMAL_STOP (R406). At 110 °C or hot outlet coolant the device halts every partition. -/
  | thermalStop
  /-- HUB_FIRMWARE_WATCHDOG (R404). The hub firmware watchdog expires before DEVREADY, which fails the start with reason 8. -/
  | hubFirmwareWatchdog
  /-- REGISTER_WRITE (R6). A write to a register with no row of its own, per its field types. -/
  | registerWrite (fn : Nat) (off : Nat) (v : Word)
  /-- VCFG_WRITE (R191). A CRW to VCFG applies fields and clamps VL to VLMAX. -/
  | vcfgWrite (k : Nat) (v : Word)
  /-- PTROOT_WRITE (R58). A PTROOT write drops every TLB entry of the partition. -/
  | ptrootWrite (k : Nat) (v : Word)
  /-- TLBINV (R58). Drops matching TLB entries and waits for walks that read them. -/
  | tlbinv (k : Nat) (v : Word)
  /-- BMODE_WRITE (R63). A BMODE write changes a bank's mode, setting BUSY. -/
  | bmodeWrite (k : Nat) (b : Nat) (v : Word)
  /-- TVBASE_WRITE (R73). Setting EN takes stock of mapped pages; clearing it stops new moves. -/
  | tvbaseWrite (k : Nat) (v : Word)
  /-- TSTEP_WRITE (R71). A supervisor CRW sets the partition tier step. -/
  | tstepWrite (k : Nat) (v : Word)
  /-- FORMAT_REGION_WRITE (R70). A write to a format region register invalidates its view lines. -/
  | formatRegionWrite (die : Nat) (r : Nat) (off : Nat) (v : Word)
  /-- VMAXLEN_WRITE (R355). Changes powered lanes, discarding bytes and lowering VL and LEN. -/
  | vmaxlenWrite (k : Nat) (v : Word)
  /-- SLSTOP_WRITE (R352). Sets or clears stop bits of the core's slots. -/
  | slstopWrite (k : Nat) (v : Word)
  /-- CTXSAVE (R353). Saves a slot's scalar and/or vector context to a frame. -/
  | ctxsave (k : Nat) (v : Word)
  /-- CTXLOAD (R353). Loads a context frame into a slot. -/
  | ctxload (k : Nat) (v : Word)
  /-- BUD_WRITE (R342). A share write is ignored if the shares would sum above 1,024. -/
  | budWrite (k : Nat) (v : Word)
  /-- TQTAIL (R335). A tail write offers tile-queue entries with release. -/
  | tqtail (q : Nat) (v : Word)
  /-- LPGO (R337). A write starts a generation loop from a record address. -/
  | lpgo (fn : Nat) (p : Nat) (v : Word)
  /-- LPSTOP (R337). A write stops a running loop at its next iteration boundary. -/
  | lpstop (fn : Nat) (p : Nat) (v : Word)
  /-- KV_TAGGED_WRITE (R393). A tagged KV write is checked at its home slice and dropped on GEN mismatch. -/
  | kvTaggedWrite (p : Nat) (slot : Nat) (gen : BitVec 32) (pa : Nat) (n : Nat) (v : Nat)
  /-- PEER_ACCESS (R338). A device serves a fabric offset received over a Ramtin link. -/
  | peerAccess (off : Nat) (write : Bool) (n : Nat) (v : Nat)
  /-- HOST_BAR_ACCESS (R333). The host reads or writes HBM through BAR2. -/
  | hostBarAccess (fn : Nat) (bar : Nat) (off : Nat) (write : Bool) (n : Nat) (v : Nat)
  /-- RAMTIN_LINK_CHANGE (R338). A link enters or leaves service. -/
  | ramtinLinkChange (l : Nat) (up : Bool)
  /-- UNCORRECTABLE_ERROR (R376). An uncorrectable error poisons granules and is logged. -/
  | uncorrectableError (d : Nat) (a : Nat) (b : Nat)
  /-- PLDM_MONITOR (R340). Primrose reports temperatures, power, currents and error counts. -/
  | pldmMonitor (readings : Sensors)
  /-- PLDM_FIRMWARE_UPDATE (R340). Primrose stages new images for the next start. -/
  | pldmFirmwareUpdate (img : Image)
  /-- ATTESTATION (R340). Primrose answers a nonce with a signed attestation report. -/
  | attestation (nonce : BitVec 256)
  /-- POWER_LIMIT (R341). The host lowers the board power limit in 25 W steps. -/
  | powerLimit (w : Nat)
  /-- THROTTLE_STEP (R406). Over power or 95 °C, cluster clocks fall by 100 MHz. -/
  | throttleStep (limit : Nat)
  /-- FLR_VF (R398). A function-level reset of a virtual function kills its partition. -/
  | flrVf (n : Nat)
  /-- PATROL_SCRUB (R377). Scrub reads every HBM line once in 24 hours and corrects it. -/
  | patrolScrub (line : Nat) (bad : Bool)
  /-- COLLECTIVE_FAIL (R390). Link loss, a kill or poison fails the collective. -/
  | collectiveFail (n : Nat) (code : Nat)
  deriving DecidableEq, Repr

end Sys2Proof
end

