-- ==== Sys2Proof/Machine/Encoding.lean ====
section
/-! DEFINITION. The opcode map and the checks an encoding passes (spec/06 R121–R136, spec/20 R362). -/

namespace Sys2Proof

/-- The class-0x0 conditions found in an encoding, with their details (R344 Table 2, R362). -/
inductive EncErr where
  | reservedKind | reservedOp | reservedFn | reservedVariant | reservedHop0 | reservedHop1 | halfNonzero | halfVector
  | noIForm | unusedRegister | outsideClass | chainBit | maskComplement | listRefused | unusedMod | reservedRnd
  | modifiersRefused | immediateRange | formatCode | operationCode | controlRegister | reservedTop | reservedLvl | tileReserved
  deriving DecidableEq, Repr

/-- The detail of class 0x0, which is also the cause code. -/
def EncErr.detail : EncErr → Nat
  | .reservedKind => 0
  | .reservedOp => 1
  | .reservedFn => 2
  | .reservedVariant => 3
  | .reservedHop0 => 4
  | .reservedHop1 => 5
  | .halfNonzero => 6
  | .halfVector => 7
  | .noIForm => 8
  | .unusedRegister => 9
  | .outsideClass => 10
  | .chainBit => 12
  | .maskComplement => 13
  | .listRefused => 14
  | .unusedMod => 15
  | .reservedRnd => 16
  | .modifiersRefused => 17
  | .immediateRange => 18
  | .formatCode => 19
  | .operationCode => 20
  | .controlRegister => 21
  | .reservedTop => 22
  | .reservedLvl => 23
  | .tileReserved => 24

/-- Of the conditions that hold, the one of the lowest detail (R345, R362). -/
def firstErr : List (Bool × EncErr) → Option EncErr
  | [] => none
  | (c, e) :: r =>
    match c, firstErr r with
    | false, x => x
    | true, none => some e
    | true, some x => some (if e.detail ≤ x.detail then e else x)

/-- Register operand classes (R123 Table 4), channels (R291), a field holding a code, and an unused field. -/
inductive Cls where
  | unused | s | v | m | q | w | acc | g | ch | code
  deriving DecidableEq, Repr

/-- How many values a field of the class may hold. -/
def Cls.size : Cls → Nat
  | .unused | .s | .code => 64
  | .v => 32
  | .m | .q => 8
  | .w | .acc | .g => 4
  | .ch => 16

/-- What an entry says of the fields of its words. -/
structure Shape where
  iform : Bool := false
  vars  : List Nat := [0]
  d     : Cls := .unused
  a     : Cls := .unused
  b     : Cls := .unused
  c     : Cls := .unused
  /-- vector sources chain -/
  chain : Bool := true
  mask  : Bool := false
  lm    : Bool := false
  rnd   : Bool := false
  sat   : Bool := false
  u     : Bool := false
  p     : Bool := false
  seg   : Bool := false
  /-- the XM bits the entry names -/
  xm    : Nat := 0
  /-- conditions of the entry beyond these -/
  extra : List (Bool × EncErr) := []

/-- The class-0x0 check of an R-form or I-form word against its entry (R362 Table 2). -/
def Shape.check (h : Shape) (f : Fields) : Option EncErr :=
  let c : Cls := if f.lm && h.lm then .v else h.c
  let bad (k : Cls) (x : BitVec 6) : Bool := decide (k.size ≤ x.toNat)
  let src (k : Cls) : Bool := h.chain && decide (k = .v)
  firstErr ([
    (!(h.vars.contains f.var.toNat), .reservedVariant),
    (f.imm.isSome && !h.iform, .noIForm),
    (decide (h.d = .unused) && f.d != 0 || decide (h.a = .unused) && f.a != 0 || decide (h.b = .unused) && f.b != 0 ||
      decide (c = .unused) && f.c != 0 || !h.mask && f.m != 0, .unusedRegister),
    (bad h.d f.d || bad h.a f.a || bad h.b f.b || bad c f.c, .outsideClass),
    (f.ca && !src h.a || f.cb && !src h.b || f.cc && !src c, .chainBit),
    (f.mn && f.m == 0, .maskComplement),
    (f.lm && !h.lm, .listRefused),
    (!h.rnd && f.rnd != 0 || !h.sat && f.sat || !h.u && f.u || !h.p && f.p || !h.seg && f.seg != 0 ||
      (f.xm.toNat ||| h.xm) != h.xm, .unusedMod),
    (decide (6 ≤ f.rnd.toNat), .reservedRnd)] ++ h.extra)

/-- In I-form, B, C, the chain bits, MN and MOD are absent (R122). -/
def Fields.formOk (f : Fields) : Bool :=
  f.imm.isNone || (f.b == 0 && f.c == 0 && !f.ca && !f.cb && !f.cc && !f.mn && !f.lm && f.rnd == 0 && !f.sat && !f.u &&
    !f.p && f.seg == 0 && f.xm == 0)

/-- A row of the opcode map (R131): OP, FN[7:4], the instruction its fields give, and the entry's shape. -/
structure OpRow where
  op    : Nat
  fh    : Nat
  build : Fields → Instr
  shape : Fields → Shape

/-- The immediate as an unsigned number (0 in R-form). -/
def Fields.immNat (f : Fields) : Nat := (f.imm.map BitVec.toNat).getD 0

/-- B in R-form; absent in I-form. -/
def Fields.clsB (f : Fields) (k : Cls) : Cls := if f.imm.isSome then .unused else k

/-- The second operand of a vector entry (R195 Table 4): V, S, or absent in I-form. -/
def Fields.src2 (f : Fields) : Cls := f.clsB (if f.var.getLsbD 3 then .s else .v)

/-- Two-operand integer forms (R150). -/
def shAlu (sat u : Bool) (f : Fields) : Shape :=
  { iform := true, vars := [0, 1], d := .s, a := .s, b := f.clsB .s, sat := sat, u := u }

/-- R-form with scalar D, A, B. -/
def shS3 (vars : List Nat) (_ : Fields) : Shape := { vars := vars, d := .s, a := .s, b := .s }

/-- R-form with scalar D and A. -/
def shS2 (vars : List Nat) (_ : Fields) : Shape := { vars := vars, d := .s, a := .s }

/-- Scalar floating point (R161). -/
def shFp (rnd two : Bool) (_ : Fields) : Shape :=
  { vars := [0, 1, 2, 3], d := .s, a := .s, b := if two then .s else .unused, rnd := rnd }

/-- D or a base register with a displacement or an index: LD and its kin (R170). -/
def shMem (vars : List Nat) (d : Cls) (f : Fields) : Shape :=
  { iform := true, vars := vars, d := d, a := .s, b := f.clsB .s }

/-- The width code of a scalar integer instruction: 64 or 32 bits (R149). -/
def Fields.w (f : Fields) : Nat := if f.var.getLsbD 0 then 32 else 64

def shShift (f : Fields) : Shape :=
  { shAlu false false f with extra := [(f.imm.isSome && decide (f.w ≤ f.immNat), .immediateRange)] }

/-- Scalar instructions of OP 0x01 to 0x19 (R150–R160). -/
def rowsInt : List OpRow := [
  ⟨0x01, 0, .add, shAlu true true⟩,
  ⟨0x02, 0, .sub, shAlu true true⟩,
  ⟨0x03, 0, .mul, shAlu true true⟩,
  ⟨0x04, 0, .mulh, fun f => { shS3 [0, 1] f with u := true }⟩,
  ⟨0x05, 0, .div, fun f => { shS3 [0, 1] f with u := true, sat := true, extra := [(f.sat && f.u, .modifiersRefused)] }⟩,
  ⟨0x06, 0, .rem, fun f => { shS3 [0, 1] f with u := true }⟩,
  ⟨0x07, 0, .and, shAlu false false⟩,
  ⟨0x08, 0, .or, shAlu false false⟩,
  ⟨0x09, 0, .xor, shAlu false false⟩,
  ⟨0x0A, 0, .shl, shShift⟩,
  ⟨0x0B, 0, .shr, shShift⟩,
  ⟨0x0C, 0, .sra, shShift⟩,
  ⟨0x0D, 0, .min, shAlu false true⟩,
  ⟨0x0E, 0, .max, shAlu false true⟩,
  ⟨0x0F, 0, .slt, fun f => { shAlu false true f with vars := [0, 1, 4, 5] }⟩,
  ⟨0x10, 0, .seq, fun f => { shAlu false false f with vars := [0, 1, 4, 5] }⟩,
  ⟨0x11, 0, .clz, shS2 [0, 1]⟩,
  ⟨0x12, 0, .popc, shS2 [0, 1]⟩,
  ⟨0x13, 0, .ext, shS2 [1, 2, 3, 5, 6, 7]⟩,
  ⟨0x14, 0, .bfx, fun f => { shAlu false false f with vars := [0] }⟩,
  ⟨0x15, 0, .bfi, fun f => { shAlu false false f with vars := [0] }⟩,
  ⟨0x16, 0, .mov, shS2 [0]⟩,
  ⟨0x17, 0, .li, fun f => { iform := true, d := .s, a := f.clsB .s }⟩,
  ⟨0x17, 1, .lih, fun f => { iform := true, d := .s, a := f.clsB .s }⟩,
  ⟨0x18, 0, .lea, fun f => shMem (if f.imm.isSome then [0] else [0, 1, 2, 3, 4]) .s f⟩,
  ⟨0x19, 0, .sel, fun f => { shS3 [0] f with c := .s }⟩]

/-- Scalar floating point (R161–R165). -/
def rowsFp : List OpRow := [
  ⟨0x20, 0, .fadd, shFp true true⟩,
  ⟨0x21, 0, .fsub, shFp true true⟩,
  ⟨0x22, 0, .fmul, shFp true true⟩,
  ⟨0x23, 0, .ffma, fun f => { shFp true true f with c := .s }⟩,
  ⟨0x24, 0, .fdiv, shFp true true⟩,
  ⟨0x24, 1, .fsqrt, shFp true false⟩,
  ⟨0x25, 0, .fmin, shFp false true⟩,
  ⟨0x25, 1, .fmax, shFp false true⟩,
  ⟨0x26, 0, .fcmp, fun f => { shFp false true f with vars := List.range 16 }⟩,
  ⟨0x27, 0, .fcvt, fun f => { shFp true false f with vars := [0], xm := 63, extra := [(f.xm.getLsbD 5 && f.xm.getLsbD 2, .operationCode)] }⟩,
  ⟨0x28, 0, .fclass, shFp false false⟩]

/-- Branches, loads, stores, atomics, guards, threads and groups, traps (R166–R188). -/
def rowsSys : List OpRow := [
  ⟨0x2C, 0, .br, fun f => { iform := true, b := f.clsB .s }⟩,
  ⟨0x2D, 0, .brc, fun f => { iform := true, vars := [0, 1, 2, 3, 4, 5], d := .s, a := .s, b := f.clsB .s }⟩,
  ⟨0x2E, 0, .jmp, fun f => { iform := true, a := .s, b := f.clsB .s }⟩,
  ⟨0x2F, 0, .call, fun f => { iform := true, d := .s, b := f.clsB .s }⟩,
  ⟨0x30, 0, .callr, shMem [0] .s⟩,
  ⟨0x31, 0, .loop, fun f => { iform := true, d := .s, b := f.clsB .s }⟩,
  ⟨0x32, 0, .ld, shMem [0, 1, 2, 3, 4, 5, 6, 7] .s⟩,
  ⟨0x33, 0, .st, shMem [0, 1, 2, 3] .s⟩,
  ⟨0x34, 0, fun f => if f.xm.getLsbD 2 then .amoUpd f else .amo f, fun f =>
    { shS3 [0, 1, 2, 3, 4, 5, 6] f with u := true, xm := 15, extra := [(f.xm.getLsbD 2 && (f.var != 0 || f.xm.getLsbD 0 || f.xm.getLsbD 1 || f.u || f.d != 0), .modifiersRefused)] }⟩,
  ⟨0x35, 0, .cas, fun f => { shS3 [0] f with c := .s, u := true, xm := 11 }⟩,
  ⟨0x36, 0, .acq, shMem [0] .s⟩,
  ⟨0x37, 0, .rel, shMem [0] .s⟩,
  ⟨0x38, 0, .bind, fun _ => { a := .s, b := .s, c := .s }⟩,
  ⟨0x38, 1, .unbind, fun _ => { b := .s }⟩,
  ⟨0x39, 0, .fence, fun _ => {}⟩,
  ⟨0x3A, 0, .ifence, fun _ => {}⟩,
  ⟨0x3C, 0, .launch, shMem [0] .s⟩,
  ⟨0x3D, 0, .exit, fun _ => {}⟩,
  ⟨0x3E, 0, .yield, fun _ => {}⟩,
  ⟨0x3F, 0, .wait, shMem [0, 1] .s⟩,
  ⟨0x40, 0, .gjoin, shMem [0] .g⟩,
  ⟨0x40, 1, .gleave, fun _ => { d := .g }⟩,
  ⟨0x41, 0, .gbar, fun _ => { a := .g }⟩,
  ⟨0x42, 0, .gred, fun f => { iform := true, vars := [0, 1, 2, 3, 4], d := .s, a := .g, b := f.clsB .s }⟩,
  ⟨0x44, 0, .trap, fun f => { iform := true, a := f.clsB .s, extra := [(decide (31 < f.immNat), .immediateRange)] }⟩,
  ⟨0x45, 0, .xret, fun _ => {}⟩,
  ⟨0x46, 0, .crr, fun f => { iform := true, d := .s, b := f.clsB .s, extra := [(decide (0x1000 ≤ f.immNat), .immediateRange)] }⟩,
  ⟨0x47, 0, fun f => if f.var = 1 then .crwSet f else if f.var = 2 then .crwClr f else .crw f, fun f =>
    { iform := true, vars := [0, 1, 2], d := .s, a := .s, b := f.clsB .s, extra := [(decide (0x1000 ≤ f.immNat), .immediateRange)] }⟩,
  ⟨0x48, 0, .brk, fun f => { iform := true, a := f.clsB .s, extra := [(decide (65535 < f.immNat), .immediateRange)] }⟩]

/-- The SEW and SCOPE codes of a VSETVL configuration (R200): codes 4–7 and 6–7 are refused. -/
def cfgBad (sew scope : Nat) : Bool := decide (4 ≤ sew) || decide (6 ≤ scope)

/-- Vector element-wise forms with a second operand (R195). -/
def shV (iform sat u : Bool) (f : Fields) : Shape :=
  { iform := iform, vars := if f.imm.isSome then [0] else [0, 8], d := .v, a := .v, b := f.src2, mask := true, lm := true, sat := sat, u := u }

/-- Vector floating point with a second operand (R211). -/
def shVF (rnd two : Bool) (f : Fields) : Shape :=
  { vars := if two then [0, 4, 8, 12] else [0, 4], d := .v, a := .v, b := if two then f.src2 else .unused, mask := true, lm := true, rnd := rnd }

/-- An element format code VFCVT accepts (R214). -/
def cvtCode (n : Nat) : Bool :=
  decide (1 ≤ n) && decide (n ≤ 0x0C) || decide (0x21 ≤ n) && decide (n ≤ 0x3F) && n % 8 != 0

/-- Configuration and integer element-wise instructions (R200–R210). -/
def rowsVInt : List OpRow := [
  ⟨0x49, 0, fun f => if f.var = 1 then .vsetvlChain f else .vsetvl f, fun f =>
    { iform := true, vars := if f.imm.isSome then [0] else [0, 1], d := .s, a := .s, b := f.clsB .s, c := if f.var = 1 then .s else .unused, extra := [(decide (256 ≤ f.immNat), .immediateRange), (cfgBad (f.immNat % 8) (f.immNat / 32 % 8), .formatCode)] }⟩,
  ⟨0x4A, 0, .vlq, shS2 [0]⟩,
  ⟨0x4B, 0, .vcpub, shMem [0, 1] .s⟩,
  ⟨0x4C, 0, .vadd, shV true true true⟩,
  ⟨0x4D, 0, .vsub, shV true true true⟩,
  ⟨0x4E, 0, .vmul, shV true true true⟩,
  ⟨0x4E, 1, .vmulh, shV false false true⟩,
  ⟨0x4F, 0, .vmacc, shV true true true⟩,
  ⟨0x50, 0, .vdot2, shV true false false⟩,
  ⟨0x51, 0, .vmin, shV true false true⟩,
  ⟨0x51, 1, .vmax, shV true false true⟩,
  ⟨0x52, 0, .vand, shV true false false⟩,
  ⟨0x52, 1, .vor, shV true false false⟩,
  ⟨0x52, 2, .vxor, shV true false false⟩,
  ⟨0x53, 0, .vshl, shV true true true⟩,
  ⟨0x54, 0, .vshr, fun f => { shV true false false f with xm := 1 }⟩,
  ⟨0x54, 1, .vsra, fun f => { shV true false false f with xm := 1 }⟩,
  ⟨0x55, 0, .vabs, fun _ => { d := .v, a := .v, mask := true, lm := true, sat := true }⟩,
  ⟨0x56, 0, .vcmp, fun f => { shV true false true f with d := .m, vars := if f.imm.isSome then List.range 6 else List.range 6 ++ [8, 9, 10, 11, 12, 13] }⟩,
  ⟨0x57, 0, .vsel, fun f => { shV true false false f with lm := false }⟩,
  ⟨0x58, 0, .vmv, fun f => { shV true false false f with
    a := if f.imm.isSome || f.var.getLsbD 3 then .unused else .v
    b := if f.imm.isSome || !f.var.getLsbD 3 then .unused else .s }⟩,
  ⟨0x59, 0, .vnarrow, fun _ => { d := .v, a := .v, mask := true, lm := true, u := true, sat := true }⟩,
  ⟨0x59, 1, .vwiden, fun _ => { d := .v, a := .v, mask := true, lm := true, u := true }⟩]

/-- Variants of VRED and VSCAN (R215): integer 0–5, floating point with BF in bit 2. -/
def redVars : List Nat := [0, 1, 2, 3, 4, 5, 8, 9, 10, 12, 13, 14]

/-- Modifiers of VRED and VSCAN (R366): U with min and max, SAT with add, RND with fadd. -/
def shRed (d : Cls) (f : Fields) : Shape :=
  { vars := redVars, d := d, a := .v, b := .s, mask := true, lm := true, u := f.var == 1 || f.var == 2, sat := f.var == 0, rnd := f.var == 8 || f.var == 12 }

/-- Floating-point element-wise, reductions, permutes and masks (R211–R224). -/
def rowsVFp : List OpRow := [
  ⟨0x5C, 0, .vfadd, shVF true true⟩,
  ⟨0x5C, 1, .vfsub, shVF true true⟩,
  ⟨0x5D, 0, .vfmul, shVF true true⟩,
  ⟨0x5E, 0, .vffma, fun f => { shVF true true f with vars := List.range 16, c := .v, lm := false }⟩,
  ⟨0x5F, 0, .vfdiv, shVF true true⟩,
  ⟨0x5F, 1, .vfsqrt, shVF true false⟩,
  ⟨0x60, 0, .vfmin, shVF false true⟩,
  ⟨0x60, 1, .vfmax, shVF false true⟩,
  ⟨0x61, 0, .vfcmp, fun f => { shVF false true f with vars := List.range 16, d := .m }⟩,
  ⟨0x62, 0, .vfcvt, fun f =>
    let src := f.b.toNat
    let dst := if f.lm then f.xm.toNat else f.c.toNat
    { d := .v, a := .v, b := .code, c := .code, mask := true, lm := true, rnd := true, sat := true, xm := if f.lm then 63 else 0, extra := [(f.cc, .chainBit), (!cvtCode src || !cvtCode dst, .formatCode), (decide (src ≤ 8) && decide (dst ≤ 8) || src == dst, .operationCode), (f.sat && decide (dst ≤ 0x0C), .modifiersRefused)] }⟩,
  ⟨0x63, 0, .vfexp2, shVF true false⟩,
  ⟨0x63, 1, .vflog2, shVF true false⟩,
  ⟨0x64, 0, .vred, shRed .s⟩,
  ⟨0x65, 0, .vscan, fun f => { shRed .v f with xm := 1 }⟩,
  ⟨0x66, 0, .vslideup, fun f => { iform := true, vars := if f.imm.isSome then [0] else [0, 1, 2], d := .v, a := .v, b := f.clsB .s, c := if f.var = 1 then .s else if f.var = 2 then .v else .unused, mask := true }⟩,
  ⟨0x66, 1, .vslidedn, fun f => { iform := true, vars := if f.imm.isSome then [0] else [0, 1, 2], d := .v, a := .v, b := f.clsB .s, c := if f.var = 1 then .s else if f.var = 2 then .v else .unused, mask := true }⟩,
  ⟨0x67, 0, .vperm, shV false false false⟩,
  ⟨0x68, 0, .vcompress, fun _ => { d := .v, a := .v, c := .s, mask := true }⟩,
  ⟨0x68, 1, .vexpand, fun _ => { d := .v, a := .v, mask := true, lm := true }⟩,
  ⟨0x69, 0, .viota, fun _ => { d := .v, mask := true, lm := true }⟩,
  ⟨0x6A, 0, .vextr, fun f => { iform := true, d := .s, a := .v, b := f.clsB .s, u := true }⟩,
  ⟨0x6A, 1, .vins, fun f => { iform := true, d := .v, a := .s, b := f.clsB .s }⟩,
  ⟨0x6B, 0, .mlog, fun _ => { vars := List.range 8, d := .m, a := .m, b := .m }⟩,
  ⟨0x6C, 0, .mpop, fun _ => { d := .s, a := .m, mask := true, lm := true }⟩,
  ⟨0x6C, 1, .mfirst, fun _ => { d := .s, a := .m, mask := true, lm := true }⟩,
  ⟨0x6D, 0, .mlist, fun _ => { d := .v, a := .m, c := .s, mask := true }⟩,
  ⟨0x6D, 1, fun f => if f.var = 1 then .mbitsTov f else .mbits f, fun f =>
    { vars := [0, 1], d := if f.var = 1 then .v else .m, a := if f.var = 1 then .m else .v }⟩]

/-- A sorted-run instruction (R229): FN[3] = D and FN[2:0] = KEY; nothing chains or is masked. -/
def shSort (d b c : Cls) (_ : Fields) : Shape :=
  { vars := List.range 16, d := d, a := .v, b := b, c := c, chain := false, p := true }

/-- The sorted-run group (R236–R242). -/
def rowsSort : List OpRow := [
  ⟨0x6E, 0, .vsort, shSort .v .unused .unused⟩,
  ⟨0x6F, 0, .vmerge, shSort .v .v .unused⟩,
  ⟨0x6F, 1, .vmergep, shSort .v .v .s⟩,
  ⟨0x6F, 2, .vtopk, shSort .v .v .s⟩,
  ⟨0x70, 0, .vinter, shSort .v .v .s⟩,
  ⟨0x70, 1, .vdiff, shSort .v .v .s⟩,
  ⟨0x70, 2, .vunique, shSort .v .unused .s⟩,
  ⟨0x71, 0, .vrank, fun f => { shSort .v .v .unused f with p := false, xm := 1 }⟩,
  ⟨0x72, 0, .vpart, shSort .v .v .v⟩,
  ⟨0x73, 0, .vschk, shSort .s .unused .unused⟩,
  ⟨0x73, 1, .vsget, fun _ => { d := .s, a := .v, chain := false }⟩,
  ⟨0x73, 2, .vsclr, fun _ => { a := .v, chain := false }⟩]

/-- Kinds of VSCADD and VREDST (R243): integer, float and exact, and the latter two with BF. An integer kind with BF = 1 names no
format R197 gives a meaning: its variant value counts as reserved (R121), which is the model's choice (DESIGN CHOICE, log 25). -/
def addKinds : List Nat := [0, 1, 2, 5, 6]

/-- Vector memory and streams (R246–R261). -/
def rowsVMem : List OpRow := [
  ⟨0x74, 0, .vld, fun f => { shMem [0] .v f with mask := true, seg := true, lm := true }⟩,
  ⟨0x74, 1, .vlds, fun _ => { d := .v, a := .s, b := .s, mask := true, lm := true }⟩,
  ⟨0x74, 2, .vldt, fun f => { shMem [0] .v f with mask := true, lm := true }⟩,
  ⟨0x74, 3, .vlda, shMem [0] .v⟩,
  ⟨0x75, 0, .vst, fun f => { shMem [0] .v f with mask := true, seg := true, lm := true }⟩,
  ⟨0x75, 1, .vsts, fun _ => { d := .v, a := .s, b := .s, mask := true, lm := true }⟩,
  ⟨0x75, 2, .vstt, fun f => { shMem [0] .v f with mask := true, lm := true }⟩,
  ⟨0x76, 0, .vgathw, fun f => { d := .v, a := .s, b := .v, c := .v, mask := true, xm := 7, extra := [(f.cc, .chainBit)] }⟩,
  ⟨0x76, 1, .vscat, fun _ => { d := .v, a := .s, b := .v, mask := true, lm := true }⟩,
  ⟨0x76, 2, .vscadd, fun f => { vars := addKinds, d := .v, a := .s, b := .v, c := if f.var.toNat % 4 = 2 then .s else .unused, mask := true, lm := f.var.toNat % 4 != 2 }⟩,
  ⟨0x77, 0, fun f => if f.var = 1 then .vxferGet f else .vxferPut f, fun f =>
    { vars := [0, 1], d := if f.var = 1 then .v else .unused, a := if f.var = 1 then .unused else .v, b := .s }⟩,
  ⟨0x77, 1, .vredst, fun _ => { vars := addKinds, a := .s, b := .v, c := .s, mask := true }⟩,
  ⟨0x78, 0, .vspill, shMem [0] .v⟩,
  ⟨0x78, 1, .vfill, shMem [0] .v⟩,
  ⟨0x79, 0, .xrnd, fun _ => { vars := [0, 1, 2], d := .v, a := .v, b := .s, mask := true, lm := true }⟩,
  ⟨0x7A, 0, .sopen, shMem [0] .q⟩,
  ⟨0x7A, 1, .snext, fun _ => { d := .v, a := .q, c := .s, p := true }⟩,
  ⟨0x7A, 2, .sseek, fun _ => { d := .s, a := .q, b := .s }⟩,
  ⟨0x7A, 3, .stend, fun _ => { d := .s, a := .q }⟩,
  ⟨0x7A, 4, .sclose, fun _ => { a := .q }⟩]

/-- B of MDRAIN and MLDACC: a vector of row offsets when IX = 1 (R278). -/
def src2s (f : Fields) : Cls := if f.var.getLsbD 3 then .v else .s

/-- Matrix, trellis and engine instructions, and VRAND (R274–R310). -/
def rowsEngine : List OpRow := [
  ⟨0x7B, 0, .matt, fun f => { iform := true, d := .s, a := f.clsB .s }⟩,
  ⟨0x7B, 1, .mdet, fun _ => {}⟩,
  ⟨0x7B, 2, .mma, fun _ => { d := .acc, a := .s, b := .s, xm := 7 }⟩,
  ⟨0x7B, 3, .mmas, fun _ => { d := .acc, a := .s, b := .s, c := .s, xm := 7 }⟩,
  ⟨0x7B, 4, .mdrain, fun f => { vars := List.range 16, d := .acc, a := .s, b := src2s f, c := .s, mask := true, rnd := true }⟩,
  ⟨0x7B, 5, .mldacc, fun f => { vars := List.range 16, d := .acc, a := .s, b := src2s f, c := .s, mask := true }⟩,
  ⟨0x7C, 0, .wset, shMem [0] .w⟩,
  ⟨0x7C, 1, .wdec, fun _ => { d := .v, a := .w, b := .s, chain := false, mask := true, lm := true }⟩,
  ⟨0x7C, 2, .zenc, shS3 [0]⟩,
  ⟨0x7D, 0, .cprog, shMem [0] .ch⟩,
  ⟨0x7D, 1, .cgo, fun _ => { d := .ch, b := .s }⟩,
  ⟨0x7D, 2, .cwait, fun _ => { d := .s, a := .ch, b := .s }⟩,
  ⟨0x7D, 3, .ckill, fun _ => { d := .ch }⟩,
  ⟨0x7E, 0, .lhint, fun _ => { vars := List.range 8, a := .s, b := .s, c := .s }⟩,
  ⟨0x7E, 1, .lstep, fun _ => { a := .s }⟩,
  ⟨0x7E, 2, .lpref, fun f => { vars := [0, 1], a := .s, b := if f.var = 1 then .g else .unused, c := .s }⟩,
  ⟨0x7E, 3, .tsub, fun _ => { a := .s }⟩,
  ⟨0x7E, 4, .twait, fun _ => { d := .s, a := .s }⟩,
  ⟨0x7E, 5, .coll, fun _ => { a := .s }⟩,
  ⟨0x7E, 6, .vrand, fun f => { vars := [0, 8], d := .v, a := .s, b := f.src2, c := .s, mask := true, lm := true }⟩]
/-- The opcode map (R131 Table 8). -/
def opRows : List OpRow :=
  rowsInt ++ rowsFp ++ rowsSys ++ rowsVInt ++ rowsVFp ++ rowsSort ++ rowsVMem ++ rowsEngine

/-- The row of an OP and FN[7:4]. -/
def findRow (op fh : Nat) : Option OpRow := opRows.find? fun r => r.op == op && r.fh == fh

/-- The class-0x0 check of a half (R127, R130, R362, R367): `slot1` says which slot it stands in. A shift amount of a vector
half is checked where VCFG is known. -/
def Half.check (h : Half) (slot1 : Bool) : Option EncErr :=
  let n := h.hop.toNat
  let isImm := [2, 7, 8, 9, 13, 41, 42, 45, 46, 47].contains n
  let isMem := n == 14 || n == 15
  let isVec := decide (32 ≤ n)
  firstErr [
    (decide (17 ≤ n ∧ n ≤ 31) || decide (51 ≤ n), if slot1 then .reservedHop1 else .reservedHop0),
    (n == 0 && (h.d != 0 || h.a != 0 || h.ca || h.imm != 0) || isImm && h.a != 0 || !isImm && !isMem && h.imm != 0 ||
      h.ca && !isVec, .halfNonzero),
    (isVec && (decide (16 ≤ h.d.toNat) || decide (16 ≤ h.a.toNat)), .halfVector),
    ((n == 7 || n == 8 || n == 9) && decide (64 ≤ h.imm.toNat), .immediateRange)]

/-- Words 1 to 3 of a tile instruction that must be zero, and immediate words (R133 Table 11). -/
def tileZeroBad (top : Nat) (t : TileWord) : Bool :=
  if top = 0x03 then decide (16 ≤ t.w3.toNat)
  else if top = 0x05 then t.w3 != 0
  else if top = 0x08 then decide (2 ^ 32 ≤ t.w3.toNat)
  else if top = 0x0E then t.w2 != 0 || t.w3 != 0
  else false

/-- The check of word 0 and the zero words of a tile instruction (R132, R133, R362). -/
def TileWord.check (top : Nat) (t : TileWord) : Option EncErr :=
  firstErr [
    (decide (5 ≤ t.lvl.toNat), .reservedLvl),
    (t.crec.toNat % 32 != 0 || tileZeroBad top t, .tileReserved)]

/-- The word rows: OP, FN[7:4] and the fields of an instruction that is an R-form or I-form word (R131). -/
def Instr.row : Instr → Option (Nat × Nat × Fields)
  | .add f => some (0x01, 0, f)
  | .sub f => some (0x02, 0, f)
  | .mul f => some (0x03, 0, f)
  | .mulh f => some (0x04, 0, f)
  | .div f => some (0x05, 0, f)
  | .rem f => some (0x06, 0, f)
  | .and f => some (0x07, 0, f)
  | .or f => some (0x08, 0, f)
  | .xor f => some (0x09, 0, f)
  | .shl f => some (0x0A, 0, f)
  | .shr f => some (0x0B, 0, f)
  | .sra f => some (0x0C, 0, f)
  | .min f => some (0x0D, 0, f)
  | .max f => some (0x0E, 0, f)
  | .slt f => some (0x0F, 0, f)
  | .seq f => some (0x10, 0, f)
  | .clz f => some (0x11, 0, f)
  | .popc f => some (0x12, 0, f)
  | .ext f => some (0x13, 0, f)
  | .bfx f => some (0x14, 0, f)
  | .bfi f => some (0x15, 0, f)
  | .mov f => some (0x16, 0, f)
  | .li f => some (0x17, 0, f)
  | .lih f => some (0x17, 1, f)
  | .lea f => some (0x18, 0, f)
  | .sel f => some (0x19, 0, f)
  | .fadd f => some (0x20, 0, f)
  | .fsub f => some (0x21, 0, f)
  | .fmul f => some (0x22, 0, f)
  | .ffma f => some (0x23, 0, f)
  | .fdiv f => some (0x24, 0, f)
  | .fsqrt f => some (0x24, 1, f)
  | .fmin f => some (0x25, 0, f)
  | .fmax f => some (0x25, 1, f)
  | .fcmp f => some (0x26, 0, f)
  | .fcvt f => some (0x27, 0, f)
  | .fclass f => some (0x28, 0, f)
  | .br f => some (0x2C, 0, f)
  | .brc f => some (0x2D, 0, f)
  | .jmp f => some (0x2E, 0, f)
  | .call f => some (0x2F, 0, f)
  | .callr f => some (0x30, 0, f)
  | .loop f => some (0x31, 0, f)
  | .ld f => some (0x32, 0, f)
  | .st f => some (0x33, 0, f)
  | .amoUpd f => some (0x34, 0, f)
  | .amo f => some (0x34, 0, f)
  | .cas f => some (0x35, 0, f)
  | .acq f => some (0x36, 0, f)
  | .rel f => some (0x37, 0, f)
  | .bind f => some (0x38, 0, f)
  | .unbind f => some (0x38, 1, f)
  | .fence f => some (0x39, 0, f)
  | .ifence f => some (0x3A, 0, f)
  | .launch f => some (0x3C, 0, f)
  | .exit f => some (0x3D, 0, f)
  | .yield f => some (0x3E, 0, f)
  | .wait f => some (0x3F, 0, f)
  | .gjoin f => some (0x40, 0, f)
  | .gleave f => some (0x40, 1, f)
  | .gbar f => some (0x41, 0, f)
  | .gred f => some (0x42, 0, f)
  | .trap f => some (0x44, 0, f)
  | .xret f => some (0x45, 0, f)
  | .crr f => some (0x46, 0, f)
  | .crwSet f => some (0x47, 0, f)
  | .crwClr f => some (0x47, 0, f)
  | .crw f => some (0x47, 0, f)
  | .brk f => some (0x48, 0, f)
  | .vsetvlChain f => some (0x49, 0, f)
  | .vsetvl f => some (0x49, 0, f)
  | .vlq f => some (0x4A, 0, f)
  | .vcpub f => some (0x4B, 0, f)
  | .vadd f => some (0x4C, 0, f)
  | .vsub f => some (0x4D, 0, f)
  | .vmul f => some (0x4E, 0, f)
  | .vmulh f => some (0x4E, 1, f)
  | .vmacc f => some (0x4F, 0, f)
  | .vdot2 f => some (0x50, 0, f)
  | .vmin f => some (0x51, 0, f)
  | .vmax f => some (0x51, 1, f)
  | .vand f => some (0x52, 0, f)
  | .vor f => some (0x52, 1, f)
  | .vxor f => some (0x52, 2, f)
  | .vshl f => some (0x53, 0, f)
  | .vshr f => some (0x54, 0, f)
  | .vsra f => some (0x54, 1, f)
  | .vabs f => some (0x55, 0, f)
  | .vcmp f => some (0x56, 0, f)
  | .vsel f => some (0x57, 0, f)
  | .vmv f => some (0x58, 0, f)
  | .vnarrow f => some (0x59, 0, f)
  | .vwiden f => some (0x59, 1, f)
  | .vfadd f => some (0x5C, 0, f)
  | .vfsub f => some (0x5C, 1, f)
  | .vfmul f => some (0x5D, 0, f)
  | .vffma f => some (0x5E, 0, f)
  | .vfdiv f => some (0x5F, 0, f)
  | .vfsqrt f => some (0x5F, 1, f)
  | .vfmin f => some (0x60, 0, f)
  | .vfmax f => some (0x60, 1, f)
  | .vfcmp f => some (0x61, 0, f)
  | .vfcvt f => some (0x62, 0, f)
  | .vfexp2 f => some (0x63, 0, f)
  | .vflog2 f => some (0x63, 1, f)
  | .vred f => some (0x64, 0, f)
  | .vscan f => some (0x65, 0, f)
  | .vslideup f => some (0x66, 0, f)
  | .vslidedn f => some (0x66, 1, f)
  | .vperm f => some (0x67, 0, f)
  | .vcompress f => some (0x68, 0, f)
  | .vexpand f => some (0x68, 1, f)
  | .viota f => some (0x69, 0, f)
  | .vextr f => some (0x6A, 0, f)
  | .vins f => some (0x6A, 1, f)
  | .mlog f => some (0x6B, 0, f)
  | .mpop f => some (0x6C, 0, f)
  | .mfirst f => some (0x6C, 1, f)
  | .mlist f => some (0x6D, 0, f)
  | .mbitsTov f => some (0x6D, 1, f)
  | .mbits f => some (0x6D, 1, f)
  | .vsort f => some (0x6E, 0, f)
  | .vmerge f => some (0x6F, 0, f)
  | .vmergep f => some (0x6F, 1, f)
  | .vtopk f => some (0x6F, 2, f)
  | .vinter f => some (0x70, 0, f)
  | .vdiff f => some (0x70, 1, f)
  | .vunique f => some (0x70, 2, f)
  | .vrank f => some (0x71, 0, f)
  | .vpart f => some (0x72, 0, f)
  | .vschk f => some (0x73, 0, f)
  | .vsget f => some (0x73, 1, f)
  | .vsclr f => some (0x73, 2, f)
  | .vld f => some (0x74, 0, f)
  | .vlds f => some (0x74, 1, f)
  | .vldt f => some (0x74, 2, f)
  | .vlda f => some (0x74, 3, f)
  | .vst f => some (0x75, 0, f)
  | .vsts f => some (0x75, 1, f)
  | .vstt f => some (0x75, 2, f)
  | .vgathw f => some (0x76, 0, f)
  | .vscat f => some (0x76, 1, f)
  | .vscadd f => some (0x76, 2, f)
  | .vxferGet f => some (0x77, 0, f)
  | .vxferPut f => some (0x77, 0, f)
  | .vredst f => some (0x77, 1, f)
  | .vspill f => some (0x78, 0, f)
  | .vfill f => some (0x78, 1, f)
  | .xrnd f => some (0x79, 0, f)
  | .sopen f => some (0x7A, 0, f)
  | .snext f => some (0x7A, 1, f)
  | .sseek f => some (0x7A, 2, f)
  | .stend f => some (0x7A, 3, f)
  | .sclose f => some (0x7A, 4, f)
  | .matt f => some (0x7B, 0, f)
  | .mdet f => some (0x7B, 1, f)
  | .mma f => some (0x7B, 2, f)
  | .mmas f => some (0x7B, 3, f)
  | .mdrain f => some (0x7B, 4, f)
  | .mldacc f => some (0x7B, 5, f)
  | .wset f => some (0x7C, 0, f)
  | .wdec f => some (0x7C, 1, f)
  | .zenc f => some (0x7C, 2, f)
  | .cprog f => some (0x7D, 0, f)
  | .cgo f => some (0x7D, 1, f)
  | .cwait f => some (0x7D, 2, f)
  | .ckill f => some (0x7D, 3, f)
  | .lhint f => some (0x7E, 0, f)
  | .lstep f => some (0x7E, 1, f)
  | .lpref f => some (0x7E, 2, f)
  | .tsub f => some (0x7E, 3, f)
  | .twait f => some (0x7E, 4, f)
  | .coll f => some (0x7E, 5, f)
  | .vrand f => some (0x7E, 6, f)
  | _ => none

end Sys2Proof
end

