-- ==== Sys2Proof/WellFormed.lean ====
section
/-! DEFINITION. Well-formed instructions: those whose encoding the opcode map assigns (spec/06, spec/20 R362). -/

namespace Sys2Proof

/-- TOP of a tile instruction (R133 Table 11). -/
def Instr.tileRow : Instr → Option (Nat × TileWord)
  | .tmma t => some (0x01, t)
  | .tewise t => some (0x02, t)
  | .treduce t => some (0x03, t)
  | .tconv t => some (0x04, t)
  | .tcopy t => some (0x05, t)
  | .tsort t => some (0x06, t)
  | .tmerge t => some (0x07, t)
  | .ttopk t => some (0x08, t)
  | .tinter t => some (0x09, t)
  | .tgather t => some (0x0A, t)
  | .tscadd t => some (0x0B, t)
  | .tsample t => some (0x0C, t)
  | .tenc t => some (0x0D, t)
  | .tlaunch t => some (0x0E, t)
  | _ => none

/-- Whether the instruction has an encoding: the opcode map assigns its fields (a word), its halves (a paired word) or its word
0 (a tile instruction). A step of an engine, of the scheduler, of the host or of the platform has none. -/
def Instr.wf (i : Instr) : Bool :=
  match i.row, i.tileRow, i with
  | some (op, fh, f), _, _ =>
    match findRow op fh with
    | some r => f.formOk && (r.shape f).check f == none && r.build f == i
    | none => false
  | none, some (top, t), _ => t.check top == none
  | none, none, .pairedWord h0 h1 => h0.check false == none && h1.check true == none
  | none, none, _ => false

end Sys2Proof
end

