-- ==== Sys2Proof/Decode.lean ====
section
/-! DEFINITION. Decoding of instruction words and tile instructions, and the encoder (spec/06 R118–R136). -/

namespace Sys2Proof

open Machine (bits bit b2n)

/-- The fields of an R-form word (R119 Table 2, R125 Table 5). -/
def unpackR (w : Nat) : Fields where
  d := BitVec.ofNat 6 (w / 2 ^ 49)
  a := BitVec.ofNat 6 (w / 2 ^ 43)
  b := BitVec.ofNat 6 (w / 2 ^ 37)
  c := BitVec.ofNat 6 (w / 2 ^ 31)
  ca := w.testBit 30
  cb := w.testBit 29
  cc := w.testBit 28
  m := BitVec.ofNat 3 (w / 2 ^ 25)
  mn := w.testBit 24
  var := BitVec.ofNat 4 (w / 2 ^ 16)
  lm := w.testBit 15
  rnd := BitVec.ofNat 3 (w / 2 ^ 12)
  sat := w.testBit 11
  u := w.testBit 10
  p := w.testBit 9
  seg := BitVec.ofNat 3 (w / 2 ^ 6)
  xm := BitVec.ofNat 6 w
  imm := none

/-- The fields of an I-form word (R120 Table 3, R122). -/
def unpackI (w : Nat) : Fields where
  d := BitVec.ofNat 6 (w / 2 ^ 49)
  a := BitVec.ofNat 6 (w / 2 ^ 43)
  b := 0
  c := 0
  ca := false
  cb := false
  cc := false
  m := BitVec.ofNat 3 (w / 2 ^ 40)
  mn := false
  var := BitVec.ofNat 4 (w / 2 ^ 32)
  lm := false
  rnd := 0
  sat := false
  u := false
  p := false
  seg := 0
  xm := 0
  imm := some (BitVec.ofNat 32 w)

/-- One slot of a paired word (R127 Table 6). -/
def unpackHalf (x : Nat) : Half where
  hop := BitVec.ofNat 6 (x / 2 ^ 25)
  d := BitVec.ofNat 5 (x / 2 ^ 20)
  a := BitVec.ofNat 5 (x / 2 ^ 15)
  ca := x.testBit 14
  imm := BitVec.ofNat 14 x

/-- Look the fields up in the opcode map and check them against the entry. -/
def decodeFields (op fh : Nat) (f : Fields) : Except EncErr Instr :=
  if opRows.any (fun r => r.op == op) then
    match findRow op fh with
    | none => .error .reservedFn
    | some r =>
      match (r.shape f).check f with
      | some e => .error e
      | none => .ok (r.build f)
  else .error .reservedOp

/-- The instruction of a 64-bit word, or the class-0x0 condition it meets first (R118–R131, R362). -/
def decodeWord (w : Word) : Except EncErr Instr :=
  let x := w.toNat
  match x / 2 ^ 62 with
  | 0 => decodeFields (x / 2 ^ 55 % 128) (x / 2 ^ 20 % 16) (unpackR x)
  | 1 => decodeFields (x / 2 ^ 55 % 128) (x / 2 ^ 36 % 16) (unpackI x)
  | 2 =>
    let h0 := unpackHalf (x / 2 ^ 31 % 2 ^ 31)
    let h1 := unpackHalf (x % 2 ^ 31)
    match h0.check false, h1.check true with
    | some e, _ => .error e
    | none, some e => .error e
    | none, none => .ok (.pairedWord h0 h1)
  | _ => .error .reservedKind

/-- Word 0 of a tile instruction (R132 Table 10). -/
def unpackTile (w0 w1 w2 w3 : Word) : TileWord where
  lvl := BitVec.ofNat 3 (w0.toNat / 2 ^ 53)
  fp := w0.toNat.testBit 52
  crec := BitVec.ofNat 48 w0.toNat
  w1 := w1
  w2 := w2
  w3 := w3

/-- The tile instruction of a TOP (R133 Table 11). -/
def tileInstr : Nat → Option (TileWord → Instr)
  | 0x01 => some .tmma
  | 0x02 => some .tewise
  | 0x03 => some .treduce
  | 0x04 => some .tconv
  | 0x05 => some .tcopy
  | 0x06 => some .tsort
  | 0x07 => some .tmerge
  | 0x08 => some .ttopk
  | 0x09 => some .tinter
  | 0x0A => some .tgather
  | 0x0B => some .tscadd
  | 0x0C => some .tsample
  | 0x0D => some .tenc
  | 0x0E => some .tlaunch
  | _ => none

/-- The tile instruction of four words, or the class-0x0 condition (R132, R133, R362). -/
def decodeTile (w0 w1 w2 w3 : Word) : Except EncErr Instr :=
  let t := unpackTile w0 w1 w2 w3
  match tileInstr (w0.toNat / 2 ^ 56) with
  | none => .error .reservedTop
  | some mk =>
    if w0.toNat / 2 ^ 48 % 16 ≠ 0 then .error (if 5 ≤ t.lvl.toNat then .reservedLvl else .tileReserved)
    else
      match t.check (w0.toNat / 2 ^ 56) with
      | some e => .error e
      | none => .ok (mk t)

/-! ### The encoder -/

/-- An R-form or I-form word of its OP, FN[7:4] and fields (R119, R120). -/
def packFields (op fh : Nat) (f : Fields) : Nat :=
  match f.imm with
  | none =>
    op * 2 ^ 55 + f.d.toNat * 2 ^ 49 + f.a.toNat * 2 ^ 43 + f.b.toNat * 2 ^ 37 + f.c.toNat * 2 ^ 31 + b2n f.ca * 2 ^ 30 +
      b2n f.cb * 2 ^ 29 + b2n f.cc * 2 ^ 28 + f.m.toNat * 2 ^ 25 + b2n f.mn * 2 ^ 24 + fh * 2 ^ 20 + f.var.toNat * 2 ^ 16 +
      b2n f.lm * 2 ^ 15 + f.rnd.toNat * 2 ^ 12 + b2n f.sat * 2 ^ 11 + b2n f.u * 2 ^ 10 + b2n f.p * 2 ^ 9 +
      f.seg.toNat * 2 ^ 6 + f.xm.toNat
  | some i =>
    2 ^ 62 + op * 2 ^ 55 + f.d.toNat * 2 ^ 49 + f.a.toNat * 2 ^ 43 + f.m.toNat * 2 ^ 40 + fh * 2 ^ 36 + f.var.toNat * 2 ^ 32 +
      i.toNat

/-- One slot of a paired word (R127). -/
def packHalf (h : Half) : Nat :=
  h.hop.toNat * 2 ^ 25 + h.d.toNat * 2 ^ 20 + h.a.toNat * 2 ^ 15 + b2n h.ca * 2 ^ 14 + h.imm.toNat

/-- Word 0 of a tile instruction (R132). -/
def packTile (top : Nat) (t : TileWord) : Nat :=
  top * 2 ^ 56 + t.lvl.toNat * 2 ^ 53 + b2n t.fp * 2 ^ 52 + t.crec.toNat

/-- The words of an instruction: one for a word, four for a tile instruction, none for a step that has no encoding. -/
def encode (i : Instr) : List Word :=
  match i.row, i.tileRow, i with
  | some (op, fh, f), _, _ => [BitVec.ofNat 64 (packFields op fh f)]
  | none, some (top, t), _ => [BitVec.ofNat 64 (packTile top t), t.w1, t.w2, t.w3]
  | none, none, .pairedWord h0 h1 => [BitVec.ofNat 64 (2 ^ 63 + packHalf h0 * 2 ^ 31 + packHalf h1)]
  | none, none, _ => []

/-- The first word of an instruction's encoding (XVAL of a class-0x0 cause, R361). -/
def firstWord (i : Instr) : Word := (encode i).headD 0

/-- Decode the words of an instruction as the hardware stores them. -/
def decodeWords : List Word → Except EncErr Instr
  | [w] => decodeWord w
  | [w0, w1, w2, w3] => decodeTile w0 w1 w2 w3
  | _ => .error .reservedKind

/-- The instruction the decoder reads from `nbits` bits `w`, numbered from the least significant bit of the first word: a
64-bit word, or a 256-bit tile instruction. -/
def decodeTableWord (nbits w : Nat) : Option Instr :=
  let word (k : Nat) : Word := BitVec.ofNat 64 (w % 2 ^ nbits / 2 ^ (64 * k))
  match (if nbits ≤ 64 then decodeWord (word 0) else decodeTile (word 0) (word 1) (word 2) (word 3)) with
  | .ok i => some i
  | .error _ => none

end Sys2Proof
end

