-- ==== Sys2Proof/Config.lean ====
section
/-! DEFINITION. What the spec leaves open: free values with no body, read through the counter State.free. -/

namespace Sys2Proof.Config

/-- An unspecified or unstated number: nothing constrains it. -/
opaque freeNat : Nat → Nat

/-- A free choice between two alternatives the spec names ("may", R8). -/
opaque freeBool : Nat → Bool

/-- An unspecified 64-bit value. -/
opaque freeWord : Nat → BitVec 64

/-- An unspecified byte. -/
opaque freeByte : Nat → BitVec 8

/-- An unspecified register or record of up to 8,192 bits. -/
opaque freeVec : Nat → BitVec 8192

/-- A result the spec does not state, as a function of what it is computed from: the same operands give the same result (R387). -/
opaque unstated : List Nat → Nat

/-- What a step of a generation loop needs of its programs, whose format the spec does not give (R311, R312). -/
opaque loopRows : Nat → LoopRows

/-- The set of a memory-side slice that holds a line: R66 gives the sets but no index. -/
opaque mscSet : Nat → Nat

end Sys2Proof.Config
end

