-- ==== Sys2Proof/Machine/Table.lean ====
section
/-! DEFINITION. Sparse tables by number, and memory as a canonical list of cells (spec/03 R51). -/

namespace Sys2Proof.Machine

/-- A sparse table: entries by rising key. A key with no entry has the default its reader names. -/
abbrev Table (α : Type) := List (Nat × α)

/-- The entry of key `k`, if there is one. -/
def Table.find {α : Type} : Table α → Nat → Option α
  | [], _ => none
  | (i, v) :: t, k => if i = k then some v else Table.find t k

/-- The entry of key `k`, or `d`. -/
def Table.get {α : Type} (t : Table α) (k : Nat) (d : α) : α := (t.find k).getD d

/-- Store `v` under key `k`. -/
def Table.set {α : Type} : Table α → Nat → α → Table α
  | [], k, v => [(k, v)]
  | (i, x) :: t, k, v =>
    if k = i then (k, v) :: t else if k < i then (k, v) :: (i, x) :: t else (i, x) :: Table.set t k v

/-- Remove key `k`. -/
def Table.erase {α : Type} (t : Table α) (k : Nat) : Table α := t.filter fun e => e.1 != k

/-- Memory: the bytes that differ from what an unlisted address reads as, by rising address. -/
abbrev Mem := List Host.Cell

/-- What a byte that nothing has written reads as. DESIGN CHOICE (log 4): the spec gives memory no reset contents. -/
def unlisted : Byte := 0

/-- The byte at address `a`. -/
def Mem.read : Mem → Nat → Byte
  | [], _ => unlisted
  | (i, v) :: m, a => if i = a then v else if a < i then unlisted else Mem.read m a

/-- `m` with the byte at `a` replaced, in canonical form. -/
def Mem.write : Mem → Nat → Byte → Mem
  | [], a, v => if v = unlisted then [] else [(a, v)]
  | (i, x) :: m, a, v =>
    if a = i then (if v = unlisted then m else (a, v) :: m)
    else if a < i then (if v = unlisted then (i, x) :: m else (a, v) :: (i, x) :: m)
    else (i, x) :: Mem.write m a v

/-- The canonical form: addresses strictly rising from `lo`, no entry equal to what an unlisted address reads as. -/
def Mem.wfFrom : Nat → Mem → Bool
  | _, [] => true
  | lo, (i, v) :: m => decide (lo ≤ i) && decide (v ≠ unlisted) && Mem.wfFrom (i + 1) m

/-- The canonical form of a memory. -/
def Memory.wf (m : Mem) : Bool := Mem.wfFrom 0 m

/-- The little-endian value of `n` bytes at `a` (R5). -/
def Mem.readLE (m : Mem) (a : Nat) : Nat → Nat
  | 0 => 0
  | n + 1 => Mem.readLE m a n + (Mem.read m (a + n)).toNat <<< (8 * n)

/-- Store the low `n` bytes of `v` at `a`, little-endian (R5). -/
def Mem.writeLE (m : Mem) (a v : Nat) : Nat → Mem
  | 0 => m
  | n + 1 => (Mem.writeLE m a v n).write (a + n) (BitVec.ofNat 8 (v >>> (8 * n)))

end Sys2Proof.Machine
end

