-- ==== Sys2Proof/Machine/State.lean ====
section
/-! DEFINITION. The state of the Sahava V4 card as plain data, and its value after reset. -/

namespace Sys2Proof.Machine

/-- Privilege level (R346, XSTAT.PPRV). -/
inductive Level where
  | user | supervisor | monitor
  deriving DecidableEq, Repr

/-- The PPRV code of a level (R346). -/
def Level.code : Level → Nat
  | .user => 0
  | .supervisor => 1
  | .monitor => 2

/-- The level of a PPRV code. -/
def Level.ofCode (n : Nat) : Level := if n = 0 then .user else if n = 1 then .supervisor else .monitor

/-- Why a thread is not ready (R36), or is stopped. -/
inductive WaitReason where
  /-- WAIT on the word at an effective address (R182). -/
  | word (ea : Word)
  /-- GBAR or GRED that has arrived and waits for the phase of its handle to change (R42); `red` names GRED's destination. -/
  | group (handle : Nat) (red : Option (BitVec 6)) (next : Word)
  /-- GBAR or GRED held by prefetches bound to its handle (R298). -/
  | prefetch (handle : Nat)
  /-- LPREF facing 16 outstanding prefetches (R298). -/
  | prefetchRoom
  /-- VSETVL.chain whose chain word publishes nothing (R48). -/
  | chain (ea : Word)
  /-- LAUNCH facing a full launch queue (R26). -/
  | launchQueue (prio : Nat)
  /-- TSUB facing a full decomposer queue (R307). -/
  | tileQueue (lvl : Nat)
  /-- VXFER half whose partner has not arrived (R252): `put` says which half, `tid` whom it names, `reg` its group. -/
  | xfer (put : Bool) (tid : BitVec 32) (reg : Nat)
  /-- FIFO load that needs more entries (R61): device-wide cluster and bank. -/
  | fifo (cluster bank : Nat)
  /-- A line of another device's memory that the L2 must first bring in (R52, R59): physical address and length. -/
  | fabric (pa n : Nat)
  /-- An access stalled behind a running channel's watermark (R87). -/
  | watermark (part chan : Nat)
  /-- A word that reads or writes a group an unfinished VLDA fills (R248). -/
  | vlda
  /-- A word that needs the result, or the finish, of a running MMA or MMAS (R101, R189, R277). -/
  | matrix
  /-- A word that needs the result of a ZENC (R284). -/
  | zenc
  /-- A word that needs the destination of a load that waits at a FIFO port (R36, R61), or its port. -/
  | load
  /-- CWAIT on a channel and an address (R295). -/
  | channel (part chan : Nat) (addr : Word)
  /-- TWAIT on a completion record (R307). -/
  | tile (ea : Word)
  /-- CRW to a BMODE whose BUSY is 1 (R63). -/
  | bank (cluster bank : Nat)
  /-- MATT for which the unit has too few free rows (R274). -/
  | rows
  /-- CRW to a PSWAP whose BUSY is 1 (the model's choice, log 63). -/
  | pswap
  /-- YIELD's pause (R181): not a wait of R36. -/
  | yielded
  deriving DecidableEq, Repr

/-- The partial progress an XRET hands to the word it resumes (R351). -/
structure Resume where
  slot1 : Bool
  vpart : Bool
  tpart : Bool
  deriving DecidableEq, Repr

/-- A stream register (R257). `desc` is the 64-byte descriptor as a little-endian value. -/
structure Stream where
  isOpen : Bool := false
  desc   : BitVec 512 := 0
  pos    : Nat := 0
  last   : Option Word := none
  poison : Bool := false
  deriving DecidableEq, Repr, Inhabited

/-- A window register (R280): the trellis record as a little-endian value, and its address. -/
structure Window where
  isOpen : Bool := false
  record : BitVec 512 := 0
  addr   : Word := 0
  deriving DecidableEq, Repr, Inhabited

/-- Where a physical address lies (R51 Table 1): a cell of storage (HBM, host memory, another device's HBM, a bank in scratchpad mode),
a FIFO port, a view window, a peer queue of this device, or one of another device. `via` names the cluster through whose caches a thread reaches the line (R59);
none where the access goes straight to the line's home. -/
inductive Place where
  | cell (pa : Nat) (via : Option Nat)
  | fifo (cluster bank off : Nat)
  | view (off : Nat) (via : Option Nat)
  | peerQueue (q off : Nat)
  | peer (pa : Nat)
  | nowhere
  deriving DecidableEq, Repr

/-- An element a VLDA still has to read (R248): its number, its effective address and the place resolved at issue. -/
structure VldaElem where
  elem  : Nat
  ea    : Word
  place : Place
  deriving DecidableEq, Repr

/-- A VLDA past issue (R248): the group it fills, its element width, and the elements still to come; at a FIFO port, one access of
`bytes` bytes from the first of them on. -/
structure Vlda where
  /-- first register of the destination group and its size -/
  reg    : Nat
  size   : Nat
  sew    : Nat
  bytes  : Nat
  todo   : List VldaElem
  deriving DecidableEq, Repr

/-- The vector destination of a load at a FIFO port (R61): its group and the registers of it, its element width, the first element and
how many it fills. -/
structure VDest where
  reg   : Nat
  size  : Nat
  sew   : Nat
  first : Nat
  count : Nat
  deriving DecidableEq, Repr

/-- A load that waits at a FIFO port for entries (R36, R61): its scalar destination (s0 once a later word has written it) or its
vector one, its width in bits and extension, its effective address, and the device-wide cluster and bank. -/
structure FifoLoad where
  vec     : Option VDest
  reg     : BitVec 6
  width   : Nat
  zx      : Bool
  ea      : Word
  cluster : Nat
  bank    : Nat
  deriving DecidableEq, Repr

/-- Damaged bytes of a vector register (R248, R376): register, byte offset and length, and what a read of them raises. -/
structure VMark where
  reg  : Nat
  off  : Nat
  len  : Nat
  code : Nat
  ea   : Word
  pa   : Nat
  deriving DecidableEq, Repr

/-- A damaged scalar register (R376): what a read of it raises, with XVAL and the physical address for the log. -/
structure SMark where
  reg  : BitVec 6
  code : Nat := 0x0A9
  ea   : Word := 0
  pa   : Nat := 0
  deriving DecidableEq, Repr

/-- The running value of a stopped VSCAN, with its source and destination registers as they stood (R216). -/
structure Scan where
  run  : Int
  regs : List (BitVec 8192)
  deriving DecidableEq, Repr

/-- A prefetch a thread has outstanding (R298); one that has completed is gone. -/
structure Prefetch where
  id     : Nat
  /-- the group handle it is bound to -/
  handle : Option Nat
  /-- pages still to be promoted, ascending -/
  pages  : List Nat
  deriving DecidableEq, Repr

/-- What a word that a stop cut short read as it began, and keeps when it resumes (R9, R101, R189, R191, R195): VCFG, FRM, VROWS, VPITCH
and the scalar registers. -/
structure Begun where
  vcfg   : Word
  frm    : Word
  vrows  : Word
  vpitch : Word
  s      : Vector Word 64
  deriving DecidableEq, Repr

/-- A condition a word meets: its code, XVAL, WLVL, and what of the word stands when it is taken. -/
structure Cause where
  code  : Nat
  xval  : Word := 0
  wlvl  : Nat := 0
  /-- the state left by the word so far stands (partial progress, R360) -/
  keep  : Bool := false
  vpart : Bool := false
  tpart : Bool := false
  /-- the physical address, for the error log (R379) -/
  pa    : Nat := 0
  deriving DecidableEq, Repr

/-- A trap that waits for the work R348 lets finish: its cause, and whether slot 0 of the word at the pc stands. -/
structure Pending where
  cause : Cause
  slot1 : Bool
  deriving DecidableEq, Repr

/-- Where a thread runs (R13, R31): cluster within the partition, core, slot. -/
structure Pos where
  cluster : Nat
  core    : Nat
  slot    : Nat
  deriving DecidableEq, Repr

/-- A thread (R23): its scalar state, control state, handles and vector context. -/
structure Thread where
  /-- the entry of the thread table is in use -/
  live    : Bool
  part    : Nat
  entry   : Nat
  pc      : Word
  s       : Vector Word 64
  level   : Level
  -- per-thread control registers (R137, R346)
  vcfg    : Word
  vrows   : Word
  vpitch  : Word
  vstart  : Word
  eprog   : Word
  vxsat   : Word
  fflags  : Word
  frm     : Word
  step    : Word
  tid     : BitVec 32
  mgrant  : Word
  xcause  : Word
  xpc     : Word
  xval    : Word
  xstat   : Word
  xprog   : Vector Word 8
  dbg     : Word
  xscr    : Vector Word 16
  /-- group handles g0–g3 (R39) -/
  g       : Vector Word 4
  -- vector context (R23, R194, R225, R257, R280)
  v       : Vector (BitVec 8192) 32
  sort    : Vector (BitVec 21) 32
  m       : Vector (BitVec 8192) 8
  q       : Vector Stream 8
  w       : Vector Window 4
  /-- the running value of a stopped VSCAN (R216) -/
  scan    : Option Scan
  -- launch (R25–R32)
  isL     : Bool
  prio    : Nat
  seq     : Nat
  index   : Nat
  req     : BitVec 16
  /-- slot the scalar context occupies; none while unplaced or saved -/
  pos     : Option Pos
  /-- lane cluster (0 for L) that holds the vector context, and the slot VOWN names for it; none while it is saved (R352,
  R354) -/
  lc      : Option Nat
  home    : Option Pos
  -- issue (R35, R36)
  passes  : Nat
  boosted : Option Nat
  wait    : Option WaitReason
  resume  : Option Resume
  /-- words stopped part way, by address: what each began with (R189) -/
  begun   : Table Begun
  /-- a trap still to be taken (R348) -/
  trap    : Option Pending
  /-- saved by CTXSAVE: has no slot until a frame is loaded -/
  saved   : Bool
  -- work in flight
  /-- loads waiting at FIFO ports, oldest first (R61) -/
  loads   : List FifoLoad
  vldas   : List Vlda
  /-- flags of MMAs still running, and their VXSAT bit (R101, R113) -/
  mmaRun  : List (BitVec 5 × Bool)
  /-- destination registers a running ZENC will write (R284) -/
  zenc    : List (BitVec 6)
  /-- causes Zinnia found: code, trellis record address, sD, k, and the physical address of damage (R366) -/
  zfault  : List (Nat × Word × BitVec 6 × Nat × Nat)
  prefs   : List Prefetch
  -- poison marks (R376): scalar registers, and bytes of vector registers
  spoison : List SMark
  vpoison : List VMark
  deriving DecidableEq, Repr

/-- An element format of an update line (R64). -/
inductive UpdFmt where
  | int (bytes : Nat)
  | half | brain | single | double
  | exact
  deriving DecidableEq, Repr

/-- An update line of a core's L1 (R64): 128-byte line number, its format, pending addends by element offset. The value of
an exact addend is its signed sum with guard bits (R380). -/
structure UpdLine where
  line : Nat
  fmt  : UpdFmt
  adds : List (Nat × Int)
  deriving DecidableEq, Repr

/-- An aligned 8-byte word whose newest value has not reached its home L2 slice (R60): the value the home holds, the bytes stored since,
and the clusters whose caches hold the newest value. Whole words, so that no access sees part of a store (R74, R80). -/
structure Late where
  home : BitVec 64
  mask : BitVec 8
  by_  : List Nat
  deriving DecidableEq, Repr

/-- An aligned 8-byte word of which a cluster's caches hold an older copy (R60); `ahead` says that the copy is a store of its own, which
the home does not hold yet. -/
structure Stale where
  old   : BitVec 64
  ahead : Bool
  deriving DecidableEq, Repr

/-- A core (R12, R20, R31, R346, R352). -/
structure Core where
  feat     : Word
  /-- all 16 lanes of a lane cluster are powered; else 8 (VMAXLEN.LPC) -/
  full     : Bool
  stop     : BitVec 8
  stopped  : BitVec 8
  /-- STOP bits PSWAP halt set, which resume clears (R357) -/
  haltSet  : BitVec 8
  /-- the class the dispatcher gave the core while it was empty (R31): L or not; it counts while a thread occupies a slot -/
  cls      : Option Bool
  /-- the L thread (key) the core is reserved for (R33) -/
  reserved : Option Nat
  upd      : List UpdLine
  /-- fetched words by physical address (R59, R94) -/
  icache   : Table Word
  inService : Bool
  deriving DecidableEq, Repr

/-- VMAXLEN.LPC: lanes powered in a lane cluster (R355). -/
def Core.lpc (c : Core) : Nat := if c.full then 16 else 8

/-- A bank of a cluster (R61, R62). -/
structure Bank where
  mode  : Nat
  dec   : Bool
  busy  : Bool
  ovf   : Bool
  head  : Nat
  /-- entries, next to pop first -/
  ring  : List Word
  /-- poisoned entries (R376): index in the ring of 16,384, and the Detail -/
  bad   : Table Nat
  deriving DecidableEq, Repr

/-- A cluster (R12, R49, R61, R262). -/
structure Cluster where
  ccyc  : Word
  banks : Vector Bank 16
  /-- accumulator entries that are not zero: key ((tile × 128 + row) × 256 + column), 32 bits -/
  acc   : Table (BitVec 32)
  /-- poisoned accumulator entries (R376) -/
  accPoison : List Nat
  /-- words of which the cluster's caches hold older copies (R60), by number -/
  stale : Table Stale
  deriving DecidableEq, Repr

/-- A launch entry (R26). `first` is the next index to create. -/
structure LaunchEntry where
  seq     : Nat
  desc    : BitVec 512
  next    : Nat
  /-- threads of this launch entry: first index and count, after TLAUNCH's split (R306) -/
  base    : Nat
  count   : Nat
  /-- handle the first creation read (R41) -/
  handle  : Option Word
  /-- physical address of the group object, resolved when the launch was queued -/
  gpa     : Nat
  deriving DecidableEq, Repr

/-- A TLB entry (R58): page base, size code, the leaf it holds and the physical address of that leaf. -/
structure TlbEntry where
  va   : Nat
  size : Nat
  pte  : Word
  at_  : Nat
  deriving DecidableEq, Repr

/-- State of a Lupin channel (R292). -/
inductive ChanState where
  | idle | loaded | running
  deriving DecidableEq, Repr

/-- A Lupin channel (R285–R296). -/
structure Channel where
  st      : ChanState
  /-- the channel record (R285) and, for the functions that have one, the function record (R287, R288) -/
  record  : BitVec 1024
  func    : BitVec 512
  /-- innermost iterations done, or rows for COMPRESS and SELACC; nonzeros written by COMPRESS, and those of each row done -/
  done    : Nat
  counts  : List Nat
  /-- aligned 8-byte words of the source of which iterations read a part, as they were first read (R86), by physical word number -/
  edges   : Table Nat
  cwm     : Word
  /-- destination range (R289) -/
  dlo     : Nat
  dhi     : Nat
  /-- thread that executed CGO, its level and its cluster (R294) -/
  owner   : Nat
  user    : Bool
  cl      : Nat
  /-- completion record address, or 0 -/
  crec    : Word
  /-- translation was on at CGO, and the translations the channel keeps (R382) -/
  xl      : Bool
  pages   : List TlbEntry
  /-- SELACC: cluster, first unit row and rows of the grant noted at CGO -/
  grant   : Nat × Nat × Nat
  /-- source and destination overlap, so the channel acts as if it read everything first (R290) -/
  whole   : Bool
  /-- the code of a fault it has met (R381) -/
  fault   : Option Nat
  paused  : Bool
  deriving DecidableEq, Repr

/-- A job of Zinnia (R284): the thread and its access context, the destination register, the targets, the trellis record and
its address, and the next block. -/
structure ZJob where
  key   : Nat
  part  : Nat
  user  : Bool
  cl    : Nat
  reg   : BitVec 6
  tgt   : Word
  data   : BitVec 512
  addr  : Word
  block : Nat
  deriving DecidableEq, Repr

/-- Who submitted a tile instruction (R386): a thread by its TID, or a tile queue by its number. -/
inductive Submitter where
  | thread (part : Nat) (tid : BitVec 32)
  | queue (q : Nat)
  deriving DecidableEq, Repr

/-- The tag of a loop's KV writes (R318): its slot, the generation it was started for, and the pages of the slot it writes, as
address and length. -/
structure KvTag where
  slot  : Nat
  gen   : Nat
  pages : List (Nat × Nat)
  deriving DecidableEq, Repr

/-- A queued tile instruction (R299, R307, R335): its 32 bytes, where they lay, who submitted it, the context its addresses
are resolved in, the partition it is confined to, and the tag of its KV writes where a loop submitted it. -/
structure TileJob where
  word : BitVec 256
  addr : Word
  sub  : Submitter
  part : Nat
  user : Bool
  phys : Bool
  only : Option Nat
  tag  : Option KvTag := none
  deriving DecidableEq, Repr

/-- A leaf (R299, R301): the core it runs on, and its share of the output as first index and size of each dimension. -/
structure Leaf where
  core : Nat
  box  : List (Nat × Nat)
  deriving DecidableEq, Repr

/-- A fault report (R385). -/
structure Report where
  code : Nat
  flvl : Nat
  leaf : Nat
  elem : Nat
  deriving DecidableEq, Repr

/-- A tile instruction a decomposer runs: its descriptors, the trellis records they and word 3 name (0 for none), the leaves
not yet run, those that faulted, the number done, the report it keeps, the fault of a sibling that stopped it, and the
launches of TLAUNCH by partition and sequence number. -/
structure TileRun where
  job     : TileJob
  descs   : List (BitVec 512)
  data     : List (BitVec 512)
  leaves  : List Leaf
  lost    : List Leaf
  done    : Nat
  report  : Option Report
  sibling : Option (Nat × Nat)
  launch  : List (Nat × Nat)
  deriving DecidableEq, Repr

/-- A tile decomposer (R299, R307). -/
structure Decomposer where
  queue   : List TileJob
  running : List TileRun
  deriving DecidableEq, Repr

/-- A page migration in progress (R373): the page and its size code, its source and destination frames, the address of its
leaf entry, whether it moves to the fast tier, the 128-byte lines copied so far in ascending order, and those written since. -/
structure Migration where
  va     : Nat
  size   : Nat
  src    : Nat
  dst    : Nat
  entry  : Nat
  up     : Bool
  copied : Nat
  marked : List Nat
  deriving DecidableEq, Repr

/-- A partition (R12, R26, R58, R73, R75, R346). -/
structure Partition where
  seq      : Nat
  reuse    : Table Nat
  queues   : Vector (List LaunchEntry) 8
  bindings : List (Nat × Nat × Nat)
  ptroot   : Word
  ptctx    : Word
  tlb      : List TlbEntry
  xvec     : Word
  tvbase   : Word
  tvlen    : Word
  tfbase   : Word
  tflen    : Word
  thbase   : Word
  thlen    : Word
  tmark    : Word
  tstep    : Word
  tfree    : Word
  /-- tier hints by page base: priority and NEXT (R71) -/
  hints    : Table (Nat × Nat)
  /-- pages whose move was abandoned, not tried again until LHINT rewrites their hint (R373) -/
  stuck    : List Nat
  migs     : List Migration
  chans    : Vector Channel 16
  /-- halted by PSWAP (R357) -/
  halted   : Bool
  /-- keys of threads that hold prefetches, oldest first (R298) -/
  prefQ    : List Nat
  /-- KV pages whose last reference Marigold dropped, by address (R320) -/
  kvFree   : List Nat
  deriving DecidableEq, Repr

/-- The thread record of a free table entry, and of a slot nothing ever entered: every field zero (log 1). -/
def Thread.zero : Thread where
  live := false
  part := 0
  entry := 0
  pc := 0
  s := Vector.replicate 64 0
  level := .user
  vcfg := 0x8000
  vrows := 0
  vpitch := 0
  vstart := 0
  eprog := 0
  vxsat := 0
  fflags := 0
  frm := 0
  step := 0
  tid := 0
  mgrant := 0
  xcause := 0
  xpc := 0
  xval := 0
  xstat := 0
  xprog := Vector.replicate 8 0
  dbg := 0
  xscr := Vector.replicate 16 0
  g := Vector.replicate 4 0
  v := Vector.replicate 32 0
  sort := Vector.replicate 32 0
  m := Vector.replicate 8 0
  q := Vector.replicate 8 {}
  w := Vector.replicate 4 {}
  scan := none
  isL := false
  prio := 0
  seq := 0
  index := 0
  req := 0
  pos := none
  lc := none
  home := none
  passes := 0
  boosted := none
  wait := none
  resume := none
  begun := []
  trap := none
  saved := false
  loads := []
  vldas := []
  mmaRun := []
  zenc := []
  zfault := []
  prefs := []
  spoison := []
  vpoison := []

/-- A saved partition context (R357): threads by key, the parts of the partition that belong to it, its cores and clusters,
the decomposers of levels 1 and 2, and the scratch bytes with their poison and unspecified stretches (address, length, stamp,
what was written since). -/
structure PartCtx where
  part     : Nat
  halted   : Bool
  threads  : Table Thread
  cores    : Table Core
  clusters : Table Cluster
  queues   : Vector (List LaunchEntry) 8
  chans    : Vector Channel 16
  decs     : Table Decomposer
  mem      : Mem
  poison   : List (Nat × Nat)
  unspec   : List (Nat × Nat × Nat × List (Nat × Nat))
  deriving DecidableEq, Repr

/-- What a saved context holds: a thread's parts with the accumulator rows of its grant and their poison (R353), or a
partition's (R357). `rest` is a further page of one, or storage whose contents the spec leaves unspecified (R63). -/
inductive Saved where
  | rest
  | thread (hasScalar hasVector : Bool) (t : Thread) (rows : Table (BitVec 32)) (rowPoison : List Nat)
  | part (c : PartCtx)
  deriving DecidableEq, Repr

/-- A page of a context frame in memory (R353), or other storage with unspecified bytes: a read finds a free value, `stamp`
naming which; `dirty` lists what was written after the save (address and length), which makes a frame refused. -/
structure Frame where
  body  : Saved
  bytes : Nat
  stamp : Nat
  dirty : List (Nat × Nat)
  deriving DecidableEq, Repr

/-- A poisoned granule (R376): 32-byte granule number and the structure detail of class 0x5. -/
abbrev Poison := List (Nat × Nat)

/-- What issue did to the pass counters (R35), should the word prove not ready: the count and boost of the thread it chose, and
the threads whose counters rose. -/
structure Passes where
  count   : Nat
  boosted : Option Nat
  others  : List Nat
  deriving DecidableEq, Repr

/-- What the next step runs: the word of the current thread, that word with a stop that may fall inside it (R348), a tile instruction
at a decomposer, or nothing chosen yet. Before thread `k` issues, `probe` looks whether the words of the other threads of its core are
ready (R35): those `todo` are still to be looked at. -/
inductive Chosen where
  | none
  | probe (k : Nat) (todo : List Nat) (undo : Passes)
  | thread (undo : Option Passes)
  | cut
  | tile (queue : Nat)
  deriving DecidableEq, Repr

/-- Why a step stops the machine. -/
inductive Fault where
  /-- Raised by the meaning of an instruction word when no thread is selected to issue it (State.th not live). The hardware
  has no such step, so the stop is safe. -/
  | noThread
  deriving DecidableEq, Repr

/-- Why an instruction has no meaning. -/
inductive Refusal where
  /-- Raised by exec for an instruction that the model gives no meaning yet; safe. -/
  | notModelled (mnemonic : String)
  deriving DecidableEq, Repr

/-- An entry of the error log (R379): words 0 to 2. -/
structure LogEntry where
  word0 : Word
  addr  : Word
  unit  : Word
  deriving DecidableEq, Repr

/-- The error log (R379). -/
structure ErrLog where
  ce      : BitVec 32
  ue      : BitVec 32
  next    : BitVec 16
  ack     : BitVec 16
  drop    : BitVec 32
  entries : Table LogEntry
  deriving DecidableEq, Repr

/-- A code handed to the device monitor (R350): cause 0x1C1, or the cause itself, the code raised, the thread's key. -/
structure MonitorCode where
  code   : Nat
  raised : Nat
  key    : Nat
  deriving DecidableEq, Repr

/-- The registers of a format region (R67): FRB, FRL, FRS, FRV, FRK, FRC. -/
structure Region where
  frb : Word
  frl : Word
  frs : Word
  frv : Word
  frk : Word
  frc : Word
  deriving DecidableEq, Repr

/-- Marigold's mark of an entry it put into its queue (R335, R337): the partition whose loop submitted it, the function whose port
started the loop, the loop's tag, and whether a kill of the partition has discarded the entry (R358, R398). -/
structure Mark where
  part : Nat
  fn   : Nat
  tag  : KvTag
  dead : Bool
  deriving DecidableEq, Repr

/-- A tile queue (R334), with the marks of Marigold's entries by index. -/
structure TileQ where
  base : Word
  en   : Bool
  ie   : Bool
  size : Nat
  tail : BitVec 16
  head : BitVec 16
  ovf  : Bool
  pend : Bool
  marks : Table Mark := []
  deriving DecidableEq, Repr

/-- A PSWAP register with its die's shadow store (R352, R357); `ran` says that the operation under way has had its effect. -/
structure Die where
  pswap  : Word
  ran    : Bool
  shadow : Option PartCtx
  deriving DecidableEq, Repr

/-- A participant of a collective on this device (R308): its rank, its partition and level, its record, where its named buffers lie
(address and length of each piece), and whether something was written to them since its COLL (R89). -/
structure Party where
  rank : Nat
  part : Nat
  user : Bool
  data  : BitVec 512
  sends : List (Nat × Nat)
  recvs : List (Nat × Nat)
  sbad : Bool
  rbad : Bool
  deriving DecidableEq, Repr

/-- A collective open at Aster (R308): KEY, NP and the member table name it. `lost` says that a link on its path left service after its
participants had met (R390). -/
structure Coll where
  key     : Word
  members : List Nat
  parties : List Party
  remote  : List Remote
  met     : Bool
  lost    : Bool
  deriving DecidableEq, Repr

/-- Where a loop stands in its iteration (R312): at its boundary, submitting a run of a tile program (the instructions left), waiting
for the records of that run, before draining its logit rows, draining them by SELACC channels (the blocks left to start and those
started, each with its row; whether a further group follows), or before its commit. -/
inductive LoopPhase where
  | start
  | submit (left : List Word)
  | await
  | filter
  | drain (left started : List (Nat × BlockAt)) (more : Bool)
  | commit
  deriving DecidableEq, Repr

/-- A running generation loop (R311, R337): its partition, the function whose port started it, its record address, Marigold's
copy of the record, the position it has reached, and whether LPSTOP named it. -/
structure LoopRun where
  part : Nat
  fn   : Nat
  addr : Word
  data  : BitVec 1024
  pos  : Nat
  stop : Bool
  phase : LoopPhase := .start
  /-- the program run under way: a draft run by its number, then the target's; instructions of it submitted so far; whether a group
  of its blocks is drained already (R314) -/
  run  : Nat := 0
  used : Nat := 0
  tail : Bool := false
  /-- completion records awaited -/
  crecs : List Word := []
  /-- rows of this iteration that are joined, and the columns of those being joined -/
  rows : List (List Nat) := []
  cols : List (List Nat) := []
  /-- KV entries of this iteration and the pages they lie in, as address and length (R320, R321) -/
  entries : List KvEntry := []
  pages : List (Nat × Nat) := []
  /-- every draft of the iteration before was accepted: the draft model has no entry for its last position (R321) -/
  behind : Bool := false
  deriving DecidableEq, Repr

/-- LPSTAT's flags of a loop port (R337). -/
structure LoopPort where
  full : Bool
  bad  : Bool
  deriving DecidableEq, Repr

/-- The slot registers of a partition (R392). -/
structure KvRegs where
  base  : Word
  count : BitVec 32
  last  : BitVec 32
  drops : BitVec 32
  deriving DecidableEq, Repr

/-- A memory-side slice (R66): its filter, its count, the lines it holds. -/
structure Slice where
  filter : BitVec 8192
  count  : Nat
  lines  : List Nat
  deriving DecidableEq, Repr

/-- A value that a read of the host or of a peer returned, and whether it left poisoned (R377). -/
structure Returned where
  value    : Nat
  poisoned : Bool
  deriving DecidableEq, Repr

/-- A store the device sent to another device (R338): physical address, length, bytes, and whether it left poisoned (R377). -/
structure Sent where
  pa       : Nat
  len      : Nat
  value    : Nat
  poisoned : Bool
  deriving DecidableEq, Repr

/-- What an MSI-X message announces (R335, R337). -/
inductive MsiSrc where
  | tileQueue (q : Nat)
  | loop (part : Nat)
  deriving DecidableEq, Repr

/-- An MSI-X message the device sent: its function (0 the physical one) and what it announces. -/
structure Msi where
  fn  : Nat
  src : MsiSrc
  deriving DecidableEq, Repr

/-- The certificate of the device identity key (R340): the public key, x then y, and Colzer's signature of it. -/
structure Certificate where
  key : BitVec 768
  sig : BitVec 768
  deriving DecidableEq, Repr

/-- A reply of Primrose (R340): monitoring values, or an attestation report with its signature. -/
inductive Reply where
  | monitor (readings : Sensors) (ue ce : Nat)
  | report (nonce : BitVec 256) (measures : List (BitVec 384)) (feat : List Word) (fails : Nat) (sig : BitVec 768)
  deriving DecidableEq, Repr

/-- Start-up, power and management (R339–R341, R401–R406). -/
structure Platform where
  devready  : Bool
  /-- the device has started since fundamental reset: DEVREADY was set (R339); a reset of the physical function clears DEVREADY
  alone (R399) -/
  started   : Bool
  reason    : BitVec 8
  fails     : Nat
  linkLost  : Bool
  minimal   : Bool
  limit     : Nat
  fmin      : Nat
  /-- board power limit in watts -/
  power     : Nat
  /-- the PCI Express link is up -/
  pcieUp    : Bool
  images    : List Image
  staged    : List Image
  rollback  : Nat
  /-- SHA-384 of the key fused at manufacture (R339) -/
  keyHash   : BitVec 384
  /-- the device identity key, which signs reports, and its certificate (R340) -/
  identity  : BitVec 384
  cert      : Certificate
  /-- replies of Primrose, and events it logged -/
  replies   : List Reply
  events    : List Nat
  deriving DecidableEq, Repr

/-- The state of the card. -/
structure State where
  /-- the thread that is selected, and its key part × 65,536 + entry -/
  th       : Thread
  cur      : Nat
  /-- every other thread, by key -/
  parked   : Table Thread
  cores    : Table Core
  clusters : Table Cluster
  parts    : Table Partition
  /-- the newest value of every byte of storage -/
  mem      : Mem
  /-- words whose newest value has not reached its home (R60), by number -/
  late     : Table Late
  /-- 32-byte granules of other devices' memory that this device's L2 holds (R52, R59), by number -/
  fabric   : List Nat
  poison   : Poison
  frames   : Table Frame
  log      : ErrLog
  monitor  : List MonitorCode
  /-- format regions by die × 64 + number (R67) -/
  regions  : Table Region
  /-- tile queues: 0–7 of the physical function, 8–15 the peer queues, 16 + p that of partition p's function (R334, R338) -/
  tqs      : Table TileQ
  /-- device registers (R333, R338) -/
  devnum   : BitVec 8
  linken   : BitVec 8
  route    : Table Nat
  /-- trained Ramtin peers, by link (R338) -/
  linkUp   : BitVec 8
  bud      : Vector (BitVec 10) 7
  ovr      : Vector (BitVec 32) 7
  /-- slots each class received in the last period that ended (R342) -/
  served   : List Nat
  /-- decomposers by level × 256 + unit (R299) -/
  decs     : Table Decomposer
  dies     : Table Die
  /-- Zinnia's jobs, oldest first (R284) -/
  zjobs    : List ZJob
  colls    : List Coll
  /-- participants that have not observed the end of their collective yet (R89) -/
  unseen   : List Party
  loops    : List LoopRun
  ports    : Table LoopPort
  kv       : Table KvRegs
  slices   : Table Slice
  /-- MSI-X messages sent, values the host's and peers' reads returned, and stores sent to other devices, oldest first -/
  msix     : List Msi
  reads    : List Returned
  sent     : List Sent
  plat     : Platform
  /-- the model's own: steps that follow at once, what the next step runs, the number of boosts so far (their order, R34), and
  the counter of free values -/
  agenda   : List Instr
  chosen   : Chosen
  boosts   : Nat
  free     : Nat
  deriving DecidableEq, Repr

/-- A core after reset (R20, R346, R352): FEAT with every optional unit, all lanes powered, every slot stopped. R20 gives STEP as
fused, "from 0x01", and no value: 0x01 is the model's choice, like the units present (DESIGN CHOICE, log 3). -/
def Core.reset : Core where
  feat := 0x0304_0100_0000_007F
  full := true
  stop := 0xFF
  stopped := 0xFF
  haltSet := 0
  cls := none
  reserved := none
  upd := []
  icache := []
  inService := true

/-- A bank after the reset of its partition (R62): cache mode, nothing held. -/
def Bank.reset : Bank where
  mode := 0
  dec := false
  busy := false
  ovf := false
  head := 0
  ring := []
  bad := []

/-- A cluster after reset (R49, R62): CCYC 0, banks in cache mode, accumulator entries 0 (log 1). -/
def Cluster.reset : Cluster where
  ccyc := 0
  banks := Vector.replicate 16 Bank.reset
  acc := []
  accPoison := []
  stale := []

/-- A channel after reset: Idle (R292); CWM 0 (log 1). -/
def Channel.reset : Channel where
  st := .idle
  record := 0
  func := 0
  done := 0
  counts := []
  edges := []
  cwm := 0
  dlo := 0
  dhi := 0
  owner := 0
  user := false
  cl := 0
  crec := 0
  xl := false
  pages := []
  grant := (0, 0, 0)
  whole := false
  fault := none
  paused := false

/-- A partition after reset (R26, R58, R73, R75, R346): every register 0, empty queues and tables. -/
def Partition.reset : Partition where
  seq := 0
  reuse := []
  queues := Vector.replicate 8 []
  bindings := []
  ptroot := 0
  ptctx := 0
  tlb := []
  xvec := 0
  tvbase := 0
  tvlen := 0
  tfbase := 0
  tflen := 0
  thbase := 0
  thlen := 0
  tmark := 0
  tstep := 0
  tfree := 0
  hints := []
  stuck := []
  migs := []
  chans := Vector.replicate 16 Channel.reset
  halted := false
  prefQ := []
  kvFree := []

/-- A format region after reset (R67): every register 0, so disabled. -/
def Region.reset : Region where
  frb := 0
  frl := 0
  frs := 0
  frv := 0
  frk := 0
  frc := 0

/-- A tile queue after reset (R334): SIZE 4, everything else 0. -/
def TileQ.reset : TileQ where
  base := 0
  en := false
  ie := false
  size := 4
  tail := 0
  head := 0
  ovf := false
  pend := false

/-- PSWAP after reset (R352), and an empty shadow store. -/
def Die.reset : Die where
  pswap := 0
  ran := false
  shadow := none

def Decomposer.reset : Decomposer where
  queue := []
  running := []

def LoopPort.reset : LoopPort where
  full := false
  bad := false

def KvRegs.reset : KvRegs where
  base := 0
  count := 0
  last := 0
  drops := 0

def Slice.reset : Slice where
  filter := 0
  count := 0
  lines := []

/-- The images the card is shipped with (log 3): of each kind one that R339 accepts, its header the kind and zeros, its body empty. -/
def shippedImage (kind : Nat) (sig : BitVec 768) : Image where
  kind := kind
  header := BitVec.ofNat 8 kind :: List.replicate 127 0
  version := 0
  body := []
  key := 0x2FC2BD1377B01D5AFFBACA31C0C7C8F3D1504599BD33B02708D6D6EF39DA5083FC2AD7CCE81A401335EA28F19C06204C1CF965273030C47398D5A56EBEC8F2EFC5F3C4CE85D7726CEE1170E51CF2E25C66ED32D528FA56316E6A2FA56654C1D5
  sig := sig

def shippedHub : Image := shippedImage 0
  0x118944B8F5277AE513055B6042993A1DFC6F5A82F93DF0F91B05D02EA39DD3C338AA48500E3D2BEE50D6B9683CE78F150AAB175B662E520E23CA5EB27319C0C9E2029231FC2D3D5AAC7A4078F53E1308AEE871BB396162D2B8457BE20B530771
def shippedMarigold : Image := shippedImage 1
  0x682D4AF1BEB44F432DF25D02E14A5DD22AF9DA1366EA15D0438CDD4D8BA211DE4E263AD676231F8DC544129750875F587E2ACC2DA501DF455EC72DD79676577AE8CFAD7BE1CB428DBA79918B0C263F395534D13605BDAE2D7615771EF1D7F047
def shippedPrimrose : Image := shippedImage 2
  0x65CB58D772E760F0C533B32D35A18D67BC72C797199B2022A9DC27B5ECF7857DB7ADD3D6153990E80B8594776B02082828EA1BFC58250AD1C91CF99C6A06FB124EEA0A91215168C0E4597D97DA14A188BC0E809911FB3393AB44474A768FDA69

/-- The certificate the card is shipped with (log 3), which Colzer's key has signed. -/
def shippedCert : Certificate where
  key := 0x6A2FF2FBD2FDFCA21C400A3480FBC975C8ABA85045F577BA56F7EA10556F9E12B49ECFEE18E379951ABA8767658E4762678E615719EBEC91C10EB3655EA165FAD46B8B7315D9A10021E26368A02AFF8245D6F5A209B091C347267CC2728D8092
  sig := 0x490B86D32D42A8EAD487B20729D3A7030099EA50671B0F762B8BD4D0FBA25141DBE63AD4C2F8179B01B747BDA21470F25716321572034104EBD7C1BB67F33401E25FFF823D9D6C716A8D2A58B4D45030B57D6325CCE9FC608F48A14E04E5AD9B

/-- The platform right after reset: DEVREADY 0, THERM and START as R404 gives them (REASON and FAILS are stored: log 3), the
board limit at its maximum, and accepted images (log 3). -/
def Platform.reset : Platform where
  devready := false
  started := false
  reason := 0
  fails := 0
  linkLost := false
  minimal := false
  limit := 0
  fmin := 1900
  power := 1500
  pcieUp := true
  images := [shippedHub, shippedMarigold, shippedPrimrose]
  staged := []
  rollback := 0
  identity := 0x4575AF097BA450575BA73C0415798807AA7490FD819C39331451B03E342F9A7751C653A0B17481606E076C2DD4EFD486
  cert := shippedCert
  keyHash := 0x53F3581D933814B9F3B9F936D9B1AA52A444F0A92BF02F154E62B3CE6BD4B99F40DB29DE91B2A4D7F91EB90CD31D263
  replies := []
  events := []

/-- The card right after reset (R8 of the log entries named at each field; spec/18 R339, spec/24 R398–R403): no thread, empty
queues, every register at the value its map gives, and memory with nothing listed. The sparse tables hold nothing: an absent
entry reads as the reset value of its unit (Ops). -/
def State.reset : State where
  th := Thread.zero
  cur := 0
  parked := []
  cores := []
  clusters := []
  parts := []
  mem := []
  late := []
  fabric := []
  poison := []
  frames := []
  log := { ce := 0, ue := 0, next := 0, ack := 0, drop := 0, entries := [] }
  monitor := []
  regions := []
  tqs := []
  devnum := 0x80
  linken := 0
  route := []
  linkUp := 0
  bud := #v[64, 512, 128, 64, 128, 96, 32]
  ovr := Vector.replicate 7 0
  served := []
  decs := []
  dies := []
  zjobs := []
  colls := []
  unseen := []
  loops := []
  ports := []
  kv := []
  slices := []
  msix := []
  reads := []
  sent := []
  plat := Platform.reset
  agenda := []
  chosen := .none
  boosts := 0
  free := 0

end Sys2Proof.Machine
end

