-- ==== Sys2Proof/Machine/Ops.lean ====
section
/-! DEFINITION. Named operations over the state: units by number, registers, the outcome of a word, taking an exception and
returning from one (spec/19 R344–R351, spec/20 R360). -/

namespace Sys2Proof.Machine

/-! ### Units by number (R12, R13) -/

/-- The outcome of a step of this machine. -/
abbrev Out := Host.Outcome State Fault Refusal

def State.part (s : State) (p : Nat) : Partition := s.parts.get p Partition.reset
def State.setPart (s : State) (p : Nat) (x : Partition) : State := { s with parts := s.parts.set p x }
def State.cluster (s : State) (c : Nat) : Cluster := s.clusters.get c Cluster.reset
def State.setCluster (s : State) (c : Nat) (x : Cluster) : State := { s with clusters := s.clusters.set c x }
def State.core (s : State) (c : Nat) : Core := s.cores.get c Core.reset
def State.setCore (s : State) (c : Nat) (x : Core) : State := { s with cores := s.cores.set c x }

/-! ### Memory bytes -/

/-- A byte of storage: in a context frame the device wrote it holds a free value (R353). -/
def State.byteAt (s : State) (a : Nat) : Nat :=
  match s.frames.find? fun f => decide (f.1 ≤ a) && decide (a < f.1 + f.2.bytes) &&
      !(f.2.dirty.any fun d => decide (d.1 ≤ a) && decide (a < d.1 + d.2)) with
  | some f => (Config.freeByte (f.2.stamp + (a - f.1))).toNat
  | none => (s.mem.read a).toNat

/-- The little-endian value of `n` bytes of storage at `pa`. -/
def State.rdMem (s : State) (pa n : Nat) : Nat :=
  match s.frames with
  | [] => s.mem.readLE pa n
  | _ => packElems 8 (fun i => s.byteAt (pa + i)) n

/-- Store the low `n` bytes of `v` at `pa`; a frame it touches is one that was rewritten after its save (R353). -/
def State.wrMem (s : State) (pa v n : Nat) : State :=
  { s with
    mem := s.mem.writeLE pa v n
    frames := match s.frames with
      | [] => []
      | fs => fs.map fun f =>
        if decide (f.1 < pa + n) && decide (pa < f.1 + f.2.bytes) then (f.1, { f.2 with dirty := f.2.dirty ++ [(pa, n)] }) else f }

/-- Byte `a` of the aligned 8-byte word that holds it. -/
def wordByte (w : BitVec 64) (a : Nat) : Nat := elem 8 w.toNat (a % 8)

/-- A byte as its home L2 slice holds it (R60). -/
def State.homeByte (s : State) (a : Nat) : Nat :=
  match s.late.find (a / 8) with
  | some l => wordByte l.home a
  | none => s.byteAt a

/-- A byte as cluster `c` sees it through its caches (R60): an older copy it holds; else its own newest value, or that of the
home. -/
def State.seenByte (s : State) (c a : Nat) : Nat :=
  match (s.clusters.get c Cluster.reset).stale.find (a / 8) with
  | some x => wordByte x.old a
  | none =>
    match s.late.find (a / 8) with
    | some l => if l.by_.contains c then s.byteAt a else wordByte l.home a
    | none => s.byteAt a

/-- The little-endian value of `n` bytes as the home holds them. -/
def State.rdHome (s : State) (pa n : Nat) : Nat :=
  match s.late with
  | [] => s.rdMem pa n
  | _ => packElems 8 (fun i => s.homeByte (pa + i)) n

/-- The little-endian value of `n` bytes as an access sees them that goes through cluster `via`, or straight to the home. -/
def State.rdVia (s : State) (via : Option Nat) (pa n : Nat) : Nat :=
  match via with
  | none => s.rdHome pa n
  | some c =>
    match s.late, (s.clusters.get c Cluster.reset).stale with
    | [], [] => s.rdMem pa n
    | _, _ => packElems 8 (fun i => s.seenByte c (pa + i)) n

/-- Key of a thread: partition and table entry (R23). -/
def threadKey (part entry : Nat) : Nat := part * 65536 + entry

/-- The thread of a key, whether it is the selected one or not. -/
def State.thread (s : State) (k : Nat) : Thread := if k = s.cur then s.th else s.parked.get k Thread.zero

/-- Store a thread under its key. -/
def State.setThread (s : State) (k : Nat) (t : Thread) : State :=
  if k = s.cur then { s with th := t } else { s with parked := s.parked.set k t }

/-- Free a thread's table entry. -/
def State.dropThread (s : State) (k : Nat) : State :=
  if k = s.cur then { s with th := Thread.zero } else { s with parked := s.parked.erase k }

/-- Keys of the live threads: the selected one, then the parked ones, rising. -/
def State.liveKeys (s : State) : List Nat :=
  (s.cur :: (s.parked.map Prod.fst).filter (· != s.cur)).filter fun k => (s.thread k).live

/-- Make `k` the selected thread, parking the one selected before. -/
def State.select (s : State) (k : Nat) : State :=
  if k = s.cur then s
  else
    let t := s.parked.get k Thread.zero
    let park := s.parked.erase k
    { s with th := t, cur := k, parked := if s.th.live then park.set s.cur s.th else park }

/-- Run a function of the selected thread for the thread of key `k`. -/
def State.on (s : State) (k : Nat) (f : State → State) : State := (f (s.select k)).select s.cur

/-- Device-wide cluster number (R51): DIE × 80 + PART × 10 + CLUSTER, with the device-wide partition number. -/
def clusterIndex (part cluster : Nat) : Nat := part * 10 + cluster

/-- Device-wide core number. -/
def coreIndex (part cluster core : Nat) : Nat := clusterIndex part cluster * 4 + core

def Thread.clusterNo (t : Thread) : Nat := clusterIndex t.part ((t.pos.map Pos.cluster).getD 0)
def Thread.coreNo (t : Thread) : Nat :=
  coreIndex t.part ((t.pos.map Pos.cluster).getD 0) ((t.pos.map Pos.core).getD 0)
def Thread.slot (t : Thread) : Nat := (t.pos.map Pos.slot).getD 0

/-- Keys of live threads that occupy a slot of core `c`. -/
def State.residents (s : State) (c : Nat) : List Nat :=
  s.liveKeys.filter fun k => let t := s.thread k; t.pos.isSome && t.coreNo == c

/-- The thread in slot `j` of core `c`. -/
def State.inSlot (s : State) (c j : Nat) : Option Nat := (s.residents c).find? fun k => (s.thread k).slot == j

/-- Device-wide core that holds the vector context. -/
def Thread.vcore (t : Thread) : Option Nat :=
  match t.lc, t.home with
  | some _, some h => some (coreIndex t.part h.cluster h.core)
  | _, _ => none

/-- Keys of threads whose vector context a lane cluster of core `c` holds. -/
def State.vectorOwners (s : State) (c : Nat) : List Nat := s.liveKeys.filter fun k => (s.thread k).vcore == some c

/-- The thread whose vector context lane cluster `l` of core `c` holds. -/
def State.laneOwner (s : State) (c l : Nat) : Option Nat :=
  (s.vectorOwners c).find? fun k => (s.thread k).isL || (s.thread k).lc == some l

/-- Lane clusters a context of class `isL` takes when it is placed on lane cluster `l`. -/
def lanesFor (isL : Bool) (l : Nat) : List Nat := if isL then [0, 1, 2, 3] else [l]

/-- LOC of a position (R13). -/
def locOf (part cluster core slot : Nat) : Nat :=
  ((part / 8) <<< 12) + ((part % 8) <<< 9) + (cluster <<< 5) + (core <<< 3) + slot

def Thread.loc (t : Thread) : Word :=
  match t.pos with
  | some p => BitVec.ofNat 64 (locOf t.part p.cluster p.core p.slot)
  | none => 0

/-- The class of core `c` (R31): none while no thread occupies any of its slots. -/
def State.coreClass (s : State) (c : Nat) : Option Bool := if (s.residents c).isEmpty then none else (s.core c).cls

/-- Change several threads. -/
def State.mapThreads (s : State) (ks : List Nat) (f : Thread → Thread) : State :=
  ks.foldl (fun s k => s.setThread k (f (s.thread k))) s

/-- A thread whose slot has not stopped (R352: a stopped slot has no word in flight). -/
def State.running (s : State) (t : Thread) : Bool := t.pos.isSome && !(s.core t.coreNo).stopped.getLsbD t.slot

/-- Advance the counter of free values. -/
def State.tick (s : State) : State := { s with free := s.free + 1 }

/-! ### Cause codes (R344) -/

/-- Code of a class and a detail. -/
def codeOf (cls detail : Nat) : Nat := cls * 32 + detail

/-- The place of a code in the order of R345: lower comes first. -/
def codeRank (code : Nat) : Nat :=
  let cls := code / 32
  let order :=
    if cls = 0 then 0 else if cls = 1 then 1
    else if code = 0x1C0 then 2
    else if cls = 7 then 3 else if cls = 6 then 4 else if cls = 9 then 5 else if cls = 10 then 6 else if cls = 11 then 7
    else if cls = 13 then 8
    else if cls = 2 then 9 else if cls = 3 then 10 else if cls = 4 then 11 else if cls = 5 then 12 else if cls = 12 then 13
    else if cls = 8 then 14 else 15
  order * 32 + code % 32

/-- Of the conditions that hold, the one R345 puts first. -/
def firstCause : List (Bool × Nat) → Option Nat
  | [] => none
  | (c, code) :: r =>
    match c, firstCause r with
    | false, x => x
    | true, none => some code
    | true, some x => some (if codeRank code ≤ codeRank x then code else x)

/-! ### The outcome of a word -/

/-- How a word ends other than by completing. -/
inductive Stop where
  /-- it raises a cause -/
  | cause (c : Cause)
  /-- it cannot proceed: nothing of it has happened, and it issues again when woken -/
  | wait (r : WaitReason)
  /-- it waits with its effects so far standing -/
  | hold (r : WaitReason)
  /-- it ends without continuing at a next word (EXIT, XRET) -/
  | gone
  deriving DecidableEq, Repr

/-- The meaning of a word: it reads and writes the state, and may stop. -/
abbrev M := EStateM Stop State

/-- Raise a cause with nothing of the word standing. -/
def raise {α : Type} (code : Nat) (xval : Word := 0) : M α := throw (.cause { code := code, xval := xval })

/-- Raise a cause when a condition holds. -/
def raiseIf (c : Bool) (code : Nat) (xval : Word := 0) : M Unit := if c then raise code xval else pure ()

/-- Raise the first of several conditions (R345). -/
def raiseFirst (l : List (Bool × Nat)) (xval : Word := 0) : M Unit :=
  match firstCause l with
  | some c => raise c xval
  | none => pure ()

def getTh : M Thread := do return (← get).th
def modTh (f : Thread → Thread) : M Unit := modify fun s => { s with th := f s.th }

/-- A free value of any kind: the index under which to read a Config function. -/
def freshIndex : M Nat := do
  let s ← get
  set s.tick
  return s.free

/-- Whether the trap registers say that a handler is running (R350, R359). -/
def Thread.inh (t : Thread) : Bool := t.xstat.getLsbD 3

/-- XSTAT of its fields (R346). -/
def xstatOf (slot vpart tpart inh : Bool) (pprv : Level) (wlvl : Nat) : Word :=
  BitVec.ofNat 64 (b2n slot + 2 * b2n vpart + 4 * b2n tpart + 8 * b2n inh + 16 * pprv.code + 64 * (wlvl % 8))

/-- The slot of the selected thread stops (R350): STOP and STOPPED of its slot become 1. -/
def stopSlot (s : State) : State :=
  let c := s.th.coreNo
  let k := s.core c
  let b : BitVec 8 := BitVec.ofNat 8 (2 ^ s.th.slot)
  s.setCore c { k with stop := k.stop ||| b, stopped := k.stopped ||| b }

/-- Taking an exception (R350): the trap registers, the level and the pc of the selected thread. `xpc` is the address of the
word to resume and `slot1` says that slot 0 of the paired word there stands. At supervisor level with INH = 1 the cause is a
double trap: no trap register changes, the slot stops and the device monitor receives 0x1C1 with the code. At monitor level
the spec describes no delivery: the slot stops and the monitor receives the code (log 11). -/
def takeTrap (c : Cause) (xpc : Word) (slot1 : Bool) (s : State) : State :=
  let t := s.th
  match t.level with
  | .monitor => { stopSlot s with monitor := s.monitor ++ [{ code := c.code, raised := c.code, key := s.cur }] }
  | l =>
    if l = .supervisor && t.inh then
      { stopSlot s with monitor := s.monitor ++ [{ code := 0x1C1, raised := c.code, key := s.cur }] }
    else
      { s with th := { t with
          xcause := BitVec.ofNat 64 (c.code % 512)
          xpc := BitVec.ofNat 64 (xpc.toNat / 8 * 8)
          xval := c.xval
          xstat := xstatOf slot1 c.vpart c.tpart true l c.wlvl
          level := .supervisor
          pc := BitVec.ofNat 64 ((s.part t.part).xvec.toNat / 8 * 8)
          resume := none } }

/-- Consumed poison is logged each time it occurs (R379); so are the codes of R380 and R373. The entry is dropped while 64
entries stand unacknowledged. -/
def logError (code addr : Nat) (part : Option Nat) (unit : Nat) (s : State) : State :=
  let g := s.log
  if (g.next - g.ack).toNat = 64 then { s with log := { g with drop := g.drop + 1 } }
  else
    let w0 := match part with
      | some p => code + (p <<< 9) + 0x2000
      | none => code
    let e : LogEntry := ⟨BitVec.ofNat 64 w0, BitVec.ofNat 64 addr, BitVec.ofNat 64 unit⟩
    { s with log := { g with next := g.next + 1, entries := g.entries.set (g.next.toNat % 64) e } }

/-- An uncorrectable error is logged and counted once. -/
def logUe (d addr : Nat) (part : Option Nat) (unit : Nat) (s : State) : State :=
  let s := logError (0x0A0 + d) addr part unit s
  { s with log := { s.log with ue := s.log.ue + 1 } }

/-- Work of the selected thread that a stop waits for (R348): VLDA past issue, MMA and MMAS, and ZENC. -/
def State.finishing (s : State) : Bool :=
  !s.th.vldas.isEmpty || !s.th.mmaRun.isEmpty || s.zjobs.any fun j => j.key == s.cur

/-- A trap of the selected thread, whose word at the pc is stopped: it is taken once the work R348 lets finish is over. A consumption of
poison is also logged (R379). -/
def deliver (c : Cause) (slot1 : Bool) (s : State) : State :=
  let s := if c.code / 32 = 5 then logError c.code c.pa (some s.th.part) s.th.loc.toNat s else s
  if s.finishing then { s with th := { s.th with trap := some ⟨c, slot1⟩ } } else takeTrap c s.th.pc slot1 s

/-- The selected thread takes the trap it still has to take. -/
def takePending (s : State) : State :=
  match s.th.trap with
  | some p => if s.finishing then s else takeTrap p.cause s.th.pc p.slot1 { s with th := { s.th with trap := none } }
  | none => s

/-- The state of a completed word: the pc moves to `npc`, and what an XRET handed to it is used up. -/
def State.doneAt (s : State) (npc : Word) : State :=
  { s with th := { s.th with pc := npc, resume := none, wait := none }, chosen := .none }

/-- A completed word: the word step is raised when it is on once the word is complete (R359), unless the word or what follows it
is a handler's (INH = 1; log 17). `s0` is the state the word began in, whose DBG counts: a CRW applies from the next instruction
on (R189). -/
def complete (s0 : State) (npc : Word) (s : State) : State :=
  let s := s.doneAt npc
  let s := { s with th := { s.th with begun := s.th.begun.erase s0.th.pc.toNat } }
  if s0.th.dbg.getLsbD 1 && !s0.th.inh && !s.th.inh then deliver { code := 0x1C4 } false s else s

/-- Slot 0 of the resumed paired word stands already (R351). -/
def Thread.resumeSlot1 (t : Thread) : Bool := (t.resume.map Resume.slot1).getD false

/-- VCFG fields (R190). A reserved SEW code never stands there: every write refuses one (R191, R364). -/
def Thread.vl (t : Thread) : Nat := bits t.vcfg.toNat 13 0
def Thread.sewCode (t : Thread) : Nat := bits t.vcfg.toNat 16 14 % 4
def Thread.sew (t : Thread) : Nat := 8 * 2 ^ t.sewCode
def Thread.grp (t : Thread) : Nat := bits t.vcfg.toNat 18 17
def Thread.scope (t : Thread) : Nat := bits t.vcfg.toNat 21 19

end Sys2Proof.Machine
end

