-- ==== Sys2Proof/Machine/Float.lean ====
section
/-! DEFINITION. Number formats, rounding and floating-point operations on exact values (spec/05 R98–R111, R116). -/

namespace Sys2Proof.Machine

/-! ### Values, formats, flags -/

/-- FFLAGS bits (R101): NX, UF, OF, DZ, NV. -/
abbrev Flags := BitVec 5
def fNX : Flags := 1
def fUF : Flags := 2
def fOF : Flags := 4
def fDZ : Flags := 8
def fNV : Flags := 16

/-- The value of a floating-point pattern: a NaN (signalling or not), an infinity, or ±m × 2^e (zero when m = 0). -/
inductive FVal where
  | nan (sig : Bool)
  | inf (neg : Bool)
  | num (neg : Bool) (m : Nat) (e : Int)
  deriving DecidableEq, Repr

/-- A binary format (R98): exponent bits and trailing significand bits. -/
structure Fmt where
  eb : Nat
  mb : Nat
  deriving DecidableEq, Repr

def fp16 : Fmt := ⟨5, 10⟩
def bf16 : Fmt := ⟨8, 7⟩
def fp32 : Fmt := ⟨8, 23⟩
def fp64 : Fmt := ⟨11, 52⟩

def Fmt.width (f : Fmt) : Nat := 1 + f.eb + f.mb
def Fmt.bias (f : Fmt) : Nat := 2 ^ (f.eb - 1) - 1
/-- Exponent of the smallest normal number. -/
def Fmt.emin (f : Fmt) : Int := 1 - (f.bias : Int)
def Fmt.emax (f : Fmt) : Int := f.bias
def Fmt.infBits (f : Fmt) (neg : Bool) : Nat := b2n neg * 2 ^ (f.eb + f.mb) + (2 ^ f.eb - 1) * 2 ^ f.mb
/-- The canonical NaN (R98 Table 2). -/
def Fmt.nanBits (f : Fmt) : Nat := (2 ^ f.eb - 1) * 2 ^ f.mb + 2 ^ (f.mb - 1)
def Fmt.zeroBits (f : Fmt) (neg : Bool) : Nat := b2n neg * 2 ^ (f.eb + f.mb)
/-- The largest finite magnitude. -/
def Fmt.maxBits (f : Fmt) (neg : Bool) : Nat := f.infBits neg - 1

/-- The value of a pattern (R98, R99). -/
def Fmt.decode (f : Fmt) (x : Nat) : FVal :=
  let neg := x.testBit (f.eb + f.mb)
  let e := (x >>> f.mb) % 2 ^ f.eb
  let m := x % 2 ^ f.mb
  if e = 2 ^ f.eb - 1 then (if m = 0 then .inf neg else .nan (!m.testBit (f.mb - 1)))
  else if e = 0 then .num neg m (f.emin - f.mb)
  else .num neg (m + 2 ^ f.mb) ((e : Int) - f.bias - f.mb)

/-- Rounding modes (R100). -/
inductive RM where
  | rne | rtz | rdn | rup | rna
  deriving DecidableEq, Repr

/-- The mode of FRM.RM; codes 5–7 never occur (R100). -/
def RM.ofCode (n : Nat) : RM :=
  if n = 1 then .rtz else if n = 2 then .rdn else if n = 3 then .rup else if n = 4 then .rna else .rne

/-- The mode of the RND field (R125), with FRM's when it is 0. -/
def RM.ofRnd (frm rnd : Nat) : RM := if rnd = 0 then .ofCode frm else .ofCode (rnd - 1)

/-- Round ±(m + sticky) × 2^e to a multiple of 2^q: the multiple and whether it is inexact. `sticky` says that the value lies
strictly above m × 2^e and below (m + 1) × 2^e in magnitude. -/
def roundMag (rm : RM) (neg : Bool) (m : Nat) (e : Int) (sticky : Bool) (q : Int) : Nat × Bool :=
  if q ≤ e then
    let n := m <<< (e - q).toNat
    (match rm with
      | .rdn => if neg && sticky then n + 1 else n
      | .rup => if !neg && sticky then n + 1 else n
      | _ => n, sticky)
  else
    let k := (q - e).toNat
    let n := m >>> k
    let rem := m % 2 ^ k
    let half := 2 ^ (k - 1)
    let inex := decide (rem ≠ 0) || sticky
    let up := match rm with
      | .rne => decide (half < rem) || decide (rem = half) && (sticky || n % 2 == 1)
      | .rna => decide (half ≤ rem)
      | .rtz => false
      | .rdn => neg && inex
      | .rup => !neg && inex
    (if up then n + 1 else n, inex)

/-- Whether overflow delivers infinity under a mode (R100). -/
def overflowInf (rm : RM) (neg : Bool) : Bool :=
  match rm with
  | .rne | .rna => true
  | .rtz => false
  | .rdn => neg
  | .rup => !neg

/-- A pattern and the flags raised in making it. -/
abbrev FRes := Nat × Flags

/-- Round an exact nonzero value into a format (R100, R101: tininess after rounding; UF only when also inexact). -/
def Fmt.round (f : Fmt) (rm : RM) (neg : Bool) (m : Nat) (e : Int) (sticky : Bool := false) : FRes :=
  if m = 0 then (f.zeroBits neg, 0)
  else
    let top := e + (bitLen m : Int) - 1
    let qmin := f.emin - f.mb
    let q := max (top - f.mb) qmin
    let (n, inex) := roundMag rm neg m e sticky q
    if f.emax < q + (bitLen n : Int) - 1 then
      (if overflowInf rm neg then f.infBits neg else f.maxBits neg, fOF ||| fNX)
    else
      let (n', _) := roundMag rm neg m e sticky (top - f.mb)
      let tiny := decide (top - f.mb + (bitLen n' : Int) - 1 < f.emin)
      let flags : Flags := if inex then (if tiny then fUF ||| fNX else fNX) else 0
      (f.zeroBits neg + (q - qmin).toNat * 2 ^ f.mb + n, flags)

/-- The result of an operation that yields a NaN (R99). -/
def Fmt.nanRes (f : Fmt) (nv : Bool) : FRes := (f.nanBits, if nv then fNV else 0)

def FVal.isNan : FVal → Bool
  | .nan _ => true
  | _ => false
def FVal.isSig : FVal → Bool
  | .nan s => s
  | _ => false
def FVal.isZero : FVal → Bool
  | .num _ m _ => m == 0
  | _ => false
def FVal.neg : FVal → FVal
  | .nan s => .nan s
  | .inf n => .inf (!n)
  | .num n m e => .num (!n) m e
def FVal.sign : FVal → Bool
  | .nan _ => false
  | .inf n => n
  | .num n _ _ => n

/-- A signed integer of a sign and a magnitude. -/
def signed (neg : Bool) (m : Nat) : Int := if neg then -(m : Int) else m

/-- Round a value of any kind into a format; a NaN becomes the canonical NaN, NV when it signals. -/
def Fmt.ofVal (f : Fmt) (rm : RM) : FVal → FRes
  | .nan s => f.nanRes s
  | .inf n => (f.infBits n, 0)
  | .num n m e => f.round rm n m e

/-! ### Exact sums and products -/

/-- The exact sum of two finite values. The sign of an exact zero is that of IEEE addition. -/
def addNum (rm : RM) (n1 : Bool) (m1 : Nat) (e1 : Int) (n2 : Bool) (m2 : Nat) (e2 : Int) : FVal :=
  let e := min e1 e2
  let x := signed n1 (m1 <<< (e1 - e).toNat) + signed n2 (m2 <<< (e2 - e).toNat)
  if x = 0 then .num (if m1 = 0 && m2 = 0 && n1 == n2 then n1 else decide (rm = .rdn)) 0 e
  else .num (decide (x < 0)) x.natAbs e

/-- IEEE addition of two values: the exact value, and NV. -/
def addVal (rm : RM) (a b : FVal) : FVal × Bool :=
  match a, b with
  | .nan s, y => (.nan false, s || y.isSig)
  | x, .nan s => (.nan false, s || x.isSig)
  | .inf n, .inf n' => if n = n' then (.inf n, false) else (.nan false, true)
  | .inf n, _ => (.inf n, false)
  | _, .inf n => (.inf n, false)
  | .num n1 m1 e1, .num n2 m2 e2 => (addNum rm n1 m1 e1 n2 m2 e2, false)

/-- The exact product of two values, and NV (0 × ∞, signalling NaN). -/
def mulVal (a b : FVal) : FVal × Bool :=
  match a, b with
  | .nan s, y => (.nan false, s || y.isSig)
  | x, .nan s => (.nan false, s || x.isSig)
  | .inf n, y => if y.isZero then (.nan false, true) else (.inf (n != y.sign), false)
  | x, .inf n => if x.isZero then (.nan false, true) else (.inf (n != x.sign), false)
  | .num n1 m1 e1, .num n2 m2 e2 => (.num (n1 != n2) (m1 * m2) (e1 + e2), false)

/-- Round an exact value with NV added. -/
def Fmt.finish (f : Fmt) (rm : RM) (r : FVal × Bool) : FRes :=
  let (x, fl) := f.ofVal rm r.1
  (x, if r.2 then fl ||| fNV else fl)

/-! ### Operations (R161, R162) -/

def Fmt.add (f : Fmt) (rm : RM) (a b : Nat) : FRes := f.finish rm (addVal rm (f.decode a) (f.decode b))
def Fmt.sub (f : Fmt) (rm : RM) (a b : Nat) : FRes := f.finish rm (addVal rm (f.decode a) (f.decode b).neg)
def Fmt.mul (f : Fmt) (rm : RM) (a b : Nat) : FRes := f.finish rm (mulVal (f.decode a) (f.decode b))

/-- Fused multiply-add with sign variants (R162, R212): ±(a × b) ± c, rounded once. 0 × ∞ raises NV even with a quiet NaN c. -/
def Fmt.fma (f : Fmt) (rm : RM) (negP negC : Bool) (a b c : Nat) : FRes :=
  let (p, nv) := mulVal (f.decode a) (f.decode b)
  let c := f.decode c
  let (x, nv') := addVal rm (if negP then p.neg else p) (if negC then c.neg else c)
  f.finish rm (x, nv || nv')

/-- Division: enough quotient bits and a sticky bit. -/
def Fmt.div (f : Fmt) (rm : RM) (a b : Nat) : FRes :=
  match f.decode a, f.decode b with
  | .nan s, y => f.nanRes (s || y.isSig)
  | x, .nan s => f.nanRes (s || x.isSig)
  | .inf n, .inf _ => let _ := n; f.nanRes true
  | .inf n, y => (f.infBits (n != y.sign), 0)
  | x, .inf n => (f.zeroBits (n != x.sign), 0)
  | .num n1 m1 e1, .num n2 m2 e2 =>
    if m2 = 0 then (if m1 = 0 then f.nanRes true else (f.infBits (n1 != n2), fDZ))
    else if m1 = 0 then (f.zeroBits (n1 != n2), 0)
    else
      let k := f.mb + 4 + bitLen m2
      let x := m1 <<< k
      f.round rm (n1 != n2) (x / m2) (e1 - e2 - k) (decide (x % m2 ≠ 0))

/-- Square root. -/
def Fmt.sqrt (f : Fmt) (rm : RM) (a : Nat) : FRes :=
  match f.decode a with
  | .nan s => f.nanRes s
  | .inf n => if n then f.nanRes true else (f.infBits false, 0)
  | .num n m e =>
    if m = 0 then (f.zeroBits n, 0)
    else if n then f.nanRes true
    else
      let k := f.mb + 4
      let odd := e % 2 ≠ 0
      let x := (if odd then 2 * m else m) <<< (2 * k)
      let r := isqrt x
      f.round rm false r ((if odd then e - 1 else e) / 2 - k) (decide (r * r ≠ x))

/-- Order of two values that are no NaNs: −1, 0 or 1. -/
def cmpVal (a b : FVal) : Int :=
  match a, b with
  | .inf n, .inf n' => if n = n' then 0 else if n then -1 else 1
  | .inf n, _ => if n then -1 else 1
  | _, .inf n => if n then 1 else -1
  | .num n1 m1 e1, .num n2 m2 e2 =>
    let e := min e1 e2
    let x := signed n1 (m1 <<< (e1 - e).toNat) - signed n2 (m2 <<< (e2 - e).toNat)
    if x < 0 then -1 else if x = 0 then 0 else 1
  | _, _ => 0

/-- minimumNumber and maximumNumber (R99): a NaN loses to a number, −0 orders below +0. -/
def Fmt.minmax (f : Fmt) (isMax : Bool) (a b : Nat) : FRes :=
  let x := f.decode a
  let y := f.decode b
  let fl : Flags := if x.isSig || y.isSig then fNV else 0
  match x.isNan, y.isNan with
  | true, true => (f.nanBits, fl)
  | true, false => (b % 2 ^ f.width, fl)
  | false, true => (a % 2 ^ f.width, fl)
  | false, false =>
    let c := cmpVal x y
    let less := c < 0 || (c = 0 && x.sign && !y.sign)
    (if less == !isMax then a % 2 ^ f.width else b % 2 ^ f.width, fl)

/-- The relation of FCMP and VFCMP (R163): condition 0 EQ, 1 LT, 2 LE, 3 UN; and NV. -/
def Fmt.compare (f : Fmt) (cond : Nat) (a b : Nat) : Bool × Flags :=
  let x := f.decode a
  let y := f.decode b
  let un := x.isNan || y.isNan
  let sig := x.isSig || y.isSig
  let nv := if cond = 1 ∨ cond = 2 then un else sig
  let c := cmpVal x y
  let r := if cond = 3 then un
    else if un then false
    else if cond = 0 then c = 0
    else if cond = 1 then c < 0
    else c ≤ 0
  (r, if nv then fNV else 0)

/-- FCLASS (R165 Table 7). -/
def Fmt.classify (f : Fmt) (a : Nat) : Nat :=
  match f.decode a with
  | .nan s => if s then 2 ^ 8 else 2 ^ 9
  | .inf n => if n then 2 ^ 0 else 2 ^ 7
  | .num n m _ =>
    if m = 0 then (if n then 2 ^ 3 else 2 ^ 4)
    else if m < 2 ^ f.mb then (if n then 2 ^ 2 else 2 ^ 5)
    else (if n then 2 ^ 1 else 2 ^ 6)

/-! ### Conversions (R103, R164) -/

/-- Floating point to an integer of `w` bits (R103): the integer and the flags. -/
def toInt (w : Nat) (u : Bool) (rm : RM) : FVal → Int × Flags
  | .nan _ => (0, fNV)
  | .inf n => (if n then loBound w u else hiBound w u, fNV)
  | .num n m e =>
    -- a magnitude far beyond every range is bounded before it is formed
    let big := decide (m ≠ 0) && decide (200 < e + (bitLen m : Int))
    if big then (if n then loBound w u else hiBound w u, fNV)
    else
      let (k, inex) := roundMag rm n m e false 0
      let (y, cl) := clampTo w u (signed n k)
      (y, if cl then fNV else if inex then fNX else 0)

/-- An integer to floating point (R103). -/
def Fmt.ofInt (f : Fmt) (rm : RM) (x : Int) : FRes := f.round rm (decide (x < 0)) x.natAbs 0

/-! ### The binary8 family (R104–R107) and E8M0 (R108) -/

/-- A binary8 format: FMT8 of R106. -/
structure B8 where
  ext : Bool
  sgn : Bool
  p   : Nat
  deriving DecidableEq, Repr

def B8.ofCode (n : Nat) : B8 := ⟨n.testBit 4, n.testBit 3, n % 8⟩
def B8.t (b : B8) : Nat := b.p - 1
def B8.bias (b : B8) : Int := if b.sgn then ((2 ^ (7 - b.p) : Nat) : Int) else ((2 ^ (8 - b.p) : Nat) : Int)
def B8.nanCode (b : B8) : Nat := if b.sgn then 0x80 else 0xFF
/-- The code of the largest finite magnitude. -/
def B8.maxCode (b : B8) : Nat := (if b.sgn then 0x7F else 0xFE) - b2n b.ext
def B8.infCode (b : B8) (neg : Bool) : Nat := if b.sgn then (if neg then 0xFF else 0x7F) else 0xFE
def B8.withSign (neg : Bool) (c : Nat) : Nat := if neg then c + 0x80 else c

/-- The value of a binary8 code (R104). -/
def B8.decode (b : B8) (x : Nat) : FVal :=
  let x := x % 256
  let neg := b.sgn && x.testBit 7
  let mag := if b.sgn then x % 128 else x
  if x = 0 then .num false 0 0
  else if x = b.nanCode then .nan false
  else if b.ext && mag == b.infCode false then .inf neg
  else
    let e := mag / 2 ^ b.t
    let m := mag % 2 ^ b.t
    if e = 0 then .num neg m (1 - b.bias - b.t)
    else .num neg (m + 2 ^ b.t) ((e : Int) - b.bias - b.t)

/-- Conversion to binary8 (R107 Table 6). A format with P = 1 has no even significand: of two such values at equal distance RNE takes
the larger one; at equal distance from zero and the smallest nonzero value it takes zero, which counts as even (DESIGN CHOICE, log 10). -/
def B8.encode (b : B8) (rm : RM) (sat : Bool) (v : FVal) : FRes :=
  match v with
  | .nan s => (b.nanCode, if s then fNV else 0)
  | .inf n =>
    if n && !b.sgn then (if sat then 0 else b.nanCode, fNV)
    else if sat then (B8.withSign n b.maxCode, 0)
    else if b.ext then (b.infCode n, 0)
    else (b.nanCode, fNV)
  | .num n m e =>
    if m = 0 then (0, 0)
    else if n && !b.sgn then (if sat then 0 else b.nanCode, fNV)
    else
      let top := e + (bitLen m : Int) - 1
      let qmin := 1 - b.bias - b.t
      let q := max (top - b.t) qmin
      let (k, inex) := roundMag rm n m e false q
      let big := decide (300 < q - qmin)
      let code := if big then 0x200 else (q - qmin).toNat * 2 ^ b.t + k
      if k = 0 then (0, fUF ||| fNX)
      else if b.maxCode < code then
        (if sat || !overflowInf rm n then B8.withSign n b.maxCode
          else if b.ext then b.infCode n else b.nanCode, fOF ||| fNX)
      else (B8.withSign n code, if inex then fNX else 0)

/-- A value times its E8M0 scale (R108): e = 0xFF makes it a quiet NaN. -/
def scaleVal (e : Nat) (v : FVal) : FVal :=
  if e % 256 = 255 then .nan false
  else match v with
    | .num n m x => .num n m (x + (e % 256 : Nat) - 127)
    | y => y

/-! ### The exact word (R109–R111) -/

/-- RoundRNE(a × 2^PT) of an addend, with NX; none for a NaN or an infinity (R110). -/
def toExact (pt : Nat) : FVal → Option (Int × Bool)
  | .num n m e =>
    if m ≠ 0 && 400 < e + (bitLen m : Int) then some (signed n (2 ^ 300), false)
    else
      let (k, inex) := roundMag .rne n m (e + pt) false 0
      some (signed n k, inex)
  | _ => none

/-- The exact word of an integer, and back. -/
def exactWord (x : Int) : Nat := wrap 128 x
def exactInt (x : Nat) : Int := sInt 128 x
def inExactRange (x : Int) : Bool := decide (loBound 128 false ≤ x) && decide (x ≤ hiBound 128 false)

/-- RoundRNE(I × 2^−PT) in a format (R111); FRM modes are not consulted. -/
def Fmt.ofExact (f : Fmt) (i : Int) (pt : Nat) : FRes := f.round .rne (decide (i < 0)) i.natAbs (-(pt : Int))

/-! ### exp2 and log2, correctly rounded (R116) -/

/-- Sum of `1/(k·2^k)` for k below `n`, in units of 2^−N, each term rounded down. -/
def ln2Lo (N : Nat) : Nat → Nat
  | 0 => 0
  | n + 1 => ln2Lo N n + 2 ^ N / ((n + 1) * 2 ^ (n + 1))

/-- An enclosure of ln 2 in units of 2^−N. -/
def ln2Bounds (N : Nat) : Nat × Nat := let l := ln2Lo N N; (l, l + N + 2)

/-- Taylor sum of exp(y), y in units of 2^−N, terms rounded down (`up = 0`) or up by one (`up = 1`). -/
def expSum (N y up : Nat) : Nat → Nat → Nat → Nat
  | 0, _, _ => 0
  | n + 1, k, t => t + expSum N y up n (k + 1) (t * y / 2 ^ N / (k + 1) + up)

/-- An enclosure of 2^f for f = num / 2^s in (0, 1), in units of 2^−N. -/
def exp2Bounds (N num s : Nat) : Nat × Nat :=
  let (l, h) := ln2Bounds N
  let ylo := num * l / 2 ^ s
  let yhi := num * h / 2 ^ s + 1
  let K := N / 4 + 24
  (expSum N ylo 0 K 0 (2 ^ N), expSum N yhi 1 K 0 (2 ^ N) + K + 4)

/-- Sum of z^(2k+1)/(2k+1), z in units of 2^−N. -/
def atanhSum (N z2 up : Nat) : Nat → Nat → Nat → Nat
  | 0, _, _ => 0
  | n + 1, k, t => t / (2 * k + 1) + up + atanhSum N z2 up n (k + 1) (t * z2 / 2 ^ N + up)

/-- An enclosure of log2(m / 2^(L−1)) for m of L bits, in units of 2^−N. -/
def log2Bounds (N m : Nat) : Nat × Nat :=
  let one := 2 ^ (bitLen m - 1)
  let zlo := (m - one) * 2 ^ N / (m + one)
  let zhi := zlo + 1
  let K := N / 3 + 8
  let slo := atanhSum N (zlo * zlo / 2 ^ N) 0 K 0 zlo
  let shi := atanhSum N (zhi * zhi / 2 ^ N + 1) 1 K 0 zhi + 4
  let (l, h) := ln2Bounds N
  (2 * slo * 2 ^ N / h, 2 * shi * 2 ^ N / l + 1)

/-- The bits, from number `n − 1` down, of the largest number for which `p` holds. -/
def greatest (p : Nat → Bool) : Nat → Nat → Nat
  | 0, a => a
  | n + 1, a => greatest p n (if p (a + 2 ^ n) then a + 2 ^ n else a)

/-- ⌊2^(num / 2^s) × 2^N⌋, exact: a ≤ 2^(num / 2^s + N) says that a^(2^s) ≤ 2^(num + N × 2^s). -/
def exp2Floor (N num s : Nat) : Nat := greatest (fun a => decide (a ^ 2 ^ s ≤ 2 ^ (num + N * 2 ^ s))) (N + 1) 0

/-- ⌊log2(m / 2^(L−1)) × 2^N⌋ for m of L bits, exact: the bits of m^(2^N). -/
def log2Floor (N m : Nat) : Nat := bitLen (m ^ 2 ^ N) - 1 - 2 ^ N * (bitLen m - 1)

/-- Bits of an exact floor: two below the last significand bit of the smallest result of every format. -/
def floorBits : Nat := 256

/-- Round an irrational magnitude: `exact` rounds its exact floor at `floorBits`, with a sticky bit for the rest, which is correct
for every argument. Enclosures of rising precision come first, since where both ends round alike the result is the same and no
large power is formed. `bounds N` encloses the magnitude in units of 2^(off−N). -/
def settle (round : Nat → Int → FRes) (bounds : Nat → Nat × Nat) (off : Int) (exact : Unit → FRes) : Nat → Nat → FRes
  | 0, _ => exact ()
  | fuel + 1, N =>
    let (lo, hi) := bounds N
    let a := round lo (off - N)
    if lo ≠ 0 && a == round hi (off - N) then a else settle round bounds off exact fuel (2 * N)

/-- exp2 of a value under R116. -/
def Fmt.exp2 (f : Fmt) (rm : RM) (v : FVal) : FRes :=
  match v with
  | .nan s => f.nanRes s
  | .inf n => if n then (f.zeroBits false, 0) else (f.infBits false, 0)
  | .num n m e =>
    if m = 0 then f.round rm false 1 0
    else if 20 < e + (bitLen m : Int) then
      f.round rm false (2 ^ 64) (if n then -100064 else 99936) true
    else if 0 ≤ e then f.round rm false 1 (signed n (m <<< e.toNat))
    else
      let s := (-e).toNat
      let x := signed n m
      let i := x / ((2 ^ s : Nat) : Int)
      let num := (x % ((2 ^ s : Nat) : Int)).toNat
      if num = 0 then f.round rm false 1 i
      else
        let rnd (a : Nat) (k : Int) : FRes := f.round rm false a k true
        settle rnd (fun N => exp2Bounds N num s) i (fun _ => rnd (exp2Floor floorBits num s) (i - floorBits)) 12 (max 96 (2 * f.mb))

/-- log2 of a value under R116. -/
def Fmt.log2 (f : Fmt) (rm : RM) (v : FVal) : FRes :=
  match v with
  | .nan s => f.nanRes s
  | .inf n => if n then f.nanRes true else (f.infBits false, 0)
  | .num n m e =>
    if m = 0 then (f.infBits true, fDZ)
    else if n then f.nanRes true
    else
      let top := e + (bitLen m : Int) - 1
      if m = 2 ^ (bitLen m - 1) then f.round rm (decide (top < 0)) top.natAbs 0
      else
        let rnd (a : Nat) (k : Int) : FRes := f.round rm (decide (top < 0)) a k true
        -- the magnitude, where the fraction lies between l and h units of 2^−N
        let mag (N l h : Nat) : Nat × Nat :=
          if 0 ≤ top then (top.toNat * 2 ^ N + l, top.toNat * 2 ^ N + h) else ((-top).toNat * 2 ^ N - h, (-top).toNat * 2 ^ N - l)
        settle rnd (fun N => let (l, h) := log2Bounds N m; mag N l h) 0
          (fun _ => let l := log2Floor floorBits m; rnd (mag floorBits l (l + 1)).1 (-(floorBits : Int))) 12 96

end Sys2Proof.Machine
end

