-- ==== Sys2Proof/Machine/Trellis.lean ====
section
/-! DEFINITION. The trellis value function (spec/05 R117). -/

namespace Sys2Proof.Machine

/-- Parameters of trellis-coded weights: n, L, C, D, weights per block, target format and overflow choice (R117, R268, R67). -/
structure Trellis where
  n   : Nat
  L   : Nat
  C   : Nat
  D   : Nat
  B   : Nat
  fmt : B8
  sat : Bool
  deriving DecidableEq, Repr

/-- Stream bits of a block. -/
def Trellis.bits (t : Trellis) : Nat := t.B * t.n / 4

/-- The window of weight `i`: L stream bits from `start`, wrapping (R117). -/
def trellisWindow (N stream start : Nat) : Nat → Nat
  | 0 => 0
  | j + 1 => trellisWindow N stream start j + b2n (stream.testBit ((start + j) % N)) * 2 ^ j

/-- v of a window: the byte sum of C × w + D, less 510 (R117). -/
def trellisSum (C D w : Nat) : Int :=
  let x := (C * w + D) % 2 ^ 32
  ((x % 256 + x / 256 % 256 + x / 65536 % 256 + x / 16777216 : Nat) : Int) - 510

/-- The exact value of weight `i` of a block with scale byte `e`; a scale of 0xFF gives a quiet NaN (R117). -/
def Trellis.value (t : Trellis) (stream e i : Nat) : FVal :=
  let w := trellisWindow t.bits stream (i * t.n / 4) t.L
  let v := trellisSum t.C t.D w
  scaleVal e (.num (decide (v < 0)) v.natAbs 0)

/-- The binary8 code of weight `i`, with flags (R107, R117: RoundRNE, FRM ignored). -/
def Trellis.weight (t : Trellis) (stream e i : Nat) : FRes := t.fmt.encode .rne t.sat (t.value stream e i)

/-! ### Trellis records (R268, R269) -/

/-- A trellis record that keeps Table 4: where its streams and scale bytes lie, its parameters, and its number of blocks. -/
structure TRec where
  strm : Nat
  scl  : Nat
  tr   : Trellis
  nblk : Nat
  deriving DecidableEq, Repr

/-- The record of 64 bytes, or none where it breaks Table 4 (0x16A). -/
def TRec.ofNat (x : Nat) : Option TRec :=
  let q := x >>> 192
  let bs := Machine.bits q 4 3
  if Machine.bits q 7 5 != 0 || Machine.bits q 63 14 != 0 || x >>> 288 != 0 || bs == 3 || !x.testBit 128 ||
      Machine.bits q 10 8 == 0 || Machine.bits x 287 256 == 0 then none
  else some {
    strm := Machine.bits x 63 0
    scl := Machine.bits x 127 64
    tr := {
      n := 4 + Machine.bits q 1 0
      L := if q.testBit 2 then 16 else 12
      C := Machine.bits x 159 128
      D := Machine.bits x 191 160
      B := 16 * 4 ^ bs
      fmt := B8.ofCode (Machine.bits q 12 8)
      sat := q.testBit 13 }
    nblk := Machine.bits x 287 256 }

/-- Weights of a record. -/
def TRec.weights (r : TRec) : Nat := r.nblk * r.tr.B

/-- First and one past the last byte of the stream of blocks `k` to `m − 1`. -/
def TRec.streamBytes (r : TRec) (k m : Nat) : Nat × Nat :=
  (r.strm + k * r.tr.bits / 8, r.strm + (m * r.tr.bits + 7) / 8)

end Sys2Proof.Machine
end

