-- ==== Sys2Proof/Machine/Memory.lean ====
section
/-! DEFINITION. From an effective address to storage: address forms, translation, the physical map, FIFO ports, view windows,
update lines, poison and watermarks (spec/03, spec/21). -/

namespace Sys2Proof.Machine

/-! ### Who accesses, and how -/

/-- The agent of an access: its partition, whether it acts at user level, the device-wide cluster its thread occupies (none for
an engine, whose access to the own-cluster alias reaches nothing, R53), whether watermarks stall it (a thread's access, R87,
R290), whether its addresses are physical, as an entry of a host tile queue names them (R335), the cluster through whose caches it
passes (none for an engine, which acts at the lines' homes, R59), and the tag of a loop's KV writes (R318). -/
structure Who where
  part  : Nat
  user  : Bool
  cl    : Option Nat
  watch : Bool
  phys  : Bool := false
  via   : Option Nat := none
  tag   : Option KvTag := none
  deriving DecidableEq, Repr

/-- A thread as the agent of its own accesses. -/
def Thread.who (t : Thread) : Who :=
  { part := t.part, user := decide (t.level = .user), cl := some t.clusterNo, watch := true, via := some t.clusterNo }

/-- What an access needs of its page (R57). -/
inductive Need where
  | load | store | rmw | fetch
  deriving DecidableEq, Repr

def Need.wr : Need → Bool
  | .store | .rmw => true
  | _ => false
def Need.rd : Need → Bool
  | .store => false
  | _ => true

/-- Access fields of class 0x4 (R344). -/
def accLoad : Nat := 0
def accStore : Nat := 1
def accAtomic : Nat := 2
def accFetch : Nat := 3
def accVLoad : Nat := 4
def accVStore : Nat := 5
def accEngine : Nat := 6
def accWalk : Nat := 7

/-! ### Physical memory: bytes, poison, write hooks -/

def hbmEnd : Nat := 0x60_0000_0000
def hostBase : Nat := 0x1_0000_0000_0000
def isHbm (pa : Nat) : Bool := decide (pa < hbmEnd)
def isHost (pa : Nat) : Bool := decide (hostBase ≤ pa) && decide (pa < 2 * hostBase)
def fabricBase : Nat := 0x8_0000_0000_0000
def isFabric (pa : Nat) : Bool := decide (fabricBase ≤ pa)

/-- The Detail of the lowest poisoned granule among `n` bytes at `pa` (R377). While START.LINKLOST is set host memory reads as
poisoned with Detail 6 (R401). -/
def poisonAt (s : State) (pa n : Nat) : Option Nat :=
  if s.plat.linkLost && isHost pa then some 6
  else match s.poison with
  | [] => none
  | ps => (ps.find? fun p => decide (pa / 32 ≤ p.1) && decide (p.1 < (pa + n + 31) / 32)).map Prod.snd

/-- Poison a granule, keeping the Detail first recorded and the list in order (R376, R377). -/
def setPoison : Poison → Nat → Nat → Poison
  | [], g, d => [(g, d)]
  | (h, e) :: r, g, d => if g = h then (h, e) :: r else if g < h then (g, d) :: (h, e) :: r else (h, e) :: setPoison r g d

/-- Granules that a write of `n` bytes at `pa` covers whole lose their poison (R377). -/
def clearPoison (ps : Poison) (pa n : Nat) : Poison :=
  ps.filter fun p => !(decide (pa ≤ 32 * p.1) && decide (32 * p.1 + 32 ≤ pa + n))

/-- A line of a migrating page written after it was copied is marked (R373). -/
def markMigration (g : Migration) (pa n : Nat) : Migration :=
  let ls := (List.range ((pa + n + 127) / 128 - pa / 128)).map (· + pa / 128)
  let hit := ls.filter fun l =>
    decide (g.src ≤ l * 128) && decide (l * 128 < g.src + 128 * g.copied) && !g.marked.contains l
  { g with marked := g.marked ++ hit }

/-- Bytes stored to another device leave by the fabric, poison as a poisoned flit (R338, R377); no others do. -/
def sendOut (pa n : Nat) (s : State) : State :=
  if isFabric pa then { s with sent := s.sent ++ [⟨pa, n, s.rdMem pa n, (poisonAt s pa n).isSome⟩] } else s

/-- Every word has reached its home, and no cache holds an older copy. -/
def State.coherent (s : State) : Bool := s.late.isEmpty && s.clusters.all fun e => e.2.stale.isEmpty

/-- An aligned 8-byte word that holds any of `n` bytes at `pa`. -/
def touchesWord (pa n u : Nat) : Bool := decide (pa / 8 ≤ u) && decide (8 * u < pa + n)

/-- Runs of set bits of a byte mask: first bit and length. -/
def maskRuns (m : BitVec 8) : List (Nat × Nat) :=
  ((List.range 8).filter fun i => m.getLsbD i && !(decide (0 < i) && m.getLsbD (i - 1))).map fun i =>
    (i, ((List.range (8 - i)).takeWhile fun k => m.getLsbD (i + k)).length)

/-- The newest value of word `u` reaches its home, one of its dirty copies being evicted or written back (R60); bytes of another
device leave for it. After a surprise link loss a host word is discarded: it holds again what the host holds (R401). -/
def State.wordHome (s : State) (u : Nat) (l : Late) : State :=
  let s := { s with
    late := s.late.erase u
    clusters := s.clusters.map fun e => (e.1, { e.2 with
      stale := e.2.stale.map fun x => if x.1 == u then (u, { x.2 with ahead := false }) else x }) }
  if s.plat.linkLost && isHost (8 * u) then s.wrMem (8 * u) l.home.toNat 8
  else (maskRuns l.mask).foldl (fun s r => sendOut (8 * u + r.1) r.2 s) s

/-- The words of a range are the same everywhere from now on: what has not reached its home does, and older copies go. -/
def State.settle (s : State) (pa n : Nat) : State :=
  if s.coherent then s
  else
    let s := (s.late.filter fun e => touchesWord pa n e.1).foldl (fun s e => s.wordHome e.1 e.2) s
    { s with clusters := s.clusters.map fun e =>
        (e.1, { e.2 with stale := e.2.stale.filter fun x => !touchesWord pa n x.1 }) }

/-- A write of `n` bytes at `pa` meets a named buffer. -/
def meetsBuffer (pa n : Nat) (l : List (Nat × Nat)) : Bool := l.any fun r => decide (r.1 < pa + n) && decide (pa < r.1 + r.2)

/-- A write to a named buffer of a participant of a collective (R89). -/
def Party.written (p : Party) (pa n : Nat) : Party :=
  { p with sbad := p.sbad || meetsBuffer pa n p.sends, rbad := p.rbad || meetsBuffer pa n p.recvs }

/-- Named buffers of storage become unspecified, for every agent. -/
def spoilBuffer (l : List (Nat × Nat)) (s : State) : State :=
  l.foldl (fun s r =>
    (List.range r.2).foldl (fun s k => s.tick.wrMem (r.1 + k) (Config.freeByte s.free).toNat 1) (s.settle r.1 r.2)) s

/-- A write to a buffer of a participant that has not observed the end of its collective leaves the buffer unspecified (R89). -/
def spoilUnseen (pa n : Nat) (s : State) : State :=
  match s.unseen with
  | [] => s
  | l => l.foldl (fun s p => ([p.sends, p.recvs].filter (meetsBuffer pa n)).foldl (fun s b => spoilBuffer b s) s) s

/-- Storing, with what every write to storage does beside: it clears the poison of granules it covers (R377), marks lines of
migrating pages (R373), is noted where a collective names the buffer (R89), and makes a context frame it touches one that was
rewritten (R353). -/
def State.putBytes (s : State) (pa n v : Nat) : State :=
  spoilUnseen pa n { s.wrMem pa v n with
    poison := clearPoison s.poison pa n
    colls := s.colls.map fun c => { c with parties := c.parties.map fun p => p.written pa n }
    parts := s.parts.map fun p =>
      match p.2.migs with
      | [] => p
      | gs => (p.1, { p.2 with migs := gs.map fun g => markMigration g pa n }) }

/-- A write at the home of its bytes: every cache sees it from then on (log 6). After a surprise link loss host writes are
discarded (R401). -/
def putHome (s : State) (pa n v : Nat) : State :=
  if s.plat.linkLost && isHost pa then s else sendOut pa n ((s.settle pa n).putBytes pa n v)

/-- A read and write of word `u` at its home (R57, R372): stores that have not reached the home stay after it in the word's order, and
are written back over it. -/
def State.putUnder (s : State) (u : Nat) (f : Word → Word) : State :=
  match s.late.find u with
  | none => putHome s (8 * u) 8 (f (BitVec.ofNat 64 (s.rdMem (8 * u) 8))).toNat
  | some l =>
    if s.plat.linkLost && isHost (8 * u) then s
    else
      let h := f l.home
      let v := packElems 8 (fun i => if l.mask.getLsbD i then s.byteAt (8 * u + i) else wordByte h i) 8
      { s.putBytes (8 * u) 8 v with late := s.late.set u { l with home := h } }

/-! ### Lines of other devices (R52, R59) -/

/-- Numbers of the 32-byte granules that hold `n` bytes at `pa`. -/
def granulesOf (pa n : Nat) : List Nat := (List.range ((pa + n + 31) / 32 - pa / 32)).map (· + pa / 32)

/-- The L2 holds the bytes: all but those of another device it has not brought in. -/
def State.holds (s : State) (pa n : Nat) : Bool := !isFabric pa || (granulesOf pa n).all fun g => s.fabric.contains g

/-- The L2 brings in a granule of another device: the value is the peer's. -/
def bringIn (s : State) (g : Nat) : State :=
  if s.fabric.contains g then s else { s.tick.wrMem (32 * g) (Config.freeVec s.free).toNat 32 with fabric := s.fabric ++ [g] }

/-- A granule arrives in a poisoned flit, which counts as detected on arrival (R376, R379). -/
def arriveBad (s : State) (g : Nat) : State := logUe 7 (32 * g) none 0 { s with poison := setPoison s.poison g 7 }

/-- The L2 brings in a granule, whose flit may arrive poisoned. -/
def fillGranule (s : State) (g : Nat) : State :=
  if s.fabric.contains g then s else if Config.freeBool s.free then arriveBad (bringIn s g) g else bringIn s g

/-- What a word or an engine that waits gets meanwhile: the line of another device that it lacks. -/
def serveWait (r : WaitReason) (s : State) : State :=
  match r with
  | .fabric pa n => (granulesOf pa n).foldl fillGranule s
  | _ => s

/-- An engine's access, once the L2 holds the line it lacks. -/
def runHeld {α : Type} (m : M α) (s : State) : EStateM.Result Stop State α :=
  match m.run s with
  | .error (.wait r) _ => m.run (serveWait r s)
  | r => r

/-- An access to bytes the L2 does not hold waits until it does. -/
def needHeld (pa n : Nat) : M Unit := do
  if !(← get).holds pa n then throw (.wait (.fabric pa n))

/-- Bytes of another device that the L2 no longer holds. -/
def dropGranules (gs : List Nat) (s : State) : State :=
  { s with fabric := s.fabric.filter fun g => !gs.contains g, poison := s.poison.filter fun p => !(gs.contains p.1 && isFabric (32 * p.1)) }

/-- What another device's memory holds now (R175, R253): the L2 gives up the granules it holds of `n` bytes there, a store in them going
out first, and brings them in anew. -/
def freshen (pa n : Nat) (s : State) : State :=
  if isFabric pa then
    let gs := granulesOf pa n
    let s := gs.foldl (fun s g => s.settle (32 * g) 32) s
    gs.foldl fillGranule (dropGranules gs s)
  else s

/-! ### Update lines (R64, R65, R380) -/

def UpdFmt.bytes : UpdFmt → Nat
  | .int b => b
  | .half | .brain => 2
  | .single => 4
  | .double => 8
  | .exact => 16

/-- The binary format of a floating-point update line. -/
def UpdFmt.fmt? : UpdFmt → Option Fmt
  | .half => some fp16
  | .brain => some bf16
  | .single => some fp32
  | .double => some fp64
  | _ => none

/-- Remove the entry at an index. -/
def removeAt {α : Type} : List α → Nat → List α
  | [], _ => []
  | _ :: r, 0 => r
  | x :: r, n + 1 => x :: removeAt r n

/-- Some binary tree of RoundRNE additions over the values (R65): while more than two are left, free choices name the two to
combine next. Addition is commutative, so two values leave no choice. -/
def floatTree (f : Fmt) : Nat → Nat → List Nat → Nat
  | 0, _, l => l.foldl (fun x y => (f.add .rne x y).1) (f.zeroBits true)
  | _, _, [] => 0
  | _, _, [x] => x
  | _, _, [x, y] => (f.add .rne x y).1
  | n + 1, k, l =>
    let i := Config.freeNat k % l.length
    let x := l.getD i 0
    let r := removeAt l i
    let j := Config.freeNat (k + 1) % r.length
    floatTree f n (k + 2) ((f.add .rne x (r.getD j 0)).1 :: removeAt r j)

/-- Merge the pending addends of one element into its old value. Returns the new value, the free counter and whether an exact
word left its range (R380). -/
def mergeElem (old free : Nat) (f : UpdFmt) (adds : List Int) : Nat × Nat × Bool :=
  match f, f.fmt? with
  | _, some fm =>
    let l := old :: adds.map Int.toNat
    (floatTree fm l.length free l, if l.length ≤ 2 then free else free + 2 * l.length, false)
  | .exact, _ =>
    let x := exactInt old + adds.sum
    (exactWord x, free, !inExactRange x)
  | _, _ => (wrap (8 * f.bytes) ((old : Int) + adds.sum), free, false)

/-- The offsets of the elements an update line holds addends for, and the addends of each. -/
def UpdLine.byElem (u : UpdLine) : List (Nat × List Int) :=
  (u.adds.map Prod.fst).dedup.map fun o => (o, (u.adds.filter fun p => p.1 == o).map Prod.snd)

/-- Merge one update line at its home (R65), or at the device that holds it (R175), logging exact overflow with code 0x11A (R380). -/
def mergeLine (s : State) (u : UpdLine) : State :=
  u.byElem.foldl (fun s e =>
    let a := u.line * 128 + e.1
    let s := freshen a u.fmt.bytes s
    let (v, fr, ov) := mergeElem (s.rdHome a u.fmt.bytes) s.free u.fmt e.2
    let s := { putHome s a u.fmt.bytes v with free := fr }
    if ov then logError 0x11A a none 0 s else s) s

/-- Cores that hold an update line of `line`. -/
def State.holders (s : State) (line : Nat) : List (Nat × Core) :=
  s.cores.filter fun e => e.2.upd.any fun u => u.line == line

/-- Recall every update line of `line` (R65). Lines of one floating-point format merge together, so that the value is that of
some tree over every addend. -/
def recallLine (s : State) (line : Nat) : State :=
  match s.holders line with
  | [] => s
  | h =>
    let us := h.flatMap fun e => e.2.upd.filter fun u => u.line == line
    let s := h.foldl (fun s e => s.setCore e.1 { e.2 with upd := e.2.upd.filter fun u => u.line != line }) s
    let groups := (us.map UpdLine.fmt).dedup
    groups.foldl (fun s f =>
      mergeLine s ⟨line, f, (us.filter fun u => u.fmt == f).flatMap UpdLine.adds⟩) s

/-- Recall the update lines of the lines that hold `n` bytes at `pa`. -/
def recallRange (s : State) (pa n : Nat) : State :=
  (List.range ((pa + n + 127) / 128 - pa / 128)).foldl (fun s k => recallLine s (pa / 128 + k)) s

/-- The update lines of one core that `cov` names merge: a release covers them (R65, R91), or every line is evicted. -/
def mergeCore (s : State) (c : Nat) (cov : Nat → Bool) : State :=
  let k := s.core c
  match k.upd.filter fun u => cov u.line with
  | [] => s
  | us => us.foldl mergeLine (s.setCore c { k with upd := k.upd.filter fun u => !cov u.line })

/-- Guard bits: an exact line holds sums of 136 bits (R380). -/
def exactRoom (x : Int) : Bool := decide (-(2 ^ 135 : Int) ≤ x) && decide (x < (2 ^ 135 : Int))

/-- A full L1 set gives up one of its 20 update lines, which merges (R64): which one its policy takes is free. The set index is PA
bits 13:7 (R59). -/
def makeWay (s : State) (c line : Nat) : State :=
  let k := s.core c
  let set_ := k.upd.filter fun u => u.line % 128 == line % 128
  if set_.length < 20 then s
  else
    match set_[Config.freeNat s.free % set_.length]? with
    | some u => mergeLine ({ s with free := s.free + 1 }.setCore c { k with upd := k.upd.filter fun v => v.line != u.line }) u
    | none => s

/-- Add to an update line of core `c` (R64, R65): allocate it in a way of its set, merge first on a change of format or when the
guard bits would overflow. The core's cluster writes back and drops what its caches hold of the line. -/
def addUpdate (s : State) (c : Nat) (f : UpdFmt) (pa : Nat) (x : Int) : State :=
  let line := pa / 128
  let o := pa % 128
  let s := s.settle (line * 128) 128
  let k := s.core c
  let mine := k.upd.find? fun u => u.line == line
  let flush := match mine with
    | some u => u.fmt != f || (f == .exact && !exactRoom (((u.adds.filter fun p => p.1 == o).map Prod.snd).sum + x))
    | none => false
  let s := match flush, mine with
    | true, some u => mergeLine (s.setCore c { k with upd := k.upd.filter fun v => v.line != line }) u
    | _, _ => s
  match (s.core c).upd.find? fun u => u.line == line with
  | some u =>
    let k := s.core c
    s.setCore c { k with upd := k.upd.map fun v => if v.line == line then { u with adds := u.adds ++ [(o, x)] } else v }
  | none =>
    let s := makeWay s c line
    let k := s.core c
    s.setCore c { k with upd := k.upd ++ [⟨line, f, [(o, x)]⟩] }

/-! ### Reading and writing storage -/

/-- A write at the home, which first recalls the lines' update lines (R65). -/
def physWrite (s : State) (pa n v : Nat) : State := putHome (recallRange s pa n) pa n v

/-- Read storage at its home after recalling update lines. -/
def physRead (s : State) (pa n : Nat) : State × Nat :=
  let s := recallRange s pa n
  (s, s.rdHome pa n)

/-- Read storage as an access sees it that goes through a cluster's caches, or to the home. -/
def readVia (s : State) (via : Option Nat) (pa n : Nat) : State × Nat :=
  let s := recallRange s pa n
  (s, s.rdVia via pa n)

/-- Cluster `c` stores some bytes of word `u`: what the home holds stays on record until a write-back, and each other cluster whose
caches held the newest value has the new one from then on, or stays with its own, by a free choice (log 6). -/
def holdDirty (c pa n : Nat) (s : State) (u : Nat) : State :=
  let now : Word := BitVec.ofNat 64 (s.rdMem (8 * u) 8)
  let l := (s.late.find u).getD ⟨now, 0, []⟩
  let mask := (List.range 8).foldl (fun m i =>
    if decide (pa ≤ 8 * u + i) && decide (8 * u + i < pa + n) then m ||| BitVec.ofNat 8 (2 ^ i) else m) l.mask
  let r := (l.by_.filter (· != c)).foldl (fun (q : State × List Nat) d =>
    let s := q.1
    if Config.freeBool s.free then (s.tick, q.2 ++ [d])
    else (s.tick.setCluster d { s.cluster d with stale := (s.cluster d).stale.set u ⟨now, true⟩ }, q.2)) (s, [c])
  { r.1 with
    late := r.1.late.set u ⟨l.home, mask, r.2⟩
    clusters := r.1.clusters.map fun e => if e.1 = c then (c, { e.2 with stale := e.2.stale.erase u }) else e }

/-- A store into the caches of cluster `c`, write-back (R59): the home does not hold it yet. -/
def dirtyWrite (s : State) (c pa n v : Nat) : State :=
  if s.plat.linkLost && isHost pa then s
  else
    let s := recallRange s pa n
    ((List.range ((pa + n + 7) / 8 - pa / 8)).foldl (fun s k => holdDirty c pa n s (pa / 8 + k)) s).putBytes pa n v

/-- A store by way of a cluster's caches, or at the home. -/
def writeVia (s : State) (via : Option Nat) (pa n v : Nat) : State :=
  match via with
  | none => physWrite s pa n v
  | some c => dirtyWrite s c pa n v

/-! ### Write-back, releases and acquires (R59, R60, R77) -/

/-- The other clusters on which threads run. -/
def State.watchers (s : State) (c : Nat) : List Nat :=
  ((s.liveKeys.filter fun k => (s.thread k).pos.isSome).map fun k => (s.thread k).clusterNo).dedup.filter (· != c)

/-- Every other cluster on which a thread runs may keep the copy `old` of word `u` that it holds, by a free choice. -/
def leaveCopies (c u : Nat) (old : Word) (except : List Nat) (s : State) : State :=
  (s.watchers c).foldl (fun s d =>
    let k := s.cluster d
    if except.contains d || (k.stale.find u).isSome then s
    else if Config.freeBool s.free then s.tick.setCluster d { k with stale := k.stale.set u ⟨old, false⟩ }
    else s.tick) s

/-- Cluster `c` holds the word dirty: the newest value, or a store of its own that the home does not hold. -/
def State.dirtyAt (s : State) (c : Nat) (e : Nat × Late) : Bool :=
  e.2.by_.contains c || match (s.cluster c).stale.find e.1 with
    | some x => x.ahead
    | none => false

/-- Cluster `c` writes back one dirty line. What other clusters see of its words may stay what the home held until then. -/
def writeBackLine (c line : Nat) (s : State) : State :=
  (s.late.filter fun e => e.1 / 16 == line && s.dirtyAt c e).foldl (fun s e =>
    leaveCopies c e.1 e.2.home e.2.by_ (s.wordHome e.1 e.2)) s

/-- The lines cluster `c` holds dirty. -/
def State.dirtyLines (s : State) (c : Nat) : List Nat := ((s.late.filter (s.dirtyAt c)).map fun e => e.1 / 16).dedup

/-- A release by cluster `c` at scope `sc` (R60): it writes back the dirty lines `wb` names. Scopes 0 and 1 need no write-back. -/
def releaseLines (wb : Nat → Bool) (c sc : Nat) (s : State) : State :=
  if sc < 2 then s else ((s.dirtyLines c).filter wb).foldl (fun s l => writeBackLine c l s) s

/-- The L2 gives up granules of other devices: a store in them goes out first, the next access brings them in anew, and clusters but
`d` may keep the copies they hold. -/
def giveUp (d : Nat) (gs : List Nat) (s : State) : State :=
  let mine := (s.late.filter fun e => gs.contains (e.1 / 4))
  let s := mine.foldl (fun s e => s.wordHome e.1 e.2) s
  let s := (gs.flatMap fun g => [4 * g, 4 * g + 1, 4 * g + 2, 4 * g + 3]).foldl (fun s u =>
    leaveCopies d u (BitVec.ofNat 64 (s.rdMem (8 * u) 8)) [] s) s
  dropGranules gs s

/-- Granules of other devices that the L2 may give up: no core holds an update line of theirs. -/
def State.idleGranules (s : State) : List Nat := s.fabric.filter fun g => (s.holders (g / 4)).isEmpty

/-- An acquire by cluster `d` at scope `sc` (R60): the clean copies its caches hold of the lines `cov` names go, so that it sees what the
home holds, or a store of its own that the home has still to get. At scope 5 what the L2 holds of other devices goes too, which is how
their writes are seen (R77, R80; DEDUCED, log 55). -/
def acquireLines (cov : Nat → Bool) (d sc : Nat) (s : State) : State :=
  if sc < 2 then s
  else
    let s := match (s.cluster d).stale with
      | [] => s
      | st => s.setCluster d { s.cluster d with stale := st.filter fun x => x.2.ahead || !cov (x.1 / 16) }
    match s.idleGranules.filter fun g => cov (g / 4) with
    | [] => s
    | gs =>
      if sc < 5 then s
      else
        let s := giveUp d gs s
        s.setCluster d { s.cluster d with stale := (s.cluster d).stale.filter fun x => !gs.contains (x.1 / 4) }

/-! ### Format regions and view windows (R67–R70) -/

/-- The die whose stacks hold an HBM address (R51). -/
def hbmDie (pa : Nat) : Nat := if pa < 0x30_0000_0000 then 0 else 1

def Region.kind (r : Region) : Nat := bits r.frc.toNat 63 60
def Region.n (r : Region) : Nat := 4 + bits r.frc.toNat 9 8
def Region.block (r : Region) : Nat := 16 * 4 ^ bits r.frc.toNat 12 11
def Region.trellis (r : Region) : Trellis where
  n := r.n
  L := if r.frc.getLsbD 10 then 16 else 12
  C := bits r.frk.toNat 31 0
  D := bits r.frk.toNat 63 32
  B := r.block
  fmt := ⟨r.frc.getLsbD 17, r.frc.getLsbD 16, bits r.frc.toNat 15 13⟩
  sat := r.frc.getLsbD 18
def Region.base (r : Region) : Nat := bits r.frb.toNat 51 7 * 128
def Region.len (r : Region) : Nat := bits r.frl.toNat 47 7 * 128
def Region.scale (r : Region) : Nat := bits r.frs.toNat 51 0
def Region.voff (r : Region) : Nat := bits r.frv.toNat 47 7 * 128
def Region.pt (r : Region) : Nat := bits r.frc.toNat 27 21
/-- Format of an exact view (R67). -/
def Region.vfmt (r : Region) : Fmt :=
  let v := bits r.frc.toNat 29 28
  if v = 0 then fp32 else if v = 1 then bf16 else fp64
def Region.enabled (r : Region) : Bool :=
  r.kind == 1 && bits r.frc.toNat 15 13 != 0 && bits r.frc.toNat 12 11 != 3 || r.kind == 2 && bits r.frc.toNat 29 28 != 3
/-- Bytes of the view (R68, R69). -/
def Region.viewLen (r : Region) : Nat :=
  if r.kind = 1 then r.len * 32 / (r.block * r.n) * r.block else r.len / 16 * (r.vfmt.width / 8)

/-- Format regions, enabled, whose view holds any of `n` bytes at view offset `off`: number and registers. -/
def viewRegions (s : State) (off n : Nat) : List (Nat × Region) :=
  s.regions.filter fun e => e.2.enabled && decide (e.2.voff < off + n) && decide (off < e.2.voff + e.2.viewLen)

/-- The one enabled region whose view covers all `n` bytes; none where no view does, or where two meet there (R67). -/
def viewRegion (s : State) (off n : Nat) : Option (Nat × Region) :=
  match viewRegions s off n with
  | [e] => if e.2.voff ≤ off && decide (off + n ≤ e.2.voff + e.2.viewLen) then some e else none
  | _ => none

/-- Backing bytes and scale bytes one view byte depends on: address and length of each. -/
def Region.sources (r : Region) (j : Nat) : List (Nat × Nat) :=
  if r.kind = 1 then
    let k := j / r.block
    let b0 := k * r.trellis.bits
    [(r.base + b0 / 8, (b0 + r.trellis.bits + 7) / 8 - b0 / 8), (r.scale + k, 1)]
  else [(r.base + j / (r.vfmt.width / 8) * 16, 16)]

/-- Byte `j` of the view (R68, R69), from the backing as a load of it would find it (R70). -/
def Region.viewByte (r : Region) (rd : Nat → Nat → Nat) (j : Nat) : Nat :=
  if r.kind = 1 then
    let t := r.trellis
    let k := j / t.B
    let b0 := k * t.bits
    let stream := (rd (r.base + b0 / 8) ((b0 + t.bits + 7) / 8 - b0 / 8)) >>> (b0 % 8) % 2 ^ t.bits
    (t.weight stream (rd (r.scale + k) 1) (j % t.B)).1
  else
    let w := r.vfmt.width / 8
    let x := (r.vfmt.ofExact (exactInt (rd (r.base + j / w * 16) 16)) r.pt).1
    x >>> (8 * (j % w)) % 256

/-! ### Translation (R54–R58, R371, R375) -/

/-- The walk's result. -/
inductive Walk where
  | leaf (pte : Nat) (at_ level : Nat)
  /-- stopped at a level; `size` is the n of the class-0x2 code -/
  | miss (level size : Nat)
  /-- a cause of the walk's own access to the entry at `at_` -/
  | fail (code at_ : Nat)
  deriving DecidableEq, Repr

/-- Leaf levels of the size codes (R56 Table 4). -/
def sizeLevel (n : Nat) : Nat := if n ≤ 4 then 0 else if n ≤ 8 then 1 else if n ≤ 13 then 2 else 3

/-- The n of a class-0x2 code for a walk stopped at a level (R344). -/
def stopSize (level : Nat) : Nat :=
  if level = 0 then 0 else if level = 1 then 5 else if level = 2 then 9 else if level = 3 then 14 else 15

def pageBytes (n : Nat) : Nat := 4096 * 4 ^ n

/-- Walk from the table at `table`; the fuel is the level plus one (R54–R56). Entries are read at their home (R371, R372). Two
points the spec leaves open (log 19): an entry with V = 0 and L = 1 counts as an invalid leaf, whose miss names its SIZE field
(R344), where one with L = 0 names the level's own size; and a table that lies neither in HBM nor in host memory raises the
walk's "nonexistent" cause, views, fabric and cluster windows included. -/
def walkFrom (s : State) (va : Nat) : Nat → Nat → Walk
  | 0, _ => .miss 0 0
  | l + 1, table =>
    let at_ := table + (va / 2 ^ (12 + 9 * l)) % 512 * 8
    if !(isHbm at_ || isHost at_) then .fail (0x098 + accWalk) at_
    else if (poisonAt s at_ 8).isSome then .fail 0x0AB at_
    else
      let e := (recallRange s at_ 8).rdHome at_ 8
      let n := bits e 62 59
      let base := bits e 51 12 * 4096
      if !e.testBit 0 then .miss l (if e.testBit 1 then n else stopSize l)
      else if e.testBit 1 then
        if l = 4 || sizeLevel n != l || bits e 55 52 != 0 || base % pageBytes n != 0 then .miss l n
        else .leaf e at_ l
      else if l = 0 || bits e 55 52 != 0 then .miss l (stopSize l)
      else walkFrom s va l base

/-- What a walk does to the state: the lines it reads are recalled (R64). -/
def recallWalk (va : Nat) : Nat → Nat → State → State
  | 0, _, s => s
  | l + 1, table, s =>
    let at_ := table + (va / 2 ^ (12 + 9 * l)) % 512 * 8
    let s := recallRange s at_ 8
    let e := s.rdHome at_ 8
    if (isHbm at_ || isHost at_) && e.testBit 0 && !e.testBit 1 then recallWalk va l (bits e 51 12 * 4096) s else s

/-- The valid leaves below a table, by rising address: each page once, under the first entry of its run (R56). -/
def leavesFrom (s : State) : Nat → Nat → Nat → List TlbEntry
  | 0, _, _ => []
  | l + 1, table, va =>
    (List.range 512).flatMap fun k =>
      let at_ := table + 8 * k
      let v := va + k * 2 ^ (12 + 9 * l)
      if !(isHbm at_ || isHost at_) || (poisonAt s at_ 8).isSome then []
      else
        let e := (recallRange s at_ 8).rdHome at_ 8
        let n := bits e 62 59
        if !e.testBit 0 || bits e 55 52 != 0 then []
        else if e.testBit 1 then
          if l = 4 || sizeLevel n != l || bits e 51 12 * 4096 % pageBytes n != 0 || v % pageBytes n != 0 then []
          else [⟨v, n, BitVec.ofNat 64 e, at_⟩]
        else leavesFrom s l (bits e 51 12 * 4096) v

/-- The physical base of the page a TLB entry names. -/
def TlbEntry.frame (e : TlbEntry) : Nat := bits e.pte.toNat 51 12 * 4096

/-- The fabric address that names a physical address: of another device, or of this one's own HBM (R50, R338). -/
def State.fabricEA (s : State) (pa : Nat) : List Nat :=
  if isFabric pa then [bits pa 50 43 * 2 ^ 56 + pa % 2 ^ 43] else if isHbm pa then [s.devnum.toNat * 2 ^ 56 + pa] else []

/-- The effective addresses a partition reaches a physical address by. -/
def State.aliases (s : State) (p pa : Nat) : List Nat :=
  let q := s.part p
  let local_ := if isFabric pa then []
    else if q.ptroot.getLsbD 0 then
      ((leavesFrom s 5 (bits q.ptroot.toNat 51 12 * 4096) 0).filter fun e =>
        decide (e.frame ≤ pa) && decide (pa < e.frame + pageBytes e.size)).map fun e => e.va + (pa - e.frame)
    else [pa]
  local_ ++ s.fabricEA pa

/-- A binding covers a line of the partition (R75): some address of the line lies in the bound region. -/
def State.covers (s : State) (p : Nat) (b : Nat × Nat × Nat) (line : Nat) : Bool :=
  (s.aliases p (line * 128)).any fun ea => decide (b.2.1 ≤ ea) && decide (ea < b.2.1 + b.2.2)

/-- The lines bound to the guard at `g` in the partition's table (R76). -/
def State.coveredBy (s : State) (p g : Nat) (line : Nat) : Bool :=
  ((s.part p).bindings.filter fun b => b.1 == g).any fun b => s.covers p b line

/-- The lines of the default object: in no bound region (R75). -/
def State.unbound (s : State) (p : Nat) (line : Nat) : Bool := !((s.part p).bindings.any fun b => s.covers p b line)

/-- A translated address: where it goes, the page's size code, whether MIG stands in an entry Verbena is not migrating, and the
entry (none with translation off or for a fabric address). -/
structure Xlat where
  pa    : Nat
  size  : Nat
  mig   : Bool
  entry : Option TlbEntry

/-- The TLB entry of an address (R58). -/
def tlbFind (p : Partition) (va : Nat) : Option TlbEntry :=
  p.tlb.find? fun e => decide (e.va ≤ va) && decide (va < e.va + pageBytes e.size)

/-- A physical address at which nothing exists (R51): where an effective address of no valid form leads (R50). -/
def nonexistent : Nat := 0x7_0000_0000_0000

/-- PTCTX.FAB refuses the agent's fabric addresses (R50). -/
def fabRefused (s : State) (w : Who) : Bool :=
  let fab := bits (s.part w.part).ptctx.toNat 1 0
  !(w.phys || fab = 1 && !w.user || fab = 2)

/-- A word one of whose addresses is a refused fabric address raises 0x032 at issue: class 0x1 comes before every later class (R345,
R349). -/
def fabFirst (eas : List Word) : M Unit := do
  let s ← get
  if fabRefused s s.th.who then
    match eas.find? fun a => decide (2 ^ 63 ≤ a.toNat) with
    | some a => raise 0x032 a
    | none => pure ()

/-- Translate an effective address and check permission (R50, R54–R58). -/
def translate (w : Who) (need : Need) (ea : Word) : M Xlat := do
  let s ← get
  let a := ea.toNat
  let p := s.part w.part
  if a ≥ 2 ^ 63 then
    raiseIf (fabRefused s w) 0x032 ea
    if bits a 55 43 != 0 then return ⟨nonexistent, 0, false, none⟩
    return ⟨fabricBase + bits a 63 56 * 2 ^ 43 + a % 2 ^ 43, 0, false, none⟩
  if bits a 62 57 != 0 then return ⟨nonexistent, 0, false, none⟩
  if w.phys || !p.ptroot.getLsbD 0 then
    if w.user then throw (.cause { code := 0x05E + b2n need.wr, xval := ea, wlvl := 4 })
    if bits a 56 52 != 0 then return ⟨nonexistent, 0, false, none⟩
    return ⟨a, 0, false, none⟩
  let e ← match tlbFind p a with
    | some e => pure e
    | none =>
      match walkFrom s a 5 (bits p.ptroot.toNat 51 12 * 4096) with
      | .fail c at_ => throw (.cause { code := c, xval := ea, pa := at_ })
      | .miss l n => throw (.cause { code := 0x040 + 2 * n + b2n need.wr, xval := ea, wlvl := l })
      | .leaf pte at_ _ =>
        let n := bits pte 62 59
        let e : TlbEntry := ⟨a / pageBytes n * pageBytes n, n, BitVec.ofNat 64 pte, at_⟩
        modify fun s =>
          let s := if s.cores.any fun c => !c.2.upd.isEmpty then recallWalk a 5 (bits p.ptroot.toNat 51 12 * 4096) s else s
          s.setPart w.part { s.part w.part with tlb := (s.part w.part).tlb ++ [e] }
        pure e
  let x := e.pte.toNat
  let ok := (!need.rd || x.testBit 2) && (!need.wr || x.testBit 3) && (need != .fetch || !x.testBit 63) && (!w.user || x.testBit 4)
  raiseIf (!ok) (0x060 + 2 * e.size + b2n need.wr) ea
  let mig := x.testBit 58 && !(p.migs.any fun g => g.va == e.va)
  return ⟨bits x 51 12 * 4096 + a % pageBytes e.size, e.size, mig, some e⟩

/-- The walker sets AC, and DA on an access that needs WR, at the entry's home before the access completes (R57). -/
def setAccessed (w : Who) (need : Need) (x : Xlat) : M Unit := do
  match x.entry with
  | none => pure ()
  | some e =>
    let want : Word := if need.wr then 0x60 else 0x20
    if e.pte &&& want != want then
      modify fun s =>
        let s := recallRange s e.at_ 8
        let s := s.putUnder (e.at_ / 8) (· ||| want)
        let p := s.part w.part
        s.setPart w.part { p with tlb := p.tlb.map fun o =>
          if o.va == e.va && o.size == e.size then { o with pte := o.pte ||| want } else o }

/-! ### The physical map (R51–R53, R61, R63, R338) -/

def windowBase : Nat := 0x4_0000_0000_0000
def aliasBase : Nat := 0x5_0000_0000_0000
def viewBase : Nat := 0x6_0000_0000_0000

/-- Device-wide number of the cluster whose window an address lies in, the alias resolved (R53). -/
def windowCluster (w : Who) (pa : Nat) : Option Nat :=
  if windowBase ≤ pa && decide (pa < windowBase + 160 * 0x40_0000) then some ((pa - windowBase) / 0x40_0000)
  else if aliasBase ≤ pa && decide (pa < aliasBase + 0x40_0000) then w.cl
  else none

/-- A place in a cluster window (R53 Table 2): a bank in scratchpad mode, or the port of one in FIFO mode. -/
def windowPlace (s : State) (c off : Nat) : Place :=
  if off < 0x20_0000 then
    let b := (s.cluster c).banks[off / 0x2_0000 % 16]
    if b.mode = 1 && !b.busy then .cell (windowBase + c * 0x40_0000 + off) none else .nowhere
  else if off < 0x20_0000 + 16 * 0x1000 && off % 0x1000 < 32 then
    let n := (off - 0x20_0000) / 0x1000
    let b := (s.cluster c).banks[n % 16]
    if b.mode = 2 && !b.busy then .fifo c n (off % 0x1000) else .nowhere
  else .nowhere

/-- What this device serves at a fabric offset it receives (R338). -/
def peerServe (off : Nat) : Place :=
  if off < hbmEnd then .cell off none
  else if 0x7F0_0000_0000 ≤ off && decide (off < 0x7F0_0000_8000) then
    .peerQueue ((off - 0x7F0_0000_0000) / 0x1000) (off % 0x1000)
  else .nowhere

/-- The link that carries traffic to a device number is in service (R338). -/
def linkInService (s : State) (dev : Nat) : Bool :=
  let l := s.route.get (dev - 0x80) 0
  s.linkUp.getLsbD l && s.linken.getLsbD l

/-- The place of a physical address (R51 Table 1). -/
def placeOf (s : State) (w : Who) (pa : Nat) : Place :=
  if isHbm pa || isHost pa then .cell pa w.via
  else if viewBase ≤ pa && decide (pa < viewBase + 2 ^ 48) then .view (pa - viewBase) w.via
  else if fabricBase ≤ pa then
    let dev := bits pa 50 43
    if dev = s.devnum.toNat then peerServe (pa % 2 ^ 43)
    else if 0x80 ≤ dev && linkInService s dev then
      match peerServe (pa % 2 ^ 43) with
      | .cell _ _ => .cell pa w.via
      | .peerQueue _ _ => .peer pa
      | _ => .nowhere
    else .nowhere
  else match windowCluster w pa with
    | some c => windowPlace s c (pa % 0x40_0000)
    | none => .nowhere

/-! ### Accesses -/

/-- The register of a peer tile queue by which entries are submitted (R334, R338): TAIL. -/
def Place.isTail : Place → Bool
  | .peerQueue _ off => off == 0x10
  | .peer pa => pa % 0x1000 == 0x10
  | _ => false

/-- The physical address of a place. -/
def Place.pa : Place → Nat
  | .cell pa _ => pa
  | .fifo c b off => windowBase + c * 0x40_0000 + 0x20_0000 + b * 0x1000 + off
  | .view off _ => viewBase + off
  | .peerQueue q off => 0x7F0_0000_0000 + q * 0x1000 + off
  | .peer pa => pa
  | .nowhere => nonexistent

/-- The effective addresses by which a channel's translations reach a physical address (R382), its fabric address among them. -/
def Channel.addrs (s : State) (c : Channel) (pa : Nat) : List Nat :=
  let local_ := if isFabric pa then []
    else if c.xl then
      (c.pages.filter fun e => decide (e.frame ≤ pa) && decide (pa < e.frame + pageBytes e.size)).map fun e => e.va + (pa - e.frame)
    else [pa]
  local_ ++ s.fabricEA pa

/-- A running channel whose destination range holds a byte of the access at or above the watermark, by whatever address the access
reaches it, and its partition (R87). -/
def watermarkStall (s : State) (w : Who) (pa n : Nat) : Option (Nat × Nat) :=
  if !w.watch then none
  else
    s.parts.findSome? fun p => ((List.range 16).find? fun c =>
      match p.2.chans[c]? with
      | some k =>
        decide (k.st = .running) && (k.addrs s pa).any fun ea =>
          decide (max ea k.dlo < min (ea + n) k.dhi) && decide (k.cwm.toNat < min (ea + n) k.dhi)
      | none => false).map fun c => (p.1, c)

/-- `n` bytes at a place and `k` at another meet: the same storage, a byte of a view's source included, or one FIFO port. -/
def Place.meets (s : State) (a : Place) (n : Nat) (b : Place) (k : Nat) : Bool :=
  let ovl (x y m : Nat) : Bool := decide (x < y + m) && decide (y < x + n)
  match a, b with
  | .cell x _, .cell y _ => ovl x y k
  | .view x _, .view y _ => ovl x y k
  | .cell x _, .view y _ =>
    match viewRegion s y k with
    | some (_, r) => (List.range k).any fun i => (r.sources (y - r.voff + i)).any fun q => ovl x q.1 q.2
    | none => false
  | .peer x, .peer y => ovl x y k
  | .peerQueue x o, .peerQueue y q => x == y && ovl o q k
  | .fifo c x _, .fifo d y _ => c == d && x == y
  | _, _ => false

/-- An access of a thread takes its place in the thread's program order at each address (R78, R172, R248): it waits until the
thread's running VLDAs have read the bytes it touches, and until an earlier load waiting at the same FIFO port has popped (a further LD of
DATA waits behind it at the port). -/
def holdForLoads (w : Who) (acc : Nat) (pl : Place) (n : Nat) : M Unit := do
  let s ← get
  let t := s.th
  if w.watch && t.vldas.any (fun v => v.todo.any fun e => pl.meets s n e.place (v.sew / 8)) then throw (.wait .vlda)
  let port : Bool := match pl with
    | .fifo c b off => !((acc == accLoad || acc == accVLoad) && off == 0) && t.loads.any fun l => l.cluster == c && l.bank == b
    | _ => false
  if w.watch && port then throw (.wait .load)

/-- A later access of the thread to a byte a ZENC of its own still has to read or write waits, by whatever address it reaches the
byte (R284). -/
def holdForZenc (w : Who) (pa n : Nat) : M Unit := do
  let s ← get
  let hit (a b : Nat) : Bool := (s.aliases w.part pa).any fun ea => decide (ea < b) && decide (a < ea + n)
  let busy (j : ZJob) : Bool :=
    match TRec.ofNat j.data.toNat with
    | some r =>
      let t := j.tgt.toNat
      let st := r.streamBytes j.block r.nblk
      hit (t + 4 * r.tr.B * j.block) (t + 4 * r.weights) || hit st.1 st.2 || hit (r.scl + j.block) (r.scl + r.nblk)
    | none => false
  if w.watch && s.zjobs.any (fun j => j.key == s.cur && busy j) then throw (.wait .zenc)

/-- A page's ATTR lets caches hold its lines (R55): 0; uncached (1, and 3) and streaming (2, the L2 only) do not. With translation
off there is no attribute, and lines are cacheable (DESIGN CHOICE, log 20). -/
def Xlat.cacheable (x : Xlat) : Bool :=
  match x.entry with
  | some e => bits e.pte.toNat 57 56 == 0
  | none => true

/-- Check an access whose translation is `x`, and say where it goes: the class-0x3 and class-0x4 conditions by detail, then AC
and DA (R57, R74, R345). -/
def locateX (w : Who) (need : Need) (acc al : Nat) (ea : Word) (n : Nat) (x : Xlat) : M Place := do
  let s ← get
  match windowCluster w x.pa with
  | some c => raiseIf (c / 10 != w.part) (0x060 + 2 * x.size + b2n need.wr) ea
  | none => pure ()
  let pl := placeOf s (if x.cacheable then w else { w with via := none }) x.pa
  let viewWrite := match pl with
    | .view off _ => need.wr && !(viewRegions s off n).isEmpty
    | _ => false
  let gone := match pl with
    | .nowhere => true
    | .view off _ => (viewRegion s off n).isNone
    | .fifo _ _ _ => acc == accAtomic
    | _ => false
  raiseFirst [(ea.toNat % al != 0, 0x080 + acc), (viewWrite, 0x088 + acc), (x.mig, 0x090 + acc), (gone, 0x098 + acc)] ea
  match pl with
  | .cell pa _ | .peer pa => needHeld pa n
  | _ => pure ()
  if need != .fetch then holdForLoads w acc pl n
  holdForZenc w pl.pa n
  match pl with
  | .cell pa none => if w.via.isSome || !x.cacheable then modify fun s => s.settle pa n
  | _ => pure ()
  setAccessed w need x
  return pl

/-- Check an access of `n` bytes whose alignment is `al`, and say where it goes: translation, permission, the class-0x4
conditions by detail, then AC and DA (R57, R74, R345). -/
def locate (w : Who) (need : Need) (acc al : Nat) (ea : Word) (n : Nat) : M Place := do
  let x ← translate w need ea
  locateX w need acc al ea n x

/-- Poison met by an access: a thread's own (0x0A0 + Detail) or an engine's (0x0B0 + Detail) (R377). -/
def poisonCode (engine : Bool) (d : Nat) : Nat := (if engine then 0x0B0 else 0x0A0) + d

/-- Raise the poison cause of `n` bytes at a cell. -/
def checkPoison (acc : Nat) (ea : Word) (pa n : Nat) : M Unit := do
  let s ← get
  match poisonAt s pa n with
  | some d => throw (.cause { code := poisonCode (acc == accEngine) d, xval := ea, pa := pa })
  | none => pure ()

/-- Stall an access behind a watermark (R87). -/
def checkWatermark (w : Who) (pl : Place) (n : Nat) : M Unit := do
  let s ← get
  match watermarkStall s w pl.pa n with
  | some c => throw (.wait (.watermark c.1 c.2))
  | none => pure ()

/-- COUNT, HEAD, TAIL and OVF of a FIFO bank as its port shows them (R61 Table 6). -/
def fifoReg (b : Bank) (off : Nat) : Nat :=
  if off = 0x08 then b.head % 16384
  else if off = 0x10 then (b.head + b.ring.length) % 16384
  else b2n b.ovf * 65536 + b.ring.length

/-- Pop entries, in ascending byte order. -/
def fifoValue : List Word → Nat
  | [] => 0
  | x :: r => x.toNat + fifoValue r * 2 ^ 64

def setBank (s : State) (c n : Nat) (b : Bank) : State :=
  let k := s.cluster c
  if h : n < 16 then s.setCluster c { k with banks := k.banks.set n b h } else s

/-- The Detail of the first poisoned of the `k` entries a load pops (R376). -/
def Bank.damage (b : Bank) (k : Nat) : Option Nat :=
  match b.bad with
  | [] => none
  | bad => (List.range k).findSome? fun i => bad.find ((b.head + i) % 16384)

/-- The entries `k` pops take, and the bank without them. -/
def Bank.pop (b : Bank) (k : Nat) : Nat × Bank :=
  (fifoValue (b.ring.take k), { b with ring := b.ring.drop k, head := (b.head + k) % 16384 })

/-- Load from a FIFO port (R61). -/
def fifoLoad (acc : Nat) (ea : Word) (c n off bytes : Nat) : M Nat := do
  let s ← get
  let b := (s.cluster c).banks[n % 16]
  if off = 0 then
    raiseIf (bytes % 8 != 0 || decide (256 < bytes)) (0x098 + acc) ea
    if b.ring.length < bytes / 8 then throw (.wait (.fifo c n))
    match b.damage (bytes / 8) with
    | some d => throw (.cause { code := (if acc = accEngine then 0x0B0 else 0x0A0) + d, xval := ea, pa := windowBase + c * 0x40_0000 + 0x20_0000 + n * 0x1000 })
    | none => pure ()
    let (v, b) := b.pop (bytes / 8)
    set (setBank s c n b)
    return v
  else
    raiseIf (bytes != 8) (0x098 + acc) ea
    return fifoReg b off

/-- The 8-byte entries of a value. -/
def fifoEntries (v : Nat) : Nat → List Word
  | 0 => []
  | k + 1 => BitVec.ofNat 64 v :: fifoEntries (v / 2 ^ 64) k

/-- Push `k` entries; a damaged source damages them (R377). -/
def Bank.push (b : Bank) (k v : Nat) (damage : Option Nat) : Bank :=
  let at_ (i : Nat) : Nat := (b.head + b.ring.length + i) % 16384
  { b with
    ring := b.ring ++ fifoEntries v k
    bad := match b.bad, damage with
      | [], none => []
      | bad, d => (List.range k).foldl (fun t i => match d with
        | some d => t.set (at_ i) d
        | none => t.erase (at_ i)) bad }

/-- Store to a FIFO port (R61): a store that would overflow pushes nothing and sets OVF. -/
def fifoStore (acc : Nat) (ea : Word) (c n off bytes v : Nat) : M Unit := do
  let s ← get
  let b := (s.cluster c).banks[n % 16]
  if off = 0 then
    raiseIf (bytes % 8 != 0 || decide (256 < bytes)) (0x098 + acc) ea
    if 16384 < b.ring.length + bytes / 8 then set (setBank s c n { b with ovf := true })
    else set (setBank s c n (b.push (bytes / 8) v none))
  else
    raiseIf (bytes != 8) (0x098 + acc) ea
    if off = 0x18 then set (setBank s c n { b with ovf := b.ovf && !v.testBit 16 })

/-- Load from a view window (R68–R70): the backing is read as the accessing agent would load it; a poisoned source poisons the
decoded line whole (R376). The conditions are those of R345's order: class 0x5 before class 0xC. -/
def viewLoad (acc : Nat) (ea : Word) (off : Nat) (via : Option Nat) (n : Nat) : M Nat := do
  let s ← get
  match viewRegion s off n with
  | some (k, r) =>
    let die := k / 64
    let bad (a : Nat) : Bool := !isHbm a || hbmDie a != die
    let j0 := off - r.voff
    let srcs := (List.range n).flatMap fun i => r.sources (j0 + i)
    let line := (List.range 128).flatMap fun i =>
      let j := j0 / 128 * 128 + i
      if j < r.viewLen then r.sources j else []
    let poisoned := match s.poison with
      | [] => false
      | _ => line.any fun x => (poisonAt s x.1 x.2).isSome
    if poisoned then throw (.cause { code := poisonCode (acc == accEngine) 15, xval := ea, pa := viewBase + off })
    raiseIf (bad r.base || bad (r.base + r.len - 1)) 0x185 ea
    raiseIf (r.kind = 1 && (srcs.any fun x => x.2 == 1 && !isHbm x.1)) 0x186 ea
    let s := srcs.foldl (fun s x => recallRange s x.1 x.2) s
    set s
    return packElems 8 (fun i => r.viewByte (s.rdVia via) (j0 + i)) n
  | none => raise (0x098 + acc) ea

/-- A load of the DATA register of a FIFO port that must wait there (R61): it needs more entries than the bank holds, or an earlier
load of the thread waits before it. -/
def fifoShort (acc : Nat) (ea : Word) (bytes : Nat) : Place → M (Option (Nat × Nat))
  | .fifo c n 0 => do
    raiseIf (bytes % 8 != 0 || decide (256 < bytes)) (0x098 + acc) ea
    let s ← get
    let short := decide (((s.cluster c).banks.getD (n % 16) Bank.reset).ring.length < bytes / 8)
    return if short || s.th.loads.any fun l => l.cluster == c && l.bank == n then some (c, n) else none
  | _ => return none

/-- The registers of a tile queue (R334 Table 3). -/
def tqRead (q : TileQ) (off : Nat) : Nat :=
  if off = 0x00 then q.base.toNat / 32 * 32
  else if off = 0x08 then b2n q.en * 2 ^ 31 + b2n q.ie * 16 + q.size
  else if off = 0x10 then q.tail.toNat
  else if off = 0x18 then q.head.toNat
  else if off = 0x20 then b2n q.ovf * 2 + b2n q.pend
  else 0

/-- A write to a register of a tile queue (R334, R335): a tail write is refused while EN = 0 or when it offers more than the
ring holds. -/
def tqWrite (q : TileQ) (off v : Nat) : TileQ :=
  if off = 0x00 then { q with base := BitVec.ofNat 64 (v / 32 * 32) }
  else if off = 0x08 then
    { q with en := v.testBit 31, ie := v.testBit 4, size := if 4 ≤ v % 16 && decide (v % 16 ≤ 12) then v % 16 else q.size }
  else if off = 0x10 then
    if !q.en then q
    else
      let t : BitVec 16 := BitVec.ofNat 16 v
      if 2 ^ q.size < (t - q.head).toNat then { q with ovf := true } else { q with tail := t }
  else if off = 0x20 then { q with ovf := q.ovf && !v.testBit 1, pend := q.pend && !v.testBit 0 }
  else q

/-- An MSI-X message goes out; after a surprise link loss it is discarded (R401). -/
def sendMsi (m : Msi) (s : State) : State := if s.plat.linkLost then s else { s with msix := s.msix ++ [m] }

def State.tq (s : State) (q : Nat) : TileQ := s.tqs.get q TileQ.reset

/-- Read `n` bytes at a place. -/
def loadPlace (acc : Nat) (ea : Word) (n : Nat) : Place → M Nat
  | .cell pa via => do
    checkPoison acc ea pa n
    let (s, v) := readVia (← get) via pa n
    set s
    return v
  | .fifo c b off => fifoLoad acc ea c b off n
  | .view off via => viewLoad acc ea off via n
  | .peerQueue q off => return tqRead ((← get).tq (8 + q)) off
  | .peer pa => do
    needHeld pa n
    checkPoison acc ea pa n
    let s ← get
    set (dropGranules (granulesOf pa n) s)
    return s.rdMem pa n
  | .nowhere => raise (0x098 + acc) ea

/-- `m`, whose conditions stand before what the operand check `d` raises where R345 puts them so: in the memory classes a lower code comes
first. -/
def checked {α : Type} (d : M Unit) (m : M α) : M α := do
  let s ← get
  match d.run s with
  | .ok _ s => do
    set s
    m
  | .error (.cause e) _ => do
    match m.run s with
    | .error (.cause c) _ => throw (.cause (if c.code < e.code then c else e))
    | _ => throw (.cause e)
  | .error e _ => throw e

/-- A load of `n` bytes: checks, then the value as the accessing agent sees it. `d` is the class-0x5 check of the word's
registers, which comes after classes 0x2 to 0x4 (R345). -/
def load (w : Who) (acc al : Nat) (ea : Word) (n : Nat) (d : M Unit := pure ()) : M Nat := do
  let pl ← locate w .load acc al ea n
  checked d do
    checkWatermark w pl n
    loadPlace acc ea n pl

/-- Write the low `n` bytes of `v` at a place. A store to a register of another device leaves by the fabric at once. -/
def storePlace (acc : Nat) (ea : Word) (n v : Nat) : Place → M Unit
  | .cell pa via => modify fun s => writeVia s via pa n v
  | .fifo c b off => fifoStore acc ea c b off n v
  | .peerQueue q off => modify fun s => { s with tqs := s.tqs.set (8 + q) (tqWrite (s.tq (8 + q)) off v) }
  | .peer pa => modify fun s =>
    { dropGranules (granulesOf pa n) s with sent := s.sent ++ [⟨pa, n, v % 2 ^ (8 * n), false⟩] }
  | .view _ _ | .nowhere => raise (0x098 + acc) ea

/-! ### Releases of a thread (R76–R82) -/

/-- A release by the selected thread at scope `sc` (R60, R65, R79, R91): its ZENC's stores come first (R284); the update lines of
its core that `cov` names merge at any scope; the dirty lines of its cluster that `wb` names are written back. A write the releaser has
seen, or has acquired, is by then at its home or among those lines. -/
def releaseBy (wb cov : Nat → Bool) (sc : Nat) : M Unit := do
  let s ← get
  if s.zjobs.any (fun j => j.key == s.cur) then throw (.wait .zenc)
  set (releaseLines wb s.th.clusterNo sc (mergeCore s s.th.coreNo cov))

/-- A release of the guard at `g` at the scope in VCFG: of the regions bound to it in the releaser's table (R76). -/
def releaseGuard (g : Word) : M Unit := do
  let s ← get
  let cov := s.coveredBy s.th.part g.toNat
  releaseBy cov cov s.th.scope

/-- A release of the default object at scope `sc`: it covers memory in no bound region, and writes back every dirty line (R60,
R81). -/
def releaseDefault (sc : Nat) : M Unit := do
  let s ← get
  releaseBy (fun _ => true) (s.unbound s.th.part) sc

/-- A release of every byte, bound or not, at scope `sc` (R82, R86, R93). -/
def releaseEvery (sc : Nat) : M Unit := releaseBy (fun _ => true) (fun _ => true) sc

/-! ### KV slots (R318, R392, R393) -/

def State.kvRegs (s : State) (p : Nat) : KvRegs := s.kv.get p KvRegs.reset

/-- Address of a slot's entry. -/
def State.slotAt (s : State) (p slot : Nat) : Nat := (s.kvRegs p).base.toNat / 16 * 16 + 16 * slot

/-- A tag (SLOT, GEN) fits the slot's entry. COUNT 0 turns the check off; a slot beyond COUNT has no entry, and what the check
then says is free. -/
def State.tagOk (s : State) (p slot gen : Nat) : Bool :=
  let k := s.kvRegs p
  if k.count = 0 then true
  else if slot < k.count.toNat then (recallRange s (s.slotAt p slot) 4).rdHome (s.slotAt p slot) 4 == gen
  else Config.freeBool s.free

/-- A KV write that its home slice drops, and counts (R393). -/
def dropKv (p slot : Nat) (s : State) : State :=
  let k := s.kvRegs p
  { s with kv := s.kv.set p { k with drops := k.drops + 1, last := BitVec.ofNat 32 slot } }

/-- The slot of a write that carries a stale tag: a loop's write to a page of its slot (R318). -/
def Who.stale (w : Who) (ea : Word) (n : Nat) (s : State) : Option Nat :=
  match w.tag with
  | none => none
  | some t =>
    if (t.pages.any fun r => decide (r.1 < ea.toNat + n) && decide (ea.toNat < r.1 + r.2)) && !s.tagOk w.part t.slot t.gen then some t.slot
    else none

/-- A store of the low `n` bytes of `v`; `d` as for a load. A thread's store to TAIL of a peer tile queue is a submission from a peer,
and released as one (R93, R338). -/
def store (w : Who) (acc al : Nat) (ea : Word) (n v : Nat) (d : M Unit := pure ()) : M Unit := do
  let pl ← locate w .store acc al ea n
  checked d do
    checkWatermark w pl n
    if w.via.isSome && pl.isTail then releaseEvery 5
    match w.stale ea n (← get) with
    | some slot => modify (dropKv w.part slot)
    | none => storePlace acc ea n v pl

/-- One store that covers a whole granule clears its poison, also where it stores element by element (R377): `l` lists the
effective address and length of each piece. -/
def clearCovered (w : Who) (l : List (Word × Nat)) : M Unit := do
  let s ← get
  if !s.poison.isEmpty then
    let pieces := l.filterMap fun e =>
      match (translate w .store e.1).run s with
      | .ok x _ => if s.plat.linkLost && isHost x.pa then none else some (x.pa, e.2)
      | .error _ _ => none
    let covered (a : Nat) : Bool := pieces.any fun q => decide (q.1 ≤ a) && decide (a < q.1 + q.2)
    set { s with poison := s.poison.filter fun p => !((List.range 32).all fun k => covered (32 * p.1 + k)) }

/-! ### Acquires, and accesses at the home (R76–R85) -/

/-- An acquire by the selected thread of the lines `cov` names at scope `sc` (R60, R79). -/
def acquireBy (cov : Nat → Bool) (sc : Nat) : M Unit := modify fun s => acquireLines cov s.th.clusterNo sc s

/-- An acquire of the guard at `g` at the scope in VCFG: of the regions bound to it in the acquirer's table (R76). -/
def acquireGuard (g : Word) : M Unit := do
  let s ← get
  acquireBy (s.coveredBy s.th.part g.toNat) s.th.scope

/-- An acquire of the default object at scope `sc`. -/
def acquireDefault (sc : Nat) : M Unit := do
  let s ← get
  acquireBy (s.unbound s.th.part) sc

/-- Read a word where it has its order among all agents: at the home of its line, or at the device that holds it (R78, R85, R175). What
its flits brought stays, whatever becomes of the word (R379). -/
def readHome (acc : Nat) (ea : Word) (n : Nat) : Place → M Nat
  | .cell pa _ => do
    modify fun s => freshen pa n ((recallRange s pa n).settle pa n)
    match poisonAt (← get) pa n with
    | some d => throw (.cause { code := poisonCode (acc == accEngine) d, xval := ea, pa := pa, keep := isFabric pa })
    | none => pure ()
    return (← get).rdHome pa n
  | pl => loadPlace acc ea n pl

/-- A thread that has read the nonzero `v` at `ea` by ACQ or WAIT observes the end of the collectives of its partition whose STAT word lies
there (R89, R308). -/
def observe (ea : Word) (v : Nat) : M Unit := modify fun s =>
  match s.unseen with
  | [] => s
  | l =>
    let w := s.th.who
    let at_ (a : Word) : Option Nat := match (translate w .load a).run s with
      | .ok x _ => some x.pa
      | .error _ _ => none
    if v % 256 = 0 then s
    else { s with unseen := l.filter fun p => !(p.part == w.part && (at_ ea).isSome && at_ (BitVec.ofNat 64 (p.data.toNat >>> 384)) == at_ ea) }

/-- The read of an ACQ, a WAIT or a chain word (R176, R182): at the home of its line. -/
def loadHome (w : Who) (acc al : Nat) (ea : Word) (n : Nat) (d : M Unit := pure ()) : M Nat := do
  let pl ← locate w .load acc al ea n
  checked d do
    checkWatermark w pl n
    readHome acc ea n pl

/-- The write of a REL or of VCPUB (R79, R176), at the home of its line: `rel` releases before it. `d` is the register it
stores. -/
def storeHome (w : Who) (acc al : Nat) (ea : Word) (n v : Nat) (rel : M Unit) (d : M Unit := pure ()) : M Unit := do
  let pl ← locate w .store acc al ea n
  checked d do
    checkWatermark w pl n
    rel
    match pl with
    | .cell pa _ => modify fun s => physWrite s pa n v
    | pl => storePlace acc ea n v pl

/-- An atomic read and write in one step at the home of its line (R85, R175): the new value is a function of the old; none writes
nothing, and so releases nothing. `acq` acquires after the read and before `rel` releases; `d` consumes the data operands. -/
def atomicOp (w : Who) (acc : Nat) (ea : Word) (n : Nat) (f : Nat → Option Nat) (acq : M Unit := pure ()) (rel : M Unit := pure ())
    (d : M Unit := pure ()) : M Nat := do
  let pl ← locate w .rmw acc n ea n
  match pl with
  | .cell pa _ => do
    let old ← checked d do
      checkWatermark w pl n
      readHome acc ea n pl
    acq
    match f old with
    | some v => do
      rel
      modify fun s => physWrite s pa n v
    | none => pure ()
    return old
  | _ => raise (0x098 + acc) ea

/-! ### Fetching (R59, R94) -/

/-- Words an L1 instruction cache of 64 KiB holds (R15). -/
def icacheWords : Nat := 8192

/-- Make room for a line of 16 words in a core's L1 instruction cache: which line goes is free. -/
def icacheRoom (c : Nat) (s : State) : State :=
  let k := s.core c
  if k.icache.length + 16 ≤ icacheWords then s
  else
    match k.icache[Config.freeNat s.free % k.icache.length]? with
    | some e => s.tick.setCore c { k with icache := k.icache.filter fun x => x.1 / 16 != e.1 / 16 }
    | none => s

/-- Fetch the word at an effective address (R59, R94): the core keeps the words of a line it has fetched until an IFENCE; a word
that memory now holds differently comes old or new, by a free choice. What is never cached is not kept (R53, R55). -/
def fetch (ea : Word) : M Word := do
  let t ← getTh
  let pl ← locate t.who .fetch accFetch 8 ea 8
  checkWatermark t.who pl 8
  match pl with
  | .cell pa via =>
    checkPoison accFetch ea pa 8
    let (s, v) := readVia (← get) via pa 8
    set s
    let new : Word := BitVec.ofNat 64 v
    if via.isNone then return new
    let c := s.core t.coreNo
    match c.icache.find (pa / 8) with
    | some old =>
      if old = new then return new
      else
        let k ← freshIndex
        if Config.freeBool k then return old
        else
          modify fun s => s.setCore t.coreNo { s.core t.coreNo with icache := (s.core t.coreNo).icache.set (pa / 8) new }
          return new
    | none =>
      let s := icacheRoom t.coreNo s
      let c := s.core t.coreNo
      let line := ((List.range 16).map fun i => pa / 128 * 16 + i).filter fun i => s.holds (8 * i) 8
      set (s.setCore t.coreNo { c with icache := line.foldl (fun ic i => ic.set i (BitVec.ofNat 64 (s.rdVia via (8 * i) 8))) c.icache })
      return new
  | .view off via => return BitVec.ofNat 64 (← viewLoad accFetch ea off via 8)
  | _ => raise (0x098 + accFetch) ea

end Sys2Proof.Machine
end

