-- ==== Sys2Proof/Machine/Run.lean ====
section
/-! DEFINITION. Running one word: what stands after a cause, a wait or a stop (spec/19 R348–R351, spec/20 R360), and the registers and
checks every word uses. -/

namespace Sys2Proof.Machine

/-! ### What stands of a word -/

/-- The TLB entries a refused word's walks brought in stay, even those that denied the access (R371), as the walk finds them at their home
(R54); AC and DA are those of memory. -/
def keepTlbOf (p : Nat) (s s' : State) : State :=
  let old := (s.part p).tlb
  let new := (s'.part p).tlb.filter fun e => !(old.any fun o => o.va == e.va && o.size == e.size)
  match new with
  | [] => s
  | _ =>
    let s := new.foldl (fun s e => recallRange s e.at_ 8) s
    s.setPart p { s.part p with
      tlb := old ++ new.map fun e => { e with pte := BitVec.ofNat 64 (s.rdHome e.at_ 8) } }

/-- The same for the selected thread's partition. -/
def keepTlb (s s' : State) : State := keepTlbOf s.th.part s s'

/-- A word that turns out not to be ready was not issued (R34): the pass counters and the boost are again what they were before it
was chosen (R35). -/
def unissue (s : State) : State :=
  match s.chosen with
  | .thread (some u) =>
    let s := s.mapThreads u.others fun t => { t with passes := t.passes - 1 }
    { s with th := { s.th with passes := u.count, boosted := u.boosted } }
  | _ => s

/-- The outcome of a word that cannot proceed: the thread waits, as if it had not been chosen. A word that lacks a line of another device
issues again as soon as the L2 holds it. -/
def waitFor (r : WaitReason) (s : State) : State :=
  match r with
  | .fabric _ _ => serveWait r s
  | _ =>
    let s := unissue s
    { s with th := { s.th with wait := some r }, chosen := .none }

/-- What the resumed word at the pc had read as it began; none where it begins afresh. -/
def Thread.beganAs (t : Thread) : Option Begun :=
  match t.resume with
  | some r => if r.vpart || r.tpart then t.begun.find t.pc.toNat else none
  | none => none

/-- What the word at the pc reads as it begins (R195), or had read then if it resumes (R9, R101, R189, R191; DEDUCED for the scalar
registers, VROWS and VPITCH, and for holding it by the word's address, log 22). -/
def Thread.begins (t : Thread) : Begun := (t.beganAs).getD ⟨t.vcfg, t.frm, t.vrows, t.vpitch, t.s⟩

/-- A word of thread state `t0` that stops part way leaves on record what it began with. -/
def Thread.keepBegun (t0 : Thread) (c : Cause) (t : Thread) : Thread :=
  if c.vpart || c.tpart then { t with begun := t.begun.set t0.pc.toNat t0.begins } else t

/-- A stop inside the word at the pc: the thread keeps its progress for the word's resumption, and XSTAT shows it (R348, R349). While a
handler runs (INH = 1) XSTAT holds the interrupted word's, and stays (DEDUCED, log 22). -/
def Thread.noteStop (t : Thread) (slot1 vpart tpart : Bool) : Thread :=
  { t with
    resume := some ⟨slot1, vpart, tpart⟩
    xstat := if t.inh then t.xstat else (t.xstat &&& ~~~7) ||| BitVec.ofNat 64 (b2n slot1 + 2 * b2n vpart + 4 * b2n tpart) }

/-- A cause ends the word at the pc, with what of it stands in `s'`. An element step where a stop cuts the word short is that stop, and
no trap is taken (R348). -/
def endWord (c : Cause) (slot1 : Bool) (s s' : State) : State :=
  let s' := { s' with th := s.th.keepBegun c s'.th }
  if c.code = 0x1C3 && s.chosen == .cut && !(s.th.dbg.getLsbD 0 && !s.th.inh) then
    { s' with th := s'.th.noteStop slot1 c.vpart c.tpart, chosen := .none }
  else { deliver c slot1 s' with chosen := .none }

/-- Run a word that names its next pc. A cause leaves the state the word began in, but for what `keep` says stands. -/
def runTo (m : M Word) (s : State) : Out :=
  if s.th.live then
    match m s with
    | .ok npc s' => .next (complete s npc s')
    | .error (.cause c) s' =>
      .next (endWord c s.th.resumeSlot1 s (if c.keep then s' else keepTlb s s'))
    | .error (.wait r) _ => .next (waitFor r s)
    | .error (.hold r) s' => .next { s' with th := { s'.th with wait := some r }, chosen := .none }
    | .error .gone s' => .next { s' with chosen := .none }
  else .fault .noThread

/-- Run a word that continues at pc + 8. -/
def runWord (m : M Unit) (s : State) : Out := runTo (do m; return s.th.pc + 8) s

/-- Run a check, keeping its cause for later. -/
def attempt {α : Type} (m : M α) : M (Except Cause α) := do
  let s ← get
  match m.run s with
  | .ok x s => set s; return .ok x
  | .error (.cause c) s' => set (if c.keep then s' else keepTlb s s'); return .error c
  | .error e _ => throw e

/-- `m`, before whose memory causes the operand check `clean` stands where R345 puts it so; where `m` succeeds the check is left for
later. -/
def orClean {α : Type} (clean : M Unit) (m : M α) : M α := do
  match ← attempt m with
  | .ok x => return x
  | .error e => checked clean (throw (.cause e))

/-- The word waits for a write to what it has read. A read that reached another device stands: the next one finds what is there then. -/
def awaitWrite {α : Type} (r : WaitReason) (s0 : State) : M α := do
  if (← get).free = s0.free then throw (.wait r)
  else
    modify unissue
    throw (.hold r)

/-! ### Scalar registers (R123, R148) -/

/-- The value of a scalar register; s0 reads as zero. -/
def Thread.getS (t : Thread) (r : BitVec 6) : Word := if r = 0 then 0 else t.s[r.toNat]'r.isLt

/-- Write a scalar register; a write to s0 is discarded. The write clears the register's poison (R377), and in program order it
stands over the result a running ZENC, or a load waiting at a FIFO port, would write there. -/
def Thread.setS (t : Thread) (r : BitVec 6) (v : Word) : Thread :=
  if r = 0 then t
  else { t with
    s := t.s.set r.toNat v r.isLt, spoison := t.spoison.filter (·.reg != r), zenc := t.zenc.filter (· != r)
    loads := t.loads.map fun l => if l.vec.isNone && l.reg == r then { l with reg := 0 } else l }

/-- A scalar register that a ZENC or a waiting load will still write makes the word wait (R36, R61, R284). -/
def awaitS (r : BitVec 6) : M Unit := do
  let t ← getTh
  if t.zenc.contains r && r != 0 then throw (.wait .zenc)
  if t.loads.any (fun l => l.vec.isNone && l.reg == r) && r != 0 then throw (.wait .load)

/-- A poisoned scalar register raises 0x0A9, or the cause of the damaged entry a FIFO load brought in (R376, R377). A resumed word has
read it before. -/
def cleanS (r : BitVec 6) : M Unit := do
  let t ← getTh
  match t.spoison.find? (·.reg == r) with
  | some m => if r != 0 && t.beganAs.isNone then throw (.cause { code := m.code, xval := m.ea, pa := m.pa })
  | none => pure ()

/-- The value of a scalar register whose poison the word raises later, at class 0x5's place in its order (R345). A resumed word has it
as it began. -/
def peekS (r : BitVec 6) : M Word := do
  match (← getTh).beganAs with
  | some b => return if r = 0 then 0 else b.s[r.toNat]'r.isLt
  | none =>
    awaitS r
    return (← getTh).getS r

/-- Read a scalar register as an operand. -/
def rdS (r : BitVec 6) : M Word := do
  cleanS r
  peekS r

/-- Write a scalar register. -/
def wrS (r : BitVec 6) (v : Word) : M Unit := modTh fun t => t.setS r v

/-! ### Levels, features, contexts (R20, R22, R354, R364) -/

/-- FEAT of the executing core. -/
def featHas (s : State) (bit : Nat) : Bool := (s.core s.th.coreNo).feat.getLsbD bit

/-- An instruction that needs FEAT bit `d` raises 0x020 + d where it is clear (R364). -/
def needFeat (d : Nat) : M Unit := do
  let s ← get
  raiseIf (!featHas s d) (0x020 + d)

/-- The thread's vector context is present (R354). -/
def Thread.vectorHere (t : Thread) : Bool := t.vcore == some t.coreNo

/-- A word that needs the vector context raises 0x1C0 without it (R354). -/
def needVector : M Unit := do
  let t ← getTh
  raiseIf (!t.vectorHere) 0x1C0

/-- Add flags to FFLAGS (R101). -/
def addFlags (f : BitVec 5) : M Unit := modTh fun t => { t with fflags := t.fflags ||| f.setWidth 64 }

/-- Set VXSAT.SAT when clamping happened (R96). -/
def setSat (b : Bool) : M Unit := modTh fun t => if b then { t with vxsat := t.vxsat ||| 1 } else t


end Sys2Proof.Machine
end

