-- ==== Sys2Proof/Machine/Operands.lean ====
section
/-! DEFINITION. Operand forms: register or immediate second operands, effective addresses, widths (spec/07 R148–R149, R170). -/

namespace Sys2Proof.Machine

/-- SX(IMM, 64). -/
def immS (i : BitVec 32) : Word := i.signExtend 64

/-- ZX(IMM). -/
def immZ (i : BitVec 32) : Word := i.setWidth 64

/-- b of R148: the register named by B, or the sign-extended immediate. -/
def opB (f : Fields) : M Word :=
  match f.imm with
  | some i => pure (immS i)
  | none => rdS f.b

/-- b with a zero-extended immediate, where the entry says so. -/
def opBZ (f : Fields) : M Word :=
  match f.imm with
  | some i => pure (immZ i)
  | none => rdS f.b

/-- EA of LD and its kin: a + SX(IMM, 64) or a + b (R170). -/
def opEA (f : Fields) : M Word := do
  let a ← rdS f.a
  let b ← opB f
  return a + b

/-- b, its poison being left to `cleanB` (R345). -/
def peekB (f : Fields) : M Word :=
  match f.imm with
  | some i => pure (immS i)
  | none => peekS f.b

/-- b with a zero-extended immediate, its poison being left to `cleanB`. -/
def peekBZ (f : Fields) : M Word :=
  match f.imm with
  | some i => pure (immZ i)
  | none => peekS f.b

/-- The class-0x5 check of b. -/
def cleanB (f : Fields) : M Unit :=
  match f.imm with
  | some _ => pure ()
  | none => cleanS f.b

/-- EA, the poison of its registers being left to `cleanEA` (R345). -/
def peekEA (f : Fields) : M Word := do
  let a ← peekS f.a
  let b ← peekB f
  return a + b

/-- The class-0x5 check of an effective address's registers. -/
def cleanEA (f : Fields) : M Unit := do
  cleanS f.a
  cleanB f

/-- w of the W code (R149 Table 2). -/
def widthOf (code : Nat) : Nat :=
  if code % 4 = 0 then 64 else if code % 4 = 1 then 32 else if code % 4 = 2 then 16 else 8

/-- Opd(x) of R148: the low `w` bits, signed, or unsigned when U = 1. -/
def opd (w : Nat) (u : Bool) (x : Word) : Int := if u then uInt w x.toNat else sInt w x.toNat

/-- The format of the F code (R149 Table 2). -/
def fpFmt (code : Nat) : Fmt :=
  if code % 4 = 0 then fp64 else if code % 4 = 1 then fp32 else if code % 4 = 2 then fp16 else bf16

/-- Put(x) of R148. -/
def putWord (w : Nat) (x : Int) : Word := sxWord w (wrap w x)

/-- A class-0x0 condition found when the word runs: XVAL holds the instruction word (R361). -/
def raiseEnc {α : Type} (e : EncErr) (i : Instr) : M α := raise e.detail (firstWord i)

/-- What the word at the pc reads of the thread stands as it was when the word began: it begins now, or resumes with nothing changed. -/
abbrev Thread.AsBegun (t : Thread) : Prop := t.begins = ⟨t.vcfg, t.frm, t.vrows, t.vpitch, t.s⟩

/-- Operands that the thread can read at once: neither poisoned nor awaited from Zinnia or from a FIFO port. -/
def Thread.readable (t : Thread) (r : BitVec 6) : Bool :=
  r == 0 || (!(t.spoison.any (·.reg == r)) && !t.zenc.contains r && !(t.loads.any fun l => l.vec.isNone && l.reg == r))

end Sys2Proof.Machine
end

