-- ==== Sys2Proof/Machine/Flags.lean ====
section
/-! DEFINITION. FFLAGS, their traps and the rounding mode in force (spec/05 R100–R102, spec/20 R369). -/

namespace Sys2Proof.Machine

/-- FRM.RM, as the word began (R101). -/
def Thread.frmMode (t : Thread) : Nat := bits t.begins.frm.toNat 2 0

/-- The mode an instruction rounds under: its RND field, or FRM (R100). -/
def Thread.rm (t : Thread) (rnd : BitVec 3) : RM := RM.ofRnd t.frmMode rnd.toNat

/-- The trap enables of FRM, in the places of the flags (R100 Table 3), as the word began (R189). -/
def Thread.enables (t : Thread) : Flags := BitVec.ofNat 5 (t.begins.frm.toNat / 256)

/-- Detail of the first enabled flag raised, if any: 0 NV, 1 DZ, 2 OF, 3 UF, 4 NX (R344). -/
def trapDetail (en fl : Flags) : Option Nat :=
  let x := en &&& fl
  if x.getLsbD 4 then some 0 else if x.getLsbD 3 then some 1 else if x.getLsbD 2 then some 2
  else if x.getLsbD 1 then some 3 else if x.getLsbD 0 then some 4 else none

/-- FFLAGS gains the flags; an enabled one raises its class-0x8 cause with the destination unchanged (R102, R161). -/
def fpFlags (fl : Flags) : M Unit := do
  addFlags fl
  let t ← getTh
  match trapDetail t.enables fl with
  | some d => throw (.cause { code := 0x100 + d, keep := true })
  | none => pure ()

end Sys2Proof.Machine
end

