-- ==== Sys2Proof/Machine/Branch.lean ====
section
/-! DEFINITION. Branches, jumps, calls and loops (spec/07 R166–R169). -/

namespace Sys2Proof.Machine

/-- Every branch checks its target, taken or not (R166). -/
def checkTarget (t : Word) : M Unit := raiseIf (t.toNat % 8 != 0) 0x083 t

/-- The target of BR, BRC, CALL and LOOP (R167): PC + SX(IMM) × 8, or PC + b. -/
def relTarget (f : Fields) : M Word := do
  let t ← getTh
  match f.imm with
  | some i => return t.pc + immS i * 8
  | none =>
    let b ← peekS f.b
    return t.pc + b

/-- The class-0x5 check of a relative target's register, which comes after the target's own (R345). -/
def cleanTarget (f : Fields) : M Unit := match f.imm with
  | some _ => pure ()
  | none => cleanS f.b

/-- The next word in sequence. -/
def nextPc : M Word := do
  let t ← getTh
  return t.pc + 8

def execBr (f : Fields) (s : State) : Out :=
  runTo (do
    let t ← relTarget f
    checkTarget t
    cleanTarget f
    return t) s

/-- The condition of BRC (R167). -/
def brcTaken (cond : Nat) (d a : Word) : Bool :=
  if cond = 0 then d == a else if cond = 1 then d != a
  else if cond = 2 then d.slt a else if cond = 3 then !d.slt a
  else if cond = 4 then d.ult a else !d.ult a

def execBrc (f : Fields) (s : State) : Out :=
  runTo (do
    let d ← peekS f.d
    let a ← peekS f.a
    let t ← relTarget f
    checkTarget t
    cleanS f.d
    cleanS f.a
    cleanTarget f
    let n ← nextPc
    return if brcTaken f.var.toNat d a then t else n) s

def execJmp (f : Fields) (s : State) : Out :=
  runTo (do
    let t ← peekEA f
    checkTarget t
    cleanEA f
    return t) s

def execCall (f : Fields) (s : State) : Out :=
  runTo (do
    let t ← relTarget f
    checkTarget t
    cleanTarget f
    let n ← nextPc
    wrS f.d n
    return t) s

def execCallr (f : Fields) (s : State) : Out :=
  runTo (do
    let t ← peekEA f
    checkTarget t
    cleanEA f
    let n ← nextPc
    wrS f.d n
    return t) s

def execLoop (f : Fields) (s : State) : Out :=
  runTo (do
    let d ← peekS f.d
    let t ← relTarget f
    checkTarget t
    cleanS f.d
    cleanTarget f
    let n ← nextPc
    wrS f.d (d - 1)
    return if d - 1 = 0 then n else t) s

end Sys2Proof.Machine
end

