-- ==== Sys2Proof/Machine/Vector.lean ====
section
/-! DEFINITION. Vector elements, groups, masks, lists, element loops and their progress (spec/08 R190–R199, spec/06 R124–R126,
spec/19 R347–R349, R359). -/

namespace Sys2Proof.Machine

/-! ### The configuration a vector word begins with -/

/-- VCFG and the size of a register, as a word finds them (R9, R192, R194). -/
structure VC where
  /-- bytes of a register: 16 a lane owned and powered -/
  r      : Nat
  /-- bytes of an element group -/
  g      : Nat
  sewc   : Nat
  grp    : Nat
  vl     : Nat
  isL    : Bool
  /-- the lane groups in use: the first and how many (R347) -/
  lg0    : Nat
  lgs    : Nat
  /-- element steps are on (R359), or a stop cuts the word short (R348), `more` element groups after the first -/
  step   : Bool
  more   : Nat
  vcfg   : Word
  deriving DecidableEq, Repr

/-- Lanes a context of class `isL` owns and has powered (R192, R355). -/
def lanesOf (isL : Bool) (lpc : Nat) : Nat := if isL then 4 * lpc else lpc

/-- VLMAX of a number of lanes, a GROUP code and a SEW code (R192). -/
def vlmaxOf (lanes grp sewc : Nat) : Nat := 16 * lanes * 2 ^ (grp % 4) / 2 ^ (sewc % 4)

/-- Lanes of a thread on its core. -/
def threadLanes (s : State) (t : Thread) : Nat := lanesOf t.isL (s.core t.coreNo).lpc

/-- The configuration of the selected thread: VCFG as the word began (R9, R191). VL never exceeds VLMAX (R191, R200, R355). -/
def vcOf (s : State) : VC :=
  let t := { s.th with vcfg := s.th.begins.vcfg }
  let r := 16 * threadLanes s t
  { r := r
    g := if t.isL then 256 else 64
    sewc := t.sewCode
    grp := t.grp
    vl := min t.vl (r * 2 ^ t.grp / (t.sew / 8))
    isL := t.isL
    lg0 := if t.isL then 0 else 2 * t.lc.getD 0
    lgs := if t.isL then 8 else 2
    step := t.dbg.getLsbD 0 && !t.inh || s.chosen == .cut
    more := if s.chosen == .cut then Config.freeNat s.free else 0
    vcfg := t.vcfg }

def VC.sew (v : VC) : Nat := 8 * 2 ^ v.sewc
def VC.regs (v : VC) : Nat := 2 ^ v.grp
def VC.vlmax (v : VC) : Nat := v.r * v.regs / (v.sew / 8)

/-- VCFG of its fields (R190). -/
def vcfgWord (scope grp sewc vl : Nat) : Word :=
  BitVec.ofNat 64 (scope % 8 * 2 ^ 19 + grp % 4 * 2 ^ 17 + sewc % 8 * 2 ^ 14 + vl % 2 ^ 14)

/-! ### Elements (R194) -/

/-- Register of a group by number. -/
def Thread.vreg (t : Thread) (n : Nat) : BitVec 8192 := t.v.getD n 0

def Thread.setVreg (t : Thread) (n : Nat) (x : BitVec 8192) : Thread :=
  if h : n < 32 then { t with v := t.v.set n x h } else t

/-- Element `i`, of `w` bits, of the group at `reg`, with registers of `r` bytes. -/
def Thread.vget (t : Thread) (r reg w i : Nat) : Nat :=
  let o := i * (w / 8)
  ((t.vreg (reg + o / r)).toNat >>> (8 * (o % r))) % 2 ^ w

/-- Write element `i`. -/
def Thread.vput (t : Thread) (r reg w i x : Nat) : Thread :=
  let o := i * (w / 8)
  let n := reg + o / r
  let sh := 8 * (o % r)
  let mask : BitVec 8192 := BitVec.ofNat 8192 (2 ^ w - 1) <<< sh
  t.setVreg n ((t.vreg n &&& ~~~mask) ||| ((BitVec.ofNat 8192 x <<< sh) &&& mask))

/-- The mark a read of element `i` meets (R377: the lowest). -/
def Thread.markAt (t : Thread) (r reg w i : Nat) : Option VMark :=
  let o := i * (w / 8)
  t.vpoison.find? fun m => m.reg == reg + o / r && decide (m.off < o % r + w / 8) && decide (o % r < m.off + m.len)

/-- A running VLDA has yet to fill a byte of element `i` of `w` bits at `reg` (R248). -/
def Thread.unfilled (t : Thread) (r reg w i : Nat) : Bool :=
  t.vldas.any fun l =>
    let a := reg * r + i * (w / 8)
    let hit (o n : Nat) : Bool := decide (l.reg * r + o < a + w / 8) && decide (a < l.reg * r + o + n)
    l.todo.any fun e => hit (e.elem * (l.sew / 8)) (if l.bytes = 0 then l.sew / 8 else l.bytes)

/-- A load that waits at a FIFO port has yet to bring a byte of that element (R36, R61). -/
def Thread.unloaded (t : Thread) (r reg w i : Nat) : Bool :=
  t.loads.any fun l =>
    match l.vec with
    | some d =>
      let a := reg * r + i * (w / 8)
      let b := d.reg * r + d.first * (d.sew / 8)
      decide (b < a + w / 8) && decide (a < b + d.count * (d.sew / 8))
    | none => false

/-- The value of element `i`, once every running VLDA and every waiting load has brought it (R61, R248): a reader starts on what is
filled. -/
def peekV (v : VC) (reg w i : Nat) : M Nat := do
  let t ← getTh
  match t.vldas, t.loads with
  | [], [] => return t.vget v.r reg w i
  | _, _ =>
    if t.unfilled v.r reg w i then throw (.wait .vlda)
    if t.unloaded v.r reg w i then throw (.wait .load)
    return t.vget v.r reg w i

/-- Damage of element `i` raises its class-0x5 cause. -/
def cleanV (v : VC) (reg w i : Nat) : M Unit := do
  let t ← getTh
  match t.vpoison with
  | [] => pure ()
  | _ =>
    match t.markAt v.r reg w i with
    | some m => throw (.cause { code := m.code, xval := m.ea, pa := m.pa })
    | none => pure ()

/-- Read element `i` as an operand. -/
def rdV (v : VC) (reg w i : Nat) : M Nat := do
  let x ← peekV v reg w i
  cleanV v reg w i
  return x

def wrV (v : VC) (reg w i x : Nat) : M Unit := modTh fun t => t.vput v.r reg w i x

/-- Marks whose bytes the elements `done` of `w` bits at `reg` cover whole are cleared (R377). -/
def Thread.clearMarks (t : Thread) (r reg w : Nat) (done : List Nat) : Thread :=
  match t.vpoison with
  | [] => t
  | ms =>
    let hits (m : VMark) : Bool := (List.range m.len).all fun k =>
      done.any fun i => reg + i * (w / 8) / r == m.reg && decide (i * (w / 8) % r ≤ m.off + k) &&
        decide (m.off + k < i * (w / 8) % r + w / 8)
    { t with vpoison := ms.filter fun m => !hits m }

/-! ### Sort states (R225, R227) -/

/-- SortState of its fields. -/
def sortWord (s d u p : Bool) (key len : Nat) : BitVec 21 :=
  BitVec.ofNat 21 (b2n s + 2 * b2n d + 4 * b2n u + 8 * (key % 8) + 64 * b2n p + 128 * (len % 2 ^ 14))

def Thread.sortOf (t : Thread) (n : Nat) : BitVec 21 := t.sort.getD n 0

def Thread.setSortRaw (t : Thread) (n : Nat) (x : BitVec 21) : Thread :=
  if h : n < 32 then { t with sort := t.sort.set n x h } else t

/-- Clear the P bit of a register's state. -/
def Thread.clearP (t : Thread) (n : Nat) : Thread := t.setSortRaw n (t.sortOf n &&& ~~~64)

/-- A write to registers `reg` … `reg + n − 1` clears their states, and the P bit of the register before them (R227). -/
def Thread.clearSort (t : Thread) (reg n : Nat) : Thread :=
  let t := (List.range n).foldl (fun t k => t.setSortRaw (reg + k) 0) t
  if reg = 0 then t else t.clearP (reg - 1)

/-- Set the state of a register an instruction writes; the register before it loses its P bit unless the instruction sets that
state too, which it does afterwards (R227). -/
def Thread.setSort (t : Thread) (n : Nat) (x : BitVec 21) : Thread :=
  let t := t.setSortRaw n x
  if n = 0 then t else t.clearP (n - 1)

def sortS (x : BitVec 21) : Bool := x.getLsbD 0
def sortD (x : BitVec 21) : Bool := x.getLsbD 1
def sortU (x : BitVec 21) : Bool := x.getLsbD 2
def sortKey (x : BitVec 21) : Nat := bits x.toNat 5 3
def sortP (x : BitVec 21) : Bool := x.getLsbD 6
def sortLen (x : BitVec 21) : Nat := bits x.toNat 20 7

/-! ### Masks and lists (R123, R124, R126) -/

/-- A mask register; m0 reads as all ones. -/
def Thread.mreg (t : Thread) (k : Nat) : BitVec 8192 := if k = 0 then BitVec.allOnes 8192 else t.m.getD k 0

def Thread.setMreg (t : Thread) (k : Nat) (x : BitVec 8192) : Thread :=
  if h : k < 8 then (if k = 0 then t else { t with m := t.m.set k x h }) else t

/-- Element `i` is enabled under M and MN (R124). -/
def Thread.enabled (t : Thread) (m : BitVec 3) (mn : Bool) (i : Nat) : Bool :=
  if m = 0 then true else (t.mreg m.toNat).getLsbD i != mn

/-- The indices below VL that M and MN enable, rising. -/
def Thread.enabledList (t : Thread) (vl : Nat) (m : BitVec 3) (mn : Bool) : List Nat :=
  (List.range vl).filter (t.enabled m mn)

/-- The list register passes R126; else 0x0CA with its sort-state word. -/
def checkList (f : Fields) : M Unit := do
  let t ← getTh
  if f.lm then
    let x := t.sortOf f.c.toNat
    let lim := if t.isL then 256 else 64
    raiseIf (!(sortS x && sortU x && sortKey x == 1 && decide (sortLen x ≤ lim))) 0x0CA (x.setWidth 64)

/-- The active elements (R9, R126), rising. -/
def activeList (v : VC) (f : Fields) : M (List Nat) := do
  let t ← getTh
  let en := t.enabledList v.vl f.m f.mn
  if f.lm then
    let n := sortLen (t.sortOf f.c.toNat)
    let l ← (List.range n).mapM fun i => rdV v f.c.toNat 32 i
    return en.filter l.contains
  else return en

/-- Bit i of a mask is f i for i below VL; bits at or above VL are 0. -/
def maskOf (vl : Nat) (f : Nat → Bool) : BitVec 8192 :=
  BitVec.ofNat 8192 ((List.range vl).foldl (fun x i => x + b2n (f i) * 2 ^ i) 0)

/-! ### Class 0x7 at issue (R364) -/

/-- A register group of `n` registers: a multiple of its size, and within v31. -/
def grpBad (reg : BitVec 6) (n : Nat) : List (Bool × Nat) :=
  [(reg.toNat % n != 0, 0x0E2), (decide (32 < reg.toNat + n), 0x0E3)]

/-- Two groups share a register (R198). -/
def grpHit (a na b nb : Nat) : Bool := decide (a < b + nb) && decide (b < a + na)

/-- A word that writes a group waits until a running VLDA, or a load waiting at a FIFO port, has finished with it (R61, R248); one that
reads a group waits element by element (peekV). -/
def needGroups (l : List (Nat × Nat)) : M Unit := do
  let t ← getTh
  match t.vldas, t.loads with
  | [], [] => pure ()
  | vs, ls =>
    if vs.any fun v => l.any fun g => grpHit v.reg v.size g.1 g.2 then throw (.wait .vlda)
    if ls.any fun x => match x.vec with
      | some d => l.any fun g => grpHit d.reg d.size g.1 g.2
      | none => false
    then throw (.wait .load)

/-- The checks every vector word makes at issue, in the order of R345: features, refused fabric addresses among those it forms (`eas`),
the vector context, class 0x7, the list register; then it waits for VLDAs of the groups it writes. -/
def vIssue (v : VC) (f : Fields) (feats : List (Bool × Nat)) (bad : List (Bool × Nat)) (groups : List (Nat × Nat))
    (eas : List Word := []) : M Unit := do
  let s ← get
  raiseFirst (feats.map fun x => (x.1 && !featHas s x.2, 0x020 + x.2))
  fabFirst eas
  needVector
  raiseFirst bad v.vcfg
  checkList f
  needGroups groups

/-! ### Element loops, their stops and their progress (R348, R349, R359) -/

/-- Lane group of element `i` of `w` bits (R14, R347). -/
def VC.laneGroup (v : VC) (w i : Nat) : Nat := v.lg0 + i * (w / 8) % v.g / 32

/-- Where lane group `j` starts: XPROGj when the word resumes with VPART, else VSTART. -/
def Thread.startOf (t : Thread) (j : Nat) : Nat :=
  match t.resume with
  | some r => if r.vpart then (t.xprog.getD j 0).toNat % 65536 else t.vstart.toNat
  | none => t.vstart.toNat

/-- The word resumes with VPART, or with TPART. -/
def Thread.resumesV (t : Thread) : Bool := (t.resume.map Resume.vpart).getD false
def Thread.resumesT (t : Thread) : Bool := (t.resume.map Resume.tpart).getD false

/-- Record a stop at element `e`: every lane group in use has completed what lies below it, and keeps what it had beyond. How far
each has come when a cause other than a memory cause stops the word, R348 leaves to the lane groups: here all stand at the same
element (DESIGN CHOICE, log 23). -/
def Thread.progress (t : Thread) (v : VC) (e : Nat) : Thread :=
  let at_ (j : Nat) : Nat := max e (t.startOf j)
  let used (j : Nat) : Bool := decide (v.lg0 ≤ j) && decide (j < v.lg0 + v.lgs)
  let low := (List.range v.lgs).foldl (fun m k => min m (at_ (v.lg0 + k))) (at_ v.lg0)
  { t with
    xprog := t.xprog.mapIdx fun j x => if used j then BitVec.ofNat 64 (at_ j % 65536) else x
    vstart := BitVec.ofNat 64 (low % 16384) }

/-- Finishing sets VSTART, EPROG and every XPROGj to 0 (R349). -/
def Thread.finishV (t : Thread) : Thread :=
  { t with vstart := 0, eprog := 0, xprog := Vector.replicate 8 0, resume := none }

/-- A word that waits part way, for what fills a group it reads (R248): its progress stands, and it goes on from there. -/
def Thread.holdPart (t : Thread) (vpart tpart : Bool) : Thread :=
  { t with resume := some ⟨t.resumeSlot1, vpart, tpart⟩, begun := t.begun.set t.pc.toNat t.begins }

/-- Run `body` for each element of `l`; a cause drops what the failing element did, but for the flags it added, and records
where it stopped. `mark` says how. An element that must wait for a VLDA or a waiting load leaves those before it done (R248): `first`
says that there are none. -/
def runElems (mark : Nat → Thread → Thread) (vp tp : Bool) (body : Nat → M Unit) (first : Bool := true) : List Nat → M Unit
  | [] => pure ()
  | i :: l => do
    let s0 ← get
    match (body i).run s0 with
    | .ok _ s => set s
    | .error (.cause c) s =>
      set (if c.keep then s else keepTlb s0 s)
      modTh (mark i)
      throw (.cause { c with keep := true, vpart := vp, tpart := tp })
    | .error (.wait r) s =>
      if !first && (r == .vlda || r == .load) then
        set s0
        modTh fun t => (mark i t).holdPart vp tp
        throw (.hold r)
      else
        set s
        throw (.wait r)
    | .error e s =>
      set s
      throw e
    runElems mark vp tp body false l

/-- Of elements of `w` bits, those still to be done: none below where its lane group starts. -/
def VC.todo (v : VC) (t : Thread) (w : Nat) (l : List Nat) : List Nat := l.filter fun i => decide (t.startOf (v.laneGroup w i) ≤ i)

/-- The elements of `w` bits still to be done, and the bound an element step sets. -/
def VC.plan (v : VC) (t : Thread) (w vl : Nat) (act : List Nat) : List Nat × Option Nat :=
  let todo := v.todo t w act
  if v.step then
    let p := (List.range v.lgs).foldl (fun m k => min m (t.startOf (v.lg0 + k))) (t.startOf v.lg0)
    let epg := max 1 (v.g / (w / 8))
    if p < vl then
      let b := min vl ((p / epg + 1 + v.more) * epg)
      (todo.filter (decide <| · < b), some b)
    else (todo, none)
  else (todo, none)

/-- What a loop leaves at element `e`: progress, and the marks of the elements `done` it has written. -/
def VC.mark (v : VC) (dst : List (Nat × Nat)) (done : List Nat) (e : Nat) (t : Thread) : Thread :=
  dst.foldl (fun t d => t.clearMarks v.r d.1 d.2 done) (t.progress v e)

/-- The end of an element loop that has done `todo`: an element step, or the end of the instruction. -/
def VC.loopEnd (v : VC) (dst : List (Nat × Nat)) (todo : List Nat) : Option Nat → M Unit
  | some b => do
    modTh (v.mark dst todo b)
    throw (.cause { code := 0x1C3, keep := true, vpart := true })
  | none => modTh fun t => (v.mark dst todo 0 t).finishV

/-- The class-0x5 check `clean` of a word's scalar operands, at its place in the order of R345: after what the word's first access or
element, `first`, meets of lower code, which the loop then raises. -/
def cleanFirst (clean : M Unit) (first : Option (M Unit)) : M Unit := do
  let s ← get
  match clean.run s with
  | .ok _ _ => pure ()
  | .error (.cause e) _ =>
    match first with
    | some m =>
      match m.run s with
      | .error (.cause c) _ => if c.code < e.code then pure () else throw (.cause e)
      | .error (.wait r) _ => throw (.wait r)
      | _ => throw (.cause e)
    | none => throw (.cause e)
  | .error e _ => throw e

/-- The active elements as the state shows them, for a word that has still to check its list register. -/
def Thread.activeIdx (t : Thread) (v : VC) (f : Fields) : List Nat :=
  let en := t.enabledList v.vl f.m f.mn
  if f.lm then
    let l := (List.range (sortLen (t.sortOf f.c.toNat))).map fun i => t.vget v.r f.c.toNat 32 i
    en.filter l.contains
  else en

/-- The addresses a word's elements form. -/
def Thread.eas (t : Thread) (v : VC) (f : Fields) (addr : Nat → List Word) : List Word :=
  if t.vectorHere then (v.todo t v.sew (t.activeIdx v f)).flatMap addr else []

/-- The active elements of a word that R348 does not let stop part way, though it loops over elements: it starts at VSTART too (R349), and
elements below are neither read nor written (DEDUCED, log 57). -/
def activeTodo (v : VC) (f : Fields) : M (List Nat) := do
  let act ← activeList v f
  return v.todo (← getTh) v.sew act

/-- The element loop of an instruction that can stop part way: elements `act` of `vl`, destination groups (register, width), `w`
the width its element groups are counted in; `clean` checks its scalar operands. -/
def vloop (v : VC) (w vl : Nat) (dst : List (Nat × Nat)) (act : List Nat) (body : Nat → M Unit) (clean : M Unit := pure ()) :
    M Unit := do
  let t ← getTh
  let (todo, bound) := v.plan t w vl act
  cleanFirst clean (todo.head?.map body)
  runElems (fun e => v.mark dst (todo.filter (decide <| · < e)) e) true false body true todo
  v.loopEnd dst todo bound

/-- The same where all the elements still to be done make one access. -/
def vmerged (v : VC) (w vl : Nat) (dst : List (Nat × Nat)) (act : List Nat) (body : List Nat → M Unit) (clean : M Unit := pure ()) :
    M Unit := do
  let t ← getTh
  let (todo, bound) := v.plan t w vl act
  cleanFirst clean (if todo.isEmpty then none else some (body todo))
  runElems (v.mark dst []) true false (fun _ => body todo) true (todo.take 1)
  v.loopEnd dst todo bound

/-! ### Second operands (R195 Table 4) -/

/-- Src2: a vector group or one value for every element. -/
inductive Src2 where
  | vec (reg : Nat)
  | all (x : Nat)
  deriving DecidableEq, Repr

/-- Src2 of a word; an immediate is sign-extended. The scalar is read when the word issues (R195): a word resumed after a stop has it as it
began (DEDUCED, log 22). -/
def src2Of (v : VC) (f : Fields) : M Src2 := do
  match f.imm with
  | some i => return .all ((immS i).toNat % 2 ^ v.sew)
  | none =>
    if f.var.getLsbD 3 then
      let b ← peekS f.b
      return .all (b.toNat % 2 ^ v.sew)
    else return .vec f.b.toNat

/-- The class-0x5 check of a scalar Src2. -/
def src2Clean (f : Fields) : M Unit := if f.imm.isNone && f.var.getLsbD 3 then cleanS f.b else pure ()

def Src2.at_ (v : VC) (w : Nat) : Src2 → Nat → M Nat
  | .vec r, i => rdV v r w i
  | .all x, _ => pure x

/-- The group conditions and groups of a vector Src2. -/
def src2Groups (f : Fields) (n : Nat) : List (Nat × Nat) :=
  if f.imm.isSome || f.var.getLsbD 3 then [] else [(f.b.toNat, n)]

def src2Bad (f : Fields) (n : Nat) : List (Bool × Nat) :=
  if f.imm.isSome || f.var.getLsbD 3 then [] else grpBad f.b n

/-! ### Configuration and chaining (R200–R203) -/

/-- Set VCFG with VL clipped to VLMAX (R191, R200). -/
def setVcfg (scope grp sewc vl : Nat) : M Unit :=
  modify fun s => { s with th := { s.th with vcfg := vcfgWord scope grp sewc (min vl (vlmaxOf (threadLanes s s.th) grp sewc)) } }

/-- VSETVL (R200): SEW, GROUP, SCOPE from cfg or b[21:14]. The configuration words act on control
state alone, so they need no vector context present (R354; log 12). -/
def execVsetvl (f : Fields) (s : State) : Out :=
  runWord (do
    let (sewc, grp, scope) ← match f.imm with
      | some i => pure (bits i.toNat 2 0, bits i.toNat 4 3, bits i.toNat 7 5)
      | none => do
        -- the codes are conditions of class 0x0, which come before a poisoned operand
        let b ← peekS f.b
        raiseIf (cfgBad (bits b.toNat 16 14) (bits b.toNat 21 19)) 0x013 (firstWord (.vsetvl f))
        cleanS f.b
        pure (bits b.toNat 16 14, bits b.toNat 18 17, bits b.toNat 21 19)
    let s ← get
    let m := vlmaxOf (threadLanes s s.th) grp sewc
    let a ← rdS f.a
    let vl := min (if f.a = 0 then m else a.toNat) m
    setVcfg scope grp sewc vl
    wrS f.d (BitVec.ofNat 64 vl)) s

/-- VSETVL.chain (R48, R201): it waits while nothing is published. Its read acquires the regions bound to the chain word. -/
def execVsetvlChain (f : Fields) (s : State) : Out :=
  runWord (do
    let t ← getTh
    let m := vlmaxOf (threadLanes (← get) t) t.grp t.sewCode
    let a ← peekS f.a
    let b ← peekS f.b
    let c ← peekS f.c
    let avl := if f.a = 0 then m else a.toNat
    let x ← loadHome t.who accAtomic 8 b 8 (do cleanS f.a; cleanS f.b; cleanS f.c)
    let n := min avl (min m (x % 2 ^ 63 - c.toNat))
    if n = 0 && avl != 0 && !x.testBit 63 then awaitWrite (.chain b) s
    acquireGuard b
    setVcfg t.scope t.grp t.sewCode n
    wrS f.d (BitVec.ofNat 64 n)) s

/-- Bytes of a spill frame (R202). -/
def frameBytes (vl sewc : Nat) : Nat := 64 + 64 * ceilDiv (vl * (8 * 2 ^ sewc)) 512

def execVlq (f : Fields) (s : State) : Out :=
  runWord (do
    let t ← getTh
    if f.a = 0 then
      wrS f.d (BitVec.ofNat 64 (frameBytes t.vl t.sewCode))
    else
      let a ← peekS f.a
      raiseIf (decide (4 ≤ bits a.toNat 16 14)) 0x013 (firstWord (.vlq f))
      cleanS f.a
      wrS f.d (BitVec.ofNat 64 (frameBytes (bits a.toNat 13 0) (bits a.toNat 16 14)))) s

/-- VCPUB (R47, R203): a release of the chain word. -/
def execVcpub (f : Fields) (s : State) : Out :=
  runWord (do
    let t ← getTh
    let d ← peekS f.d
    let ea ← peekEA f
    storeHome t.who accAtomic 8 ea 8 (d.toNat % 2 ^ 63 + b2n (f.var.getLsbD 0) * 2 ^ 63) (releaseGuard ea)
      (do cleanEA f; cleanS f.d)) s

end Sys2Proof.Machine
end

