-- ==== Sys2Proof/Machine/VecInt.lean ====
section
/-! DEFINITION. Integer element-wise instructions, compares, selection and width changes (spec/08 R204–R210). -/

namespace Sys2Proof.Machine

/-- An element-wise instruction with destination D, sources A (when it reads one) and Src2: `fn` gives the element from a, b and
the old d, and whether it was clamped. -/
def vElem (f : Fields) (useA useB : Bool) (bad : List (Bool × Nat)) (src2 : VC → M Src2)
    (fn : VC → Nat → Nat → Nat → Nat × Bool) : M Unit := do
  let v := vcOf (← get)
  let n := v.regs
  vIssue v f []
    (bad ++ grpBad f.d n ++ (if useA then grpBad f.a n else []) ++ (if useB then src2Bad f n else []))
    [(f.d.toNat, n)]
  let b2 ← src2 v
  let act ← activeList v f
  modTh fun t => t.clearSort f.d.toNat n
  vloop v v.sew v.vl [(f.d.toNat, v.sew)] act (clean := src2Clean f) fun i => do
    let a ← if useA then rdV v f.a.toNat v.sew i else pure 0
    let b ← b2.at_ v v.sew i
    let d ← rdV v f.d.toNat v.sew i
    let r := fn v a b d
    setSat r.2
    wrV v f.d.toNat v.sew i r.1

/-- Like `vElem` for an instruction that does not read its destination. -/
def vElem2 (f : Fields) (useA useB : Bool) (bad : List (Bool × Nat)) (src2 : VC → M Src2)
    (fn : VC → Nat → Nat → Nat × Bool) : M Unit := do
  let v := vcOf (← get)
  let n := v.regs
  vIssue v f []
    (bad ++ grpBad f.d n ++ (if useA then grpBad f.a n else []) ++ (if useB then src2Bad f n else []))
    [(f.d.toNat, n)]
  let b2 ← src2 v
  let act ← activeList v f
  modTh fun t => t.clearSort f.d.toNat n
  vloop v v.sew v.vl [(f.d.toNat, v.sew)] act (clean := src2Clean f) fun i => do
    let a ← if useA then rdV v f.a.toNat v.sew i else pure 0
    let b ← b2.at_ v v.sew i
    let r := fn v a b
    setSat r.2
    wrV v f.d.toNat v.sew i r.1

/-- An exact result at SEW bits, clamped once when SAT is set (R96, R204). -/
def narrow (w : Nat) (sat u : Bool) (x : Int) : Nat × Bool :=
  if sat then
    let r := clampTo w u x
    (wrap w r.1, r.2)
  else (wrap w x, false)

/-- Opv (R195). -/
def opv (w : Nat) (u : Bool) (x : Nat) : Int := if u then uInt w x else sInt w x

/-- The arithmetic of Table 7 on exact integers (R204). -/
def vArith (f : Fields) (g : Int → Int → Int) : M Unit :=
  vElem2 f true true [] (src2Of · f) fun v a b => narrow v.sew f.sat f.u (g (opv v.sew f.u a) (opv v.sew f.u b))

/-- Bitwise operations. -/
def vBits (f : Fields) (g : Nat → Nat → Nat) : M Unit :=
  vElem2 f true true [] (src2Of · f) fun _ a b => (g a b, false)

def vaddM (f : Fields) : M Unit := vArith f fun a b => a + b
def vsubM (f : Fields) : M Unit := vArith f fun a b => a - b
def vmulM (f : Fields) : M Unit := vArith f fun a b => a * b
def vminM (f : Fields) : M Unit := vArith f fun a b => if a ≤ b then a else b
def vmaxM (f : Fields) : M Unit := vArith f fun a b => if a ≤ b then b else a
def vandM (f : Fields) : M Unit := vBits f (· &&& ·)
def vorM (f : Fields) : M Unit := vBits f (· ||| ·)
def vxorM (f : Fields) : M Unit := vBits f (· ^^^ ·)

/-- VMULH: the high half of the product. -/
def mulhElem (w : Nat) (u : Bool) (a b : Nat) : Nat := wrap w (opv w u a * opv w u b / ((2 ^ w : Nat) : Int))

def execVadd (f : Fields) (s : State) : Out := runWord (vaddM f) s
def execVsub (f : Fields) (s : State) : Out := runWord (vsubM f) s
def execVmul (f : Fields) (s : State) : Out := runWord (vmulM f) s
def execVmulh (f : Fields) (s : State) : Out :=
  runWord (vElem2 f true true [] (src2Of · f) fun v a b => (mulhElem v.sew f.u a b, false)) s
def execVmacc (f : Fields) (s : State) : Out :=
  runWord (vElem f true true [] (src2Of · f) fun v a b d =>
    narrow v.sew f.sat f.u (opv v.sew f.u d + opv v.sew f.u a * opv v.sew f.u b)) s
def execVmin (f : Fields) (s : State) : Out := runWord (vminM f) s
def execVmax (f : Fields) (s : State) : Out := runWord (vmaxM f) s
def execVand (f : Fields) (s : State) : Out := runWord (vandM f) s
def execVor (f : Fields) (s : State) : Out := runWord (vorM f) s
def execVxor (f : Fields) (s : State) : Out := runWord (vxorM f) s

/-! ### Shifts (R205) -/

/-- The shift amount of an element: the low log2(SEW) bits of Src2. -/
def shAmt (w b : Nat) : Nat := b % w

/-- An immediate shift amount at or above SEW (R364); an immediate is zero-extended here. -/
def shBad (v : VC) (f : Fields) : List (Bool × Nat) := [(f.imm.isSome && decide (v.sew ≤ f.immNat), 0x0EE)]

def src2Z (f : Fields) (v : VC) : M Src2 :=
  match f.imm with
  | some i => pure (.all (i.toNat % 2 ^ v.sew))
  | none => src2Of v f

def shlElem (w : Nat) (sat u : Bool) (a b : Nat) : Nat × Bool := narrow w sat u (opv w u a * ((2 ^ shAmt w b : Nat) : Int))

/-- A right shift, rounding half up with `.rnd` (R97). -/
def shrElem (w : Nat) (rnd : Bool) (x : Int) (b : Nat) : Nat × Bool :=
  let k := shAmt w b
  let r : Int := if rnd && k != 0 then ((2 ^ (k - 1) : Nat) : Int) else 0
  (wrap w ((x + r) / ((2 ^ k : Nat) : Int)), false)

def vshiftM (f : Fields) (fn : VC → Nat → Nat → Nat × Bool) : M Unit := do
  let v := vcOf (← get)
  vElem2 f true true (shBad v f) (src2Z f) fn

def vshlM (f : Fields) : M Unit := vshiftM f fun v a b => shlElem v.sew f.sat f.u a b
def vshrM (f : Fields) : M Unit := vshiftM f fun v a b => shrElem v.sew (f.xm.getLsbD 0) (uInt v.sew a) b

def execVshl (f : Fields) (s : State) : Out := runWord (vshlM f) s
def execVshr (f : Fields) (s : State) : Out := runWord (vshrM f) s
def execVsra (f : Fields) (s : State) : Out :=
  runWord (vshiftM f fun v a b => shrElem v.sew (f.xm.getLsbD 0) (sInt v.sew a) b) s

/-! ### VABS, VMV (R206), VDOT2 (R207) -/

def vabsM (f : Fields) : M Unit :=
  vElem2 f true false [] (fun _ => pure (.all 0)) fun v a _ => narrow v.sew f.sat false ((sInt v.sew a).natAbs : Int)

/-- VMV: its form says which source it reads. -/
def vmvM (f : Fields) : M Unit :=
  if f.imm.isSome || f.var.getLsbD 3 then vElem2 f false false [] (src2Of · f) fun _ _ b => (b, false)
  else vElem2 f true false [] (fun _ => pure (.all 0)) fun _ a _ => (a, false)

def execVabs (f : Fields) (s : State) : Out := runWord (vabsM f) s
def execVmv (f : Fields) (s : State) : Out := runWord (vmvM f) s

/-- The exact sum of VDOT2, clamped always. -/
def dot2Elem (a b d : Nat) : Nat × Bool :=
  narrow 32 true false (sInt 32 d + sInt 16 a * sInt 16 b + sInt 16 (a / 65536) * sInt 16 (b / 65536))

def execVdot2 (f : Fields) (s : State) : Out :=
  runWord (do
    let v := vcOf (← get)
    vElem f true true [(v.sew != 32, 0x0E0)] (src2Of · f) fun _ a b d => dot2Elem a b d) s

/-! ### VCMP (R208), VSEL (R209) -/

/-- The relation of VCMP by its condition code. -/
def vcmpRel (cond : Nat) (a b : Int) : Bool :=
  if cond = 0 then a == b else if cond = 1 then a != b else if cond = 2 then decide (a < b)
  else if cond = 3 then decide (a ≤ b) else if cond = 4 then decide (b < a) else decide (b ≤ a)

/-- A mask destination: active bits below VL from the loop, the others below VL keep, those at or above VL become 0. -/
def vmaskLoop (v : VC) (d : Nat) (act : List Nat) (clean : M Unit) (body : Nat → M Bool) : M Unit := do
  vloop v v.sew v.vl [] act (clean := clean) fun i => do
    let b ← body i
    modTh fun t =>
      let one : BitVec 8192 := BitVec.ofNat 8192 (2 ^ i)
      t.setMreg d (if b then t.mreg d ||| one else t.mreg d &&& ~~~one)
  modTh fun t => t.setMreg d (t.mreg d &&& BitVec.ofNat 8192 (2 ^ v.vl - 1))

def execVcmp (f : Fields) (s : State) : Out :=
  runWord (do
    let v := vcOf (← get)
    let n := v.regs
    vIssue v f [] ((f.d == 0, 0x0EC) :: grpBad f.a n ++ src2Bad f n) []
    let b2 ← src2Of v f
    let act ← activeList v f
    vmaskLoop v f.d.toNat act (src2Clean f) fun i => do
      let a ← rdV v f.a.toNat v.sew i
      let b ← b2.at_ v v.sew i
      return vcmpRel (f.var.toNat % 8) (opv v.sew f.u a) (opv v.sew f.u b)) s

def execVsel (f : Fields) (s : State) : Out :=
  runWord (do
    let v := vcOf (← get)
    let n := v.regs
    vIssue v f [] (grpBad f.d n ++ grpBad f.a n ++ src2Bad f n) [(f.d.toNat, n)]
    let b2 ← src2Of v f
    let t ← getTh
    modTh fun t => t.clearSort f.d.toNat n
    vloop v v.sew v.vl [(f.d.toNat, v.sew)] (List.range v.vl) (clean := src2Clean f) fun i => do
      let x ← if t.enabled f.m f.mn i then rdV v f.a.toNat v.sew i else b2.at_ v v.sew i
      wrV v f.d.toNat v.sew i x) s

/-! ### VWIDEN, VNARROW (R210) -/

/-- Width changes: the source of `na` registers at `wa` bits, the destination of `nd` at `wd`. -/
def vResize (f : Fields) (wide : Bool) (fn : Nat → Nat → Nat × Bool) : M Unit := do
  let v := vcOf (← get)
  let na := if wide then v.regs else 2 * v.regs
  let nd := if wide then 2 * v.regs else v.regs
  let wa := if wide then v.sew else 2 * v.sew
  let wd := if wide then 2 * v.sew else v.sew
  vIssue v f []
    ([(v.sew == 64, 0x0E0), (v.grp == 3, 0x0E1)] ++ grpBad f.d nd ++ grpBad f.a na ++
      [(grpHit f.d.toNat nd f.a.toNat na || f.lm && grpHit f.d.toNat nd f.c.toNat 1, 0x0E4)])
    [(f.d.toNat, nd)]
  let act ← activeList v f
  modTh fun t => t.clearSort f.d.toNat nd
  vloop v wd v.vl [(f.d.toNat, wd)] act fun i => do
    let a ← rdV v f.a.toNat wa i
    let r := fn v.sew a
    setSat r.2
    wrV v f.d.toNat wd i r.1

def execVwiden (f : Fields) (s : State) : Out :=
  runWord (vResize f true fun w a => (wrap (2 * w) (opv w f.u a), false)) s
def execVnarrow (f : Fields) (s : State) : Out :=
  runWord (vResize f false fun w a => narrow w f.sat f.u (opv (2 * w) f.u a)) s

end Sys2Proof.Machine
end

