-- ==== Sys2Proof/Machine/VecPerm.lean ====
section
/-! DEFINITION. Slides, permutes, element moves and mask instructions (spec/08 R217–R224). They read across element groups, so
they run whole: only element-wise and vector memory instructions stop part way (spec/19 R348). Those that go through elements start at
VSTART, and all leave the progress registers 0 (R349). -/

namespace Sys2Proof.Machine

/-- Write elements of a destination group at once. -/
def putElems (v : VC) (reg w : Nat) (l : List (Nat × Nat)) : M Unit :=
  modTh fun t => (l.foldl (fun t e => t.vput v.r reg w e.1 e.2) t).clearMarks v.r reg w (l.map Prod.fst)

/-- The amount of a slide and the index of VEXTR and VINS: b, or IMM zero-extended; `cleanB` checks it. -/
def opIndex (f : Fields) : M Nat := do return (← peekBZ f).toNat

/-- The source position and, outside the group, the position in the neighbouring strip (R217). -/
def slideFrom (up : Bool) (vl k i : Nat) : Nat ⊕ Option Nat :=
  if up then
    if k ≤ i then .inl (i - k)
    else .inr (if k ≤ i + vl then some (i + vl - k) else none)
  else
    if i + k < vl then .inl (i + k)
    else .inr (if i + k - vl < vl then some (i + k - vl) else none)

/-- VSLIDEUP, VSLIDEDN (R217): FN[1:0] is the fill. -/
def slideM (f : Fields) (up : Bool) : M Unit := do
  let v := vcOf (← get)
  let n := v.regs
  let vecFill := f.imm.isNone && f.var == 2
  vIssue v f []
    (grpBad f.d n ++ grpBad f.a n ++ (if vecFill then grpBad f.c n else []) ++
      [(grpHit f.d.toNat n f.a.toNat n || vecFill && grpHit f.d.toNat n f.c.toNat n, 0x0E4)])
    [(f.d.toNat, n)]
  let k ← opIndex f
  let scFill := f.imm.isNone && f.var == 1
  let c ← if scFill then peekS f.c else pure 0
  let act ← activeTodo v f
  let elem_ (i : Nat) : M Nat :=
    match slideFrom up v.vl k i with
    | .inl j => rdV v f.a.toNat v.sew j
    | .inr m =>
      match m with
      | some j => if vecFill then rdV v f.c.toNat v.sew j else pure (c.toNat % 2 ^ v.sew)
      | none => pure (if vecFill then 0 else c.toNat % 2 ^ v.sew)
  cleanFirst (do cleanB f; if scFill then cleanS f.c) (act.head?.map fun i => do let _ ← elem_ i)
  let out ← act.mapM fun i => do return (i, ← elem_ i)
  modTh fun t => t.clearSort f.d.toNat n
  putElems v f.d.toNat v.sew out
  modTh Thread.finishV

def execVslideup (f : Fields) (s : State) : Out := runWord (slideM f true) s
def execVslidedn (f : Fields) (s : State) : Out := runWord (slideM f false) s

/-- A destination group that overlaps none of the vector sources, the list register included (R198). -/
def apartBad (f : Fields) (n : Nat) (srcs : List (Nat × Nat)) : List (Bool × Nat) :=
  [((if f.lm then (f.c.toNat, 1) :: srcs else srcs).any fun g => grpHit f.d.toNat n g.1 g.2, 0x0E4)]

/-- VPERM (R218). -/
def execVperm (f : Fields) (s : State) : Out :=
  runWord (do
    let v := vcOf (← get)
    let n := v.regs
    let srcs := (f.a.toNat, n) :: src2Groups f n
    vIssue v f [] (grpBad f.d n ++ grpBad f.a n ++ src2Bad f n ++ apartBad f n srcs) [(f.d.toNat, n)]
    let b2 ← src2Of v f
    let act ← activeTodo v f
    cleanFirst (src2Clean f) (act.head?.map fun _ => cleanV v f.a.toNat v.sew (match b2 with
      | .all x => x
      | .vec _ => 0))
    let idx ← act.mapM fun i => do return (i, ← b2.at_ v v.sew i)
    if !(← getTh).vpoison.isEmpty then
      -- damage is met at the lowest element read (R248)
      ((List.range v.vl).filter fun j => idx.any fun e => e.2 == j).forM fun j => cleanV v f.a.toNat v.sew j
    let out ← idx.mapM fun e => do
      let x ← if e.2 < v.vl then rdV v f.a.toNat v.sew e.2 else pure 0
      return (e.1, x)
    modTh fun t => t.clearSort f.d.toNat n
    putElems v f.d.toNat v.sew out
    modTh Thread.finishV) s

/-- VCOMPRESS (R219): active element i to n(i), the elements from n to VL − 1 zero, n to sC; n and n(i) count every active element. -/
def execVcompress (f : Fields) (s : State) : Out :=
  runWord (do
    let v := vcOf (← get)
    let n := v.regs
    vIssue v f [] (grpBad f.d n ++ grpBad f.a n ++ apartBad f n [(f.a.toNat, n)]) [(f.d.toNat, n)]
    let act ← activeList v f
    let todo := v.todo (← getTh) v.sew act
    let xs ← todo.mapM fun i => do return ((act.filter (decide <| · < i)).length, ← rdV v f.a.toNat v.sew i)
    modTh fun t => t.clearSort f.d.toNat n
    putElems v f.d.toNat v.sew (xs ++ (List.range (v.vl - act.length)).map fun j => (act.length + j, 0))
    wrS f.c (BitVec.ofNat 64 act.length)
    modTh Thread.finishV) s

/-- VEXPAND (R219). -/
def execVexpand (f : Fields) (s : State) : Out :=
  runWord (do
    let v := vcOf (← get)
    let n := v.regs
    vIssue v f [] (grpBad f.d n ++ grpBad f.a n ++ apartBad f n [(f.a.toNat, n)]) [(f.d.toNat, n)]
    let act ← activeList v f
    let todo := v.todo (← getTh) v.sew act
    let out ← (act.zipIdx.filter fun e => todo.contains e.1).mapM fun e => do
      let x ← rdV v f.a.toNat v.sew e.2
      return (e.1, x)
    modTh fun t => t.clearSort f.d.toNat n
    putElems v f.d.toNat v.sew out
    modTh Thread.finishV) s

/-- VIOTA (R219): every element below VL. -/
def execViota (f : Fields) (s : State) : Out :=
  runWord (do
    let v := vcOf (← get)
    let n := v.regs
    vIssue v f [] (grpBad f.d n) [(f.d.toNat, n)]
    let act ← activeList v f
    let todo := v.todo (← getTh) v.sew (List.range v.vl)
    modTh fun t => t.clearSort f.d.toNat n
    putElems v f.d.toNat v.sew (todo.map fun i => (i, (act.filter (decide <| · < i)).length % 2 ^ v.sew))
    modTh Thread.finishV) s

/-- VEXTR (R220): it depends on VLMAX, not on VL. -/
def execVextr (f : Fields) (s : State) : Out :=
  runWord (do
    let v := vcOf (← get)
    vIssue v f [] (grpBad f.a v.regs) []
    let idx ← opIndex f
    cleanFirst (cleanB f) (if idx < v.vlmax then some (do let _ ← rdV v f.a.toNat v.sew idx) else none)
    if idx < v.vlmax then
      let x ← rdV v f.a.toNat v.sew idx
      wrS f.d (if f.u then zxWord v.sew x else sxWord v.sew x)
    else wrS f.d 0
    modTh Thread.finishV) s

/-- VINS (R220). -/
def execVins (f : Fields) (s : State) : Out :=
  runWord (do
    let v := vcOf (← get)
    vIssue v f [] (grpBad f.d v.regs) [(f.d.toNat, v.regs)]
    let a ← rdS f.a
    let idx ← opIndex f
    cleanB f
    modTh fun t => t.clearSort f.d.toNat v.regs
    if idx < v.vlmax then putElems v f.d.toNat v.sew [(idx, a.toNat % 2 ^ v.sew)]
    modTh Thread.finishV) s

/-! ### Mask instructions (R221–R224) -/

/-- MLOG's operations, by code. -/
def mlogBit (op : Nat) (a b : Bool) : Bool :=
  if op = 0 then a && b else if op = 1 then a || b else if op = 2 then a != b else if op = 3 then a && !b
  else if op = 4 then a || !b else if op = 5 then !(a && b) else if op = 6 then !(a || b) else a == b

def execMlog (f : Fields) (s : State) : Out :=
  runWord (do
    let v := vcOf (← get)
    vIssue v f [] [(f.d == 0, 0x0EC)] []
    let t ← getTh
    let a := t.mreg f.a.toNat
    let b := t.mreg f.b.toNat
    let todo := v.todo t v.sew (List.range v.vl)
    modTh fun t => (t.setMreg f.d.toNat (maskOf v.vl fun i =>
      if todo.contains i then mlogBit f.var.toNat (a.getLsbD i) (b.getLsbD i) else (t.mreg f.d.toNat).getLsbD i)).finishV) s

/-- The counted elements of MPOP, MFIRST and MLIST (R222), rising. -/
def countedM (v : VC) (f : Fields) : M (List Nat) := do
  let act ← activeTodo v f
  let t ← getTh
  return act.filter fun i => (t.mreg f.a.toNat).getLsbD i

def execMpop (f : Fields) (s : State) : Out :=
  runWord (do
    let v := vcOf (← get)
    vIssue v f [] [] []
    let l ← countedM v f
    wrS f.d (BitVec.ofNat 64 l.length)
    modTh Thread.finishV) s

def execMfirst (f : Fields) (s : State) : Out :=
  runWord (do
    let v := vcOf (← get)
    vIssue v f [] [] []
    let l ← countedM v f
    wrS f.d (match l with
      | i :: _ => BitVec.ofNat 64 i
      | [] => BitVec.allOnes 64)
    modTh Thread.finishV) s

/-- MLIST (R223): one register of u32 indices, whatever GROUP and SEW are. -/
def execMlist (f : Fields) (s : State) : Out :=
  runWord (do
    let v := vcOf (← get)
    vIssue v f [] (grpBad f.d 1) [(f.d.toNat, 1)]
    let l ← countedM v f
    let k := min l.length (v.r / 4)
    putElems v f.d.toNat 32 ((List.range (v.r / 4)).map fun j => (j, if j < k then l.getD j 0 else 0))
    modTh fun t => t.setSort f.d.toNat (sortWord true false true false 1 k)
    wrS f.c (BitVec.ofNat 64 l.length)
    modTh Thread.finishV) s

/-- Byte `j` of a group (R224). -/
def groupByte (v : VC) (reg j : Nat) : M Nat := rdV v reg 8 j

/-- MBITS (R224): group bits to a mask. -/
def execMbits (f : Fields) (s : State) : Out :=
  runWord (do
    let v := vcOf (← get)
    let n := v.regs
    vIssue v f [] ((f.d == 0, 0x0EC) :: grpBad f.a n) []
    let todo := v.todo (← getTh) v.sew (List.range v.vl)
    let bytes ← (List.range (ceilDiv v.vl 8)).mapM fun j => do
      if todo.any fun i => i / 8 == j then groupByte v f.a.toNat j else return 0
    modTh fun t => (t.setMreg f.d.toNat (maskOf v.vl fun i =>
      if todo.contains i then (bytes.getD (i / 8) 0).testBit (i % 8) else (t.mreg f.d.toNat).getLsbD i)).finishV) s

/-- MBITS.tov (R224): mask bits to a group. -/
def execMbitsTov (f : Fields) (s : State) : Out :=
  runWord (do
    let v := vcOf (← get)
    let n := v.regs
    vIssue v f [] (grpBad f.d n) [(f.d.toNat, n)]
    let t ← getTh
    let a := t.mreg f.a.toNat
    let todo := v.todo t v.sew (List.range v.vl)
    let old (i : Nat) : Bool := (t.vget v.r f.d.toNat 8 (i / 8)).testBit (i % 8)
    let byte (j : Nat) : Nat :=
      (List.range 8).foldl (fun x k =>
        let i := 8 * j + k
        x + b2n (if decide (i < v.vl) && !todo.contains i then old i else decide (i < v.vl) && a.getLsbD i) * 2 ^ k) 0
    modTh fun t => t.clearSort f.d.toNat n
    putElems v f.d.toNat 8 (((List.range (ceilDiv v.vl 8)).filter fun j => todo.any fun i => i / 8 == j).map fun j => (j, byte j))
    modTh Thread.finishV) s

end Sys2Proof.Machine
end

