-- ==== Sys2Proof/Machine/Sorted.lean ====
section
/-! DEFINITION. The sorted-run group (spec/09 R225–R242). -/

namespace Sys2Proof.Machine

/-- Width of a key type (R225). -/
def keyWidth (key : Nat) : Nat := if key < 3 then 32 else if key < 6 then 16 else 64

/-- The order transform T of a key (R112, R226). -/
def keyT (key x : Nat) : Nat :=
  let w := keyWidth key
  let top := 2 ^ (w - 1)
  let x := x % 2 ^ w
  if key = 1 ∨ key = 4 ∨ key = 7 then x
  else if key = 2 ∨ key = 5 then (if x < top then x + top else 2 ^ w - 1 - x)
  else if x < top then x + top else x - top

/-- Before(x, y) under KEY and D (R226). -/
def before (key : Nat) (d : Bool) (x y : Nat) : Bool :=
  if d then decide (keyT key y < keyT key x) else decide (keyT key x < keyT key y)

/-- No later key of an adjacent pair is Before the earlier one (R226). -/
def inOrder (key : Nat) (d : Bool) : List Nat → Bool
  | x :: y :: l => !before key d y x && inOrder key d (y :: l)
  | _ => true

/-- No two adjacent elements are Same. -/
def strictRun : List Nat → Bool
  | x :: y :: l => x != y && strictRun (y :: l)
  | _ => true

/-- A key with its payload. -/
abbrev KP := Nat × Nat

/-- Insert behind every key that is not Before it: the step of a stable sort from the last source element to the first. -/
def insertKP (key : Nat) (d : Bool) (x : KP) : List KP → List KP
  | [] => [x]
  | y :: l => if before key d y.1 x.1 then y :: insertKP key d x l else x :: y :: l

/-- The stable sort of R236. -/
def sortKP (key : Nat) (d : Bool) : List KP → List KP
  | [] => []
  | x :: l => insertKP key d x (sortKP key d l)

/-- The stable merge of R237, ties to A: each output with whether it came from A. The fuel is the number of outputs. -/
def mergeKP (key : Nat) (d : Bool) : Nat → List KP → List KP → List (KP × Bool)
  | 0, _, _ => []
  | _, [], [] => []
  | n + 1, x :: a, [] => (x, true) :: mergeKP key d n a []
  | n + 1, [], y :: b => (y, false) :: mergeKP key d n [] b
  | n + 1, x :: a, y :: b =>
    if before key d y.1 x.1 then (y, false) :: mergeKP key d n (x :: a) b
    else (x, true) :: mergeKP key d n a (y :: b)

/-- The walk of VINTER and VDIFF (R238): each key of A matches at most one Same key of B, in order. -/
def matchKP (key : Nat) (d keep : Bool) : Nat → List KP → List Nat → List KP
  | 0, _, _ => []
  | _, [], _ => []
  | n + 1, x :: a, [] => if keep then matchKP key d keep n a [] else x :: matchKP key d keep n a []
  | n + 1, x :: a, y :: b =>
    if before key d y x.1 then matchKP key d keep n (x :: a) b
    else if x.1 = y then
      if keep then x :: matchKP key d keep n a b else matchKP key d keep n a b
    else
      if keep then matchKP key d keep n a (y :: b) else x :: matchKP key d keep n a (y :: b)

/-- VUNIQUE keeps what is not Same as its predecessor (R238). -/
def uniqueKP : Option Nat → List KP → List KP
  | _, [] => []
  | p, x :: l => if p = some x.1 then uniqueKP p l else x :: uniqueKP (some x.1) l


/-- A sort-state check of R230 of operand A (0) or B (1): the code of the first that fails. -/
def sortCheck (x : BitVec 21) (operand key : Nat) (d : Bool) (needLen : Option Nat) (needP : Bool) : Option Nat :=
  let c := 0x0C0 + 16 * operand
  if !sortS x then some c
  else if sortKey x != key then some (c + 2)
  else if sortD x != d then some (c + 4)
  else if (match needLen with
    | some n => decide (sortLen x < n)
    | none => false) then some (c + 6)
  else if needP && !sortP x then some (c + 8)
  else none

/-- Raise the class-0x6 cause of an operand with its sort-state word (R361). -/
def sortOperand (reg : BitVec 6) (operand : Nat) (f : Fields) (needLen : Option Nat) (needP : Bool) : M Unit := do
  let t ← getTh
  let x := t.sortOf reg.toNat
  match sortCheck x operand (f.var.toNat % 8) (f.var.getLsbD 3) needLen needP with
  | some c => raise c (x.setWidth 64)
  | none => pure ()

/-- Class-0x7 conditions common to the group (R229): SEW equals the key width, GROUP 0. -/
def sortBad (v : VC) (f : Fields) : List (Bool × Nat) :=
  [(v.sew != keyWidth (f.var.toNat % 8), 0x0E0), (v.grp != 0, 0x0E1)]

/-- A payload field above its limit. -/
def payBad (f : Fields) (regs : List (BitVec 6)) : List (Bool × Nat) :=
  [(f.p && regs.any fun r => decide (30 < r.toNat), 0x0E5)]

/-- Issue checks of the group: SORTNET where `net`, the vector context, class 0x7. -/
def sortIssue (v : VC) (f : Fields) (net : Bool) (bad : List (Bool × Nat)) (groups : List (Nat × Nat)) : M Unit :=
  vIssue v f [(net, 1)] (sortBad v f ++ bad) groups

/-- The keys and payloads of elements 0 to n − 1 of a register. -/
def readKP (v : VC) (f : Fields) (reg n : Nat) (pay : Bool) : M (List KP) :=
  (List.range n).mapM fun i => do
    let k ← rdV v reg (keyWidth (f.var.toNat % 8)) i
    let p ← if pay then rdV v (reg + 1) v.sew i else pure 0
    return (k, p)

/-- Write a run of results to a key register, and to its payload register when `pay` names one; elements from its length to
VL − 1 become 0 (R232). -/
def writeRun (v : VC) (reg : Nat) (pay : Option Nat) (l : List KP) : M Unit := do
  putElems v reg v.sew ((List.range v.vl).map fun i => (i, (l.getD i (0, 0)).1))
  match pay with
  | some p => putElems v p v.sew ((List.range v.vl).map fun i => (i, (l.getD i (0, 0)).2))
  | none => pure ()

/-- The result state of a key register (R232). -/
def runState (f : Fields) (p : Bool) (l : List KP) : BitVec 21 :=
  sortWord true (f.var.getLsbD 3) (strictRun (l.map Prod.fst)) p (f.var.toNat % 8) l.length

/-- Payload registers are cleared first, then key registers get their states (R227, R232). -/
def setRun (f : Fields) (d : BitVec 6) (l : List KP) : M Unit :=
  modTh fun t =>
    let t := if f.p then t.clearSort (d.toNat + 1) 1 else t
    t.setSort d.toNat (runState f f.p l)

/-- The payload register of D. -/
def payReg (f : Fields) : Option Nat := if f.p then some (f.d.toNat + 1) else none

/-- Registers of an operand with payload. -/
def kpGroup (f : Fields) (r : BitVec 6) : Nat × Nat := (r.toNat, if f.p then 2 else 1)

/-- VSORT (R236). -/
def execVsort (f : Fields) (s : State) : Out :=
  runWord (do
    let v := vcOf (← get)
    sortIssue v f true (payBad f [f.d, f.a]) [kpGroup f f.d]
    let l ← readKP v f f.a.toNat v.vl f.p
    let out := sortKP (f.var.toNat % 8) (f.var.getLsbD 3) l
    writeRun v f.d.toNat (payReg f) out
    setRun f f.d out) s

/-- Both operands of a merge, checked and read (R230, R237). -/
def mergeOperands (v : VC) (f : Fields) : M (List (KP × Bool)) := do
  sortOperand f.a 0 f (some v.vl) f.p
  sortOperand f.b 1 f (some v.vl) f.p
  let a ← readKP v f f.a.toNat v.vl f.p
  let b ← readKP v f f.b.toNat v.vl f.p
  return mergeKP (f.var.toNat % 8) (f.var.getLsbD 3) (2 * v.vl) a b

/-- VMERGE (R237): both halves of the output; its states carry no payload link. -/
def execVmerge (f : Fields) (s : State) : Out :=
  runWord (do
    let v := vcOf (← get)
    sortIssue v f true
      [(decide ((if f.p then 28 else 30) < f.d.toNat) || f.p && (decide (30 < f.a.toNat) || decide (30 < f.b.toNat)), 0x0E5)]
      [(f.d.toNat, if f.p then 4 else 2)]
    let o ← mergeOperands v f
    let l := o.map Prod.fst
    let lo := l.take v.vl
    let hi := l.drop v.vl
    writeRun v f.d.toNat (if f.p then some (f.d.toNat + 2) else none) lo
    writeRun v (f.d.toNat + 1) (if f.p then some (f.d.toNat + 3) else none) hi
    modTh fun t =>
      let t := if f.p then t.clearSort (f.d.toNat + 2) 2 else t
      (t.setSort f.d.toNat (runState f false lo)).setSort (f.d.toNat + 1) (runState f false hi)) s

/-- VMERGEP (R237): the first VL outputs, and how many came from each source. -/
def execVmergep (f : Fields) (s : State) : Out :=
  runWord (do
    let v := vcOf (← get)
    sortIssue v f true (payBad f [f.d, f.a, f.b]) [kpGroup f f.d]
    let o ← mergeOperands v f
    let o := o.take v.vl
    let ca := (o.filter Prod.snd).length
    let l := o.map Prod.fst
    writeRun v f.d.toNat (payReg f) l
    setRun f f.d l
    wrS f.c (BitVec.ofNat 64 ((o.length - ca) * 2 ^ 32 + ca))) s

/-- VTOPK (R237): the first k′ outputs. -/
def execVtopk (f : Fields) (s : State) : Out :=
  runWord (do
    let v := vcOf (← get)
    sortIssue v f true (payBad f [f.d, f.a, f.b]) [kpGroup f f.d]
    sortOperand f.a 0 f (some v.vl) f.p
    sortOperand f.b 1 f (some v.vl) f.p
    let c ← peekS f.c
    let o ← mergeOperands v f
    cleanS f.c
    let l := (o.take (min c.toNat v.vl)).map Prod.fst
    writeRun v f.d.toNat (payReg f) l
    setRun f f.d l) s

/-- VINTER and VDIFF (R238): P is that of operand A. -/
def setOp (f : Fields) (keep : Bool) : M Unit := do
  let v := vcOf (← get)
  sortIssue v f true (payBad f [f.d, f.a]) [kpGroup f f.d]
  sortOperand f.a 0 f (some v.vl) f.p
  sortOperand f.b 1 f (some v.vl) false
  let a ← readKP v f f.a.toNat v.vl f.p
  let b ← readKP v f f.b.toNat v.vl false
  let l := matchKP (f.var.toNat % 8) (f.var.getLsbD 3) keep (2 * v.vl) a (b.map Prod.fst)
  writeRun v f.d.toNat (payReg f) l
  setRun f f.d l
  wrS f.c (BitVec.ofNat 64 l.length)

def execVinter (f : Fields) (s : State) : Out := runWord (setOp f true) s
def execVdiff (f : Fields) (s : State) : Out := runWord (setOp f false) s

/-- VUNIQUE (R238). -/
def execVunique (f : Fields) (s : State) : Out :=
  runWord (do
    let v := vcOf (← get)
    sortIssue v f true (payBad f [f.d, f.a]) [kpGroup f f.d]
    sortOperand f.a 0 f (some v.vl) f.p
    let a ← readKP v f f.a.toNat v.vl f.p
    let l := uniqueKP none a
    writeRun v f.d.toNat (payReg f) l
    setRun f f.d l
    wrS f.c (BitVec.ofNat 64 l.length)) s

/-- The rank of a probe (R239). -/
def rankOf (key : Nat) (d le : Bool) (run : List Nat) (x : Nat) : Nat :=
  (run.filter fun y => before key d y x || le && y == x).length

/-- VRANK (R239): check 4 is not made. -/
def execVrank (f : Fields) (s : State) : Out :=
  runWord (do
    let v := vcOf (← get)
    sortIssue v f true [] [(f.d.toNat, 1)]
    sortOperand f.a 0 f none false
    let t ← getTh
    let a ← readKP v f f.a.toNat (sortLen (t.sortOf f.a.toNat)) false
    let b ← readKP v f f.b.toNat v.vl false
    let run := a.map Prod.fst
    putElems v f.d.toNat v.sew
      (b.zipIdx.map fun e => (e.2, rankOf (f.var.toNat % 8) (f.var.getLsbD 3) (f.xm.getLsbD 0) run e.1.1))
    modTh fun t => t.clearSort f.d.toNat 1) s

/-- VPART (R240): bucket by bucket, each in source order. With VMAXLEN.LPC = 8 vC has fewer u32 elements than there may be buckets; R240 does
not say where the counts of those beyond it go: they are dropped (DESIGN CHOICE, log 60). -/
def execVpart (f : Fields) (s : State) : Out :=
  runWord (do
    let v := vcOf (← get)
    sortIssue v f true
      (payBad f [f.d, f.a] ++ [(f.c == f.d || f.p && f.c.toNat == f.d.toNat + 1, 0x0E6)])
      [kpGroup f f.d, (f.c.toNat, 1)]
    sortOperand f.b 1 f none false
    let t ← getTh
    let np := sortLen (t.sortOf f.b.toNat)
    raiseIf (decide ((if v.isL then 255 else 63) < np)) 0x0DC ((t.sortOf f.b.toNat).setWidth 64)
    let a ← readKP v f f.a.toNat v.vl f.p
    let b ← readKP v f f.b.toNat np false
    let bucket (x : Nat) : Nat := (b.filter fun p => !before (f.var.toNat % 8) (f.var.getLsbD 3) x p.1).length
    let parts := (List.range (np + 1)).map fun k => a.filter fun x => bucket x.1 == k
    writeRun v f.d.toNat (payReg f) parts.flatten
    putElems v f.c.toNat 32 ((List.range (v.r / 4)).map fun j => (j, (parts.getD j []).length))
    modTh fun t =>
      let t := t.clearSort f.d.toNat (if f.p then 2 else 1)
      t.clearSort f.c.toNat 1) s

/-- VSCHK (R241): every core has it. -/
def execVschk (f : Fields) (s : State) : Out :=
  runWord (do
    let v := vcOf (← get)
    sortIssue v f false (payBad f [f.a]) [(f.a.toNat, 1)]
    let l ← readKP v f f.a.toNat v.vl false
    if inOrder (f.var.toNat % 8) (f.var.getLsbD 3) (l.map Prod.fst) then
      modTh fun t => t.setSortRaw f.a.toNat (runState f f.p l)
      wrS f.d 1
    else
      modTh fun t => t.setSortRaw f.a.toNat 0
      wrS f.d 0) s

/-- VSGET (R242). -/
def execVsget (f : Fields) (s : State) : Out :=
  runWord (do
    needVector
    -- a running VLDA of the register, or of the one after it, clears the state and has not finished (R227, R248)
    needGroups [(f.a.toNat, 2)]
    let t ← getTh
    wrS f.d ((t.sortOf f.a.toNat).setWidth 64)) s

/-- VSCLR (R242). -/
def execVsclr (f : Fields) (s : State) : Out :=
  runWord (do
    needVector
    modTh fun t => t.clearSort f.a.toNat 1) s

end Sys2Proof.Machine
end

