-- ==== Sys2Proof/Machine/LoadStore.lean ====
section
/-! DEFINITION. Loads, stores, atomics, guards and fences (spec/07 R170–R178, R182; spec/04). -/

namespace Sys2Proof.Machine

/-- The value LD leaves in its register, from `w` loaded bits. -/
def loadResult (w : Nat) (zx : Bool) (v : Word) : Word := if zx then zxWord w v.toNat else sxWord w v.toNat

/-- A scalar load of `w` bits into `d` (R170). At the DATA register of a FIFO port that holds too few entries the load waits, and
only its destination awaits it (R61): later words issue. `clean` is the check of the address's registers. -/
def loadReg (d : BitVec 6) (w : Nat) (zx : Bool) (ea : Word) (clean : M Unit) : M Unit := do
  let t ← getTh
  let pl ← locate t.who .load accLoad (w / 8) ea (w / 8)
  checked clean do
    checkWatermark t.who pl (w / 8)
    match ← fifoShort accLoad ea (w / 8) pl with
    | some (c, b) => modTh fun t =>
        let t := t.setS d 0
        { t with loads := t.loads ++ [⟨none, d, w, zx, ea, c, b⟩] }
    | none => do
      let v ← loadPlace accLoad ea (w / 8) pl
      wrS d (loadResult w zx (BitVec.ofNat 64 v))

/-- LD (R170). -/
def execLd (f : Fields) (s : State) : Out :=
  runWord (do
    let ea ← peekEA f
    loadReg f.d (widthOf f.var.toNat) (f.var.getLsbD 2) ea (cleanEA f)) s

/-- ST (R171). -/
def execSt (f : Fields) (s : State) : Out :=
  runWord (do
    let t ← getTh
    let d ← peekS f.d
    let ea ← peekEA f
    let w := widthOf f.var.toNat
    store t.who accStore (w / 8) ea (w / 8) d.toNat (do cleanEA f; cleanS f.d)) s

/-- The new value of an AMO (R173 Table 8). -/
def amoNew (op w : Nat) (u : Bool) (old v : Nat) : Nat :=
  let o := opd w u (BitVec.ofNat 64 old)
  let x := opd w u (BitVec.ofNat 64 v)
  if op = 0 then (old + v) % 2 ^ w
  else if op = 1 then old &&& v
  else if op = 2 then old ||| v
  else if op = 3 then old ^^^ v
  else if op = 4 then (if o ≤ x then old else v)
  else if op = 5 then (if o ≤ x then v else old)
  else v

/-- The width of an atomic: XM[3] is `.w32` (R173). -/
def amoWidth (f : Fields) : Nat := if f.xm.getLsbD 3 then 32 else 64

/-- AMO (R173): one atomic step at the home slice; with both modifiers an acquire, then a release (R85). -/
def execAmo (f : Fields) (s : State) : Out :=
  runWord (do
    let t ← getTh
    let a ← peekS f.a
    let b ← peekS f.b
    let w := amoWidth f
    let v := b.toNat % 2 ^ w
    let old ← atomicOp t.who accAtomic a (w / 8) (fun o => some (amoNew f.var.toNat w f.u o v))
      (if f.xm.getLsbD 0 then acquireGuard a else pure ()) (if f.xm.getLsbD 1 then releaseGuard a else pure ())
      (do cleanS f.a; cleanS f.b)
    wrS f.d (if f.u then zxWord w old else sxWord w old)) s

/-- Add to an element at its home (R65, R253), at the bank of a scratchpad, or at the device that holds it (R175): `new` gives its new
value, the free counter and whether an exact word left its range, which is logged (R380). -/
def addHome (pa n : Nat) (new : Nat → Nat → Nat × Nat × Bool) (s : State) : State :=
  let s := freshen pa n ((recallRange s pa n).settle pa n)
  let (v, fr, ov) := new (s.rdHome pa n) s.free
  let s := { putHome s pa n v with free := fr }
  if ov then logError 0x11A pa none 0 s else s

/-- An update-mode add (R65, R173, R251): through an update line of the core, or at the bank of a scratchpad address. At a FIFO port the
spec gives an add no effect and VSCADD no cause: it raises the "nonexistent" cause that R175 gives an AMO there (DEDUCED, log 56). -/
def updateAdd (w : Who) (acc : Nat) (core : Nat) (fmt : UpdFmt) (ea : Word) (x : Int) (d : M Unit := pure ()) : M Unit := do
  let n := fmt.bytes
  let pl ← locate w .store acc n ea n
  match pl with
  | .cell pa _ =>
    d
    checkWatermark w pl n
    modify fun s =>
      if isHbm pa || isHost pa || isFabric pa then addUpdate s core fmt pa x
      else addHome pa n (fun old free => mergeElem old free fmt [x]) s
  | _ => raise (0x098 + acc) ea

/-- AMO in update mode (R173): reads nothing, writes no register. -/
def execAmoUpd (f : Fields) (s : State) : Out :=
  runWord (do
    let t ← getTh
    let a ← peekS f.a
    let b ← peekS f.b
    let w := amoWidth f
    updateAdd t.who accAtomic t.coreNo (.int (w / 8)) a (uInt w b.toNat) (do cleanS f.a; cleanS f.b)) s

/-- CAS (R174). `.acq` acquires whether it succeeds or fails; `.rel` releases only when it writes (R85). -/
def execCas (f : Fields) (s : State) : Out :=
  runWord (do
    let t ← getTh
    let a ← peekS f.a
    let b ← peekS f.b
    let c ← peekS f.c
    let w := amoWidth f
    let old ← atomicOp t.who accAtomic a (w / 8) (fun o => if o = b.toNat % 2 ^ w then some (c.toNat % 2 ^ w) else none)
      (if f.xm.getLsbD 0 then acquireGuard a else pure ()) (if f.xm.getLsbD 1 then releaseGuard a else pure ())
      (do cleanS f.a; cleanS f.b; cleanS f.c)
    wrS f.d (if f.u then zxWord w old else sxWord w old)) s

/-- ACQ (R176). -/
def execAcq (f : Fields) (s : State) : Out :=
  runWord (do
    let t ← getTh
    let ea ← peekEA f
    let v ← loadHome t.who accAtomic 8 ea 8 (cleanEA f)
    acquireGuard ea
    observe ea v
    wrS f.d (BitVec.ofNat 64 v)) s

/-- REL (R176). -/
def execRel (f : Fields) (s : State) : Out :=
  runWord (do
    let t ← getTh
    let d ← peekS f.d
    let ea ← peekEA f
    storeHome t.who accAtomic 8 ea 8 d.toNat (releaseGuard ea) (do cleanEA f; cleanS f.d)) s

/-- Whether two regions overlap. -/
def overlap (a n b m : Nat) : Bool := decide (a < b + m) && decide (b < a + n)

/-- BIND (R75, R177): 0x122, 0x120, 0x121, checked in that order; class 0x9 comes before the poison of its registers (R345). -/
def execBind (f : Fields) (s : State) : Out :=
  runWord (do
    let a ← peekS f.a
    let b ← peekS f.b
    let c ← peekS f.c
    let s ← get
    let p := s.part s.th.part
    raiseIf (b.toNat % 128 != 0 || c.toNat % 128 != 0 || c == 0 || decide (2 ^ 47 < c.toNat)) 0x122 b
    raiseIf (p.bindings.any fun r => overlap b.toNat c.toNat r.2.1 r.2.2) 0x120 b
    raiseIf (decide (4096 ≤ p.bindings.length)) 0x121 b
    cleanS f.a
    cleanS f.b
    cleanS f.c
    set (s.setPart s.th.part { p with bindings := p.bindings ++ [(a.toNat, b.toNat, c.toNat)] })) s

/-- UNBIND (R75, R177). -/
def execUnbind (f : Fields) (s : State) : Out :=
  runWord (do
    let b ← peekS f.b
    let s ← get
    let p := s.part s.th.part
    raiseIf (!(p.bindings.any fun r => r.2.1 == b.toNat)) 0x123 b
    cleanS f.b
    set (s.setPart s.th.part { p with bindings := p.bindings.filter fun r => r.2.1 != b.toNat })) s

/-- FENCE (R81, R178): a release, then an acquire, of the default object at the scope in VCFG. -/
def execFence (_ : Fields) (s : State) : Out :=
  runWord (do
    let t ← getTh
    releaseDefault t.scope
    acquireDefault t.scope) s

/-- IFENCE (R94, R178): the core's fetched words are discarded. -/
def execIfence (_ : Fields) (s : State) : Out :=
  runWord (modify fun s => s.setCore s.th.coreNo { s.core s.th.coreNo with icache := [] }) s

/-- WAIT (R182): one evaluation; where the condition fails the thread waits for the line to be written or 4,096 cycles. The
evaluation that ends the loop acquires. -/
def execWait (f : Fields) (s : State) : Out :=
  runWord (do
    let t ← getTh
    let a ← peekS f.a
    let (ea, cmp) ← match f.imm with
      | some i => pure (a + immS i, (0 : Word))
      | none => do
        let b ← peekS f.b
        pure (a, b)
    let v ← loadHome t.who accAtomic 8 ea 8 (cleanEA f)
    let x : Word := BitVec.ofNat 64 v
    if (if f.var = 0 then x != cmp else !x.ult cmp) then do
      acquireGuard ea
      observe ea v
      wrS f.d x
    else awaitWrite (.word ea) s) s

end Sys2Proof.Machine
end

