-- ==== Sys2Proof/Machine/VecFp.lean ====
section
/-! DEFINITION. Vector floating point: element-wise, compares, conversions, reductions and scans (spec/08 R197, R211–R216). -/

namespace Sys2Proof.Machine

/-- The format of SEW and BF (R197 Table 5), where it names one. -/
def vfFmt (w : Nat) (bf : Bool) : Fmt := if w = 16 then (if bf then bf16 else fp16) else if w = 64 then fp64 else fp32

/-- BF of a word. -/
def bfOf (f : Fields) : Bool := f.var.getLsbD 2

/-- SEW reserved for BF = 0, and for BF = 1 (R364). -/
def vfBad (v : VC) (bf : Bool) : List (Bool × Nat) := [(!bf && v.sew == 8, 0x0E0), (bf && v.sew != 16, 0x0ED)]

/-- An FP64 operand or result needs FEAT.F64 (R197). -/
def vfFeat (v : VC) (bf : Bool) : List (Bool × Nat) := [(v.sew == 64 && !bf, 0)]

/-- Flags of element `i`: FFLAGS gains them, and an enabled one traps with the element's index (R102, R361). -/
def vfFlags (i : Nat) (fl : Flags) : M Unit := do
  addFlags fl
  let t ← getTh
  match trapDetail t.enables fl with
  | some d => throw (.cause { code := 0x108 + d, xval := BitVec.ofNat 64 i, keep := true })
  | none => pure ()

/-- Element-wise floating point (R211): `two` says that Src2 is read. -/
def vfElem (f : Fields) (two : Bool) (feats : List (Bool × Nat)) (fn : Fmt → RM → Nat → Nat → FRes) : M Unit := do
  let v := vcOf (← get)
  let n := v.regs
  let m := vfFmt v.sew (bfOf f)
  vIssue v f (vfFeat v (bfOf f) ++ feats)
    (vfBad v (bfOf f) ++ grpBad f.d n ++ grpBad f.a n ++ (if two then src2Bad f n else []))
    [(f.d.toNat, n)]
  let b2 ← if two then src2Of v f else pure (.all 0)
  let act ← activeList v f
  let t ← getTh
  let rm := t.rm f.rnd
  modTh fun t => t.clearSort f.d.toNat n
  vloop v v.sew v.vl [(f.d.toNat, v.sew)] act (clean := if two then src2Clean f else pure ()) fun i => do
    let a ← rdV v f.a.toNat v.sew i
    let b ← b2.at_ v v.sew i
    let r := fn m rm a b
    vfFlags i r.2
    wrV v f.d.toNat v.sew i r.1

def vfaddM (f : Fields) : M Unit := vfElem f true [] fun m r a b => m.add r a b
def vfmulM (f : Fields) : M Unit := vfElem f true [] fun m r a b => m.mul r a b
def vfminM (f : Fields) : M Unit := vfElem f true [] fun m _ a b => m.minmax false a b
def vfmaxM (f : Fields) : M Unit := vfElem f true [] fun m _ a b => m.minmax true a b

def execVfadd (f : Fields) (s : State) : Out := runWord (vfaddM f) s
def execVfsub (f : Fields) (s : State) : Out := runWord (vfElem f true [] fun m r a b => m.sub r a b) s
def execVfmul (f : Fields) (s : State) : Out := runWord (vfmulM f) s
def execVfdiv (f : Fields) (s : State) : Out := runWord (vfElem f true [] fun m r a b => m.div r a b) s
def execVfsqrt (f : Fields) (s : State) : Out := runWord (vfElem f false [] fun m r a _ => m.sqrt r a) s
def execVfmin (f : Fields) (s : State) : Out := runWord (vfminM f) s
def execVfmax (f : Fields) (s : State) : Out := runWord (vfmaxM f) s
/-- VFEXP2 and VFLOG2 need FEAT.TRANSC (R20, R116). -/
def execVfexp2 (f : Fields) (s : State) : Out := runWord (vfElem f false [(true, 2)] fun m r a _ => m.exp2 r (m.decode a)) s
def execVflog2 (f : Fields) (s : State) : Out := runWord (vfElem f false [(true, 2)] fun m r a _ => m.log2 r (m.decode a)) s

/-- VFFMA (R212). -/
def execVffma (f : Fields) (s : State) : Out :=
  runWord (do
    let v := vcOf (← get)
    let n := v.regs
    let m := vfFmt v.sew (bfOf f)
    vIssue v f (vfFeat v (bfOf f))
      (vfBad v (bfOf f) ++ grpBad f.d n ++ grpBad f.a n ++ src2Bad f n ++ grpBad f.c n)
      [(f.d.toNat, n)]
    let b2 ← src2Of v f
    let act ← activeList v f
    let t ← getTh
    let rm := t.rm f.rnd
    modTh fun t => t.clearSort f.d.toNat n
    vloop v v.sew v.vl [(f.d.toNat, v.sew)] act (clean := src2Clean f) fun i => do
      let a ← rdV v f.a.toNat v.sew i
      let b ← b2.at_ v v.sew i
      let c ← rdV v f.c.toNat v.sew i
      let r := m.fma rm (f.var.getLsbD 1) (f.var.getLsbD 0) a b c
      vfFlags i r.2
      wrV v f.d.toNat v.sew i r.1) s

/-- VFCMP (R213). -/
def execVfcmp (f : Fields) (s : State) : Out :=
  runWord (do
    let v := vcOf (← get)
    let n := v.regs
    let m := vfFmt v.sew (bfOf f)
    vIssue v f (vfFeat v (bfOf f)) ((f.d == 0, 0x0EC) :: vfBad v (bfOf f) ++ grpBad f.a n ++ src2Bad f n) []
    let b2 ← src2Of v f
    let act ← activeList v f
    vmaskLoop v f.d.toNat act (src2Clean f) fun i => do
      let a ← rdV v f.a.toNat v.sew i
      let b ← b2.at_ v v.sew i
      let r := m.compare (f.var.toNat % 4) a b
      vfFlags i r.2
      return r.1) s

/-! ### VFCVT (R214) -/

/-- A number format by its EFMT code (R135). -/
inductive Efmt where
  | int (w : Nat) (u : Bool)
  | fp (f : Fmt)
  | b8 (b : B8)
  | exact
  | trellis
  deriving DecidableEq, Repr

/-- The format of an EFMT code; reserved codes name none (R135 Table 13). -/
def Efmt.ofCode (n : Nat) : Option Efmt :=
  if n = 0 then none
  else if n ≤ 8 then some (.int (8 * 2 ^ ((n - 1) / 2)) (n % 2 == 0))
  else if n = 9 then some (.fp fp16)
  else if n = 10 then some (.fp bf16)
  else if n = 11 then some (.fp fp32)
  else if n = 12 then some (.fp fp64)
  else if n = 13 then some .exact
  else if 0x20 < n ∧ n < 0x40 ∧ n % 8 ≠ 0 then some (.b8 (B8.ofCode (n - 0x20)))
  else if n = 0x40 then some .trellis
  else none

/-- Bits of an element. -/
def Efmt.width : Efmt → Nat
  | .int w _ => w
  | .fp f => f.width
  | .b8 _ => 8
  | .exact => 128
  | .trellis => 8

/-- The value of a pattern of a format; an exact word is read with `pt` fractional bits. -/
def Efmt.value (e : Efmt) (pt x : Nat) : FVal :=
  match e with
  | .int w u =>
    let y := opv w u x
    .num (decide (y < 0)) y.natAbs 0
  | .fp f => f.decode x
  | .b8 b => b.decode x
  | .exact =>
    let y := exactInt x
    .num (decide (y < 0)) y.natAbs (-(pt : Int))
  | .trellis => .num false 0 0

/-- A value put into a format: VFCVT's conversions (R103, R107, R214). -/
def Efmt.put (e : Efmt) (rm : RM) (sat : Bool) (v : FVal) : FRes :=
  match e with
  | .int w u =>
    let r := toInt w u rm v
    (wrap w r.1, r.2)
  | .fp f => f.ofVal rm v
  | .b8 b => b.encode rm sat v
  | .exact | .trellis => (0, 0)

/-- The conversion of one element. -/
def cvtElem (src dst : Efmt) (rm : RM) (sat : Bool) (x : Nat) : FRes := dst.put rm sat (src.value 0 x)

/-- Registers of one side of VFCVT: its share of the G registers of the wider side, at least one. -/
def cvtRegs (n w ww : Nat) : Nat := max 1 (n * w / ww)

def execVfcvt (f : Fields) (s : State) : Out :=
  runWord (do
    let v := vcOf (← get)
    let sc := f.b.toNat
    let dc := if f.lm then f.xm.toNat else f.c.toNat
    let src := (Efmt.ofCode sc).getD (.fp fp32)
    let dst := (Efmt.ofCode dc).getD (.fp fp32)
    let ww := max src.width dst.width
    let na := cvtRegs v.regs src.width ww
    let nd := cvtRegs v.regs dst.width ww
    vIssue v f [(src == .fp fp64 || dst == .fp fp64, 0)]
      ([(v.sew != ww, 0x0E0)] ++ grpBad f.d nd ++ grpBad f.a na ++
        [(src.width != dst.width && grpHit f.d.toNat nd f.a.toNat na || src.width != dst.width && f.lm && grpHit f.d.toNat nd f.c.toNat 1, 0x0E4)])
      [(f.d.toNat, nd)]
    let act ← activeList v f
    let t ← getTh
    let rm := t.rm f.rnd
    modTh fun t => t.clearSort f.d.toNat nd
    vloop v dst.width v.vl [(f.d.toNat, dst.width)] act fun i => do
      let a ← rdV v f.a.toNat src.width i
      let r := cvtElem src dst rm f.sat a
      vfFlags i r.2
      wrV v f.d.toNat dst.width i r.1) s

/-! ### VRED (R114, R215), VSCAN (R115, R216) -/

/-- One level of the pairwise tree: nodes that are absent pass nothing on. -/
def treeLevel {α : Type} (g : α → α → α) : List (Option α) → List (Option α)
  | some x :: some y :: l => some (g x y) :: treeLevel g l
  | some x :: none :: l => some x :: treeLevel g l
  | none :: some y :: l => some y :: treeLevel g l
  | none :: none :: l => none :: treeLevel g l
  | l => l

/-- The root of the tree over leaves whose number is a power of two: `fuel` levels. -/
def treeRoot {α : Type} (g : α → α → α) : Nat → List (Option α) → Option α
  | 0, l => l.headD none
  | n + 1, l => treeRoot g n (treeLevel g l)

/-- The tree of R114 over VL leaves, the seed joining at the root. -/
def treeSum {α : Type} (g : α → α → α) (vl : Nat) (leaf : Nat → Option α) (seed : α) : α :=
  let w := pow2AtLeast vl
  let l := (List.range w).map fun i => if i < vl then leaf i else none
  match treeRoot g (Nat.log2 w) l with
  | some x => g seed x
  | none => seed

/-- An integer operation of VRED and VSCAN by code. -/
def redInt (op : Nat) (x y : Int) : Int :=
  if op = 0 then x + y
  else if op = 1 then (if x ≤ y then x else y)
  else if op = 2 then (if x ≤ y then y else x)
  else
    -- bitwise operations act on the two patterns; the sign of either is that of its pattern
    let a := wrap 64 x
    let b := wrap 64 y
    sInt 64 (if op = 3 then a &&& b else if op = 4 then a ||| b else a ^^^ b)

/-- A floating-point operation of VRED and VSCAN by FN[1:0]. -/
def redFp (m : Fmt) (rm : RM) (op x y : Nat) : FRes :=
  if op = 0 then m.add rm x y else m.minmax (op == 2) x y

/-- The issue checks VRED and VSCAN share. -/
def redIssue (v : VC) (f : Fields) (dst : Bool) : M Unit :=
  let fp := f.var.getLsbD 3
  let n := v.regs
  vIssue v f (if fp then vfFeat v (bfOf f) else [])
    ((if fp then vfBad v (bfOf f) else []) ++ (if dst then grpBad f.d n else []) ++ grpBad f.a n)
    (if dst then [(f.d.toNat, n)] else [])

/-- The integer result of VRED: computed exactly, then clamped or wrapped. -/
def vredInt (w op : Nat) (sat u : Bool) (vl : Nat) (leaf : Nat → Option Nat) (seed : Nat) : Nat × Bool :=
  let x := treeSum (redInt op) vl (fun i => (leaf i).map (opv w u)) (opv w u seed)
  narrow w sat u x

def execVred (f : Fields) (s : State) : Out :=
  runWord (do
    let v := vcOf (← get)
    redIssue v f false
    let b ← peekS f.b
    let seed := b.toNat % 2 ^ v.sew
    let act ← activeTodo v f
    cleanFirst (cleanS f.b) (act.head?.map fun i => do let _ ← rdV v f.a.toNat v.sew i)
    let xs ← act.mapM fun i => do
      let x ← rdV v f.a.toNat v.sew i
      return (i, x)
    let leaf (i : Nat) : Option Nat := (xs.find? fun p => p.1 == i).map Prod.snd
    if f.var.getLsbD 3 then
      let t ← getTh
      let m := vfFmt v.sew (bfOf f)
      let g (x y : Nat × Flags) : Nat × Flags :=
        let r := redFp m (t.rm f.rnd) (f.var.toNat % 4) x.1 y.1
        (r.1, r.2 ||| x.2 ||| y.2)
      let r := treeSum g v.vl (fun i => (leaf i).map fun x => (x, (0 : Flags))) (seed, 0)
      addFlags r.2
      match trapDetail t.enables r.2 with
      | some d => throw (.cause { code := 0x108 + d, keep := true })
      | none => do
        wrS f.d (BitVec.ofNat 64 r.1)
        modTh Thread.finishV
    else
      let r := vredInt v.sew f.var.toNat f.sat f.u v.vl leaf seed
      setSat r.2
      wrS f.d (if f.u then zxWord v.sew r.1 else sxWord v.sew r.1)
      modTh Thread.finishV) s

/-- VSCAN (R216): the running value of a resumed scan is the one kept with the vector context; where software discarded it (it wrote VSTART, an XPROG or XSTAT, or the registers differ from those at the stop) the value in use is free. -/
def execVscan (f : Fields) (s : State) : Out :=
  runWord (do
    let v := vcOf (← get)
    redIssue v f true
    let b ← peekS f.b
    let seed := b.toNat % 2 ^ v.sew
    let act ← activeList v f
    let t ← getTh
    let fp := f.var.getLsbD 3
    let m := vfFmt v.sew (bfOf f)
    let start : Int := if fp then seed else opv v.sew f.u seed
    let regs (t : Thread) : List (BitVec 8192) :=
      (List.range v.regs).flatMap fun k => [t.vreg (f.a.toNat + k), t.vreg (f.d.toNat + k)]
    let free ← freshIndex
    let any : Int := if fp then ((Config.freeWord free).toNat % 2 ^ v.sew : Nat) else sInt 64 (Config.freeWord free).toNat
    let run := if t.resumesV then
        match t.scan with
        | some x => if x.regs == regs t then x.run else any
        | none => any
      else start
    modTh fun t => { (t.clearSort f.d.toNat v.regs) with scan := some ⟨run, []⟩ }
    let cur : M Int := do
      let t ← getTh
      return (t.scan.map Scan.run).getD run
    try
      vloop v v.sew v.vl [(f.d.toNat, v.sew)] act (clean := cleanS f.b) fun i => do
        let x ← rdV v f.a.toNat v.sew i
        let old ← cur
        if fp then
          let r := redFp m (t.rm f.rnd) (f.var.toNat % 4) old.toNat x
          vfFlags i r.2
          modTh fun t => { t with scan := some ⟨(r.1 : Int), []⟩ }
          wrV v f.d.toNat v.sew i (if f.xm.getLsbD 0 then old.toNat else r.1)
        else
          let y := redInt f.var.toNat old (opv v.sew f.u x)
          let r := narrow v.sew f.sat f.u (if f.xm.getLsbD 0 then old else y)
          setSat r.2
          modTh fun t => { t with scan := some ⟨y, []⟩ }
          wrV v f.d.toNat v.sew i r.1
    catch e =>
      modTh fun t => { t with scan := t.scan.map fun x => { x with regs := regs t } }
      throw e
    modTh fun t => { t with scan := none }) s

end Sys2Proof.Machine
end

