-- ==== Sys2Proof/Machine/VecMem.lean ====
section
/-! DEFINITION. Vector memory instructions (spec/10 R243–R255, spec/03 R74). -/

namespace Sys2Proof.Machine


/-- Class-0x7 conditions of the data groups D, D + G, … (R246, R366). -/
def segBad (v : VC) (f : Fields) : List (Bool × Nat) :=
  let n := v.regs
  let k := f.seg.toNat + 1
  [(f.d.toNat % n != 0, 0x0E2), (decide (8 < k * n) || decide (32 < f.d.toNat + k * n), 0x0E3)]

/-- The elements from VSTART on that a unit-stride vector word moves at a FIFO data port make one access (R61, R74); they must
follow one another. -/
def atPort (f : Fields) (need : Need) (acc : Nat) (base : Word) (todo : List Nat) : M Bool := do
  let s ← get
  if f.seg != 0 || todo.isEmpty || todo != (List.range todo.length).map (· + todo.headD 0) then return false
  match (locate s.th.who need acc 8 base 8).run s with
  | .ok (.fifo _ _ 0) _ => return true
  | _ => return false

/-- Read `bytes` bytes of a vector load into the elements `d` names. At the DATA register of a FIFO port that holds too few entries the
load waits there, and only what it fills awaits it (R36, R61): then there is no value yet. -/
def vfetch (w : Who) (d : VDest) (al : Nat) (ea : Word) (bytes : Nat) : M (Option Nat) := do
  let pl ← locate w .load accVLoad al ea bytes
  checkWatermark w pl bytes
  match ← fifoShort accVLoad ea bytes pl with
  | some (c, b) => do
    modTh fun t => { t with loads := t.loads ++ [⟨some d, 0, 8 * bytes, false, ea, c, b⟩] }
    return none
  | none => return some (← loadPlace accVLoad ea bytes pl)

/-- The base and the address of field `k` of element `i` of a unit-stride or segment access. -/
def unitAddr (f : Fields) (v : VC) : M (Word × (Nat → Nat → Word)) := do
  let b ← peekEA f
  return (b, fun i k => b + BitVec.ofNat 64 ((i * (f.seg.toNat + 1) + k) * (v.sew / 8)))

/-- The base and the addresses of a strided access; the stride is read once a word. -/
def strideAddr (f : Fields) (_ : VC) : M (Word × (Nat → Nat → Word)) := do
  let a ← peekS f.a
  let st ← peekS f.b
  return (a, fun i _ => a + BitVec.ofNat 64 i * st)

/-- The class-0x5 check of the base and stride registers. -/
def strideClean (f : Fields) : M Unit := do
  cleanS f.a
  cleanS f.b

/-- VLD and VLDS (R246): `addrs` gives the base and the address of field k of element i. -/
def vloadM (f : Fields) (addrs : VC → M (Word × (Nat → Nat → Word))) (clean : M Unit) (unit : Bool) : M Unit := do
  let v := vcOf (← get)
  let n := v.regs
  let k := f.seg.toNat + 1
  let w := v.sew
  let sz := w / 8
  let (b, addr) ← addrs v
  let t ← getTh
  vIssue v f [] (segBad v f) [(f.d.toNat, k * n)] (t.eas v f fun i => (List.range k).map (addr i))
  let act ← activeList v f
  let who := t.who
  let port ← if unit then atPort f .load accVLoad b (v.plan t w v.vl act).1 else pure false
  modTh fun t => t.clearSort f.d.toNat (k * n)
  if port then
    vmerged v w v.vl [(f.d.toNat, w)] act (clean := clean) fun l => do
      match ← vfetch who ⟨f.d.toNat, n, w, l.headD 0, l.length⟩ 8 b (l.length * sz) with
      | some x => putElems v f.d.toNat w (l.zipIdx.map fun e => (e.1, elem w x e.2))
      | none => pure ()
  else
    vloop v w v.vl ((List.range k).map fun j => (f.d.toNat + j * n, w)) act (clean := clean) fun i =>
      (List.range k).forM fun j => do
        match ← vfetch who ⟨f.d.toNat + j * n, n, w, i, 1⟩ sz (addr i j) sz with
        | some x => wrV v (f.d.toNat + j * n) w i x
        | none => pure ()

/-- VST and VSTS (R246). The poison of a data element comes after its access's causes of classes 0x2 to 0x4 (R345). -/
def vstoreM (f : Fields) (addrs : VC → M (Word × (Nat → Nat → Word))) (clean : M Unit) (unit : Bool) : M Unit := do
  let v := vcOf (← get)
  let n := v.regs
  let k := f.seg.toNat + 1
  let w := v.sew
  let sz := w / 8
  let (b, addr) ← addrs v
  let t ← getTh
  vIssue v f [] (segBad v f) [] (t.eas v f fun i => (List.range k).map (addr i))
  let act ← activeList v f
  let who := t.who
  let todo := (v.plan t w v.vl act).1
  let port ← if unit then atPort f .store accVStore b todo else pure false
  if port then
    vmerged v w v.vl [] act (clean := clean) fun l => do
      let xs ← l.mapM fun i => peekV v f.d.toNat w i
      store who accVStore 8 b (l.length * sz) (packElems w (fun i => xs.getD i 0) xs.length) (l.forM fun i => cleanV v f.d.toNat w i)
  else
    vloop v w v.vl [] act (clean := clean) fun i =>
      (List.range k).forM fun j => do
        let x ← peekV v (f.d.toNat + j * n) w i
        store who accVStore sz (addr i j) sz x (cleanV v (f.d.toNat + j * n) w i)
    clearCovered who (todo.flatMap fun i => (List.range k).map fun j => (addr i j, sz))

def execVld (f : Fields) (s : State) : Out := runWord (vloadM f (unitAddr f) (cleanEA f) true) s
def execVlds (f : Fields) (s : State) : Out := runWord (vloadM f (strideAddr f) (strideClean f) false) s
def execVst (f : Fields) (s : State) : Out := runWord (vstoreM f (unitAddr f) (cleanEA f) true) s
def execVsts (f : Fields) (s : State) : Out := runWord (vstoreM f (strideAddr f) (strideClean f) false) s

/-- FIFO_POP_WAKE (R61): the oldest load of thread `k` waiting at a port that now holds enough entries for it pops them; loads at one port
pop in their order. A thread in a stopped slot performs none (R352). A damaged entry leaves its cause on what the load fills, which the
first reader raises (R376, R377; log 21). -/
def popWaiting (k : Nat) (s : State) : Option State :=
  let t := s.thread k
  let bank (l : FifoLoad) : Bank := (s.cluster l.cluster).banks.getD (l.bank % 16) Bank.reset
  let enough (i : Nat) : Bool :=
    match t.loads[i]? with
    | some l =>
      (bank l).mode == 2 && !(bank l).busy && decide (l.width / 64 ≤ (bank l).ring.length) && (l.vec.isNone || t.vectorHere) &&
        !((t.loads.take i).any fun o => o.cluster == l.cluster && o.bank == l.bank)
    | none => false
  match s.running t, (List.range t.loads.length).find? enough with
  | true, some i =>
    match t.loads[i]? with
    | some l =>
      let n := l.width / 64
      let (x, b) := (bank l).pop n
      let bad := (bank l).damage n
      let code := 0x0A0 + bad.getD 0
      let pa := Place.pa (.fifo l.cluster l.bank 0)
      let t := { t with loads := removeAt t.loads i }
      let t := match l.vec with
        | some d =>
          let r := 16 * threadLanes s t
          let es := (List.range d.count).map (d.first + ·)
          let t := es.zipIdx.foldl (fun t e => t.vput r d.reg d.sew e.1 (elem d.sew x e.2)) t
          let t := t.clearMarks r d.reg d.sew es
          if bad.isSome then { t with vpoison := t.vpoison ++ es.map fun e =>
            let o := e * (d.sew / 8)
            ⟨d.reg + o / r, o % r, d.sew / 8, code, l.ea + BitVec.ofNat 64 ((e - d.first) * (d.sew / 8)), pa⟩ } else t
        | none =>
          let t := t.setS l.reg (loadResult l.width l.zx (BitVec.ofNat 64 x))
          if bad.isSome && l.reg != 0 then { t with spoison := t.spoison ++ [⟨l.reg, code, l.ea, pa⟩] } else t
      some ((setBank s l.cluster l.bank b).setThread k t)
    | none => none
  | _, _ => none

/-! ### Tiles (R247): row-major progress in EPROG -/

/-- EPROG of a row and a column (R346). -/
def eprogWord (row col : Nat) : Word := BitVec.ofNat 64 (row % 65536 * 65536 + col % 65536)

/-- The loop of a tile of `rows` rows of `cols` columns, of which `act` are active; it starts at EPROG, and a stop leaves EPROG
at the element. `w` is the width element groups are counted in; `clean` checks the word's scalar operands. -/
def tloop (v : VC) (w rows cols : Nat) (act : List Nat) (dst : List (Nat × Nat)) (body : Nat → Nat → M Unit)
    (clean : M Unit := pure ()) : M Unit := do
  let t ← getTh
  let r0 := bits t.eprog.toNat 31 16
  let c0 := bits t.eprog.toNat 15 0
  let all := (List.range rows).flatMap fun k =>
    if k < r0 then [] else (act.filter fun i => decide (r0 < k) || decide (c0 ≤ i)).map fun i => k * cols + i
  let p := r0 * cols + c0
  let epg := max 1 (v.g / (w / 8))
  let bound := if v.step && decide (p < rows * cols) then some (min (rows * cols) ((p / epg + 1 + v.more) * epg)) else none
  let todo := match bound with
    | some b => all.filter (decide <| · < b)
    | none => all
  let mark (done : List Nat) (e : Nat) (t : Thread) : Thread :=
    dst.foldl (fun t d => t.clearMarks v.r d.1 d.2 done) { t with eprog := eprogWord (e / cols) (e % cols) }
  cleanFirst clean (todo.head?.map fun e => body (e / cols) (e % cols))
  runElems (fun e => mark (todo.filter (decide <| · < e)) e) false true (fun e => body (e / cols) (e % cols)) true todo
  match bound with
  | some b =>
    modTh (mark todo b)
    throw (.cause { code := 0x1C3, keep := true, tpart := true })
  | none => modTh fun t => (mark todo 0 t).finishV

/-- VROWS.ROWS and VPITCH (R245), as the word began (R189). -/
def Thread.rows (t : Thread) : Nat := bits t.begins.vrows.toNat 8 0
def Thread.pitch (t : Thread) : Word := t.begins.vpitch

/-- VLDT and VSTT (R247). -/
def tileM (f : Fields) (isStore : Bool) : M Unit := do
  let v := vcOf (← get)
  let n := v.regs
  let w := v.sew
  let sz := w / 8
  let t ← getTh
  let b ← peekEA f
  let addr (k i : Nat) : Word := b + BitVec.ofNat 64 k * t.pitch + BitVec.ofNat 64 (i * sz)
  let row0 := bits t.eprog.toNat 31 16
  let first := row0 * v.vl + bits t.eprog.toNat 15 0
  let ahead (l : List Nat) : List (Nat × Nat) :=
    (List.range t.rows).flatMap fun k => (l.filter fun i => decide (first ≤ k * v.vl + i)).map fun i => (k, i)
  vIssue v f [] (grpBad f.d n ++ [(decide (v.vlmax < t.rows * v.vl), 0x0E7)]) (if isStore then [] else [(f.d.toNat, n)])
    (if t.vectorHere then (ahead (t.activeIdx v f)).map fun e => addr e.1 e.2 else [])
  let act ← activeList v f
  if isStore then
    tloop v w t.rows v.vl act [] (clean := cleanEA f) fun k i => do
      let x ← peekV v f.d.toNat w (k * v.vl + i)
      store t.who accVStore sz (addr k i) sz x (cleanV v f.d.toNat w (k * v.vl + i))
    clearCovered t.who ((ahead act).map fun e => (addr e.1 e.2, sz))
  else
    modTh fun t => t.clearSort f.d.toNat n
    tloop v w t.rows v.vl act [(f.d.toNat, w)] (clean := cleanEA f) fun k i => do
      match ← vfetch t.who ⟨f.d.toNat, n, w, k * v.vl + i, 1⟩ sz (addr k i) sz with
      | some x => wrV v f.d.toNat w (k * v.vl + i) x
      | none => pure ()

def execVldt (f : Fields) (s : State) : Out := runWord (tileM f false) s
def execVstt (f : Fields) (s : State) : Out := runWord (tileM f true) s

/-! ### VLDA (R248) -/

/-- VLDA's issue: every element is checked, lowest first, and then left to fill in the background. At a FIFO data port its
elements make one access, whose size is checked here. -/
def execVlda (f : Fields) (s : State) : Out :=
  runWord (do
    let v := vcOf (← get)
    let n := v.regs
    let sz := v.sew / 8
    let b ← peekEA f
    let t ← getTh
    let l := v.todo t v.sew (List.range v.vl)
    vIssue v f [] (grpBad f.d n) [(f.d.toNat, n)] (t.eas v f fun i => [b + BitVec.ofNat 64 (i * sz)])
    let port ← atPort f .load accVLoad b l
    let bytes := if port then l.length * sz else 0
    raiseIf (bytes % 8 != 0 || decide (256 < bytes)) (0x098 + accVLoad) b
    cleanFirst (cleanEA f) (l.head?.map fun i => do
      let _ ← locate t.who .load accVLoad (if port then 8 else sz) (if port then b else b + BitVec.ofNat 64 (i * sz)) (if port then bytes else sz))
    let todo ← (if port then l.take 1 else l).mapM fun i => do
      let ea := if port then b else b + BitVec.ofNat 64 (i * sz)
      let pl ← locate t.who .load accVLoad (if port then 8 else sz) ea (if port then bytes else sz)
      let narrow : Bool := match pl with
        | .fifo _ _ off => off != 0 && sz != 8
        | _ => false
      raiseIf narrow (0x098 + accVLoad) ea
      return ({ elem := i, ea := ea, place := pl } : VldaElem)
    modTh fun t =>
      let t := (t.clearSort f.d.toNat n).finishV
      if todo.isEmpty then t else { t with vldas := t.vldas ++ [⟨f.d.toNat, n, v.sew, bytes, todo⟩] }) s

/-- Read `sz` bytes of a VLDA at the place its issue resolved; damage is left as a mark on what it fills (R248). So is a cause of class
0x4 or 0xC that arises only past issue (a bank that has changed mode, a view whose region has changed): R248 gives the first reader the
poison alone, and no rule says who raises these (DEDUCED, log 58). -/
def vldaRead (sz : Nat) (e : VldaElem) : M (Nat × Option (Nat × Nat)) := do
  match e.place with
  | .cell pa via =>
    needHeld pa sz
    let s ← get
    let d := poisonAt s pa sz
    let (s, x) := readVia s via pa sz
    set s
    return (x, d.map fun d => (0x0A0 + d, pa))
  | pl =>
    let s ← get
    match (loadPlace accVLoad e.ea sz pl).run s with
    | .ok x s =>
      set s
      return (x, none)
    | .error (.cause c) s' =>
      set (if c.keep then s' else s)
      return (0, some (c.code, c.pa))
    | .error r _ => throw r

/-- Fill what the first element left of a VLDA of the selected thread names; its registers are of `r` bytes. -/
def vldaElem (r : Nat) (w : Vlda) (e : VldaElem) : M Unit := do
  let t ← getTh
  let one := w.sew / 8
  let sz := if w.bytes = 0 then one else w.bytes
  checkWatermark t.who e.place sz
  let (x, bad) ← vldaRead sz e
  let n := sz / one
  modTh fun t =>
    let t := (List.range n).foldl (fun t k => t.vput r w.reg w.sew (e.elem + k) (elem w.sew x k)) t
    let t := t.clearMarks r w.reg w.sew ((List.range n).map (e.elem + ·))
    match bad with
    | some (code, pa) =>
      { t with vpoison := t.vpoison ++ (List.range n).map fun k =>
          let o := (e.elem + k) * one
          ⟨w.reg + o / r, o % r, one, code, e.ea, pa⟩ }
    | none => t

/-! ### VGATHW, VSCAT, VSCADD (R249–R251) -/

def execVgathw (f : Fields) (s : State) : Out :=
  runWord (do
    let v := vcOf (← get)
    let n := v.regs
    let sz := v.sew / 8
    let k := f.xm.toNat % 8
    let d := f.d.toNat
    let b := f.b.toNat
    let c := f.c.toNat
    let a ← peekS f.a
    let t ← getTh
    vIssue v f []
      (grpBad f.d n ++ grpBad f.b n ++ grpBad f.c n ++
        [(grpHit d n b n || grpHit d n c n || grpHit b n c n, 0x0E4), (k == 0, 0x0EC)])
      [(d, n), (c, n)]
      ((v.todo t v.sew (List.range v.vlmax)).map fun j => a + BitVec.ofNat 64 (j * sz))
    let act ← activeList v f
    modTh fun t => (t.clearSort d n).clearSort c n
    vloop v v.sew v.vlmax [(c, v.sew)] (List.range v.vlmax) (clean := cleanS f.a) fun j => do
      let x ← load t.who accVLoad sz (a + BitVec.ofNat 64 (j * sz)) sz
      wrV v c v.sew j x
    -- damage of an index stops the word with its window loaded
    let s1 ← get
    let res ← match (act.mapM fun i => do return (i, ← rdV v b v.sew i) : M (List (Nat × Nat))).run s1 with
      | .ok l s2 => do
        set s2
        pure l
      | .error (.cause c) _ => do
        modTh fun t => t.progress v v.vlmax
        throw (.cause { c with keep := true, vpart := true })
      | .error e _ => throw e
    let got ← (res.filter fun e => decide (e.2 < v.vlmax)).mapM fun e => do return (e.1, ← rdV v c v.sew e.2)
    putElems v d v.sew got
    modTh fun t => t.setMreg k (maskOf v.vl ((res.filter fun e => !decide (e.2 < v.vlmax)).map Prod.fst).contains)) s

def execVscat (f : Fields) (s : State) : Out :=
  runWord (do
    let v := vcOf (← get)
    let n := v.regs
    let sz := v.sew / 8
    let a ← peekS f.a
    let t ← getTh
    let at_ (idx : Nat) : Word := a + BitVec.ofNat 64 (idx * sz)
    vIssue v f [] (grpBad f.d n ++ grpBad f.b n) [] (t.eas v f fun i => [at_ (t.vget v.r f.b.toNat v.sew i)])
    let act ← activeList v f
    vloop v v.sew v.vl [] act (clean := cleanS f.a) fun i => do
      let idx ← peekV v f.b.toNat v.sew i
      let x ← peekV v f.d.toNat v.sew i
      store t.who accVStore sz (at_ idx) sz x (do cleanV v f.b.toNat v.sew i; cleanV v f.d.toNat v.sew i)
    clearCovered t.who ((v.plan t v.sew v.vl act).1.map fun i => (at_ (t.vget v.r f.b.toNat v.sew i), sz))) s

/-- The format of an update-mode float add. -/
def updFmtOf (w : Nat) (bf : Bool) : UpdFmt :=
  if w = 16 then (if bf then .brain else .half) else if w = 64 then .double else .single

/-- An exact addend (R110): the integer and NX, or the cause it is refused with. -/
def exactAddend (pt : Nat) (x : FVal) : Except Nat (Int × Bool) :=
  match toExact pt x with
  | none => .error 0x118
  | some (i, nx) => if inExactRange i then .ok (i, nx) else .error 0x119

def execVscadd (f : Fields) (s : State) : Out :=
  runWord (do
    let v := vcOf (← get)
    let n := v.regs
    let w := v.sew
    let kind := f.var.toNat % 4
    let a ← peekS f.a
    let pt ← if kind = 2 then do pure ((← peekS f.c).toNat % 128) else pure 0
    let t ← getTh
    let core := t.coreNo
    let at_ (idx : Nat) : Word := a + BitVec.ofNat 64 (idx * (if kind = 2 then 16 else w / 8))
    vIssue v f (if kind = 0 then [] else vfFeat v (bfOf f))
      ((if kind = 0 then [] else vfBad v (bfOf f)) ++ grpBad f.d n ++ grpBad f.b n) []
      (t.eas v f fun i => [at_ (t.vget v.r f.b.toNat w i)])
    let act ← activeList v f
    vloop v w v.vl [] act (clean := do cleanS f.a; if kind = 2 then cleanS f.c) fun i => do
      let idx ← peekV v f.b.toNat w i
      let x ← peekV v f.d.toNat w i
      let clean := do cleanV v f.b.toNat w i; cleanV v f.d.toNat w i
      if kind = 2 then
        match exactAddend pt ((vfFmt w (bfOf f)).decode x) with
        | .ok (y, nx) =>
          updateAdd t.who accVStore core .exact (at_ idx) y clean
          addFlags (if nx then fNX else 0)
        | .error code => updateAdd t.who accVStore core .exact (at_ idx) 0 (do clean; raise code (BitVec.ofNat 64 i))
      else updateAdd t.who accVStore core (if kind = 0 then .int (w / 8) else updFmtOf w (bfOf f)) (at_ idx) x clean) s

/-! ### VREDST (R253) -/

/-- Where an atomic add at the home of an element goes (R253): it counts as a store (R57), reads the element, and uses no update line.
`clean` consumes the element of the register. At a FIFO port, where the spec gives an add no effect, it raises the "nonexistent" cause, as
an AMO does there (R175; DEDUCED, log 56). -/
def homePlace (w : Who) (ea : Word) (bytes : Nat) (clean : M Unit) : M Nat := do
  let pl ← locate w .store accVStore bytes ea bytes
  match pl with
  | .cell pa _ =>
    checked clean do
      checkWatermark w pl bytes
      let _ ← readHome accVStore ea bytes pl
    return pa
  | _ => raise (0x098 + accVStore) ea

/-- An atomic add at the home of an element (R253). -/
def homeAdd (w : Who) (ea : Word) (bytes : Nat) (clean : M Unit) (new : Nat → Nat × Bool) : M Unit := do
  let pa ← homePlace w ea bytes clean
  let s ← get
  let r := new (s.rdHome pa bytes)
  let s := putHome s pa bytes r.1
  set (if r.2 then logError 0x11A pa none 0 s else s)

/-- RoundRNE(old + exact product) (R253). -/
def redstFloat (m : Fmt) (p : FVal) (old : Nat) : Nat := (m.finish .rne (addVal .rne (m.decode old) p)).1

def execVredst (f : Fields) (s : State) : Out :=
  runWord (do
    let v := vcOf (← get)
    let n := v.regs
    let w := v.sew
    let kind := f.var.toNat % 4
    let a ← peekS f.a
    let c ← if kind = 0 then pure 0 else peekS f.c
    let e := bits c.toNat 7 0
    let pt := bits c.toNat 14 8
    let m := vfFmt w (bfOf f)
    let sz := if kind = 2 then 16 else w / 8
    let at_ (i : Nat) : Word := a + BitVec.ofNat 64 (i * sz)
    let t ← getTh
    vIssue v f (if kind = 0 then [] else vfFeat v (bfOf f))
      ((if kind = 0 then [] else vfBad v (bfOf f)) ++ grpBad f.b n) [] (t.eas v f fun i => [at_ i])
    let act ← activeList v f
    let todo := v.todo t w act
    let clean := do cleanS f.a; if kind ≠ 0 then cleanS f.c
    let vals ← if kind = 2 then todo.mapM fun i => do
        return (i, exactAddend pt (scaleVal e (m.decode (← peekV v f.b.toNat w i))))
      else pure []
    -- a refused exact addend: the memory classes come first, for the lowest element that meets one (R345), and nothing is sent
    match vals.findSome? fun p => match p.2 with
      | .error code => some (p.1, code)
      | .ok _ => none
    with
    | some (i, code) =>
      let one (k : Nat) : M Unit := do let _ ← homePlace t.who (at_ k) sz (cleanV v f.b.toNat w k)
      cleanFirst clean (todo.head?.map one)
      todo.forM fun k => do
        let s ← get
        match (one k).run s with
        | .error e _ => throw e
        | .ok _ _ => pure ()
      raise code (BitVec.ofNat 64 i)
    | none => pure ()
    let add (i : Nat) : Int × Bool :=
      match vals.find? fun p => p.1 == i with
      | some (_, .ok r) => r
      | _ => (0, false)
    addFlags (if todo.any fun i => (add i).2 then fNX else 0)
    vloop v w v.vl [] act (clean := clean) fun i => do
      let x ← peekV v f.b.toNat w i
      homeAdd t.who (at_ i) sz (cleanV v f.b.toNat w i) fun old =>
        if kind = 2 then
          let y := exactInt old + (add i).1
          (exactWord y, !inExactRange y)
        else if kind = 0 then ((old + x) % 2 ^ w, false)
        else (redstFloat m (scaleVal e (m.decode x)) old, false)) s

/-! ### VSPILL, VFILL (R254), XRND (R255) -/

/-- VSPILL (R254): the header, then the group's elements, then the padding, which is zero. It stops between elements as every
vector memory instruction does (R348); a word that resumes has written its header. -/
def execVspill (f : Fields) (s : State) : Out :=
  runWord (do
    let v := vcOf (← get)
    let n := v.regs
    let sz := v.sew / 8
    let ea ← peekEA f
    let t ← getTh
    let at_ (i : Nat) : Word := ea + BitVec.ofNat 64 (64 + i * sz)
    vIssue v f [] (grpBad f.d n) [] (ea :: (List.range v.vl).map at_)
    if t.resumesV then
      let _ ← locate t.who .store accVStore 64 ea 64
    else store t.who accVStore 64 ea 64 v.vcfg.toNat (cleanEA f)
    let act := List.range v.vl
    let todo := (v.plan t v.sew v.vl act).1
    vloop v v.sew v.vl [] act fun i => do
      let x ← peekV v f.d.toNat v.sew i
      store t.who accVStore sz (at_ i) sz x (cleanV v f.d.toNat v.sew i)
    let pad := (64 - v.vl * sz % 64) % 64 / sz
    (List.range pad).forM fun k => store t.who accVStore sz (at_ (v.vl + k)) sz 0
    clearCovered t.who ((todo ++ (List.range pad).map (v.vl + ·)).map fun i => (at_ i, sz))) s

/-- Bytes `lo` to `n × r − 1` of a group become unspecified (R8). -/
def freeTail (r reg n lo : Nat) : M Unit :=
  (List.range n).forM fun k => do
    if lo < (k + 1) * r then
      let any ← freshIndex
      modTh fun t =>
        let keep : BitVec 8192 := BitVec.ofNat 8192 (2 ^ (8 * (lo - k * r)) - 1)
        t.setVreg (reg + k) ((t.vreg (reg + k) &&& keep) ||| (Config.freeVec any &&& ~~~keep))

/-- VFILL (R254): VL, SEW and GROUP come from the header; the bytes beyond its elements are free (R8). R254 names VL above VLMAX and
nonzero reserved bits as what refuses a header; here a reserved SEW code (4 to 7) does too, and bytes 8–63, which a spill writes as zero,
count as reserved (DEDUCED, log 59). The sort states are cleared at issue, once the header has been accepted (R227, R244), and the elements load one after another as in every vector memory
instruction (R348). -/
def execVfill (f : Fields) (s : State) : Out :=
  runWord (do
    let v := vcOf (← get)
    let ea ← peekEA f
    vIssue v f [] [] [] [ea]
    let t ← getTh
    let hdr ← load t.who accVLoad 64 ea 64 (cleanEA f)
    let sewc := bits hdr 16 14
    let grp := bits hdr 18 17
    let vl := bits hdr 13 0
    let n := 2 ^ grp
    raiseFirst (grpBad f.d n ++
      [(decide (2 ^ 22 ≤ hdr) || decide (4 ≤ sewc) || decide (vlmaxOf (threadLanes s s.th) grp sewc < vl), 0x0E9)]) v.vcfg
    needGroups [(f.d.toNat, n)]
    let w := 8 * 2 ^ sewc
    let sz := w / 8
    modTh fun t => t.clearSort f.d.toNat n
    if !t.resumesV then freeTail v.r f.d.toNat n (vl * sz)
    vloop v w vl [(f.d.toNat, w)] (List.range vl) fun i => do
      let x ← load t.who accVLoad sz (ea + BitVec.ofNat 64 (64 + i * sz)) sz
      wrV v f.d.toNat w i x
    modTh fun t => { t with vpoison := t.vpoison.filter fun m =>
      !(decide (f.d.toNat ≤ m.reg) && decide (m.reg < f.d.toNat + n) && decide (vl * sz ≤ (m.reg - f.d.toNat) * v.r + m.off)) }) s

/-- The destination of XRND by FN[1:0]. -/
def xrndFmt (code : Nat) : Fmt := if code = 0 then fp32 else if code = 1 then bf16 else fp64

def execXrnd (f : Fields) (s : State) : Out :=
  runWord (do
    let v := vcOf (← get)
    let n := v.regs
    let m := xrndFmt f.var.toNat
    let nr := n * 128 / m.width
    vIssue v f [(m == fp64, 0)]
      ([(v.sew != m.width, 0x0E0), (decide (8 < nr), 0x0E1)] ++ grpBad f.d n ++ grpBad f.a nr ++
        [(grpHit f.d.toNat n f.a.toNat nr, 0x0E4)])
      [(f.d.toNat, n)]
    let b ← peekS f.b
    let act ← activeList v f
    modTh fun t => t.clearSort f.d.toNat n
    vloop v m.width v.vl [(f.d.toNat, m.width)] act (clean := cleanS f.b) fun i => do
      let x ← rdV v f.a.toNat 128 i
      let r := m.ofExact (exactInt x) (b.toNat % 128)
      vfFlags i r.2
      wrV v f.d.toNat m.width i r.1) s

end Sys2Proof.Machine
end

