-- ==== Sys2Proof/Machine/Stream.lean ====
section
/-! DEFINITION. VXFER and the stream instructions (spec/10 R252, R256–R261, spec/21 R377–R378). -/

namespace Sys2Proof.Machine

/-! ### VXFER (R252) -/

/-- Move the payload of a pair: `n` group bytes from the put's group to the get's, with what damages them. -/
def moveGroup (n rs regS rd regD grpD : Nat) (src dst : Thread) : Thread :=
  let d := (List.range n).foldl (fun t j => t.vput rd regD 8 j (src.vget rs regS 8 j)) dst
  let d := d.clearMarks rd regD 8 (List.range n)
  let carry := src.vpoison.filterMap fun m =>
    if m.reg < regS then none
    else
      let j := (m.reg - regS) * rs + m.off
      if j < n then some { m with reg := regD + j / rd, off := j % rd, len := min m.len (n - j) } else none
  { d.clearSort regD grpD with vpoison := d.vpoison ++ carry }

/-- The bytes a half moves. -/
def Thread.xferBytes (t : Thread) : Nat := t.vl * t.sew / 8

/-- The live thread of a partition that holds a TID. -/
def State.byTid (s : State) (part : Nat) (tid : BitVec 32) : Option Nat :=
  s.liveKeys.find? fun k => (s.thread k).part == part && (s.thread k).tid == tid

/-- A half may move bytes: its slot runs and its vector context is there (R252, R352, R354). -/
def State.canXfer (s : State) (t : Thread) : Bool := s.running t && t.vectorHere

/-- The partner of a half, when it waits in the other half, names this thread and is resident in the same cluster. -/
def xferPartner (s : State) (put : Bool) (k : Nat) : Option Nat :=
  let p := s.thread k
  match p.wait with
  | some (.xfer put' tid _) =>
    if put' != put && tid == s.th.tid && s.canXfer p && s.canXfer s.th && p.clusterNo == s.th.clusterNo then some k else none
  | _ => none

/-- The register a waiting half names. -/
def Thread.xferReg (t : Thread) : Nat :=
  match t.wait with
  | some (.xfer _ _ r) => r
  | _ => 0

/-- A pair that meets: the selected thread is the half `put`, whose group is `reg`; the other half waits under key `k`. Equal
sizes move the bytes and complete the partner's word; unequal sizes raise 0x0E8 in both (R366). -/
def xferMeet (put : Bool) (reg k : Nat) : M Unit := do
  let s ← get
  let me := s.th
  let p := s.thread k
  if me.xferBytes != p.xferBytes then
    set (s.on k fun s =>
      let s := deliver { code := 0x0E8, xval := s.th.vcfg } s.th.resumeSlot1 s
      { s with th := { s.th with wait := none } })
    throw (.cause { code := 0x0E8, xval := me.vcfg, keep := true })
  else
    let rm := 16 * threadLanes s me
    let rp := 16 * threadLanes s p
    let n := me.xferBytes
    let s := if put then s.setThread k (moveGroup n rm reg rp p.xferReg (2 ^ p.grp) me p)
      else { s with th := moveGroup n rp p.xferReg rm reg (2 ^ me.grp) p me }
    set (s.on k fun s => complete s (s.th.pc + 8) s)

/-- A VXFER half. -/
def xferM (f : Fields) (put : Bool) : M Unit := do
  let v := vcOf (← get)
  let n := v.regs
  let r := if put then f.a else f.d
  vIssue v f [] (grpBad r n) (if put then [] else [(r.toNat, n)])
  let t ← getTh
  -- class 0x9 precedes a poisoned partner operand
  let tid : BitVec 32 := (← peekS f.b).setWidth 32
  let s ← get
  raiseIf (s.byTid t.part tid).isNone 0x12A (tid.setWidth 64)
  cleanS f.b
  -- a put starts once what it moves is filled (R46, R248)
  if put then (List.range v.vl).forM fun i => do let _ ← peekV v r.toNat v.sew i
  match (s.byTid t.part tid).bind (xferPartner s put) with
  | some k => xferMeet put r.toNat k
  | none => throw (.wait (.xfer put tid r.toNat))

def execVxferPut (f : Fields) (s : State) : Out := runWord (xferM f true) s
def execVxferGet (f : Fields) (s : State) : Out := runWord (xferM f false) s

/-! ### Stream registers (R256–R261) -/

def Stream.idx (q : Stream) : Word := q.desc.setWidth 64
def Stream.val (q : Stream) : Word := BitVec.ofNat 64 (q.desc.toNat >>> 64)
def Stream.len (q : Stream) : Nat := bits q.desc.toNat 159 128
def Stream.key (q : Stream) : Nat := bits q.desc.toNat 162 160
def Stream.desc? (q : Stream) : Bool := q.desc.getLsbD 163
/-- Bytes of a key. -/
def Stream.kb (q : Stream) : Nat := keyWidth q.key / 8

def Thread.stream (t : Thread) (n : Nat) : Stream := t.q.getD n {}
def Thread.setStream (t : Thread) (n : Nat) (x : Stream) : Thread :=
  if h : n < 8 then { t with q := t.q.set n x h } else t

/-- The stream instructions need FEAT.STREAM, addresses PTCTX.FAB permits (`eas`) and the vector context, and class 0x7 conditions come
next; `reg` must be open. -/
def streamIssue (reg : Option Nat) (bad : Stream → List (Bool × Nat)) (eas : Stream → List Word := fun _ => []) : M Stream := do
  needFeat 5
  let t ← getTh
  if t.vectorHere then fabFirst (eas ((reg.map t.stream).getD {}))
  needVector
  let t ← getTh
  match reg with
  | some r =>
    let q := t.stream r
    raiseFirst (bad q ++ [(!q.isOpen, 0x0EA)]) t.vcfg
    return q
  | none => return {}

/-- Set the poison flag of a stream and raise 0x0AC (R259, R378). -/
def streamPoison (r : Nat) (ea : Word) (pa : Nat) : M Unit := do
  modTh fun t => t.setStream r { t.stream r with poison := true }
  throw (.cause { code := 0x0AC, xval := ea, keep := true, pa := pa })

/-- SNEXT and SSEEK on a flagged stream raise 0x0AC (R259). They read nothing, and the spec names no address: XVAL is free
(log 18). -/
def streamFlagged (r : Nat) : M Unit := do
  let k ← freshIndex
  streamPoison r (Config.freeWord k) 0

/-- The condition a load ends in, with its state dropped on a cause. -/
def tryLoad (w : Who) (acc : Nat) (ea : Word) (n : Nat) : M (Except Cause Nat) := do
  let s ← get
  match (load w acc n ea n).run s with
  | .ok x s => set s; return .ok x
  | .error (.cause c) s' => set (if c.keep then s' else keepTlb s s'); return .error c
  | .error e _ => throw e

/-- Key `i` of an open stream. Damage sets the flag and raises 0x0AC; every other cause is the access's own. -/
def readKey (r acc : Nat) (q : Stream) (i : Nat) : M Nat := do
  let t ← getTh
  let ea := q.idx + BitVec.ofNat 64 (i * q.kb)
  match ← tryLoad t.who acc ea q.kb with
  | .ok x => return x
  | .error c => do
    if c.code / 32 = 5 && c.code != 0x0AB then streamPoison r ea c.pa
    throw (.cause c)

/-- SOPEN (R258). -/
def execSopen (f : Fields) (s : State) : Out :=
  runWord (do
    let ea ← peekEA f
    let _ ← streamIssue none (fun _ => []) (fun _ => [ea])
    let t ← getTh
    cleanFirst (cleanEA f) (some (do let _ ← load t.who accLoad 64 ea 64))
    let s0 ← get
    match (load t.who accLoad 64 ea 64).run s0 with
    | .ok x s =>
      set s
      let q : Stream := { isOpen := true, desc := BitVec.ofNat 512 x }
      raiseIf (x / 2 ^ 164 != 0 || q.idx.toNat % q.kb != 0 || q.val.toNat % q.kb != 0) 0x01B (firstWord (.sopen f))
      modTh fun t => t.setStream f.d.toNat q
    | .error (.cause c) s =>
      set (keepTlb s0 s)
      if c.code / 32 = 5 && c.code != 0x0AB then streamPoison f.d.toNat ea c.pa
      throw (.cause c)
    | .error e _ => throw e) s

/-- SNEXT (R259). -/
def execSnext (f : Fields) (s : State) : Out :=
  runWord (do
    let v := vcOf (← get)
    let r := f.a.toNat
    let d := f.d.toNat
    let q ← streamIssue (some r) (fun q =>
      [(q.isOpen && v.sew != keyWidth q.key, 0x0E0), (v.grp != 0, 0x0E1), (f.p && decide (30 < d), 0x0E5)])
      (fun q => (List.range (min v.vl (q.len - q.pos))).flatMap fun i =>
      let o := BitVec.ofNat 64 ((q.pos + i) * q.kb)
      if f.p && q.val != 0 then [q.idx + o, q.val + o] else [q.idx + o])
    needGroups [(d, if f.p then 2 else 1)]
    if q.poison then streamFlagged r
    let n := min v.vl (q.len - q.pos)
    let keys ← (List.range n).mapM fun i => readKey r accVLoad q (q.pos + i)
    let t ← getTh
    let count := if f.p && q.val != 0 then n else 0
    let vals ← (List.range count).mapM fun i =>
      load t.who accVLoad q.kb (q.val + BitVec.ofNat 64 ((q.pos + i) * q.kb)) q.kb
    let ok := inOrder q.key q.desc? keys && (match q.last, keys with
      | some l, x :: _ => !before q.key q.desc? x l.toNat
      | _, _ => true)
    putElems v d v.sew ((List.range v.vl).map fun i => (i, keys.getD i 0))
    if f.p then putElems v (d + 1) v.sew ((List.range v.vl).map fun i => (i, vals.getD i 0))
    modTh fun t =>
      let t := if f.p then t.clearSort (d + 1) 1 else t
      t.setSort d (if ok then sortWord true q.desc? (strictRun keys) f.p q.key n else 0)
    modTh fun t => t.setStream r { q with
      pos := q.pos + n
      last := match keys.getLast? with
        | some x => some (BitVec.ofNat 64 x)
        | none => q.last }
    wrS f.c (BitVec.ofNat 64 (n + (if ok then 0 else 2 ^ 63)))) s

/-- The bounds of SSEEK's search (R260): p lies from `lo` to `hi`; the key below `lo`, which is Before the target, and the key at `hi`,
which is not, as they were read (none at the ends of the fibre); and the keys read so far. -/
structure Seek where
  lo    : Nat
  below : Option Nat
  hi    : Nat
  at_   : Option Nat
  reads : Nat
  deriving DecidableEq, Repr

/-- The probes of SSEEK (R260): positions POS, POS + 1, POS + 3, POS + 7, … until a key is not Before the target. -/
def gallop (r : Nat) (q : Stream) (tgt : Nat) : Nat → Nat → Seek → M Seek
  | 0, _, b => return b
  | fuel + 1, j, b => do
    let i := q.pos + (2 ^ j - 1)
    if q.len ≤ i then return b
    let k ← readKey r accLoad q i
    let b := { b with reads := b.reads + 1 }
    if before q.key q.desc? k tgt then gallop r q tgt fuel (j + 1) { b with lo := i + 1, below := some k }
    else return { b with hi := i, at_ := some k }

/-- The search between the last two probes. -/
def bisect (r : Nat) (q : Stream) (tgt : Nat) : Nat → Seek → M Seek
  | 0, b => return b
  | fuel + 1, b => do
    if b.hi ≤ b.lo then return b
    let m := (b.lo + b.hi) / 2
    let k ← readKey r accLoad q m
    bisect r q tgt fuel (if before q.key q.desc? k tgt then { b with lo := m + 1, below := some k } else { b with hi := m, at_ := some k })

/-- Position `p` between the bounds, where its two keys meet both conditions of R260. -/
def seekAt (r : Nat) (q : Stream) (tgt p : Nat) (b : Seek) : M (Option Seek) := do
  let below ← if p = b.lo then pure b.below else some <$> readKey r accLoad q (p - 1)
  let at_ ← if p = b.hi then pure b.at_ else some <$> readKey r accLoad q p
  return if below.all (fun k => before q.key q.desc? k tgt) && at_.all (fun k => !before q.key q.desc? k tgt) then
    some { b with lo := p, below := below, hi := p, at_ := at_ } else none

/-- ⌈log2(n)⌉. -/
def clog2 (n : Nat) : Nat := if n ≤ 1 then 0 else Nat.log2 (n - 1) + 1

/-- A key sign-extended for the signed integer types, zero-extended for the others. -/
def keyWord (key x : Nat) : Word :=
  if key = 0 ∨ key = 3 ∨ key = 6 then sxWord (keyWidth key) x else zxWord (keyWidth key) x

/-- SSEEK (R260). Where the keys are out of order any position that meets both conditions may result: a free choice names one between the
last two probes, which is taken where its keys meet them and reading those keeps within the bound; else the search halves. No key is
read twice. -/
def execSseek (f : Fields) (s : State) : Out :=
  runWord (do
    let r := f.a.toNat
    let q ← streamIssue (some r) (fun _ => []) (fun q => if q.pos < q.len then [q.idx + BitVec.ofNat 64 (q.pos * q.kb)] else [])
    if q.poison then streamFlagged r
    let tgt := (← peekS f.b).toNat % 2 ^ keyWidth q.key
    cleanFirst (cleanS f.b) (if q.pos < q.len then some (do let _ ← readKey r accLoad q q.pos) else none)
    let b ← gallop r q tgt 34 0 ⟨q.pos, none, q.len, none, 0⟩
    let k ← freshIndex
    let p := b.lo + Config.freeNat k % (b.hi - b.lo + 1)
    let able : Bool := decide (b.reads + 2 ≤ 2 * clog2 (p - q.pos + 2)) &&
      match (seekAt r q tgt p b).run (← get) with
      | .ok (some _) _ => true
      | _ => false
    let b ← if able then (·.getD b) <$> seekAt r q tgt p b else bisect r q tgt 34 b
    modTh fun t => t.setStream r { q with
      pos := b.lo
      last := if q.pos < b.lo then b.below.map (BitVec.ofNat 64) else q.last }
    wrS f.d ((b.at_.map (keyWord q.key)).getD 0)) s

/-- STEND (R261). -/
def execStend (f : Fields) (s : State) : Out :=
  runWord (do
    let q ← streamIssue (some f.a.toNat) fun _ => []
    wrS f.d (BitVec.ofNat 64 (q.len - q.pos))) s

/-- SCLOSE (R261). -/
def execSclose (f : Fields) (s : State) : Out :=
  runWord (do
    let _ ← streamIssue (some f.a.toNat) fun _ => []
    modTh fun t => t.setStream f.a.toNat {}) s

end Sys2Proof.Machine
end

