-- ==== Sys2Proof/Machine/Group.lean ====
section
/-! DEFINITION. Launches, groups and thread exit (spec/02 R23–R43, spec/07 R179–R184). -/

namespace Sys2Proof.Machine

/-! ### Thread descriptors (R25) -/

def descEntry (d : Nat) : Word := BitVec.ofNat 64 d
def descArg (d : Nat) : Word := BitVec.ofNat 64 (d >>> 64)
def descCount (d : Nat) : Nat := bits d 159 128
def descIsL (d : Nat) : Bool := d.testBit 160
def descPrio (d : Nat) : Nat := bits d 163 161
def descJoin (d : Nat) : Bool := d.testBit 164
def descReq (d : Nat) : BitVec 16 := BitVec.ofNat 16 (d >>> 168)
def descGroup (d : Nat) : Word := BitVec.ofNat 64 (d >>> 192)
def descStackBase (d : Nat) : Nat := bits d 319 256
def descStackSize (d : Nat) : Nat := bits d 383 320

/-- A descriptor whose fields R25 and R363 refuse (0x01A). -/
def descBad (d : Nat) : Bool :=
  bits d 167 165 != 0 || bits d 191 184 != 0 || bits d 511 384 != 0 || descCount d == 0 || decide (65536 < descCount d) ||
    bits d 2 0 != 0 || descStackSize d % 16 != 0 || descJoin d && (descGroup d).toNat % 64 != 0

/-! ### Group objects (R38) -/

/-- The fields of a group object; `rest` is its reserved bits. -/
structure GObj where
  members : Nat
  arrived : Nat
  phase   : Bool
  rop     : Nat
  ract    : Bool
  acc     : Nat
  res     : Nat
  rest    : Nat
  deriving DecidableEq, Repr

/-- The object of 64 bytes. -/
def GObj.ofNat (x : Nat) : GObj where
  members := bits x 15 0
  arrived := bits x 31 16
  phase := x.testBit 32
  rop := bits x 35 33
  ract := x.testBit 36
  acc := bits x 127 64
  res := bits x 191 128
  rest := bits x 63 37 + bits x 511 192

/-- The first 24 bytes of an object. -/
def GObj.toNat (o : GObj) : Nat :=
  o.members % 65536 + o.arrived % 65536 * 2 ^ 16 + b2n o.phase * 2 ^ 32 + o.rop % 8 * 2 ^ 33 + b2n o.ract * 2 ^ 36 +
    o.acc % 2 ^ 64 * 2 ^ 64 + o.res % 2 ^ 64 * 2 ^ 128

/-- R38: an object is inconsistent when ARRIVED is above MEMBERS or reserved bits are set. -/
def GObj.inconsistent (o : GObj) : Bool := decide (o.members < o.arrived) || o.rest != 0

/-- The phase completes (R42). -/
def GObj.finish (o : GObj) : GObj :=
  { o with res := if o.ract then o.acc else o.res, arrived := 0, phase := !o.phase }

/-- GLEAVE's step on the object (R40). -/
def GObj.leave (o : GObj) : GObj :=
  let o := { o with members := (o.members + 65535) % 65536 }
  if o.members ≠ 0 ∧ o.members = o.arrived then o.finish else o

/-- Identity of a reduction (R42 Table 5). -/
def redIdentity (op : Nat) : Nat := if op = 1 then 2 ^ 63 - 1 else if op = 2 then 2 ^ 63 else 0

/-- Combine (R42 Table 5). -/
def redCombine (op a x : Nat) : Nat :=
  if op = 0 then (a + x) % 2 ^ 64
  else if op = 1 then (if sInt 64 a ≤ sInt 64 x then a else x)
  else if op = 2 then (if sInt 64 a ≤ sInt 64 x then x else a)
  else if op = 3 then a ||| x
  else
    match a.testBit 63, x.testBit 63 with
    | true, true => if a % 2 ^ 63 ≤ x % 2 ^ 63 then a else x
    | true, false => a
    | false, true => x
    | false, false => 0

/-- An arrival (R42): GRED with an operation and a value, or GBAR, whose ROP and ACC the spec leaves to the operation `op`. -/
def GObj.arrive (o : GObj) (isRed : Bool) (op x : Nat) : GObj :=
  let o := if o.arrived = 0 then { o with ract := isRed, rop := op, acc := redIdentity op } else o
  let o := if isRed then { o with acc := redCombine op o.acc x } else o
  let o := { o with arrived := o.arrived + 1 }
  if o.arrived = o.members then o.finish else o

/-- A group handle (R39). -/
def handleOf (ea : Word) (mph : Bool) : Word := BitVec.ofNat 64 (bits ea.toNat 56 6 * 64 + b2n mph * 2 + 1)
def handleV (g : Word) : Bool := g.getLsbD 0
def handleMph (g : Word) : Bool := g.getLsbD 1
def handleAddr (g : Word) : Word := BitVec.ofNat 64 (bits g.toNat 56 6 * 64)

def Thread.handle (t : Thread) (n : Nat) : Word := t.g.getD n 0
def Thread.setHandle (t : Thread) (n : Nat) (x : Word) : Thread :=
  if h : n < 4 then { t with g := t.g.set n x h } else t

/-- One atomic step on the object at `ea`, at the home of its line (R38): `f` gives the new object or the code it refuses with; `d`
is the class-0x5 check of the word's registers. -/
def groupOp (ea : Word) (f : GObj → Except Nat GObj) (d : M Unit := pure ()) : M GObj := do
  let t ← getTh
  let pl ← locate t.who .rmw accAtomic 64 ea 64
  checkWatermark t.who pl 64
  match pl with
  | .cell pa _ =>
    let x ← readHome accAtomic ea 64 pl
    match f (GObj.ofNat x) with
    | .error code => raise code ea
    | .ok o =>
      d
      modify fun s => physWrite s pa 24 o.toNat
      return o
  | _ => raise (0x098 + accAtomic) ea

/-! ### GJOIN, GLEAVE (R40, R183) -/

def execGjoin (f : Fields) (s : State) : Out :=
  runWord (do
    let ea ← peekEA f
    let t ← getTh
    let g := f.d.toNat
    fabFirst [ea]
    raiseIf (handleV (t.handle g) || (List.range 4).any fun k => handleV (t.handle k) && handleAddr (t.handle k) == handleAddr (handleOf ea false))
      0x125 ea
    let o := GObj.ofNat (← orClean (cleanEA f) (loadHome t.who accLoad 64 ea 64))
    -- class 0x9 precedes a poisoned register; the record's own conditions come last (R345)
    raiseIf (o.rest == 0 && decide (65535 ≤ o.members)) 0x127 ea
    cleanEA f
    raiseIf (o.rest != 0) 0x01F (firstWord (.gjoin f))
    raiseIf (decide (o.members < o.arrived)) 0x128 ea
    let o ← groupOp ea fun o => .ok { o with members := o.members + 1 }
    modTh fun t => t.setHandle g (handleOf ea o.phase)) s

/-- Leave the group of handle `g` (R40). -/
def leaveGroup (g : Nat) : M Unit := do
  let t ← getTh
  let _ ← groupOp (handleAddr (t.handle g)) fun o => .ok o.leave
  modTh fun t => t.setHandle g 0

def execGleave (f : Fields) (s : State) : Out :=
  runWord (do
    let t ← getTh
    raiseIf (!handleV (t.handle f.d.toNat)) 0x124
    leaveGroup f.d.toNat) s

/-! ### GBAR, GRED (R42, R184) -/

/-- The bytes an arrival or a return orders (R43): the regions bound to the group object as a guard, and the default object. -/
def State.groupCovers (s : State) (p : Nat) (ea : Word) (line : Nat) : Bool := s.coveredBy p ea.toNat line || s.unbound p line

/-- GRED's operands: operation, value, the check of the value's register, and destination. -/
structure RedOp where
  op    : Nat
  value : M Word
  clean : M Unit
  dst   : BitVec 6

/-- An arrival through handle `g`. -/
def arriveM (g : Nat) (red : Option RedOp) : M Unit := do
  let t ← getTh
  let h := t.handle g
  raiseIf (!handleV h) 0x124
  let x ← match red with
    | some r => r.value
    | none => pure 0
  if t.prefs.any fun p => p.handle == some g then throw (.wait (.prefetch g))
  let ea := handleAddr h
  let any ← freshIndex
  let op := match red with
    | some r => r.op
    | none => Config.freeNat any % 5
  let isRed := red.isSome
  let cov := (← get).groupCovers t.part ea
  releaseBy (fun _ => true) cov t.scope
  let o ← groupOp ea (fun o =>
    if o.arrived != 0 && (o.ract != isRed || isRed && o.rop != op) then .error 0x126
    else if o.inconsistent then .error 0x128
    else .ok (o.arrive isRed op x.toNat)) ((red.map RedOp.clean).getD (pure ()))
  if o.phase = handleMph h then
    throw (.hold (.group g (red.map RedOp.dst) (t.pc + 8)))
  else
    acquireBy cov t.scope
    modTh fun t => t.setHandle g (handleOf ea o.phase)
    match red with
    | some r => wrS r.dst (BitVec.ofNat 64 o.res)
    | none => pure ()

def execGbar (f : Fields) (s : State) : Out := runWord (arriveM f.a.toNat none) s

def execGred (f : Fields) (s : State) : Out := runWord (arriveM f.a.toNat (some ⟨f.var.toNat, peekB f, cleanB f, f.d⟩)) s

/-- A waiting member whose object's phase differs from its own leaves its wait (R42, R43): it takes the phase, and GRED the
result, and acquires what its arrival released. In a stopped slot it waits on (R352). -/
def groupRelease (s : State) : Option State :=
  match s.th.wait, s.running s.th with
  | some (.group g red npc), true =>
    let ea := handleAddr (s.th.handle g)
    match (do readHome accAtomic ea 64 (← locate s.th.who .load accAtomic 64 ea 64) : M Nat).run s with
    | .ok x s' =>
      let o := GObj.ofNat x
      if o.phase = handleMph (s.th.handle g) then (if s'.free = s.free then none else some s')
      else
        let t := s'.th.setHandle g (handleOf ea o.phase)
        let t := match red with
          | some d => t.setS d (BitVec.ofNat 64 o.res)
          | none => t
        some (complete s npc (acquireLines (s.groupCovers t.part ea) t.clusterNo t.scope { s' with th := t }))
    | .error (.wait (.fabric pa n)) _ => some (serveWait (.fabric pa n) s)
    | _ => none
  | _, _ => none

/-! ### LAUNCH (R26, R179) -/

/-- The physical cell of an address, for an object the scheduler reaches later. -/
def cellOf (ea : Word) : M Nat := do
  let t ← getTh
  match ← locate t.who .load accLoad 64 ea 64 with
  | .cell pa _ => return pa
  | _ => raise (0x098 + accLoad) ea

/-- Queue a launch (R26, R27): it takes the next sequence number of its partition. -/
def queueLaunch (s : State) (part : Nat) (desc : BitVec 512) (base count gpa : Nat) (handle : Option Word) : State × Nat :=
  let p := s.part part
  let seq := (p.seq + 1) % 2 ^ 64
  let q := descPrio desc.toNat
  let e : LaunchEntry := ⟨seq, desc, 0, base, count, handle, gpa⟩
  (s.setPart part { p with
    seq := seq
    queues := p.queues.mapIdx fun k l => if k = q then l ++ [e] else l }, seq)

/-- Room in a launch queue of 256 entries. -/
def queueRoom (p : Partition) (prio : Nat) : Bool := decide ((p.queues.getD prio []).length < 256)

def execLaunch (f : Fields) (s : State) : Out :=
  runWord (do
    let ea ← peekEA f
    let t ← getTh
    fabFirst [ea]
    let x ← orClean (cleanEA f) (load t.who accLoad 64 ea 64)
    if descBad x then do
      cleanEA f
      raise 0x01A (firstWord (.launch f))
    let gpa ← if descJoin x then do
        let g := descGroup x
        let pa ← orClean (cleanEA f) (cellOf g)
        let o := GObj.ofNat (← orClean (cleanEA f) (loadHome t.who accLoad 64 g 64))
        raiseIf (decide (65535 < o.members + descCount x)) 0x127 g
        raiseIf o.inconsistent 0x128 g
        pure pa
      else pure 0
    cleanEA f
    let s ← get
    if !queueRoom (s.part t.part) (descPrio x) then throw (.wait (.launchQueue (descPrio x)))
    releaseDefault 2
    let (s, seq) := queueLaunch (← get) t.part (BitVec.ofNat 512 x) 0 (descCount x) gpa none
    set s
    wrS f.d (BitVec.ofNat 64 seq)) s

/-! ### EXIT (R30, R180), YIELD (R181) -/

/-- Free the selected thread's slot, grant and table entry; the entry's reuse count rises (R24, R30, R264). -/
def freeThread (s : State) : State :=
  let t := s.th
  let p := s.part t.part
  let s := s.setPart t.part { p with
    reuse := p.reuse.set t.entry ((p.reuse.get t.entry 0 + 1) % 65536)
    prefQ := p.prefQ.filter (· != s.cur) }
  s.dropThread s.cur

def execExit (_ : Fields) (s : State) : Out :=
  runWord (do
    let t ← getTh
    if !t.vldas.isEmpty then throw (.wait .vlda)
    if !t.mmaRun.isEmpty then throw (.wait .matrix)
    if !t.loads.isEmpty then throw (.wait .load)
    releaseDefault t.scope
    (List.range 4).forM fun g => do
      let t ← getTh
      if handleV (t.handle g) then leaveGroup g
    modify freeThread
    throw .gone) s

def execYield (_ : Fields) (s : State) : Out :=
  match runWord (modTh fun t => { t with passes := 0, boosted := none }) s with
  | .next s' => .next { s' with th := { s'.th with wait := some .yielded } }
  | o => o

end Sys2Proof.Machine
end

