-- ==== Sys2Proof/Machine/Matrix.lean ====
section
/-! DEFINITION. The matrix unit: grants, shape records, the sums of R113, MMA, MMAS, MDRAIN, MLDACC, and the window registers
(spec/11 R262–R281, spec/05 R113, spec/22 R388). -/

namespace Sys2Proof.Machine

/-! ### Accumulator storage and grants (R262–R264) -/

/-- Key of entry (row, col) of a tile, by unit row. -/
def accKey (tile row col : Nat) : Nat := (tile * 128 + row) * 256 + col

/-- The unit row of an accumulator key. -/
def accRow (key : Nat) : Nat := key / 256 % 128

def Cluster.accGet (c : Cluster) (k : Nat) : BitVec 32 := c.acc.get k 0

/-- Store an entry; one that is 0 is not listed. -/
def Cluster.accSet (c : Cluster) (k : Nat) (x : BitVec 32) : Cluster :=
  { c with acc := if x = 0 then c.acc.erase k else c.acc.set k x, accPoison := c.accPoison.filter (· != k) }

def Cluster.accPoisoned (c : Cluster) (k : Nat) : Bool := c.accPoison.contains k

/-- Poison an entry (R388). -/
def Cluster.accHarm (c : Cluster) (k : Nat) : Cluster :=
  { c with accPoison := if c.accPoison.contains k then c.accPoison else c.accPoison ++ [k] }

/-- MGRANT of a base and a number of rows (R263). -/
def grantWord (base rows : Nat) : Word := BitVec.ofNat 64 (base * 256 + rows)
def Thread.gbase (t : Thread) : Nat := bits t.mgrant.toNat 15 8
def Thread.grows (t : Thread) : Nat := bits t.mgrant.toNat 7 0

/-- The unit rows of a cluster that grants hold: first row and number of each. -/
def State.grants (s : State) (c : Nat) : List (Nat × Nat) :=
  ((s.liveKeys.map s.thread).filter fun t => t.pos.isSome && t.clusterNo == c && t.grows != 0).map fun t => (t.gbase, t.grows)

/-- Whether each of the sixteen blocks of eight unit rows is free. -/
def State.freeBlocks (s : State) (c : Nat) : List Bool :=
  (List.range 16).map fun k => !((s.grants c).any fun g => decide (g.1 < 8 * k + 8) && decide (8 * k < g.1 + g.2))

/-- Length of the run of true values at the head. -/
def headRun : List Bool → Nat
  | true :: l => headRun l + 1
  | _ => 0

/-- The longest run of true values. -/
def longestRun : List Bool → Nat
  | [] => 0
  | b :: l => max (headRun (b :: l)) (longestRun l)

/-- The first place at which `n` true values begin. -/
def firstRun (n : Nat) : List Bool → Nat
  | [] => 0
  | b :: l => if n ≤ headRun (b :: l) then 0 else firstRun n l + 1

/-- The grant the unit gives to a request of `req` rows: base and rows (R274). -/
def grantOf (free : List Bool) (req : Nat) : Nat × Nat :=
  let g := min (ceilDiv req 8) (longestRun free)
  if g = 0 then (0, 0) else (8 * firstRun g free, 8 * g)

/-- Zero the entries of unit rows `b` to `b + g − 1` of all four tiles. -/
def Cluster.zeroRows (c : Cluster) (b g : Nat) : Cluster :=
  let inside (k : Nat) : Bool := decide (b ≤ accRow k) && decide (accRow k < b + g)
  { c with acc := c.acc.filter fun e => !inside e.1, accPoison := c.accPoison.filter fun k => !inside k }

/-- MATT (R274). -/
def execMatt (f : Fields) (s : State) : Out :=
  runWord (do
    needFeat 3
    let a ← match f.imm with
      | some i => pure (immS i)
      | none => peekS f.a
    let t ← getTh
    raiseFirst [(a == 0 || decide (128 < a.toNat), 0x16D), (t.grows != 0, 0x16E)]
    if f.imm.isNone then cleanS f.a
    let s ← get
    let c := t.clusterNo
    let (b, g) := grantOf (s.freeBlocks c) a.toNat
    set (s.setCluster c ((s.cluster c).zeroRows b g))
    modTh fun t => { t with mgrant := grantWord b g }
    wrS f.d (BitVec.ofNat 64 g)) s

/-- A running SELACC that still has to read rows of the grant `g` of thread `k` (R288); `tile` none asks for any tile. -/
def State.selaccHolds (s : State) (k : Nat) (tile : Option Nat) : Bool :=
  (s.part s.th.part).chans.toList.any fun c =>
    c.st == .running && c.owner == k && bits c.record.toNat 130 128 == 3 &&
      (tile.isNone || tile == some (bits c.func.toNat 1 0))

/-- MDET (R275): it waits for the thread's matrix work and for a SELACC that drains its rows. -/
def execMdet (_ : Fields) (s : State) : Out :=
  runWord (do
    needFeat 3
    let t ← getTh
    if !t.mmaRun.isEmpty || (← get).selaccHolds (← get).cur none then throw (.wait .matrix)
    modTh fun t => { t with mgrant := 0 }) s

/-! ### Sums (R113) -/

/-- The exact sum of a chunk, and NV (R113). -/
def chunkSum (ps : List (FVal × Bool)) : FVal × Bool :=
  let nv := ps.any Prod.snd
  let pos := ps.any fun p => p.1 == .inf false
  let neg := ps.any fun p => p.1 == .inf true
  if pos && neg then (.nan false, true)
  else if ps.any fun p => p.1.isNan then (.nan false, nv)
  else if pos || neg then (.inf neg, nv)
  else
    let e := ps.foldl (fun (m : Int) p => match p.1 with
      | .num _ _ x => min m x
      | _ => m) 0
    let x : Int := (ps.map fun p => (match p.1 with
      | .num n m x => signed n (m <<< (x - e).toNat)
      | _ => (0 : Int))).sum
    if x = 0 then (.num (!ps.isEmpty && ps.all fun p => p.1.isZero && p.1.sign) 0 e, nv)
    else (.num (decide (x < 0)) x.natAbs e, nv)

/-- The chunks of `n` products, at most `fuel` of them. -/
def chunksOf {α : Type} (n : Nat) : Nat → List α → List (List α)
  | 0, _ => []
  | _, [] => []
  | fuel + 1, l => l.take n :: chunksOf n fuel (l.drop n)

/-- The update of a floating-point entry: the new pattern and its flags. `ad` makes the first x −0. -/
def macFloat (acc : Nat) (ad : Bool) (chunks : List (List (FVal × Bool))) : Nat × Flags :=
  (chunks.foldl (fun (st : Nat × Flags × Bool) ch =>
    let x : FVal := if st.2.2 then .num true 0 0 else fp32.decode st.1
    let c := chunkSum ch
    let (y, nv) := addVal .rne x c.1
    let r := fp32.finish .rne (y, nv || c.2)
    (r.1, st.2.1 ||| r.2, false)) (acc, 0, ad)) |> fun st => (st.1, st.2.1)

/-- The value of a finite product of integers. -/
def FVal.toIntVal : FVal → Int
  | .num n m _ => signed n m
  | _ => 0

/-- The update of an integer entry: the new pattern and whether it clamped. -/
def macInt (acc : Nat) (ad : Bool) (chunks : List (List (FVal × Bool))) : Nat × Bool :=
  (chunks.foldl (fun (st : Nat × Bool × Bool) ch =>
    let x : Int := if st.2.2 then 0 else sInt 32 st.1
    let r := clampTo 32 false (x + (ch.map fun p => p.1.toIntVal).sum)
    (wrap 32 r.1, st.2.1 || r.2, false)) (acc, false, ad)) |> fun st => (st.1, st.2.1)

/-- An operand class (R266): 8-bit integer, 8-bit float, 16-bit float. -/
inductive OpClass where
  | int8 | float8 | float16
  deriving DecidableEq, Repr

/-- The class of an EFMT, if it lies in one (R266 Table 3). -/
def opClass (efmt : Nat) : Option OpClass :=
  if efmt = 1 ∨ efmt = 2 then some .int8
  else if efmt = 9 ∨ efmt = 10 then some .float16
  else if efmt = 0x40 ∨ 0x20 < efmt ∧ efmt < 0x40 ∧ efmt % 8 ≠ 0 then some .float8
  else none

/-- The chunk size Kc. -/
def OpClass.kc : OpClass → Nat
  | .float16 => 16
  | _ => 32

/-- The update of one entry by the products of a row and a column (R113): the new entry, flags, and clamping. -/
def macEntry (c : OpClass) (acc : Nat) (ad neg : Bool) (xs ys : List FVal) : Nat × Flags × Bool :=
  let ps := (xs.zip ys).map fun p =>
    let r := mulVal p.1 p.2
    (if neg then r.1.neg else r.1, r.2)
  let ch := chunksOf c.kc ps.length ps
  match c with
  | .int8 =>
    let r := macInt acc ad ch
    (r.1, 0, r.2)
  | _ =>
    let r := macFloat acc ad ch
    (r.1, r.2, false)

/-! ### Shape records (R265–R267) -/

/-- A shape record. -/
structure Shape where
  ea    : Word
  base  : Word
  efmt  : Nat
  ms    : Bool
  rows  : Nat
  cols  : Nat
  rstr  : Int
  cstr  : Int
  scale : Word
  trec  : Word
  bad   : Bool
  deriving DecidableEq, Repr

/-- The record of 64 bytes at `ea`; `bad` says that it breaks R265 (0x16F). -/
def Shape.ofNat (ea : Word) (x : Nat) : Shape :=
  let efmt := bits x 71 64
  let ms := x.testBit 72
  let scale := bits x 319 256
  let trec := bits x 383 320
  { ea := ea
    base := BitVec.ofNat 64 x
    efmt := efmt
    ms := ms
    rows := bits x 159 128
    cols := bits x 191 160
    rstr := sInt 32 (bits x 223 192)
    cstr := sInt 32 (bits x 255 224)
    scale := BitVec.ofNat 64 scale
    trec := BitVec.ofNat 64 trec
    bad := bits x 127 73 != 0 || bits x 159 128 == 0 || bits x 191 160 == 0 || bits x 511 384 != 0 ||
      (opClass efmt).isNone || (scale != 0 && !ms) || (trec != 0 && efmt != 0x40) }

/-- Bytes of an element. -/
def Shape.esize (h : Shape) : Nat := ((Efmt.ofCode h.efmt).elim 8 Efmt.width) / 8

/-- The address of element (i, j), or its weight number. -/
def Shape.at_ (h : Shape) (i j : Nat) : Word :=
  let n : Int := (i : Int) * h.rstr + (j : Int) * h.cstr
  if h.efmt = 0x40 then h.base + toWord n else h.base + toWord (n * h.esize)

/-! ### Operand fetch by Iris (R271) -/

/-- Iris as the agent of an operand's accesses: it sees memory as the issuing thread does (R92), and as an engine it reaches
nothing by the own-cluster alias (R53). -/
def Thread.iris (t : Thread) : Who := { t.who with cl := none }

/-- Bytes read with their damage noted instead of raised: what an engine that reports no cause does (R377, R388). -/
def softLoad (w : Who) (acc al : Nat) (ea : Word) (n : Nat) : M (Nat × Bool) := do
  let pl ← locate w .load acc al ea n
  checkWatermark w pl n
  let s ← get
  match (loadPlace acc ea n pl).run s with
  | .ok x s => set s; return (x, false)
  | .error (.cause c) s' =>
    if c.code / 32 = 5 then
      let (s, x) := match pl with
        | .cell pa via => readVia s' via pa n
        | _ => (s', 0)
      set s
      return (x, true)
    else throw (.cause c)
  | .error e _ => throw e

/-- A byte source: the byte at an address, and whether it is damaged. -/
abbrev ByteSrc := Word → M (Nat × Bool)

/-- Bytes `a` to `b − 1` from a byte source, little-endian. -/
def srcBytes (rd : ByteSrc) (a n : Nat) : M (Nat × Bool) := do
  let xs ← (List.range n).mapM fun i => rd (BitVec.ofNat 64 (a + i))
  return (packElems 8 (fun i => (xs.getD i (0, false)).1) n, xs.any Prod.snd)

/-- Weight `w` of a trellis record (R269): its binary8 code with flags, and whether a byte it needs is damaged. -/
def weightFrom (rd : ByteSrc) (r : TRec) (w : Nat) : M (FRes × Bool) := do
  let k := w / r.tr.B
  let (lo, hi) := r.streamBytes k (k + 1)
  let (raw, p) ← srcBytes rd lo (hi - lo)
  let (e, q) ← rd (BitVec.ofNat 64 (r.scl + k))
  return (r.tr.weight ((raw >>> (k * r.tr.bits % 8)) % 2 ^ r.tr.bits) e (w % r.tr.B), p || q)

/-- The value of element (i, j) of an operand, with its scale: `outer` its row of scale bytes of ⌈`dim` / 32⌉ and `k` its place
in the reduction (R267). -/
def operandVal (w : Who) (h : Shape) (tr : Option TRec) (i j outer dim k : Nat) : M (FVal × Bool) := do
  let (v, p) ← match tr with
    | some r => do
      let (c, p) ← weightFrom (fun ea => softLoad w accEngine 1 ea 1) r (h.at_ i j).toNat
      pure (r.tr.fmt.decode c.1, p)
    | none => do
      let n := h.esize
      let (x, p) ← softLoad w accEngine n (h.at_ i j) n
      pure (((Efmt.ofCode h.efmt).elim (FVal.num false 0 0) fun e => e.value 0 x), p)
  if h.ms then
    let (e, q) ← softLoad w accEngine 1 (h.scale + BitVec.ofNat 64 (outer * ceilDiv dim 32 + k / 32)) 1
    return (scaleVal e v, p || q)
  else return (v, p)

/-- Iris reaches what lies at an address (R271): no window of another cluster, and no FIFO port of its own. Where nothing exists
its access raises the memory cause instead (R53). -/
def irisReach (s : State) (ea : Word) : Bool :=
  match (translate s.th.iris .load ea).run s with
  | .ok x _ =>
    match windowCluster s.th.iris x.pa with
    | some c =>
      c == s.th.clusterNo && (match windowPlace s c (x.pa % 0x40_0000) with
        | .fifo _ _ _ => false
        | _ => true)
    | none => true
  | .error _ _ => true

/-- The addresses an operand's elements `l` touch: elements, scale bytes and trellis bytes. -/
def operandBytes (h : Shape) (tr : Option TRec) (l : List (Nat × Nat × Nat × Nat × Nat)) : List Word :=
  l.flatMap fun (i, j, outer, dim, k) =>
    (match tr with
      | some r =>
        let b := (h.at_ i j).toNat / r.tr.B
        [BitVec.ofNat 64 (r.streamBytes b (b + 1)).1, BitVec.ofNat 64 ((r.streamBytes b (b + 1)).2 - 1), BitVec.ofNat 64 (r.scl + b)]
      | none => [h.at_ i j]) ++
    if h.ms then [h.scale + BitVec.ofNat 64 (outer * ceilDiv dim 32 + k / 32)] else []

/-! ### MMA, MMAS (R276–R278) -/

/-- Read a shape record as the thread's own load, and the trellis record it names. -/
def readShape (ea : Word) : M Shape := do
  let t ← getTh
  return Shape.ofNat ea (← load t.who accLoad 64 ea 64)

/-- The metadata nibbles of a row: (t0, t1) of each group of four (R278). A damaged byte raises 0x0AC (R378); a damaged page-table entry
raises its own 0x0AB (R376). -/
def readMeta (c : Word) (K i : Nat) : M (List (Nat × Nat)) := do
  let t ← getTh
  (List.range (K / 4)).mapM fun q => do
    let ea := c + BitVec.ofNat 64 (i * ceilDiv K 8 + q / 2)
    let x ← match ← attempt (load t.iris accEngine 1 ea 1) with
      | .ok x => pure x
      | .error e => throw (.cause (if e.code / 32 = 5 && e.code != 0x0AB then { e with code := 0x0AC } else e))
    let n := bits x (4 * (q % 2) + 3) (4 * (q % 2))
    return (n % 4, n / 4)

/-- Raise the first of several conditions (R345), each with its own XVAL. -/
def raiseFirstAt (l : List (Bool × Nat × Word)) : M Unit :=
  match firstCause (l.map fun e => (e.1, e.2.1)) with
  | some c => raise c (((l.find? fun e => e.1 && e.2.1 == c).map fun e => e.2.2).getD 0)
  | none => pure ()

/-- The operands of an MMA, checked (R276, R345): class 0x7-free conditions known before the records are read come first, then
those the records show by lowest detail, and only then the memory causes of R271. XVAL names the record a condition involves
(R361); where it involves both, or MMAS metadata, that is A's record (DESIGN CHOICE, log 26).

R92 lets a write of another agent during the fetch reach an element or not: here the whole fetch is one step, so a write before
the issue is always read and one after it never is (DESIGN CHOICE, log 26). -/
def mmaM (f : Fields) (sparse : Bool) : M Unit := do
  needFeat 3
  let a ← peekS f.a
  let b ← peekS f.b
  let c ← if sparse then peekS f.c else pure 0
  let clean : M Unit := do
    cleanS f.a
    cleanS f.b
    if sparse then cleanS f.c
  -- a memory cause, behind which or before which the poison of a register stands (R345)
  let fail {α : Type} (e : Cause) : M α := checked clean (throw (.cause e))
  let t ← getTh
  let K := t.vl
  let KA := if sparse then K / 2 else K
  fabFirst (a :: b :: if sparse && decide (4 ≤ K) then [c] else [])
  needVector
  raiseIf (t.grows == 0) (if sparse && K % 4 != 0 then 0x164 else 0x168)
  if (← get).selaccHolds (← get).cur (some f.d.toNat) then throw (.wait .matrix)
  let k4 : List (Bool × Nat × Word) := [(sparse && K % 4 != 0, 0x164, 0)]
  let hA ← match ← attempt (readShape a) with
    | .ok h => pure h
    | .error e => do raiseFirstAt k4; fail e
  let condsA : List (Bool × Nat × Word) := k4 ++
    [(decide (t.grows < hA.rows) || decide (hA.cols < KA), 0x160, a), (sparse && hA.efmt == 0x40, 0x166, a),
      (hA.ms && !(opClass hA.efmt == some .float8 && hA.efmt != 0x40), 0x162, a)]
  let hB ← match ← attempt (readShape b) with
    | .ok h => pure h
    | .error e => do
      raiseFirstAt condsA
      if hA.bad then do
        clean
        raise 0x16F a
      fail e
  fabFirst ((if hA.efmt = 0x40 || KA = 0 then [] else [hA.base]) ++ (if hB.efmt = 0x40 || K = 0 then [] else [hB.base]))
  raiseFirstAt (condsA ++
    [(decide (256 < hB.cols) || decide (hB.rows < K), 0x160, b),
      ((opClass hA.efmt).isSome && (opClass hB.efmt).isSome && opClass hA.efmt != opClass hB.efmt, 0x161, a),
      (hB.ms && !(opClass hB.efmt == some .float8 && hB.efmt != 0x40), 0x162, b)])
  if hA.bad || hB.bad then do
    clean
    raise 0x16F (if hA.bad then a else b)
  let trecOf (h : Shape) : M (Option TRec) := do
    if h.efmt = 0x40 then
      match ← attempt (load t.who accLoad 64 h.trec 64) with
      | .ok x =>
        match TRec.ofNat x with
        | some r => return some r
        | none => do
          clean
          raise 0x16A h.trec
      | .error e => fail e
    else return none
  let tA ← trecOf hA
  let tB ← trecOf hB
  let m := hA.rows
  let N := hB.cols
  let nibs ← attempt (if sparse then (List.range m).mapM fun i => readMeta c K i else pure [])
  let place (i e : Nat) : Nat :=
    match nibs with
    | .ok l => if sparse then let n := (l.getD i []).getD (e / 2) (0, 1); 4 * (e / 2) + (if e % 2 = 0 then n.1 else n.2) else e
    | .error _ => e
  let elemsA := (List.range m).flatMap fun i => (List.range KA).map fun e => (i, e, i, hA.cols, place i e)
  let elemsB := (List.range N).flatMap fun j => (List.range K).map fun k => (k, j, j, hB.rows, k)
  let s ← get
  let metaEas := if sparse then (List.range m).flatMap fun i => (List.range (K / 4)).map fun q =>
    c + BitVec.ofNat 64 (i * ceilDiv K 8 + q / 2) else []
  let beyond (h : Shape) (r : Option TRec) (l : List (Nat × Nat × Nat × Nat × Nat)) : Bool :=
    r.any fun r => l.any fun e => decide (r.weights ≤ (h.at_ e.1 e.2.1).toNat)
  let oA := beyond hA tA elemsA
  let oB := beyond hB tB elemsB
  let far (l : List Word) : Bool := l.any fun ea => !irisReach s ea
  raiseFirstAt [(far (operandBytes hA tA elemsA) || far metaEas, 0x163, a), (far (operandBytes hB tB elemsB), 0x163, b),
    ((match nibs with
      | .ok l => l.any fun r => r.any fun n => decide (n.2 ≤ n.1)
      | .error _ => false), 0x165, a)]
  raiseIf (oA || oB) 0x16C (if oA then hA.trec else hB.trec)
  match nibs with
  | .error e => fail e
  | .ok _ => clean
  let va ← elemsA.mapM fun (i, e, o, d, k) => operandVal t.iris hA tA i e o d k
  let vb ← elemsB.mapM fun (k, j, o, d, p) => operandVal t.iris hB tB k j o d p
  if K = 0 then return
  let cls := (opClass hA.efmt).getD .int8
  let zero : FVal := .num false 0 0
  -- row i of A over k, the compressed elements standing at their places
  let rowsA := (chunksOf KA m va).mapIdx fun i r =>
    ((if sparse then (List.range K).map fun k =>
        ((List.range KA).find? fun e => place i e == k).elim zero fun e => (r.getD e (zero, false)).1
      else r.map Prod.fst), r.any Prod.snd)
  let colsB := (chunksOf K N vb).map fun c => (c.map Prod.fst, c.any Prod.snd)
  let neg := f.xm.getLsbD 0 != f.xm.getLsbD 1
  let ad := f.xm.getLsbD 2
  let cl := t.clusterNo
  let k0 := (← get).free
  let entry (st : Cluster × Flags × Bool × Nat) (i j : Nat) (ra cb : List FVal × Bool) : Cluster × Flags × Bool × Nat :=
    let (u, fl, sat, k) := st
    let key := accKey f.d.toNat (t.gbase + i) j
    if ra.2 || cb.2 || u.accPoisoned key && !ad then
      -- a damaged entry: its pattern, its flags and its clamping are not known
      ((u.accSet key ((Config.freeWord k).setWidth 32)).accHarm key, fl ||| BitVec.ofNat 5 (Config.freeNat k),
        sat || cls == .int8 && Config.freeBool k, k + 1)
    else
      let r := macEntry cls (u.accGet key).toNat ad neg ra.1 cb.1
      (u.accSet key (BitVec.ofNat 32 r.1), fl ||| r.2.1, sat || r.2.2, k)
  let st := (rowsA.zipIdx).foldl (fun st ra => (colsB.zipIdx).foldl (fun st cb => entry st ra.2 cb.2 ra.1 cb.1) st)
    ((← get).cluster cl, (0 : Flags), false, k0)
  modify fun s => { s.setCluster cl st.1 with free := st.2.2.2 }
  modTh fun t => { t with mmaRun := t.mmaRun ++ [(st.2.1, st.2.2.1)] }

def execMma (f : Fields) (s : State) : Out := runWord (mmaM f false) s
def execMmas (f : Fields) (s : State) : Out := runWord (mmaM f true) s

/-- An MMA or MMAS of thread `k` finishes (R277): the oldest one's flags enter FFLAGS and VXSAT. No flag traps (R102). -/
def Thread.matrixFinish (t : Thread) : Thread :=
  match t.mmaRun with
  | [] => t
  | (fl, sat) :: l =>
    { t with
      mmaRun := l
      fflags := t.fflags ||| fl.setWidth 64
      vxsat := if sat then t.vxsat ||| 1 else t.vxsat
      wait := if t.wait = some .matrix then none else t.wait }

def execMatrixFinish (k : Nat) (s : State) : Out :=
  if (s.thread k).mmaRun.isEmpty then .next s else .next (s.setThread k (s.thread k).matrixFinish)

/-! ### MDRAIN, MLDACC (R279) -/

/-- Memory bytes of an element by conversion code (R278 Table 8). -/
def convBytes (code : Nat) : Nat := if code = 0 then 4 else if code = 4 then 1 else 2

/-- An entry converted for memory: the element, its flags, and whether it clamped. -/
def convOut (code : Nat) (rm : RM) (x : Nat) : Nat × Flags × Bool :=
  if code = 0 then (x, 0, false)
  else if code = 1 then let r := fp16.ofVal rm (fp32.decode x); (r.1, r.2, false)
  else if code = 2 then let r := bf16.ofVal rm (fp32.decode x); (r.1, r.2, false)
  else
    let w := if code = 3 then 16 else 8
    let r := clampTo w false (sInt 32 x)
    (wrap w r.1, 0, r.2)

/-- A memory element converted to an entry, with its flags. -/
def convIn (code x : Nat) : Nat × Flags :=
  if code = 0 then (x, 0)
  else if code = 1 then fp32.ofVal .rne (fp16.decode x)
  else if code = 2 then fp32.ofVal .rne (bf16.decode x)
  else (wrap 32 (sInt (if code = 3 then 16 else 8) x), 0)

/-- MDRAIN and MLDACC. The offsets of the indexed form are the u32 elements of the register B; one beyond its size is free. A word that
resumes runs under the VCFG, FRM, VROWS and scalar operands it began with (`Thread.begins`, log 22). -/
def drainM (f : Fields) (out : Bool) : M Unit := do
  let v := vcOf (← get)
  let code := f.var.toNat % 8
  let ix := f.var.getLsbD 3
  let sz := convBytes code
  let t ← getTh
  let cOp ← peekS f.c
  let a ← peekS f.a
  let b ← if ix then pure 0 else peekS f.b
  let act := t.enabledList v.vl f.m f.mn
  let known (k i : Nat) : Word :=
    (if ix then a + BitVec.ofNat 64 (t.vget v.r f.b.toNat 32 k) else a + BitVec.ofNat 64 k * b) + BitVec.ofNat 64 (i * sz)
  vIssue v f [(true, 3)] [(decide (code ≤ 4) && v.sew != 8 * sz, 0x0E0)] []
    (if t.vectorHere then (List.range t.rows).flatMap fun k => act.map (known k) else [])
  let col0 := bits cOp.toNat 15 0
  let row0 := bits cOp.toNat 23 16
  raiseFirst [(decide (4 < code), 0x169), (t.grows == 0, 0x168),
    (t.grows != 0 && (decide (t.grows < row0 + t.rows) || decide (256 < col0 + v.vl)), 0x167)]
  if !out && (← get).selaccHolds (← get).cur (some f.d.toNat) then throw (.wait .matrix)
  let rm := t.rm f.rnd
  let cl := t.clusterNo
  let clean : M Unit := do
    cleanS f.a
    if !ix then cleanS f.b
    cleanS f.c
  let rowAddr (k : Nat) : M Word := do
    if ix then
      if v.r < 4 * k + 4 then
        let n ← freshIndex
        return a + (Config.freeWord n &&& 0xFFFF_FFFF)
      else return a + BitVec.ofNat 64 (← rdV v f.b.toNat 32 k)
    else return a + BitVec.ofNat 64 k * b
  tloop v v.sew t.rows v.vl act [] (clean := clean) fun k i => do
    let ea := (← rowAddr k) + BitVec.ofNat 64 (i * sz)
    let key := accKey f.d.toNat (t.gbase + row0 + k) (col0 + i)
    if out then
      let _ ← locate t.who .store accVStore sz ea sz
      let u := (← get).cluster cl
      if u.accPoisoned key then throw (.cause { code := 0x0AA, xval := ea })
      let r := convOut code rm (u.accGet key).toNat
      vfFlags (k * v.vl + i) r.2.1
      store t.who accVStore sz ea sz r.1
      setSat r.2.2
    else
      let x ← load t.who accVLoad sz ea sz
      let r := convIn code x
      addFlags r.2
      modify fun s => s.setCluster cl ((s.cluster cl).accSet key (BitVec.ofNat 32 r.1))

def execMdrain (f : Fields) (s : State) : Out := runWord (drainM f true) s
def execMldacc (f : Fields) (s : State) : Out := runWord (drainM f false) s

/-! ### Window registers (R280, R281) -/

def Thread.window (t : Thread) (n : Nat) : Window := t.w.getD n {}
def Thread.setWindow (t : Thread) (n : Nat) (x : Window) : Thread :=
  if h : n < 4 then { t with w := t.w.set n x h } else t

/-- WSET (R280). -/
def execWset (f : Fields) (s : State) : Out :=
  runWord (do
    needFeat 4
    let ea ← peekEA f
    fabFirst [ea]
    needVector
    let t ← getTh
    let x ← load t.who accLoad 64 ea 64 (cleanEA f)
    raiseIf (TRec.ofNat x).isNone 0x16A ea
    modTh fun t => t.setWindow f.d.toNat { isOpen := true, record := BitVec.ofNat 512 x, addr := ea }) s

/-- WDEC (R281): weights are decoded with RoundRNE, whatever FRM holds. -/
def execWdec (f : Fields) (s : State) : Out :=
  runWord (do
    let v := vcOf (← get)
    let t ← getTh
    let wd := t.window f.a.toNat
    let base := (← peekS f.b).toNat
    let eas (i : Nat) : List Word :=
      match TRec.ofNat wd.record.toNat with
      | some r =>
        let k := (base + i) / r.tr.B
        let b := r.streamBytes k (k + 1)
        [BitVec.ofNat 64 b.1, BitVec.ofNat 64 (b.2 - 1), BitVec.ofNat 64 (r.scl + k)]
      | none => []
    vIssue v f [(true, 4)]
      ([(v.sew != 8, 0x0E0), (v.grp != 0, 0x0E1)] ++ grpBad f.d 1 ++ [(!wd.isOpen, 0x0EB)]) [(f.d.toNat, 1)] (t.eas v f eas)
    let act ← activeList v f
    match TRec.ofNat wd.record.toNat with
    | none => raise 0x0EB v.vcfg
    | some r =>
      raiseIf ((v.todo t 8 act).any fun i => decide (r.weights ≤ base + i)) 0x16C wd.addr
      modTh fun t => t.clearSort f.d.toNat 1
      vloop v 8 v.vl [(f.d.toNat, 8)] act (clean := cleanS f.b) fun i => do
        let (c, _) ← weightFrom (fun ea => do return (← load t.who accVLoad 1 ea 1, false)) r (base + i)
        vfFlags i c.2
        wrV v f.d.toNat 8 i c.1) s

end Sys2Proof.Machine
end

