-- ==== Sys2Proof/Machine/Zinnia.lean ====
section
/-! DEFINITION. ZENC and Zinnia, the trellis encoder (spec/11 R282–R284, spec/20 R366, spec/22 R388). -/

namespace Sys2Proof.Machine

/-! ### The scale and the costs (R282) -/

/-- A finite value in units of 2^−160, in which every target and every weight is whole. -/
def unitInt : FVal → Int
  | .num n m x => signed n (m <<< (x + 160).toNat)
  | _ => 0

/-- The scale byte of a block of targets. -/
def blockScale (targets : List FVal) : Nat :=
  let m := targets.foldl (fun m x => max m (unitInt x).natAbs) 0
  if m = 0 then 0 else ((List.range 255).find? fun e => decide (m ≤ 510 * 2 ^ (e + 33))).getD 254

/-- The value of a window under a scale: the weight it decodes to (R117). -/
def windowValue (t : Trellis) (e w : Nat) : FVal :=
  let v := trellisSum t.C t.D w
  t.fmt.decode (t.fmt.encode .rne t.sat (scaleVal e (.num (decide (v < 0)) v.natAbs 0))).1

/-- A cost: how many weights are no finite number, then the sum of squares in units of 2^−320. -/
abbrev Cost := Nat × Nat

def Cost.le (a b : Cost) : Bool := decide (a.1 < b.1) || a.1 == b.1 && decide (a.2 ≤ b.2)

/-- Cost(x, i) of a window for a target. -/
def windowCost (t : Trellis) (e : Nat) (target : FVal) (w : Nat) : Cost :=
  match windowValue t e w with
  | .num n m x => (0, ((unitInt (.num n m x) - unitInt target) ^ 2).toNat)
  | _ => (1, 0)

/-! ### The search (R283) -/

/-- A partial sequence: its cost, and its bits as a number whose most significant bit is bit 0 of the sequence. -/
abbrev Path := Option (Cost × Nat)

/-- The better of two paths of one length: less cost, then the lexicographically smaller. -/
def Path.best : Path → Path → Path
  | none, y => y
  | x, none => x
  | some x, some y =>
    if x.1 = y.1 then some (if x.2 ≤ y.2 then x else y) else some (if Cost.le x.1 y.1 then x else y)

/-- Append bit `c`, at cost `k`. -/
def Path.push (k : Cost) (c : Nat) : Path → Path
  | none => none
  | some (x, p) => some ((x.1 + k.1, x.2 + k.2), 2 * p + c)

/-- Adjacent pairs of a list. -/
def pairUp {α : Type} : List α → List (α × α)
  | x :: y :: l => (x, y) :: pairUp l
  | _ => []

/-- One more bit: `st` holds the best path of every state, the last L − 1 bits with bit 0 the earliest; `cost` is the cost of a
window of L bits. -/
def viterbiStep (L : Nat) (cost : Nat → Cost) (st : List Path) : List Path :=
  let ps := pairUp st
  (List.range 2).flatMap fun c => ps.mapIdx fun m p =>
    let w := 2 * m + c * 2 ^ (L - 1)
    Path.best (p.1.push (cost w) c) (p.2.push (cost (w + 1)) c)

/-- The search over `n` more bits, the next window beginning at bit `p`. `at_ p` is the weight whose window begins there. -/
def viterbi (L : Nat) (cost : Nat → Nat → Cost) (at_ : Nat → Option Nat) : Nat → Nat → List Path → List Path
  | 0, _, st => st
  | n + 1, p, st =>
    viterbi L cost at_ n (p + 1) (viterbiStep L (fun w => match at_ p with
      | some i => cost i w
      | none => (0, 0)) st)

/-- The low `n` bits of `x` in reverse order. -/
def revBits : Nat → Nat → Nat
  | 0, _ => 0
  | n + 1, x => x % 2 * 2 ^ n + revBits n (x / 2)

/-- The scale byte and the stream of a block (R282, R283). -/
def encodeBlock (t : Trellis) (targets : List FVal) : Nat × Nat :=
  let e := blockScale targets
  let n := t.bits
  let s := 2 ^ (t.L - 1)
  let at_ (p : Nat) : Option Nat := (List.range t.B).find? fun i => i * t.n / 4 == p
  let cost (i w : Nat) : Cost := windowCost t e (targets.getD i (.num false 0 0)) w
  let start : List Path := (List.range s).map fun b => some ((0, 0), revBits (t.L - 1) b)
  let one := (viterbi t.L cost at_ n 0 start).foldl Path.best none
  let first := (one.map Prod.snd).getD 0 / 2 ^ n
  let f := revBits (t.L - 1) first
  let two := (viterbi t.L cost at_ n 0 ((List.range s).map fun b => if b = f then some ((0, 0), first) else none)).getD f none
  (e, revBits n ((two.map Prod.snd).getD 0 / 2 ^ (t.L - 1)))

/-! ### ZENC and its jobs (R284) -/

/-- ZENC: the record is read and checked at issue; the work passes to the Zinnia of the die. -/
def execZenc (f : Fields) (s : State) : Out :=
  runWord (do
    let t ← getTh
    let a ← peekS f.a
    let b ← peekS f.b
    let _ ← translate t.who .load b
    raiseIf (a.toNat % 4 != 0) 0x080 a
    let x ← load t.who accLoad 64 b 64 (do cleanS f.a; cleanS f.b)
    raiseIf (TRec.ofNat x).isNone 0x16A b
    let s ← get
    let j : ZJob := {
      key := s.cur, part := t.part, user := decide (t.level = .user), cl := t.clusterNo, reg := f.d, tgt := a
      data := BitVec.ofNat 512 x, addr := b, block := 0 }
    set { s with zjobs := s.zjobs ++ [j] }
    modTh fun t => if f.d = 0 then t else { t with zenc := t.zenc ++ [f.d] }) s

/-- The agent of a job: its accesses are the thread's own loads and stores, by way of its cluster, behind watermarks and behind its
earlier VLDAs; as an engine it reaches nothing by the own-cluster alias (R53). -/
def ZJob.who (j : ZJob) : Who := { part := j.part, user := j.user, cl := none, watch := true, via := some j.cl }

/-- Write a block: the stream bits among their neighbours' bits, then the scale byte. Every byte is checked before any is
written; a byte shared with a neighbouring block is read and rewritten at the home of its line, in this one step. Bytes that `skip` names
are left. -/
def zWrite (w : Who) (r : TRec) (k e stream : Nat) (rd : Word → M Nat) (skip : Word → Bool := fun _ => false) : M Unit := do
  let (lo, hi) := r.streamBytes k (k + 1)
  let sh := k * r.tr.bits % 8
  let whole (i : Nat) : Bool := decide (8 * i ≥ sh) && decide (8 * i + 8 ≤ sh + r.tr.bits)
  let old ← (List.range (hi - lo)).mapM fun i => if whole i then pure 0 else rd (BitVec.ofNat 64 (lo + i))
  let new := setBits (packElems 8 (fun i => old.getD i 0) (hi - lo)) (sh + r.tr.bits - 1) sh stream
  let scl : Word := BitVec.ofNat 64 (r.scl + k)
  let _ ← (List.range (hi - lo)).mapM fun i => locate w .store accEngine 1 (BitVec.ofNat 64 (lo + i)) 1
  let _ ← locate w .store accEngine 1 scl 1
  (List.range (hi - lo)).forM fun i =>
    let ea : Word := BitVec.ofNat 64 (lo + i)
    if skip ea then pure () else if whole i then store w accEngine 1 ea 1 (elem 8 new i) else storeHome w accEngine 1 ea 1 (elem 8 new i) (pure ())
  if skip scl then pure () else store w accEngine 1 scl 1 e

/-- One block of a job: its targets, a NaN or an infinity among them being 0x17B, then its bits. -/
def zBlock (j : ZJob) (r : TRec) : M Unit := do
  let ts ← (List.range r.tr.B).mapM fun i => do
    let x ← load j.who accEngine 4 (j.tgt + BitVec.ofNat 64 (4 * (j.block * r.tr.B + i))) 4
    match fp32.decode x with
    | .num n m e => return FVal.num n m e
    | _ => raise 0x17B j.addr
  let (e, stream) := encodeBlock r.tr ts
  zWrite j.who r j.block e stream fun ea => loadHome j.who accEngine 1 ea 1

/-- Replace the first job of a die, or drop it. -/
def replaceJob (die : Nat) (new : Option ZJob) : List ZJob → List ZJob
  | [] => []
  | j :: l => if j.part / 8 = die then (match new with
    | some x => x :: l
    | none => l) else j :: replaceJob die new l

/-- A job ends: `v` is what its register holds, or none for a cause still to be taken. -/
def Thread.zencDone (t : Thread) (r : BitVec 6) (v : Word) : Thread :=
  if t.zenc.contains r then
    let l := t.zenc.erase r
    { (t.setS r v) with zenc := l, wait := if t.wait = some .zenc then none else t.wait }
  else { t with wait := if t.wait = some .zenc then none else t.wait }

/-- ZINNIA_JOB (R284): the Zinnia of a die encodes the next block of its oldest job. A cause ends the job before the block is
written; the thread takes it at its next stopping point (R366). What holds the block back holds the whole step. -/
def execZinniaJob (die : Nat) (s : State) : Out :=
  match s.zjobs.find? fun j => j.part / 8 == die with
  | none => .next s
  | some j =>
    match TRec.ofNat j.data.toNat with
    | none => .next { s with zjobs := replaceJob die none s.zjobs }
    | some r =>
      match (zBlock j r).run ({ s with zjobs := [] }.select j.key) with
      | .ok _ s' =>
        let s' := { s'.select s.cur with zjobs := s.zjobs }
        if j.block + 1 < r.nblk then .next { s' with zjobs := replaceJob die (some { j with block := j.block + 1 }) s'.zjobs }
        else
          let s' := { s' with zjobs := replaceJob die none s'.zjobs }
          .next (s'.setThread j.key ((s'.thread j.key).zencDone j.reg (BitVec.ofNat 64 r.nblk)))
      | .error (.cause c) s' =>
        let s' := { keepTlbOf j.part s s' with zjobs := replaceJob die none s.zjobs }
        let t := s'.thread j.key
        .next (s'.setThread j.key { t with zfault := t.zfault ++ [(c.code, j.addr, j.reg, j.block, c.pa)] })
      | .error (.wait r) _ => .next (serveWait r s)
      | .error _ _ => .next s

/-- The thread has made an arrival and waits for its phase: it is inside a word. -/
def Thread.inGroupWait (t : Thread) : Bool :=
  match t.wait with
  | some (.group _ _ _) => true
  | _ => false

/-- ZENC_FAULT_TAKEN (R366): between words, and once the work R348 lets finish is over, thread `k` takes the oldest cause Zinnia found
for it: XPC is the first word not yet issued, XVAL the record's address, and sD the number of blocks written. A trap that the word at the
pc still had to take comes after it in program order: that word keeps its progress, and meets its cause again. -/
def execZencFaultTaken (k : Nat) (s : State) : Out :=
  match (s.thread k).zfault with
  | [] => .next s
  | (code, addr, r, n, pa) :: l =>
    if !(s.thread k).live || (s.thread k).inGroupWait || (s.select k).finishing then .next s
    else
      .next (s.on k fun s =>
        let t := s.th
        let at_ : Resume := match t.trap with
          | some p => ⟨p.slot1, p.cause.vpart, p.cause.tpart⟩
          | none => t.resume.getD ⟨false, false, false⟩
        let t := { (t.zencDone r 0).setS r (BitVec.ofNat 64 n) with zfault := l, wait := none, trap := none }
        deliver { code := code, xval := addr, pa := pa, vpart := at_.vpart, tpart := at_.tpart } at_.slot1 { s with th := t })

end Sys2Proof.Machine
end

