-- ==== Sys2Proof/Machine/Sampling.lean ====
section
/-! DEFINITION. Counter-based random words, the min-p filter and the draw of a token (spec/12 R288, R305, R310). -/

namespace Sys2Proof.Machine

/-! ### Philox4x32-10 (R310) -/

/-- One round on (x0, x1, x2, x3) under (k0, k1). -/
def philoxRound (k0 k1 x0 x1 x2 x3 : Nat) : Nat × Nat × Nat × Nat :=
  let p := 0xD2511F53 * x0
  let q := 0xCD9E8D57 * x2
  ((q / 2 ^ 32) ^^^ x1 ^^^ k0, q % 2 ^ 32, (p / 2 ^ 32) ^^^ x3 ^^^ k1, p % 2 ^ 32)

/-- `n` rounds, the key advancing between them. -/
def philoxGo : Nat → Nat → Nat → Nat → Nat → Nat → Nat → Nat × Nat × Nat × Nat
  | 0, _, _, x0, x1, x2, x3 => (x0, x1, x2, x3)
  | n + 1, k0, k1, x0, x1, x2, x3 =>
    let y := philoxRound k0 k1 x0 x1 x2 x3
    philoxGo n ((k0 + 0x9E3779B9) % 2 ^ 32) ((k1 + 0xBB67AE85) % 2 ^ 32) y.1 y.2.1 y.2.2.1 y.2.2.2

/-- Philox(key, (x0, x1, x2, x3)). -/
def philox (key x0 x1 x2 x3 : Nat) : Nat × Nat × Nat × Nat :=
  philoxGo 10 (key % 2 ^ 32) (key / 2 ^ 32 % 2 ^ 32) (x0 % 2 ^ 32) (x1 % 2 ^ 32) (x2 % 2 ^ 32) (x3 % 2 ^ 32)

/-- Word `k` of a result. -/
def philoxWord (r : Nat × Nat × Nat × Nat) (k : Nat) : Nat :=
  if k = 0 then r.1 else if k = 1 then r.2.1 else if k = 2 then r.2.2.1 else r.2.2.2

/-- The uniform of a word (R305): (floor(w / 2^8) + 0.5) × 2^−24, exact. -/
def uniformOf (w : Nat) : FVal := .num false (2 * (w / 256) + 1) (-25)

/-- VRAND (R310): FN[3] = 0 takes a position from each element of B, 1 one position from the scalar B. -/
def execVrand (f : Fields) (s : State) : Out :=
  runWord (do
    let v := vcOf (← get)
    let n := v.regs
    vIssue v f [(true, 6)] ([(v.sew != 32, 0x0E0)] ++ grpBad f.d n ++ src2Bad f n) [(f.d.toNat, n)]
    let a ← peekS f.a
    let b ← if f.var.getLsbD 3 then peekS f.b else pure 0
    let c ← peekS f.c
    let act ← activeList v f
    modTh fun t => t.clearSort f.d.toNat n
    vloop v 32 v.vl [(f.d.toNat, 32)] act (clean := do cleanS f.a; src2Clean f; cleanS f.c) fun i => do
      let x ← if f.var.getLsbD 3 then
          pure (philoxWord (philox a.toNat b.toNat (b.toNat / 2 ^ 32) c.toNat (i / 4)) (i % 4))
        else do
          let p ← rdV v f.b.toNat 32 i
          pure (philox a.toNat p 0 c.toNat (c.toNat / 2 ^ 32)).1
      wrV v f.d.toNat 32 i x) s

/-! ### The min-p filter (R288) -/

/-- LOGP must be −∞ or a number at most 0. -/
def logpBad (x : Nat) : Bool :=
  match fp32.decode x with
  | .nan _ => true
  | .inf n => !n
  | .num n m _ => !n && m != 0

/-- maximumNumber over the entries; the canonical NaN when every entry is one. -/
def rowMax (row : List Nat) : Nat := row.foldl (fun m l => (fp32.minmax true m l).1) fp32.nanBits

/-- The candidates of a row, as columns and logits by rising column. When m is +∞ they are the +∞ entries. -/
def candidates (logp : Nat) (row : List Nat) : List (Nat × Nat) :=
  let m := rowMax row
  let t := fp32.decode (fp32.add .rne m logp).1
  let top := m == fp32.infBits false
  (row.mapIdx fun i l => (i, l)).filter fun e =>
    let l := fp32.decode e.2
    if top then l == .inf false else !l.isNan && !t.isNan && decide (0 ≤ cmpVal l t)

/-- What one candidate adds to the sum: RoundRNE(exp2(RoundRNE(l − m)) × 2^64). None where l − m is no number: a row whose
largest entry is −∞ (the spec states no sum for it). -/
def massOf (m l : Nat) : Option Int :=
  if m = fp32.infBits false then some (2 ^ 64)
  else
    match fp32.decode (fp32.sub .rne l m).1 with
    | .nan _ => none
    | x => (toExact 64 (fp32.decode (fp32.exp2 .rne x).1)).map Prod.fst

/-- The sum of a row's candidates, `any` standing for an unstated one. -/
def rowMass (m : Nat) (cands : List (Nat × Nat)) (any : Nat) : Nat :=
  match cands.mapM fun e => massOf m e.2 with
  | some l => exactWord l.sum
  | none => any % 2 ^ 128

/-! ### The draw (R305) -/

/-- score(j) of a candidate: its logit less g, where g is log2 of −log2(u). -/
def gumbelScore (l w : Nat) : Nat :=
  let h := match fp32.decode (fp32.log2 .rne (uniformOf w)).1 with
    | .num _ m e => FVal.num false m e
    | x => x
  (fp32.sub .rne l (fp32.log2 .rne h).1).1

/-- The index of the largest score, the lowest index on ties. -/
def bestScore : List (Nat × Nat) → Option (Nat × Nat)
  | [] => none
  | e :: l =>
    match bestScore l with
    | none => some e
    | some x => some (if 0 ≤ cmpVal (fp32.decode e.2) (fp32.decode x.2) then e else x)

/-- The token of a row (R305): 0xFFFF_FFFF when there is no candidate. -/
def sampleToken (seed pos draw logp : Nat) (row : List Nat) : Nat :=
  let scored := (candidates logp row).map fun e =>
    (e.1, gumbelScore e.2 (philox seed pos (pos / 2 ^ 32) draw e.1).1)
  ((bestScore scored).map Prod.fst).getD 0xFFFFFFFF

end Sys2Proof.Machine
end

