-- ==== Sys2Proof/Machine/Lupin.lean ====
section
/-! DEFINITION. Lupin's channels: records, destination ranges and watermarks, the five functions, and how a channel ends
(spec/12 R285–R296, spec/22 R381–R384). -/

namespace Sys2Proof.Machine

/-! ### The channel record (R285) -/

def Channel.src (c : Channel) : Nat := bits c.record.toNat 63 0
def Channel.dst (c : Channel) : Nat := bits c.record.toNat 127 64
def chanFunc (x : Nat) : Nat := bits x 130 128
def Channel.fn (c : Channel) : Nat := chanFunc c.record.toNat
def Channel.sfmt (c : Channel) : Efmt := (Efmt.ofCode (bits c.record.toNat 143 136)).getD (.int 8 true)
def Channel.dfmt (c : Channel) : Efmt := (Efmt.ofCode (bits c.record.toNat 151 144)).getD (.int 8 true)
def Channel.clen (c : Channel) : Nat := bits c.record.toNat 175 160
def Channel.aux (c : Channel) : Nat := bits c.record.toNat 255 192
/-- CNT, SSTR and DSTR of the six levels, innermost first. -/
def chanDims (x : Nat) : List (Nat × Int × Int) :=
  (List.range 6).map fun l =>
    (bits x (256 + 128 * l + 31) (256 + 128 * l), sInt 32 (x >>> (320 + 128 * l)), sInt 32 (x >>> (352 + 128 * l)))
def Channel.dims (c : Channel) : List (Nat × Int × Int) := chanDims c.record.toNat
def Channel.cnt (c : Channel) (l : Nat) : Nat := ((c.dims.map Prod.fst).getD l 0)
def Channel.sstr (c : Channel) (l : Nat) : Int := (c.dims.map fun d => d.2.1).getD l 0
def Channel.dstr (c : Channel) (l : Nat) : Int := (c.dims.map fun d => d.2.2).getD l 0

/-- Innermost iterations, or rows for COMPRESS and SELACC; none when a CNT is 0 (R286). -/
def Channel.total (c : Channel) : Nat :=
  if c.dims.any fun d => d.1 == 0 then 0
  else if c.fn = 2 ∨ c.fn = 3 then c.cnt 1 else (c.dims.map Prod.fst).prod

/-- Bytes of a source or destination element. -/
def Channel.ssize (c : Channel) : Nat := c.sfmt.width / 8
def Channel.dsize (c : Channel) : Nat := c.dfmt.width / 8

-- the function record of COMPRESS (R287) and SELACC (R288)
def Channel.cidx (c : Channel) : Nat := bits c.func.toNat 63 0
def Channel.rptr (c : Channel) : Nat := bits c.func.toNat 127 64
def Channel.nnzmax (c : Channel) : Nat := bits c.func.toNat 159 128
def Channel.tile (c : Channel) : Nat := bits c.func.toNat 1 0
def Channel.row0 (c : Channel) : Nat := bits c.func.toNat 15 8
def Channel.col0 (c : Channel) : Nat := bits c.func.toNat 31 16
def Channel.logp (c : Channel) : Nat := bits c.func.toNat 63 32
def Channel.kmax (c : Channel) : Nat := bits c.func.toNat 95 64

/-- Every address of a loop nest is a multiple of `n` (R286). -/
def strideAligned (n base : Nat) (dims : List (Nat × Int)) : Bool :=
  base % n == 0 && dims.all fun d => decide (d.1 ≤ 1) || d.2 % (n : Int) == 0

/-- A channel record that breaks R285 to R288. The fields a function does not use may hold anything but for the reserved ones. -/
def Channel.broken (c : Channel) : Bool :=
  let x := c.record.toNat
  let sc := bits x 143 136
  let dc := bits x 151 144
  let none_ := c.dims.any fun d => d.1 == 0
  bits x 135 131 != 0 || bits x 159 156 != 0 || bits x 191 176 != 0 ||
    ((List.range 6).any fun l => bits x (256 + 128 * l + 63) (256 + 128 * l + 32) != 0) ||
    match c.fn with
    | 0 | 4 => c.clen == 0
    | 1 =>
      !cvtCode sc || !cvtCode dc || decide (6 ≤ bits x 154 152) || bits x 255 200 != 0 ||
        !none_ && !(strideAligned c.ssize c.src (c.dims.map fun d => (d.1, d.2.1)) &&
          strideAligned c.dsize c.dst (c.dims.map fun d => (d.1, d.2.2)))
    | 2 =>
      !(cvtCode sc || sc == 13) || ((List.range 4).any fun l => c.cnt (2 + l) != 1)
    | 3 =>
      decide (256 < c.cnt 0) || ((List.range 4).any fun l => c.cnt (2 + l) != 1) || decide (c.dstr 1 ≤ 0)
    | _ => true

/-- A function record that breaks R287 or R288. -/
def Channel.funcBroken (c : Channel) : Bool :=
  let f := c.func.toNat
  match c.fn with
  | 2 => bits f 511 160 != 0
  | 3 => bits f 7 2 != 0 || bits f 511 96 != 0 || logpBad c.logp
  | _ => false

/-! ### Addresses (R286, R289) -/

/-- The digits of iteration `k`, innermost first. -/
def digitsOf : List Nat → Nat → List Nat
  | [], _ => []
  | c :: l, k => k % c :: digitsOf l (k / c)

/-- Σ of digit times stride. -/
def strideSum : List Nat → List Int → Int
  | i :: l, d :: r => (i : Int) * d + strideSum l r
  | _, _ => 0

/-- Source and destination offset of iteration `k`. -/
def Channel.offsets (c : Channel) (k : Nat) : Int × Int :=
  let is := digitsOf (c.dims.map Prod.fst) k
  (strideSum is (c.dims.map fun d => d.2.1), strideSum is (c.dims.map fun d => d.2.2))

/-- An address plus an offset, modulo 2^64. -/
def addrPlus (a : Nat) (x : Int) : Nat := wrap 64 ((a : Int) + x)

def Channel.srcAt (c : Channel) (k : Nat) : Nat := addrPlus c.src (c.offsets k).1
def Channel.dstAt (c : Channel) (k : Nat) : Nat := addrPlus c.dst (c.offsets k).2
/-- Element (row, col) of COMPRESS. -/
def Channel.cellAt (c : Channel) (row col : Nat) : Nat := addrPlus c.src ((row : Int) * c.sstr 1 + (col : Int) * c.sstr 0)
/-- Row header of SELACC. -/
def Channel.headAt (c : Channel) (row : Nat) : Nat := addrPlus c.dst ((row : Int) * c.dstr 1)

/-- Least and greatest offset of a nest. -/
def nestMin (dims : List (Nat × Int)) : Int := (dims.map fun d => min 0 (((d.1 : Int) - 1) * d.2)).sum
def nestMax (dims : List (Nat × Int)) : Int := (dims.map fun d => max 0 (((d.1 : Int) - 1) * d.2)).sum

/-- The least of some numbers. -/
def leastOf : List Int → Option Int
  | [] => none
  | x :: l => some (l.foldl min x)

/-- The least offset, at or above `b`, that a nest writes whose iterations write `len` bytes each; the levels come outermost
first. -/
def nestFrom (len : Nat) : List (Nat × Int) → Int → Option Int
  | [], b => if b < (len : Int) then some (max b 0) else none
  | (c, d) :: inner, b =>
    leastOf ((List.range c).filterMap fun (i : Nat) => (nestFrom len inner (b - (i : Int) * d)).map (· + (i : Int) * d))

/-- The same among the iterations from number `k` on. -/
def restFrom (len : Nat) : List (Nat × Int) → Nat → Int → Option Int
  | [], k, b => if k = 0 then nestFrom len [] b else none
  | (c, d) :: inner, k, b =>
    let n := (inner.map Prod.fst).prod
    let q := k / n
    if c ≤ q then none
    else
      let here := (restFrom len inner (k % n) (b - (q : Int) * d)).map (· + (q : Int) * d)
      let later := (List.range (c - q - 1)).filterMap fun (j : Nat) =>
        (nestFrom len inner (b - ((q + 1 + j : Nat) : Int) * d)).map (· + ((q + 1 + j : Nat) : Int) * d)
      leastOf (here.toList ++ later)

/-- The end of an iteration of a nest that writes offset `x`. -/
def nestEnd (len : Nat) : List (Nat × Int) → Int → Option Int
  | [], x => if 0 ≤ x ∧ x < (len : Int) then some (len : Int) else none
  | (c, d) :: inner, x =>
    (List.range c).findSome? fun (i : Nat) =>
      let y := x - (i : Int) * d
      if nestMin inner ≤ y ∧ y < nestMax inner + len then (nestEnd len inner y).map (· + (i : Int) * d) else none

/-- The same among the iterations before number `k`. -/
def doneEnd (len : Nat) : List (Nat × Int) → Nat → Int → Option Int
  | [], k, x => if k = 0 then none else nestEnd len [] x
  | (c, d) :: inner, k, x =>
    let n := (inner.map Prod.fst).prod
    let q := k / n
    match nestEnd len ((min q c, d) :: inner) x with
    | some e => some e
    | none => if q < c then (doneEnd len inner (k % n) (x - (q : Int) * d)).map (· + (q : Int) * d) else none

/-- The least offset, at or above `b`, that iterations from number `k` on write and no earlier one has written. -/
def unfilledFrom (len : Nat) (dims : List (Nat × Int)) (k : Nat) : Nat → Int → Option Int
  | 0, b => restFrom len dims k b
  | fuel + 1, b =>
    match restFrom len dims k b with
    | none => none
    | some x =>
      match doneEnd len dims k x with
      | some e => unfilledFrom len dims k fuel e
      | none => some x

/-- Bytes an iteration reads, and writes (COPY, CONV, FILL). -/
def Channel.readLen (c : Channel) : Nat := if c.fn = 0 then c.clen else if c.fn = 1 then c.ssize else 0
def Channel.writeLen (c : Channel) : Nat := if c.fn = 1 then c.dsize else c.clen

/-- The byte ranges of the source: first address and length; one span over the whole nest. -/
def Channel.srcSpan (c : Channel) : Nat × Nat :=
  let dims := c.dims.map fun d => (d.1, d.2.1)
  let n := if c.fn = 2 then c.ssize else c.readLen
  if c.fn = 3 ∨ c.fn = 4 ∨ c.dims.any (fun d => d.1 == 0) then (0, 0)
  else (addrPlus c.src (nestMin dims), (nestMax dims - nestMin dims).toNat + n)

/-- The destination ranges: first address and length of each. -/
def Channel.dstSpans (c : Channel) : List (Nat × Nat) :=
  if c.dims.any (fun d => d.1 == 0) then []
  else if c.fn = 2 then
    [(c.dst, c.nnzmax * c.ssize), (c.cidx, 4 * c.nnzmax), (c.rptr, 4 * (c.cnt 1 + 1))].filter fun r => r.2 != 0
  else if c.fn = 3 then [(c.dst, ((c.cnt 1 - 1) * c.dstr 1).toNat + 32 + 8 * c.kmax)]
  else
    let dims := c.dims.map fun d => (d.1, d.2.2)
    [(addrPlus c.dst (nestMin dims), (nestMax dims - nestMin dims).toNat + c.writeLen)]

/-- [DLO, DHI) of R289; empty at DST when nothing can be written. -/
def Channel.range (c : Channel) : Nat × Nat :=
  match c.dstSpans with
  | [] => (c.dst, c.dst)
  | r :: l => l.foldl (fun m x => (min m.1 x.1, max m.2 (x.1 + x.2))) (r.1, r.1 + r.2)

/-- The physical ranges a span of effective addresses reaches by a channel's translations, first address and length of each; an
address of this device's own by the fabric is that of its memory (R50). -/
def Channel.physical (c : Channel) (s : State) (r : Nat × Nat) : List (Nat × Nat) :=
  if r.2 = 0 then []
  else if 2 ^ 63 ≤ r.1 then
    [(if bits r.1 63 56 = s.devnum.toNat then r.1 % 2 ^ 43 else fabricBase + bits r.1 63 56 * 2 ^ 43 + r.1 % 2 ^ 43, r.2)]
  else if c.xl then
    c.pages.filterMap fun e =>
      let lo := max r.1 e.va
      let hi := min (r.1 + r.2) (e.va + pageBytes e.size)
      if lo < hi then some (e.frame + (lo - e.va), hi - lo) else none
  else [r]

/-- The ranges a read of a physical range depends on: those of a view window's backing and scales too (R68, R69). -/
def viewBacking (s : State) (r : Nat × Nat) : List (Nat × Nat) :=
  r :: (if viewBase ≤ r.1 then
    (viewRegions s (r.1 - viewBase) r.2).flatMap fun e => [(e.2.base, e.2.len), (e.2.scale, e.2.viewLen / e.2.block + 1)] else [])

/-- The source and destination ranges overlap (R290), by whatever addresses the channel reaches their bytes. -/
def Channel.overlaps (c : Channel) (s : State) : Bool :=
  let srcs := (c.physical s c.srcSpan).flatMap (viewBacking s)
  (c.dstSpans.flatMap (c.physical s)).any fun r => srcs.any fun q => decide (q.1 < r.1 + r.2) && decide (r.1 < q.1 + q.2)

/-- One address in every 4 KiB piece of `n` bytes at `a`. -/
def touchOf (a n : Nat) : List Word :=
  (List.range ((a + n + 4095) / 4096 - a / 4096)).map fun k => BitVec.ofNat 64 (max a (4096 * (a / 4096 + k)))

/-- The addresses whose pages the record reads, and writes. -/
def Channel.srcTouch (c : Channel) : List Word :=
  if c.fn = 2 then (List.range c.total).flatMap fun r => (List.range (c.cnt 0)).flatMap fun k => touchOf (c.cellAt r k) c.ssize
  else if c.fn = 0 ∨ c.fn = 1 then (List.range c.total).flatMap fun k => touchOf (c.srcAt k) c.readLen
  else []
def Channel.dstTouch (c : Channel) : List Word :=
  if c.fn = 2 then c.dstSpans.flatMap fun r => touchOf r.1 r.2
  else if c.fn = 3 then (List.range c.total).flatMap fun r => touchOf (c.headAt r) (32 + 8 * c.kmax)
  else (List.range c.total).flatMap fun k => touchOf (c.dstAt k) c.writeLen

/-! ### CPROG, CGO, CWAIT (R292–R295) -/

def Partition.chan (p : Partition) (n : Nat) : Channel := p.chans.getD n Channel.reset
def State.chan (s : State) (p n : Nat) : Channel := (s.part p).chan n
def State.setChan (s : State) (p n : Nat) (c : Channel) : State :=
  let q := s.part p
  if h : n < 16 then s.setPart p { q with chans := q.chans.set n c h } else s

/-- Read 64 bytes by words of 8. -/
def load64 (w : Who) (ea : Word) : M Nat := do
  let xs ← (List.range 8).mapM fun k => load w accLoad 8 (ea + BitVec.ofNat 64 (8 * k)) 8
  return packElems 64 (fun k => xs.getD k 0) 8

/-- CPROG (R293): a running channel refuses it, with the FUNC of the record the channel holds. Each record is checked when it is
read (R363). -/
def execCprog (f : Fields) (s : State) : Out :=
  runWord (do
    let t ← getTh
    let n := f.d.toNat
    let ea ← peekEA f
    fabFirst [ea]
    let c := (← get).chan t.part n
    raiseIf (c.st = .running) (0x141 + 4 * c.fn) (BitVec.ofNat 64 n)
    let x ← load t.who accLoad 128 ea 128 (cleanEA f)
    let new : Channel := { Channel.reset with st := .loaded, record := BitVec.ofNat 1024 x, cwm := c.cwm }
    raiseIf new.broken (0x140 + 4 * new.fn) (BitVec.ofNat 64 n)
    let new ← if new.fn = 2 ∨ new.fn = 3 then do
        let y ← load64 t.who (BitVec.ofNat 64 new.aux)
        pure { new with func := BitVec.ofNat 512 y }
      else pure new
    raiseIf new.funcBroken (0x140 + 4 * new.fn) (BitVec.ofNat 64 n)
    modify fun s => s.setChan t.part n new) s

/-- SELACC's rows lie in the grant, and its columns in the storage (R288). -/
def selaccInside (t : Thread) (c : Channel) : Bool :=
  t.grows != 0 && (c.total == 0 || decide (c.row0 + c.cnt 1 ≤ t.grows) && decide (c.col0 + c.cnt 0 ≤ 256))

/-- Where a destination lies in a view window (R286). -/
def isView (pa : Nat) : Bool := decide (viewBase ≤ pa) && decide (pa < viewBase + 2 ^ 48)

/-- A channel ends: it keeps its record and its watermark, and loses the rest. -/
def Channel.idle (c : Channel) (cwm : Word) : Channel :=
  { c with st := .idle, cwm := cwm, pages := [], edges := [], fault := none, paused := false }

/-- A completion record (R136) as a number. -/
def completionWord (state cause flvl leaf elem done : Nat) : Nat :=
  state + cause % 512 * 2 ^ 8 + flvl % 8 * 2 ^ 17 + leaf * 2 ^ 64 + elem % 2 ^ 64 * 2 ^ 128 + done % 2 ^ 64 * 2 ^ 192

/-- The agent of a running channel: it acts at the home slices (R286), and reaches nothing by the own-cluster alias (R53). -/
def Channel.who (c : Channel) (p : Nat) : Who := { part := p, user := c.user, cl := none, watch := false }

/-- The translation a running channel holds for an address (R382); MIG in an entry Verbena is not migrating stands in it
(R375). -/
def Channel.xlat (c : Channel) (p : Nat) (ea : Word) : M Xlat := do
  let a := ea.toNat
  if a ≥ 2 ^ 63 then
    return ⟨if bits a 55 43 = 0 then fabricBase + bits a 63 56 * 2 ^ 43 + a % 2 ^ 43 else nonexistent, 0, false, none⟩
  else if !c.xl then return ⟨a, 0, false, none⟩
  else
    match c.pages.find? fun e => decide (e.va ≤ a) && decide (a < e.va + pageBytes e.size) with
    | some e =>
      let moving := ((← get).part p).migs.any fun g => g.va == e.va
      return ⟨e.frame + a % pageBytes e.size, e.size, e.pte.getLsbD 58 && !moving, some e⟩
    | none => raise 0x040 ea

/-- Check an access of a running channel and say where it goes. -/
def Channel.locate (c : Channel) (p : Nat) (need : Need) (al : Nat) (ea : Word) (n : Nat) : M Place := do
  let x ← c.xlat p ea
  locateX (c.who p) need accEngine al ea n x

/-- Source bytes at physical address `pa`, read as `v`. An aligned 8-byte word of which another iteration read a part comes as that
read found it, so that each comes wholly old or wholly new (R86): `rd` reads a whole word. `k` is the channel's number. -/
def Channel.wordwise (p k pa n v : Nat) (rd : Nat → M Nat) : M Nat := do
  let c := (← get).chan p k
  if c.whole || pa % 8 = 0 && n % 8 = 0 then return v
  let part := [pa / 8, (pa + n - 1) / 8].filter fun w => !(decide (pa ≤ 8 * w) && decide (8 * w + 8 ≤ pa + n)) && (c.edges.find w).isNone
  let new ← part.mapM fun w => do return (w, ← rd (8 * w))
  let c := { c with edges := new.foldl (fun t e => t.set e.1 e.2) c.edges }
  modify fun s => s.setChan p k c
  return packElems 8 (fun i => match c.edges.find ((pa + i) / 8) with
    | some x => elem 8 x ((pa + i) % 8)
    | none => elem 8 v i) n

/-- Source bytes at a cell, read at their home. -/
def Channel.cellBytes (p k pa n : Nat) : M Nat := do
  let (s, v) := physRead (← get) pa n
  set s
  Channel.wordwise p k pa n v fun a => return (← get).rdHome a 8

/-- Source bytes at offset `off` of the view windows: a word lies whole in one view. -/
def Channel.viewBytes (p k : Nat) (ea : Word) (off n : Nat) : M Nat := do
  let v ← viewLoad accEngine ea off none n
  Channel.wordwise p k (viewBase + off) n v fun a => viewLoad accEngine ea (a - viewBase) none 8

/-- A load of a running channel. -/
def Channel.load (c : Channel) (p k al : Nat) (ea : Word) (n : Nat) : M Nat := do
  match ← c.locate p .load al ea n with
  | .cell pa _ => do
    checkPoison accEngine ea pa n
    Channel.cellBytes p k pa n
  | .view off _ => Channel.viewBytes p k ea off n
  | pl => loadPlace accEngine ea n pl

/-- A store of a running channel; to a FIFO it waits for space (R61). -/
def Channel.put (ea : Word) (n v : Nat) (pl : Place) : M Unit := do
  match pl with
  | .fifo cl b off =>
    let k := ((← get).cluster cl).banks[b % 16]
    if off = 0 && decide (16384 < k.ring.length + n / 8) then throw (.wait (.fifo cl b))
  | _ => pure ()
  storePlace accEngine ea n v pl

def Channel.store (c : Channel) (p al : Nat) (ea : Word) (n v : Nat) : M Unit := do
  let pl ← c.locate p .store al ea n
  Channel.put ea n v pl

/-- Write a completion record, once the L2 holds its line; one that cannot be written is lost. -/
def writeCompletion (c : Channel) (p : Nat) (v : Nat) (s : State) : State :=
  match runHeld (c.store p 32 c.crec 32 v) s with
  | .ok _ s => s
  | .error _ _ => s

/-- Bytes `lo` to `hi − 1` of the channel's destination become unspecified where its pages reach (R88, R381, R383). -/
def Channel.scramble (c : Channel) (p lo hi : Nat) (s : State) : State :=
  (List.range (hi - lo)).foldl (fun s k =>
    match (do let x ← c.xlat p (BitVec.ofNat 64 (lo + k)); pure (placeOf s (c.who p) x.pa) : M Place).run s with
    | .ok (.cell pa _) _ => physWrite s.tick pa 1 (Config.freeByte s.free).toNat
    | _ => s) s

/-- A channel ends with a STATE and a CAUSE (R294, R296, R381): ELEM is 0 when STATE is 1 (R136). -/
def endChannel (p n state cause : Nat) (s : State) : State :=
  let c := s.chan p n
  let elem := if state = 1 then 0 else if c.fn = 2 ∨ c.fn = 3 then c.done * c.cnt 0 else c.done
  let cwm : Word := if state = 1 then BitVec.ofNat 64 c.dhi else c.cwm
  let s := if state = 1 then s else c.scramble p c.cwm.toNat c.dhi s
  let s := if c.crec = 0 then
      (if state = 2 && cause / 32 != 5 then logError cause 0 (some p) 0 s else s)
    else writeCompletion c p (completionWord state cause 0 0 elem c.done) s
  s.setChan p n ((s.chan p n).idle cwm)

/-- A channel that starts with the translations `xs` (R289, R294, R382). -/
def Channel.start (c : Channel) (s : State) (p owner : Nat) (user : Bool) (cl : Nat) (crec : Word) (grant : Nat × Nat × Nat) (xs : List Xlat) :
    Channel :=
  let r := c.range
  let go : Channel := { c with
    st := .running, done := 0, counts := [], edges := [], cwm := BitVec.ofNat 64 r.1, dlo := r.1, dhi := r.2
    owner := owner, user := user, cl := cl, crec := crec
    xl := (s.part p).ptroot.getLsbD 0
    pages := (xs.filterMap Xlat.entry).foldl (fun l e => if l.any fun o => o.va == e.va then l else l ++ [e]) []
    grant := grant, whole := false, fault := none, paused := false }
  { go with whole := go.overlaps s }

/-- CGO (R294, R382): release, resolve every page, start. A page whose MIG stands in an entry Verbena is not migrating refuses the
access (R375). -/
def execCgo (f : Fields) (s : State) : Out :=
  runWord (do
    let t ← getTh
    let n := f.d.toNat
    let num : Word := BitVec.ofNat 64 n
    let b ← peekS f.b
    let c := (← get).chan t.part n
    let touched := c.srcTouch ++ c.dstTouch ++ (if b = 0 then [] else [b])
    if c.st == .loaded then fabFirst touched
    raiseIf (c.st != .loaded) (0x141 + 4 * c.fn) num
    raiseIf (c.fn = 3 && !selaccInside t c) (0x143 + 4 * 3) num
    let srcs ← c.srcTouch.mapM fun ea => attempt (translate t.who .load ea)
    let dsts ← c.dstTouch.mapM fun ea => attempt (translate t.who .store ea)
    raiseIf (dsts.any fun r => match r with
      | .ok x => isView x.pa
      | .error _ => false) (0x143 + 4 * c.fn) num
    let crecs ← if b = 0 then pure [] else do
      let x ← attempt (translate t.who .store b)
      pure [x]
    let xs := srcs ++ dsts ++ crecs
    match xs.findSome? fun r => match r with
      | .error e => some e
      | .ok _ => none with
    | some e => throw (.cause e)
    | none => pure ()
    raiseIf (b.toNat % 32 != 0) (0x080 + accEngine) b
    match (touched.zip xs).find? fun e => match e.2 with
      | .ok x => x.mig
      | .error _ => false with
    | some e => raise (0x090 + accEngine) e.1
    | none => pure ()
    cleanS f.b
    releaseEvery 4
    let s ← get
    let used := xs.filterMap fun r => match r with
      | .ok x => some x
      | .error _ => none
    let go := c.start s t.part s.cur (decide (t.level = .user)) t.clusterNo b (t.clusterNo, t.gbase, t.grows) used
    let s := s.setChan t.part n go
    set (if go.total = 0 then endChannel t.part n 1 0 s else s)) s

/-- CWAIT (R295). -/
def execCwait (f : Fields) (s : State) : Out :=
  runWord (do
    let t ← getTh
    let n := f.a.toNat
    let b ← rdS f.b
    let c := (← get).chan t.part n
    if c.st = .running && decide (c.cwm.toNat ≤ b.toNat) then throw (.wait (.channel t.part n b))
    wrS f.d c.cwm) s

/-- CKILL (R296). -/
def execCkill (f : Fields) (s : State) : Out :=
  runWord (do
    let t ← getTh
    let n := f.d.toNat
    let c := (← get).chan t.part n
    match c.st with
    | .idle => pure ()
    | .loaded => modify fun s => s.setChan t.part n (c.idle c.cwm)
    | .running => modify (endChannel t.part n 4 0)) s

/-! ### One iteration of COPY, FILL and CONV (R286) -/

/-- `n` bytes at `a`, cut at multiples of 32: address and length of each piece. -/
def piecesOf (a n : Nat) : List (Nat × Nat) :=
  (List.range ((a + n + 31) / 32 - a / 32)).map fun k =>
    let lo := max a (32 * (a / 32 + k))
    (lo, min (a + n) (32 * (a / 32 + k + 1)) - lo)

/-- What an iteration reads: a value, and the damaged pieces as offset, length and Detail. -/
abbrev Payload := Nat × List (Nat × Nat × Nat)

/-- Read one piece. COPY passes poison on (R377); an overlapping channel ends on it (R384). -/
def Channel.readPiece (c : Channel) (p k : Nat) (a n : Nat) : M (Nat × Option Nat) := do
  let ea : Word := BitVec.ofNat 64 a
  let pl ← c.locate p .load 1 ea n
  let s ← get
  match pl with
  | .cell pa _ =>
    if c.whole then checkPoison accEngine ea pa n
    return (← Channel.cellBytes p k pa n, poisonAt s pa n)
  | .view off _ =>
    match ← attempt (Channel.viewBytes p k ea off n) with
    | .ok v => return (v, none)
    | .error e =>
      if e.code / 32 = 5 && !c.whole then
        let k ← freshIndex
        return ((Config.freeVec k).toNat % 2 ^ (8 * n), some (e.code % 16))
      else throw (.cause e)
  | _ => return (← loadPlace accEngine ea n pl, none)

/-- COPY's read of a FIFO port, one access; damaged entries pass their damage on (R377). -/
def Channel.readFifo (ea : Word) (n cl b off : Nat) : M Payload := do
  let s ← get
  let bank := (s.cluster cl).banks[b % 16]
  let ok := off = 0 && n % 8 = 0 && n ≤ 256 && decide (n / 8 ≤ bank.ring.length)
  if ok then
    let bad := (List.range (n / 8)).filterMap fun i => ((bank.bad.find ((bank.head + i) % 16384)).map fun d => (8 * i, 8, d))
    let (v, bank) := bank.pop (n / 8)
    set (setBank s cl b bank)
    return (v, bad)
  else return (← fifoLoad accEngine ea cl b off n, [])

/-- Read the source of iteration `k` of channel `num`. A FIFO port is read as one access. -/
def Channel.readIter (c : Channel) (p num k : Nat) : M Payload := do
  let a := c.srcAt k
  let ea : Word := BitVec.ofNat 64 a
  if c.fn = 1 then return (← c.load p num c.ssize ea c.ssize, [])
  else if c.fn = 0 then
    match ← attempt (c.locate p .load 1 ea c.clen) with
    | .ok (.fifo cl b off) => Channel.readFifo ea c.clen cl b off
    | _ =>
      let ps := piecesOf a c.clen
      let xs ← ps.mapM fun g => c.readPiece p num g.1 g.2
      let v := (ps.zip xs).foldl (fun v e => v + e.2.1 <<< (8 * (e.1.1 - a))) 0
      return (v, (ps.zip xs).filterMap fun e => e.2.2.map fun d => (e.1.1 - a, e.1.2, d))
  else return (packElems 8 (fun j => elem 8 c.aux (j % 8)) c.clen, [])

/-- Conv of R286. -/
def Channel.conv (c : Channel) (x : Nat) : Nat :=
  let rm := RM.ofRnd 0 (bits c.record.toNat 154 152)
  let v := scaleVal (c.aux % 256) (c.sfmt.value 0 x)
  match c.sfmt, c.dfmt, v with
  | .int _ _, .int w _, .num n m e => wrap w (signed n (roundMag rm n m e false 0).1)
  | _, d, v => (d.put rm (c.record.getLsbD 155) v).1

/-- The last `n` entries pushed take the damage of the pieces of `l` they hold (R377). -/
def Bank.harmLast (b : Bank) (n : Nat) (l : List (Nat × Nat × Nat)) : Bank :=
  { b with bad := (List.range n).foldl (fun t i =>
      match l.find? fun m => decide (m.1 < 8 * i + 8) && decide (8 * i < m.1 + m.2.1) with
      | some m => t.set ((b.head + (b.ring.length - n) + i) % 16384) m.2.2
      | none => t) b.bad }

/-- The granule at `pa`, just written with a damaged piece, is poisoned; sent to another device, it has left so (R377). A write that
was discarded damages nothing (R401). -/
def harmPiece (pa d : Nat) (s : State) : State :=
  if s.plat.linkLost && isHost pa then s
  else
    let s := { s with poison := setPoison s.poison (pa / 32) d }
    if isFabric pa then
      { s with sent := s.sent.dropLast ++ s.sent.getLast?.toList.map fun x => { x with poisoned := true } }
    else s

/-- Write the destination of iteration `k`. -/
def Channel.writeIter (c : Channel) (p k : Nat) (x : Payload) : M Unit := do
  let a := c.dstAt k
  let ea : Word := BitVec.ofNat 64 a
  if c.fn = 1 then c.store p c.dsize ea c.dsize (c.conv x.1)
  else
    match ← attempt (c.locate p .store 1 ea c.clen) with
    | .ok (.fifo cl b off) =>
      Channel.put ea c.clen x.1 (.fifo cl b off)
      if off = 0 then modify fun s => setBank s cl b (((s.cluster cl).banks.getD (b % 16) Bank.reset).harmLast (c.clen / 8) x.2)
    | _ =>
      let ps ← (piecesOf a c.clen).mapM fun g => do
        return (g, ← c.locate p .store 1 (BitVec.ofNat 64 g.1) g.2)
      ps.forM fun e => do
        let o := e.1.1 - a
        storePlace accEngine (BitVec.ofNat 64 e.1.1) e.1.2 ((x.1 >>> (8 * o)) % 2 ^ (8 * e.1.2)) e.2
        match e.2, x.2.find? fun m => decide (m.1 < o + e.1.2) && decide (o < m.1 + m.2.1) with
        | .cell pa _, some m => modify (harmPiece pa m.2.2)
        | _, _ => pure ()

/-- The watermark after `done` iterations (R289): the lowest byte that has still to be written for the first time. -/
def Channel.mark (c : Channel) (done : Nat) : Word :=
  if c.fn = 2 ∨ c.fn = 3 then BitVec.ofNat 64 c.dlo
  else
    let dims := c.dims.reverse.map fun d => (d.1, d.2.2)
    match unfilledFrom c.writeLen dims done (done + 1) (nestMin dims) with
    | some x => BitVec.ofNat 64 (addrPlus c.dst x)
    | none => BitVec.ofNat 64 c.dhi

/-- The code a running channel ends with (R381): poison and NNZMAX keep theirs, everything else is an address it cannot reach. -/
def Channel.faultCode (c : Channel) (code : Nat) : Nat :=
  if code / 32 = 5 || code == 0x14B then code else 0x142 + 4 * c.fn

/-- Run one step of a channel of function `fn`: `m` is its work and answers how many iterations or rows it adds and the new
counts. A wait leaves everything; a fault is kept for CHANNEL_FAULT, with a consumption of poison logged (R379). -/
def chanStep (p n fn : Nat) (m : Channel → M (Nat × List Nat × Bool)) (s : State) : Out :=
  let c := s.chan p n
  if c.st = .running && c.fn == fn && c.fault.isNone && !c.paused then
    match (m c).run s with
    | .ok (k, counts, ended) s' =>
      let c := { s'.chan p n with done := c.done + k, counts := counts }
      let s' := s'.setChan p n { c with cwm := if c.whole then c.cwm else c.mark c.done }
      .next (if ended then endChannel p n 1 0 s' else s')
    | .error (.cause e) _ =>
      let s := s.setChan p n { c with fault := some (c.faultCode e.code) }
      .next (if e.code / 32 = 5 then logError e.code e.pa (some p) 0 s else s)
    | .error (.wait r) _ => .next (serveWait r s)
    | .error _ _ => .next s
  else .next s

/-- An iteration of COPY, FILL or CONV; all of them at once, every source byte first, where the ranges overlap (R290). -/
def iterStep (p n : Nat) (c : Channel) : M (Nat × List Nat × Bool) := do
  if c.whole then
    let xs ← (List.range c.total).mapM fun k => c.readIter p n k
    (xs.zipIdx).forM fun e => c.writeIter p e.2 e.1
    return (c.total, [], true)
  else
    let x ← c.readIter p n c.done
    c.writeIter p c.done x
    return (1, [], c.done + 1 == c.total)

def execLupinCopy (p n : Nat) (s : State) : Out := chanStep p n 0 (iterStep p n) s
def execLupinFill (p n : Nat) (s : State) : Out := chanStep p n 4 (iterStep p n) s
def execLupinConv (p n : Nat) (s : State) : Out := chanStep p n 1 (iterStep p n) s

/-! ### COMPRESS (R287, R383) -/

/-- An element that COMPRESS drops: its bits are zero, or it is a zero of a float format. -/
def Channel.isZero (c : Channel) (x : Nat) : Bool :=
  match c.sfmt with
  | .fp f => (f.decode x).isZero
  | _ => x == 0

/-- Read row `r`: columns and values of its nonzeros. -/
def Channel.readRow (c : Channel) (p num r : Nat) : M (List (Nat × Nat)) := do
  let xs ← (List.range (c.cnt 0)).mapM fun k => do
    return (k, ← c.load p num c.ssize (BitVec.ofNat 64 (c.cellAt r k)) c.ssize)
  return xs.filter fun e => !c.isZero e.2

/-- Write the nonzeros of a row, value number `n` first; more than NNZMAX of them is 0x14B. -/
def Channel.writeRow (c : Channel) (p : Nat) : Nat → List (Nat × Nat) → M Unit
  | _, [] => pure ()
  | n, e :: l => do
    raiseIf (decide (c.nnzmax ≤ n)) 0x14B
    c.store p c.ssize (BitVec.ofNat 64 (c.dst + n * c.ssize)) c.ssize e.2
    c.store p 4 (BitVec.ofNat 64 (c.cidx + 4 * n)) 4 e.1
    c.writeRow p (n + 1) l

/-- Write the row pointers. -/
def Channel.writePtrs (c : Channel) (p : Nat) (counts : List Nat) : M Unit :=
  (List.range (counts.length + 1)).forM fun r =>
    c.store p 4 (BitVec.ofNat 64 (c.rptr + 4 * r)) 4 (counts.take r).sum

/-- LUPIN_COMPRESS: one row, and after the last the row pointers. -/
def execLupinCompress (p n : Nat) (s : State) : Out :=
  chanStep p n 2 (fun c => do
    if c.whole then
      let rows ← (List.range c.total).mapM fun r => c.readRow p n r
      let counts := rows.map List.length
      c.writeRow p 0 rows.flatten
      c.writePtrs p counts
      return (c.total, counts, true)
    else if c.done < c.total then
      let row ← c.readRow p n c.done
      c.writeRow p c.counts.sum row
      return (1, c.counts ++ [row.length], false)
    else
      c.writePtrs p c.counts
      return (0, c.counts, true)) s

/-! ### SELACC (R288) -/

/-- LUPIN_SELACC: one row of the noted grant. -/
def execLupinSelacc (p n : Nat) (s : State) : Out :=
  chanStep p n 3 (fun c => do
    let s ← get
    let cl := s.cluster c.grant.1
    let keys := (List.range (c.cnt 0)).map fun k => accKey c.tile (c.grant.2.1 + c.row0 + c.done) (c.col0 + k)
    raiseIf (keys.any cl.accPoisoned) 0x0BA
    let row := keys.map fun k => (cl.accGet k).toNat
    let m := rowMax row
    let cands := candidates c.logp row
    let any ← freshIndex
    let sum := rowMass m cands (Config.freeVec any).toNat
    let h := c.headAt c.done
    let at_ (o : Nat) : Word := BitVec.ofNat 64 (h + o)
    c.store p 4 (at_ 0) 4 cands.length
    c.store p 4 (at_ 4) 4 m
    c.store p 8 (at_ 8) 8 0
    c.store p 16 (at_ 16) 16 sum
    ((cands.take c.kmax).zipIdx).forM fun e => do
      c.store p 4 (at_ (32 + 8 * e.2)) 4 e.1.1
      c.store p 4 (at_ (36 + 8 * e.2)) 4 e.1.2
    return (1, [], c.done + 1 == c.total)) s

/-! ### Faults while running (R381, R382) -/

/-- CHANNEL_FAULT: the channel ends as CKILL would end it, with STATE 2 and the code. -/
def execChannelFault (p n : Nat) (s : State) : Out :=
  match (s.chan p n).st, (s.chan p n).fault with
  | .running, some code => .next (endChannel p n 2 code s)
  | _, _ => .next s

/-- The addresses whose pages the channel uses, and whether it writes there. -/
def Channel.uses (c : Channel) : List (Word × Bool) :=
  (c.srcTouch.map fun ea => (ea, false)) ++ (c.dstTouch.map fun ea => (ea, true)) ++ if c.crec = 0 then [] else [(c.crec, true)]

/-- A running channel resolves again what lay in the pages that `covers` names, or everything where PTROOT turned translation on or
off (R50, R382). An entry that is invalid or denies the access ends the channel; the page's size may be another. -/
def Channel.reresolve (s : State) (p : Nat) (covers : TlbEntry → Bool) (c : Channel) : Channel :=
  let q := s.part p
  let low := c.uses.filter fun u => decide (u.1.toNat < 2 ^ 63)
  let ended : Channel := { c with fault := some (c.fault.getD (0x142 + 4 * c.fn)) }
  if c.st != .running then c
  else if !q.ptroot.getLsbD 0 then
    if !c.xl then c else if c.user && !low.isEmpty then ended else { c with xl := false, pages := [] }
  else
    let inPage (ea : Word) (e : TlbEntry) : Bool := decide (e.va ≤ ea.toNat) && decide (ea.toNat < e.va + pageBytes e.size)
    let todo := low.filter fun u => !c.xl || c.pages.any fun e => inPage u.1 e && covers e
    let again (u : Word × Bool) : Option TlbEntry :=
      match walkFrom s u.1.toNat 5 (bits q.ptroot.toNat 51 12 * 4096) with
      | .leaf pte at_ _ =>
        let n := bits pte 62 59
        if pte.testBit (if u.2 then 3 else 2) && (!c.user || pte.testBit 4) then
          some ⟨u.1.toNat / pageBytes n * pageBytes n, n, BitVec.ofNat 64 pte, at_⟩
        else none
      | _ => none
    let new := todo.map again
    if new.any Option.isNone then ended
    else { c with xl := true, pages := (c.pages.filter fun e => c.xl && !covers e) ++ (new.filterMap id).dedup }

/-- Every channel of a partition does. -/
def reresolveChans (p : Nat) (covers : TlbEntry → Bool) (s : State) : State :=
  let q := s.part p
  s.setPart p { q with chans := q.chans.map fun c => c.reresolve s p covers }

end Sys2Proof.Machine
end

