-- ==== Sys2Proof/Machine/Tier.lean ====
section
/-! DEFINITION. Tier hints and prefetches, Verbena's demotions and promotions, and page migration (spec/03 R71–R73, spec/12
R297–R298, spec/21 R373–R375). -/

namespace Sys2Proof.Machine

/-! ### Tiered pages (R71, R73) -/

def Partition.tierOn (p : Partition) : Bool := p.tvbase.getLsbD 0
def Partition.tvLo (p : Partition) : Nat := bits p.tvbase.toNat 56 12 * 4096
def Partition.tvHi (p : Partition) : Nat := p.tvLo + bits p.tvlen.toNat 56 12 * 4096
def Partition.fastLo (p : Partition) : Nat := bits p.tfbase.toNat 51 12 * 4096
def Partition.fastLen (p : Partition) : Nat := bits p.tflen.toNat 38 12 * 4096
/-- The capacity pool is given as host addresses. -/
def Partition.slowLo (p : Partition) : Nat := hostBase + bits p.thbase.toNat 47 12 * 4096
def Partition.slowLen (p : Partition) : Nat := bits p.thlen.toNat 47 12 * 4096

/-- The tiered pages of a partition. -/
def State.tiered (s : State) (p : Nat) : List TlbEntry :=
  let q := s.part p
  if q.tierOn && q.ptroot.getLsbD 0 then
    (leavesFrom s 5 (bits q.ptroot.toNat 51 12 * 4096) 0).filter fun e =>
      decide (q.tvLo ≤ e.va) && decide (e.va + pageBytes e.size ≤ q.tvHi)
  else []

def TlbEntry.inPool (e : TlbEntry) (lo len : Nat) : Bool := decide (lo ≤ e.frame) && decide (e.frame + pageBytes e.size ≤ lo + len)
def Partition.isFast (p : Partition) (e : TlbEntry) : Bool := e.inPool p.fastLo p.fastLen
def Partition.isSlow (p : Partition) (e : TlbEntry) : Bool := e.inPool p.slowLo p.slowLen

/-- Priority and NEXT of a page; no hint is 7 and 2^63 − 1. -/
def Partition.hint (p : Partition) (va : Nat) : Nat × Nat := p.hints.get va (7, 2 ^ 63 - 1)

/-- NEXT − tier step; none where the step has passed, which counts as larger than every distance (R72). -/
def Partition.distance (p : Partition) (va : Nat) : Option Nat :=
  let n := (p.hint va).2
  if n < p.tstep.toNat then none else some (n - p.tstep.toNat)

/-- The frames in use: those of the tiered pages and of the moves in progress, as base and length. -/
def State.usedFrames (s : State) (p : Nat) : List (Nat × Nat) :=
  (s.tiered p).map (fun e => (e.frame, pageBytes e.size)) ++
    (s.part p).migs.flatMap fun g => [(g.src, pageBytes g.size), (g.dst, pageBytes g.size)]

/-- The free frames of a pool for a page of size code `n`. -/
def State.freeFrames (s : State) (p lo len n : Nat) : List Nat :=
  let b := pageBytes n
  let used := s.usedFrames p
  let first := ceilDiv lo b
  ((List.range ((lo + len) / b - first)).map fun k => (first + k) * b).filter fun f =>
    !(used.any fun u => decide (u.1 < f + b) && decide (f < u.1 + u.2))

/-- TFREE.FREE (R73): free 4 KiB frames of the fast pool. While tiering is off it keeps the last count. -/
def State.tfreeNow (s : State) (p : Nat) : Nat :=
  let q := s.part p
  if q.tierOn then (s.freeFrames p q.fastLo q.fastLen 0).length % 2 ^ 32 else q.tfree.toNat % 2 ^ 32

/-! ### LHINT, LSTEP, LPREF (R297, R298) -/

/-- A page overlaps [a, a + c), which is empty when c is 0. -/
def TlbEntry.meets (e : TlbEntry) (a c : Nat) : Bool :=
  decide (0 < c) && decide (e.va < a + c) && decide (a < e.va + pageBytes e.size)

def execLhint (f : Fields) (s : State) : Out :=
  runWord (do
    let t ← getTh
    let a ← rdS f.a
    let b ← rdS f.b
    let c ← rdS f.c
    let s ← get
    let q := s.part t.part
    let pages := (s.tiered t.part).filter fun e => e.meets a.toNat c.toNat
    set (s.setPart t.part { q with
      hints := pages.foldl (fun h e => h.set e.va (f.var.toNat % 8, b.toNat)) q.hints
      stuck := q.stuck.filter fun v => !(pages.any fun e => e.va == v) })) s

/-- Raise a partition's tier step (R71). -/
def raiseStep (p : Nat) (v : Word) (s : State) : State :=
  let q := s.part p
  s.setPart p { q with tstep := if q.tstep.toNat < v.toNat then v else q.tstep }

def execLstep (f : Fields) (s : State) : Out :=
  runWord (do
    let t ← getTh
    let a ← rdS f.a
    modTh fun t => { t with step := a }
    modify (raiseStep t.part a)) s

/-- LPREF (R298): a prefetch with no page to promote completes at once. -/
def execLpref (f : Fields) (s : State) : Out :=
  runWord (do
    let t ← getTh
    let g := f.b.toNat
    let bound := f.var.getLsbD 0
    raiseIf (bound && !handleV (t.handle g)) 0x129
    let a ← rdS f.a
    let c ← rdS f.c
    let s ← get
    let q := s.part t.part
    if 16 ≤ t.prefs.length then throw (.wait .prefetchRoom)
    let pages := ((s.tiered t.part).filter fun e => e.meets a.toNat c.toNat && q.isSlow e).map TlbEntry.va
    if !pages.isEmpty then
      let id := t.prefs.foldl (fun m x => max m (x.id + 1)) 0
      modTh fun t => { t with prefs := t.prefs ++ [⟨id, if bound then some g else none, pages⟩] }
      modify fun s =>
        let q := s.part t.part
        s.setPart t.part { q with prefQ := if q.prefQ.contains s.cur then q.prefQ else q.prefQ ++ [s.cur] }) s

/-! ### Moves (R72, R73, R373) -/

/-- Change every entry of a page's run by `f` at its home, each keeping its own AC and DA, and drop its translation as TLBINV does: a
plain store of an entry that has not reached the home keeps its place after it (R372). -/
def rewriteRun (p va size entry : Nat) (f : Nat → Nat) (s : State) : State :=
  let n := pageBytes size / (4096 * 512 ^ sizeLevel size)
  let s := (List.range n).foldl (fun s k =>
    let a := entry + 8 * k
    (recallRange s a 8).putUnder (a / 8) fun x => BitVec.ofNat 64 (f x.toNat)) s
  let q := s.part p
  s.setPart p { q with tlb := q.tlb.filter fun e => !(decide (e.va < va + pageBytes size) && decide (va < e.va + pageBytes e.size)) }

/-- Start moving a page to a frame: MIG is set and the translation dropped. -/
def startMove (p : Nat) (e : TlbEntry) (dst : Nat) (up : Bool) (s : State) : State :=
  let s := rewriteRun p e.va e.size e.at_ (· ||| 2 ^ 58) s
  let q := s.part p
  s.setPart p { q with migs := q.migs ++ [⟨e.va, e.size, e.frame, dst, e.at_, up, 0, []⟩] }

/-- A frame of the free ones: which one Verbena takes is not given. -/
def pickFrame (l : List Nat) (k : Nat) : Option Nat := l[Config.freeNat k % l.length]?

/-- `x` is demoted before `y`: higher priority number, larger distance, lower address (R72). -/
def Partition.demotesFirst (q : Partition) (x y : TlbEntry) : Bool :=
  let px := (q.hint x.va).1
  let py := (q.hint y.va).1
  if px != py then decide (py < px)
  else
    match q.distance x.va, q.distance y.va with
    | none, none => decide (x.va < y.va)
    | none, some _ => true
    | some _, none => false
    | some a, some b => if a = b then decide (x.va < y.va) else decide (b < a)

/-- The page R72 demotes next: in the fast tier, neither moving nor abandoned, with a capacity frame to go to. -/
def State.victim (s : State) (p : Nat) : Option TlbEntry :=
  let q := s.part p
  let can := (s.tiered p).filter fun e =>
    q.isFast e && !(q.migs.any fun g => g.va == e.va) && !q.stuck.contains e.va &&
      !(s.freeFrames p q.slowLo q.slowLen e.size).isEmpty
  can.foldl (fun b e => match b with
    | none => some e
    | some x => if q.demotesFirst e x then some e else some x) none

/-- The page of the capacity tier that an address names, if Verbena may move it. -/
def State.slowPage (s : State) (p va : Nat) : Option TlbEntry :=
  (s.tiered p).find? fun e => e.va == va && (s.part p).isSlow e && !(s.part p).stuck.contains e.va

/-- Prefetches of a partition, oldest thread first: key, and the first page it still waits for. -/
def State.prefHeads (s : State) (p : Nat) : List (Nat × Nat × TlbEntry) :=
  (s.part p).prefQ.flatMap fun k => (s.thread k).prefs.filterMap fun x =>
    (x.pages.findSome? (s.slowPage p)).map fun e => (k, x.id, e)

/-- The prefetched page to promote next, no move of it being under way. -/
def State.prefNext (s : State) (p : Nat) : Option TlbEntry :=
  ((s.prefHeads p).map fun h => h.2.2).find? fun e => !((s.part p).migs.any fun g => g.va == e.va)

/-- A prefetch needs room in the fast tier. -/
def State.prefNeedsRoom (s : State) (p : Nat) : Bool :=
  match s.prefNext p with
  | some e => (s.freeFrames p (s.part p).fastLo (s.part p).fastLen e.size).isEmpty
  | none => false

/-- VERBENA_DEMOTE (R72): one page at a time, when the free frames fall below LOW or a prefetch needs room. -/
def execVerbenaDemote (p : Nat) (s : State) : Out :=
  let q := s.part p
  if q.tierOn && !s.plat.linkLost && (q.migs.all fun g => g.up) &&
      (decide (s.tfreeNow p < bits q.tmark.toNat 31 0) || s.prefNeedsRoom p) then
    match s.victim p with
    | some e =>
      match pickFrame (s.freeFrames p q.slowLo q.slowLen e.size) s.free with
      | some f => .next (startMove p e f false s.tick)
      | none => .next s
    | none => .next s
  else .next s

/-- Drop a page from every prefetch that waits for it: it completes without promoting it (R73). -/
def dropPrefetchPage (p va : Nat) (s : State) : State :=
  (s.part p).prefQ.foldl (fun s k =>
    let t := s.thread k
    s.setThread k { t with prefs := t.prefs.map fun x => { x with pages := x.pages.filter (· != va) } }) s

/-- VERBENA_PROMOTE (R72, R298): the next prefetched page, else a page whose next use is within the horizon. A page whose NEXT lies
below the tier step counts as beyond every horizon, as it does where pages are demoted: R72 does not say so for promotion (DESIGN
CHOICE, log 27). -/
def execVerbenaPromote (p : Nat) (s : State) : Out :=
  let q := s.part p
  if !q.tierOn || s.plat.linkLost then .next s
  else
    match s.prefNext p with
    | some e =>
      match pickFrame (s.freeFrames p q.fastLo q.fastLen e.size) s.free with
      | some f => .next (startMove p e f true s.tick)
      | none =>
        if (s.victim p).isNone && (q.migs.all fun g => g.up) then .next (dropPrefetchPage p e.va s) else .next s
    | none =>
      let can := (s.tiered p).filter fun e =>
        q.isSlow e && !(q.migs.any fun g => g.va == e.va) && !q.stuck.contains e.va &&
          ((q.distance e.va).any fun d => decide (d ≤ bits q.tmark.toNat 63 32)) &&
          !(s.freeFrames p q.fastLo q.fastLen e.size).isEmpty
      match can[Config.freeNat s.free % can.length]? with
      | some e =>
        match pickFrame (s.freeFrames p q.fastLo q.fastLen e.size) (s.free + 1) with
        | some f => .next (startMove p e f true s.tick.tick)
        | none => .next s
      | none => .next s

/-- TIER_NO_ROOM (R73): code 0x180 is logged while TFREE is below LOW and no page can be demoted. -/
def execTierNoRoom (p : Nat) (s : State) : Out :=
  let q := s.part p
  if q.tierOn && decide (s.tfreeNow p < bits q.tmark.toNat 31 0) && (s.victim p).isNone then
    .next (logError 0x180 0 (some p) 0 s)
  else .next s

/-- LPREF_COMPLETE (R298): a prefetch with no page left in the capacity tier is over; its thread goes on. -/
def execLprefComplete (k id : Nat) (s : State) : Out :=
  let t := s.thread k
  if t.prefs.any fun x => x.id == id && (x.pages.findSome? (s.slowPage t.part)).isNone then
    let t' := { t with
      prefs := t.prefs.filter fun x => x.id != id
      wait := match t.wait with
        | some (.prefetch _) | some .prefetchRoom => none
        | w => w }
    let s := s.setThread k t'
    let q := s.part t.part
    .next (s.setPart t.part { q with prefQ := if t'.prefs.isEmpty then q.prefQ.filter (· != k) else q.prefQ })
  else .next s

/-! ### Migration (R373) -/

/-- The update lines of `n` bytes at `pa` come home (R65). -/
def recallPage (s : State) (pa n : Nat) : State :=
  ((s.cores.flatMap fun c => c.2.upd.map UpdLine.line).dedup.filter fun l =>
    decide (pa ≤ l * 128) && decide (l * 128 < pa + n)).foldl recallLine s

/-- Copy one line of a page, as it is newest. -/
def copyLine (src dst : Nat) (s : State) : State :=
  let (s, v) := physRead (s.settle src 128) src 128
  physWrite s dst 128 v

def State.setMig (s : State) (p i : Nat) (g : Migration) : State :=
  let q := s.part p
  s.setPart p { q with migs := q.migs.set i g }

def State.dropMig (s : State) (p i : Nat) : State :=
  let q := s.part p
  s.setPart p { q with migs := removeAt q.migs i }

/-- The channels' held translations of a page name its frame, and no move of it (R375, R382). -/
def rehomeChans (p va frame : Nat) (s : State) : State :=
  let q := s.part p
  let move (e : TlbEntry) : TlbEntry :=
    if e.va = va then { e with pte := BitVec.ofNat 64 (setBits (setBits e.pte.toNat 58 58 0) 51 12 (frame / 4096)) } else e
  s.setPart p { q with chans := q.chans.map fun c => { c with pages := c.pages.map move } }

/-- A move is abandoned: MIG clears, the page stays at its source, and code 0x184 is logged. -/
def abandonMove (p i : Nat) (g : Migration) (line : Nat) (s : State) : State :=
  let s := rewriteRun p g.va g.size g.entry (setBits · 58 58 0) s
  let s := rehomeChans p g.va g.src (s.dropMig p i)
  let q := s.part p
  logError 0x184 line (some p) 0 (s.setPart p { q with stuck := q.stuck ++ [g.va] })

/-- Copy line `l` of a move; a damaged line abandons it (R373). -/
def moveLine (p i : Nat) (g : Migration) (l : Nat) (s : State) : Except State State :=
  let a := g.src + 128 * l
  if (poisonAt s a 128).isSome then .error (abandonMove p i g a s) else .ok (copyLine a (g.dst + 128 * l) s)

/-- Copy marked lines of a move, which are then no longer marked. -/
def moveMarked (p i : Nat) : List Nat → State → Except State State
  | [], s => .ok s
  | l :: r, s =>
    match (s.part p).migs[i]? with
    | none => .ok s
    | some g =>
      match moveLine p i g (l - g.src / 128) s with
      | .ok s =>
        let g := (s.part p).migs.getD i g
        moveMarked p i r (s.setMig p i { g with marked := g.marked.filter (· != l) })
      | .error s => .error s

/-- MIGRATION_COPY: the next line, by rising address; then lines written since they were copied. -/
def execMigrationCopy (p i : Nat) (s : State) : Out :=
  match (s.part p).migs[i]? with
  | none => .next s
  | some g =>
    if s.plat.linkLost then .next s
    else if g.copied < pageBytes g.size / 128 then
      match moveLine p i g g.copied s with
      | .ok s => .next (s.setMig p i { ((s.part p).migs.getD i g) with copied := g.copied + 1 })
      | .error s => .next s
    else
      match moveMarked p i (g.marked.take 1) s with
      | .ok s => .next s
      | .error s => .next s

/-- A physical address after the `n` bytes at `src` moved to `dst`. -/
def movedTo (src dst n a : Nat) : Nat := if decide (src ≤ a) && decide (a < src + n) then dst + (a - src) else a

/-- Context frames in a page move with it (R353): only the device interprets them. So does what is noted of named buffers (R89). -/
def moveFrames (src dst n : Nat) (s : State) : State :=
  let ranges (l : List (Nat × Nat)) : List (Nat × Nat) := l.map fun r => (movedTo src dst n r.1, r.2)
  let party (p : Party) : Party := { p with sends := ranges p.sends, recvs := ranges p.recvs }
  { s with
    frames := s.frames.map fun f => (movedTo src dst n f.1, f.2)
    colls := s.colls.map fun c => { c with parties := c.parties.map party }
    unseen := s.unseen.map party }

/-- Accesses of the partition under way in a page are performed at its new home (R373, R374): what running VLDAs still read, the members
that launch entries count, the source words that channels have read in part. -/
def moveAccesses (p src dst n : Nat) (s : State) : State :=
  let place : Place → Place
    | .cell a via => .cell (movedTo src dst n a) via
    | pl => pl
  let vldas (t : Thread) : Thread :=
    { t with vldas := t.vldas.map fun v => { v with todo := v.todo.map fun e => { e with place := place e.place } } }
  let s := s.mapThreads (s.liveKeys.filter fun k => (s.thread k).part == p && !(s.thread k).vldas.isEmpty) vldas
  let q := s.part p
  s.setPart p { q with
    queues := q.queues.map fun l => l.map fun e => { e with gpa := movedTo src dst n e.gpa }
    chans := q.chans.map fun c => { c with edges := (c.edges.map fun e => (movedTo src dst n (8 * e.1) / 8, e.2)).foldl (fun t e => t.set e.1 e.2) [] } }

/-- MIGRATION_SWITCH: update lines come home; with at most 64 lines marked these are copied, the entries get the new frame, MIG
clears, and the translation is dropped. No cache holds anything of the source any more. -/
def execMigrationSwitch (p i : Nat) (s : State) : Out :=
  match (s.part p).migs[i]? with
  | none => .next s
  | some g =>
    let n := pageBytes g.size
    if s.plat.linkLost || decide (g.copied < n / 128) then .next s
    else
      let s := recallPage s g.src n
      let marked := ((s.part p).migs.getD i g).marked
      if 64 < marked.length then .next s
      else
        match moveMarked p i marked s with
        | .error s => .next s
        | .ok s =>
          let s := moveAccesses p g.src g.dst n (moveFrames g.src g.dst n ((s.dropMig p i).settle g.src n))
          .next (rehomeChans p g.va g.dst
            (rewriteRun p g.va g.size g.entry (fun x => setBits (setBits x 58 58 0) 51 12 (g.dst / 4096)) s))

end Sys2Proof.Machine
end

