-- ==== Sys2Proof/Machine/Tiles.lean ====
section
/-! DEFINITION. The tile hierarchy: descriptors, acceptance and splitting, what the leaves compute, completion, TSUB and TWAIT
(spec/12 R299–R307, spec/06 R132–R136, spec/20 R368, spec/22 R385–R387). -/

namespace Sys2Proof.Machine

/-! ### Descriptors (R134) -/

/-- A tile descriptor. -/
structure TDesc where
  base  : Word
  efmt  : Nat
  pt    : Nat
  ms    : Bool
  func  : Nat
  sizes : List Nat
  strs  : List Int
  guard : Word
  aux   : Word
  bad   : Bool
  deriving DecidableEq, Repr

/-- The descriptor of 64 bytes; `bad` says that it breaks R134 (0x019). With MS = 1 and EFMT 0x40 AUX would have two meanings, and R134 says
neither which holds nor that the pair is refused: the model refuses it (DESIGN CHOICE, log 61). -/
def TDesc.ofNat (x : Nat) : TDesc :=
  let efmt := bits x 71 64
  let ms := x.testBit 82
  let sizes := (List.range 4).map fun k => bits x (128 + 32 * k + 31) (128 + 32 * k)
  let aux := bits x 511 448
  { base := BitVec.ofNat 64 x
    efmt := efmt
    pt := bits x 78 72
    ms := ms
    func := bits x 95 88
    sizes := sizes
    strs := (List.range 4).map fun k => sInt 32 (x >>> (256 + 32 * k))
    guard := BitVec.ofNat 64 (x >>> 384)
    aux := BitVec.ofNat 64 aux
    bad := x.testBit 79 || bits x 87 83 != 0 || bits x 127 96 != 0 || (Efmt.ofCode efmt).isNone || sizes.contains 0 ||
      ((List.range 4).any fun k => decide (bits x 81 80 < k) && sizes.getD k 1 != 1) ||
      (aux != 0 && !ms && efmt != 0x40) || (ms && efmt == 0x40) }

def TDesc.size (d : TDesc) (k : Nat) : Nat := d.sizes.getD k 1
def TDesc.fmt (d : TDesc) : Efmt := (Efmt.ofCode d.efmt).getD (.int 8 true)
/-- Bytes of an element. -/
def TDesc.esize (d : TDesc) : Nat := d.fmt.width / 8
/-- Offset of an element, in elements. -/
def TDesc.offset (d : TDesc) (i : List Nat) : Int := strideSum i d.strs
/-- Address of an element, or its weight number. -/
def TDesc.at_ (d : TDesc) (i : List Nat) : Word :=
  if d.efmt = 0x40 then d.base + toWord (d.offset i) else d.base + toWord (d.offset i * d.esize)
/-- Linear index of an element (dimension 0 innermost). -/
def TDesc.linear (d : TDesc) (i : List Nat) : Nat :=
  i.getD 0 0 + d.size 0 * (i.getD 1 0 + d.size 1 * (i.getD 2 0 + d.size 2 * i.getD 3 0))

/-- A box: first index and size of each dimension, dimension 0 first. -/
abbrev Box := List (Nat × Nat)

/-- The indices of a box in linear order. -/
def boxIdx : Box → List (List Nat)
  | [] => [[]]
  | (lo, n) :: r => (boxIdx r).flatMap fun t => (List.range n).map fun i => (lo + i) :: t

def TDesc.box (d : TDesc) : Box := d.sizes.map fun n => (0, n)

/-- Lowest address of the elements and the bytes they span. -/
def TDesc.span (d : TDesc) : Nat × Nat :=
  let dims := d.sizes.zip (d.strs.map (· * (d.esize : Int)))
  (addrPlus d.base.toNat (nestMin dims), (nestMax dims - nestMin dims).toNat + d.esize)

/-- Two byte ranges, each a first address and a length, share a byte. -/
def rangesMeet (x y : Nat × Nat) : Bool := decide (x.1 < y.1 + y.2) && decide (y.1 < x.1 + x.2)

/-- An input, with the trellis record its AUX names if it is trellis-coded. -/
abbrev TileIn := TDesc × Option TRec

/-- The storage that an access of `n` bytes at `ea` reaches, by whatever address, with what a view decodes there: physical address and
length of each piece. -/
def storageOf (s : State) (w : Who) (need : Need) (ea : Word) (n : Nat) : List (Nat × Nat) :=
  (touchOf ea.toNat n).flatMap fun a =>
    let k := min (ea.toNat + n) (4096 * (a.toNat / 4096 + 1)) - a.toNat
    match (translate w need a).run s with
    | .ok x _ =>
      match placeOf s w x.pa with
      | .view off _ =>
        (viewBase + off, k) :: (List.range k).flatMap fun i =>
          (viewRegions s (off + i) 1).flatMap fun e => e.2.sources (off + i - e.2.voff)
      | pl => [(pl.pa, k)]
    | .error _ _ => []

/-- Something the input is made of lies in the storage `out`: its elements, its scale bytes, or the stream and scale bytes of the
weights it names (R269). -/
def TileIn.touches (s : State) (w : Who) (out : List (Nat × Nat)) (d : TileIn) : Bool :=
  let hit (a n : Nat) : Bool := (storageOf s w .load (BitVec.ofNat 64 a) n).any fun q => out.any (rangesMeet q)
  match d.2 with
  | some t =>
    let st := t.streamBytes 0 t.nblk
    (hit st.1 (st.2 - st.1) || hit t.scl t.nblk) &&
      (((boxIdx d.1.box).map fun i => (d.1.at_ i).toNat / t.tr.B).dedup.any fun k =>
        let b := t.streamBytes k (k + 1)
        hit b.1 (b.2 - b.1) || hit (t.scl + k) 1)
  | none =>
    d.1.ms && hit d.1.aux.toNat (d.1.size 1 * d.1.size 2 * d.1.size 3 * ceilDiv (d.1.size 0) 32) ||
      hit d.1.span.1 d.1.span.2 && (boxIdx d.1.box).any fun i => hit (d.1.at_ i).toNat d.1.esize

/-- An output of `n` bytes at `ea` overlaps one of some inputs (R303). -/
def overlapsIn (s : State) (w : Who) (ins : List TileIn) (ea : Word) (n : Nat) : Bool :=
  let out := storageOf s w .store ea n
  ins.any (TileIn.touches s w out)

/-! ### The instructions' operands (R133 Table 11, R304) -/

/-- Words that name descriptors, as places 1 to 3. -/
def tileDescs (top : Nat) (t : TileWord) : List Word :=
  let opt (w : Word) : List Word := if w = 0 then [] else [w]
  match top with
  | 0x02 => t.w1 :: opt t.w2 ++ [t.w3]
  | 0x03 | 0x05 | 0x08 | 0x0C | 0x0D => [t.w1, t.w2]
  | 0x06 => [t.w1, t.w2] ++ opt t.w3
  | 0x0E => []
  | _ => [t.w1, t.w2, t.w3]

/-- Place of the output descriptor in that list. -/
def tileOut (top : Nat) (ds : List TDesc) : Nat :=
  match top with
  | 0x02 => ds.length - 1
  | 0x03 | 0x05 | 0x06 | 0x08 | 0x0C | 0x0D => 1
  | _ => 2

def tdesc (ds : List TDesc) (k : Nat) : TDesc := ds.getD k (TDesc.ofNat 0)

/-- The sorted TOPs, whose dimension 0 is never split. -/
def isSorted (top : Nat) : Bool := top == 0x06 || top == 0x07 || top == 0x08 || top == 0x09

/-- FEAT bits a TOP needs (R304 Table 7): MATRIX, SORTNET. -/
def tileNeed (top : Nat) : Nat := if top = 0x01 ∨ top = 0x04 then 8 else if isSorted top then 2 else 0

/-- Formats a value of the source may be converted to by TCOPY and TEWISE (R304). -/
def convAllowed (s d : TDesc) : Bool :=
  if s.efmt = 13 then d.efmt == 10 || d.efmt == 11 || d.efmt == 12 || d.efmt == 13 else d.efmt != 0x40

def sameDims (ks : List Nat) (x y : TDesc) : Bool := ks.all fun k => x.size k == y.size k
def onesAbove (n : Nat) (d : TDesc) : Bool := (List.range 4).all fun k => decide (k < n) || d.size k == 1

/-- Output formats of TMMA and TCONV by operand class. -/
def macOut (cls : OpClass) (e : Nat) : Bool :=
  match cls with
  | .int8 => e == 5
  | _ => e == 11 || e == 9 || e == 10

def classesOk (a b o : TDesc) : Bool :=
  match opClass a.efmt, opClass b.efmt with
  | some x, some y => x == y && macOut x o.efmt
  | _, _ => false

/-- Table 7 of R304: whether the descriptors and the level keep it. MS is no matter of the table but where a key type reads the patterns
of elements (R225). -/
def tableOk (top lvl : Nat) (w3 : Word) (ds : List TDesc) : Bool :=
  let d (k : Nat) : TDesc := tdesc ds k
  let o := d (tileOut top ds)
  let lvlOk := if top = 0x0D then decide (3 ≤ lvl) else if top = 0x0E then decide (2 ≤ lvl) else decide (1 ≤ lvl)
  let key := o.func % 8
  let keyed (x : TDesc) : Bool := 8 * x.esize == keyWidth key && x.efmt != 13 && x.efmt != 0x40 && !x.ms
  lvlOk &&
  match top with
  | 0x01 =>
    classesOk (d 0) (d 1) o && o.efmt != 0x40 && decide (o.func < 2) && (d 0).size 0 == (d 1).size 1 &&
      (d 0).size 1 == o.size 1 && (d 1).size 0 == o.size 0 && sameDims [2, 3] (d 0) o && sameDims [2, 3] (d 1) o
  | 0x02 =>
    decide (o.func < 7) && sameDims [0, 1, 2, 3] (d 0) o && o.efmt != 0x40 &&
    if o.func < 5 then
      ds.length == 3 && (d 0).efmt == o.efmt && (d 1).efmt == o.efmt && (o.efmt != 13 || (d 0).pt == o.pt && (d 1).pt == o.pt) &&
        (List.range 4).all fun k => (d 1).size k == 1 || (d 1).size k == o.size k
    else ds.length == 2 && convAllowed (d 0) o
  | 0x03 =>
    decide (o.func < 3) && o.efmt != 0x40 && (d 0).efmt == o.efmt && (o.efmt != 13 || (d 0).pt == o.pt) &&
      (List.range 4).all fun k => if w3.getLsbD k then o.size k == 1 else o.size k == (d 0).size k
  | 0x04 =>
    classesOk (d 0) (d 1) o && o.func == 0 && onesAbove 3 (d 0) && onesAbove 3 o && (d 0).size 0 == (d 1).size 0 &&
      o.size 0 == (d 1).size 3 && (d 1).size 1 + o.size 1 == (d 0).size 1 + 1 && (d 1).size 2 + o.size 2 == (d 0).size 2 + 1
  | 0x05 => decide (o.func < 2) && sameDims [0, 1, 2, 3] (d 0) o && convAllowed (d 0) o
  | 0x06 =>
    decide (o.func < 16) && keyed (d 0) && keyed o && sameDims [0, 1, 2, 3] (d 0) o &&
      (decide (ds.length < 3) || (d 2).efmt != 0x40 && sameDims [0, 1, 2, 3] (d 0) (d 2))
  | 0x07 =>
    decide (o.func < 16) && keyed (d 0) && keyed (d 1) && keyed o && o.size 0 == (d 0).size 0 + (d 1).size 0 &&
      sameDims [1, 2, 3] (d 0) o && sameDims [1, 2, 3] (d 1) o
  | 0x08 =>
    let k := w3.toNat % 2 ^ 32
    decide (o.func < 16) && keyed (d 0) && keyed o && o.size 0 == k && decide (k ≤ (d 0).size 0) && sameDims [1, 2, 3] (d 0) o
  | 0x09 =>
    decide (o.func < 16) && keyed (d 0) && keyed (d 1) && keyed o && o.size 0 == (d 0).size 0 + 1 &&
      sameDims [1, 2, 3] (d 0) o && sameDims [1, 2, 3] (d 1) o
  | 0x0A =>
    o.func == 0 && ((d 1).efmt == 5 || (d 1).efmt == 6) && (d 0).efmt == o.efmt && o.efmt != 0x40 && (o.efmt != 13 || (d 0).pt == o.pt) &&
      onesAbove 2 (d 0) && onesAbove 1 (d 1) && onesAbove 2 o && (d 0).size 0 == o.size 0 && (d 1).size 0 == o.size 1
  | 0x0B =>
    o.func == 0 && ((d 1).efmt == 5 || (d 1).efmt == 6) && onesAbove 2 (d 0) && onesAbove 1 (d 1) && onesAbove 2 o &&
      (d 0).size 0 == o.size 0 && (d 0).size 1 == (d 1).size 0 &&
      (if o.efmt = 13 then (d 0).efmt != 0x40 else (d 0).efmt == o.efmt && decide (1 ≤ o.efmt) && decide (o.efmt ≤ 12))
  | 0x0C => o.func == 0 && (d 0).efmt == 11 && !(d 0).ms && o.efmt == 6 && onesAbove 2 (d 0) && onesAbove 1 o && (d 0).size 1 == o.size 0
  | 0x0D => (d 0).efmt == 11 && o.efmt == 2 && o.func == 0 && onesAbove 1 (d 0)
  | 0x0E => true
  | _ => false

/-! ### Healthy children and shares (R300, R301) -/

def unitsBelow (lvl u : Nat) (only : Option Nat) : List Nat :=
  if lvl = 1 then (List.range 4).map (4 * u + ·)
  else if lvl = 2 then (List.range 10).map (10 * u + ·)
  else if lvl = 3 then ((List.range 8).map (8 * u + ·)).filter fun p => only.isNone || only == some p
  else [0, 1]

/-- A core in service with the FEAT bits of a mask. -/
def State.coreHealthy (s : State) (c need : Nat) : Bool := (s.core c).inService && (s.core c).feat.toNat &&& need == need

/-- The healthy children of a unit, by rising number. -/
def healthyBelow (s : State) (need : Nat) (only : Option Nat) : Nat → Nat → List Nat
  | 0, _ => []
  | 1, u => (unitsBelow 1 u only).filter fun c => s.coreHealthy c need
  | l + 2, u => (unitsBelow (l + 2) u only).filter fun v => !(healthyBelow s need only (l + 1) v).isEmpty

/-- Shares of `n` entries among `h` children: first and number of each. -/
def sharesOf (n h : Nat) : List (Nat × Nat) :=
  (List.range h).map fun j => (j * (n / h) + min j (n % h), n / h + if j < n % h then 1 else 0)

/-- The boxes of `h` children; `dims` are the dimensions that may be split, outermost first. -/
def splitBox (dims : List Nat) (b : Box) (h : Nat) : List (Option Box) :=
  let size (k : Nat) : Nat := (b.getD k (0, 1)).2
  match (dims.find? fun k => decide (h ≤ size k)).or (dims.find? fun k => decide (1 < size k)) with
  | none => some b :: List.replicate (h - 1) none
  | some k =>
    let lo := (b.getD k (0, 1)).1
    (sharesOf (size k) h).map fun x => if x.2 = 0 then none else some (b.set k (lo + x.1, x.2))

/-- The leaves of a tile: level `l`, unit `u`, box `b`. -/
def splitTile (s : State) (need : Nat) (only : Option Nat) (dims : List Nat) : Nat → Nat → Box → List Leaf
  | 0, c, b => [⟨c, b⟩]
  | l + 1, u, b =>
    let ks := healthyBelow s need only (l + 1) u
    (ks.zip (splitBox dims b ks.length)).flatMap fun x => match x.2 with
      | some b => splitTile s need only dims l x.1 b
      | none => []

/-! ### Elements -/

/-- The agent of a leaf or a decomposer of a job; one whose addresses are physical belongs to the partition it runs in. At level 1
the submitter's release reaches its cluster only (R93), through whose caches the leaves then act; the own-cluster alias is nothing to
an engine (R53). -/
def TileJob.who (j : TileJob) (cl : Nat) : Who :=
  { part := if j.phys then cl / 10 else j.part, user := j.user, cl := none, watch := false, phys := j.phys
    via := if bits j.word.toNat 55 53 = 1 then some cl else none, tag := j.tag }

/-- The pattern of an element; damage is reported as consumed by an engine (R377). -/
def TDesc.raw (d : TDesc) (w : Who) (i : List Nat) : M Nat := load w accEngine d.esize (d.at_ i) d.esize

/-- The scale byte of an element (R134). -/
def TDesc.scaleByte (d : TDesc) (w : Who) (i : List Nat) : M Nat :=
  let row := i.getD 1 0 + d.size 1 * (i.getD 2 0 + d.size 2 * i.getD 3 0)
  load w accEngine 1 (d.aux + BitVec.ofNat 64 (row * ceilDiv (d.size 0) 32 + i.getD 0 0 / 32)) 1

/-- The value of an element, with its scale (R134), or its weight (R269); a weight number past the record's end is 0x17C. -/
def TDesc.val (d : TDesc) (w : Who) (tr : Option TRec) (i : List Nat) : M FVal := do
  match tr with
  | some r =>
    let n := (d.at_ i).toNat
    raiseIf (decide (r.weights ≤ n)) 0x17C
    let (c, p) ← weightFrom (fun ea => do return (← load w accEngine 1 ea 1, false)) r n
    let _ := p
    return r.tr.fmt.decode c.1
  | none =>
    let x ← d.raw w i
    let v := d.fmt.value d.pt x
    if d.ms then return scaleVal (← d.scaleByte w i) v else return v

/-- The integer a value is, if it is one. -/
def FVal.whole? : FVal → Option Int
  | .num n m e => if 0 ≤ e then some (signed n (m <<< e.toNat)) else if m % 2 ^ (-e).toNat = 0 then some (signed n (m >>> (-e).toNat)) else none
  | _ => none

/-- A value put into a format: rounded by a float format; wrapped by an integer or an exact word, where the spec states no result for
one that is not whole (`from_` is what it was computed from). -/
def TDesc.encode (o : TDesc) (v : FVal) (from_ : List Nat) : Nat :=
  match o.fmt with
  | .int w _ => match v.whole? with
    | some x => wrap w x
    | none => Config.unstated from_ % 2 ^ w
  | .exact => match (match v with
      | .num n m e => FVal.num n m (e + o.pt)
      | y => y).whole? with
    | some x => exactWord x
    | none => Config.unstated from_ % 2 ^ 128
  | e => (e.put .rne false v).1

/-- A value put into an output element; one that R110 refuses is the leaf's fault (R304). -/
def TDesc.pack (o : TDesc) (sat : Bool) (v : FVal) : Except Nat Nat :=
  match o.fmt with
  | .exact =>
    match exactAddend o.pt v with
    | .ok r => .ok (exactWord r.1)
    | .error code => .error code
  | e => .ok (e.put .rne sat v).1

/-- How a value enters an output element: as a result of the format's arithmetic, as VFCVT converts it (R107, R110, R214), or between
integer formats (R304). -/
inductive Fit where
  | arith
  | convert (sat : Bool)
  | whole (sat : Bool)
  deriving DecidableEq, Repr

/-- What a leaf writes into an output element: a pattern as it stands, a pattern whose value is the result, or a value. -/
inductive TOut where
  | raw (x : Nat)
  | bits (x : Nat)
  | val (how : Fit) (v : FVal) (from_ : List Nat)
  deriving DecidableEq, Repr

/-- The pattern by which an element holds a value. -/
def TDesc.fit (o : TDesc) (how : Fit) (v : FVal) (from_ : List Nat) : Except Nat Nat :=
  match how, o.fmt, v.whole? with
  | .whole true, .int w u, some x => .ok (wrap w (clampTo w u x).1)
  | .convert sat, _, _ => o.pack sat v
  | _, _, _ => .ok (o.encode v from_)

/-- A value divided by the scale `e` (R108). -/
def unscale (e : Nat) (v : FVal) : FVal := if e = 255 then .nan false else scaleVal (254 - e) v

/-- What an output element whose scale byte is `e` then holds: with a scale, the result divided by it and rounded once (R108; DEDUCED,
log 40). -/
def TDesc.holds (o : TDesc) (e : Nat) : TOut → Except Nat Nat
  | .raw x => .ok x
  | .bits x => if o.ms then .ok (o.encode (unscale e (o.fmt.value o.pt x)) [1, o.efmt, o.pt, e, x]) else .ok x
  | .val how v from_ => if o.ms then o.fit how (unscale e v) (e :: from_) else o.fit how v from_

/-- Write an output element, but for one that overlaps an input: that one is unspecified, and is left until the record is
written (R303). -/
def tput (w : Who) (ins : List TileIn) (o : TDesc) (i : List Nat) (x : TOut) : M Unit := do
  if overlapsIn (← get) w ins (o.at_ i) o.esize then pure ()
  else
    let e ← if o.ms then o.scaleByte w i else pure 0
    match o.holds e x with
    | .ok y => store w accEngine o.esize (o.at_ i) o.esize y
    | .error code => raise code

/-- The conversion of TCOPY and of TEWISE operations 5 and 6 (R304). -/
def tconvert (w : Who) (a : TDesc) (tr : Option TRec) (o : TDesc) (sat : Bool) (i : List Nat) : M TOut := do
  let scaled := a.ms || o.ms
  if a.efmt == o.efmt && !scaled && tr.isNone && (a.efmt != 13 || a.pt == o.pt) then return .bits (← a.raw w i)
  else
    match a.fmt, o.fmt with
    | .int _ _, .int _ _ => return .val (.whole sat) (← a.val w tr i) [2, a.efmt, o.efmt, b2n sat, ← a.raw w i]
    | .exact, .fp f =>
      if scaled then return .val (.convert sat) (← a.val w tr i) []
      else return .bits (f.ofExact (exactInt (← a.raw w i)) a.pt).1
    | _, _ => return .val (.convert sat) (← a.val w tr i) [2, a.efmt, o.efmt]

/-- Operations 0 to 4 of TEWISE, and the nodes of TREDUCE, on patterns of one format: add, sub, mul, min, max. -/
def tileOp (e : Efmt) (op x y : Nat) : Nat :=
  let int (a b : Int) : Int := if op = 0 then a + b else if op = 1 then a - b else if op = 2 then a * b
    else if op = 3 then min a b else max a b
  match e with
  | .int w u => wrap w (int (opv w u x) (opv w u y))
  | .exact => wrap 128 (int (exactInt x) (exactInt y))
  | .fp f =>
    (if op = 0 then f.add .rne x y else if op = 1 then f.sub .rne x y else if op = 2 then f.mul .rne x y
      else f.minmax (op == 4) x y).1
  | _ => 0

/-- The exact result of the same on values: those of a binary8 format, or with a scale. -/
def tileVal (op : Nat) (x y : FVal) : FVal :=
  if op = 0 then (addVal .rne x y).1 else if op = 1 then (addVal .rne x y.neg).1 else if op = 2 then (mulVal x y).1
  else if x.isNan then y else if y.isNan then x
  else if (decide (cmpVal x y < 0) || cmpVal x y == 0 && x.sign && !y.sign) == (op == 3) then x else y

/-! ### What the leaves compute (R302, R304) -/

/-- What a leaf works with: its agent, its core, the descriptors and their trellis records, the output, the inputs an output
element may not overlap, word 3, and the trellis record it names. -/
structure LeafEnv where
  who  : Who
  core : Nat
  ds   : List TDesc
  trs  : List (Option TRec)
  o    : TDesc
  ins  : List TileIn
  w3   : Word
  sub  : Bool
  extra : Option TRec
  box  : Box

def LeafEnv.d (v : LeafEnv) (k : Nat) : TDesc := tdesc v.ds k
def LeafEnv.val (v : LeafEnv) (k : Nat) (i : List Nat) : M FVal := (v.d k).val v.who (v.trs.getD k none) i
def LeafEnv.put (v : LeafEnv) (i : List Nat) (x : TOut) : M Unit := tput v.who v.ins v.o i x

/-- What an element of operand `k` holds, for an output of its format: its pattern, or with a scale its value. -/
def LeafEnv.copy (v : LeafEnv) (k : Nat) (i : List Nat) : M TOut := do
  let x ← (v.d k).raw v.who i
  if (v.d k).ms then return .val .arith (← v.val k i) [3, (v.d k).efmt, x] else return .bits x

/-- The entry of TMMA or TCONV by R113. Products of integers with scales add exactly; where a chunk's sum is no integer R113 states no
entry. -/
def tileMac (cls : OpClass) (acc : Nat) (start : Bool) (xs ys : List FVal) : Nat :=
  match cls with
  | .int8 =>
    let sums := (chunksOf 32 xs.length (xs.zip ys)).map fun c => (chunkSum (c.map fun p => mulVal p.1 p.2)).1.whole?
    if sums.all Option.isSome then
      (macInt acc (!start) (sums.map fun x => [(.num (decide (x.getD 0 < 0)) (x.getD 0).natAbs 0, false)])).1
    else Config.unstated [9, b2n start, acc] % 2 ^ 32
  | _ => (macEntry cls acc (!start) false xs ys).1

/-- An output entry of TMMA or TCONV: its start, its products by R113, and its format at the end. -/
def macOutput (v : LeafEnv) (i : List Nat) (start : Bool) (xs ys : List FVal) : M Unit := do
  let acc ← if start then do
      match v.o.fmt with
      | .fp _ => pure (fp32.ofVal .rne (← v.o.val v.who none i)).1
      | _ => if v.o.ms then do pure (v.o.encode (← v.o.val v.who none i) [3, v.o.efmt]) else v.o.raw v.who i
    else pure 0
  let r := tileMac ((opClass (v.d 0).efmt).getD .int8) acc start xs ys
  v.put i (match v.o.fmt with
    | .fp _ => .val .arith (fp32.decode r) []
    | _ => .bits r)

def leafTmma (v : LeafEnv) : M Unit :=
  (boxIdx v.box).forM fun i => do
    let n := i.getD 0 0
    let m := i.getD 1 0
    let ks := List.range ((v.d 0).size 0)
    let xs ← ks.mapM fun k => v.val 0 [k, m, i.getD 2 0, i.getD 3 0]
    let ys ← ks.mapM fun k => v.val 1 [n, k, i.getD 2 0, i.getD 3 0]
    macOutput v i (v.o.func % 2 == 1) xs ys

def leafTconv (v : LeafEnv) : M Unit :=
  (boxIdx v.box).forM fun i => do
    let f := v.d 1
    -- k = (fh × FW + fw) × C + c
    let ks := boxIdx [(0, f.size 0), (0, f.size 1), (0, f.size 2)]
    let xs ← ks.mapM fun k => v.val 0 [k.getD 0 0, i.getD 1 0 + k.getD 1 0, i.getD 2 0 + k.getD 2 0, 0]
    let ys ← ks.mapM fun k => v.val 1 [k.getD 0 0, k.getD 1 0, k.getD 2 0, i.getD 0 0]
    macOutput v i false xs ys

def leafTewise (v : LeafEnv) : M Unit :=
  (boxIdx v.box).forM fun i => do
    let op := v.o.func
    if 5 ≤ op then v.put i (← tconvert v.who (v.d 0) (v.trs.getD 0 none) v.o (op == 6) i)
    else
      let b := v.d 1
      let j := i.mapIdx fun k x => if b.size k = 1 then 0 else x
      let a := v.d 0
      let x ← a.raw v.who i
      let y ← b.raw v.who j
      let vals : Bool := a.ms || b.ms || v.o.ms || (match v.o.fmt with
        | .b8 _ => true
        | _ => false)
      if v.o.efmt = 13 && op = 2 then
        -- the spec states no product of two exact words
        v.put i (.raw (Config.unstated [5, a.pt, x, y] % 2 ^ 128))
      else if vals then v.put i (.val .arith (tileVal op (← v.val 0 i) (← v.val 1 j)) [4, op, a.efmt, x, y])
      else v.put i (.bits (tileOp v.o.fmt op x y))

def leafTcopy (v : LeafEnv) : M Unit :=
  (boxIdx v.box).forM fun i => do v.put i (← tconvert v.who (v.d 0) (v.trs.getD 0 none) v.o (v.o.func % 2 == 1) i)

/-- The chunks of 256 of a list. -/
def leafChunks {α : Type} : Nat → List α → List (List α)
  | 0, _ => []
  | _, [] => []
  | n + 1, l => l.take 256 :: leafChunks n (l.drop 256)

/-- A reduction (R302): the tree of R114 in each chunk, then the chunks in order. -/
def reduceAll {α : Type} (g : α → α → α) (l : List α) : Option α :=
  let root (c : List α) : Option α :=
    let w := pow2AtLeast c.length
    treeRoot g (Nat.log2 w) ((List.range w).map fun i => (c.map some).getD i none)
  match (leafChunks l.length l).filterMap root with
  | [] => none
  | x :: r => some (r.foldl g x)

/-- TREDUCE (R302): values are exact until a node rounds them (R108). -/
def leafTreduce (v : LeafEnv) : M Unit :=
  (boxIdx v.box).forM fun i => do
    let a := v.d 0
    let b : Box := i.mapIdx fun k x => if v.w3.getLsbD k then (0, a.size k) else (x, 1)
    let op := if v.o.func = 0 then 0 else v.o.func + 2
    let vals : Bool := a.ms || v.o.ms || (match v.o.fmt with
      | .b8 _ => true
      | _ => false)
    let raws ← (boxIdx b).mapM fun j => a.raw v.who j
    if vals then
      let xs ← (boxIdx b).mapM fun j => v.val 0 j
      let node (x y : FVal) : FVal := v.o.fmt.value v.o.pt (v.o.encode (tileVal op x y) (6 :: op :: raws))
      v.put i (.val .arith ((reduceAll node xs).getD (.num false 0 0)) (7 :: op :: raws))
    else v.put i (.bits ((reduceAll (tileOp v.o.fmt op) raws).getD 0))

/-- The rows of a box: one index of dimensions 1 to 3 each. -/
def boxRows (b : Box) : List (List Nat) := boxIdx (b.drop 1)

/-- The keys of a row. -/
def LeafEnv.row (v : LeafEnv) (k : Nat) (r : List Nat) : M (List Nat) :=
  (List.range ((v.d k).size 0)).mapM fun i => (v.d k).raw v.who (i :: r)

/-- The same, a damaged key being 0x0BC (R378); a damaged table entry met on the way keeps its own code (R376). -/
def LeafEnv.keyRow (v : LeafEnv) (k : Nat) (r : List Nat) : M (List Nat) := do
  match ← attempt (v.row k r) with
  | .ok l => return l
  | .error c => throw (.cause (if c.code / 32 = 5 && c.code != 0x0AB then { c with code := 0x0BC } else c))

def LeafEnv.key (v : LeafEnv) : Nat := v.o.func % 8
def LeafEnv.desc (v : LeafEnv) : Bool := v.o.func.testBit 3

/-- TSORT (R236, R304). A payload element moves as it stands; where it has a scale and the new place has another, its value is divided by
that (DEDUCED, log 40). -/
def leafTsort (v : LeafEnv) : M Unit :=
  (boxRows v.box).forM fun r => do
    let p := v.d 2
    let ks ← v.row 0 r
    let ps ← if v.sub then v.row 2 r else pure []
    let es ← if v.sub && p.ms then (List.range ks.length).mapM fun i => p.scaleByte v.who (i :: r) else pure []
    let out := sortKP v.key v.desc (ks.mapIdx fun i x => (x, i))
    (out.zipIdx).forM fun e => v.put (e.2 :: r) (.bits e.1.1)
    if v.sub then (out.zipIdx).forM fun e => do
      let x := ps.getD e.1.2 0
      let y : TOut := if es.getD e.1.2 0 = es.getD e.2 0 then .raw x
        else .val .arith (scaleVal (es.getD e.1.2 0) (p.fmt.value p.pt x)) [8, p.efmt, es.getD e.1.2 0, x]
      tput v.who [(v.d 0, none)] p (e.2 :: r) y

def leafTtopk (v : LeafEnv) : M Unit :=
  (boxRows v.box).forM fun r => do
    let out := (sortKP v.key v.desc ((← v.row 0 r).map fun x => (x, 0))).take (v.o.size 0)
    (out.zipIdx).forM fun e => v.put (e.2 :: r) (.bits e.1.1)

/-- Rows A and B of TMERGE and TINTER, in order (R368). -/
def LeafEnv.runs (v : LeafEnv) (r : List Nat) : M (List Nat × List Nat) := do
  let a ← v.keyRow 0 r
  let b ← v.keyRow 1 r
  raiseIf (!inOrder v.key v.desc a) 0x0CF
  raiseIf (!inOrder v.key v.desc b) 0x0DF
  return (a, b)

def leafTmerge (v : LeafEnv) : M Unit :=
  (boxRows v.box).forM fun r => do
    let (a, b) ← v.runs r
    let out := mergeKP v.key v.desc (a.length + b.length) (a.map fun x => (x, 0)) (b.map fun x => (x, 0))
    (out.zipIdx).forM fun e => v.put (e.2 :: r) (.bits e.1.1.1)

def leafTinter (v : LeafEnv) : M Unit :=
  (boxRows v.box).forM fun r => do
    let (a, b) ← v.runs r
    let out := (matchKP v.key v.desc true (a.length + b.length + 1) (a.map fun x => (x, 0)) b).map Prod.fst
    (List.range (a.length + 1)).forM fun i => v.put (i :: r) (.bits (if i = 0 then out.length else out.getD (i - 1) 0))

/-- The index an element of TGATHER and TSCADD names, inside `n`. -/
def LeafEnv.index (v : LeafEnv) (j n : Nat) : M (Option Nat) := do
  return match (← v.val 1 [j, 0, 0, 0]).whole? with
    | some x => if 0 ≤ x && decide (x < n) then some x.toNat else none
    | none => none

def leafTgather (v : LeafEnv) : M Unit :=
  (boxIdx v.box).forM fun i => do
    match ← v.index (i.getD 1 0) ((v.d 0).size 1) with
    | some r => v.put i (← v.copy 0 [i.getD 0 0, r, 0, 0])
    | none => v.put i (.bits 0)

/-- Update format of a target element (R64, R304). -/
def TDesc.upd (d : TDesc) : UpdFmt :=
  match d.fmt with
  | .int w _ => .int (w / 8)
  | .fp f => updFmtOf f.width (f == bf16)
  | _ => .exact

/-- An addend of TSCADD joins its target at the home of the target: the update lines of a leaf are merged before it ends, one after
another, so that a re-issue writes the same bits (R65, R387). -/
def tileAdd (w : Who) (fmt : UpdFmt) (ea : Word) (x : Int) : M Unit := do
  let pl ← locate w .store accEngine fmt.bytes ea fmt.bytes
  match w.stale ea fmt.bytes (← get), pl with
  | some slot, _ => modify (dropKv w.part slot)
  | none, .cell pa _ => modify (addHome pa fmt.bytes fun old free => mergeElem old free fmt [x])
  | none, _ => raise (0x098 + accEngine) ea

/-- TSCADD (R304): an addend takes the target's format. With a scale at the target the addend is divided by it, as what the target holds
is (DEDUCED, log 40). -/
def leafTscadd (v : LeafEnv) : M Unit := do
  let a := v.d 0
  (List.range (a.size 1)).forM fun j => do
    match ← v.index j (v.o.size 1) with
    | none => pure ()
    | some r =>
      let rows := v.box.getD 1 (0, 1)
      if rows.1 ≤ r && decide (r < rows.1 + rows.2) then
        let es := v.box.getD 0 (0, 1)
        (List.range es.2).forM fun k => do
          let e := es.1 + k
          let ea := v.o.at_ [e, r, 0, 0]
          let raw ← a.raw v.who [e, j, 0, 0]
          let scaled := a.ms || v.o.ms
          let val ← do
            let y ← v.val 0 [e, j, 0, 0]
            if v.o.ms then pure (unscale (← v.o.scaleByte v.who [e, r, 0, 0]) y) else pure y
          let x : Int ← if v.o.efmt = 13 then
              if a.efmt = 13 && a.pt == v.o.pt && !scaled then pure (exactInt raw)
              else
                match exactAddend v.o.pt val with
                | .ok y => pure y.1
                | .error code => raise code
            else pure (((if scaled then v.o.encode val [3, a.efmt, raw] else raw) : Nat) : Int)
          if !overlapsIn (← get) v.who v.ins ea v.o.esize then tileAdd v.who v.o.upd ea x

/-- TSAMPLE (R305): the record is checked at the leaf (0x01E). -/
def leafTsample (v : LeafEnv) : M Unit := do
  let x ← load v.who accEngine 32 v.w3 32
  let logp := bits x 191 160
  raiseIf (bits x 255 192 != 0 || logpBad logp) 0x01E
  (boxIdx v.box).forM fun i => do
    let r := i.getD 0 0
    let row ← (List.range ((v.d 0).size 0)).mapM fun c => (v.d 0).raw v.who [c, r, 0, 0]
    v.put i <| .bits (sampleToken (bits x 63 0) ((bits x 127 64 + r) % 2 ^ 64) (bits x 159 128) logp row)

/-- The blocks of a TENC leaf: those whose first bit lies in a byte of its share of the stream, the last byte standing for what lies
beyond the descriptor. -/
def LeafEnv.blocks (v : LeafEnv) (r : TRec) : List Nat :=
  let mine := (boxIdx v.box).map v.o.linear
  (List.range r.nblk).filter fun k => mine.contains (min (k * r.tr.bits / 8) (v.o.sizes.prod - 1))

/-- TENC (R304): ZENC over the weights of its blocks. -/
def leafTenc (v : LeafEnv) : M Unit :=
  match v.extra with
  | none => raise 0x16A
  | some r =>
    (v.blocks r).forM fun k => do
      let ts ← (List.range r.tr.B).mapM fun i => do
        match ← v.val 0 [k * r.tr.B + i, 0, 0, 0] with
        | .num n m e => return FVal.num n m e
        | _ => raise 0x17B
      let (e, stream) := encodeBlock r.tr ts
      let s ← get
      zWrite v.who r k e stream (fun ea => loadHome v.who accEngine 1 ea 1) fun ea => overlapsIn s v.who v.ins ea 1

def leafOp (top : Nat) (v : LeafEnv) : M Unit :=
  match top with
  | 0x01 => leafTmma v
  | 0x02 => leafTewise v
  | 0x03 => leafTreduce v
  | 0x04 => leafTconv v
  | 0x05 => leafTcopy v
  | 0x06 => leafTsort v
  | 0x07 => leafTmerge v
  | 0x08 => leafTtopk v
  | 0x09 => leafTinter v
  | 0x0A => leafTgather v
  | 0x0B => leafTscadd v
  | 0x0C => leafTsample v
  | 0x0D => leafTenc v
  | _ => pure ()

/-! ### Acceptance (R299, R303, R368) -/

def decKey (lvl unit : Nat) : Nat := lvl * 256 + unit
def State.dec (s : State) (d : Nat) : Decomposer := s.decs.get d Decomposer.reset
def State.setDec (s : State) (d : Nat) (x : Decomposer) : State := { s with decs := s.decs.set d x }

/-- The first cluster of a unit, whose number stands for the unit where an address needs one. -/
def unitCluster (lvl u : Nat) : Nat := if lvl = 1 then u else if lvl = 2 then 10 * u else if lvl = 3 then 80 * u else 0

/-- A unit in the positions of LOC (R13, R385). -/
def unitLoc (lvl u : Nat) : Nat :=
  if lvl = 1 then locOf (u / 10) (u % 10) 0 0 else if lvl = 2 then locOf u 0 0 0 else if lvl = 3 then locOf (8 * u) 0 0 0 else 0

def TileJob.top (j : TileJob) : Nat := j.word.toNat / 2 ^ 56 % 256
def TileJob.lvl (j : TileJob) : Nat := bits j.word.toNat 55 53
def TileJob.fp (j : TileJob) : Bool := j.word.getLsbD 52
def TileJob.crec (j : TileJob) : Word := BitVec.ofNat 64 (bits j.word.toNat 47 0)
def TileJob.w3 (j : TileJob) : Word := BitVec.ofNat 64 (j.word.toNat >>> 192)

/-- A level reads a trellis record: 0x16A where it breaks R268. -/
def readTrec (w : Who) (ea : Word) : M (BitVec 512) := do
  let x ← load w accEngine 64 ea 64
  raiseIf (TRec.ofNat x).isNone 0x16A
  return BitVec.ofNat 512 x

/-- Acquire an input guard once (R134). -/
def readGuard (w : Who) (d : TDesc) : M Unit := do
  if d.guard != 0 then
    let _ ← loadHome w accEngine 8 d.guard 8

/-- The accepting level reads and checks the descriptors. -/
def readDescs (w : Who) (top : Nat) (t : TileWord) : M (List (BitVec 512)) :=
  (tileDescs top t).mapM fun ea => do
    let x ← load w accEngine 64 ea 64
    raiseIf (TDesc.ofNat x).bad 0x019
    return BitVec.ofNat 512 x

/-- The accepting level's checks of what the descriptors `raw` say, before any trellis record or input is read (R304), and the
split. The payload descriptor of TSORT is read and written, and R134 does not say which its GUARD counts as: the model acquires it as an
input's and never releases it (DEDUCED, log 62). -/
def acceptM (top lvl unit : Nat) (t : TileWord) (j : TileJob) (raw : List (BitVec 512)) :
    M (List (BitVec 512) × List Leaf) := do
  let w := j.who (unitCluster lvl unit)
  let ds := raw.map fun x => TDesc.ofNat x.toNat
  raiseIf (!tableOk top lvl t.w3 ds) (0x1A0 + 4 * lvl)
  let dims := if isSorted top then [3, 2, 1] else [3, 2, 1, 0]
  let leaves := splitTile (← get) (tileNeed top) j.only dims lvl unit (tdesc ds (tileOut top ds)).box
  raiseIf leaves.isEmpty (0x1A1 + 4 * lvl)
  let data ← ds.mapM fun d => if d.efmt = 0x40 then readTrec w d.aux else pure 0
  let data ← if top = 0x0D then do pure (data ++ [← readTrec w t.w3]) else pure data
  let encOk := top != 0x0D || match TRec.ofNat (data.getLastD 0).toNat with
    | some r => (tdesc ds 0).size 0 == r.weights && (tdesc ds 1).base.toNat == r.strm
    | none => false
  raiseIf (!encOk) (0x1A0 + 4 * lvl)
  (ds.zipIdx).forM fun e => if e.2 = tileOut top ds then pure () else readGuard w e.1
  return (data, leaves)

/-- Whom a fault of a tile instruction stops (R386): every later one of its submitter at the same decomposer. -/
def stopSiblings (d : Nat) (job : TileJob) (after : Nat) (code flvl : Nat) (s : State) : State :=
  let x := s.dec d
  let same (k : TileJob) : Bool := k.sub == job.sub
  let running := x.running.mapIdx fun i r =>
    if after < i && same r.job then { r with sibling := r.sibling.or (some (code, flvl)) } else r
  let hit := x.queue.filter same
  let stopped : List TileRun := hit.map fun k => ⟨k, [], [], [], [], 0, none, some (code, flvl), []⟩
  s.setDec d { queue := x.queue.filter fun k => !same k, running := running ++ stopped }

/-- Runs that occupy a decomposer: those a sibling's fault stopped only wait for their records. -/
def Decomposer.busy (x : Decomposer) : Nat := (x.running.filter fun r => r.sibling.isNone).length

/-- Keep a report, if it is the first (R385), and apply the fault policy. -/
def reportFault (d i : Nat) (rep : Report) (pa : Nat) (s : State) : State :=
  let x := s.dec d
  match x.running[i]? with
  | none => s
  | some r =>
    let first := r.report.isNone
    let s := s.setDec d { x with running := x.running.set i { r with report := some (r.report.getD rep) } }
    let s := if rep.code / 32 = 5 then logError rep.code pa (some r.job.part) rep.leaf s else s
    if first && !r.job.fp then stopSiblings d r.job i rep.code rep.flvl s else s

/-- Start a run at decomposer `d`: `pre` reads the descriptors and `m` does the rest. A failure of the accepting level is its
report; while it lacks a line of another device the instruction stays queued. -/
def startRun (d lvl unit : Nat) (job : TileJob) (pre : M (List (BitVec 512))) (m : List (BitVec 512) → M TileRun) (s : State) :
    State :=
  let x := s.dec d
  let s0 := s.setDec d { x with queue := x.queue.drop 1 }
  let add (r : TileRun) (s : State) : State := s.setDec d { s.dec d with running := (s.dec d).running ++ [r] }
  let failed (raw : List (BitVec 512)) (c : Cause) (s : State) : State :=
    let s := keepTlbOf job.part s0 s
    reportFault d (s.dec d).running.length ⟨c.code, lvl, unitLoc lvl unit, 0⟩ c.pa
      (add ⟨job, raw, [], [], [], 0, none, none, []⟩ s)
  let s1 := s
  match pre.run s0 with
  | .ok raw s =>
    match (m raw).run s with
    | .ok r s => add r s
    | .error (.cause c) s => failed raw c s
    | .error (.wait r) _ => serveWait r s1
    | .error _ _ => s1
  | .error (.cause c) s => failed [] c s
  | .error (.wait r) _ => serveWait r s1
  | .error _ _ => s1

/-- The decomposer a tile instruction is chosen at; the device's where none is chosen. -/
def State.chosenDec (s : State) : Nat :=
  match s.chosen with
  | .tile d => d
  | _ => decKey 4 0

/-- A decomposer of level 1 or 2 of a halted partition is paused (R357). -/
def State.decPaused (s : State) (d : Nat) : Bool :=
  match d / 256 with
  | 1 => (s.part (d % 256 / 10)).halted
  | 2 => (s.part (d % 256)).halted
  | _ => false

/-- The chosen decomposer accepts the tile instruction at the head of its queue (R299, R307): it runs up to 8 at once. -/
def acceptTile (top : Nat) (t : TileWord) (s : State) : Out :=
  let d := s.chosenDec
  let s := { s with chosen := .none }
  match (s.dec d).queue with
  | [] => .next s
  | job :: _ =>
    if decide (8 ≤ (s.dec d).busy) || s.decPaused d then .next s
    else
      let lvl := t.lvl.toNat
      let unit := d % 256
      let m (raw : List (BitVec 512)) : M TileRun := do
        let (data, leaves) ← acceptM top lvl unit t job raw
        return ⟨job, raw, data, leaves, [], 0, none, none, []⟩
      .next (startRun d lvl unit job (readDescs (job.who (unitCluster lvl unit)) top t) m s)

def execTmma (t : TileWord) (s : State) : Out := acceptTile 0x01 t s
def execTewise (t : TileWord) (s : State) : Out := acceptTile 0x02 t s
def execTreduce (t : TileWord) (s : State) : Out := acceptTile 0x03 t s
def execTconv (t : TileWord) (s : State) : Out := acceptTile 0x04 t s
def execTcopy (t : TileWord) (s : State) : Out := acceptTile 0x05 t s
def execTsort (t : TileWord) (s : State) : Out := acceptTile 0x06 t s
def execTmerge (t : TileWord) (s : State) : Out := acceptTile 0x07 t s
def execTtopk (t : TileWord) (s : State) : Out := acceptTile 0x08 t s
def execTinter (t : TileWord) (s : State) : Out := acceptTile 0x09 t s
def execTgather (t : TileWord) (s : State) : Out := acceptTile 0x0A t s
def execTscadd (t : TileWord) (s : State) : Out := acceptTile 0x0B t s
def execTsample (t : TileWord) (s : State) : Out := acceptTile 0x0C t s
def execTenc (t : TileWord) (s : State) : Out := acceptTile 0x0D t s

/-! ### TLAUNCH (R306) -/

/-- Add `n` to MEMBERS of a group object in one step; its PHASE. -/
def joinMembers (w : Who) (ea : Word) (n : Nat) : M (Bool × Nat) := do
  let pl ← locate w .rmw accEngine 64 ea 64
  match pl with
  | .cell pa _ =>
    let o := GObj.ofNat (← readHome accEngine ea 64 pl)
    raiseIf (decide (65535 < o.members + n)) 0x127 ea
    raiseIf o.inconsistent 0x128 ea
    modify fun s => physWrite s pa 24 { o with members := o.members + n }.toNat
    return (o.phase, pa)
  | _ => raise (0x098 + accEngine) ea

/-- The partitions a TLAUNCH may use (R300). -/
def launchParts (s : State) (lvl unit : Nat) (req : Nat) (only : Option Nat) : List Nat :=
  if lvl = 2 then [unit]
  else
    ((if lvl = 3 then (List.range 8).map (8 * unit + ·) else List.range 16).filter fun p =>
      (only.isNone || only == some p) && (List.range 40).any fun c => s.coreHealthy (40 * p + c) req)

def tlaunchM (lvl unit : Nat) (t : TileWord) (j : TileJob) : M TileRun := do
  let w := j.who (unitCluster lvl unit)
  raiseIf (decide (lvl < 2)) (0x1A0 + 4 * lvl)
  let x ← load w accEngine 64 t.w1 64
  raiseIf (descBad x) 0x01A
  let s ← get
  let parts := launchParts s lvl unit (descReq x).toNat j.only
  raiseIf parts.isEmpty (0x1A1 + 4 * lvl)
  let n := descCount x
  let shares := ((parts.zip (sharesOf n parts.length)).filter fun q => q.2.2 != 0)
  if shares.any fun q => !queueRoom (s.part q.1) (descPrio x) then throw (.wait (.launchQueue (descPrio x)))
  let g := descGroup x
  let first := (shares.map Prod.fst).headD unit
  -- GROUP is resolved in the lowest partition that receives a share (R335)
  let gw : Who := { w with part := first, phys := false, cl := none }
  let (handle, gpa) ← if descJoin x then do
      let (ph, pa) ← joinMembers gw g n
      pure (some (handleOf g ph), pa)
    else pure (none, 0)
  let mut seqs : List (Nat × Nat) := []
  for q in shares do
    let (s, seq) := queueLaunch (← get) q.1 (BitVec.ofNat 512 x) q.2.1 q.2.2 gpa handle
    set s
    seqs := seqs ++ [(q.1, seq)]
  return ⟨j, [], [], [], [], n, none, none, seqs⟩

def execTlaunch (t : TileWord) (s : State) : Out :=
  let d := s.chosenDec
  let s := { s with chosen := .none }
  match (s.dec d).queue with
  | [] => .next s
  | job :: _ =>
    if decide (8 ≤ (s.dec d).busy) || s.decPaused d then .next s
    else .next (startRun d t.lvl.toNat (d % 256) job (pure []) (fun _ => tlaunchM t.lvl.toNat (d % 256) t job) s)

/-! ### Leaves and completion (R299, R303, R385, R386) -/

/-- The leaf's environment. -/
def TileRun.env (r : TileRun) (l : Leaf) : LeafEnv :=
  let ds := r.descs.map fun x => TDesc.ofNat x.toNat
  let top := r.job.top
  let out := tileOut top ds
  let o := tdesc ds out
  let trs := (ds.zipIdx).map fun e => if e.1.efmt = 0x40 then TRec.ofNat (r.data.getD e.2 0).toNat else none
  let rest : List TileIn := ((ds.zip trs).zipIdx.filter fun e => e.2 != out).map Prod.fst
  { who := r.job.who (l.core / 4)
    core := l.core
    ds := ds
    trs := trs
    o := o
    -- TEWISE or TCOPY whose output descriptor equals its A or source descriptor reads each element first
    ins := if top = 0x02 ∨ top = 0x05 then
        (if r.descs.getD out 0 = r.descs.getD 0 0 then rest.drop 1 else rest)
      else rest
    w3 := r.job.w3
    sub := decide (ds.length = 3) && top == 0x06
    extra := if top = 0x0D then TRec.ofNat (r.data.getLastD 0).toNat else none
    box := l.box }

/-- Whether the cluster of a leaf has unit rows no grant holds (R299). -/
def State.rowsFree (s : State) (c : Nat) : Bool := (s.freeBlocks c).any id

/-- A leaf ends by a cause: it is lost, and its report goes up (R385). -/
def loseLeaf (d j l : Nat) (leaf : Leaf) (c : Cause) (s : State) : State :=
  let x := s.dec d
  match x.running[j]? with
  | none => s
  | some r =>
    let s := s.setDec d { x with running := x.running.set j { r with leaves := removeAt r.leaves l, lost := r.lost ++ [leaf] } }
    let at_ := locOf (leaf.core / 40) (leaf.core / 4 % 10) (leaf.core % 4) 0
    reportFault d j ⟨c.code, 0, at_, (r.env leaf).o.linear (leaf.box.map Prod.fst)⟩ c.pa s

/-- A leaf of a running instruction is not stopped, and has its unit rows (R299). -/
def State.leafOpen (s : State) (r : TileRun) (leaf : Leaf) : Bool :=
  !(r.sibling.isSome || r.report.isSome && !r.job.fp || (s.part (leaf.core / 40)).halted) &&
    !(tileNeed r.job.top == 8 && !s.rowsFree (leaf.core / 4))

/-- A leaf is ready to issue (R34, R299): nothing it needs is still to come. -/
def State.leafReady (s : State) (r : TileRun) (leaf : Leaf) : Bool :=
  s.leafOpen r leaf && match (leafOp r.job.top (r.env leaf)).run s with
    | .error (.wait (.fabric _ _)) _ => true
    | .error (.wait _) _ => false
    | _ => true

/-- The first ready leaf on core `c`: decomposer, instruction and leaf. -/
def State.coreLeaf (s : State) (c : Nat) : Option (Nat × Nat × Nat) :=
  s.decs.findSome? fun e => (e.2.running.zipIdx).findSome? fun r => (r.1.leaves.zipIdx).findSome? fun l =>
    if l.1.core == c && s.leafReady r.1 l.1 then some (e.1, r.2, l.2) else none

/-- TILE_LEAF_RUN: leaf `l` of the running instruction `j` of decomposer `d` runs. Its cause is its report (R385). -/
def execTileLeafRun (d j l : Nat) (s : State) : Out :=
  let x := s.dec d
  match x.running[j]? with
  | none => .next s
  | some r =>
    match r.leaves[l]? with
    | none => .next s
    | some leaf =>
      if !s.leafOpen r leaf then .next s
      else
        let env := r.env leaf
        match (leafOp r.job.top env).run s with
        | .ok _ s =>
          .next (s.setDec d { x with running := x.running.set j { r with leaves := removeAt r.leaves l, done := r.done + 1 } })
        | .error (.cause c) s' => .next (loseLeaf d j l leaf c (keepTlbOf env.who.part s s'))
        | .error (.wait r) _ => .next (serveWait r s)
        | .error _ _ => .next s

/-! ### Damage in a running tile instruction (R385, R388) -/

/-- A leaf lies below a unit. -/
def Leaf.under (l : Leaf) (lvl u : Nat) : Bool :=
  if lvl = 1 then l.core / 4 == u else if lvl = 2 then l.core / 40 == u else if lvl = 3 then l.core / 320 == u else true

/-- The staging storage of unit `u` at level `lvl`, at or below the accepting level, loses part of a running instruction: code
0x1A2 + 4 × level, FLVL that level, ELEM the first output element of the unit's share; its leaves that have not run are lost
(R385). -/
def stagingFault (d j lvl u : Nat) (s : State) : State :=
  match (s.dec d).running[j]? with
  | none => s
  | some r =>
    let env := r.env ⟨0, []⟩
    let dims := if isSorted r.job.top then [3, 2, 1] else [3, 2, 1, 0]
    let share := (splitTile s (tileNeed r.job.top) r.job.only dims (d / 256) (d % 256) env.o.box).filter (·.under lvl u)
    match share with
    | [] => s
    | first :: _ =>
      let x := s.dec d
      let gone := r.leaves.filter (·.under lvl u)
      let s := s.setDec d { x with running := x.running.set j { r with leaves := r.leaves.filter fun l => !l.under lvl u, lost := r.lost ++ gone } }
      reportFault d j ⟨0x1A2 + 4 * lvl, lvl, unitLoc lvl u, env.o.linear (first.box.map Prod.fst)⟩ 0 s

/-- A leaf of TMMA or TCONV that runs in cluster `c`: decomposer, instruction and leaf. -/
def State.matrixLeaf (s : State) (c : Nat) : Option (Nat × Nat × Nat × Leaf) :=
  s.decs.findSome? fun e => (e.2.running.zipIdx).findSome? fun r =>
    if tileNeed r.1.job.top = 8 ∧ r.1.sibling = none then
      ((r.1.leaves.zipIdx).find? fun l => l.1.core / 4 == c).map fun l => (e.1, r.2, l.2, l.1)
    else none

/-- Damaged accumulator storage that a leaf in cluster `c` uses ends the leaf with 0x0BA (R388); whether the entry is one of the
leaf's is free. -/
def leafDamage (c : Nat) (s : State) : State :=
  match s.matrixLeaf c with
  | none => s
  | some (d, j, l, leaf) =>
    let s' := s.tick
    if Config.freeBool s.free then loseLeaf d j l leaf { code := 0x0BA } s' else s'

/-- An output of `n` bytes at `ea` becomes unspecified. -/
def freeAt (w : Who) (ea : Word) (n : Nat) (s : State) : State :=
  match runHeld (locate w .store accEngine n ea n) s with
  | .ok (.cell pa _) s => physWrite s.tick pa n ((Config.freeVec s.free).toNat % 2 ^ (8 * n))
  | _ => s

/-- An output element does. -/
def freeElem (w : Who) (o : TDesc) (i : List Nat) (s : State) : State := freeAt w (o.at_ i) o.esize s

/-- The ranges a leaf's outputs lie in, TENC's being its stream and its scale bytes. -/
def LeafEnv.spans (v : LeafEnv) : List (Word × Nat) :=
  match v.extra with
  | some r =>
    let st := r.streamBytes 0 r.nblk
    [(BitVec.ofNat 64 st.1, st.2 - st.1), (BitVec.ofNat 64 r.scl, r.nblk)]
  | none => [(BitVec.ofNat 64 v.o.span.1, v.o.span.2)]

/-- Descriptors as memory holds them now, those that cannot be read as zeros: what a run that no level accepted goes by. -/
def TileRun.softDescs (w : Who) (r : TileRun) (s : State) : TileRun :=
  if !r.descs.isEmpty then r
  else
    let word (k : Nat) : Word := BitVec.ofNat 64 (r.job.word.toNat >>> (64 * k))
    { r with descs := (tileDescs r.job.top (unpackTile (word 0) (word 1) (word 2) (word 3))).map fun ea =>
        match runHeld (load w accEngine 64 ea 64) s with
        | .ok x _ => if (TDesc.ofNat x).bad then 0 else BitVec.ofNat 512 x
        | .error _ _ => 0 }

/-- What a completed instruction leaves unspecified: the outputs of leaves that did not complete, all of them where no leaf was ever
formed (R386), and the output elements that overlap an input (R303). -/
def freeOutputs (w : Who) (r : TileRun) (s : State) : State :=
  if r.descs.isEmpty then s
  else
    let env := r.env ⟨0, []⟩
    let never := r.leaves.isEmpty && r.lost.isEmpty && r.done == 0
    let lost := if never then boxIdx env.o.box else (r.lost ++ r.leaves).flatMap fun l => boxIdx l.box
    let s := lost.foldl (fun s i => freeElem w env.o i s) s
    let s := if env.sub then lost.foldl (fun s i => freeElem w (env.d 2) i s) s else s
    let overlap (ins : List TileIn) (spans pieces : List (Word × Nat)) (s : State) : State :=
      if spans.any fun e => overlapsIn s w ins e.1 e.2 then
        (pieces.filter fun e => overlapsIn s w ins e.1 e.2).foldl (fun s e => freeAt w e.1 e.2 s) s
      else s
    let elems (o : TDesc) : List (Word × Nat) := (boxIdx o.box).map fun i => (o.at_ i, o.esize)
    let bytes (e : Word × Nat) : List (Word × Nat) := (List.range e.2).map fun i => (e.1 + BitVec.ofNat 64 i, 1)
    let s := overlap env.ins env.spans (if env.extra.isSome then env.spans.flatMap bytes else elems env.o) s
    let p := env.d 2
    if env.sub then overlap [(env.d 0, none)] [(BitVec.ofNat 64 p.span.1, p.span.2)] (elems p) s else s

/-- A completion record of a tile queue's entry sets PEND and, with IE, signals (R335). -/
def noticeQueue (sub : Submitter) (s : State) : State :=
  match sub with
  | .queue q =>
    let t := s.tq q
    let s := { s with tqs := s.tqs.set q { t with pend := true } }
    if t.ie then sendMsi ⟨if 16 ≤ q then q - 15 else 0, .tileQueue q⟩ s else s
  | .thread _ _ => s

/-- Write an instruction's completion record, once, and release the output guard (R134, R136). A queue is notified of a record that
was written (R335). -/
def finishRun (d j : Nat) (state cause flvl leaf elem : Nat) (s : State) : State :=
  let x := s.dec d
  match x.running[j]? with
  | none => s
  | some r =>
    let w := r.job.who (unitCluster (d / 256) (d % 256))
    let r := r.softDescs w s
    let s := freeOutputs w r s
    let v := completionWord state cause flvl leaf elem r.done
    let put (ea : Word) (n x : Nat) (s : State) : State × Bool :=
      match runHeld (storeHome w accEngine n ea n x (pure ())) s with
      | .ok _ s => (s, true)
      | .error _ _ => (s, false)
    let (s, written) := put r.job.crec 32 v s
    let o := (r.env ⟨0, []⟩).o
    let s := if r.descs.isEmpty || o.guard = 0 then s else (put o.guard 8 (v % 2 ^ 64) s).1
    let x := s.dec d
    let s := s.setDec d { x with running := removeAt x.running j }
    if written then noticeQueue r.job.sub s else s

/-- The record of a run by its report, its sibling's fault, or neither. -/
def recordRun (d j : Nat) (r : TileRun) (s : State) : State :=
  match r.report, r.sibling with
  | some p, _ => finishRun d j 2 p.code p.flvl p.leaf p.elem s
  | none, some (code, flvl) => finishRun d j 3 code flvl 0 0 s
  | none, none => finishRun d j 1 0 0 0 0 s

/-- TILE_COMPLETION: no leaf of the instruction will start any more. -/
def execTileCompletion (d j : Nat) (s : State) : Out :=
  match (s.dec d).running[j]? with
  | none => .next s
  | some r =>
    let stopped := r.sibling.isSome || r.report.isSome && !r.job.fp
    if (r.leaves.isEmpty || stopped) && (r.launch.isEmpty || r.report.isSome) then .next (recordRun d j r s) else .next s

/-- A launch of a partition is over: no thread of it is still to be created, and none lives. -/
def State.launchOver (s : State) (p seq : Nat) : Bool :=
  !((s.part p).queues.toList.any fun l => l.any fun e => e.seq == seq) &&
    !(s.liveKeys.any fun k => (s.thread k).part == p && (s.thread k).seq == seq)

/-- TLAUNCH_COMPLETE (R306): every thread the instruction created has exited. -/
def execTlaunchComplete (d j : Nat) (s : State) : Out :=
  match (s.dec d).running[j]? with
  | none => .next s
  | some r =>
    if !r.launch.isEmpty && r.report.isNone && r.launch.all fun q => s.launchOver q.1 q.2 then .next (recordRun d j r s)
    else .next s

/-! ### TSUB, TWAIT (R307) -/

/-- The decomposer of a level that a thread submits to: its own unit's. -/
def Thread.decOf (t : Thread) (lvl : Nat) : Nat :=
  decKey lvl (if lvl = 1 then t.clusterNo else if lvl = 2 then t.part else if lvl = 3 then t.part / 8 else 0)

def execTsub (f : Fields) (s : State) : Out :=
  runWord (do
    let t ← getTh
    let a ← peekS f.a
    let x ← load t.who accLoad 32 a 32 (cleanS f.a)
    let word (k : Nat) : Word := BitVec.ofNat 64 (x >>> (64 * k))
    match decodeTile (word 0) (word 1) (word 2) (word 3) with
    | .error e => raise e.detail a
    | .ok _ => pure ()
    let lvl := bits x 55 53
    raiseIf (lvl = 0) 0x1A3 a
    let d := t.decOf lvl
    if 64 ≤ ((← get).dec d).queue.length then throw (.wait (.tileQueue lvl))
    releaseEvery lvl
    modify fun s =>
      let j : TileJob := { word := BitVec.ofNat 256 x, addr := a, sub := .thread t.part t.tid, part := t.part, user := decide (t.level = .user), phys := false, only := none }
      s.setDec d { s.dec d with queue := (s.dec d).queue ++ [j] }) s

def execTwait (f : Fields) (s : State) : Out :=
  runWord (do
    let t ← getTh
    let a ← peekS f.a
    let _ ← locate t.who .load accLoad 32 a 32
    let x ← loadHome t.who accLoad 8 a 8 (cleanS f.a)
    if x % 256 = 0 then awaitWrite (.tile a) s
    wrS f.d (BitVec.ofNat 64 x)) s

end Sys2Proof.Machine
end

