-- ==== Sys2Proof/Machine/Collective.lean ====
section
/-! DEFINITION. Aster's collectives (spec/12 R308–R309, spec/22 R389–R390). -/

namespace Sys2Proof.Machine

/-! ### Collective records (R308) -/

def Party.key (p : Party) : Word := BitVec.ofNat 64 p.data.toNat
def Party.sbuf (p : Party) : Nat := bits p.data.toNat 127 64
def Party.rbuf (p : Party) : Nat := bits p.data.toNat 191 128
def Party.count (p : Party) : Nat := bits p.data.toNat 223 192
def Party.efmt (p : Party) : Nat := bits p.data.toNat 231 224
def Party.op (p : Party) : Nat := bits p.data.toNat 234 232
def Party.kind (p : Party) : Nat := bits p.data.toNat 236 235
def Party.root (p : Party) : Nat := bits p.data.toNat 327 320
def Party.stat (p : Party) : Word := BitVec.ofNat 64 (p.data.toNat >>> 384)
/-- The agent of a participant's buffers: Aster, in the context of the thread that executed COLL. -/
def Party.who (p : Party) : Who := { part := p.part, user := p.user, cl := none, watch := false }

/-- A record that breaks R308, OP excepted (0x01C). -/
def collBad (x : Nat) : Bool :=
  bits x 223 192 == 0 || bits x 231 224 == 0 || decide (13 < bits x 231 224) || bits x 239 237 != 0 ||
    decide (bits x 255 248 < bits x 247 240) || bits x 383 328 != 0 || bits x 511 448 != 0 ||
    bits x 236 235 == 3 && decide (bits x 255 248 < bits x 327 320)

/-- Bytes of an element. -/
def Party.esize (p : Party) : Nat := (((Efmt.ofCode p.efmt).getD (.int 8 true)).width) / 8

/-- Elements a participant sends, and receives. -/
def Party.sendCount (p : Party) (np : Nat) : Nat :=
  if p.kind = 2 then np * p.count else if p.kind = 3 then (if p.rank = p.root then p.count else 0) else p.count
def Party.recvCount (p : Party) (np : Nat) : Nat := if p.kind = 1 then np * p.count else p.count

/-- Where `n` bytes at an effective address lie: address and length of each piece that can be reached. -/
def placesOf (w : Who) (need : Need) (a n : Nat) (s : State) : List (Nat × Nat) :=
  ((touchOf a n).filterMap fun ea =>
    match (translate w need ea).run s with
    | .ok x _ => some (x.pa, min (a + n) ((ea.toNat / 4096 + 1) * 4096) - ea.toNat)
    | .error _ _ => none).filter fun r => r.2 != 0

/-- The collective a participant joins: the same KEY and member table, its rank still missing. -/
def sameColl (key : Word) (members : List Nat) (rank : Nat) (c : Coll) : Bool :=
  c.key == key && c.members == members && !c.met && !(c.parties.any fun p => p.rank == rank)

/-- Add a participant to the first collective it fits, or open one. -/
def joinColl (p : Party) (members : List Nat) : List Coll → List Coll
  | [] => [⟨p.key, members, [p], [], false, false⟩]
  | c :: l => if sameColl p.key members p.rank c then { c with parties := c.parties ++ [p] } :: l else c :: joinColl p members l

/-- COLL: reads the record, releases its named buffers at fabric scope (R89), and hands it to the Aster of the die with the member
table it names. -/
def execColl (f : Fields) (s : State) : Out :=
  runWord (do
    let t ← getTh
    let a ← peekS f.a
    let x ← load t.who accLoad 64 a 64 (cleanS f.a)
    raiseIf (decide (3 ≤ bits x 234 232)) 0x014 (firstWord (.coll f))
    raiseIf (collBad x) 0x01C (firstWord (.coll f))
    let p : Party := {
      rank := bits x 247 240, part := t.part, user := decide (t.level = .user), data := BitVec.ofNat 512 x
      sends := [], recvs := [], sbad := false, rbad := false }
    let members ← (List.range (bits x 255 248 + 1)).mapM fun k =>
      load p.who accEngine 8 (BitVec.ofNat 64 (bits x 319 256 + 8 * k)) 8
    let s ← get
    let np := members.length
    let p := { p with
      sends := placesOf p.who .load p.sbuf (p.sendCount np * p.esize) s
      recvs := placesOf p.who .store p.rbuf (p.recvCount np * p.esize) s }
    let named (line : Nat) : Bool := (p.sends ++ p.recvs).any fun r => decide (r.1 < line * 128 + 128) && decide (line * 128 < r.1 + r.2)
    releaseBy named named 5
    modify fun s => { s with colls := joinColl p members s.colls }) s

/-! ### Results (R309) -/

/-- A state change of an engine that is lost where it cannot be made. -/
def engineStore (w : Who) (ea : Word) (n v : Nat) (s : State) : State :=
  match runHeld (store w accEngine n ea n v) s with
  | .ok _ s => s
  | .error _ _ => s

/-- `n` bytes at an address become unspecified. -/
def scrambleBytes (w : Who) (a n : Nat) (s : State) : State :=
  (List.range n).foldl (fun s k =>
    match runHeld (locate w .store accEngine 1 (BitVec.ofNat 64 (a + k)) 1) s with
    | .ok (.cell pa _) s => physWrite s.tick pa 1 (Config.freeByte s.free).toNat
    | _ => s) s

/-- Write every participant's STAT word (R389): each has still to observe it (R89). -/
def writeStats (c : Coll) (v : Nat) (s : State) : State :=
  let s := c.parties.foldl (fun s p => engineStore p.who p.stat 8 v s) s
  { s with unseen := s.unseen ++ c.parties }

/-- The operation on patterns of a format. -/
def collOp (efmt op x y : Nat) : Nat := tileOp ((Efmt.ofCode efmt).getD (.int 8 true)) (if op = 0 then 0 else op + 2) x y

/-- R(x): the ranks combined in ascending order. -/
def rankFold (g : Nat → Nat → Nat) : List Nat → Nat
  | [] => 0
  | x :: l => l.foldl g x

/-- Element `j` a participant receives, from what every rank sends. -/
def received (p : Party) (sent : List (List Nat)) (j : Nat) : Nat :=
  let at_ (r k : Nat) : Nat := (sent.getD r []).getD k 0
  let all (k : Nat) : Nat := rankFold (collOp p.efmt p.op) ((List.range sent.length).map fun r => at_ r k)
  if p.kind = 0 then all j
  else if p.kind = 1 then at_ (j / p.count) (j % p.count)
  else if p.kind = 2 then all (p.rank * p.count + j)
  else at_ p.root j

/-- A failed collective: STATE 2 and the code everywhere; RBUF is unspecified (R390). -/
def failColl (i code : Nat) (c : Coll) (s : State) : State :=
  let s := c.parties.foldl (fun s p => scrambleBytes p.who p.rbuf (p.recvCount c.members.length * p.esize) s) s
  writeStats c (2 + code % 512 * 256) { s with colls := removeAt s.colls i }

/-- The links to the devices of a collective's members are in service. -/
def Coll.linked (s : State) (c : Coll) : Bool :=
  c.members.all fun m => m % 256 == s.devnum.toNat || linkInService s (m % 256)

/-- A collective that has met fails once a link on its path has left service (R390), also where the link returns. -/
def loseColls (s : State) : State := { s with colls := s.colls.map fun c => { c with lost := c.lost || c.met && !c.linked s } }

/-- COLLECTIVE_MEET: every rank is there, those on other devices as `remote` gives them, over links in service. Participants that disagree in EFMT, OP,
KIND, COUNT or ROOT fail with 0x12B, and no RBUF byte is written (R389). -/
def execCollectiveMeet (i : Nat) (remote : List Remote) (s : State) : Out :=
  match s.colls[i]? with
  | none => .next s
  | some c =>
    let ranks := c.parties.map Party.rank ++ remote.map Remote.rank
    let full := (List.range c.members.length).all fun r => ranks.count r == 1
    let away := remote.all fun r => c.members.getD r.rank 0 % 256 != s.devnum.toNat
    if c.met || !full || ranks.length != c.members.length || !away || !c.linked s then .next s
    else
      let keys := c.parties.map (fun p => (p.efmt, p.op, p.kind, p.count, p.root)) ++
        remote.map fun r => (r.efmt, r.op, r.kind, r.count, r.root)
      match keys with
      | k :: l =>
        if l.all (· == k) then .next { s with colls := s.colls.set i { c with met := true, remote := remote } }
        else .next (writeStats c (2 + 0x12B * 256) { s with colls := removeAt s.colls i })
      | [] => .next s

/-- The named buffers that were written since their COLL hold anything (R89): the send buffers, or the receive buffers. -/
def spoil (recv : Bool) (c : Coll) (s : State) : State :=
  c.parties.foldl (fun s p =>
    let np := c.members.length
    if recv then (if p.rbad then scrambleBytes p.who p.rbuf (p.recvCount np * p.esize) s else s)
    else if p.sbad then scrambleBytes p.who p.sbuf (p.sendCount np * p.esize) s
    else s) s

/-- Read every SBUF, then write every RBUF. -/
def collectiveM (c : Coll) : M Unit := do
  let np := c.members.length
  let mine ← c.parties.mapM fun p => do
    let l ← (List.range (p.sendCount np)).mapM fun j => load p.who accEngine p.esize (BitVec.ofNat 64 (p.sbuf + j * p.esize)) p.esize
    return (p.rank, l)
  let sent := (List.range np).map fun r =>
    match mine.find? fun e => e.1 == r with
    | some e => e.2
    | none => ((c.remote.find? fun x => x.rank == r).map Remote.data).getD []
  c.parties.forM fun p => (List.range (p.recvCount np)).forM fun j =>
    store p.who accEngine p.esize (BitVec.ofNat 64 (p.rbuf + j * p.esize)) p.esize (received p sent j)

/-- COLLECTIVE_COMPLETE: the results are written, then 1 to every STAT. A damaged SBUF granule fails it, and a link that left service
(R390). -/
def execCollectiveComplete (i : Nat) (s : State) : Out :=
  match s.colls[i]? with
  | none => .next s
  | some c =>
    if !c.met then .next s
    else if c.lost then .next (failColl i 0x09E c s)
    else
      match (collectiveM c).run (spoil false c s) with
      | .ok _ s => .next (writeStats c 1 (spoil true c { s with colls := removeAt s.colls i }))
      | .error (.cause e) _ =>
        let s := if e.code / 32 = 5 then logError e.code e.pa (c.parties.head?.map Party.part) 0 s else s
        .next (failColl i e.code c s)
      | .error (.wait r) _ => .next (serveWait r s)
      | .error _ _ => .next s

/-- COLLECTIVE_FAIL (R390): after the participants have met, a link has left service or the partition of a participant on another device is
killed (0x09E), or such a participant's SBUF is damaged (0x0B0 + Detail). -/
def execCollectiveFail (i code : Nat) (s : State) : Out :=
  match s.colls[i]? with
  | none => .next s
  | some c =>
    let away := !c.remote.isEmpty
    if c.met && (code == 0x09E && (c.lost || away) || away && decide (0x0B0 ≤ code) && decide (code < 0x0C0)) then .next (failColl i code c s) else .next s

end Sys2Proof.Machine
end

