-- ==== Sys2Proof/Machine/Loop.lean ====
section
/-! DEFINITION. Generation loops: starting and stopping, one iteration, KV slots (spec/13 R311–R321, spec/18 R337, spec/22
R392–R395). -/

namespace Sys2Proof.Machine

/-! ### Loop records (R311) -/

def LoopRun.seed (l : LoopRun) : Nat := bits l.data.toNat 63 0
def LoopRun.ratio (l : LoopRun) : Bool := l.data.getLsbD 128
def LoopRun.kd (l : LoopRun) : Nat := bits l.data.toNat 135 132
def LoopRun.logp (l : LoopRun) : Nat := bits l.data.toNat 191 160
def LoopRun.maxpos (l : LoopRun) : Nat := bits l.data.toNat 255 192
def LoopRun.slot (l : LoopRun) : Nat := bits l.data.toNat 287 256
def LoopRun.gen (l : LoopRun) : Nat := bits l.data.toNat 319 288
def LoopRun.out (l : LoopRun) : Nat := bits l.data.toNat 511 448
def LoopRun.stat (l : LoopRun) : Word := BitVec.ofNat 64 (l.data.toNat >>> 512)
def LoopRun.eos (l : LoopRun) : Nat := bits l.data.toNat 607 576
def LoopRun.een (l : LoopRun) : Bool := l.data.getLsbD 608
/-- Marigold acts through the partition's context, as its supervisor. -/
def marigold (p : Nat) : Who := { part := p, user := false, cl := none, watch := false }

def LoopRun.tfwd (l : LoopRun) : Nat := bits l.data.toNat 383 320
def LoopRun.dfwd (l : LoopRun) : Nat := bits l.data.toNat 447 384

/-- A record that breaks R311 (0x01D). -/
def loopBad (x : Nat) : Bool :=
  bits x 131 129 != 0 || decide (8 < bits x 135 132) || bits x 159 136 != 0 || bits x 639 609 != 0 || bits x 1023 640 != 0 ||
    logpBad (bits x 191 160) || bits x 135 132 == 0 && bits x 447 384 != 0

/-! ### KV slots (R318, R392) -/

/-- KV_TAGGED_WRITE (R318, R393): a KV write of a loop arrives at its home slice with its tag; a stale one is dropped and
counted. -/
def execKvTaggedWrite (p slot : Nat) (gen : BitVec 32) (pa n v : Nat) (s : State) : Out :=
  .next (if s.tagOk p slot gen.toNat then physWrite s.tick pa n v else dropKv p slot s.tick)

/-! ### Starting and stopping (R337, R394) -/

def State.port (s : State) (p : Nat) : LoopPort := s.ports.get p LoopPort.reset
def State.runningLoops (s : State) (p : Nat) : Nat := (s.loops.filter fun l => l.part == p).length

/-- Marigold writes a loop's STAT word, then signals the function whose port started it. -/
def writeLoopStat (l : LoopRun) (state cause : Nat) (s : State) : State :=
  sendMsi ⟨l.fn, .loop l.part⟩ (engineStore (marigold l.part) l.stat 8 (state + cause % 512 * 256) s)

/-- LPGO: a write to the loop port of partition `p` by function `fn` starts the loop at bits 63:7. After a start with minimal firmware
Marigold is held in reset (R404). -/
def execLpgo (fn p : Nat) (v : Word) (s : State) : Out :=
  let addr : Word := BitVec.ofNat 64 (v.toNat / 128 * 128)
  let q := s.port p
  if s.plat.minimal then .next s
  else if 64 ≤ s.runningLoops p then .next { s with ports := s.ports.set p { q with full := true } }
  else
    match runHeld (load (marigold p) accEngine 128 addr 128) s with
    | .ok x s =>
      let l : LoopRun := { part := p, fn := fn, addr := addr, data := BitVec.ofNat 1024 x, pos := bits x 127 64, stop := false }
      if loopBad x then .next (writeLoopStat l 2 0x01D s)
      else if !s.tagOk p l.slot l.gen then .next (writeLoopStat l 2 0 s.tick)
      else .next { s.tick with loops := s.loops ++ [l] }
    | .error _ s' => .next { keepTlbOf p s s' with ports := s.ports.set p { q with bad := true } }

/-- LPSTOP: the loop with that record address ends at its next iteration boundary. -/
def execLpstop (_fn p : Nat) (v : Word) (s : State) : Out :=
  let addr : Word := BitVec.ofNat 64 (v.toNat / 128 * 128)
  if s.loops.any fun l => l.part == p && l.addr == addr then
    .next { s with loops := s.loops.map fun l => if l.part = p ∧ l.addr = addr then { l with stop := true } else l }
  else .next { s with ports := s.ports.set p { s.port p with bad := true } }

/-! ### Sampling and acceptance (R315–R317, R395) -/

/-- U(P, x), exact. -/
def LoopRun.uniform (l : LoopRun) (p x : Nat) : FVal := uniformOf (philox l.seed p (p / 2 ^ 32) x 0).1

/-- G(P, x) over a row. -/
def LoopRun.gumbel (l : LoopRun) (p x : Nat) (row : List Nat) : Nat := sampleToken l.seed p x l.logp row

/-- pr(j) of a filtered row (R317), as FP32 patterns; `any` stands for a sum the spec does not state. -/
def probsOf (logp any : Nat) (row : List Nat) : List Nat :=
  let m := rowMax row
  let cands := candidates logp row
  let s := (fp32.ofExact (exactInt (rowMass m cands any)) 64).1
  row.mapIdx fun j l =>
    let e := if cands.any fun c => c.1 == j then
        (if m = fp32.infBits false then (fp32.round .rne false 1 0).1
          else (fp32.exp2 .rne (fp32.decode (fp32.sub .rne l m).1)).1)
      else 0
    (fp32.div .rne e s).1

/-- Running sums with RoundRNE at each step. -/
def runningSums (f : Fmt) : Nat → List Nat → List Nat
  | _, [] => []
  | a, x :: l => let b := (f.add .rne a x).1; b :: runningSums f b l

/-- The draw from weights `r` by the uniform `u`: the smallest j whose running sum passes RoundRNE(u × R), else the largest j
with a weight above 0. -/
def drawFrom (r : List Nat) (u : FVal) : Option Nat :=
  let c := runningSums fp32 0 r
  let total := c.getLastD 0
  let thr := fp32.decode (fp32.ofVal .rne (mulVal u (fp32.decode total)).1).1
  match (c.zipIdx).find? fun e => decide (0 < cmpVal (fp32.decode e.1) thr) with
  | some e => some e.2
  | none => ((r.zipIdx).filter fun e => decide (0 < cmpVal (fp32.decode e.1) (.num false 0 0))).getLast?.map Prod.snd

/-- Residual(p, q, u): when the residual's total rounds to +0 the rule runs on p (R317, R395). `any` stands for the token where
the spec states none. -/
def residual (p q : List Nat) (u : FVal) (any : Nat) : Nat :=
  let r := (p.zip q).map fun e => (fp32.minmax true (fp32.sub .rne e.1 e.2).1 0).1
  let total := (runningSums fp32 0 r).getLastD 0
  ((if total = 0 then drawFrom p u else drawFrom r u).getD any) % 2 ^ 32

/-- The tokens of EXACT mode (R316). -/
def exactTokens (l : LoopRun) : Nat → List (List Nat) → List (List Nat) → List Nat
  | _, _, [] => []
  | p, [], t :: _ => [l.gumbel p 0 t]
  | p, d :: ds, t :: ts =>
    let y := l.gumbel p 0 t
    if l.gumbel p 0 d = y then y :: exactTokens l (p + 1) ds ts else [y]

/-- The tokens of RATIO mode (R317). A comparison with a value that is no number, or that the row does not have, is free. -/
def ratioTokens (l : LoopRun) (any : Nat) : Nat → List (List Nat) → List (List Nat) → List Nat
  | _, _, [] => []
  | p, [], t :: _ => [l.gumbel p 0 t]
  | p, d :: ds, t :: ts =>
    let x := l.gumbel p 1 d
    let pt := probsOf l.logp (Config.freeNat (any + 4 * p)) t
    let qd := probsOf l.logp (Config.freeNat (any + 4 * p + 1)) d
    let px := fp32.decode (pt.getD x fp32.nanBits)
    let qx := fp32.decode (qd.getD x fp32.nanBits)
    let take := if px.isNan || qx.isNan then Config.freeBool (any + 4 * p + 2)
      else decide (cmpVal (mulVal (l.uniform p 2) qx).1 px ≤ 0)
    if take then x :: ratioTokens l any (p + 1) ds ts
    else [residual pt qd (l.uniform p 3) (Config.freeNat (any + 4 * p + 3))]

/-- What of the tokens is emitted: none beyond MAXPOS, none beyond EOS (R312). -/
def LoopRun.emitted (l : LoopRun) (ts : List Nat) : List Nat :=
  let ts := ts.take (l.maxpos - l.pos)
  if l.een then
    match (ts.zipIdx).find? fun e => e.1 == l.eos with
    | some e => ts.take (e.2 + 1)
    | none => ts
  else ts

/-! ### Pages (R318, R320, R321) -/

/-- The region of the page at an address, whose guard is its count word: guard, base and length. -/
def State.pageOf (s : State) (p page : Nat) : Option (Nat × Nat × Nat) := (s.part p).bindings.find? fun b => b.2.1 == page

/-- Address of word `n` of a slot's page list. -/
def pageWord (p slot n : Nat) : M Word := do
  let (s, x) := physRead (← get) ((← get).slotAt p slot + 8) 8
  set s
  return BitVec.ofNat 64 (x + 8 * n)

/-- Page `n` of a slot. -/
def pageAt (p slot n : Nat) : M Nat := do load (marigold p) accEngine 8 (← pageWord p slot n) 8

/-- AMO.add.acq.rel of `d` on the count word of a page; its old value. -/
def countPage (p : Nat) (b : Nat × Nat × Nat) (d : Int) : M Nat :=
  atomicOp (marigold p) accEngine (BitVec.ofNat 64 b.1) 4 fun c => some (wrap 32 (c + d))

/-- Drop a reference to a page: where 1 stood, the page is free. A page bound to no count word has no count (log 28). -/
def dropPage (p page : Nat) : M Unit := do
  match (← get).pageOf p page with
  | none => pure ()
  | some b =>
    if (← countPage p b (-1)) = 1 then
      modify fun s => s.setPart p { s.part p with kvFree := (s.part p).kvFree.filter (· != page) ++ [page] }

/-- Copy a page for a loop, eight bytes at a time: KV writes of the loop, with its tag (R318). -/
def copyPage (l : LoopRun) (src dst n : Nat) : M Unit :=
  let w := marigold l.part
  (List.range (n / 8)).forM fun k => do
    let x ← load w accEngine 8 (BitVec.ofNat 64 (src + 8 * k)) 8
    store { w with tag := some ⟨l.slot, l.gen, [(dst, n)]⟩ } accEngine 8 (BitVec.ofNat 64 (dst + 8 * k)) 8 x

/-- Make page `n` of the loop's slot its own before it is written: a page with a count above 1 is copied into a fresh one. Its
address and length. Where the slot was retired, the copy's writes are dropped, and the list, which is no longer the loop's, stays
(DEDUCED, log 28). -/
def ownPage (l : LoopRun) (fresh : List (Nat × Nat)) (n : Nat) : M (Nat × Nat) := do
  let p := l.part
  let page ← pageAt p l.slot n
  match (← get).pageOf p page with
  | none => return (page, 0)
  | some b =>
    if (← loadHome (marigold p) accEngine 4 (BitVec.ofNat 64 b.1) 4) ≤ 1 then return (page, b.2.2)
    let f := ((fresh.find? fun e => e.1 == n).map Prod.snd).bind ((← get).pageOf p)
    match f with
    | none => throw .gone
    | some f =>
      if f.2.2 != b.2.2 then throw .gone
      copyPage l page f.2.1 b.2.2
      if !(← get).tagOk p l.slot l.gen then return (page, b.2.2)
      store (marigold p) accEngine 4 (BitVec.ofNat 64 f.1) 4 1
      modify fun s => s.setPart p { s.part p with kvFree := (s.part p).kvFree.filter (· != f.2.1) }
      store (marigold p) accEngine 8 (← pageWord p l.slot n) 8 f.2.1
      dropPage p page
      return (f.2.1, f.2.2)

/-- Add a reference: page `n` of the loop's slot also becomes page `m` of slot `slot`. -/
def sharePage (l : LoopRun) (n slot m : Nat) : M Unit := do
  let page ← pageAt l.part l.slot n
  match (← get).pageOf l.part page with
  | none => pure ()
  | some b =>
    let _ ← countPage l.part b 1
    store (marigold l.part) accEngine 8 (← pageWord l.part slot m) 8 page

/-- The page of the loop that it knew as number `n` of its slot's list when the iteration began. -/
def LoopRun.page (l : LoopRun) (n : Nat) : Nat :=
  ((((l.entries.map KvEntry.page).dedup.zip l.pages).find? fun e => e.1 == n).map fun e => e.2.1).getD 0

/-- Discard the iteration's entries at `pos` and above, in the pages the iteration made its own: a page that holds nothing else loses its
reference; in a kept page their bytes are unspecified, but for a retired slot's, which another loop may hold by now (R393; DEDUCED,
log 28). -/
def discardM (l : LoopRun) (pos : Nat) : M Unit := do
  let gone := l.entries.filter fun e => decide (pos ≤ e.pos)
  let kept (n : Nat) : Bool := (l.entries.any fun e => e.page == n && decide (e.pos < pos)) || gone.any fun e => e.page == n && e.older
  ((gone.map KvEntry.page).dedup).forM fun n => do
    let page := l.page n
    if kept n then
      modify fun s =>
        if s.tagOk l.part l.slot l.gen then
          (gone.filter fun e => e.page == n).foldl (fun s e => scrambleBytes (marigold l.part) (page + e.off) e.len s) s
        else s
    else dropPage l.part page

/-! ### One iteration (R312, R314, R319) -/

/-- The KV entries an iteration appends (R321): for a draft model that lacks one, the last position's first. -/
def LoopRun.wanted (l : LoopRun) : List (Bool × Nat) :=
  (if l.behind then [(true, l.pos - 1)] else []) ++ (List.range l.kd).map (fun i => (true, l.pos + i)) ++
    (List.range (l.kd + 1)).map fun i => (false, l.pos + i)

/-- Begin a run of `n` tile instructions: the next ones of the draft or the target program. -/
def LoopRun.begin (l : LoopRun) (n : Nat) : LoopRun :=
  let prog := if l.run < l.kd then l.dfwd else l.tfwd
  { l with
    phase := .submit ((List.range n).map fun k => BitVec.ofNat 64 (prog + 32 * (l.used + k)))
    used := l.used + n, crecs := [] }

/-- The loop is in step 1 or 2 of its iteration: it may write pages. -/
def LoopRun.writing (l : LoopRun) : Bool :=
  match l.phase with
  | .start | .commit => false
  | .filter | .drain _ _ _ => decide (l.run < l.kd)
  | .submit _ | .await => !(l.run == l.kd && l.tail)

def setLoop (i : Nat) (l : LoopRun) (s : State) : State := { s with loops := s.loops.set i l }

/-- Drop loop number `i` with a STAT. -/
def endLoop (i : Nat) (l : LoopRun) (state cause : Nat) (s : State) : State :=
  writeLoopStat l state cause { s with loops := removeAt s.loops i }

/-- An iteration that fails (R394): what it appended above POS is discarded. -/
def failLoop (i : Nat) (l : LoopRun) (state cause : Nat) (s : State) : State :=
  endLoop i l state cause (match (discardM l l.pos).run s with
    | .ok _ s => s
    | .error _ _ => s)

/-- A cause of Marigold's own access ends the loop as a program's failure does (log 28); poison it consumed is logged (R379). -/
def loopCause (i : Nat) (l : LoopRun) (c : Cause) (s : State) : State :=
  let s := failLoop i l 4 c.code s
  if c.code / 32 = 5 then logError c.code c.pa (some l.part) 0 s else s

/-- Run a step of loop `i`; what cannot go on yet does nothing. -/
def loopM (i : Nat) (l : LoopRun) (m : M LoopRun) (s : State) : Out :=
  match m.run s with
  | .ok l s => .next (setLoop i l s)
  | .error (.cause c) s' => .next (loopCause i l c (keepTlbOf l.part s s'))
  | .error (.wait r) _ => .next (serveWait r s)
  | .error _ _ => .next s

/-- The boundary: LPSTOP ends the loop here; else the iteration begins, its pages made its own. -/
def loopStart (i : Nat) (l : LoopRun) (rows : LoopRows) (s : State) : Out :=
  if l.stop then .next (endLoop i l 5 0 s)
  else if (rows.entries.map fun e => (e.draft, e.pos)) != l.wanted then .next s
  else
    loopM i l (do
      let pages ← ((rows.entries.map KvEntry.page).dedup).mapM (ownPage l rows.fresh)
      return { l with run := 0, used := 0, tail := false, rows := [], cols := [], entries := rows.entries, pages := pages }.begin rows.count) s

/-- The physical address of a ring entry (R334). -/
def TileQ.slotAt (t : TileQ) (k : Nat) : Nat :=
  let a := t.base.toNat / 32 * 32 + 32 * (k % 2 ^ t.size)
  if t.base.getLsbD 63 then a % 2 ^ 63 else hostBase + a % hostBase

/-- Marigold puts the instruction at `a` into its core's queue, with its mark, once the ring has room; it has set the completion
record to 0 before (R136, R335, R337). -/
def loopSubmit (i : Nat) (l : LoopRun) (a : Word) (rest : List Word) (s : State) : Out :=
  let q := 4 + l.part % 4
  let t := s.tq q
  if !t.en || decide (2 ^ t.size ≤ (t.tail - t.head).toNat) then .next s
  else
    loopM i l (do
      let x ← load (marigold l.part) accEngine 32 a 32
      let crec : Word := BitVec.ofNat 64 (bits x 47 0)
      store (marigold l.part) accEngine 32 crec 32 0
      modify fun s =>
        let s := physWrite s (t.slotAt t.tail.toNat) 32 x
        { s with tqs := s.tqs.set q { t with
            tail := t.tail + 1, marks := t.marks.set t.tail.toNat ⟨l.part, l.fn, ⟨l.slot, l.gen, l.pages⟩, false⟩ } }
      return { l with phase := .submit rest, crecs := l.crecs ++ [crec] }) s

/-- Wait for the records of a run: STATE 2 or 3 fails the loop with the record's cause (R394). -/
def loopAwait (i : Nat) (l : LoopRun) (s : State) : Out :=
  match (l.crecs.mapM fun a => loadHome (marigold l.part) accEngine 8 a 8).run s with
  | .ok xs s' =>
    if xs.any fun x => x % 256 == 0 then .next s
    else
      match xs.find? fun x => x % 256 != 1 with
      | some x => .next (failLoop i l 4 (bits x 16 8) s')
      | none => .next (setLoop i { l with phase := .filter } s')
  | .error (.cause c) s' => .next (loopCause i l c (keepTlbOf l.part s s'))
  | .error (.wait r) _ => .next (serveWait r s)
  | .error _ _ => .next s

/-- Bytes SELACC writes for a row: its header and up to 256 pairs (R288). -/
def blockList : Nat := 32 + 8 * 256

/-- A block lies in the partition's accumulator storage, and a channel of the partition drains it. -/
def blockInside (p : Nat) (b : BlockAt) : Bool :=
  b.cluster / 10 == p && decide (b.tile < 4) && decide (b.row < 128) && decide (1 ≤ b.cols) && decide (b.col + b.cols ≤ 256) &&
    decide (b.chan < 16) && b.dst % 16 == 0 && b.crec % 32 == 0 && b.crec != 0 && decide (b.dst < 2 ^ 63) && decide (b.crec < 2 ^ 63)

/-- The blocks of a row hold 256 columns each but for its last one, which ends the row (R314). -/
def blocksWhole (more : Bool) (bs : List BlockAt) : Bool :=
  (bs.dropLast.all fun b => b.cols == 256) && (!more || bs.all fun b => b.cols == 256)

/-- The blocks a run leaves as R314 gives them, one row each of `n`; what their channels write lies apart. -/
def blocksOk (p n : Nat) (rows : LoopRows) : Bool :=
  let all := rows.blocks.flatten
  let places : List (Nat × Nat) := all.flatMap fun b => [(b.dst, blockList), (b.crec, 32)]
  rows.blocks.length == n && !rows.blocks.any List.isEmpty && all.all (blockInside p) && rows.blocks.all (blocksWhole rows.more) &&
    (rows.blocks.map fun bs => (bs.map BlockAt.cols).sum).dedup.length == 1 &&
    decide (places.Pairwise fun (x y : Nat × Nat) => x.1 + x.2 ≤ y.1 ∨ y.1 + y.2 ≤ x.1)

/-- The SELACC record and function record of a block (R285, R288): one row, KMAX 256. -/
def blockRecord (b : BlockAt) : BitVec 1024 :=
  BitVec.ofNat 1024 (b.dst * 2 ^ 64 + 3 * 2 ^ 128 + b.cols * 2 ^ 256 + 2 ^ 384 + blockList * 2 ^ 480 + 2 ^ 512 + 2 ^ 640 + 2 ^ 768 + 2 ^ 896)
def blockFunc (b : BlockAt) (logp : Nat) : BitVec 512 :=
  BitVec.ofNat 512 (b.tile + b.row * 2 ^ 8 + b.col * 2 ^ 16 + logp * 2 ^ 32 + 256 * 2 ^ 64)

/-- A number that is no thread's key: Marigold owns the channels it starts. -/
def marigoldKey : Nat := 16 * 65536

/-- Start the SELACC channel of a block, its completion record set to 0 before (R294, R312). -/
def startBlock (l : LoopRun) (b : BlockAt) : M Unit := do
  let w := marigold l.part
  let crec : Word := BitVec.ofNat 64 b.crec
  store w accEngine 32 crec 32 0
  let c : Channel := { Channel.reset with
    st := .loaded, record := blockRecord b, func := blockFunc b l.logp }
  let xs ← (c.dstTouch ++ [crec]).mapM (translate w .store)
  raiseIf (xs.any Xlat.mig) (0x090 + accEngine)
  raiseIf (xs.any fun x => isView x.pa) (0x143 + 4 * 3)
  modify fun s => s.setChan l.part b.chan (c.start s l.part marigoldKey false b.cluster crec (b.cluster, 0, 128) xs)

/-- The columns of a block as its channel listed them (R288): the candidates at their columns, and no number elsewhere. -/
def blockRow (p : Nat) (b : BlockAt) : M (List Nat) := do
  let w := marigold p
  let word (o : Nat) : M Nat := load w accEngine 4 (BitVec.ofNat 64 (b.dst + o)) 4
  let n ← word 0
  let pairs ← (List.range (min n 256)).mapM fun k => do return (← word (32 + 8 * k), ← word (36 + 8 * k))
  return (List.range b.cols).map fun k => ((pairs.find? fun e => e.1 == k).map Prod.snd).getD fp32.nanBits

/-- Step 4 begins: a SELACC channel for each block that the run left. -/
def loopFilter (i : Nat) (l : LoopRun) (rows : LoopRows) (s : State) : Out :=
  let n := if l.run < l.kd then 1 else l.kd + 1
  if !blocksOk l.part n rows then .next s
  else
    .next (setLoop i { l with
      phase := .drain (rows.blocks.zipIdx.flatMap fun e => e.1.map fun b => (e.2, b)) [] rows.more
      cols := if l.cols.length = n then l.cols else List.replicate n [] } s)

/-- The rows are drained: the next group of blocks, the next run, or the commit. -/
def LoopRun.drained (l : LoopRun) (more : Bool) (count : Nat) : LoopRun :=
  if more then ({ l with tail := true } : LoopRun).begin count
  else
    let l : LoopRun := { l with run := l.run + 1, used := 0, tail := false, rows := l.rows ++ l.cols, cols := [] }
    if l.run ≤ l.kd then l.begin count else { l with phase := .commit }

/-- Steps 3 and 4: each block's channel starts once it is idle, and Marigold waits on its record; STATE 2 or 3 fails the loop with the
record's cause (R394). It joins the columns each lists: every candidate of the whole row is among them, so that maximum, threshold,
candidates and sum of the joined row are the row's (R314). -/
def loopDrain (i : Nat) (l : LoopRun) (left started : List (Nat × BlockAt)) (more : Bool) (count : Nat) (s : State) : Out :=
  let idle (b : BlockAt) : Bool := decide ((s.chan l.part b.chan).st = .idle)
  match left.head?.filter (fun e => idle e.2), started with
  | some e, _ => loopM i l (do
      startBlock l e.2
      return { l with phase := .drain left.tail (started ++ [e]) more }) s
  | none, e :: rest =>
    match (loadHome (marigold l.part) accEngine 8 (BitVec.ofNat 64 e.2.crec) 8).run s with
    | .ok x s' =>
      if x % 256 = 0 then .next s
      else if x % 256 != 1 then .next (failLoop i l 4 (bits x 16 8) s')
      else loopM i l (do
        let row ← blockRow l.part e.2
        return { l with phase := .drain left rest more, cols := l.cols.modify e.1 (· ++ row) }) s'
    | .error (.cause c) s' => .next (loopCause i l c (keepTlbOf l.part s s'))
    | .error (.wait r) _ => .next (serveWait r s)
    | .error _ _ => .next s
  | none, [] => if left.isEmpty then .next (setLoop i (l.drained more count) s) else .next s

/-- Step 6: what is kept and discarded, the references added, the tokens, LEN, then POS in the record. -/
def commitM (l : LoopRun) (ts : List Nat) (adds : List (Nat × Nat × Nat)) : M Unit := do
  let w := marigold l.part
  discardM l (l.pos + ts.length)
  adds.forM fun a => sharePage l a.1 a.2.1 a.2.2
  (ts.zipIdx).forM fun e => store w accEngine 4 (BitVec.ofNat 64 (l.out + 4 * (l.pos + e.2))) 4 e.1
  modify fun s => physWrite s (s.slotAt l.part l.slot + 4) 4 (l.pos + ts.length)
  store w accEngine 8 (l.addr + 8) 8 (l.pos + ts.length)

/-- Steps 5 and 6. Step 6 is held while another loop of the partition is in step 1 or 2 (R320). The slot's GEN is read before any
token is written (R394). -/
def loopCommit (i : Nat) (l : LoopRun) (adds : List (Nat × Nat × Nat)) (s : State) : Out :=
  let others := (s.loops.zipIdx).any fun e => e.2 != i && e.1.part == l.part && e.1.writing
  let k := s.free
  let s' := { s with free := s.free + 1 + 4 * (l.pos + l.kd + 2) }
  if others then .next s
  else if !s.tagOk l.part l.slot l.gen then .next (failLoop i l 3 0 s')
  else
    let draft := l.rows.take l.kd
    let target := l.rows.drop l.kd
    let ts := if l.ratio then ratioTokens l (k + 1) l.pos draft target else exactTokens l l.pos draft target
    let out := l.emitted ts
    match (commitM l out adds).run s' with
    | .error (.cause c) s'' => .next (loopCause i l c (keepTlbOf l.part s' s''))
    | .error (.wait r) _ => .next (serveWait r s)
    | .error _ _ => .next s
    | .ok _ s =>
      let l := { l with pos := l.pos + out.length, phase := .start, rows := [], entries := [], pages := []
                        behind := decide (0 < l.kd) && ts.length == l.kd + 1 }
      .next (if l.maxpos ≤ l.pos || l.een && out.contains l.eos then endLoop i l 1 0 s else setLoop i l s)

/-- LOOP_ITERATION: loop `i` of partition `p` takes the next step of its iteration, in the order of R312 Table 2. `rows` holds what
the spec does not give of its programs (log 28). -/
def execLoopIteration (p i : Nat) (rows : LoopRows) (s : State) : Out :=
  match s.loops[i]? with
  | none => .next s
  | some l =>
    if l.part != p || (s.part p).halted then .next s
    else
      match l.phase with
      | .start => loopStart i l rows s
      | .submit (a :: rest) => loopSubmit i l a rest s
      | .submit [] => .next (setLoop i { l with phase := .await } s)
      | .await => loopAwait i l s
      | .filter => loopFilter i l rows s
      | .drain left started more => loopDrain i l left started more rows.count s
      | .commit => loopCommit i l rows.adds s

end Sys2Proof.Machine
end

