-- ==== Sys2Proof/Machine/Control.lean ====
section
/-! DEFINITION. Control registers: CRR, CRW and the effects of writing each register (spec/06 R137, spec/07 R188–R189, spec/19
R346–R347, R352–R356). -/

namespace Sys2Proof.Machine

/-! ### Numbers (R137, R352) -/

/-- Numbers with a register. -/
def crAssigned (n : Nat) : Bool :=
  let within (lo hi : Nat) : Bool := decide (lo ≤ n) && decide (n ≤ hi)
  within 0x000 0x01F || within 0x030 0x03B || n == 0x040 || n == 0x050 || n == 0x060 || within 0x070 0x082 ||
    within 0x084 0x08C || within 0x090 0x0A4

/-- Numbers a user may name. -/
def crUser (n : Nat) : Bool := decide (n < 0x020)

/-- The level of the thread may name register `n` (R137, R352). -/
def crAllowed (l : Level) (n : Nat) : Bool :=
  match l with
  | .user => crUser n
  | .supervisor => n != 0x0A4
  | .monitor => true

/-! ### Reading (R188) -/

/-- Bit `k` of a number as a flag at another place. -/
def flagAt (b : Bool) (k : Nat) : Nat := b2n b * 2 ^ k

/-- BMODE of a bank (R62). -/
def Bank.word (b : Bank) : Word := BitVec.ofNat 64 (b.mode + flagAt b.dec 3 + flagAt b.busy 4)

/-- VOWN of a core (R352). -/
def vownOf (s : State) (c : Nat) : Word :=
  BitVec.ofNat 64 <| ((List.range 4).map fun l =>
    match s.laneOwner c l with
    | some k => (8 + (((s.thread k).home.map Pos.slot).getD 0)) * 16 ^ l
    | none => 0).sum

/-- VCLASS of the selected thread on lane cluster `lc` (R193). -/
def vclassOf (s : State) (lc : Nat) : Word :=
  let t := s.th
  let n := threadLanes s t
  BitVec.ofNat 64 (vlmaxOf n t.grp t.sewCode * 2 ^ 16 + n * 2 ^ 8 + lc * 2 + b2n t.isL)

/-- LC of VCLASS: of an S thread whose vector context no lane cluster holds the spec gives no value, so it is free. -/
def lcNow : M Nat := do
  let t ← getTh
  if t.isL then return 0
  else
    match t.lc with
    | some l => return l
    | none => return Config.freeNat (← freshIndex) % 4

/-- XPROGj is in use (R347). -/
def xprogUsed (isL : Bool) (lc j : Nat) : Bool := isL || j / 2 == lc

/-- BUSY of PSWAP. -/
def Die.busy (d : Die) : Bool := d.pswap.getLsbD 15

/-- PSWAP of a die. -/
def State.die (s : State) (d : Nat) : Die := s.dies.get d Die.reset

/-- The register a word of the selected thread reads under number `n`. CCYC counts on by an unspecified amount (R49). -/
def crRead (n : Nat) : M Word := do
  let s ← get
  let t := s.th
  let p := s.part t.part
  let c := s.core t.coreNo
  match n with
  | 0x000 => return t.vcfg
  | 0x001 => return t.vrows
  | 0x002 => return t.vpitch
  | 0x003 => return t.vstart
  | 0x004 => return t.eprog
  | 0x005 => return t.vxsat
  | 0x006 => return t.fflags
  | 0x007 => return t.frm
  | 0x008 => return vclassOf s (← lcNow)
  | 0x009 => return t.mgrant
  | 0x00A => return t.tid.setWidth 64
  | 0x00B => return BitVec.ofNat 64 t.part
  | 0x00C => return t.loc
  | 0x00D =>
    let k := s.cluster t.clusterNo
    let any ← freshIndex
    let x := k.ccyc + Config.freeWord any
    modify fun s => s.setCluster t.clusterNo { k with ccyc := x }
    return x
  | 0x00E => return c.feat
  | 0x00F => return t.step
  | 0x030 => return t.xcause
  | 0x031 => return t.xpc
  | 0x032 => return t.xval
  | 0x033 => return t.xstat
  | 0x040 => return t.dbg
  | 0x050 => return BitVec.ofNat 64 c.lpc
  | 0x060 => return p.xvec
  | 0x080 => return p.ptroot
  | 0x081 => return p.ptctx
  | 0x084 => return p.tvbase
  | 0x085 => return p.tvlen
  | 0x086 => return p.tfbase
  | 0x087 => return p.tflen
  | 0x088 => return p.thbase
  | 0x089 => return p.thlen
  | 0x08A => return p.tmark
  | 0x08B => return p.tstep
  | 0x08C => return BitVec.ofNat 64 (s.tfreeNow t.part)
  | 0x0A0 => return vownOf s t.coreNo
  | 0x0A1 => return c.stop.setWidth 64 ||| (c.stopped.setWidth 64 <<< 8)
  | 0x0A4 => return (s.die (t.part / 8)).pswap
  | n =>
    if 0x010 ≤ n ∧ n < 0x020 then return (s.chan t.part (n - 0x010)).cwm
    else if 0x034 ≤ n ∧ n < 0x03C then
      let lc ← lcNow
      return if xprogUsed t.isL lc (n - 0x034) then t.xprog.getD (n - 0x034) 0 else 0
    else if 0x070 ≤ n ∧ n < 0x080 then return t.xscr.getD (n - 0x070) 0
    else if 0x090 ≤ n ∧ n < 0x0A0 then return ((s.cluster t.clusterNo).banks.getD (n - 0x090) Bank.reset).word
    else return 0

/-! ### Writing: per-thread registers -/

/-- The bits of `x` under `mask`. -/
def masked (x : Word) (mask : Nat) : Word := x &&& BitVec.ofNat 64 mask

/-- A CRW to VCFG (R190, R191). -/
def vcfgWritten (lanes : Nat) (old v : Word) : Word :=
  let pick (hi lo : Nat) (ok : Nat → Bool) : Nat :=
    if ok (bits v.toNat hi lo) then bits v.toNat hi lo else bits old.toNat hi lo
  let sew := pick 16 14 (decide <| · < 4)
  let grp := bits v.toNat 18 17
  let scope := pick 21 19 (decide <| · < 6)
  vcfgWord scope grp sew (min (bits v.toNat 13 0) (vlmaxOf lanes grp sew))

/-- A CRW to VROWS (R245). -/
def vrowsWritten (old v : Word) : Word := if bits v.toNat 8 0 ≤ 256 then masked v 0x1FF else old

/-- A CRW to FRM (R100). -/
def frmWritten (old v : Word) : Word := masked v 0x1F00 ||| (if bits v.toNat 2 0 < 5 then masked v 7 else masked old 7)

/-- A CRW to XSTAT (R346). -/
def xstatWritten (old v : Word) : Word :=
  masked v 0x1CF ||| (if bits v.toNat 5 4 < 3 then masked v 0x30 else masked old 0x30)

/-! ### Writing: translation and tiering (R58, R71, R73) -/

/-- A write to PTROOT drops every TLB entry of the partition, and running channels resolve their pages again (R58, R382). -/
def writePtroot (p : Nat) (v : Word) (s : State) : State :=
  let q := s.part p
  reresolveChans p (fun _ => true) (s.setPart p { q with ptroot := masked v 0xF_FFFF_FFFF_F001, tlb := [] })

/-- TLBINV names a TLB entry (R58). -/
def tlbinvHits (v : Nat) (e : TlbEntry) : Bool :=
  v.testBit 4 || e.size == v % 16 && e.va == bits v 56 12 * 4096 / pageBytes (v % 16) * pageBytes (v % 16)

/-- A write to TLBINV (R58, R382): the model's walks are whole, so none is left to finish. -/
def writeTlbinv (p : Nat) (v : Word) (s : State) : State :=
  let q := s.part p
  reresolveChans p (tlbinvHits v.toNat) (s.setPart p { q with tlb := q.tlb.filter fun e => !tlbinvHits v.toNat e })

/-- A write to TVBASE (R73): while EN = 1 it changes EN alone. TFREE is counted afresh as EN changes. -/
def writeTvbase (p : Nat) (v : Word) (s : State) : State :=
  let q := s.part p
  let base := if q.tierOn then masked q.tvbase 0x1FF_FFFF_FFFF_F000 else masked v 0x1FF_FFFF_FFFF_F000
  s.setPart p { q with tvbase := base ||| masked v 1, tfree := BitVec.ofNat 64 (s.tfreeNow p) }

/-- A write to one of the other range registers: ignored while EN = 1 (R73). -/
def writeTier (p : Nat) (f : Partition → Partition) (s : State) : State :=
  let q := s.part p
  if q.tierOn then s else s.setPart p (f q)

/-! ### Writing: banks (R62, R63) -/

/-- Storage whose contents are unspecified: `bytes` at `pa`. -/
def unspecified (pa bytes : Nat) (s : State) : State :=
  { s with
    frames := s.frames.set pa { body := .rest, bytes := bytes, stamp := s.free, dirty := [] }
    free := s.free + bytes }

/-- A write to BMODEb: the bank changes mode at once, and BUSY stays until the change is done (R63). A bank that leaves cache mode
writes back its dirty lines: which of the cluster's those are the spec does not say, and the model writes back all of them. Nor does
it say what a thread reads in a bank lent for staging by DEC = 1 (R62): the model holds the bit and leaves the contents alone
(DESIGN CHOICE, log 29). -/
def writeBmode (c b : Nat) (v : Word) (s : State) : State :=
  let k := s.cluster c
  let x := k.banks.getD b Bank.reset
  let mode := if bits v.toNat 1 0 = 3 then x.mode else bits v.toNat 1 0
  let x := { x with dec := v.getLsbD 3 }
  if mode = x.mode then setBank s c b x
  else
    let s := if x.mode = 0 then (s.dirtyLines c).foldl (fun s l => writeBackLine c l s) s else s
    let s := setBank s c b { x with mode := mode, busy := true, ovf := false, head := 0, ring := [], bad := [] }
    if mode = 1 then unspecified (windowBase + c * 0x40_0000 + b * 0x2_0000) 0x2_0000 s else s

/-! ### Writing: lanes (R355, R228) -/

/-- Bytes at or above `r` of a register are discarded: they hold `any` until they are written. -/
def trimReg (r : Nat) (any x : BitVec 8192) : BitVec 8192 :=
  let low : BitVec 8192 := BitVec.ofNat 8192 (2 ^ (8 * r) - 1)
  (x &&& low) ||| (any &&& ~~~low)

/-- LEN of a run whose register has `r` bytes left (R228). -/
def trimSort (r : Nat) (x : BitVec 21) : BitVec 21 :=
  let n := min (sortLen x) (r / (keyWidth (sortKey x) / 8))
  (x &&& 0x7F) ||| BitVec.ofNat 21 (n * 128)

/-- A vector context loses its tail on a core with `lpc` lanes a lane cluster (R355). -/
def Thread.trim (lpc stamp : Nat) (t : Thread) : Thread :=
  let r := 16 * lanesOf t.isL lpc
  { t with
    v := t.v.mapIdx fun k x => trimReg r (Config.freeVec (stamp + k)) x
    m := t.m.mapIdx fun k x => trimReg r (Config.freeVec (stamp + 32 + k)) x
    sort := t.sort.map (trimSort r)
    vpoison := t.vpoison.filter fun m => decide (m.off < r) }

/-- VL is clipped to the VLMAX of `lpc` lanes a lane cluster. -/
def Thread.clipVl (lpc : Nat) (t : Thread) : Thread :=
  { t with vcfg := vcfgWord t.scope t.grp t.sewCode (min t.vl (vlmaxOf (lanesOf t.isL lpc) t.grp t.sewCode)) }

/-- A write to VMAXLEN of core `c` (R355). Values other than 8 and 16 change nothing. -/
def writeVmaxlen (c : Nat) (v : Word) (s : State) : State :=
  let k := s.core c
  let lpc := bits v.toNat 4 0
  if lpc ≠ 8 ∧ lpc ≠ 16 then s
  else
    let own := s.vectorOwners c
    let res := s.residents c
    let s := if lpc < k.lpc then s.mapThreads own (Thread.trim lpc s.free) else s
    let s := { s with free := s.free + 64 }
    let s := s.mapThreads res (Thread.clipVl lpc)
    s.setCore c { s.core c with full := lpc == 16 }

/-- A vector instruction of the core is in flight. -/
def coreBusy (s : State) (c : Nat) : Bool :=
  (s.vectorOwners c).any fun k => !(s.thread k).vldas.isEmpty || !(s.thread k).mmaRun.isEmpty

/-! ### Writing: slots (R352) -/

/-- The slots of a core that no thread occupies. -/
def State.emptySlots (s : State) (c : Nat) : BitVec 8 :=
  BitVec.ofNat 8 <| ((List.range 8).map fun j => if (s.inSlot c j).isNone then 2 ^ j else 0).sum

/-- Set STOP of core `c`: a slot whose STOP is 0 runs, and an empty one whose STOP is 1 has stopped. -/
def setStops (c : Nat) (stop halt : BitVec 8) (s : State) : State :=
  let k := s.core c
  s.setCore c { k with stop := stop, stopped := (k.stopped ||| s.emptySlots c) &&& stop, haltSet := halt &&& stop }

/-- A write to SLSTOP. -/
def writeSlstop (c : Nat) (v : Word) (s : State) : State := setStops c (v.setWidth 8) (s.core c).haltSet s

/-- A write to PSWAP of die `d` (R352): an OP of 1 to 5 starts an operation. -/
def writePswap (d : Nat) (v : Word) (s : State) : State :=
  let op := bits v.toNat 10 8
  let busy : Word := if op = 0 ∨ op = 6 ∨ op = 7 then 0 else 0x8000
  { s with dies := s.dies.set d { s.die d with pswap := masked v 0xFFFF_FFFF_FFFF_0F07 ||| busy, ran := false } }

/-! ### Contexts: CTXSAVE and CTXLOAD (R353–R356) -/

/-- Pages of 4 KiB of a frame for a grant of `rows` rows (R353). -/
def framePages (rows : Nat) : Nat := 16 + rows

/-- Where page `i` of the frame at `ea` lies. -/
def framePlace (need : Need) (acc : Nat) (ea : Word) (i : Nat) : M Nat := do
  let t ← getTh
  let a := ea + BitVec.ofNat 64 (4096 * i)
  match ← locate t.who need acc 1 a 4096 with
  | .cell pa _ => return pa
  | _ => raise (0x098 + acc) a

/-- Accumulator rows of a thread's grant in cluster `c`, keyed from the grant's first row, and the poisoned entries. -/
def grantRows (s : State) (t : Thread) : Table (BitVec 32) × List Nat :=
  let k := s.cluster t.clusterNo
  let mine (x : Nat) : Bool := t.grows != 0 && decide (t.gbase ≤ accRow x) && decide (accRow x < t.gbase + t.grows)
  let rel (x : Nat) : Nat := x - 256 * t.gbase
  (((k.acc.filter fun e => mine e.1).map fun e => (rel e.1, e.2)), (k.accPoison.filter mine).map rel)

/-- Put saved rows at the grant that begins at unit row `base` of cluster `c`. -/
def putRows (c base rows : Nat) (acc : Table (BitVec 32)) (bad : List Nat) (s : State) : State :=
  let k := s.cluster c
  let mine (x : Nat) : Bool := decide (base ≤ accRow x) && decide (accRow x < base + rows)
  let k := { k with acc := k.acc.filter fun e => !mine e.1, accPoison := k.accPoison.filter fun x => !mine x }
  let k := acc.foldl (fun (k : Cluster) e => k.accSet (e.1 + 256 * base) e.2) k
  s.setCluster c { k with accPoison := k.accPoison ++ bad.map (· + 256 * base) }

/-- A wait that begins again on resumption goes; an arrival already made stands (R43, R356). -/
def keepWait : Option WaitReason → Option WaitReason
  | some (.group g r n) => some (.group g r n)
  | _ => none

/-- A VXFER half that waits begins again once its vector context is back (R252, R356). -/
def dropXfer : Option WaitReason → Option WaitReason
  | some (.xfer _ _ _) => none
  | w => w

/-- The pieces of a thread's work that a save waits for (R348, R353): VLDA, MMA and MMAS, and ZENC. -/
def saveWaits (s : State) (k : Nat) : Option WaitReason :=
  let t := s.thread k
  if !t.vldas.isEmpty then some .vlda
  else if !t.mmaRun.isEmpty then some .matrix
  else if !t.zenc.isEmpty || s.zjobs.any (fun j => j.key == k) then some .zenc
  else none

/-- The scalar part of thread `f` with the vector part of `v` (R353). -/
def joinParts (f v : Thread) : Thread :=
  { f with
    v := v.v, sort := v.sort, m := v.m, q := v.q, w := v.w, scan := v.scan, lc := v.lc, home := v.home
    vldas := v.vldas, mmaRun := v.mmaRun, vpoison := v.vpoison }

/-- A write to CTXSAVE (R353), which releases every object at device scope (R82). The thread saved is the one in the slot, for mode 2
the one whose vector context VOWN gives the slot; a VXFER half of it that waits begins again (R356). A slot with nothing to save is
left as it is. -/
def ctxSave (v : Word) : M Unit := do
  let s ← get
  let c := s.th.coreNo
  let slot := bits v.toNat 2 0
  let mode := bits v.toNat 5 4
  let ea := masked v 0xFFFF_FFFF_FFFF_0000
  if mode = 0 then return ()
  raiseIf (mode != 2 && !(s.core c).stopped.getLsbD slot) 0x1C6
  let who := if mode = 2 then (s.vectorOwners c).find? fun k => (s.thread k).home.map Pos.slot == some slot else s.inSlot c slot
  match who with
  | none => return ()
  | some k =>
    match saveWaits s k with
    | some r => throw (.wait r)
    | none => pure ()
    set (releaseLines (fun _ => true) s.th.clusterNo 4 (mergeCore s c fun _ => true))
    let t := (← get).thread k
    let vec := (mode == 1 || mode == 2) && t.vcore == some c
    let rows := grantRows (← get) t
    let pas ← (List.range (framePages t.grows)).mapM fun i => framePlace .store accStore ea i
    let stamp := (← get).free
    modify fun s => (pas.zipIdx).foldl (fun s e =>
      let s := physWrite s e.1 4096 0
      let f : Frame := ⟨if e.2 = 0 then .thread (mode != 2) vec t rows.1 rows.2 else .rest, 4096, stamp + 4096 * e.2, []⟩
      if s.plat.linkLost && isHost e.1 then s else { s with frames := s.frames.set e.1 f })
      { s with free := s.free + 4096 * pas.length }
    modify fun s =>
      let t := s.thread k
      let t := if vec then { t with lc := none, home := none, wait := dropXfer t.wait } else t
      s.setThread k (if mode = 2 then t else { t with pos := none, saved := true, wait := keepWait t.wait, passes := 0, boosted := none })

/-- A saved granule whose storage at `pa` is damaged with Detail `d` comes back with its poison (R377): four scalar registers, or 32 bytes
of a vector register where `vec`. Only the device knows which (R353), so that is free. -/
def Thread.harmed (vec : Bool) (pa d k : Nat) (t : Thread) : Thread :=
  let code := 0x0A0 + d
  if vec && Config.freeBool k then
    { t with vpoison := t.vpoison ++ [⟨Config.freeNat (k + 1) % 32, 32 * (Config.freeNat (k + 2) % 32), 32, code, 0, pa⟩] }
  else
    let r := 4 * (Config.freeNat (k + 1) % 16)
    { t with spoison := t.spoison ++ ((List.range 4).filter fun i => r + i != 0).map fun i =>
        { reg := BitVec.ofNat 6 (r + i), code := code, pa := pa } }

/-- The damaged granules among pieces of `n` bytes, and their Details; after a surprise link loss all of host memory is (R401). -/
def harmsIn (s : State) (pas : List Nat) (n : Nat) : Poison :=
  pas.flatMap fun a => (granulesOf a n).filterMap fun g => (poisonAt s (32 * g) 32).map fun d => (g, d)

/-- The body of the frame at `ea`, when the device wrote every page of it and nothing rewrote one since (R353). Damage to the frame comes
with it (R377). -/
def frameAt (ea : Word) : M (Option Saved) := do
  let t ← getTh
  let pa0 ← framePlace .load accLoad ea 0
  let s ← get
  match s.frames.find pa0 with
  | some f =>
    match f.body with
    | .thread hs hv ft rows bad =>
      let pas ← (List.range (framePages ft.grows - 1)).mapM fun i => framePlace .load accLoad ea (i + 1)
      let ok := (pas.zipIdx).all fun e =>
        match s.frames.find e.1 with
        | some g => g.dirty.isEmpty && g.stamp == f.stamp + 4096 * (e.2 + 1)
        | none => false
      if f.dirty.isEmpty && ok && ft.part == t.part then
        let s ← get
        let harms := harmsIn s (pa0 :: pas) 4096
        let ft := (harms.zipIdx).foldl (fun t e => t.harmed hv (32 * e.1.1) e.1.2 (s.free + 3 * e.2)) ft
        set { s with free := s.free + 3 * harms.length }
        return some (.thread hs hv ft rows bad)
      else return none
    | _ => return none
  | none => return none

/-- The counters of lane cluster `a` move to lane cluster `b`, whose own are lost (R347). -/
def moveXprog (a b : Nat) (x : Vector Word 8) : Vector Word 8 :=
  if a = b then x else x.mapIdx fun j y => if j / 2 = b then x.getD (2 * a + j % 2) 0 else if j / 2 = a then 0 else y

/-- Give the vector part of `ft` to the thread of key `k` on lane cluster `l` of its core. -/
def loadVector (k l : Nat) (ft : Thread) (s : State) : State :=
  let t := s.thread k
  let t := if t.isL then t else { t with xprog := moveXprog (ft.lc.getD l) l t.xprog }
  let t := joinParts t { ft with lc := some (if t.isL then 0 else l), home := t.pos, vldas := [], mmaRun := [] }
  let c := s.core t.coreNo
  let t := if c.lpc = 8 then t.trim 8 s.free else t
  { s.setThread k (t.clipVl c.lpc) with free := s.free + 64 }

/-- Give the scalar part of `ft` to its table entry, in a slot of core `c` of cluster `cl`, with a grant at `base`. The thread
that stood in the slot is left without one. A core that was empty has no class: only the dispatcher gives one (R31). -/
def loadScalar (k cl core slot base : Nat) (ft : Thread) (rows : Table (BitVec 32)) (bad : List Nat) (s : State) : State :=
  let c := coreIndex ft.part cl core
  let s := if (s.residents c).isEmpty then s.setCore c { s.core c with cls := none } else s
  let s := match s.inSlot c slot with
    | some o => s.setThread o { s.thread o with pos := none, saved := true, wait := keepWait (s.thread o).wait }
    | none => s
  let old := s.thread k
  let done (p : Prefetch) : Bool := !(old.prefs.any fun o => o.id == p.id)
  let t := joinParts ft old
  let t := { t with
    pos := some ⟨cl, core, slot⟩
    home := if t.vcore == some c then some ⟨cl, core, slot⟩ else t.home
    saved := false, wait := keepWait ft.wait, passes := 0, boosted := none
    prefs := ft.prefs.filter fun p => !done p
    zenc := [], zfault := old.zfault
    mgrant := if ft.grows = 0 then 0 else grantWord base ft.grows }
  let s := s.setThread k (t.clipVl (s.core c).lpc)
  if ft.grows = 0 then s else putRows (clusterIndex ft.part cl) base ft.grows rows bad s

/-- A write to CTXLOAD (R353, R354). A frame that lacks the part the mode names, a scalar part whose thread is not saved, and a
vector part of the other class or with no thread in the slot are refused as frames (log 13). The load acquires every object at
device scope (R82), and what the core had fetched goes: the thread may have executed its IFENCE on another core (R94). -/
def ctxLoad (v : Word) : M Unit := do
  let s ← get
  let me := s.th
  let c := me.coreNo
  let slot := bits v.toNat 2 0
  let mode := bits v.toNat 5 4
  let lane := bits v.toNat 7 6
  let ea := masked v 0xFFFF_FFFF_FFFF_0000
  if mode = 0 then return ()
  match ← frameAt ea with
  | some (.thread hs hv ft rows bad) =>
    let k := threadKey ft.part ft.entry
    let s ← get
    let own := s.thread k
    let sca := mode != 2
    let vec := mode != 3
    let free := s.freeBlocks me.clusterNo
    let target := if sca then some k else s.inSlot c slot
    let lanes := lanesFor ft.isL lane
    let held := lanes.any fun l => match s.laneOwner c l with
      | some o => some o != target
      | none => false
    let bad1 := (vec && !hv) || (sca && (!hs || !own.live || own.tid != ft.tid || !own.saved)) ||
      (!sca && match target with
        | some o => (s.thread o).isL != ft.isL
        | none => true)
    raiseIf bad1 0x1C5
    raiseIf ((ft.req &&& ~~~((s.core c).feat.setWidth 16)) != 0) 0x033
    raiseIf (sca && decide (longestRun free * 8 < ft.grows)) 0x034
    raiseIf ((sca && !(s.core c).stopped.getLsbD slot) || (vec && held)) 0x1C6
    let base := 8 * firstRun (ft.grows / 8) free
    let p := me.pos.getD ⟨0, 0, 0⟩
    modify fun s =>
      let s := if sca then loadScalar k p.cluster p.core slot base ft rows bad s else s
      let s := match vec, target with
        | true, some o => loadVector o lane ft s
        | _, _ => s
      let s := acquireLines (fun _ => true) me.clusterNo 4 s
      s.setCore c { s.core c with icache := [] }
  | _ => raise 0x1C5

/-! ### CRW (R188, R189) -/

/-- Write register `n` from a word of the selected thread. A change of VSTART, XPROG or VPART drops the running value of a stopped
VSCAN (R216). A write to PSWAP while BUSY is 1 waits until it is 0: R352 and R357 do not say what it does, and R63 states such a wait
for BMODE alone (DESIGN CHOICE, log 63). -/
def crWrite (n : Nat) (v : Word) : M Unit := do
  let s ← get
  let t := s.th
  let p := t.part
  let c := t.coreNo
  let onPart (f : Partition → Partition) : M Unit := modify fun s => s.setPart p (f (s.part p))
  match n with
  | 0x000 => modTh fun t => { t with vcfg := vcfgWritten (threadLanes s t) t.vcfg v }
  | 0x001 => modTh fun t => { t with vrows := vrowsWritten t.vrows v }
  | 0x002 => modTh fun t => { t with vpitch := v }
  | 0x003 => modTh fun t => { t with vstart := masked v 0x3FFF, scan := if masked v 0x3FFF = t.vstart then t.scan else none }
  | 0x004 => modTh fun t => { t with eprog := masked v 0xFFFF_FFFF }
  | 0x005 => modTh fun t => { t with vxsat := masked v 1 }
  | 0x006 => modTh fun t => { t with fflags := masked v 0x1F }
  | 0x007 => modTh fun t => { t with frm := frmWritten t.frm v }
  | 0x00F => modTh fun t => { t with step := v }
  | 0x030 => modTh fun t => { t with xcause := masked v 0x1FF }
  | 0x031 => modTh fun t => { t with xpc := masked v 0xFFFF_FFFF_FFFF_FFF8 }
  | 0x032 => modTh fun t => { t with xval := v }
  | 0x033 => modTh fun t => { t with xstat := xstatWritten t.xstat v, scan := if v.getLsbD 1 = t.xstat.getLsbD 1 then t.scan else none }
  | 0x040 => modTh fun t => { t with dbg := masked v 3 }
  | 0x050 =>
    if coreBusy s c then throw (.wait .vlda)
    modify (writeVmaxlen c v)
  | 0x060 => onPart fun q => { q with xvec := masked v 0xFFFF_FFFF_FFFF_FFF8 }
  | 0x080 => modify (writePtroot p v)
  | 0x081 => onPart fun q => { q with ptctx := masked v 3 }
  | 0x082 => modify (writeTlbinv p v)
  | 0x084 => modify (writeTvbase p v)
  | 0x085 => modify (writeTier p fun q => { q with tvlen := masked v 0x1FF_FFFF_FFFF_F000 })
  | 0x086 => modify (writeTier p fun q => { q with tfbase := masked v 0xF_FFFF_FFFF_F000 })
  | 0x087 => modify (writeTier p fun q => { q with tflen := masked v 0x7F_FFFF_F000 })
  | 0x088 => modify (writeTier p fun q => { q with thbase := masked v 0xFFFF_FFFF_F000 })
  | 0x089 => modify (writeTier p fun q => { q with thlen := masked v 0xFFFF_FFFF_F000 })
  | 0x08A => onPart fun q => { q with tmark := v }
  | 0x08B => onPart fun q => { q with tstep := v }
  | 0x0A1 => modify (writeSlstop c v)
  | 0x0A2 => ctxSave v
  | 0x0A3 => ctxLoad v
  | 0x0A4 =>
    if (s.die (p / 8)).busy then throw (.wait .pswap)
    modify (writePswap (p / 8) v)
  | n =>
    if 0x034 ≤ n ∧ n < 0x03C then
      let lc ← lcNow
      if xprogUsed t.isL lc (n - 0x034) then
        modTh fun t => { t with
          xprog := t.xprog.mapIdx fun j x => if j = n - 0x034 then masked v 0xFFFF else x
          scan := if masked v 0xFFFF = t.xprog.getD (n - 0x034) 0 then t.scan else none }
    else if 0x070 ≤ n ∧ n < 0x080 then modTh fun t => { t with xscr := t.xscr.mapIdx fun j x => if j = n - 0x070 then v else x }
    else if 0x090 ≤ n ∧ n < 0x0A0 then
      if ((s.cluster t.clusterNo).banks.getD (n - 0x090) Bank.reset).busy then throw (.wait (.bank t.clusterNo (n - 0x090)))
      modify (writeBmode t.clusterNo (n - 0x090) v)
    else pure ()

/-- The checks of a number (R188, R137). `i` is the word, for XVAL. -/
def crCheck (i : Option Instr) (n : Nat) : M Unit := do
  let t ← getTh
  raiseIf (!crAssigned n) 0x015 ((i.map firstWord).getD 0)
  raiseIf (!crAllowed t.level n) 0x030 (BitVec.ofNat 64 n)

/-- The register number a word names; the poison of its register comes later in R345's order. -/
def crNumber (f : Fields) (i : Instr) : M Nat := do
  let n ← match f.imm with
    | some x => pure x.toNat
    | none => do
      let b ← peekS f.b
      pure (bits b.toNat 11 0)
  crCheck (some i) n
  return n

/-- FFLAGS and VXSAT are read once every earlier MMA and MMAS of the thread has added its flags (R101). -/
def crReadInOrder (n : Nat) : M Word := do
  let t ← getTh
  if (n == 0x005 || n == 0x006) && !t.mmaRun.isEmpty then throw (.wait .matrix)
  crRead n

def execCrr (f : Fields) (s : State) : Out :=
  runWord (do
    let n ← crNumber f (.crr f)
    cleanB f
    let x ← crReadInOrder n
    wrS f.d x) s

/-- CRW and its forms: `new` combines the old value and a. -/
def crwM (f : Fields) (i : Instr) (new : Word → Word → Word) : M Unit := do
  let n ← crNumber f i
  let a ← peekS f.a
  let old ← crReadInOrder n
  checked (do cleanB f; cleanS f.a) (crWrite n (new old a))
  wrS f.d old

def execCrw (f : Fields) (s : State) : Out := runWord (crwM f (.crw f) fun _ a => a) s
def execCrwSet (f : Fields) (s : State) : Out := runWord (crwM f (.crwSet f) fun o a => o ||| a) s
def execCrwClr (f : Fields) (s : State) : Out := runWord (crwM f (.crwClr f) fun o a => o &&& ~~~a) s

/-! ### The writes as steps of their own -/

/-- The effect of a write of `v` to register `n` by the thread of key `k`, apart from the word that makes it: a condition is
delivered to that thread, and a write that has to wait is not made yet. A key with no resident thread writes nothing. -/
def regEvent (k n : Nat) (v : Word) (s : State) : Out :=
  if (s.thread k).live && (s.thread k).pos.isSome then
    let s0 := s.select k
    match (do crCheck none n; crWrite n v).run s0 with
    | .ok _ s' => .next (s'.select s.cur)
    | .error (.cause c) s' => .next ((deliver c s0.th.resumeSlot1 (keepTlb s0 s')).select s.cur)
    | .error (.wait r) _ => .next (serveWait r s)
    | .error _ _ => .next s
  else .next s

/-- VCFG_WRITE (R191). -/
def execVcfgWrite (k : Nat) (v : Word) (s : State) : Out := regEvent k 0x000 v s
/-- PTROOT_WRITE (R58). -/
def execPtrootWrite (k : Nat) (v : Word) (s : State) : Out := regEvent k 0x080 v s
/-- TLBINV (R58). -/
def execTlbinv (k : Nat) (v : Word) (s : State) : Out := regEvent k 0x082 v s
/-- BMODE_WRITE (R63). -/
def execBmodeWrite (k b : Nat) (v : Word) (s : State) : Out := regEvent k (0x090 + b % 16) v s
/-- TVBASE_WRITE (R73). -/
def execTvbaseWrite (k : Nat) (v : Word) (s : State) : Out := regEvent k 0x084 v s
/-- TSTEP_WRITE (R71). -/
def execTstepWrite (k : Nat) (v : Word) (s : State) : Out := regEvent k 0x08B v s
/-- VMAXLEN_WRITE (R355). -/
def execVmaxlenWrite (k : Nat) (v : Word) (s : State) : Out := regEvent k 0x050 v s
/-- SLSTOP_WRITE (R352). -/
def execSlstopWrite (k : Nat) (v : Word) (s : State) : Out := regEvent k 0x0A1 v s
/-- CTXSAVE (R353). -/
def execCtxsave (k : Nat) (v : Word) (s : State) : Out := regEvent k 0x0A2 v s
/-- CTXLOAD (R353). -/
def execCtxload (k : Nat) (v : Word) (s : State) : Out := regEvent k 0x0A3 v s

end Sys2Proof.Machine
end

