-- ==== Sys2Proof/Machine/Context.lean ====
section
/-! DEFINITION. Slots that stop, partition swap, and what a kill discards (spec/19 R348, R357–R358, spec/24 R398). -/

namespace Sys2Proof.Machine

/-! ### Slots (R348, R352) -/

/-- SLOT_STOP: slot `j` of core `c` reaches a stopping point with nothing in flight. -/
def execSlotStop (c j : Nat) (s : State) : Out :=
  let k := s.core c
  let clear := match s.inSlot c j with
    | some t => (saveWaits s t).isNone
    | none => true
  if decide (j < 8) && k.stop.getLsbD j && !k.stopped.getLsbD j && clear then
    .next (s.setCore c { k with stopped := k.stopped ||| BitVec.ofNat 8 (2 ^ j) })
  else .next s

/-! ### PSWAP (R357) -/

/-- Cores and clusters of a partition, by device-wide number. -/
def coresOf (p : Nat) : List Nat := (List.range 40).map (40 * p + ·)
def clustersOf (p : Nat) : List Nat := (List.range 10).map (10 * p + ·)

/-- Halt (R357). -/
def haltPart (p : Nat) (s : State) : State :=
  let s := (coresOf p).foldl (fun s c =>
    let k := s.core c
    setStops c 0xFF (k.haltSet ||| ~~~k.stop) s) s
  let q := s.part p
  s.setPart p { q with halted := true, chans := q.chans.map fun c => { c with paused := true } }

/-- Resume (R357). After a thermal stop nothing resumes (R406). -/
def resumePart (p : Nat) (s : State) : State :=
  if s.plat.limit = 3 then s else
  let s := (coresOf p).foldl (fun s c =>
    let k := s.core c
    setStops c (k.stop &&& ~~~k.haltSet) 0 s) s
  let q := s.part p
  s.setPart p { q with halted := false, chans := q.chans.map fun c => { c with paused := false } }

/-- The entries of a table with keys from `lo` to `hi − 1`. -/
def keysIn {α : Type} (lo hi : Nat) (t : List (Nat × α)) : List (Nat × α) :=
  t.filter fun e => decide (lo ≤ e.1) && decide (e.1 < hi)

/-- A table without those entries. -/
def dropKeys {α : Type} (lo hi : Nat) (t : List (Nat × α)) : List (Nat × α) :=
  t.filter fun e => !(decide (lo ≤ e.1) && decide (e.1 < hi))

/-- A table with those entries replaced. -/
def putKeys {α : Type} (lo hi : Nat) (t new : List (Nat × α)) : List (Nat × α) :=
  (t.filter fun e => decide (e.1 < lo)) ++ new ++ t.filter fun e => decide (hi ≤ e.1)

/-- The window of a partition's clusters. -/
def scratchLo (p : Nat) : Nat := windowBase + 10 * p * 0x40_0000

/-- The decomposers of levels 1 and 2 of a partition. -/
def decsOf (p : Nat) : List Nat := decKey 2 p :: (clustersOf p).map (decKey 1)

/-- Live threads of a partition. -/
def State.threadsOf (s : State) (p : Nat) : List Nat := s.liveKeys.filter fun k => (s.thread k).part == p

/-- Everything the caches of a partition's cores and clusters hold is written back or merged (R357). -/
def drainPart (p : Nat) (s : State) : State :=
  let s := (coresOf p).foldl (fun s c => mergeCore s c fun _ => true) s
  (clustersOf p).foldl (fun s c => releaseLines (fun _ => true) c 4 s) s

/-- The context of a partition, as save stores it. -/
def partCtx (p : Nat) (s : State) : PartCtx where
  part := p
  halted := (s.part p).halted
  threads := (s.threadsOf p).map fun k => (k, s.thread k)
  cores := keysIn (40 * p) (40 * p + 40) s.cores
  clusters := keysIn (10 * p) (10 * p + 10) s.clusters
  queues := (s.part p).queues
  chans := (s.part p).chans
  decs := (decsOf p).map fun d => (d, s.dec d)
  mem := keysIn (scratchLo p) (scratchLo (p + 1)) s.mem
  poison := keysIn (scratchLo p / 32) (scratchLo (p + 1) / 32) s.poison
  unspec := (keysIn (scratchLo p) (scratchLo (p + 1)) s.frames).map fun f => (f.1, f.2.bytes, f.2.stamp, f.2.dirty)

/-- One more thread has used a table entry (R24). -/
def countUse (p entry : Nat) (s : State) : State :=
  let q := s.part p
  s.setPart p { q with reuse := q.reuse.set entry ((q.reuse.get entry 0 + 1) % 65536) }

/-- Drop every thread of a partition without leaving its groups (R391); their entries' reuse counts rise (R24), except where `kept`
says that the thread itself comes back. What was chosen to issue is no longer. -/
def dropThreads (kept : Thread → Bool) (p : Nat) (s : State) : State :=
  let s := { s with chosen := match s.chosen with
    | .thread u => if s.th.live && s.th.part == p then .none else .thread u
    | .cut => if s.th.live && s.th.part == p then .none else .cut
    | .probe k l u => if k / 65536 = p then .none else .probe k l u
    | c => c }
  (s.threadsOf p).foldl (fun s k =>
    let t := s.thread k
    (if kept t then s else countUse p t.entry s).dropThread k) s

/-- Reload a context into its partition: an acquire of every object (R82), and nothing fetched before stays (R94). What no context
holds stays: FEAT, CCYC and the control registers. Prefetches that completed since the save are complete, the others go on (R356).
After a thermal stop what comes back stays halted (R406). -/
def loadCtx (x : PartCtx) (s : State) : State :=
  let p := x.part
  let same (t : Thread) : Bool := (x.threads.find (threadKey p t.entry)).any fun y => y.tid == t.tid
  let live := (s.threadsOf p).map fun k => (k, s.thread k)
  let s := dropThreads same p s
  let s := x.threads.foldl (fun s e =>
    let t := match live.find? fun o => o.1 == e.1 && o.2.tid == e.2.tid with
      | some o => { e.2 with prefs := e.2.prefs.filter fun r => o.2.prefs.any fun y => y.id == r.id }
      | none => e.2
    s.setThread e.1 t) s
  let s := (coresOf p).foldl (fun s c =>
    s.setCore c { x.cores.get c Core.reset with feat := (s.core c).feat, inService := (s.core c).inService, icache := [] }) s
  let s := (clustersOf p).foldl (fun s c =>
    s.setCluster c { x.clusters.get c Cluster.reset with ccyc := (s.cluster c).ccyc, stale := [] }) s
  let q := s.part p
  let s := s.setPart p { q with
    queues := x.queues, chans := x.chans, halted := x.halted
    prefQ := (x.threads.map Prod.fst).filter fun k => !(s.thread k).prefs.isEmpty }
  let s := x.decs.foldl (fun s e => s.setDec e.1 e.2) s
  let s : State := { s with
    mem := x.mem.foldl (fun m c => Mem.write m c.1 c.2) (dropKeys (scratchLo p) (scratchLo (p + 1)) s.mem)
    poison := putKeys (scratchLo p / 32) (scratchLo (p + 1) / 32) s.poison x.poison
    frames := putKeys (scratchLo p) (scratchLo (p + 1)) s.frames (x.unspec.map fun f => (f.1, Frame.mk .rest f.2.1 f.2.2.1 f.2.2.2)) }
  if s.plat.limit = 3 then haltPart p s else s

/-- Banks of a partition outside cache mode. -/
def usedBanks (p : Nat) (s : State) : Nat :=
  ((clustersOf p).map fun c => ((s.cluster c).banks.toList.filter fun b => b.mode != 0).length).sum

/-- Work of a partition that a save lets finish (R348). -/
def partBusy (p : Nat) (s : State) : Bool := (s.threadsOf p).any fun k => (saveWaits s k).isSome

/-- Lay a saved context over storage at `pa`. How many bytes it takes is not given. -/
def spillCtx (pa : Nat) (x : PartCtx) (s : State) : State :=
  let n := 1 + Config.freeNat s.free % (hbmEnd - pa)
  let stamp := s.free + 1
  let s := { s with
    poison := clearPoison s.poison pa n
    frames := s.frames.map fun (f : Nat × Frame) =>
      if decide (f.1 < pa + n) && decide (pa < f.1 + f.2.bytes) then (f.1, { f.2 with dirty := f.2.dirty ++ [(pa, n)] }) else f }
  let f : Frame := ⟨.part x, n, stamp, []⟩
  { s with frames := s.frames.set pa f, free := stamp + n }

/-- Save (R357). What caches hold is written back first: the save is a release of every object (R82). A second context, or one that does not fit the shadow store, is stored only with
SPILL = 1. -/
def savePart (p : Nat) (s : State) : State :=
  let d := p / 8
  let s := drainPart p s
  let x := partCtx p s
  let y := s.die d
  if y.pswap.getLsbD 11 then
    let pa := y.pswap.toNat / 65536 * 65536
    if isHbm pa then spillCtx pa x s else s
  else if y.shadow.isSome || decide (140 < usedBanks p s) then s
  else { s with dies := s.dies.set d { y with shadow := some x } }

/-- A saved granule of a context, its storage damaged with Detail `d`, comes back with its poison (R377): in a thread, or in a bank.
Which one is free. -/
def PartCtx.harmed (pa d k : Nat) (x : PartCtx) : PartCtx :=
  if x.threads.isEmpty || Config.freeBool k then
    { x with poison := setPoison x.poison (scratchLo x.part / 32 + Config.freeNat (k + 1) % (10 * 0x1_0000)) d }
  else
    let j := Config.freeNat k % x.threads.length
    { x with threads := x.threads.mapIdx fun i e => if i = j then (e.1, e.2.harmed e.2.lc.isSome pa d (k + 1)) else e }

/-- Restore (R357): from the shadow store, which it empties, or from ADDR, with what damage the storage took. With no intact context of
the partition there, nothing changes. -/
def restorePart (p : Nat) (s : State) : State :=
  let d := p / 8
  let y := s.die d
  if y.pswap.getLsbD 11 then
    match s.frames.find (y.pswap.toNat / 65536 * 65536) with
    | some f =>
      match f.body with
      | .part x =>
        let pa := y.pswap.toNat / 65536 * 65536
        let harms := harmsIn s [pa] f.bytes
        let x' := (harms.zipIdx).foldl (fun (x : PartCtx) e => x.harmed (32 * e.1.1) e.1.2 (s.free + 4 * e.2)) x
        if x.part = p ∧ f.dirty = [] then loadCtx x' { s with free := s.free + 4 * harms.length } else s
      | _ => s
    | none => s
  else
    match y.shadow with
    | some x => if x.part = p then loadCtx x { s with dies := s.dies.set d { y with shadow := none } } else s
    | none => s

/-! ### Kill (R358, R398) -/

/-- A tile instruction is a partition's own: its addresses are resolved there, or it is confined to it. -/
def TileJob.ofPart (j : TileJob) (p : Nat) : Bool := !j.phys && j.part == p || j.only == some p

/-- End the running tile instructions of a partition at decomposer `d`: records with STATE 4, or none at all (R400). -/
def killRuns (records : Bool) (p d : Nat) : Nat → State → State
  | 0, s => s
  | n + 1, s =>
    let x := s.dec d
    match x.running.findIdx? fun r => r.job.ofPart p with
    | none => s
    | some j =>
      if records then killRuns records p d n (finishRun d j 4 0 0 0 0 s)
      else
        let s := match x.running[j]? with
          | some r =>
            let w := r.job.who (unitCluster (d / 256) (d % 256))
            freeOutputs w (r.softDescs w s) s
          | none => s
        killRuns records p d n (s.setDec d { s.dec d with running := removeAt (s.dec d).running j })

/-- Empty every decomposer of a partition's work. -/
def killTiles (records : Bool) (p : Nat) (s : State) : State :=
  (s.decs.map Prod.fst).foldl (fun s d =>
    let s := killRuns records p d (s.dec d).running.length s
    s.setDec d { s.dec d with queue := (s.dec d).queue.filter fun j => !j.ofPart p }) s

/-- End a partition's channels. Without records what a running one still had to write is unspecified (R398). -/
def killChans (records : Bool) (p : Nat) (s : State) : State :=
  let s := (List.range 16).foldl (fun s n =>
    let c := s.chan p n
    if c.st != .running then s
    else if records then endChannel p n 4 0 s else c.scramble p c.cwm.toNat c.dhi s) s
  let q := s.part p
  s.setPart p { q with chans := Vector.replicate 16 Channel.reset }

/-- A partition leaves one collective: the killed STAT words are not written; one that has met fails for the others with 0x09E
(R358, R390). -/
def leaveColl (p i : Nat) (s : State) : State :=
  match s.colls[i]? with
  | none => s
  | some c =>
    let rest := c.parties.filter fun y => y.part != p
    if rest.length = c.parties.length then s
    else if c.met then
      let s := (c.parties.filter fun y => y.part == p).foldl (fun s y =>
        scrambleBytes y.who y.rbuf (y.recvCount c.members.length * y.esize) s) s
      failColl i 0x09E { c with parties := rest } s
    else if rest.isEmpty then { s with colls := removeAt s.colls i }
    else { s with colls := s.colls.set i { c with parties := rest } }

/-- Leave every collective, those that have ended too. -/
def killColls (p : Nat) (s : State) : State :=
  let s := (List.range s.colls.length).reverse.foldl (fun s i => leaveColl p i s) s
  { s with unseen := s.unseen.filter fun y => y.part != p }

/-- The state a step moved to. -/
def outState (d : State) : Out → State
  | .next s => s
  | _ => d

/-- A move of a killed partition's page either finishes, or is abandoned with the page at its source (R398). -/
def settleMove (p : Nat) (s : State) : State :=
  match (s.part p).migs with
  | [] => s
  | g :: _ =>
    let here (s : State) : Bool := ((s.part p).migs.head?.map Migration.va) == some g.va
    let fin := Config.freeBool s.free
    let s := s.tick
    let s := if fin then
        let s := (List.range (pageBytes g.size / 128 - g.copied)).foldl (fun s _ =>
          if here s then outState s (execMigrationCopy p 0 s) else s) s
        if here s then outState s (execMigrationSwitch p 0 s) else s
      else s
    if here s then
      (rewriteRun p g.va g.size g.entry (setBits · 58 58 0) s).dropMig p 0
    else s

/-- What a stopped ZENC had not written is unspecified. -/
def killZenc (p : Nat) (s : State) : State :=
  let mine := s.zjobs.filter fun j => j.part == p
  let s := mine.foldl (fun s j =>
    match TRec.ofNat j.data.toNat with
    | some r =>
      let w : Who := { part := j.part, user := j.user, cl := none, watch := false }
      let st := r.streamBytes j.block r.nblk
      scrambleBytes w (r.scl + j.block) (r.nblk - j.block) (scrambleBytes w st.1 (st.2 - st.1) s)
    | none => s) s
  { s with zjobs := s.zjobs.filter fun j => j.part != p }

/-- A core after the reset of its partition: FEAT stays. -/
def Core.afterKill (k : Core) : Core := { Core.reset with feat := k.feat, inService := k.inService }

/-- End a partition's loops without STAT words. What they had put into their Marigold queue and the device has not read is discarded, and
does no work any more (R358, R398, R400). -/
def killLoops (p : Nat) (s : State) : State :=
  let q := 4 + p % 4
  let t := s.tq q
  let s := { s with loops := s.loops.filter fun l => l.part != p }
  if t.marks.isEmpty then s
  else { s with tqs := s.tqs.set q { t with marks := t.marks.map fun e => if e.2.part = p then (e.1, { e.2 with dead := true }) else e } }

/-- Kill (R358): the partition's context goes. The registers, queues, bindings and banks hold their reset values afterwards; the
reuse counts of R24, CCYC and the accumulator entries stay. Stores that its caches hold land. After a thermal stop it stays halted
(R406). -/
def killPart (records : Bool) (p : Nat) (s : State) : State :=
  let s := drainPart p (killLoops p s)
  let s := killZenc p (killColls p (killChans records p (killTiles records p s)))
  let s := (List.range (s.part p).migs.length).foldl (fun s _ => settleMove p s) s
  let s := dropThreads (fun _ => false) p s
  let s := (coresOf p).foldl (fun s c => s.setCore c (s.core c).afterKill) s
  let s := (clustersOf p).foldl (fun s c => s.setCluster c { s.cluster c with banks := Vector.replicate 16 Bank.reset, stale := [] }) s
  let s := s.setPart p { Partition.reset with reuse := (s.part p).reuse }
  if s.plat.limit = 3 then haltPart p s else s

/-! ### The operations as steps -/

/-- An operation `op` of PSWAP on partition `p` is under way and has not had its effect. -/
def pswapDue (op p : Nat) (s : State) : Bool :=
  let y := s.die (p / 8)
  decide (p < 16) && y.busy && !y.ran && bits y.pswap.toNat 10 8 == op && bits y.pswap.toNat 2 0 == p % 8

/-- Have the effect of an operation. -/
def pswapRun (op p : Nat) (f : State → State) (s : State) : Out :=
  if pswapDue op p s then
    let s := f s
    .next { s with dies := s.dies.set (p / 8) { s.die (p / 8) with ran := true } }
  else .next s

def execPswapHalt (p : Nat) (s : State) : Out := pswapRun 1 p (haltPart p) s
/-- Save waits for the instructions R348 lets finish. -/
def execPswapSave (p : Nat) (s : State) : Out := if partBusy p s then .next s else pswapRun 2 p (savePart p) s
def execPswapRestore (p : Nat) (s : State) : Out := pswapRun 3 p (restorePart p) s
def execPswapResume (p : Nat) (s : State) : Out := pswapRun 4 p (resumePart p) s
def execPswapKill (p : Nat) (s : State) : Out := pswapRun 5 p (killPart true p) s

/-- Wake the threads that wait for a reason. -/
def wakeAll (why : WaitReason → Bool) (s : State) : State :=
  s.mapThreads s.liveKeys fun t =>
    match t.wait with
    | some r => if why r then { t with wait := none } else t
    | none => t

/-- A halt is over once every slot of the partition has stopped. -/
def haltOver (p : Nat) (s : State) : Bool := (coresOf p).all fun c => (s.core c).stopped == 0xFF

/-- The operation under way on a die has had its effect and may end. -/
def pswapOver (die : Nat) (s : State) : Bool :=
  let y := s.die die
  y.busy && y.ran && (bits y.pswap.toNat 10 8 != 1 || haltOver (die * 8 + bits y.pswap.toNat 2 0) s)

/-- PSWAP_DONE: BUSY clears. -/
def execPswapDone (die : Nat) (s : State) : Out :=
  if pswapOver die s then
    let y := s.die die
    .next (wakeAll (· == .pswap) { s with dies := s.dies.set die { y with pswap := y.pswap &&& ~~~0x8000, ran := false } })
  else .next s

/-- BMODE_CHANGE_DONE: the change of bank `b` of cluster `c` completes, and BUSY clears (R63). -/
def execBmodeChangeDone (c b : Nat) (s : State) : Out :=
  let x := (s.cluster c).banks.getD b Bank.reset
  if decide (b < 16) && x.busy then .next (wakeAll (· == .bank c b) (setBank s c b { x with busy := false })) else .next s

end Sys2Proof.Machine
end

