-- ==== Sys2Proof/Machine/FpOps.lean ====
section
/-! DEFINITION. Scalar floating point (spec/07 R161–R165). -/

namespace Sys2Proof.Machine

/-- Write a floating-point result, zero-extended, after its flags (R161). -/
def fpPut (d : BitVec 6) (r : FRes) : M Unit := do
  fpFlags r.2
  wrS d (BitVec.ofNat 64 r.1)

/-- Fp(x): the low bits of a register. -/
def fpArg (f : Fmt) (x : Word) : Nat := x.toNat % 2 ^ f.width

/-- Two-operand floating-point instructions (R161). -/
def fpOp2 (f : Fields) (g : Fmt → RM → Nat → Nat → FRes) : M Unit := do
  let t ← getTh
  let m := fpFmt f.var.toNat
  let a ← rdS f.a
  let b ← rdS f.b
  fpPut f.d (g m (t.rm f.rnd) (fpArg m a) (fpArg m b))

def execFadd (f : Fields) (s : State) : Out := runWord (fpOp2 f fun m r a b => m.add r a b) s
def execFsub (f : Fields) (s : State) : Out := runWord (fpOp2 f fun m r a b => m.sub r a b) s
def execFmul (f : Fields) (s : State) : Out := runWord (fpOp2 f fun m r a b => m.mul r a b) s
def execFdiv (f : Fields) (s : State) : Out := runWord (fpOp2 f fun m r a b => m.div r a b) s
def execFmin (f : Fields) (s : State) : Out := runWord (fpOp2 f fun m _ a b => m.minmax false a b) s
def execFmax (f : Fields) (s : State) : Out := runWord (fpOp2 f fun m _ a b => m.minmax true a b) s

def execFsqrt (f : Fields) (s : State) : Out :=
  runWord (do
    let t ← getTh
    let m := fpFmt f.var.toNat
    let a ← rdS f.a
    fpPut f.d (m.sqrt (t.rm f.rnd) (fpArg m a))) s

/-- FFMA (R162). -/
def execFfma (f : Fields) (s : State) : Out :=
  runWord (do
    let t ← getTh
    let m := fpFmt f.var.toNat
    let a ← rdS f.a
    let b ← rdS f.b
    let c ← rdS f.c
    fpPut f.d (m.fma (t.rm f.rnd) false false (fpArg m a) (fpArg m b) (fpArg m c))) s

/-- FCMP (R163): FN[3:2] is the condition. -/
def execFcmp (f : Fields) (s : State) : Out :=
  runWord (do
    let m := fpFmt f.var.toNat
    let a ← rdS f.a
    let b ← rdS f.b
    let r := m.compare (f.var.toNat / 4) (fpArg m a) (fpArg m b)
    fpPut f.d (b2n r.1, r.2)) s

/-- FCVT's conversion (R164): source and destination codes of Table 6. -/
def fcvtResult (src dst : Nat) (rm : RM) (a : Word) : Word × Flags :=
  if 4 ≤ src then
    let x := if src = 4 then sInt 64 a.toNat else if src = 5 then uInt 64 a.toNat
      else if src = 6 then sInt 32 a.toNat else uInt 32 a.toNat
    let r := (fpFmt dst).ofInt rm x
    (BitVec.ofNat 64 r.1, r.2)
  else
    let v := (fpFmt src).decode (fpArg (fpFmt src) a)
    if 4 ≤ dst then
      let w := if dst < 6 then 64 else 32
      let u := dst = 5 || dst = 7
      let r := toInt w u rm v
      (if dst = 7 then zxWord 32 (wrap 32 r.1) else putWord w r.1, r.2)
    else
      let r := (fpFmt dst).ofVal rm v
      (BitVec.ofNat 64 r.1, r.2)

def execFcvt (f : Fields) (s : State) : Out :=
  runWord (do
    let t ← getTh
    let a ← rdS f.a
    let r := fcvtResult (f.xm.toNat / 8) (f.xm.toNat % 8) (t.rm f.rnd) a
    fpFlags r.2
    wrS f.d r.1) s

/-- FCLASS (R165). -/
def execFclass (f : Fields) (s : State) : Out :=
  runWord (do
    let m := fpFmt f.var.toNat
    let a ← rdS f.a
    wrS f.d (BitVec.ofNat 64 (m.classify (fpArg m a)))) s

end Sys2Proof.Machine
end

