-- ==== Sys2Proof/Machine/IntOps.lean ====
section
/-! DEFINITION. Scalar integer arithmetic and logic (spec/07 R150–R160). -/

namespace Sys2Proof.Machine

/-- The result of a two-operand integer instruction (R150): the value to put and whether it was clamped. -/
def intResult (g : Int → Int → Int) (w : Nat) (sat u : Bool) (a b : Word) : Word × Bool :=
  let x := g (opd w u a) (opd w u b)
  let (y, cl) := if sat then clampTo w u x else (x, false)
  (putWord w y, cl)

/-- Two-operand integer instructions (R150). -/
def intOp (f : Fields) (g : Int → Int → Int) : M Unit := do
  let a ← rdS f.a
  let b ← opB f
  let r := intResult g f.w f.sat f.u a b
  setSat r.2
  wrS f.d r.1

/-- A bitwise operation on the low `w` bits (R150). -/
def bitOp (f : Fields) (g : Nat → Nat → Nat) : M Unit := do
  let a ← rdS f.a
  let b ← opB f
  wrS f.d (sxWord f.w (g (a.toNat % 2 ^ f.w) (b.toNat % 2 ^ f.w)))

def execAdd (f : Fields) (s : State) : Out := runWord (intOp f fun x y => x + y) s
def execSub (f : Fields) (s : State) : Out := runWord (intOp f fun x y => x - y) s
def execMul (f : Fields) (s : State) : Out := runWord (intOp f fun x y => x * y) s
def execAnd (f : Fields) (s : State) : Out := runWord (bitOp f (· &&& ·)) s
def execOr (f : Fields) (s : State) : Out := runWord (bitOp f (· ||| ·)) s
def execXor (f : Fields) (s : State) : Out := runWord (bitOp f (· ^^^ ·)) s
def execMin (f : Fields) (s : State) : Out := runWord (intOp f fun x y => if x ≤ y then x else y) s
def execMax (f : Fields) (s : State) : Out := runWord (intOp f fun x y => if x ≤ y then y else x) s

/-- MULH (R151): the upper w bits of the product. -/
def mulhResult (w : Nat) (u : Bool) (a b : Word) : Word := putWord w (opd w u a * opd w u b / ((2 ^ w : Nat) : Int))

def execMulh (f : Fields) (s : State) : Out :=
  runWord (do
    let a ← rdS f.a
    let b ← rdS f.b
    wrS f.d (mulhResult f.w f.u a b)) s

/-- DIV (R152): rounded towards zero; SAT clamps the one overflow. -/
def divResult (w : Nat) (sat u : Bool) (a b : Word) : Word × Bool :=
  let q := (opd w u a).tdiv (opd w u b)
  if sat && !u && decide (hiBound w false < q) then (putWord w (hiBound w false), true) else (putWord w q, false)

/-- REM (R152): takes the sign of a. -/
def remResult (w : Nat) (u : Bool) (a b : Word) : Word :=
  putWord w (opd w u a - (opd w u a).tdiv (opd w u b) * opd w u b)

def execDiv (f : Fields) (s : State) : Out :=
  runWord (do
    let a ← rdS f.a
    let b ← rdS f.b
    raiseIf (opd f.w f.u b == 0) 0x110
    let r := divResult f.w f.sat f.u a b
    setSat r.2
    wrS f.d r.1) s

def execRem (f : Fields) (s : State) : Out :=
  runWord (do
    let a ← rdS f.a
    let b ← rdS f.b
    raiseIf (opd f.w f.u b == 0) 0x111
    wrS f.d (remResult f.w f.u a b)) s

/-- The shift amount (R153): b[5:0], or b[4:0] when w = 32. -/
def shiftAmount (w : Nat) (b : Word) : Nat := b.toNat % w

def shlResult (w : Nat) (a b : Word) : Word := putWord w (opd w false a * ((2 ^ shiftAmount w b : Nat) : Int))
def shrResult (w : Nat) (a b : Word) : Word := putWord w (uInt w a.toNat / ((2 ^ shiftAmount w b : Nat) : Int))
def sraResult (w : Nat) (a b : Word) : Word := putWord w (sInt w a.toNat / ((2 ^ shiftAmount w b : Nat) : Int))

/-- Shifts (R153). -/
def shiftOp (f : Fields) (g : Nat → Word → Word → Word) : M Unit := do
  let a ← rdS f.a
  let b ← opB f
  wrS f.d (g f.w a b)

def execShl (f : Fields) (s : State) : Out := runWord (shiftOp f shlResult) s
def execShr (f : Fields) (s : State) : Out := runWord (shiftOp f shrResult) s
def execSra (f : Fields) (s : State) : Out := runWord (shiftOp f sraResult) s

/-- SLT (R154); FN[2] is `.le`. -/
def sltResult (w : Nat) (u le : Bool) (a b : Word) : Word :=
  if opd w u a < opd w u b ∨ (le = true ∧ opd w u a = opd w u b) then 1 else 0

/-- SEQ (R154); FN[2] is `.ne`. -/
def seqResult (w : Nat) (ne : Bool) (a b : Word) : Word :=
  if (a.toNat % 2 ^ w == b.toNat % 2 ^ w) != ne then 1 else 0

def execSlt (f : Fields) (s : State) : Out :=
  runWord (do
    let a ← rdS f.a
    let b ← opB f
    wrS f.d (sltResult f.w f.u (f.var.getLsbD 2) a b)) s

def execSeq (f : Fields) (s : State) : Out :=
  runWord (do
    let a ← rdS f.a
    let b ← opB f
    wrS f.d (seqResult f.w (f.var.getLsbD 2) a b)) s

/-- One-operand instructions whose result is a function of a. -/
def unaryOp (f : Fields) (g : Word → Word) : M Unit := do
  let a ← rdS f.a
  wrS f.d (g a)

/-- CLZ (R155). -/
def clzResult (w : Nat) (a : Word) : Word := BitVec.ofNat 64 (w - bitLen (a.toNat % 2 ^ w))

/-- POPC (R155). -/
def popcResult (w : Nat) (a : Word) : Word := BitVec.ofNat 64 (popcount w a.toNat)

/-- EXT (R156). -/
def extResult (w : Nat) (zx : Bool) (a : Word) : Word := if zx then zxWord w a.toNat else sxWord w a.toNat

def execClz (f : Fields) (s : State) : Out := runWord (unaryOp f (clzResult f.w)) s
def execPopc (f : Fields) (s : State) : Out := runWord (unaryOp f (popcResult f.w)) s
def execExt (f : Fields) (s : State) : Out :=
  runWord (unaryOp f (extResult (widthOf f.var.toNat) (f.var.getLsbD 2))) s

/-- BFX (R157). -/
def bfxResult (a b : Word) : Word :=
  let pos := bits b.toNat 5 0
  let len := min (bits b.toNat 12 6) 64
  let x := (a.toNat >>> pos) % 2 ^ len
  if len = 0 then 0 else if b.getLsbD 13 then BitVec.ofNat 64 x else sxWord len x

/-- BFI (R157), which reads d. -/
def bfiResult (d a b : Word) : Word :=
  let pos := bits b.toNat 5 0
  let len := min (bits b.toNat 12 6) 64
  let mask : Word := BitVec.ofNat 64 ((2 ^ len - 1) * 2 ^ pos)
  (d &&& ~~~mask) ||| (BitVec.ofNat 64 (a.toNat * 2 ^ pos) &&& mask)

def execBfx (f : Fields) (s : State) : Out :=
  runWord (do
    let a ← rdS f.a
    let b ← opB f
    wrS f.d (bfxResult a b)) s

def execBfi (f : Fields) (s : State) : Out :=
  runWord (do
    let d ← rdS f.d
    let a ← rdS f.a
    let b ← opB f
    wrS f.d (bfiResult d a b)) s

/-- MOV (R158). -/
def execMov (f : Fields) (s : State) : Out := runWord (unaryOp f id) s

/-- v of LI and LIH: IMM, or a[31:0] (R158). -/
def opV (f : Fields) : M (BitVec 32) :=
  match f.imm with
  | some i => pure i
  | none => do
    let a ← rdS f.a
    return a.setWidth 32

def execLi (f : Fields) (s : State) : Out :=
  runWord (do
    let v ← opV f
    wrS f.d (v.signExtend 64)) s

def execLih (f : Fields) (s : State) : Out :=
  runWord (do
    let d ← rdS f.d
    let v ← opV f
    wrS f.d (v ++ d.setWidth 32)) s

/-- LEA (R159): no access, no translation. -/
def execLea (f : Fields) (s : State) : Out :=
  runWord (do
    let a ← rdS f.a
    let b ← opB f
    wrS f.d (a + b * BitVec.ofNat 64 (2 ^ (if f.imm.isSome then 0 else f.var.toNat)))) s

/-- SEL (R160). -/
def execSel (f : Fields) (s : State) : Out :=
  runWord (do
    let a ← rdS f.a
    let b ← rdS f.b
    let c ← rdS f.c
    wrS f.d (if c = 0 then b else a)) s

end Sys2Proof.Machine
end

