-- ==== Sys2Proof/Machine/Paired.lean ====
section
/-! DEFINITION. Paired words: the half-ops as their equivalent full instructions (spec/06 R127–R130, spec/20 R367). -/

namespace Sys2Proof.Machine

/-- Fields with everything zero. -/
def Fields.zero : Fields where
  d := 0
  a := 0
  b := 0
  c := 0
  ca := false
  cb := false
  cc := false
  m := 0
  mn := false
  var := 0
  lm := false
  rnd := 0
  sat := false
  u := false
  p := false
  seg := 0
  xm := 0
  imm := none

/-- The register a field of a slot names: bank E for slot 0, bank O for slot 1 (R128). -/
def bankReg (slot1 : Bool) (x : BitVec 5) : BitVec 6 := (x.setWidth 6) <<< 1 ||| (if slot1 then 1 else 0)

/-- The fields of the equivalent full instruction (R130 Table 7): `x` its IMM14, extended. -/
def halfFields (slot1 : Bool) (h : Half) (withA : Bool) (imm : Option (BitVec 32)) : Fields :=
  let d := bankReg slot1 h.d
  let a := bankReg slot1 h.a
  { Fields.zero with d := d, a := if withA then a else d, b := if withA || imm.isSome then 0 else a, ca := h.ca, cb := h.ca, imm := imm }

/-- LD and ST of a half: 64 bits at A + IMM14 × 8. -/
def halfMem (slot1 : Bool) (h : Half) (isStore : Bool) : M Unit := do
  let a ← peekS (bankReg slot1 h.a)
  let ea := a + (h.imm.signExtend 64) * 8
  let clean := cleanS (bankReg slot1 h.a)
  if isStore then
    let d ← peekS (bankReg slot1 h.d)
    store (← getTh).who accStore 8 ea 8 d.toNat (do clean; cleanS (bankReg slot1 h.d))
  else loadReg (bankReg slot1 h.d) 64 false ea clean

/-- A vector half whose shift amount is at or above SEW: a class-0x0 cause, found before either slot executes (R129, R367). -/
def halfRange (s : State) (h : Half) : Bool :=
  (h.hop == 41 || h.hop == 42) && decide ((vcOf s).sew ≤ h.imm.toNat)

/-- The conditions of a vector half at issue (R130, R367): those of its full instruction's fields, and GROUP other than 0 or a SEW it
refuses; the lowest detail comes first (R345). -/
def halfVecCheck (slot1 : Bool) (h : Half) : M Unit := do
  let s ← get
  let v := vcOf s
  let n := h.hop.toNat
  let isFp := n == 43 || n == 44 || n == 48 || n == 49
  let slide := n == 45 || n == 46
  let readsA := !(slide || n == 41 || n == 42 || n == 47)
  if isFp && v.sew == 64 then needFeat 0
  needVector
  raiseFirst (grpBad (bankReg slot1 h.d) v.regs ++ (if readsA then grpBad (bankReg slot1 h.a) v.regs else []) ++
    [(slide, 0x0E4), (v.grp != 0 || isFp && v.sew == 8, 0x0EF)]) v.vcfg

/-- A half-op (R130 Table 7). -/
def halfM (slot1 : Bool) (h : Half) : M Unit := do
  let n := h.hop.toNat
  let da := halfFields slot1 h false none
  let one := halfFields slot1 h true none
  let sx := halfFields slot1 h false (some (h.imm.signExtend 32))
  let zx := halfFields slot1 h false (some (h.imm.setWidth 32))
  if 32 ≤ n then halfVecCheck slot1 h
  match n with
  | 1 => intOp da fun x y => x + y
  | 2 => intOp sx fun x y => x + y
  | 3 => intOp da fun x y => x - y
  | 4 => bitOp da (· &&& ·)
  | 5 => bitOp da (· ||| ·)
  | 6 => bitOp da (· ^^^ ·)
  | 7 => shiftOp zx shlResult
  | 8 => shiftOp zx shrResult
  | 9 => shiftOp zx sraResult
  | 10 => intOp da fun x y => if x ≤ y then x else y
  | 11 => intOp da fun x y => if x ≤ y then y else x
  | 12 => unaryOp one id
  | 13 => wrS da.d (h.imm.signExtend 64)
  | 14 => halfMem slot1 h false
  | 15 => halfMem slot1 h true
  | 16 => intOp da fun x y => x * y
  | 32 => vaddM da
  | 33 => vsubM da
  | 34 => vmulM da
  | 35 => vminM da
  | 36 => vmaxM da
  | 37 => vandM da
  | 38 => vorM da
  | 39 => vxorM da
  | 40 => vmvM one
  | 41 => vshlM zx
  | 42 => vshrM zx
  | 43 => vfaddM da
  | 44 => vfmulM da
  | 45 => slideM zx true
  | 46 => slideM zx false
  | 47 => vaddM sx
  | 48 => vfminM da
  | 49 => vfmaxM da
  | 50 => vabsM one
  | _ => pure ()

/-- Decode a word, with the class-0x0 condition of R345's order: slot 0's vector shift amount, whose limit is SEW, comes before
what slot 1 of its word meets (R129, R367). -/
def decodeIn (s : State) (w : Word) : Except EncErr Instr :=
  match decodeWord w with
  | .ok i => .ok i
  | .error e =>
    let h0 := unpackHalf (w.toNat / 2 ^ 31 % 2 ^ 31)
    if w.toNat / 2 ^ 62 = 2 && (h0.check false).isNone && halfRange s h0 then .error .immediateRange else .error e

/-- Class-0x0 conditions come first, then slot 0, then slot 1, whose other causes leave slot 0's effect (R129). A slot that resumes
with VPART (R351) is slot 0, or slot 1 when SLOT is set too. -/
def runPaired (i : Instr) (h0 h1 : Half) (s : State) : Out :=
  if s.th.live then
    let back (slot1 : Bool) (c : Cause) (s0 s' : State) : Out :=
      .next (endWord c slot1 s (if c.keep then s' else keepTlb s0 s'))
    let wait (r : WaitReason) : Out := .next (waitFor r s)
    let hold (r : WaitReason) (slot1 : Bool) (s' : State) : Out :=
      .next { s' with th := { s'.th with wait := some r, resume := s'.th.resume.map fun x => { x with slot1 := slot1 } }, chosen := .none }
    let second (s1 : State) : Out :=
      match (halfM true h1).run s1 with
      | .ok _ s2 => .next (complete s (s.th.pc + 8) s2)
      | .error (.cause c) s2 => back true c s1 s2
      | .error (.wait r) _ => wait r
      | .error (.hold r) s2 => hold r true s2
      | .error .gone s2 => .next s2
    if halfRange s h0 || halfRange s h1 then
      back s.th.resumeSlot1 { code := 0x012, xval := firstWord i } s s
    else if s.th.resumeSlot1 then second s
    else
      match (halfM false h0).run s with
      | .ok _ s1 =>
        -- a stop may fall between the slots (R129, R348)
        if s.chosen == .cut && Config.freeBool s.free then
          .next { s1 with th := s1.th.noteStop true false false, chosen := .none }
        else second { s1 with th := { s1.th with resume := none } }
      | .error (.cause c) s1 => back false c s s1
      | .error (.wait r) _ => wait r
      | .error (.hold r) s1 => hold r false s1
      | .error .gone s1 => .next s1
  else .fault .noThread

def execPairedWord (h0 h1 : Half) (s : State) : Out := runPaired (.pairedWord h0 h1) h0 h1 s

end Sys2Proof.Machine
end

