-- ==== Sys2Proof/Machine/Crypto.lean ====
section
/-! DEFINITION. What R339 checks an image with: SHA-384, and ECDSA over brainpoolP384r1 (spec/18 R339). The spec names the two by
their standards; the constants and steps are those of FIPS 180-4, FIPS 186-5 and RFC 5639 (PRESUMED, log 33). -/

namespace Sys2Proof.Machine

/-! ### SHA-384 -/

def shaKeys0 : List Nat :=
  [0x428A2F98D728AE22, 0x7137449123EF65CD, 0xB5C0FBCFEC4D3B2F, 0xE9B5DBA58189DBBC,
   0x3956C25BF348B538, 0x59F111F1B605D019, 0x923F82A4AF194F9B, 0xAB1C5ED5DA6D8118,
   0xD807AA98A3030242, 0x12835B0145706FBE, 0x243185BE4EE4B28C, 0x550C7DC3D5FFB4E2,
   0x72BE5D74F27B896F, 0x80DEB1FE3B1696B1, 0x9BDC06A725C71235, 0xC19BF174CF692694]
def shaKeys1 : List Nat :=
  [0xE49B69C19EF14AD2, 0xEFBE4786384F25E3, 0x0FC19DC68B8CD5B5, 0x240CA1CC77AC9C65,
   0x2DE92C6F592B0275, 0x4A7484AA6EA6E483, 0x5CB0A9DCBD41FBD4, 0x76F988DA831153B5,
   0x983E5152EE66DFAB, 0xA831C66D2DB43210, 0xB00327C898FB213F, 0xBF597FC7BEEF0EE4,
   0xC6E00BF33DA88FC2, 0xD5A79147930AA725, 0x06CA6351E003826F, 0x142929670A0E6E70]
def shaKeys2 : List Nat :=
  [0x27B70A8546D22FFC, 0x2E1B21385C26C926, 0x4D2C6DFC5AC42AED, 0x53380D139D95B3DF,
   0x650A73548BAF63DE, 0x766A0ABB3C77B2A8, 0x81C2C92E47EDAEE6, 0x92722C851482353B,
   0xA2BFE8A14CF10364, 0xA81A664BBC423001, 0xC24B8B70D0F89791, 0xC76C51A30654BE30,
   0xD192E819D6EF5218, 0xD69906245565A910, 0xF40E35855771202A, 0x106AA07032BBD1B8]
def shaKeys3 : List Nat :=
  [0x19A4C116B8D2D0C8, 0x1E376C085141AB53, 0x2748774CDF8EEB99, 0x34B0BCB5E19B48A8,
   0x391C0CB3C5C95A63, 0x4ED8AA4AE3418ACB, 0x5B9CCA4F7763E373, 0x682E6FF3D6B2B8A3,
   0x748F82EE5DEFB2FC, 0x78A5636F43172F60, 0x84C87814A1F0AB72, 0x8CC702081A6439EC,
   0x90BEFFFA23631E28, 0xA4506CEBDE82BDE9, 0xBEF9A3F7B2C67915, 0xC67178F2E372532B]
def shaKeys4 : List Nat :=
  [0xCA273ECEEA26619C, 0xD186B8C721C0C207, 0xEADA7DD6CDE0EB1E, 0xF57D4F7FEE6ED178,
   0x06F067AA72176FBA, 0x0A637DC5A2C898A6, 0x113F9804BEF90DAE, 0x1B710B35131C471B,
   0x28DB77F523047D84, 0x32CAAB7B40C72493, 0x3C9EBE0A15C9BEBC, 0x431D67C49C100D4C,
   0x4CC5D4BECB3E42B6, 0x597F299CFC657E2A, 0x5FCB6FAB3AD6FAEC, 0x6C44198C4A475817]

/-- The round constants. -/
def shaKeys : List Nat := shaKeys0 ++ shaKeys1 ++ shaKeys2 ++ shaKeys3 ++ shaKeys4

/-- The chaining value a message starts from. -/
def shaStart : List Nat :=
  [0xCBBB9D5DC1059ED8, 0x629A292A367CD507, 0x9159015A3070DD17, 0x152FECD8F70E5939,
   0x67332667FFC00B31, 0x8EB44A8768581511, 0xDB0C2E0D64F98FA7, 0x47B5481DBEFA4FA4]

def rotr64 (n x : Nat) : Nat := x / 2 ^ n + x * 2 ^ (64 - n) % 2 ^ 64

/-- Sum of values modulo 2^64. -/
def sum64 (l : List Nat) : Nat := l.sum % 2 ^ 64

/-- The message schedule, newest word first: sixteen words of the block, then `n` more. -/
def shaSchedule : Nat → List Nat → List Nat
  | 0, w => w
  | n + 1, w =>
    let a := w.getD 14 0
    let b := w.getD 1 0
    let s0 := rotr64 1 a ^^^ rotr64 8 a ^^^ a / 2 ^ 7
    let s1 := rotr64 19 b ^^^ rotr64 61 b ^^^ b / 2 ^ 6
    shaSchedule n (sum64 [w.getD 15 0, s0, w.getD 6 0, s1] :: w)

/-- One round on the eight working values. -/
def shaRound (v : List Nat) (k w : Nat) : List Nat :=
  match v with
  | [a, b, c, d, e, f, g, h] =>
    let s1 := rotr64 14 e ^^^ rotr64 18 e ^^^ rotr64 41 e
    let ch := (e &&& f) ^^^ ((2 ^ 64 - 1 - e) &&& g)
    let t := sum64 [h, s1, ch, k, w]
    let s0 := rotr64 28 a ^^^ rotr64 34 a ^^^ rotr64 39 a
    let maj := (a &&& b) ^^^ (a &&& c) ^^^ (b &&& c)
    [sum64 [t, s0, maj], a, b, c, (d + t) % 2 ^ 64, e, f, g]
  | v => v

/-- Digest one block of sixteen words. -/
def shaBlock (h block : List Nat) : List Nat :=
  let w := (shaSchedule 64 block.reverse).reverse
  let v := (shaKeys.zip w).foldl (fun v e => shaRound v e.1 e.2) h
  (h.zip v).map fun e => (e.1 + e.2) % 2 ^ 64

/-- A value of bytes in order, the first the highest. -/
def bigEndian (l : List (BitVec 8)) : Nat := l.foldl (fun n b => n * 256 + b.toNat) 0

/-- Cut a list into pieces of `k`, at most `n` of them. -/
def pieces {α : Type} (k : Nat) : Nat → List α → List (List α)
  | 0, _ => []
  | n + 1, l => if l.isEmpty then [] else l.take k :: pieces k n (l.drop k)

/-- A message with its padding: a one bit, zeros, and its length in bits as sixteen bytes. -/
def shaPad (m : List (BitVec 8)) : List (BitVec 8) :=
  let n := m.length
  let zeros := (239 - n % 128) % 128
  m ++ 0x80 :: List.replicate zeros 0 ++ (List.range 16).map fun k => BitVec.ofNat 8 (8 * n / 256 ^ (15 - k))

/-- SHA-384 of a message. -/
def sha384 (m : List (BitVec 8)) : BitVec 384 :=
  let p := shaPad m
  let blocks := pieces 128 p.length p
  let h := blocks.foldl (fun h b => shaBlock h ((pieces 8 16 b).map bigEndian)) shaStart
  BitVec.ofNat 384 ((h.take 6).foldl (fun n x => n * 2 ^ 64 + x) 0)

/-! ### The curve: y² = x³ + ax + b over the integers modulo `fieldP` -/

def fieldP : Nat := 0x8CB91E82A3386D280F5D6F7E50E641DF152F7109ED5456B412B1DA197FB71123ACD3A729901D1A71874700133107EC53
def curveA : Nat := 0x7BC382C63D8C150C3C72080ACE05AFA0C2BEA28E4FB22787139165EFBA91F90F8AA5814A503AD4EB04A8C7DD22CE2826
def curveB : Nat := 0x04A8C7DD22CE28268B39B55416F0447C2FB77DE107DCD2A62E880EA53EEB62D57CB4390295DBC9943AB78696FA504C11
def baseX : Nat := 0x1D1C64F068CF45FFA2A63A81B7C13F6B8847A3E77EF14FE3DB7FCAFE0CBD10E8E826E03436D646AAEF87B2E247D4AF1E
def baseY : Nat := 0x8ABE1D7520F9C2A45CB1EB8E95CFD55262B70B29FEEC5864E19C054FF99129280E4646217791811142820341263C5315
def orderN : Nat := 0x8CB91E82A3386D280F5D6F7E50E641DF152F7109ED5456B31F166E6CAC0425A7CF3AB6AF6B7FC3103B883202E9046565

def subP (x y : Nat) : Nat := (x + fieldP - y % fieldP) % fieldP

/-- A point as X/Z², Y/Z³; Z is 0 at infinity. -/
structure CurvePoint where
  x : Nat
  y : Nat
  z : Nat
  deriving DecidableEq, Repr

def CurvePoint.double (p : CurvePoint) : CurvePoint :=
  let yy := p.y * p.y % fieldP
  let s := 4 * p.x * yy % fieldP
  let zz := p.z * p.z % fieldP
  let m := (3 * p.x * p.x + curveA * (zz * zz % fieldP)) % fieldP
  let x := subP (m * m) (2 * s)
  ⟨x, subP (m * subP s x) (8 * yy * yy), 2 * p.y * p.z % fieldP⟩

def CurvePoint.add (p q : CurvePoint) : CurvePoint :=
  if p.z = 0 then q
  else if q.z = 0 then p
  else
    let pp := p.z * p.z % fieldP
    let qq := q.z * q.z % fieldP
    let u := p.x * qq % fieldP
    let s := p.y * q.z % fieldP * qq % fieldP
    let h := subP (q.x * pp) u
    let r := subP (q.y * p.z % fieldP * pp) s
    if h = 0 then (if r = 0 then p.double else ⟨1, 1, 0⟩)
    else
      let hh := h * h % fieldP
      let hhh := hh * h % fieldP
      let v := u * hh % fieldP
      let x := subP (r * r) (hhh + 2 * v)
      ⟨x, subP (r * subP v x) (s * hhh), h * p.z % fieldP * q.z % fieldP⟩

/-- A multiple of a point, by the low `n` bits of `k`. -/
def CurvePoint.times (p : CurvePoint) : Nat → Nat → CurvePoint
  | 0, _ => ⟨1, 1, 0⟩
  | n + 1, k =>
    let q := (CurvePoint.times p n (k / 2)).double
    if k % 2 = 1 then q.add p else q

/-- A power modulo `m`, by the low `n` bits of the exponent. -/
def powMod (m x : Nat) : Nat → Nat → Nat
  | 0, _ => 1
  | n + 1, k =>
    let y := powMod m x n (k / 2)
    let y := y * y % m
    if k % 2 = 1 then y * x % m else y

/-- A public key, x then y, names a point of the curve. -/
def keyPoint (key : BitVec 768) : Option CurvePoint :=
  let x := key.toNat / 2 ^ 384
  let y := key.toNat % 2 ^ 384
  if decide (x < fieldP) && decide (y < fieldP) && y * y % fieldP == (x * x % fieldP * x + curveA * x + curveB) % fieldP then some ⟨x, y, 1⟩ else none

/-- ECDSA with SHA-384: the signature, r then s, of a message under a public key. -/
def ecdsaOk (key sig : BitVec 768) (m : List (BitVec 8)) : Bool :=
  let r := sig.toNat / 2 ^ 384
  let s := sig.toNat % 2 ^ 384
  match keyPoint key with
  | none => false
  | some q =>
    if r = 0 ∨ orderN ≤ r ∨ s = 0 ∨ orderN ≤ s then false
    else
      let w := powMod orderN s 384 (orderN - 2)
      let e := (sha384 m).toNat
      let g : CurvePoint := ⟨baseX, baseY, 1⟩
      let p := (g.times 384 (e * w % orderN)).add (q.times 384 (r * w % orderN))
      let zz := p.z * p.z % fieldP
      p.z != 0 && ((r + orderN < fieldP && p.x == (r + orderN) * zz % fieldP) || p.x == r * zz % fieldP)

/-- The signature, r then s, of a message under the private key `d`, with the secret number `k` (R339, R340). -/
def ecdsaSign (d k : Nat) (m : List (BitVec 8)) : BitVec 768 :=
  let g : CurvePoint := ⟨baseX, baseY, 1⟩
  let p := g.times 384 k
  let z := powMod fieldP p.z 384 (fieldP - 2)
  let r := p.x * z % fieldP * z % fieldP % orderN
  let s := powMod orderN k 384 (orderN - 2) * ((sha384 m).toNat + r * d) % orderN
  BitVec.ofNat 768 (r * 2 ^ 384 + s)

end Sys2Proof.Machine
end

