-- ==== Sys2Proof/Machine/Sched.lean ====
section
/-! DEFINITION. The scheduler, the dispatcher and issue; what wakes a waiting thread; background loads; update lines; the
memory-side cache (spec/02 R24–R48, spec/03 R65–R66, spec/10 R248, R252). -/

namespace Sys2Proof.Machine

/-! ### Creating threads (R28, R29, R41) -/

/-- The priority and the head entry of the highest-priority queue that holds one. -/
def Partition.headLaunch (q : Partition) : Option (Nat × LaunchEntry) :=
  (List.range 8).findSome? fun k => ((q.queues.getD k []).head?).map fun e => (k, e)

/-- Replace the head entry of queue `k`, or remove it. -/
def Partition.setHead (q : Partition) (k : Nat) (e : Option LaunchEntry) : Partition :=
  { q with queues := q.queues.mapIdx fun i l =>
      if i = k then (match e with
        | some x => x :: l.drop 1
        | none => l.drop 1) else l }

/-- The first free table entry at or after `at_`, looking at `n` entries. -/
def freeEntry (s : State) (p : Nat) : Nat → Nat → Option Nat
  | 0, _ => none
  | n + 1, at_ =>
    let e := at_ % 65536
    if (s.thread (threadKey p e)).live then freeEntry s p n (at_ + 1) else some e

/-- The entry the scheduler takes: any free one (R24). -/
def takeEntry (s : State) (p : Nat) (want : Option Nat) : Option Nat :=
  match want with
  | some e => if e < 65536 && !(s.thread (threadKey p e)).live then some e else none
  | none => freeEntry s p ((s.threadsOf p).length + 1) (Config.freeNat s.free)

/-- The state of a new thread (R29 Table 2): everything it does not name is zero, so its level is user (log 14). -/
def newThread (p entry reuse : Nat) (e : LaunchEntry) (handle : Word) : Thread :=
  let d := e.desc.toNat
  let i := e.base + e.next
  let t := { Thread.zero with
    live := true, part := p, entry := entry, pc := descEntry d
    tid := BitVec.ofNat 32 (entry + reuse % 65536 * 65536)
    isL := descIsL d, prio := descPrio d, seq := e.seq, index := i, req := descReq d }
  let t := ((t.setS 1 (descArg d)).setS 2 (BitVec.ofNat 64 i)).setS 3 (BitVec.ofNat 64 (descCount d))
  (t.setS 62 (BitVec.ofNat 64 (descStackBase d + (i + 1) * descStackSize d))).setHandle 0 handle

/-- The handle a launch's threads receive: the first creation adds COUNT to MEMBERS in one step (R41). `none` while the addition
does not fit, an error where the object is inconsistent. Of an object that is both, R41 says that the entry waits and that the launch
is dropped: the model drops it (DESIGN CHOICE, log 30). -/
def joinLaunch (e : LaunchEntry) (s : State) : Except Unit (Option (Word × State)) :=
  let d := e.desc.toNat
  if !descJoin d then .ok (some (0, s))
  else
    match e.handle with
    | some h => .ok (some (h, s))
    | none =>
      let (s, x) := physRead (freshen e.gpa 64 s) e.gpa 64
      let o := GObj.ofNat x
      if o.inconsistent then .error ()
      else if 65535 < o.members + e.count then .ok none
      else .ok (some (handleOf (descGroup d) o.phase, physWrite s e.gpa 24 { o with members := o.members + e.count }.toNat))

/-- A dropped launch: its threads that were not created count as none of a TLAUNCH's completed ones (R41, R306). -/
def dropLaunch (p seq n : Nat) (s : State) : State :=
  { s with decs := s.decs.map fun d =>
      (d.1, { d.2 with running := d.2.running.map fun r =>
        if r.launch.contains (p, seq) then { r with done := r.done - n } else r }) }

/-- THREAD_CREATE: the next thread of the head launch entry, in index order. `want` names the table entry the scheduler takes;
none leaves the choice to the model's free values. -/
def execThreadCreate (p : Nat) (want : Option Nat) (s : State) : Out :=
  let q := s.part p
  match q.headLaunch with
  | none => .next s
  | some (k, e) =>
    match takeEntry s p want with
    | none => .next s
    | some entry =>
      match joinLaunch e s with
      | .error _ =>
        let s := s.setPart p ((s.part p).setHead k none)
        .next (logError 0x128 e.gpa (some p) 0 (dropLaunch p e.seq (e.count - e.next) s))
      | .ok none => .next s
      | .ok (some (h, s)) =>
        let t := newThread p entry (q.reuse.get entry 0) e h
        let e := { e with next := e.next + 1, handle := if descJoin e.desc.toNat then some h else none }
        let s := s.setPart p ((s.part p).setHead k (if e.next < e.count then some e else none))
        .next ((s.setThread (threadKey p entry) t).tick)

/-! ### Placing threads (R31–R33) -/

/-- `x` comes before `y`: priority, launch, index (R32). -/
def Thread.before (x y : Thread) : Bool :=
  if x.prio != y.prio then decide (x.prio < y.prio)
  else if x.seq != y.seq then decide (x.seq < y.seq) else decide (x.index < y.index)

/-- Insert a key into an ordered list. -/
def insertBy (lt : Nat → Nat → Bool) (k : Nat) : List Nat → List Nat
  | [] => [k]
  | x :: l => if lt k x then k :: x :: l else x :: insertBy lt k l

/-- Order a list of keys. -/
def sortBy (lt : Nat → Nat → Bool) : List Nat → List Nat
  | [] => []
  | x :: l => insertBy lt x (sortBy lt l)

/-- The created threads of a partition without a slot, in R32's order. -/
def State.unplaced (s : State) (p : Nat) : List Nat :=
  sortBy (fun a b => (s.thread a).before (s.thread b))
    ((s.threadsOf p).filter fun k => (s.thread k).pos.isNone && !(s.thread k).saved)

/-- No thread occupies a slot of the core. -/
def State.coreEmpty (s : State) (c : Nat) : Bool := (s.residents c).isEmpty

/-- Core `c` can take a thread's class and requirements on lane cluster `l` (slot `l`), and is not kept for another (R22, R33). -/
def State.canTake (s : State) (k c l : Nat) : Bool :=
  let t := s.thread k
  let x := s.core c
  x.inService && (t.req &&& ~~~(x.feat.setWidth 16)) == 0 && (x.reserved.isNone || x.reserved == some k) &&
    (s.inSlot c l).isNone && (lanesFor t.isL l).all fun l => (s.laneOwner c l).isNone

/-- The first lane cluster of core `c` that can take S thread `k`. -/
def State.laneFor (s : State) (k c : Nat) : Option Nat := (List.range 4).find? fun l => s.canTake k c l

/-- The core and slot the dispatcher chooses for thread `k` (R31, R32). An S core is one of that class, whatever contexts the
supervisor has placed there. -/
def State.placeFor (s : State) (k : Nat) : Option (Nat × Nat) :=
  let t := s.thread k
  let cores := coresOf t.part
  let sCore (c : Nat) : Bool := s.coreClass c == some false
  let same (c : Nat) : Bool := (s.residents c).any fun j => (s.thread j).seq == t.seq
  let at_ (c : Nat) : Option (Nat × Nat) := (s.laneFor k c).map fun l => (c, l)
  let free (c : Nat) : Option (Nat × Nat) :=
    if s.coreEmpty c then (if t.isL then (if s.canTake k c 0 then some (c, 0) else none) else at_ c) else none
  if t.isL then cores.findSome? free
  else
    match cores.findSome? fun c => if sCore c && same c then at_ c else none with
    | some x => some x
    | none =>
      match cores.findSome? free with
      | some x => some x
      | none => cores.findSome? fun c => if sCore c then at_ c else none

/-- Whatever core is reserved for thread `k` is so no longer: the thread has its place (R33). -/
def unreserve (k : Nat) (s : State) : State :=
  { s with cores := s.cores.map fun e => (e.1, if e.2.reserved = some k then { e.2 with reserved := none } else e.2) }

/-- Put thread `k` into slot `l` of core `c`, which takes its class if it was empty (R31). The slot runs, unless the partition is
halted (log 9). The thread begins with an acquire of the default object at partition scope (R26, R81). -/
def placeThread (k c l : Nat) (s : State) : State :=
  let t := s.thread k
  let pos : Pos := ⟨c / 4 % 10, c % 4, l⟩
  let first := s.coreEmpty c
  let s := unreserve k (s.setThread k { t with pos := some pos, home := some pos, lc := some l, passes := 0, boosted := none })
  let s := acquireLines (s.unbound t.part) (c / 4) 2 s
  let x := s.core c
  let b : BitVec 8 := BitVec.ofNat 8 (2 ^ l)
  let x := if first then { x with cls := some t.isL } else x
  let x := if (s.part t.part).halted then x else { x with stop := x.stop &&& ~~~b, stopped := x.stopped &&& ~~~b }
  let s := s.setCore c x
  s.setThread k ((s.thread k).clipVl x.lpc)

/-- THREAD_PLACE: the first thread in R32's order that some core can take. -/
def execThreadPlace (p : Nat) (s : State) : Out :=
  match (s.unplaced p).findSome? fun k => (s.placeFor k).map fun x => (k, x) with
  | some (k, c, l) => .next (placeThread k c l s)
  | none => .next s

/-- The unplaced L threads without a reservation that the empty core `c` could take, in R32's order (R33). -/
def State.passedOver (s : State) (p c : Nat) : List Nat :=
  let kept (k : Nat) : Bool := (coresOf p).any fun c => (s.core c).reserved == some k
  (s.unplaced p).filter fun k => (s.thread k).isL && !kept k && s.canTake k c 0

/-- L_THREAD_RESERVE: an L thread that has been passed over takes the empty core `c` for itself (R33). The model has no cycles: which
of several has waited so long is free. -/
def execLThreadReserve (p c : Nat) (s : State) : Out :=
  let l := s.passedOver p c
  let k? := if l.length ≤ 1 then l.head? else l[Config.freeNat s.free % l.length]?
  match k? with
  | some k =>
    if c / 40 == p && s.coreEmpty c then
      let s := if l.length ≤ 1 then s else s.tick
      .next (s.setCore c { s.core c with reserved := some k })
    else .next s
  | none => .next s

/-! ### Issue (R34, R35, R181) -/

/-- A thread may be ready: it occupies a slot that runs, is not known to wait, and has no trap or cause of Zinnia's to take. Whether
the word at its pc has all that it needs shows when it is tried: a word that has not was not issued (unissue). -/
def State.ready (s : State) (k : Nat) : Bool :=
  let t := s.thread k
  t.live && t.pos.isSome && t.wait.isNone && t.trap.isNone && t.zfault.isEmpty && !(s.core t.coreNo).stop.getLsbD t.slot

/-- `x` issues before `y` (R34). -/
def Thread.issuesBefore (x y : Thread) : Bool :=
  match x.boosted, y.boosted with
  | some a, some b => decide (a < b)
  | some _, none => true
  | none, some _ => false
  | none, none =>
    if x.prio != y.prio then decide (x.prio < y.prio)
    else if x.seq != y.seq then decide (x.seq < y.seq) else decide (x.slot < y.slot)

/-- The ready threads of a core, in the order of R34. -/
def State.readyList (s : State) (c : Nat) : List Nat :=
  sortBy (fun a b => (s.thread a).issuesBefore (s.thread b)) ((s.residents c).filter s.ready)

/-- A ready leaf on core `c` that issues before its ready thread `k` (R34, R299): it ranks as a thread of priority 0 and launch sequence
number 0. -/
def State.leafBefore (s : State) (c k : Nat) : Option (Nat × Nat × Nat) :=
  let t := s.thread k
  if t.boosted.isNone && (t.prio != 0 || t.seq != 0) then s.coreLeaf c else none

/-- ISSUE: core `c` chooses by R34 among its ready threads and leaves. A leaf that comes first runs next; otherwise the steps that
follow look whether the words of the other threads are ready, and then the chosen thread's word issues. A core may hold words that send
class-1 traffic while the class-0 budget of a period is enforced (R37): the model holds none (DESIGN CHOICE, log 31). -/
def execIssue (c : Nat) (s : State) : Out :=
  match s.readyList c with
  | [] => .next s
  | k :: others =>
    match s.leafBefore c k with
    | some (d, j, l) => .next { s with agenda := .tileLeafRun d j l :: s.agenda }
    | none => .next { s with chosen := .probe k others ⟨(s.thread k).passes, (s.thread k).boosted, []⟩ }

/-- The state in which the word of thread `j` is tried, to see whether it is ready (R35). Its pass count stands one higher than it is,
which a word that proves not ready sets back. -/
def State.probeAt (s : State) (j : Nat) : State :=
  let s := s.select j
  { s with th := { s.th with passes := s.th.passes + 1 }, chosen := .thread (some ⟨s.th.passes, s.th.boosted, []⟩) }

/-- What trying the word of thread `j` came to. Nothing of it stands; a thread whose word was not ready waits from now on, and one
whose word was counts as ready (R35). -/
def probed (k j : Nat) (todo : List Nat) (u : Passes) (o : Out) (s : State) : State :=
  let ready : State := { s with chosen := .probe k todo { u with others := u.others ++ [j] } }
  match o with
  | .next s' =>
    match (s'.thread j).wait with
    | some r =>
      if (s'.thread j).passes = (s.thread j).passes then
        { s.setThread j { s.thread j with wait := some r } with chosen := .probe k todo u }
      else ready
    | none => ready
  | _ => ready

/-- The word of thread `k` issues with the next step: the pass counters of the other ready threads rise, and a yielded thread's pause
ends. What the choice did to the counters stays on record, should the word prove not ready (R35). -/
def beginIssue (k : Nat) (u : Passes) (s : State) : State :=
  let s := s.mapThreads u.others fun t => { t with passes := t.passes + 1 }
  let full := u.others.filter fun j => (s.thread j).passes == 256
  let s := s.mapThreads ((s.residents (s.thread k).coreNo).filter (· != k)) fun t =>
    if t.wait = some .yielded then { t with wait := none } else t
  let s := s.setThread k { s.thread k with passes := 0, boosted := none }
  { (s.select k) with chosen := .thread (some u), agenda := s.agenda ++ full.map fun j => .passBoost j }

/-- PASS_BOOST (R35). -/
def execPassBoost (k : Nat) (s : State) : Out :=
  let t := s.thread k
  if 256 ≤ t.passes && t.boosted.isNone then
    .next { s.setThread k { t with boosted := some s.boosts } with boosts := s.boosts + 1 }
  else .next s

/-! ### Waking (R26, R36, R48, R61, R87, R181, R182, R307) -/

/-- Thread `k` issues its word again, if it waits for a reason. -/
def wake (k : Nat) (why : WaitReason → Bool) (s : State) : State :=
  match (s.thread k).wait with
  | some r => if why r then s.setThread k { s.thread k with wait := none } else s
  | none => s

/-- YIELD_END: 64 cycles have passed. -/
def execYieldEnd (k : Nat) (s : State) : Out := .next (wake k (· == .yielded) s)

/-- WAIT_REEVAL: the word's line was written, or 4,096 cycles have passed. The model lets every word that waits for a condition
of the machine look again, as re-issuing it does no more than that; a word that is inside its effect stays. -/
def execWaitReeval (k : Nat) (s : State) : Out :=
  .next (wake k (fun r => match r with
    | .group _ _ _ | .xfer _ _ _ | .yielded => false
    | _ => true) s)

/-- CHAIN_WAKE: the chain word was written. -/
def execChainWake (k : Nat) (s : State) : Out :=
  .next (wake k (fun r => match r with
    | .chain _ => true
    | _ => false) s)

/-- FIFO_POP_WAKE: the FIFO holds what a load of thread `k` needs: a load that waits at the port completes, and whatever
waits for the port or for its result looks again. -/
def execFifoPopWake (k : Nat) (s : State) : Out :=
  let s := (popWaiting k s).getD s
  .next (wake k (fun r => match r with
    | .fifo _ _ | .load => true
    | _ => false) s)

/-- WATERMARK_STALL_RESUME: the watermark has passed the access, or the channel has ended. -/
def execWatermarkStallResume (k : Nat) (s : State) : Out :=
  .next (wake k (fun r => match r with
    | .watermark _ _ | .channel _ _ _ => true
    | _ => false) s)

/-- LAUNCH_QUEUE_ROOM: the queue the thread waits for has room. -/
def execLaunchQueueRoom (k : Nat) (s : State) : Out :=
  let t := s.thread k
  .next (wake k (fun r => match r with
    | .launchQueue prio => queueRoom (s.part t.part) prio
    | .tileQueue lvl => decide ((s.dec (t.decOf lvl)).queue.length < 64)
    | _ => false) s)

/-- GROUP_WAIT_RELEASE: the phase of the object differs from the member's own. -/
def execGroupWaitRelease (k : Nat) (s : State) : Out :=
  if !(s.thread k).live || (s.thread k).pos.isNone then .next s
  else
    match groupRelease (s.select k) with
    | some s' => .next (s'.select s.cur)
    | none => .next s

/-- VXFER_PAIR: two halves that wait for each other meet. -/
def execVxferPair (k : Nat) (s : State) : Out :=
  match (s.thread k).wait with
  | some (.xfer put tid reg) =>
    let s1 := s.select k
    match (s1.byTid s1.th.part tid).bind (xferPartner s1 put) with
    | some j =>
      match runWord (xferMeet put reg j) { s1 with th := { s1.th with wait := none } } with
      | .next s2 => .next (s2.select s.cur)
      | o => o
    | none => .next s
  | _ => .next s

/-! ### Background loads (R248) -/

/-- Take the first element of a list's entry `i` off; a VLDA with none left is over. -/
def vldaPop (l : List Vlda) (i : Nat) : List Vlda :=
  match l[i]? with
  | some v => if v.todo.length ≤ 1 then removeAt l i else l.set i { v with todo := v.todo.drop 1 }
  | none => l

/-- VLDA_FILL: a running VLDA of thread `k` reads its next element. Which VLDA does is free. -/
def execVldaFill (k : Nat) (s : State) : Out :=
  let t := s.thread k
  let i := Config.freeNat s.free % t.vldas.length
  let i := if t.vldas.length = 1 then 0 else i
  match t.vldas[i]? with
  | some v =>
    match v.todo with
    | e :: _ =>
      let s1 := s.tick.select k
      match (vldaElem (16 * threadLanes s1 s1.th) v e).run s1 with
      | .ok _ s2 =>
        let s2 := { s2 with th := { s2.th with vldas := vldaPop s2.th.vldas i } }
        .next (wake k (· == .vlda) (s2.select s.cur))
      | .error (.wait r) _ => .next (serveWait r s)
      | .error _ _ => .next s
    | [] => .next s
  | none => .next s

/-! ### Update lines and the memory-side cache (R65, R66) -/

/-- UPDATE_LINE_MERGE: core `c` evicts its update line of `line`. -/
def execUpdateLineMerge (c line : Nat) (s : State) : Out :=
  let k := s.core c
  match k.upd.find? fun u => u.line == line with
  | some u => .next (mergeLine (s.setCore c { k with upd := k.upd.filter fun v => v.line != line }) u)
  | none => .next s

/-- The three filter bits of a line (R66). -/
def mscHashes (x : Nat) : List Nat :=
  [0x9E3779B1, 0x85EBCA77, 0xC2B2AE3D].map fun m => x * m % 2 ^ 32 / 2 ^ 19

/-- Where an HBM line is stored (R52): its channel, numbered over the device, the pseudo-channel within it, and its home L2 slice. -/
structure LineHome where
  channel : Nat
  pseudo  : Nat
  die     : Nat
  slice   : Nat
  deriving DecidableEq, Repr

/-- The storage and the home of an HBM line. -/
def lineHome (x : Nat) : LineHome :=
  let pa := x * 128
  let y := pa % 0xC_0000_0000 / 128
  ⟨pa / 0xC_0000_0000 * 80 + y % 80, y / 80 % 2, hbmDie pa, y % 80⟩

/-- The channel of an HBM line. -/
def lineChannel (x : Nat) : Nat := (lineHome x).channel

/-- The home L2 slice of a physical address, as die and slice of the die (R52). Of a view window, whose line a format region
defines, the HBM rule takes the view offset, and takes it modulo a stack's size like an HBM address: R52 says only 'by the HBM rule from
the line's view offset' (DEDUCED, log 65). Cluster windows have none. -/
def homeSlice (s : State) (pa : Nat) : Option (Nat × Nat) :=
  if isHbm pa then some ((lineHome (pa / 128)).die, (lineHome (pa / 128)).slice)
  else if isHost pa || decide (fabricBase ≤ pa) then some (pa / 128 % 2, pa / 128 / 2 % 80)
  else if isView pa then (viewRegion s (pa - viewBase) 1).map fun r => (r.1 / 64, (lineHome ((pa - viewBase) / 128)).slice)
  else none

/-- The partition that holds a home slice, and the slice's number there. -/
def slicePart (h : Nat × Nat) : Nat × Nat := (h.1 * 8 + h.2 / 10, h.2 % 10)

/-- Allocate a line in its set; a full set gives up one of its 16 lines, which is free. -/
def mscAllocate (l : List Nat) (x any : Nat) : List Nat :=
  let mine := l.filter fun y => Config.mscSet y % 256 == Config.mscSet x % 256
  let l := if mine.length < 16 then l else l.filter fun y => some y != mine[Config.freeNat any % mine.length]?
  l ++ [x]

/-- MSC_ACCESS: the slice of channel `ch` serves line `x`. -/
def execMscAccess (ch x : Nat) (s : State) : Out :=
  if !isHbm (x * 128) || lineChannel x != ch then .next s
  else
    let c := s.slices.get ch Slice.reset
    let hs := mscHashes x
    let c' :=
      if c.lines.contains x then c
      else if hs.all fun h => c.filter.getLsbD h then { c with lines := mscAllocate c.lines x s.free }
      else { c with filter := hs.foldl (fun f h => f ||| BitVec.ofNat 8192 (2 ^ h)) c.filter }
    let c' := { c' with count := c.count + 1 }
    .next { s.tick with
      slices := s.slices.set ch c'
      agenda := if c'.count = 2 ^ 20 then s.agenda ++ [.mscFilterClear ch] else s.agenda }

/-- MSC_FILTER_CLEAR: at 2^20 accesses the filter and the count are cleared together. -/
def execMscFilterClear (ch : Nat) (s : State) : Out :=
  let c := s.slices.get ch Slice.reset
  if 2 ^ 20 ≤ c.count then .next { s with slices := s.slices.set ch { c with filter := 0, count := 0 } } else .next s

end Sys2Proof.Machine
end

