-- ==== Sys2Proof/Machine/Platform.lean ====
section
/-! DEFINITION. The host's registers and queues, peers, errors, budgets, resets, start-up and management (spec/18 R332–R343,
spec/21 R376–R379, spec/24). -/

namespace Sys2Proof.Machine

/-! ### Format regions (R67, R70) -/

/-- Register of a format region at an offset of its block. -/
def Region.read (r : Region) (off : Nat) : Word :=
  if off = 0x00 then r.frb else if off = 0x08 then r.frl else if off = 0x10 then r.frs else if off = 0x18 then r.frv
  else if off = 0x20 then r.frk else if off = 0x28 then r.frc else 0

/-- Write one. -/
def Region.write (r : Region) (off : Nat) (v : Word) : Region :=
  if off = 0x00 then { r with frb := masked v 0xF_FFFF_FFFF_FF80 }
  else if off = 0x08 then { r with frl := masked v 0xFFFF_FFFF_FF80 }
  else if off = 0x10 then { r with frs := masked v 0xF_FFFF_FFFF_FFFF }
  else if off = 0x18 then { r with frv := masked v 0xFFFF_FFFF_FF80 }
  else if off = 0x20 then { r with frk := v }
  else if off = 0x28 then { r with frc := masked v 0xF000_0000_3FE7_FF00 }
  else r

/-- FORMAT_REGION_WRITE: the model decodes a view line at each load, so no line under the old setting is left. -/
def writeRegion (die r off : Nat) (v : Word) (s : State) : State :=
  if die < 2 ∧ r < 64 then { s with regions := s.regions.set (die * 64 + r) ((s.regions.get (die * 64 + r) Region.reset).write off v) }
  else s

/-- In minimal mode the compute dies are held in reset, and take no write (R404). -/
def execFormatRegionWrite (die r off : Nat) (v : Word) (s : State) : Out :=
  .next (if s.plat.minimal then s else writeRegion die r off v s)

/-! ### Budgets (R342, R405) -/

/-- A BUDk write is ignored where the shares would pass 1,024. -/
def writeBud (k : Nat) (v : Word) (s : State) : State :=
  let x : BitVec 10 := v.setWidth 10
  let bud := s.bud.mapIdx fun i y => if i = k then x else y
  if (bud.toList.map BitVec.toNat).sum ≤ 1024 then { s with bud := bud } else s

def execBudWrite (k : Nat) (v : Word) (s : State) : Out := .next (writeBud k v s)

/-- The class of a request (R342). -/
def requestClass : Requester → Nat
  | .walk | .context | .marigold => 0
  | .thread prio => if prio = 0 then 0 else 1
  | .merge | .iris | .tileLeaf | .staging | .zinnia => 1
  | .lupin => 2
  | .verbena => 3
  | .aster | .vredst => 4
  | .hostBar | .ringFetch => 5
  | .scrub | .maintenance => 6

/-- Slots class k is guaranteed of a period's. -/
def State.guarantee (s : State) (slots k : Nat) : Nat := (s.bud.toList.getD k 0).toNat * slots / 1024

/-- Slots handed out in ascending class: each class takes what it asks for of those still idle. -/
def handOut : Nat → List Nat → List Nat
  | _, [] => []
  | idle, d :: l => min d idle :: handOut (idle - d) l

/-- Slots each class receives: first what it asks for within its guarantee, then of the slots left idle. -/
def State.slotsServed (s : State) (slots : Nat) (asked : List Nat) : List Nat :=
  let sure := asked.mapIdx fun k d => min d (s.guarantee slots k)
  let more := handOut (slots - sure.sum) ((asked.zip sure).map fun e => e.1 - e.2)
  (sure.zip more).map fun e => e.1 + e.2

/-- ARBITRATION_PERIOD: a point with `slots` slots ends a period in which the agents of `demand` asked for a number of them each.
A class that asked for more than its guarantee is counted (R405). -/
def execArbitrationPeriod (slots : Nat) (demand : List (Requester × Nat)) (s : State) : Out :=
  let asked := (List.range 7).map fun k => ((demand.filter fun e => requestClass e.1 == k).map Prod.snd).sum
  .next { s with
    served := s.slotsServed slots asked
    ovr := s.ovr.mapIdx fun k x => if s.guarantee slots k < asked.getD k 0 then x + 1 else x }

/-! ### The device block and the BARs (R333, R334, R337, R338, R379, R392, R404) -/

/-- A register of a loop port. -/
def portRead (s : State) (p off : Nat) : Nat :=
  if off = 0x10 then s.runningLoops p * 256 + flagAt (s.port p).full 1 + b2n (s.port p).bad else 0

/-- A register of the device block, by 8-byte offset. -/
def deviceRead (s : State) (off : Nat) : Nat :=
  let within (lo hi : Nat) : Bool := decide (lo ≤ off) && decide (off < hi)
  if off = 0x0000 then s.devnum.toNat
  else if off = 0x0008 then s.linken.toNat
  else if off = 0x0010 then b2n s.plat.devready
  else if off = 0x0018 then
    s.plat.reason.toNat * 2 ^ 16 + s.plat.fails * 2 ^ 8 + flagAt s.plat.linkLost 1 + b2n s.plat.minimal
  else if off = 0x0020 then s.plat.limit * 2 ^ 16 + s.plat.fmin
  else if within 0x0100 0x0500 then s.route.get ((off - 0x0100) / 8) 0
  else if within 0x1800 0x1838 then (s.bud.toList.getD ((off - 0x1800) / 8) 0).toNat
  else if within 0x1840 0x1878 then (s.ovr.toList.getD ((off - 0x1840) / 8) 0).toNat
  else if off = 0x2000 then s.log.ce.toNat * 2 ^ 32 + s.log.ue.toNat
  else if off = 0x2008 then s.log.ack.toNat * 2 ^ 16 + s.log.next.toNat
  else if off = 0x2010 then s.log.drop.toNat
  else if within 0x2100 0x2900 then
    match s.log.entries.find ((off - 0x2100) / 32) with
    | some e =>
      let w := (off - 0x2100) % 32
      if w = 0 then e.word0.toNat else if w = 8 then e.addr.toNat else if w = 16 then e.unit.toNat else 0
    | none => 0
  else if within 0x3000 0x3200 then
    let k := s.kvRegs ((off - 0x3000) / 32)
    let w := (off - 0x3000) % 32
    if w = 0 then k.base.toNat / 16 * 16 else if w = 8 then k.count.toNat
    else if w = 16 then k.last.toNat * 2 ^ 32 + k.drops.toNat else 0
  else if within 0x4000 0x5400 then (s.core ((off - 0x4000) / 8)).feat.toNat
  else if within 0x6000 0x6400 then portRead s ((off - 0x6000) / 64) (off % 64)
  else 0

/-- What BAR0 of a function holds at an 8-byte offset. -/
def bar0Read (s : State) (fn off : Nat) : Nat :=
  if fn = 0 then
    if off < 0x10_0000 then deviceRead s off
    else if off < 0x30_0000 then
      let die := (off - 0x10_0000) / 0x10_0000
      let o := off % 0x10_0000
      if 0x1000 ≤ o ∧ o < 0x2000 then ((s.regions.get (die * 64 + (o - 0x1000) / 0x40) Region.reset).read (o % 0x40)).toNat else 0
    else if 0x200_0000 ≤ off ∧ off < 0x200_8000 then tqRead (s.tq ((off - 0x200_0000) / 0x1000)) (off % 0x1000)
    else 0
  else if off < 0x1000 then tqRead (s.tq (15 + fn)) off
  else if off < 0x2000 then portRead s (fn - 1) (off - 0x1000)
  else 0

/-- A write to a loop port by function `fn`. -/
def portWrite (fn p off : Nat) (v : Word) (s : State) : State :=
  if off = 0x00 then outState s (execLpgo fn p v s)
  else if off = 0x08 then outState s (execLpstop fn p v s)
  else if off = 0x10 then
    let q := s.port p
    { s with ports := s.ports.set p { full := q.full && !v.getLsbD 1, bad := q.bad && !v.getLsbD 0 } }
  else s

/-- A write to a register of the device block. Collectives lose a link that LINKEN or ROUTE takes from them (R390). -/
def deviceWrite (off : Nat) (v : Word) (s : State) : State :=
  let within (lo hi : Nat) : Bool := decide (lo ≤ off) && decide (off < hi) && off % 8 == 0
  if off = 0x0000 then (if 0x80 ≤ v.toNat % 256 then { s with devnum := v.setWidth 8 } else s)
  else if off = 0x0008 then loseColls { s with linken := v.setWidth 8 }
  else if off = 0x0018 then { s with plat := { s.plat with linkLost := s.plat.linkLost && !v.getLsbD 1 } }
  else if within 0x0100 0x0500 then loseColls { s with route := s.route.set ((off - 0x0100) / 8) (v.toNat % 8) }
  else if within 0x1800 0x1838 then writeBud ((off - 0x1800) / 8) v s
  else if off = 0x2008 then { s with log := { s.log with ack := BitVec.ofNat 16 (bits v.toNat 31 16) } }
  else if off = 0x2010 then { s with log := { s.log with drop := s.log.drop &&& ~~~(v.setWidth 32) } }
  else if within 0x3000 0x3200 then
    let p := (off - 0x3000) / 32
    let k := s.kvRegs p
    let w := (off - 0x3000) % 32
    let k := if w = 0 then { k with base := masked v 0xFFFF_FFFF_FFFF_FFF0 }
      else if w = 8 then { k with count := v.setWidth 32 }
      else if w = 16 then { k with drops := v.setWidth 32 } else k
    { s with kv := s.kv.set p k }
  else if within 0x6000 0x6400 then portWrite 0 ((off - 0x6000) / 64) (off % 64) v s
  else s

/-- A write to a register of tile queue `q`. -/
def writeTq (q off : Nat) (v : Word) (s : State) : State := { s with tqs := s.tqs.set q (tqWrite (s.tq q) off v.toNat) }

/-- A write to BAR0 of a function. Offsets that hold no register ignore it (R333). In minimal mode only the physical function
exists, and the compute dies and Marigold, held in reset, take nothing (R404). -/
def bar0Write (fn off : Nat) (v : Word) (s : State) : State :=
  if fn = 0 then
    if s.plat.minimal && (decide (0x6000 ≤ off) && decide (off < 0x6400) || decide (0x10_0000 ≤ off) && decide (off < 0x30_0000)) then s
    else if off < 0x10_0000 then deviceWrite off v s
    else if off < 0x30_0000 then
      let o := off % 0x10_0000
      if 0x1000 ≤ o ∧ o < 0x2000 then writeRegion ((off - 0x10_0000) / 0x10_0000) ((o - 0x1000) / 0x40) (o % 0x40) v s else s
    else if 0x200_0000 ≤ off ∧ off < 0x200_8000 then writeTq ((off - 0x200_0000) / 0x1000) (off % 0x1000) v s
    else s
  else if s.plat.minimal || decide (16 < fn) then s
  else if off < 0x1000 then writeTq (15 + fn) off v s
  else if off < 0x2000 then portWrite fn (fn - 1) (off - 0x1000) v s
  else s

/-- REGISTER_WRITE: the host writes the 64-bit register at an offset of a function's BAR0, under its field types (R6, R7). -/
def execRegisterWrite (fn off : Nat) (v : Word) (s : State) : Out := .next (bar0Write fn off v s)

/-- TQTAIL (R335): the producer of tile queue `q` writes its tail. -/
def execTqtail (q : Nat) (v : Word) (s : State) : Out := .next (writeTq q 0x10 v s)

/-- Whether the bits of a register clear when they are written as 1: such a register sees 0 where a narrower write has no byte. -/
def isW1c (fn off : Nat) : Bool :=
  if fn = 0 then
    off == 0x0018 || off == 0x2010 || decide (0x6000 ≤ off) && decide (off < 0x6400) && off % 64 == 0x10 ||
      decide (0x200_0000 ≤ off) && off % 0x1000 == 0x20
  else off == 0x20 || off == 0x1010

/-- Return a value to the host or to a peer. -/
def State.answer (v : Nat) (poisoned : Bool) (s : State) : State := { s with reads := s.reads ++ [⟨v, poisoned⟩] }

/-- A read of HBM for the host or a peer: a poisoned granule leaves as a poisoned TLP or flit (R377). -/
def answerHbm (pa n : Nat) (s : State) : State :=
  let bad := (poisonAt s pa n).isSome
  let (s, x) := physRead s pa n
  s.answer x bad

/-- HOST_BAR_ACCESS (R333): the host reads or writes `n` bytes through a BAR. BAR2 of the physical function is HBM; a BAR0 access
reaches the register that holds its first byte. Values read are appended to `reads`. -/
def execHostBarAccess (fn bar off : Nat) (write : Bool) (n v : Nat) (s : State) : Out :=
  if !s.plat.pcieUp || decide (16 < fn) || s.plat.minimal && (fn != 0 || bar != 0) then .next s
  else if bar = 0 then
    let o := off / 8 * 8
    let sh := 8 * (off % 8)
    if write then
      let w := 2 ^ (8 * n) - 1
      let old := if isW1c fn o then 0 else bar0Read s fn o
      let new := (old - (old &&& (w <<< sh))) ||| ((v % 2 ^ (8 * n)) <<< sh)
      .next (bar0Write fn o (BitVec.ofNat 64 new) s)
    else .next (s.answer ((bar0Read s fn o >>> sh) % 2 ^ (8 * n)) false)
  else if fn = 0 && bar == 2 && decide (off + n ≤ hbmEnd) then .next (if write then physWrite s off n v else answerHbm off n s)
  else .next (if write then s else s.answer 0 false)

/-! ### Peers (R338) -/

/-- PEER_ACCESS: a fabric offset that arrives over a link in service is served, or refused. Of a write, `v` is the `n` bytes, and the bit
above them says that its flits are poisoned: so are then the granules they are written to, with Detail 7 (R376, R377). -/
def execPeerAccess (off : Nat) (write : Bool) (n v : Nat) (s : State) : Out :=
  if s.linkUp &&& s.linken = 0 then .next s
  else
    match peerServe off with
    | .cell pa _ =>
      .next (if hbmEnd < pa + n then s
        else if !write then answerHbm pa n s
        else if v.testBit (8 * n) then (granulesOf pa n).foldl arriveBad (physWrite s pa n v)
        else physWrite s pa n v)
    | .peerQueue q o =>
      .next (if write then writeTq (8 + q) o (BitVec.ofNat 64 (v % 2 ^ (8 * n))) s else s.answer (tqRead (s.tq (8 + q)) o % 2 ^ (8 * n)) false)
    | _ => .next s

/-- RAMTIN_LINK_CHANGE: the peer on a link trains, or goes. -/
def execRamtinLinkChange (l : Nat) (up : Bool) (s : State) : Out :=
  let b : BitVec 8 := BitVec.ofNat 8 (2 ^ l)
  .next (loseColls { s with linkUp := if up then s.linkUp ||| b else s.linkUp &&& ~~~b })

/-! ### Tile queues (R335, R336, R368) -/

/-- A peer queue's ring lies at another device: the device number its BASE names (R338). -/
def TileQ.away (t : TileQ) (q : Nat) (s : State) : Option Nat :=
  let dev := bits t.base.toNat 63 56
  if 8 ≤ q ∧ q < 16 ∧ dev ≠ s.devnum.toNat then some dev else none

/-- The physical address of the entry at HEAD. The ring of a peer queue lies at its fabric address, in this device's own HBM where
BASE names it. -/
def TileQ.headAt (t : TileQ) (q : Nat) (s : State) : Nat :=
  if 8 ≤ q ∧ q < 16 then
    let off := t.base.toNat / 32 * 32 % 2 ^ 43 + 32 * (t.head.toNat % 2 ^ t.size)
    match t.away q s with
    | some dev => fabricBase + dev * 2 ^ 43 + off
    | none => off
  else t.slotAt t.head.toNat

/-- The ring entry at HEAD. What another device's memory holds the model does not know: such an entry is a free value, and may arrive
poisoned. -/
def ringEntry (q : Nat) (s : State) : Nat × State :=
  let a := (s.tq q).headAt q s
  let (s, x) := physRead (freshen a 32 s) a 32
  (x, s)

/-- The context of a queue's entries (R335): Marigold's are those of the partition whose loop its mark names, and use that partition
alone where a virtual function's port started the loop (R300). An entry of its queue that no loop put there carries no mark, and its
partition is free among those its core serves. -/
def queueJob (q word addr : Nat) (s : State) : TileJob :=
  let vf := decide (16 ≤ q)
  let mar := decide (4 ≤ q) && decide (q < 8)
  let mark := if mar then (s.tq q).marks.find (s.tq q).head.toNat else none
  { word := BitVec.ofNat 256 word
    addr := BitVec.ofNat 64 addr
    sub := .queue q
    part := if vf then q - 16 else if mar then (mark.map Mark.part).getD (q - 4 + 4 * (Config.freeNat s.free % 4)) else 0
    user := false
    phys := !(vf || mar)
    only := if vf then some (q - 16) else (mark.filter fun m => decide (1 ≤ m.fn)).map Mark.part
    tag := mark.map Mark.tag }

/-- A refused entry's record: STATE 2, the code, FLVL 4 (R336). The queue is notified of a record that was written. -/
def refuseEntry (q code : Nat) (j : TileJob) (s : State) : State :=
  match runHeld (storeHome (j.who (unitCluster 4 0)) accEngine 32 j.crec 32 (completionWord 2 code 4 0 0 0) (pure ())) s with
  | .ok _ s => noticeQueue (.queue q) s
  | .error _ _ => s

/-- An entry that was read: a poisoned one is logged and dropped, and so is one whose record has no place (R368); one that is no
device-level instruction is refused. -/
def queueEntry (q x addr : Nat) (j : TileJob) (s : State) : State :=
  let dev := decKey 4 0
  let word (k : Nat) : Word := BitVec.ofNat 64 (x >>> (64 * k))
  match poisonAt s addr 32 with
  | some d => logError (0x0B0 + d) addr none 0 s
  | none =>
    if bits x 4 0 != 0 then logError 0x018 (bits x 47 0) j.only 0 s
    else if s.plat.minimal then refuseEntry q 0x1B3 j s
    else
      match decodeTile (word 0) (word 1) (word 2) (word 3) with
      | .error e => refuseEntry q e.detail j s
      | .ok _ => if j.lvl != 4 then refuseEntry q 0x1B3 j s else s.setDec dev { s.dec dev with queue := (s.dec dev).queue ++ [j] }

/-- TQ_ENTRY_READ: the device reads the next entry of queue `q` while its decomposer's queue has room. HEAD passes an entry that a kill has
discarded. -/
def execTqEntryRead (q : Nat) (s : State) : Out :=
  let t := s.tq q
  let host := (decide (q < 8) || decide (16 ≤ q)) && !t.base.getLsbD 63
  let cut := match t.away q s with
    | some dev => decide (dev < 0x80) || !linkInService s dev
    | none => s.plat.linkLost && host
  if !t.en || t.head == t.tail || decide (64 ≤ (s.dec (decKey 4 0)).queue.length) || cut then .next s
  else
    let addr := t.headAt q s
    let next (s : State) : State :=
      { s.tick with tqs := s.tqs.set q { t with head := t.head + 1, marks := t.marks.erase t.head.toNat } }
    if (t.marks.find t.head.toNat).any Mark.dead then .next (next s)
    else
      let (x, s) := ringEntry q s
      .next (queueEntry q x addr (queueJob q x addr s) (next s))

/-! ### Errors (R376, R377, R379) -/

/-- Add to the corrected count. -/
def countCe (s : State) : State := { s with log := { s.log with ce := s.log.ce + 1 } }

/-- Poison the granules from that of `a` on: `n` more. -/
def poisonGranules (a n d : Nat) (ps : Poison) : Poison := (List.range (n + 1)).foldl (fun ps k => setPoison ps (a / 32 + k) d) ps

/-- The entries of a FIFO bank that a granule of its storage holds are damaged. -/
def damageFifo (c n off : Nat) (s : State) : State :=
  let b := (s.cluster c).banks.getD n Bank.reset
  setBank s c n { b with bad := (List.range 4).foldl (fun t i => t.set (off / 32 * 4 + i) 2) b.bad }

/-- An uncorrectable error in the storage at physical address `a`: the granule, and `n` more, are poisoned (R376). What comes from another
device is there from then on. -/
def hitStorage (d a n : Nat) (s : State) : State :=
  let s := if isFabric a then (List.range (n + 1)).foldl (fun s k => bringIn s (a / 32 + k)) s else s
  let o := a - windowBase
  let c := o / 0x40_0000
  let b := o % 0x40_0000 / 0x2_0000
  let fifo := d = 2 && decide (windowBase ≤ a) && decide (c < 160) && decide (b < 16) && ((s.cluster c).banks.getD b Bank.reset).mode == 2
  logUe d (a / 32 * 32) none 0 (if fifo then damageFifo c b (o % 0x2_0000) s else { s with poison := poisonGranules a n d s.poison })

/-- UNCORRECTABLE_ERROR in structure `d` of R376 Table 3. For the storage levels `a` is a physical address; `b % 2` says whether the
copy was the only one (1: dirty) and `b / 2` how many further granules the error touches; a poisoned TLP or flit (6, 7) is one that
brought the bytes at `a`. For an L1 instruction cache (1) `a` is the physical address of the line and `b` the core. For a register file `a` is a thread's key
and `b` the lane word (register × 256 + word) or the register; for accumulators `a` is a cluster and `b` the entry; for the shadow
store `a` is a die and `b` the granule: what of the saved context it holds is free. For the staging storage of a running tile instruction (14) `a % 65,536` is the decomposer
that accepted it (0: the device's), `a / 65,536` its number there, and `b` the decomposer whose storage it is (0: the same). -/
def execUncorrectableError (d a b : Nat) (s : State) : Out :=
  let t := s.thread a
  let clean (s : State) : State := logUe d (a / 32 * 32) none 0 s
  if d = 1 then
    let k := s.core b
    .next (countCe (if k.icache.isEmpty then s else s.setCore b { k with icache := k.icache.filter fun x => x.1 / 16 != a / 128 }))
  else if d = 0 || d == 2 || d == 3 then .next (if b % 2 = 1 then hitStorage d a (b / 2) s else clean s)
  else if d = 4 then
    let ch := lineChannel (a / 128)
    let x := s.slices.get ch Slice.reset
    let s := { s with slices := s.slices.set ch { x with lines := x.lines.filter (· != a / 128) } }
    .next (if b % 2 = 1 then hitStorage d a (b / 2) s else clean s)
  else if d = 5 || d == 6 || d == 7 then .next (hitStorage d a (b / 2) s)
  else if d = 11 || d == 12 || d == 15 then .next (hitStorage (if isHost a then 6 else 5) a (b / 2) s)
  else if d = 8 then
    if !t.live then .next s
    else
      let m : VMark := ⟨b / 256 % 32, 4 * (b % 256), 4, 0x0A8, 0, 0⟩
      .next (logUe 8 0 (some t.part) t.loc.toNat (s.setThread a { t with vpoison := t.vpoison ++ [m] }))
  else if d = 9 then
    if !t.live then .next s
    else .next (logUe 9 0 (some t.part) t.loc.toNat (s.setThread a { t with spoison := t.spoison ++ [{ reg := BitVec.ofNat 6 b }] }))
  else if d = 10 then
    .next (leafDamage a (logUe 10 0 (some (a / 10)) (unitLoc 1 a) (s.setCluster a ((s.cluster a).accHarm b))))
  else if d = 13 then
    let y := s.die a
    .next (logUe 13 (32 * b) none 0
      { s with dies := s.dies.set a { y with shadow := y.shadow.map (PartCtx.harmed 0 13 s.free) }, free := s.free + 4 })
  else if d = 14 then
    let dk := if a % 65536 = 0 then decKey 4 0 else a % 65536
    let u := if b = 0 then dk else b
    .next (stagingFault dk (a / 65536) (u / 256) (u % 256) (logUe 14 0 none (unitLoc (u / 256) (u % 256)) s))
  else .next s

/-- CORRECTED_ERROR: only the count changes. -/
def execCorrectedError (s : State) : Out := .next (countCe s)

/-- PATROL_SCRUB: line `line` of HBM is read and corrected; an uncorrectable one is poisoned and logged. -/
def execPatrolScrub (line : Nat) (bad : Bool) (s : State) : Out :=
  if !isHbm (line * 128) || !bad then .next s
  else
    .next (logUe 5 (line * 128) none 0
      { s with poison := (List.range 4).foldl (fun ps k => setPoison ps (line * 4 + k) 5) s.poison })

/-! ### Function-level reset (R398–R400, R407) -/

/-- Discard saved copies of a partition, and abandon a save or restore of it (R398). -/
def dropCopies (p : Nat) (s : State) : State :=
  let d := p / 8
  let y := s.die d
  let mine := y.busy && bits y.pswap.toNat 2 0 == p % 8
  let y := { y with
    shadow := if y.shadow.any (fun x => x.part == p) then none else y.shadow
    pswap := if mine then y.pswap &&& ~~~0x8000 else y.pswap
    ran := y.ran && !mine }
  let hit (f : Frame) : Bool := match f.body with
    | .part x => x.part == p
    | _ => false
  { s with
    dies := s.dies.set d y
    frames := s.frames.map fun f => (f.1, if hit f.2 then { f.2 with body := .rest } else f.2) }

/-- A function-level reset of partition `p`'s function. Under a thermal stop the partition stays halted (R406, R407). -/
def flrPart (p : Nat) (s : State) : State :=
  let s := killPart false p (dropCopies p s)
  wakeAll (· == .pswap) { s with tqs := s.tqs.set (16 + p) TileQ.reset }

/-- FLR_VF: virtual function `n`, 1 to 16. -/
def execFlrVf (n : Nat) (s : State) : Out := if 1 ≤ n ∧ n ≤ 16 then .next (flrPart (n - 1) s) else .next s

/-- Drop the running instructions of the device decomposer without records. -/
def emptyDevice : Nat → State → State
  | 0, s => s
  | n + 1, s =>
    let d := decKey 4 0
    match (s.dec d).running with
    | [] => s
    | r :: _ =>
      let w := r.job.who (unitCluster 4 0)
      let s := freeOutputs w (r.softDescs w s) s
      emptyDevice n (s.setDec d { s.dec d with running := (s.dec d).running.drop 1 })

/-- End every collective, without STAT words (R399, R400): the results of those that have met are unspecified. -/
def emptyColls (s : State) : State :=
  let met := (s.colls.filter Coll.met).flatMap fun c => c.parties.map fun y => (y, c.members.length)
  met.foldl (fun s e => scrambleBytes e.1.who e.1.rbuf (e.1.recvCount e.2 * e.1.esize) s) { s with colls := [], unseen := [] }

/-- FLR_PF: the collectives, every partition, then the device. START, THERM and the error log stay (R399). -/
def execFlrPf (s : State) : Out :=
  let s := (List.range 16).foldl (fun s p => flrPart p s) (emptyColls s)
  let s := emptyDevice (s.dec (decKey 4 0)).running.length s
  let s := s.setDec (decKey 4 0) Decomposer.reset
  .next { s with
    tqs := s.tqs.filter fun e => decide (8 ≤ e.1)
    loops := []
    plat := { s.plat with devready := false }
    devnum := State.reset.devnum
    linken := 0
    route := []
    bud := State.reset.bud
    ovr := State.reset.ovr
    ports := []
    kv := [] }

/-! ### Link loss (R401, R402) -/

/-- LINK_LOSS: the link goes down without a reset. -/
def execLinkLoss (s : State) : Out := .next { s with plat := { s.plat with linkLost := true, pcieUp := false } }

/-- LINK_RETRAIN: the device answers configuration requests again; nothing else changes. -/
def execLinkRetrain (s : State) : Out := .next { s with plat := { s.plat with pcieUp := true } }

/-! ### Start-up (R339, R403, R404) -/

/-- Storage after a fundamental reset: host memory stays; what had been written in HBM is unspecified. -/
def coldMem (m : Mem) (stamp : Nat) : Mem :=
  (m.zipIdx).foldl (fun n e =>
    if isHost e.1.1 then Mem.write n e.1.1 e.1.2
    else if isHbm e.1.1 then Mem.write n e.1.1 (Config.freeByte (stamp + e.2)) else n) []

/-- The card after fundamental reset, before it has started: the fuses and Primrose's store stay. -/
def coldState (s : State) : State :=
  { State.reset with
    cores := s.cores.map fun e => (e.1, { Core.reset with feat := e.2.feat, inService := e.2.inService })
    mem := coldMem s.mem s.free
    poison := s.poison.filter fun p => isHost (32 * p.1)
    msix := s.msix
    reads := s.reads
    sent := s.sent
    plat := { s.plat with devready := false, started := false, linkLost := false, minimal := false, limit := 0, fmin := 1900, pcieUp := true }
    free := s.free + s.mem.length }

/-- What is signed: header and body. -/
def signedPart (i : Image) : List (BitVec 8) := i.header ++ i.body

/-- An image's SHA-384 measurement (R340). -/
def measureOf (i : Image) : BitVec 384 := sha384 (signedPart i)

/-- The bytes of a key, x then y. -/
def keyBytes (key : BitVec 768) : List (BitVec 8) := (List.range 96).map fun k => BitVec.ofNat 8 (key.toNat / 256 ^ (95 - k))

/-- The key of an image hashes to the fused value, and its signature verifies (R339). -/
def Platform.signedOk (p : Platform) (i : Image) : Bool :=
  i.header.length == 128 && sha384 (keyBytes i.key) == p.keyHash && ecdsaOk i.key i.sig (signedPart i)

/-- R339 accepts an image. -/
def Platform.imageOk (p : Platform) (i : Image) : Bool := p.signedOk i && decide (p.rollback ≤ i.version)

/-- The images a start uses: those staged take the place of the installed ones. -/
def startImages (p : Platform) : List Image :=
  (p.images.filter fun i => !(p.staged.any fun x => x.kind == i.kind)) ++ p.staged

/-- Cores with a FEAT bit. -/
def featCount (s : State) (bit : Nat) : Nat := ((List.range 640).filter fun c => (s.core c).feat.getLsbD bit).length

/-- FEAT has the minima of R21: 156 clusters with MATRIX, and every other unit on 632 cores. -/
def featOk (s : State) : Bool := decide (156 * 4 ≤ featCount s 3) && [0, 1, 2, 4, 5, 6].all fun b => decide (632 ≤ featCount s b)

/-- The reason a start fails, or 0 (R404 Table 2): of the images, the hub's first; then `hw`, what bringing up the hardware
gave, and FEAT. -/
def startReason (s : State) (hw : Nat) : Nat :=
  let p := s.plat
  let is := startImages p
  let refused (k : Nat) : Bool := !(is.any fun i => i.kind == k) || is.any fun i => i.kind == k && !p.signedOk i
  if refused 0 then 1
  else if is.any fun i => decide (i.version < p.rollback) then 2
  else if refused 1 || refused 2 then 3
  else if hw = 4 ∨ hw = 5 ∨ hw = 7 ∨ hw = 8 then hw
  else if !featOk s then 6
  else 0

/-- A failed start counts, up to 3, and then leaves minimal mode, in which everything but the hub is held in reset (R404). -/
def failStart (reason : BitVec 8) (s : State) : State :=
  let n := min 3 (s.plat.fails + 1)
  let s := if n = 3 then coldState s else s
  { s with plat := { s.plat with fails := n, reason := reason, minimal := decide (n = 3) } }

/-- Start the device (R339, R404). With the count at 3 it starts in minimal mode, unless an update is there that R339 accepts:
then the count is cleared and it starts normally, and a start that fails again keeps it in minimal mode. -/
def startDevice (hw : Nat) (s : State) : State :=
  let p := s.plat
  if p.fails = 3 && !(!p.staged.isEmpty && p.staged.all p.imageOk) then { s with plat := { p with minimal := true } }
  else
    let r := startReason s hw
    if r = 0 then
      { s with plat := { p with devready := true, started := true, fails := 0, minimal := false, images := startImages p, staged := [] } }
    else failStart (BitVec.ofNat 8 r) s

/-- FUNDAMENTAL_RESET: the device is reset and starts; `hw` is the reason the hardware gives (4, 5, 7 or 8), or another number. -/
def execFundamentalReset (hw : Nat) (s : State) : Out := .next (startDevice hw (coldState s))

/-- A start is under way. -/
def State.starting (s : State) : Bool := !s.plat.started && !s.plat.minimal

/-- DEVREADY_TIMEOUT: 2 s pass without DEVREADY. Table 2 has no reason for it, so REASON is free. -/
def execDevreadyTimeout (s : State) : Out :=
  .next (if s.starting then failStart (BitVec.ofNat 8 (Config.freeNat s.free)) s.tick else s)

/-- HUB_FIRMWARE_WATCHDOG: it expires before DEVREADY. -/
def execHubFirmwareWatchdog (s : State) : Out := .next (if s.starting then failStart 8 s else s)

/-- RESTART (R403): fundamental reset of the hub and the compute dies; the device then starts by FUNDAMENTAL_RESET. -/
def execRestart (s : State) : Out := .next (coldState s)

/-! ### Primrose (R340, R341, R406) -/

/-- PLDM_MONITOR: what its sensors read, and ERRCNT (R379). -/
def execPldmMonitor (readings : Sensors) (s : State) : Out :=
  .next { s with plat := { s.plat with replies := s.plat.replies ++ [.monitor readings s.log.ue.toNat s.log.ce.toNat] } }

/-- PLDM_FIRMWARE_UPDATE: an image is staged for the next start. -/
def execPldmFirmwareUpdate (img : Image) (s : State) : Out :=
  .next { s with plat := { s.plat with staged := (s.plat.staged.filter fun i => i.kind != img.kind) ++ [img] } }

/-- The FEAT summary of R21: clusters with MATRIX, then cores with F64, SORTNET, TRANSC, TRELLIS, STREAM and PHILOX. -/
def featSummary (s : State) : List Word :=
  BitVec.ofNat 64 (featCount s 3 / 4) :: [0, 1, 2, 4, 5, 6].map fun b => BitVec.ofNat 64 (featCount s b)

/-- The bytes a report is signed over: its fields in the order R340 names them, the nonce and the measurements with the highest byte
first, as R339's keys are, the FEAT summary and the count as eight bytes each, the lowest first (PRESUMED, log 33). -/
def reportBytes (nonce : BitVec 256) (measures : List (BitVec 384)) (feat : List Word) (fails : Nat) : List (BitVec 8) :=
  let high (n x : Nat) : List (BitVec 8) := (List.range n).map fun k => BitVec.ofNat 8 (x / 256 ^ (n - 1 - k))
  let low (x : Nat) : List (BitVec 8) := (List.range 8).map fun k => BitVec.ofNat 8 (x / 256 ^ k)
  high 32 nonce.toNat ++ (measures.flatMap fun m => high 48 m.toNat) ++ (feat.flatMap fun w => low w.toNat) ++ low fails

/-- ATTESTATION: the report on a nonce, signed as in R339 by the device identity key. The secret number of the signature is free. -/
def execAttestation (nonce : BitVec 256) (s : State) : Out :=
  let ms := s.plat.images.map measureOf
  let sig := ecdsaSign s.plat.identity.toNat (1 + Config.freeNat s.free % (orderN - 1)) (reportBytes nonce ms (featSummary s) s.plat.fails)
  .next { s.tick with plat := { s.plat with replies := s.plat.replies ++ [.report nonce ms (featSummary s) s.plat.fails sig] } }

/-- POWER_LIMIT: steps of 25 W from 600 W to 1,500 W. -/
def execPowerLimit (w : Nat) (s : State) : Out :=
  if 600 ≤ w ∧ w ≤ 1500 ∧ w % 25 = 0 then .next { s with plat := { s.plat with power := w } } else .next s

/-- THROTTLE_STEP: with `limit` 1 (power) or 2 (heat) the clocks fall by 100 MHz, never below 600; with 0 the condition has
cleared. A critical stop stays. -/
def execThrottleStep (limit : Nat) (s : State) : Out :=
  if s.plat.limit = 3 ∨ 3 ≤ limit then .next s
  else if limit = 0 then .next { s with plat := { s.plat with limit := 0, fmin := 1900 } }
  else .next { s with plat := { s.plat with limit := limit, fmin := max 600 (s.plat.fmin - 100) } }

/-- THERMAL_STOP: every partition is halted, LIMIT is 3, and Primrose logs the event. -/
def execThermalStop (s : State) : Out :=
  let s := (List.range 16).foldl (fun s p => haltPart p s) s
  .next { s with plat := { s.plat with limit := 3, events := s.plat.events ++ [3] } }

end Sys2Proof.Machine
end

