-- ==== Sys2Proof/Machine/System.lean ====
section
/-! DEFINITION. Software traps, breakpoints and the return from a trap (spec/07 R185–R187, spec/19 R351, spec/21 R372). -/

namespace Sys2Proof.Machine

/-- TRAP (R185): cause 0x1E0 + n. -/
def execTrap (f : Fields) (s : State) : Out :=
  runWord (do
    let n ← match f.imm with
      | some i => pure (immZ i)
      | none => rdS f.a
    raise (0x1E0 + n.toNat % 32)) s

/-- BRK (R186): cause 0x1C2 with the code in XVAL. -/
def execBrk (f : Fields) (s : State) : Out :=
  runWord (do
    let code ← match f.imm with
      | some i => pure (immZ i)
      | none => do
        let a ← rdS f.a
        pure (a &&& 0xFFFF)
    raise 0x1C2 code) s

/-- The context an XRET resumes (R351): INH is cleared, the level is PPRV, the pc XPC, and SLOT, VPART and TPART go with the
word there. -/
def xretThread (t : Thread) : Thread :=
  let x := t.xstat
  { t with
    xstat := x &&& ~~~8
    level := Level.ofCode (bits x.toNat 5 4)
    pc := t.xpc
    resume := some ⟨x.getLsbD 0, x.getLsbD 1, x.getLsbD 2⟩
    wait := none }

/-- XRET (R187, R351): refused at user level; it waits for the thread's accesses still under way (R372): its VLDAs, its loads that
wait at FIFO ports, its ZENC. -/
def execXret (_ : Fields) (s : State) : Out :=
  runWord (do
    let t ← getTh
    raiseIf (t.level = .user) 0x031
    if !t.vldas.isEmpty then throw (.wait .vlda)
    if !t.loads.isEmpty then throw (.wait .load)
    if s.zjobs.any fun j => j.key == s.cur then throw (.wait .zenc)
    modTh xretThread
    throw .gone) s

end Sys2Proof.Machine
end

