-- ==== Sys2Proof/Machine/Dispatch.lean ====
section
/-! DEFINITION. One arm per instruction (spec/opcode_table.json): exec calls each meaning. -/

namespace Sys2Proof.Machine

def exec (i : Instr) (s : State) : Host.Outcome State Fault Refusal :=
  match i with
  | .add f => Sys2Proof.Machine.execAdd f s
  | .sub f => Sys2Proof.Machine.execSub f s
  | .mul f => Sys2Proof.Machine.execMul f s
  | .mulh f => Sys2Proof.Machine.execMulh f s
  | .div f => Sys2Proof.Machine.execDiv f s
  | .rem f => Sys2Proof.Machine.execRem f s
  | .and f => Sys2Proof.Machine.execAnd f s
  | .or f => Sys2Proof.Machine.execOr f s
  | .xor f => Sys2Proof.Machine.execXor f s
  | .shl f => Sys2Proof.Machine.execShl f s
  | .shr f => Sys2Proof.Machine.execShr f s
  | .sra f => Sys2Proof.Machine.execSra f s
  | .min f => Sys2Proof.Machine.execMin f s
  | .max f => Sys2Proof.Machine.execMax f s
  | .slt f => Sys2Proof.Machine.execSlt f s
  | .seq f => Sys2Proof.Machine.execSeq f s
  | .clz f => Sys2Proof.Machine.execClz f s
  | .popc f => Sys2Proof.Machine.execPopc f s
  | .ext f => Sys2Proof.Machine.execExt f s
  | .bfx f => Sys2Proof.Machine.execBfx f s
  | .bfi f => Sys2Proof.Machine.execBfi f s
  | .mov f => Sys2Proof.Machine.execMov f s
  | .li f => Sys2Proof.Machine.execLi f s
  | .lih f => Sys2Proof.Machine.execLih f s
  | .lea f => Sys2Proof.Machine.execLea f s
  | .sel f => Sys2Proof.Machine.execSel f s
  | .fadd f => Sys2Proof.Machine.execFadd f s
  | .fsub f => Sys2Proof.Machine.execFsub f s
  | .fmul f => Sys2Proof.Machine.execFmul f s
  | .ffma f => Sys2Proof.Machine.execFfma f s
  | .fdiv f => Sys2Proof.Machine.execFdiv f s
  | .fsqrt f => Sys2Proof.Machine.execFsqrt f s
  | .fmin f => Sys2Proof.Machine.execFmin f s
  | .fmax f => Sys2Proof.Machine.execFmax f s
  | .fcmp f => Sys2Proof.Machine.execFcmp f s
  | .fcvt f => Sys2Proof.Machine.execFcvt f s
  | .fclass f => Sys2Proof.Machine.execFclass f s
  | .br f => Sys2Proof.Machine.execBr f s
  | .brc f => Sys2Proof.Machine.execBrc f s
  | .jmp f => Sys2Proof.Machine.execJmp f s
  | .call f => Sys2Proof.Machine.execCall f s
  | .callr f => Sys2Proof.Machine.execCallr f s
  | .loop f => Sys2Proof.Machine.execLoop f s
  | .ld f => Sys2Proof.Machine.execLd f s
  | .st f => Sys2Proof.Machine.execSt f s
  | .amo f => Sys2Proof.Machine.execAmo f s
  | .amoUpd f => Sys2Proof.Machine.execAmoUpd f s
  | .cas f => Sys2Proof.Machine.execCas f s
  | .acq f => Sys2Proof.Machine.execAcq f s
  | .rel f => Sys2Proof.Machine.execRel f s
  | .bind f => Sys2Proof.Machine.execBind f s
  | .unbind f => Sys2Proof.Machine.execUnbind f s
  | .fence f => Sys2Proof.Machine.execFence f s
  | .ifence f => Sys2Proof.Machine.execIfence f s
  | .launch f => Sys2Proof.Machine.execLaunch f s
  | .exit f => Sys2Proof.Machine.execExit f s
  | .yield f => Sys2Proof.Machine.execYield f s
  | .wait f => Sys2Proof.Machine.execWait f s
  | .gjoin f => Sys2Proof.Machine.execGjoin f s
  | .gleave f => Sys2Proof.Machine.execGleave f s
  | .gbar f => Sys2Proof.Machine.execGbar f s
  | .gred f => Sys2Proof.Machine.execGred f s
  | .trap f => Sys2Proof.Machine.execTrap f s
  | .brk f => Sys2Proof.Machine.execBrk f s
  | .xret f => Sys2Proof.Machine.execXret f s
  | .crr f => Sys2Proof.Machine.execCrr f s
  | .crw f => Sys2Proof.Machine.execCrw f s
  | .crwSet f => Sys2Proof.Machine.execCrwSet f s
  | .crwClr f => Sys2Proof.Machine.execCrwClr f s
  | .pairedWord h0 h1 => Sys2Proof.Machine.execPairedWord h0 h1 s
  | .vsetvl f => Sys2Proof.Machine.execVsetvl f s
  | .vsetvlChain f => Sys2Proof.Machine.execVsetvlChain f s
  | .vlq f => Sys2Proof.Machine.execVlq f s
  | .vcpub f => Sys2Proof.Machine.execVcpub f s
  | .vadd f => Sys2Proof.Machine.execVadd f s
  | .vsub f => Sys2Proof.Machine.execVsub f s
  | .vmul f => Sys2Proof.Machine.execVmul f s
  | .vmulh f => Sys2Proof.Machine.execVmulh f s
  | .vmacc f => Sys2Proof.Machine.execVmacc f s
  | .vdot2 f => Sys2Proof.Machine.execVdot2 f s
  | .vmin f => Sys2Proof.Machine.execVmin f s
  | .vmax f => Sys2Proof.Machine.execVmax f s
  | .vand f => Sys2Proof.Machine.execVand f s
  | .vor f => Sys2Proof.Machine.execVor f s
  | .vxor f => Sys2Proof.Machine.execVxor f s
  | .vshl f => Sys2Proof.Machine.execVshl f s
  | .vshr f => Sys2Proof.Machine.execVshr f s
  | .vsra f => Sys2Proof.Machine.execVsra f s
  | .vabs f => Sys2Proof.Machine.execVabs f s
  | .vmv f => Sys2Proof.Machine.execVmv f s
  | .vcmp f => Sys2Proof.Machine.execVcmp f s
  | .vsel f => Sys2Proof.Machine.execVsel f s
  | .vwiden f => Sys2Proof.Machine.execVwiden f s
  | .vnarrow f => Sys2Proof.Machine.execVnarrow f s
  | .vfadd f => Sys2Proof.Machine.execVfadd f s
  | .vfsub f => Sys2Proof.Machine.execVfsub f s
  | .vfmul f => Sys2Proof.Machine.execVfmul f s
  | .vfdiv f => Sys2Proof.Machine.execVfdiv f s
  | .vfsqrt f => Sys2Proof.Machine.execVfsqrt f s
  | .vfmin f => Sys2Proof.Machine.execVfmin f s
  | .vfmax f => Sys2Proof.Machine.execVfmax f s
  | .vfexp2 f => Sys2Proof.Machine.execVfexp2 f s
  | .vflog2 f => Sys2Proof.Machine.execVflog2 f s
  | .vffma f => Sys2Proof.Machine.execVffma f s
  | .vfcmp f => Sys2Proof.Machine.execVfcmp f s
  | .vfcvt f => Sys2Proof.Machine.execVfcvt f s
  | .vred f => Sys2Proof.Machine.execVred f s
  | .vscan f => Sys2Proof.Machine.execVscan f s
  | .vslideup f => Sys2Proof.Machine.execVslideup f s
  | .vslidedn f => Sys2Proof.Machine.execVslidedn f s
  | .vperm f => Sys2Proof.Machine.execVperm f s
  | .vcompress f => Sys2Proof.Machine.execVcompress f s
  | .vexpand f => Sys2Proof.Machine.execVexpand f s
  | .viota f => Sys2Proof.Machine.execViota f s
  | .vextr f => Sys2Proof.Machine.execVextr f s
  | .vins f => Sys2Proof.Machine.execVins f s
  | .mlog f => Sys2Proof.Machine.execMlog f s
  | .mpop f => Sys2Proof.Machine.execMpop f s
  | .mfirst f => Sys2Proof.Machine.execMfirst f s
  | .mlist f => Sys2Proof.Machine.execMlist f s
  | .mbits f => Sys2Proof.Machine.execMbits f s
  | .mbitsTov f => Sys2Proof.Machine.execMbitsTov f s
  | .vsort f => Sys2Proof.Machine.execVsort f s
  | .vmerge f => Sys2Proof.Machine.execVmerge f s
  | .vmergep f => Sys2Proof.Machine.execVmergep f s
  | .vtopk f => Sys2Proof.Machine.execVtopk f s
  | .vinter f => Sys2Proof.Machine.execVinter f s
  | .vdiff f => Sys2Proof.Machine.execVdiff f s
  | .vunique f => Sys2Proof.Machine.execVunique f s
  | .vrank f => Sys2Proof.Machine.execVrank f s
  | .vpart f => Sys2Proof.Machine.execVpart f s
  | .vschk f => Sys2Proof.Machine.execVschk f s
  | .vsget f => Sys2Proof.Machine.execVsget f s
  | .vsclr f => Sys2Proof.Machine.execVsclr f s
  | .vld f => Sys2Proof.Machine.execVld f s
  | .vlds f => Sys2Proof.Machine.execVlds f s
  | .vldt f => Sys2Proof.Machine.execVldt f s
  | .vlda f => Sys2Proof.Machine.execVlda f s
  | .vst f => Sys2Proof.Machine.execVst f s
  | .vsts f => Sys2Proof.Machine.execVsts f s
  | .vstt f => Sys2Proof.Machine.execVstt f s
  | .vgathw f => Sys2Proof.Machine.execVgathw f s
  | .vscat f => Sys2Proof.Machine.execVscat f s
  | .vscadd f => Sys2Proof.Machine.execVscadd f s
  | .vxferPut f => Sys2Proof.Machine.execVxferPut f s
  | .vxferGet f => Sys2Proof.Machine.execVxferGet f s
  | .vredst f => Sys2Proof.Machine.execVredst f s
  | .vspill f => Sys2Proof.Machine.execVspill f s
  | .vfill f => Sys2Proof.Machine.execVfill f s
  | .xrnd f => Sys2Proof.Machine.execXrnd f s
  | .sopen f => Sys2Proof.Machine.execSopen f s
  | .snext f => Sys2Proof.Machine.execSnext f s
  | .sseek f => Sys2Proof.Machine.execSseek f s
  | .stend f => Sys2Proof.Machine.execStend f s
  | .sclose f => Sys2Proof.Machine.execSclose f s
  | .matt f => Sys2Proof.Machine.execMatt f s
  | .mdet f => Sys2Proof.Machine.execMdet f s
  | .mma f => Sys2Proof.Machine.execMma f s
  | .mmas f => Sys2Proof.Machine.execMmas f s
  | .mdrain f => Sys2Proof.Machine.execMdrain f s
  | .mldacc f => Sys2Proof.Machine.execMldacc f s
  | .wset f => Sys2Proof.Machine.execWset f s
  | .wdec f => Sys2Proof.Machine.execWdec f s
  | .zenc f => Sys2Proof.Machine.execZenc f s
  | .cprog f => Sys2Proof.Machine.execCprog f s
  | .cgo f => Sys2Proof.Machine.execCgo f s
  | .cwait f => Sys2Proof.Machine.execCwait f s
  | .ckill f => Sys2Proof.Machine.execCkill f s
  | .lhint f => Sys2Proof.Machine.execLhint f s
  | .lstep f => Sys2Proof.Machine.execLstep f s
  | .lpref f => Sys2Proof.Machine.execLpref f s
  | .tsub f => Sys2Proof.Machine.execTsub f s
  | .twait f => Sys2Proof.Machine.execTwait f s
  | .coll f => Sys2Proof.Machine.execColl f s
  | .vrand f => Sys2Proof.Machine.execVrand f s
  | .tmma t => Sys2Proof.Machine.execTmma t s
  | .tewise t => Sys2Proof.Machine.execTewise t s
  | .treduce t => Sys2Proof.Machine.execTreduce t s
  | .tconv t => Sys2Proof.Machine.execTconv t s
  | .tcopy t => Sys2Proof.Machine.execTcopy t s
  | .tsort t => Sys2Proof.Machine.execTsort t s
  | .tmerge t => Sys2Proof.Machine.execTmerge t s
  | .ttopk t => Sys2Proof.Machine.execTtopk t s
  | .tinter t => Sys2Proof.Machine.execTinter t s
  | .tgather t => Sys2Proof.Machine.execTgather t s
  | .tscadd t => Sys2Proof.Machine.execTscadd t s
  | .tsample t => Sys2Proof.Machine.execTsample t s
  | .tenc t => Sys2Proof.Machine.execTenc t s
  | .tlaunch t => Sys2Proof.Machine.execTlaunch t s
  | .tileLeafRun d j l => Sys2Proof.Machine.execTileLeafRun d j l s
  | .tileCompletion d j => Sys2Proof.Machine.execTileCompletion d j s
  | .tlaunchComplete d j => Sys2Proof.Machine.execTlaunchComplete d j s
  | .launchQueueRoom k => Sys2Proof.Machine.execLaunchQueueRoom k s
  | .threadCreate p entry => Sys2Proof.Machine.execThreadCreate p entry s
  | .threadPlace p => Sys2Proof.Machine.execThreadPlace p s
  | .lThreadReserve p c => Sys2Proof.Machine.execLThreadReserve p c s
  | .issue c => Sys2Proof.Machine.execIssue c s
  | .passBoost k => Sys2Proof.Machine.execPassBoost k s
  | .yieldEnd k => Sys2Proof.Machine.execYieldEnd k s
  | .waitReeval k => Sys2Proof.Machine.execWaitReeval k s
  | .groupWaitRelease k => Sys2Proof.Machine.execGroupWaitRelease k s
  | .chainWake k => Sys2Proof.Machine.execChainWake k s
  | .vxferPair k => Sys2Proof.Machine.execVxferPair k s
  | .fifoPopWake k => Sys2Proof.Machine.execFifoPopWake k s
  | .watermarkStallResume k => Sys2Proof.Machine.execWatermarkStallResume k s
  | .vldaFill k => Sys2Proof.Machine.execVldaFill k s
  | .matrixFinish k => Sys2Proof.Machine.execMatrixFinish k s
  | .zinniaJob die => Sys2Proof.Machine.execZinniaJob die s
  | .zencFaultTaken k => Sys2Proof.Machine.execZencFaultTaken k s
  | .updateLineMerge c line => Sys2Proof.Machine.execUpdateLineMerge c line s
  | .mscAccess ch line => Sys2Proof.Machine.execMscAccess ch line s
  | .mscFilterClear ch => Sys2Proof.Machine.execMscFilterClear ch s
  | .verbenaDemote p => Sys2Proof.Machine.execVerbenaDemote p s
  | .verbenaPromote p => Sys2Proof.Machine.execVerbenaPromote p s
  | .tierNoRoom p => Sys2Proof.Machine.execTierNoRoom p s
  | .lprefComplete k id => Sys2Proof.Machine.execLprefComplete k id s
  | .migrationCopy p n => Sys2Proof.Machine.execMigrationCopy p n s
  | .migrationSwitch p n => Sys2Proof.Machine.execMigrationSwitch p n s
  | .lupinCopy p n => Sys2Proof.Machine.execLupinCopy p n s
  | .lupinFill p n => Sys2Proof.Machine.execLupinFill p n s
  | .lupinConv p n => Sys2Proof.Machine.execLupinConv p n s
  | .lupinCompress p n => Sys2Proof.Machine.execLupinCompress p n s
  | .lupinSelacc p n => Sys2Proof.Machine.execLupinSelacc p n s
  | .channelFault p n => Sys2Proof.Machine.execChannelFault p n s
  | .collectiveMeet n remote => Sys2Proof.Machine.execCollectiveMeet n remote s
  | .collectiveComplete n => Sys2Proof.Machine.execCollectiveComplete n s
  | .loopIteration p n rows => Sys2Proof.Machine.execLoopIteration p n rows s
  | .tqEntryRead q => Sys2Proof.Machine.execTqEntryRead q s
  | .arbitrationPeriod slots demand => Sys2Proof.Machine.execArbitrationPeriod slots demand s
  | .bmodeChangeDone c b => Sys2Proof.Machine.execBmodeChangeDone c b s
  | .slotStop c j => Sys2Proof.Machine.execSlotStop c j s
  | .pswapHalt p => Sys2Proof.Machine.execPswapHalt p s
  | .pswapSave p => Sys2Proof.Machine.execPswapSave p s
  | .pswapRestore p => Sys2Proof.Machine.execPswapRestore p s
  | .pswapResume p => Sys2Proof.Machine.execPswapResume p s
  | .pswapKill p => Sys2Proof.Machine.execPswapKill p s
  | .pswapDone die => Sys2Proof.Machine.execPswapDone die s
  | .correctedError => Sys2Proof.Machine.execCorrectedError s
  | .fundamentalReset hw => Sys2Proof.Machine.execFundamentalReset hw s
  | .devreadyTimeout => Sys2Proof.Machine.execDevreadyTimeout s
  | .flrPf => Sys2Proof.Machine.execFlrPf s
  | .linkLoss => Sys2Proof.Machine.execLinkLoss s
  | .linkRetrain => Sys2Proof.Machine.execLinkRetrain s
  | .restart => Sys2Proof.Machine.execRestart s
  | .thermalStop => Sys2Proof.Machine.execThermalStop s
  | .hubFirmwareWatchdog => Sys2Proof.Machine.execHubFirmwareWatchdog s
  | .registerWrite fn off v => Sys2Proof.Machine.execRegisterWrite fn off v s
  | .vcfgWrite k v => Sys2Proof.Machine.execVcfgWrite k v s
  | .ptrootWrite k v => Sys2Proof.Machine.execPtrootWrite k v s
  | .tlbinv k v => Sys2Proof.Machine.execTlbinv k v s
  | .bmodeWrite k b v => Sys2Proof.Machine.execBmodeWrite k b v s
  | .tvbaseWrite k v => Sys2Proof.Machine.execTvbaseWrite k v s
  | .tstepWrite k v => Sys2Proof.Machine.execTstepWrite k v s
  | .formatRegionWrite die r off v => Sys2Proof.Machine.execFormatRegionWrite die r off v s
  | .vmaxlenWrite k v => Sys2Proof.Machine.execVmaxlenWrite k v s
  | .slstopWrite k v => Sys2Proof.Machine.execSlstopWrite k v s
  | .ctxsave k v => Sys2Proof.Machine.execCtxsave k v s
  | .ctxload k v => Sys2Proof.Machine.execCtxload k v s
  | .budWrite k v => Sys2Proof.Machine.execBudWrite k v s
  | .tqtail q v => Sys2Proof.Machine.execTqtail q v s
  | .lpgo fn p v => Sys2Proof.Machine.execLpgo fn p v s
  | .lpstop fn p v => Sys2Proof.Machine.execLpstop fn p v s
  | .kvTaggedWrite p slot gen pa n v => Sys2Proof.Machine.execKvTaggedWrite p slot gen pa n v s
  | .peerAccess off write n v => Sys2Proof.Machine.execPeerAccess off write n v s
  | .hostBarAccess fn bar off write n v => Sys2Proof.Machine.execHostBarAccess fn bar off write n v s
  | .ramtinLinkChange l up => Sys2Proof.Machine.execRamtinLinkChange l up s
  | .uncorrectableError d a b => Sys2Proof.Machine.execUncorrectableError d a b s
  | .pldmMonitor readings => Sys2Proof.Machine.execPldmMonitor readings s
  | .pldmFirmwareUpdate img => Sys2Proof.Machine.execPldmFirmwareUpdate img s
  | .attestation nonce => Sys2Proof.Machine.execAttestation nonce s
  | .powerLimit w => Sys2Proof.Machine.execPowerLimit w s
  | .throttleStep limit => Sys2Proof.Machine.execThrottleStep limit s
  | .flrVf n => Sys2Proof.Machine.execFlrVf n s
  | .patrolScrub line bad => Sys2Proof.Machine.execPatrolScrub line bad s
  | .collectiveFail n code => Sys2Proof.Machine.execCollectiveFail n code s

end Sys2Proof.Machine
end

