-- ==== Sys2Proof/Machine/Fetch.lean ====
section
/-! DEFINITION. What a step runs: fetching and decoding the word of the thread that issues, the tile instruction at the head of a
queue, and the steps the card can take by itself. -/

namespace Sys2Proof.Machine

/-! ### Fetching (R59, R94, R361, R362) -/

/-- An instruction to run in a state, or an outcome already reached. -/
inductive Fetched where
  | word (i : Instr) (s : State)
  | done (o : Out)

/-- A cause met before the word at the pc runs. A word that was being resumed keeps its progress (R351; log 15), but for an
encoding cause, which leaves VPART and TPART 0 (R349). -/
def fetchTrap (c : Cause) (s0 s : State) : Out :=
  let t := s0.th
  let on := c.code / 32 != 0
  .next { deliver { c with vpart := on && t.resumesV, tpart := on && t.resumesT } t.resumeSlot1 s with chosen := .none }

/-- Fetch and decode the word at the pc of the selected thread. -/
def fetchWord (s : State) : Fetched :=
  if s.th.live then
    match (fetch s.th.pc).run s with
    | .ok w s' =>
      match decodeIn s' w with
      | .ok i => .word i s'
      | .error e => .done (fetchTrap { code := e.detail, xval := w } s s')
    | .error (.cause c) s' => .done (fetchTrap c s (keepTlb s s'))
    | .error (.wait r) _ => .done (.next (waitFor r s))
    | .error _ _ => .done (.next { s with chosen := .none })
  else .done (.fault .noThread)

/-- The tile instruction at the head of decomposer `d`'s queue. Entries were checked when they were queued; one that decodes to
nothing is dropped. -/
def tileHead (d : Nat) (s : State) : Fetched :=
  match (s.dec d).queue with
  | [] => .done (.next { s with chosen := .none })
  | j :: l =>
    let word (k : Nat) : Word := BitVec.ofNat 64 (j.word.toNat >>> (64 * k))
    match decodeTile (word 0) (word 1) (word 2) (word 3) with
    | .ok i => .word i s
    | .error _ => .done (.next { s.setDec d { s.dec d with queue := l } with chosen := .none })

/-! ### The steps the card can take by itself -/

/-- A move: a step of the table; the acceptance of the tile instruction at the head of a decomposer's queue; a word that a stop asked
for cuts short (R348); a trap of thread `k` that the work R348 lets finish held up; the write-back of a dirty line by cluster `c`;
cluster `c` dropping the older copies it holds (R60); or the L2 giving up a granule of another device (R59). -/
inductive Move where
  | event (i : Instr)
  | tile (d : Nat)
  | cut (k : Nat)
  | trap (k : Nat)
  | writeBack (c line : Nat)
  | dropStale (c : Nat)
  | dropGranule (g : Nat)
  deriving DecidableEq, Repr

/-- Moves of thread `k`. -/
def threadMoves (s : State) (k : Nat) : List Move :=
  let t := s.thread k
  let waits := match t.wait with
    | some (.group _ _ _) => [Move.event (.groupWaitRelease k)]
    | some (.xfer _ _ _) => [.event (.vxferPair k)]
    | some .yielded => [.event (.yieldEnd k)]
    | some _ => [.event (.waitReeval k)]
    | none => []
  waits ++
    (if t.loads.isEmpty then [] else [Move.event (.fifoPopWake k)]) ++
    (if t.vldas.isEmpty then [] else [.event (.vldaFill k)]) ++
    (if t.mmaRun.isEmpty then [] else [.event (.matrixFinish k)]) ++
    (if t.zfault.isEmpty then [] else [.event (.zencFaultTaken k)]) ++
    (if t.trap.isSome && t.zfault.isEmpty && s.running t && !(s.select k).finishing then [.trap k] else []) ++
    (t.prefs.map fun x => .event (.lprefComplete k x.id))

/-- The next step of a running channel. -/
def chanMove (p n : Nat) (c : Channel) : List Move :=
  if c.st != .running then []
  else if c.fault.isSome then [.event (.channelFault p n)]
  else if c.paused then []
  else if c.fn = 0 then [.event (.lupinCopy p n)]
  else if c.fn = 1 then [.event (.lupinConv p n)]
  else if c.fn = 2 then [.event (.lupinCompress p n)]
  else if c.fn = 3 then [.event (.lupinSelacc p n)]
  else [.event (.lupinFill p n)]

/-- Moves of partition `p`: its scheduler and dispatcher, Verbena and Lupin. -/
def partMoves (s : State) (p : Nat) (q : Partition) : List Move :=
  (if q.headLaunch.isSome then [Move.event (.threadCreate p none)] else []) ++
    (if (s.unplaced p).isEmpty then [] else [.event (.threadPlace p)]) ++
    (if (s.unplaced p).isEmpty then []
      else ((coresOf p).filter fun c => s.coreEmpty c && !(s.passedOver p c).isEmpty).map fun c => .event (.lThreadReserve p c)) ++
    (if q.tierOn then [.event (.verbenaDemote p), .event (.verbenaPromote p), .event (.tierNoRoom p)] else []) ++
    ((List.range q.migs.length).flatMap fun i => [.event (.migrationCopy p i), .event (.migrationSwitch p i)]) ++
    (q.chans.toList.zipIdx).flatMap fun e => chanMove p e.2 e.1

/-- The thread of slot `j` of core `c` has a word under way as its stop arrives. -/
def cutMoves (s : State) (c j : Nat) : List Move :=
  match s.inSlot c j with
  | some k => if (s.thread k).wait.isNone && (s.thread k).zfault.isEmpty && (saveWaits s k).isNone then [.cut k] else []
  | none => []

/-- Moves of core `c`: issue, stops, and eviction of its update lines. -/
def coreMoves (s : State) (c : Nat) : List Move :=
  let k := s.core c
  (if (s.readyList c).isEmpty then [] else [Move.event (.issue c)]) ++
    (((List.range 8).filter fun j => k.stop.getLsbD j && !k.stopped.getLsbD j).flatMap fun j => .event (.slotStop c j) :: cutMoves s c j) ++
    k.upd.map fun u => .event (.updateLineMerge c u.line)

/-- Moves of decomposer `d`. A leaf leaves its core to a boosted thread that is ready (R34, R299). -/
def decMoves (s : State) (d : Nat) (x : Decomposer) : List Move :=
  let free (l : Leaf) : Bool := (s.readyList l.core).all fun k => (s.thread k).boosted.isNone
  (if x.queue.isEmpty || decide (8 ≤ x.busy) then [] else [Move.tile d]) ++
    (x.running.zipIdx).flatMap fun e =>
      .event (.tileCompletion d e.2) :: .event (.tlaunchComplete d e.2) ::
        (e.1.leaves.zipIdx.filter fun l => free l.1).map fun l => .event (.tileLeafRun d e.2 l.2)

/-- Moves of a die: Zinnia, and the operation under way in PSWAP. -/
def dieMoves (s : State) (die : Nat) : List Move :=
  let y := s.die die
  let p := die * 8 + bits y.pswap.toNat 2 0
  let op := bits y.pswap.toNat 10 8
  (if s.zjobs.any fun j => j.part / 8 == die then [Move.event (.zinniaJob die)] else []) ++
    (if pswapOver die s then [.event (.pswapDone die)]
    else if !pswapDue op p s then []
    else if op = 1 then [.event (.pswapHalt p)]
    else if op = 2 then [.event (.pswapSave p)]
    else if op = 3 then [.event (.pswapRestore p)]
    else if op = 4 then [.event (.pswapResume p)]
    else [.event (.pswapKill p)])

/-- The clusters that hold a word dirty. -/
def State.dirtyHolders (s : State) (e : Nat × Late) : List Nat :=
  (e.2.by_ ++ s.clusters.map Prod.fst).dedup.filter fun c => s.dirtyAt c e

/-- Moves of the caches: what a cluster holds dirty goes home, its older copies go, and so does what the L2 holds of other devices, at
any time. -/
def cacheMoves (s : State) : List Move :=
  ((s.late.flatMap fun e => (s.dirtyHolders e).map fun c => (c, e.1 / 16)).dedup.map fun x => .writeBack x.1 x.2) ++
    ((s.clusters.filter fun e => e.2.stale.any fun x => !x.2.ahead).map fun e => .dropStale e.1) ++
    s.idleGranules.map .dropGranule

/-- Moves of the rest of the card: banks that change mode, collectives, loops, tile queues, and the start. What the hardware gives
when it is brought up, and what a loop's programs are, is free. -/
def cardMoves (s : State) : List Move :=
  (s.clusters.flatMap fun e => (e.2.banks.toList.zipIdx).filterMap fun b =>
      if b.1.busy then some (Move.event (.bmodeChangeDone e.1 b.2)) else none) ++
    ((s.colls.zipIdx).map fun e => .event (if e.1.met then .collectiveComplete e.2 else .collectiveMeet e.2 [])) ++
    ((s.loops.zipIdx).map fun e => .event (.loopIteration e.1.part e.2 (Config.loopRows s.free))) ++
    ((s.tqs.filter fun e => e.2.en && e.2.head != e.2.tail).map fun e => .event (.tqEntryRead e.1)) ++
    (if s.starting then [.event (.fundamentalReset (Config.freeNat s.free))] else [])

/-- Every step the card can take by itself. -/
def moves (s : State) : List Move :=
  s.liveKeys.flatMap (threadMoves s) ++
    s.parts.flatMap (fun e => partMoves s e.1 e.2) ++
    ((s.liveKeys.filter fun k => (s.thread k).pos.isSome).map (fun k => (s.thread k).coreNo) ++ s.cores.map Prod.fst).dedup.flatMap
      (coreMoves s) ++
    s.decs.flatMap (fun e => decMoves s e.1 e.2) ++
    (dieMoves s 0 ++ dieMoves s 1) ++ cacheMoves s ++ cardMoves s

/-- The next one: which of several comes first is free (R8). -/
def pickMove (s : State) : Option (Move × State) :=
  match moves s with
  | [] => none
  | [m] => some (m, s.tick)
  | l => (l[Config.freeNat s.free % l.length]?).map fun m => (m, s.tick)

/-- What a move that is no step of the table does. A word cut short ends with its slot's stop. -/
def runMove (m : Move) (s : State) : State :=
  match m with
  | .event _ => s
  | .tile d => { s with chosen := .tile d }
  | .cut k => { s.select k with chosen := .cut, agenda := .slotStop (s.thread k).coreNo (s.thread k).slot :: s.agenda }
  | .trap k => s.on k takePending
  | .writeBack c line => writeBackLine c line s
  | .dropStale c => s.setCluster c { s.cluster c with stale := (s.cluster c).stale.filter fun x => x.2.ahead }
  | .dropGranule g => giveUp 160 [g] s

/-! ### Placing an instruction where the next step runs it -/

/-- The thread that runs a placed word where none is selected: supervisor, in slot 0 of core 0 of partition 0 (log 16). -/
def bootThread : Thread :=
  { Thread.zero with
    live := true, level := .supervisor, pc := 0x1_0000
    pos := some ⟨0, 0, 0⟩, home := some ⟨0, 0, 0⟩, lc := some 0 }

/-- Where the word at the pc of the selected thread lies. -/
def fetchPa (s : State) : Nat :=
  match (translate s.th.who .fetch s.th.pc).run s with
  | .ok x _ => x.pa
  | .error _ _ => s.th.pc.toNat

/-- A 64-bit word at the pc of the selected thread, which issues next. -/
def placeWord (w : Word) (s : State) : State :=
  let s := if s.th.live then { s with th := { s.th with wait := none } } else { s with th := bootThread, cur := 0, parked := s.parked.erase 0 }
  let pa := fetchPa s
  let c := s.th.coreNo
  let s := if s.holds pa 8 then s else serveWait (.fabric pa 8) s
  let s := (s.settle pa 8).wrMem pa w.toNat 8
  let s := if (s.core c).icache.isEmpty then s else s.setCore c { s.core c with icache := [] }
  { s with chosen := .thread none, poison := s.poison.filter fun p => p.1 != pa / 32 }

/-- A tile instruction at the head of the queue of its level's first unit, whose decomposer accepts it next. -/
def placeTile (w : Nat) (s : State) : State :=
  let l := bits w 55 53
  let d := decKey (if 1 ≤ l ∧ l ≤ 4 then l else 4) 0
  let j : TileJob :=
    { word := BitVec.ofNat 256 w, addr := 0, sub := .queue 0, part := 0, user := false, phys := true, only := none }
  { s.setDec d { s.dec d with queue := j :: (s.dec d).queue } with chosen := .tile d }

end Sys2Proof.Machine
end

