-- ==== Sys2Proof/Machine/Step.lean ====
section
/-! DEFINITION. One step of the card: the word of the thread that issues, a tile instruction a decomposer accepts, or a step of
an engine, of the scheduler or of the platform. -/

namespace Sys2Proof.Machine

def step (s : State) : Host.Outcome State Fault Refusal :=
  match s.chosen with
  | .thread _ | .cut =>
    match fetchWord s with
    | .word i s' => exec i s'
    | .done o => o
  | .probe k [] u => .next (beginIssue k u s)
  | .probe k (j :: l) u =>
    .next (probed k j l u (match fetchWord (s.probeAt j) with
      | .word i s' => exec i s'
      | .done o => o) s)
  | .tile d =>
    match tileHead d s with
    | .word i s' => exec i s'
    | .done o => o
  | .none =>
    match s.agenda with
    | i :: l => exec i { s with agenda := l }
    | [] =>
      match pickMove s with
      | some (.event i, s') => exec i s'
      | some (m, s') => .next (runMove m s')
      | none => .next s

/-- `s` with an instruction placed where the next step fetches it: a 64-bit word at the pc of the selected thread, or of a
supervisor thread in slot 0 of core 0 where none is selected; a 256-bit tile instruction at the head of its decomposer's
queue. -/
def State.withFetchWord (s : State) (nbits w : Nat) : State :=
  if nbits ≤ 64 then placeWord (BitVec.ofNat 64 (w % 2 ^ nbits)) s else placeTile (w % 2 ^ nbits) s

end Sys2Proof.Machine
end

