-- ==== Sys2Proof/Safety.lean ====
section
/-! DEFINITION. What counts as a safe run, and the terms the statements about the card use. -/

namespace Sys2Proof.Machine

/-! ### Runs and invariants -/

/-- The step stops neither with a fault nor with a refusal. -/
def Runs (s : State) : Prop := ∃ t, step s = .next t

/-- Memory is in its canonical form. -/
def State.MemOk (s : State) : Prop := Memory.wf s.mem = true

/-- FEAT of every core is what the fuses made it in `s0` (R20). -/
def State.SameFuses (s0 s : State) : Prop := ∀ c, (s.core c).feat = (s0.core c).feat

/-! ### Scalar words -/

/-- A word of the selected thread can read these scalar registers: none is poisoned or awaited, and none has changed since a word that
resumes at the pc began. -/
def Reads (s : State) (l : List (BitVec 6)) : Prop := s.th.live = true ∧ s.th.AsBegun ∧ ∀ r ∈ l, s.th.readable r = true

/-- The registers A and, in R-form, B. -/
def regsAB (f : Fields) : List (BitVec 6) := match f.imm with
  | some _ => [f.a]
  | none => [f.a, f.b]

/-- The register B, in R-form. -/
def regsB (f : Fields) : List (BitVec 6) := match f.imm with
  | some _ => []
  | none => [f.b]

/-- The register A, in R-form. -/
def regsA (f : Fields) : List (BitVec 6) := match f.imm with
  | some _ => []
  | none => [f.a]

/-- b of R148: the register B, or the sign-extended immediate. -/
def State.opndB (s : State) (f : Fields) : Word := match f.imm with
  | some i => i.signExtend 64
  | none => s.th.getS f.b

/-- The low `w` bits of a word, sign-extended (w is 64, 32, 16 or 8). -/
def low (w : Nat) (x : Word) : Word := (x.setWidth w).signExtend 64

/-- The low `w` bits as an integer, signed or unsigned (Opd of R148). -/
def intOf (w : Nat) (u : Bool) (x : Word) : Int := if u then ((x.setWidth w).toNat : Int) else (x.setWidth w).toInt

/-- Least and greatest integer of `w` bits. -/
def leastInt (w : Nat) (u : Bool) : Int := if u then 0 else -(2 : Int) ^ (w - 1)
def greatestInt (w : Nat) (u : Bool) : Int := if u then (2 : Int) ^ w - 1 else (2 : Int) ^ (w - 1) - 1

/-- An exact result at `w` bits: clamped with SAT = 1, else reduced modulo 2^w (R95, R96); and whether it was clamped. -/
def fitInt (w : Nat) (sat u : Bool) (x : Int) : Int := if sat then max (leastInt w u) (min (greatestInt w u) x) else x
def clamped (w : Nat) (sat u : Bool) (x : Int) : Bool := sat && (decide (x < leastInt w u) || decide (greatestInt w u < x))

/-- The state with `v` in register D. -/
def State.put (s : State) (d : BitVec 6) (v : Word) : State := { s with th := s.th.setS d v }

/-- The state with VXSAT.SAT set where `b` says so. -/
def State.satBit (s : State) (b : Bool) : State := if b then { s with th := { s.th with vxsat := s.th.vxsat ||| 1 } } else s

/-- The state with flags added to FFLAGS. -/
def State.flags (s : State) (fl : Flags) : State := { s with th := { s.th with fflags := s.th.fflags ||| fl.setWidth 64 } }

/-- A word from `s` that leaves `t` and goes on at pc + 8. -/
def doneWith (s t : State) : Out := .next (complete s (s.th.pc + 8) t)

/-- A word from `s` that raises a cause with none of its effect: the trap is taken from `s`, at once or when the work R348 lets finish is
over (R350, R360). -/
def trapsWith (s : State) (code : Nat) (xval : Word) : Out :=
  .next { deliver { code := code, xval := xval } s.th.resumeSlot1 s with chosen := .none }

/-- A thread that differs from `u` only in where it goes on, and in what it keeps of words stopped part way. -/
def OnlyPc (u t : Thread) : Prop := t = { u with pc := t.pc, resume := none, begun := t.begun, wait := none }

/-- A thread that differs from `u` only in register `d`, with what a write to it clears, and in where it goes on. -/
def OnlyReg (d : BitVec 6) (u t : Thread) : Prop :=
  (∀ r, r ≠ d → t.getS r = u.getS r) ∧
    t = { u with s := t.s, spoison := t.spoison, zenc := t.zenc, loads := t.loads, pc := t.pc, resume := none, begun := t.begun, wait := none }

/-- Word steps are off (DBG.WSTEP, R359). -/
def NoWordStep (s : State) : Prop := s.th.dbg.getLsbD 1 = false

/-! ### Memory words -/

/-- A read at the home of the bytes, or at the device that holds them, where it has its order among all agents: the state it leaves and
the value (R85, R175). -/
def State.atHome (s : State) (pa n : Nat) : State × Nat :=
  let u := freshen pa n ((recallRange s pa n).settle pa n)
  (u, u.rdHome pa n)

/-- An access of `n` bytes at an effective address lands on the cell at `pa`, by way of the caches of cluster `via` or (none) at its
home, in state `s1` (which differs from `s` by what a walk leaves: a TLB entry, AC and DA, and by what an uncached access settles);
no watermark stalls it. -/
def Lands (s : State) (need : Need) (acc al : Nat) (ea : Word) (n pa : Nat) (via : Option Nat) (s1 : State) : Prop :=
  locate s.th.who need acc al ea n s = .ok (.cell pa via) s1 ∧ watermarkStall s1 s.th.who pa n = none

/-- And nothing there is poisoned, so that it can be read. -/
def Reaches (s : State) (need : Need) (acc al : Nat) (ea : Word) (n pa : Nat) (via : Option Nat) (s1 : State) : Prop :=
  Lands s need acc al ea n pa via s1 ∧ poisonAt s1 pa n = none

/-- The same of an access at the home, which finds there what another device holds now: that is not poisoned. -/
def ReachesHome (s : State) (need : Need) (acc al : Nat) (ea : Word) (n pa : Nat) (via : Option Nat) (s1 : State) : Prop :=
  Lands s need acc al ea n pa via s1 ∧ poisonAt (s1.atHome pa n).1 pa n = none

/-- No core holds an update line. -/
def NoUpdates (s : State) : Prop := ∀ e ∈ s.cores, e.2.upd = []

/-- Nothing a release of the selected thread has to wait for: no ZENC of its own is running. -/
def CanRelease (s : State) : Prop := ∀ j ∈ s.zjobs, j.key ≠ s.cur

/-- The state after a release at scope `sc` (R60, R65): the update lines of the core that `cov` names have merged, and the dirty lines of
the cluster that `wb` names are written back. -/
def State.released (s : State) (wb cov : Nat → Bool) (sc : Nat) : State :=
  releaseLines wb s.th.clusterNo sc (mergeCore s s.th.coreNo cov)

/-- After a release, and an acquire, of the guard at `g` at the scope in VCFG (R76), and of the default object (R81). -/
def State.releasedGuard (s : State) (g : Word) : State :=
  s.released (s.coveredBy s.th.part g.toNat) (s.coveredBy s.th.part g.toNat) s.th.scope
def State.acquiredGuard (s : State) (g : Word) : State :=
  acquireLines (s.coveredBy s.th.part g.toNat) s.th.clusterNo s.th.scope s
def State.releasedDefault (s : State) (sc : Nat) : State := s.released (fun _ => true) (s.unbound s.th.part) sc
def State.acquiredDefault (s : State) (sc : Nat) : State := acquireLines (s.unbound s.th.part) s.th.clusterNo sc s

/-- After a release of every byte at scope `sc` (R82, R86, R93). -/
def State.releasedEvery (s : State) (sc : Nat) : State := s.released (fun _ => true) (fun _ => true) sc

/-- Where an effective address of the selected thread leads, if anywhere. -/
def State.physOf (s : State) (ea : Word) : Option Nat := match (translate s.th.who .load ea).run s with
  | .ok x _ => some x.pa
  | .error _ _ => none

/-- After the thread read `v` at `ea` by ACQ or WAIT: a nonzero STATE lets it observe the end of the collectives whose STAT word lies
there (R89, R308). -/
def State.observed (s : State) (ea : Word) (v : Nat) : State :=
  if v % 256 = 0 then s
  else { s with unseen := s.unseen.filter fun p =>
    !(p.part == s.th.part && (s.physOf ea).isSome && s.physOf (BitVec.ofNat 64 (p.data.toNat >>> 384)) == s.physOf ea) }

/-- The state of a thread that waits with what `s` holds: its word was not issued (R34, R35). -/
def State.waits (s : State) (r : WaitReason) : State :=
  let u := unissue s
  { u with th := { u.th with wait := some r }, chosen := .none }

/-- The address of LD and its kin (R170). -/
def State.addr (s : State) (f : Fields) : Word := s.th.getS f.a + s.opndB f

/-- Bytes of the W code (R149 Table 2). -/
def bytesOf (f : Fields) : Nat := widthOf f.var.toNat / 8

/-- A byte reads as before: its newest value, the value at its home, and what every cluster sees of it. -/
def SameByte (s t : State) (a : Nat) : Prop :=
  t.byteAt a = s.byteAt a ∧ t.homeByte a = s.homeByte a ∧ ∀ c, t.seenByte c a = s.seenByte c a

/-- Every byte outside `n` bytes at `pa` reads as before a store by way of cluster `via`, but that this cluster may now see the newest value
of the words stored to. -/
def SameBytesOutside (s t : State) (pa n : Nat) (via : Option Nat) : Prop :=
  ∀ a, a < pa ∨ pa + n ≤ a → t.byteAt a = s.byteAt a ∧ t.homeByte a = s.homeByte a ∧
    ∀ c, t.seenByte c a = s.seenByte c a ∨
      via = some c ∧ pa / 8 ≤ a / 8 ∧ a / 8 * 8 < pa + n ∧ t.seenByte c a = s.byteAt a

/-- Every byte outside `n` bytes at `pa` keeps its newest value; a release may bring it to its home, an acquire may drop older copies.
After a surprise link loss what a cache still held of host memory is discarded (R401). -/
def NewestOutside (s t : State) (pa n : Nat) : Prop :=
  ∀ a, a < pa ∨ pa + n ≤ a → s.plat.linkLost = false ∨ isHost a = false → t.byteAt a = s.byteAt a

/-- Every byte reads as before. -/
def SameBytes (s t : State) : Prop := ∀ a, SameByte s t a

/-- The new value of an atomic (R173 Table 8) from the old value and b. -/
def atomicValue (op w : Nat) (u : Bool) (o v : Word) : Nat :=
  ((if op = 0 then o + v else if op = 1 then o &&& v else if op = 2 then o ||| v else if op = 3 then o ^^^ v
    else if op = 4 then (if intOf w u o ≤ intOf w u v then o else v)
    else if op = 5 then (if intOf w u o ≤ intOf w u v then v else o) else v).setWidth w).toNat

/-! ### Vector words -/

/-- Bytes of a vector register, and registers of a group. -/
def State.rbytes (s : State) : Nat := (vcOf s).r
def State.gregs (s : State) : Nat := 2 ^ s.th.grp
/-- VL and VLMAX. -/
def State.vl (s : State) : Nat := (vcOf s).vl
def State.vlmax (s : State) : Nat := (vcOf s).vlmax

/-- The vector words of the thread run whole: its context is on its core, nothing damages or fills its groups, neither an element step
nor a stop cuts them, and the list register passes R126. One that resumes does so with what it began with. -/
def VecReady (s : State) (f : Fields) : Prop :=
  s.th.live = true ∧ s.th.AsBegun ∧ s.th.vectorHere = true ∧ s.th.vpoison = [] ∧ s.th.vldas = [] ∧
    (∀ l ∈ s.th.loads, l.vec = none) ∧ (vcOf s).step = false ∧ s.chosen ≠ .cut ∧
    (f.lm = true → sortS (s.th.sortOf f.c.toNat) = true ∧ sortU (s.th.sortOf f.c.toNat) = true ∧
      sortKey (s.th.sortOf f.c.toNat) = 1 ∧ sortLen (s.th.sortOf f.c.toNat) ≤ if s.th.isL then 256 else 64)

/-- A group of `n` registers may begin at `r`. -/
def GroupOk (r : BitVec 6) (n : Nat) : Prop := r.toNat % n = 0 ∧ r.toNat + n ≤ 32

/-- Two groups share no register. -/
def Apart (a na b nb : Nat) : Prop := a + na ≤ b ∨ b + nb ≤ a

/-- The list register lies outside a group of `n` registers at D. -/
def ListApart (f : Fields) (n : Nat) : Prop := f.lm = true → Apart f.d.toNat n f.c.toNat 1

/-- Element `i`, of `w` bits, of the selected thread's group at register `r`. -/
def State.elt (s : State) (r : BitVec 6) (w i : Nat) : Nat := s.th.vget s.rbytes r.toNat w i

/-- Bit `i` of a mask register. -/
def State.mbit (s : State) (k i : Nat) : Bool := (s.th.mreg k).getLsbD i

/-- Element `i` is active: below VL, enabled by the mask, and with LM in the list (R9, R126). -/
def State.active (s : State) (f : Fields) (i : Nat) : Bool :=
  decide (i < s.vl) && s.th.enabled f.m f.mn i &&
    (!f.lm || (List.range (sortLen (s.th.sortOf f.c.toNat))).any fun k => s.elt f.c 32 k == i)

/-- The active elements, rising. -/
def State.actives (s : State) (f : Fields) : List Nat := (List.range s.vl).filter (s.active f)

/-- Element `i` is not below VSTART, or XPROG of its lane group when the word resumes (R349). -/
def State.ahead (s : State) (w i : Nat) : Bool := decide (s.th.startOf ((vcOf s).laneGroup w i) ≤ i)

/-- The word still has to do element `i` of `w` bits. -/
def State.todo (s : State) (f : Fields) (w i : Nat) : Bool := s.active f i && s.ahead w i

/-- `t` is `s` after a word wrote `n` registers from D: each element it did is `val i` at `w` bits and the others are as before;
the sort states of the group are clear and P of the register before it; nothing else but VXSAT and FFLAGS differs from the
thread `u`. -/
def Elements (s : State) (f : Fields) (w n : Nat) (u : Thread) (doing : Nat → Bool) (val : Nat → Nat) (t : State) : Prop :=
  (∀ i, i * (w / 8) < n * s.rbytes → t.elt f.d w i = if doing i then val i % 2 ^ w else s.elt f.d w i) ∧
  (∀ k < 32, t.th.sortOf k =
    if f.d.toNat ≤ k ∧ k < f.d.toNat + n then 0 else if k + 1 = f.d.toNat then s.th.sortOf k &&& ~~~64 else s.th.sortOf k) ∧
  (∀ k, k < f.d.toNat ∨ f.d.toNat + n ≤ k → t.th.vreg k = s.th.vreg k) ∧
  t = { s with th := { u with v := t.th.v, sort := t.th.sort, vxsat := t.th.vxsat, fflags := t.th.fflags } }

/-- VXSAT after elements of which `sat` says which were clamped; FFLAGS after elements with these flags. -/
def satAfter (s : State) (doing : Nat → Bool) (sat : Nat → Bool) : Word :=
  if (List.range s.vl).any fun i => doing i && sat i then s.th.vxsat ||| 1 else s.th.vxsat
def flagsAfter (s : State) (doing : Nat → Bool) (fl : Nat → Flags) : Word :=
  s.th.fflags ||| ((List.range s.vl).foldl (fun x i => if doing i then x ||| fl i else x) 0).setWidth 64

/-- No element raises a flag that FRM enables to trap. -/
def NoFlagTrap (s : State) (doing : Nat → Bool) (fl : Nat → Flags) : Prop :=
  ∀ i < s.vl, doing i = true → s.th.enables &&& fl i = 0

/-- The elements a word has still to do, rising. -/
def State.todos (s : State) (f : Fields) (w : Nat) : List Nat := (List.range s.vl).filter (s.todo f w)

/-- The state of a vector word that has finished: its progress registers are 0 (R349). -/
def State.finish (s : State) : State := { s with th := s.th.finishV }

/-- An element-wise word with `n` destination registers of `w`-bit elements runs to its end (R195, R349). -/
def VecRuns (i : Instr) (s : State) (f : Fields) (w n : Nat) (val : Nat → Nat) (sat : Nat → Bool) (fl : Nat → Flags) : Prop :=
  ∃ t : State, exec i s = doneWith s t ∧ Elements s f w n s.th.finishV (s.todo f w) val t ∧
    t.th.vxsat = satAfter s (s.todo f w) sat ∧ t.th.fflags = flagsAfter s (s.todo f w) fl

/-- A word that reads all its sources before it writes runs to its end, `out` being what it writes beside its group; the progress
registers are 0 then (R349). -/
def WholeRuns (i : Instr) (s : State) (f : Fields) (w n : Nat) (doing : Nat → Bool) (val : Nat → Nat) (out : State → State) : Prop :=
  ∃ t : State, exec i s = doneWith s (out t) ∧ Elements s f w n s.th.finishV doing val t ∧
    t.th.vxsat = s.th.vxsat ∧ t.th.fflags = s.th.fflags

/-- Mask register `d` holds these bits, and every other mask register what it held. -/
def MaskIs (s t : State) (d : Nat) (bit : Nat → Bool) : Prop :=
  (∀ k, k ≠ d → t.th.mreg k = s.th.mreg k) ∧ ∀ i < 8192, t.mbit d i = bit i

/-- A compare runs to its end: active bits are the relation, the other bits below VL stay, those above become 0 (R208, R213). -/
def MaskRuns (i : Instr) (s : State) (f : Fields) (rel : Nat → Bool) (fl : Nat → Flags) : Prop :=
  ∃ t : State, exec i s = doneWith s t ∧
    MaskIs s t f.d.toNat (fun i => decide (i < s.vl) && if s.todo f s.th.sew i then rel i else s.mbit f.d.toNat i) ∧
    t = { s with th := { s.th.finishV with m := t.th.m, fflags := flagsAfter s (s.todo f s.th.sew) fl } }

/-- The second operand of element `i`: a vector element, the scalar B, or the immediate (R195 Table 4). -/
def State.src2 (s : State) (f : Fields) (i : Nat) : Nat := match f.imm with
  | some x => (x.signExtend 64 : Word).toNat % 2 ^ s.th.sew
  | none => if f.var.getLsbD 3 then (s.th.getS f.b).toNat % 2 ^ s.th.sew else s.elt f.b s.th.sew i

/-- The second operand is readable: the group is well placed, or the scalar readable. -/
def Src2Ok (s : State) (f : Fields) : Prop := match f.imm with
  | some _ => True
  | none => if f.var.getLsbD 3 then s.th.readable f.b = true else GroupOk f.b s.gregs

/-- The index of a slide, VEXTR and VINS: the register B, or the immediate zero-extended. -/
def State.indexOp (s : State) (f : Fields) : Nat := match f.imm with
  | some x => x.toNat
  | none => (s.th.getS f.b).toNat

/-- A `w`-bit pattern as an integer. -/
def patInt (w : Nat) (u : Bool) (x : Nat) : Int := if u then ((x % 2 ^ w : Nat) : Int) else (BitVec.ofNat w x).toInt

/-- The pattern of an integer at `w` bits. -/
def pattern (w : Nat) (x : Int) : Nat := (BitVec.ofInt w x).toNat

/-- SEW has a floating-point format, and the core its unit (R197). -/
def FloatReady (s : State) (f : Fields) : Prop :=
  if f.var.getLsbD 2 then s.th.sew = 16 else s.th.sew ≠ 8 ∧ (s.th.sew = 64 → featHas s 0 = true)

/-! ### Sorted runs (spec/09) -/

/-- Keys of `key`'s width, and payloads where `pay`, of the first `n` elements of a register. -/
def State.run (s : State) (key : Nat) (r n : Nat) (pay : Bool) : List KP :=
  (List.range n).map fun i =>
    (s.th.vget s.rbytes r (keyWidth key) i, if pay then s.th.vget s.rbytes (r + 1) s.th.sew i else 0)

/-- The sort state of operand `r` passes the checks of R230. -/
def RunOk (s : State) (f : Fields) (r : BitVec 6) (need : Nat) (p : Bool) : Prop :=
  let x := s.th.sortOf r.toNat
  sortS x = true ∧ sortKey x = f.var.toNat % 8 ∧ sortD x = f.var.getLsbD 3 ∧ need ≤ sortLen x ∧ (p = true → sortP x = true)

/-- `t` is `s` after registers got new elements and sort states: `regs` gives a register, its element width, how many elements
are written and what they are; `states` a register and its new state. P of a register before one of those clears. -/
def RunsWritten (s : State) (regs : List (Nat × Nat × Nat × List Nat)) (states : List (Nat × BitVec 21)) (t : State) : Prop :=
  (∀ g ∈ regs, ∀ i, i * (g.2.1 / 8) < s.rbytes → t.th.vget s.rbytes g.1 g.2.1 i =
    if i < g.2.2.1 then (g.2.2.2[i]?).getD 0 % 2 ^ g.2.1 else s.th.vget s.rbytes g.1 g.2.1 i) ∧
  (∀ k < 32, (∀ g ∈ regs, g.1 ≠ k) → t.th.vreg k = s.th.vreg k) ∧
  (∀ g ∈ states, t.th.sortOf g.1 = g.2) ∧
  (∀ k < 32, (∀ g ∈ states, g.1 ≠ k) → t.th.sortOf k =
    if states.any (fun g => g.1 == k + 1) then s.th.sortOf k &&& ~~~64 else s.th.sortOf k) ∧
  t = { s with th := { s.th with v := t.th.v, sort := t.th.sort } }

/-! ### A quiet machine -/

/-- Accesses of the selected thread to HBM are plain: it is above user level with translation off, every byte is the same everywhere,
and nothing is poisoned, migrating, running, held in update lines or named by a collective whose end was not observed. -/
def Still (s : State) : Prop :=
  s.th.level ≠ .user ∧ (s.part s.th.part).ptroot.getLsbD 0 = false ∧ s.th.vldas = [] ∧ s.zjobs = [] ∧ s.poison = [] ∧
    s.coherent = true ∧ NoUpdates s ∧ s.unseen = [] ∧
    ∀ e ∈ s.parts, e.2.migs = [] ∧ ∀ c < 16, (e.2.chans.getD c Channel.reset).st ≠ .running

/-- And no context frame stands in memory: they read and write it as it is. -/
def Quiet (s : State) : Prop := Still s ∧ s.frames = []

/-- `n` aligned bytes of HBM. -/
def InHbm (ea : Word) (n : Nat) : Prop := ea.toNat % n = 0 ∧ ea.toNat + n ≤ 0x60_0000_0000

/-- The value of `n` bytes of memory, and the state after the selected thread stored them by way of its cluster's caches (R59, R60). -/
def State.bytes (s : State) (ea : Word) (n : Nat) : Nat := s.mem.readLE ea.toNat n
def State.store (s : State) (ea : Word) (n v : Nat) : State := dirtyWrite s s.th.clusterNo ea.toNat n v

/-- The state after stores of `n` bytes each, in order. -/
def State.stores (s : State) (n : Nat) (l : List (Word × Nat)) : State := l.foldl (fun s c => s.store c.1 n c.2) s

/-- A word that stores these cells of `n` bytes, in order, runs to its end: of memory only their bytes change. -/
def StoresRun (i : Instr) (s : State) (n : Nat) (cells : List (Word × Nat)) : Prop :=
  let t := s.stores n cells
  exec i s = doneWith s { t with th := s.th.finishV } ∧
    ∀ a, (∀ c ∈ cells, a < c.1.toNat ∨ c.1.toNat + n ≤ a) → SameByte s t a

/-! ### Control registers (spec/06 R137, spec/19) -/

/-- The number a CRR or CRW names. -/
def State.crNum (s : State) (f : Fields) : Nat := match f.imm with
  | some x => x.toNat
  | none => bits (s.th.getS f.b).toNat 11 0

/-- `keep` of `v` where the field at `hi:lo` is below `n`, else the field as `old` has it. -/
def keepField (old v : Word) (hi lo n : Nat) : Nat := if bits v.toNat hi lo < n then bits v.toNat hi lo else bits old.toNat hi lo

/-- VCFG after a write (R191): reserved codes leave their field, and VL is clipped to VLMAX. -/
def vcfgAfter (s : State) (t : Thread) (v : Word) : Word :=
  let sew := keepField t.vcfg v 16 14 4
  let grp := bits v.toNat 18 17
  vcfgWord (keepField t.vcfg v 21 19 6) grp sew (min (bits v.toNat 13 0) (16 * threadLanes s t * 2 ^ grp / 2 ^ (sew % 4)))

/-- Registers of the selected thread that software may read, by number (R137, R346, R352). -/
def crValues (s : State) : List (Nat × Word) :=
  let t := s.th
  let p := s.part t.part
  let c := s.core t.coreNo
  [(0x000, t.vcfg), (0x001, t.vrows), (0x002, t.vpitch), (0x003, t.vstart), (0x004, t.eprog), (0x005, t.vxsat), (0x006, t.fflags),
    (0x007, t.frm), (0x009, t.mgrant), (0x00A, t.tid.setWidth 64), (0x00B, BitVec.ofNat 64 t.part), (0x00C, t.loc), (0x00E, c.feat),
    (0x00F, t.step), (0x030, t.xcause), (0x031, t.xpc), (0x032, t.xval), (0x033, t.xstat), (0x040, t.dbg),
    (0x050, if c.full then 16 else 8), (0x060, p.xvec), (0x080, p.ptroot), (0x081, p.ptctx), (0x082, 0), (0x084, p.tvbase),
    (0x085, p.tvlen), (0x086, p.tfbase), (0x087, p.tflen), (0x088, p.thbase), (0x089, p.thlen), (0x08A, p.tmark), (0x08B, p.tstep),
    (0x0A1, c.stop.setWidth 64 ||| c.stopped.setWidth 64 <<< 8), (0x0A2, 0), (0x0A3, 0), (0x0A4, (s.die (t.part / 8)).pswap),
    (0x08C, BitVec.ofNat 64 (s.tfreeNow t.part)), (0x0A0, vownOf s t.coreNo)] ++
  ((List.range 16).map fun j =>
    let b := (s.cluster t.clusterNo).banks.getD j Bank.reset
    (0x090 + j, BitVec.ofNat 64 (b.mode + 8 * b2n b.dec + 16 * b2n b.busy))) ++
  ((List.range 16).map fun j => (0x070 + j, t.xscr.getD j 0)) ++
  ((List.range 16).map fun j => (0x010 + j, (s.chan t.part j).cwm))

/-- What a write of `v` to these registers does (R137, R188, R346, R73): reserved bits stay 0. A change of VSTART or VPART drops the
running value of a stopped VSCAN (R216). -/
def crAfter (s : State) (v : Word) : List (Nat × State) :=
  let t := s.th
  let p := s.part t.part
  let th (u : Thread) : State := { s with th := u }
  let part (q : Partition) : State := s.setPart t.part q
  let off (q : Partition) : State := if p.tvbase.getLsbD 0 then s else part q
  [(0x000, th { t with vcfg := vcfgAfter s t v }), (0x001, th { t with vrows := if bits v.toNat 8 0 ≤ 256 then v &&& 0x1FF else t.vrows }),
    (0x002, th { t with vpitch := v }), (0x003, th { t with vstart := v &&& 0x3FFF, scan := if v &&& 0x3FFF = t.vstart then t.scan else none }),
    (0x004, th { t with eprog := v &&& 0xFFFF_FFFF }), (0x005, th { t with vxsat := v &&& 1 }), (0x006, th { t with fflags := v &&& 0x1F }),
    (0x007, th { t with frm := (v &&& 0x1F00) ||| BitVec.ofNat 64 (keepField t.frm v 2 0 5) }), (0x00F, th { t with step := v }),
    (0x030, th { t with xcause := v &&& 0x1FF }), (0x031, th { t with xpc := v &&& ~~~7 }), (0x032, th { t with xval := v }),
    (0x033, th { t with
      xstat := (v &&& 0x1CF) ||| BitVec.ofNat 64 (16 * keepField t.xstat v 5 4 3)
      scan := if v.getLsbD 1 = t.xstat.getLsbD 1 then t.scan else none }),
    (0x040, th { t with dbg := v &&& 3 }), (0x060, part { p with xvec := v &&& ~~~7 }), (0x081, part { p with ptctx := v &&& 3 }),
    (0x085, off { p with tvlen := v &&& 0x1FF_FFFF_FFFF_F000 }), (0x086, off { p with tfbase := v &&& 0xF_FFFF_FFFF_F000 }),
    (0x087, off { p with tflen := v &&& 0x7F_FFFF_F000 }), (0x088, off { p with thbase := v &&& 0xFFFF_FFFF_F000 }),
    (0x089, off { p with thlen := v &&& 0xFFFF_FFFF_F000 }), (0x08A, part { p with tmark := v }), (0x08B, part { p with tstep := v })] ++
  ((List.range 16).map fun j => (0x070 + j, th { t with xscr := t.xscr.setIfInBounds j v })) ++
  -- a write to a register that only reads changes nothing
  ([0x008, 0x009, 0x00A, 0x00B, 0x00C, 0x00D, 0x00E, 0x08C, 0x0A0] ++ (List.range 16).map (· + 0x010)).map fun n => (n, s)

/-- The thread may name register `n` (R137, R352): users the numbers below 0x020, PSWAP the monitor alone. -/
def MayName (s : State) (n : Nat) : Prop := (s.th.level = .user → n < 0x020) ∧ (n = 0x0A4 → s.th.level = .monitor)

/-- What a write of `v` does to the registers that act on a unit: PTROOT, TLBINV, TVBASE, SLSTOP, PSWAP and BMODE (R58, R73, R352,
R63), in a state in which none of them makes the write wait. A bank leaving cache mode writes back its cluster's dirty lines (which
of them, log 29). -/
def crActs (s : State) (v : Word) : List (Nat × State) :=
  let t := s.th
  let p := s.part t.part
  let c := s.core t.coreNo
  let die := s.die (t.part / 8)
  let op := bits v.toNat 10 8
  let hit (e : TlbEntry) : Bool := v.getLsbD 4 ||
    e.size == bits v.toNat 3 0 && e.va == bits v.toNat 56 12 * 4096 / pageBytes e.size * pageBytes e.size
  [(0x080, reresolveChans t.part (fun _ => true) (s.setPart t.part { p with ptroot := v &&& 0xF_FFFF_FFFF_F001, tlb := [] })),
    (0x082, reresolveChans t.part hit (s.setPart t.part { p with tlb := p.tlb.filter fun e => !hit e })),
    (0x084, s.setPart t.part { p with
      tvbase := ((if p.tvbase.getLsbD 0 then p.tvbase else v) &&& 0x1FF_FFFF_FFFF_F000) ||| (v &&& 1)
      tfree := BitVec.ofNat 64 (s.tfreeNow t.part) }),
    (0x0A1, s.setCore t.coreNo { c with
      stop := v.setWidth 8, stopped := (c.stopped ||| s.emptySlots t.coreNo) &&& v.setWidth 8, haltSet := c.haltSet &&& v.setWidth 8 }),
    (0x0A4, { s with dies := s.dies.set (t.part / 8) { die with
      pswap := (v &&& 0xFFFF_FFFF_FFFF_0F07) ||| (if 1 ≤ op ∧ op ≤ 5 then 0x8000 else 0), ran := false } })] ++
  (List.range 16).map fun j =>
    let k := s.cluster t.clusterNo
    let b := k.banks.getD j Bank.reset
    let mode := bits v.toNat 1 0
    let change := mode ≠ 3 ∧ mode ≠ b.mode
    let s := if change ∧ b.mode = 0 then
        (s.dirtyLines t.clusterNo).foldl (fun s l => writeBackLine t.clusterNo l s) s else s
    let b : Bank := if change then ⟨mode, v.getLsbD 3, true, false, 0, [], []⟩ else { b with dec := v.getLsbD 3 }
    let k := s.cluster t.clusterNo
    let s := s.setCluster t.clusterNo { k with banks := k.banks.setIfInBounds j b }
    let place := windowBase + t.clusterNo * 0x40_0000 + j * 0x2_0000
    (0x090 + j, if change ∧ mode = 1 then
        { s with frames := s.frames.set place ⟨.rest, 0x2_0000, s.free, []⟩, free := s.free + 0x2_0000 } else s)

/-- No write of a register has to wait: no bank is changing mode, no PSWAP operation is under way, no VLDA, MMA or MMAS runs on the
core. -/
def NoWriteWaits (s : State) : Prop :=
  (∀ j < 16, ((s.cluster s.th.clusterNo).banks.getD j Bank.reset).busy = false) ∧ (s.die (s.th.part / 8)).busy = false ∧
    coreBusy s s.th.coreNo = false ∧ s.th.mmaRun = []

/-! ### Paired words (spec/06 R127–R130) -/

/-- The register a slot's field names: even in slot 0, odd in slot 1. -/
def slotReg (slot1 : Bool) (x : BitVec 5) : BitVec 6 := BitVec.ofNat 6 (2 * x.toNat + b2n slot1)

/-- The value a scalar half writes to D (R130 Table 7). -/
def State.halfValue (s : State) (slot1 : Bool) (h : Half) : Option Word :=
  let d := s.th.getS (slotReg slot1 h.d)
  let a := s.th.getS (slotReg slot1 h.a)
  let k := h.imm.toNat % 64
  [(1, d + a), (2, d + h.imm.signExtend 64), (3, d - a), (4, d &&& a), (5, d ||| a), (6, d ^^^ a), (7, d <<< k), (8, d >>> k),
    (9, d.sshiftRight k), (10, if d.toInt ≤ a.toInt then d else a), (11, if d.toInt ≤ a.toInt then a else d), (12, a),
    (13, h.imm.signExtend 64), (16, d * a)].lookup h.hop.toNat

/-- The address of a half's LD or ST. -/
def State.halfAddr (s : State) (slot1 : Bool) (h : Half) : Word := s.th.getS (slotReg slot1 h.a) + h.imm.signExtend 64 * 8

/-- `t` is `s` after a scalar half, with 64-bit accesses to plain memory. -/
def HalfRuns (s : State) (slot1 : Bool) (h : Half) (t : State) : Prop :=
  Reads s [slotReg slot1 h.d, slotReg slot1 h.a] ∧
  ((h.hop = 0 ∧ t = s) ∨ (∃ v, s.halfValue slot1 h = some v ∧ t = s.put (slotReg slot1 h.d) v) ∨
    (InHbm (s.halfAddr slot1 h) 8 ∧
      ((h.hop = 14 ∧ t = s.put (slotReg slot1 h.d) (BitVec.ofNat 64 (s.bytes (s.halfAddr slot1 h) 8))) ∨
        (h.hop = 15 ∧ t = s.store (s.halfAddr slot1 h) 8 (s.th.getS (slotReg slot1 h.d)).toNat))))

/-- The full instruction a vector half stands for (R130 Table 7). -/
def fullOf (slot1 : Bool) (h : Half) : Option Instr :=
  let d := slotReg slot1 h.d
  let a := slotReg slot1 h.a
  let z : Fields := { Fields.zero with ca := h.ca, cb := h.ca, d := d }
  let da : Fields := { z with a := d, b := a }
  let one : Fields := { z with a := a, b := a }
  let zx : Fields := { z with a := d, imm := some (h.imm.setWidth 32) }
  [(32, Instr.vadd da), (33, .vsub da), (34, .vmul da), (35, .vmin da), (36, .vmax da), (37, .vand da), (38, .vor da), (39, .vxor da),
    (40, .vmv one), (41, .vshl zx), (42, .vshr zx), (43, .vfadd da), (44, .vfmul da), (45, .vslideup zx), (46, .vslidedn zx),
    (47, .vadd { z with a := d, imm := some (h.imm.signExtend 32) }), (48, .vfmin da), (49, .vfmax da), (50, .vabs one)].lookup h.hop.toNat

/-- A vector half can run: its context is present, GROUP is 0, and SEW and the core fit its operation. -/
def HalfVecOk (s : State) (h : Half) : Prop :=
  s.th.live = true ∧ s.th.AsBegun ∧ s.th.vectorHere = true ∧ s.th.grp = 0 ∧ ((h.hop = 41 ∨ h.hop = 42) → h.imm.toNat < s.th.sew) ∧
    ((h.hop = 43 ∨ h.hop = 44 ∨ h.hop = 48 ∨ h.hop = 49) → s.th.sew ≠ 8 ∧ (s.th.sew = 64 → featHas s 0 = true))

/-- A context frame the device wrote stands whole at `pa`, `n` pages of it, and nothing rewrote any (R353). -/
def FrameHolds (s : State) (pa : Nat) (body : Saved) (n : Nat) : Prop :=
  ∃ f, s.frames.find pa = some f ∧ f.body = body ∧ f.dirty = [] ∧
    ∀ i, 1 ≤ i → i < n → ∃ g, s.frames.find (pa + 4096 * i) = some g ∧ g.dirty = [] ∧ g.stamp = f.stamp + 4096 * i

/-! ### Transfers, streams, groups and launches (spec/02, spec/10) -/

/-- The half `put` of thread `k`, whose group is at `rk`, meets thread `j`, which waits in the other half with its group at `rj`: both
run in slots of one cluster with their vector contexts there, name each other and move the same number of bytes, which their groups hold, with no damage (R252). -/
def Meets (s : State) (put : Bool) (k rk j rj : Nat) : Prop :=
  let x := s.thread k
  let y := s.thread j
  let room (t : Thread) (r : Nat) : Prop := r + 2 ^ t.grp ≤ 32 ∧ t.xferBytes ≤ 2 ^ t.grp * (16 * threadLanes s t)
  j ≠ k ∧ y.live = true ∧ y.wait = some (.xfer (!put) x.tid rj) ∧ s.canXfer x = true ∧ s.canXfer y = true ∧ y.clusterNo = x.clusterNo ∧
    y.xferBytes = x.xferBytes ∧ room x rk ∧ room y rj ∧ x.vpoison = [] ∧ y.vpoison = []

/-- After a pair has met: the bytes of the put's group are in the get's, whose sort states are clear and whose other registers are as
before, and the partner goes on at its next word (R252). -/
def Moved (s t : State) (put : Bool) (k rk j rj : Nat) : Prop :=
  let (src, rs, dst, rd) := if put then (k, rk, j, rj) else (j, rj, k, rk)
  let lanes (x : Nat) : Nat := 16 * threadLanes s (s.thread x)
  (∀ i < (s.thread k).xferBytes, (t.thread dst).vget (lanes dst) rd 8 i = (s.thread src).vget (lanes src) rs 8 i) ∧
  (∀ r, r < rd ∨ rd + 2 ^ (s.thread dst).grp ≤ r → (t.thread dst).vreg r = (s.thread dst).vreg r) ∧
  (∀ r, rd ≤ r → r < rd + 2 ^ (s.thread dst).grp → (t.thread dst).sortOf r = 0) ∧
  (t.thread src).v = (s.thread src).v ∧ (t.thread src).sort = (s.thread src).sort ∧
  (t.thread j).wait = none ∧ ((s.thread j).dbg.getLsbD 1 = false → (t.thread j).pc = (s.thread j).pc + 8) ∧
  (t.thread j).s = (s.thread j).s ∧ t.mem = s.mem ∧ t.parts = s.parts

/-- Key `i` of a stream, from plain memory, and a value beside it. -/
def State.streamKey (s : State) (q : Stream) (i : Nat) : Nat := s.bytes (q.idx + BitVec.ofNat 64 (i * q.kb)) q.kb
def State.streamVal (s : State) (q : Stream) (i : Nat) : Nat := s.bytes (q.val + BitVec.ofNat 64 (i * q.kb)) q.kb

/-- A stream word can run: the core has its unit and the vector context is present. -/
def StreamReady (s : State) : Prop := s.th.live = true ∧ s.th.AsBegun ∧ featHas s 5 = true ∧ s.th.vectorHere = true

/-- A group object in plain memory. -/
def State.object (s : State) (ea : Word) : GObj := GObj.ofNat (s.bytes ea 64)

/-- The state with the first 24 bytes of an object written at its home, the rest being reserved. -/
def State.putObject (s : State) (ea : Word) (o : GObj) : State := physWrite s ea.toNat 24 o.toNat

/-- After the acquire of a return from a group (R43): of the regions bound to the object as a guard, and of the default object. -/
def State.acquiredGroup (s : State) (ea : Word) : State :=
  acquireLines (fun l => s.coveredBy s.th.part ea.toNat l || s.unbound s.th.part l) s.th.clusterNo s.th.scope s

/-- The phase of a group completes (R42). -/
def completed (o : GObj) : GObj := { o with res := if o.ract then o.acc else o.res, arrived := 0, phase := !o.phase }

/-- A member leaves (R40). -/
def left (o : GObj) : GObj :=
  let n := (o.members + 65535) % 65536
  if n ≠ 0 ∧ n = o.arrived then completed { o with members := n } else { o with members := n }

/-- A member arrives (R42): the first sets RACT, ROP and the identity of Table 5. -/
def arrived (o : GObj) (red : Bool) (op x : Nat) : GObj :=
  let first := o.arrived = 0
  let acc := if first then (if op = 1 then 2 ^ 63 - 1 else if op = 2 then 2 ^ 63 else 0) else o.acc
  let o : GObj := { o with
    ract := if first then red else o.ract, rop := if first then op else o.rop
    acc := if red then redCombine op acc x else acc, arrived := o.arrived + 1 }
  if o.arrived = o.members then completed o else o

/-- The handles of the selected thread with one replaced. -/
def State.setHandle (s : State) (g : Nat) (x : Word) : State := { s with th := s.th.setHandle g x }

/-- The state after GLEAVE through handle `g` (R40). -/
def State.leave (s : State) (g : Nat) : State :=
  let ea := handleAddr (s.th.handle g)
  (s.putObject ea (left (s.object ea))).setHandle g 0

/-- The state with a launch queued (R26, R27). -/
def State.launched (s : State) (x gpa : Nat) : State :=
  let p := s.part s.th.part
  let prio := bits x 163 161
  let e : LaunchEntry := ⟨(p.seq + 1) % 2 ^ 64, BitVec.ofNat 512 x, 0, 0, bits x 159 128, none, gpa⟩
  s.setPart s.th.part { p with
    seq := (p.seq + 1) % 2 ^ 64, queues := p.queues.setIfInBounds prio (p.queues.getD prio [] ++ [e]) }

/-! ### The matrix unit and trellis weights (spec/11) -/

/-- The matrix words can run: the core has its unit, the context is present, and no result of the thread is damaged. -/
def MatrixReady (s : State) : Prop :=
  s.th.live = true ∧ s.th.AsBegun ∧ featHas s 3 = true ∧ s.th.vectorHere = true ∧ (s.cluster s.th.clusterNo).accPoison = []

/-- Entry (row, column) of the selected thread's tile (R262). -/
def State.entry (s : State) (tile row col : Nat) : BitVec 32 :=
  (s.cluster s.th.clusterNo).accGet (accKey tile (s.th.gbase + row) col)

/-- Weight `w` of a trellis record, from plain memory: its binary8 code and flags (R269, R117). -/
def State.weightAt (s : State) (r : TRec) (w : Nat) : FRes :=
  let k := w / r.tr.B
  let lo := (r.streamBytes k (k + 1)).1
  let hi := (r.streamBytes k (k + 1)).2
  r.tr.weight (s.mem.readLE lo (hi - lo) / 2 ^ (k * r.tr.bits % 8) % 2 ^ r.tr.bits) (s.mem.readLE (r.scl + k) 1) (w % r.tr.B)

/-- The bytes a weight needs lie in HBM. -/
def WeightInHbm (r : TRec) (w : Nat) : Prop :=
  w < r.weights ∧ (r.streamBytes (w / r.tr.B) (w / r.tr.B + 1)).2 ≤ 0x60_0000_0000 ∧ r.scl + w / r.tr.B < 0x60_0000_0000

/-- The value of element (i, j) of an operand, `outer` and `k` naming its scale byte in rows of ⌈`dim` / 32⌉ (R265, R267). -/
def State.operand (s : State) (h : Shape) (r : Option TRec) (i j outer dim k : Nat) : FVal :=
  let x : FVal := match r with
    | some r => r.tr.fmt.decode (s.weightAt r (h.at_ i j).toNat).1
    | none => (Efmt.ofCode h.efmt).elim (.num false 0 0) fun e => e.value 0 (s.bytes (h.at_ i j) h.esize)
  if h.ms then scaleVal (s.bytes (h.scale + BitVec.ofNat 64 (outer * ((dim + 31) / 32) + k / 32)) 1) x else x

/-- And its bytes lie in HBM. -/
def OperandInHbm (h : Shape) (r : Option TRec) (i j outer dim k : Nat) : Prop :=
  (match r with
    | some r => WeightInHbm r (h.at_ i j).toNat
    | none => InHbm (h.at_ i j) h.esize) ∧
  (h.ms = true → InHbm (h.scale + BitVec.ofNat 64 (outer * ((dim + 31) / 32) + k / 32)) 1)

/-- The trellis record a shape record names, in plain memory. -/
def TrellisOf (s : State) (h : Shape) (r : Option TRec) : Prop :=
  if h.efmt = 0x40 then InHbm h.trec 64 ∧ r = TRec.ofNat (s.bytes h.trec 64) ∧ r.isSome = true else r = none

/-- The shape record at an address. -/
def State.shape (s : State) (ea : Word) : Shape := Shape.ofNat ea (s.bytes ea 64)

/-- The conditions of R276 and R278 on the operands of an MMA, or with `sparse` of an MMAS, whose metadata nibbles name the places
`place` of A's elements. -/
def ShapesOk (s : State) (hA hB : Shape) (rA rB : Option TRec) (sparse : Bool) (place : Nat → Nat → Nat) : Prop :=
  let K := s.th.vl
  let KA := if sparse then K / 2 else K
  let small (h : Shape) : Prop := h.bad = false ∧ (h.ms = true → opClass h.efmt = some .float8 ∧ h.efmt ≠ 0x40)
  small hA ∧ small hB ∧ TrellisOf s hA rA ∧ TrellisOf s hB rB ∧ opClass hA.efmt = opClass hB.efmt ∧
    0 < s.th.grows ∧ hA.rows ≤ s.th.grows ∧ KA ≤ hA.cols ∧ hB.cols ≤ 256 ∧ K ≤ hB.rows ∧ (sparse = true → K % 4 = 0 ∧ hA.efmt ≠ 0x40) ∧
    (∀ i < hA.rows, ∀ e < KA, OperandInHbm hA rA i e i hA.cols (place i e)) ∧
    ∀ k < K, ∀ j < hB.cols, OperandInHbm hB rB k j j hB.rows k

/-- The cluster's accumulators have new entries where `new` gives one and are otherwise as before. -/
def EntriesAre (old new : Cluster) (f : Nat → Option (BitVec 32)) : Prop :=
  (∀ key, new.accGet key = (f key).getD (old.accGet key)) ∧ new = { old with acc := new.acc }

/-- An MMA or MMAS runs (R276, R113): each entry of D in M rows and N columns is updated by the products of a row of A, `row`, and a
column of B; the flags of the sums and clamps wait for its finish. -/
def MatrixRuns (i : Instr) (s : State) (f : Fields) (cls : OpClass) (M N : Nat) (row col : Nat → List FVal) : Prop :=
  let neg := f.xm.getLsbD 0 != f.xm.getLsbD 1
  let r (i j : Nat) := macEntry cls (s.entry f.d.toNat i j).toNat (f.xm.getLsbD 2) neg (row i) (col j)
  let all := (List.range M).flatMap fun i => (List.range N).map fun j => (i, j)
  ∃ u : Cluster, EntriesAre (s.cluster s.th.clusterNo) u
      (fun key => (all.find? fun e => accKey f.d.toNat (s.th.gbase + e.1) e.2 == key).map fun e => BitVec.ofNat 32 (r e.1 e.2).1) ∧
    exec i s = doneWith s { s.setCluster s.th.clusterNo u with th := { s.th with mmaRun := s.th.mmaRun ++
      [(all.foldl (fun x e => x ||| (r e.1 e.2).2.1) 0, all.any fun e => (r e.1 e.2).2.2)] } }

/-! ### Engines (spec/12) -/

/-- Memory is plain for every agent: every byte is the same everywhere, and nothing is poisoned, saved, migrating, held in update lines
or named by a collective whose end was not observed. -/
def PlainMem (s : State) : Prop :=
  s.poison = [] ∧ s.frames = [] ∧ s.coherent = true ∧ NoUpdates s ∧ s.unseen = [] ∧ ∀ e ∈ s.parts, e.2.migs = []

/-- Bytes that a list of places (address, length) does not cover read as before. -/
def SameBut (s t : State) (l : List (Nat × Nat)) : Prop :=
  ∀ a, (∀ r ∈ l, a < r.1 ∨ r.1 + r.2 ≤ a) → t.mem.read a = s.mem.read a

/-- The words of the source of which an iteration read a part stand as they were then (R86). -/
def Channel.Fresh (c : Channel) (s : State) : Prop := ∀ e ∈ c.edges, e.2 = s.mem.readLE (8 * e.1) 8

/-- A channel runs a record whose addresses are physical, apart from its own source (R290). -/
def Channel.Steps (c : Channel) (fn : Nat) : Prop :=
  c.st = .running ∧ c.fn = fn ∧ c.fault = none ∧ c.paused = false ∧ c.whole = false ∧ c.xl = false ∧ c.user = false

/-- A completion record (R136 Table 14) as a 32-byte value. -/
def recordOf (state cause leaf elem done : Nat) : Nat :=
  state + cause * 2 ^ 8 + leaf * 2 ^ 64 + elem * 2 ^ 128 + done * 2 ^ 192

/-- Channel `n` of partition `p` in `t` has ended normally (R289, R294), with its record written where it has one. -/
def ChannelEnded (s t : State) (p n done elem : Nat) : Prop :=
  let c := s.chan p n
  (t.chan p n).st = .idle ∧ (t.chan p n).cwm = BitVec.ofNat 64 c.dhi ∧ (t.chan p n).record = c.record ∧
    (c.crec ≠ 0 → t.mem.readLE c.crec.toNat 32 = recordOf 1 0 0 elem (done % 2 ^ 64))

/-! ### Tiering (spec/03 R71–R73, spec/21 R373) -/

/-- Page `x` is demoted no later than `y` (R72). -/
def Partition.DemotesBy (q : Partition) (x y : TlbEntry) : Prop :=
  let prio (e : TlbEntry) : Nat := (q.hint e.va).1
  let next (e : TlbEntry) : Nat := (q.hint e.va).2
  let passed (e : TlbEntry) : Prop := next e < q.tstep.toNat
  prio y < prio x ∨ prio x = prio y ∧
    (passed x ∧ (passed y → x.va ≤ y.va) ∨ ¬ passed x ∧ ¬ passed y ∧ (next y < next x ∨ next x = next y ∧ x.va ≤ y.va))

/-- `f` is a free frame of the pool [lo, lo + len) for a page of size code `n` (R73). -/
def FreeFrame (s : State) (p lo len n f : Nat) : Prop :=
  f % pageBytes n = 0 ∧ lo ≤ f ∧ f + pageBytes n ≤ lo + len ∧ ∀ u ∈ s.usedFrames p, u.1 + u.2 ≤ f ∨ f + pageBytes n ≤ u.1

/-- Entries of a page's run (R56). -/
def runLength (n : Nat) : Nat := pageBytes n / (4096 * 512 ^ sizeLevel n)

/-- In `t` a move of page `e` to frame `f` has started (R72, R373): MIG stands in its entries, each otherwise as it was, and no
translation still holds them. -/
def MoveStarted (s t : State) (p : Nat) (e : TlbEntry) (f : Nat) (up : Bool) : Prop :=
  (t.part p).migs = [⟨e.va, e.size, e.frame, f, e.at_, up, 0, []⟩] ∧
  (∀ k < runLength e.size, t.mem.readLE (e.at_ + 8 * k) 8 = s.mem.readLE (e.at_ + 8 * k) 8 ||| 2 ^ 58) ∧
  SameBut s t [(e.at_, 8 * runLength e.size)] ∧
  ∀ x ∈ (t.part p).tlb, x.va + pageBytes x.size ≤ e.va ∨ e.va + pageBytes e.size ≤ x.va

/-! ### Tile instructions (spec/06 R132–R136, spec/12 R299–R307, spec/22) -/

/-- The addresses of a job are physical, or its partition has translation off; it acts above user level and for no loop. -/
def TileJob.Plain (s : State) (j : TileJob) : Prop := j.user = false ∧ j.tag = none ∧ (j.phys = true ∨ (s.part j.part).ptroot.getLsbD 0 = false)

/-- Decomposer `x` after it took `job` from its queue, leaving `rest`, and ran it into a failure of its own check (R368, R385, R386),
with the descriptors `raw` read: the report names its level and unit; with FP = 0 the submitter's later instructions at `d` stop with it. -/
def Decomposer.refused (x : Decomposer) (job : TileJob) (raw : List (BitVec 512)) (rest : List TileJob) (code lvl unit : Nat) :
    Decomposer :=
  let same (k : TileJob) : Bool := k.sub == job.sub
  let r : TileRun := ⟨job, raw, [], [], [], 0, some ⟨code, lvl, unitLoc lvl unit, 0⟩, none, []⟩
  if job.fp then { queue := rest, running := x.running ++ [r] }
  else { queue := rest.filter fun k => !same k
         running := x.running ++ [r] ++ (rest.filter same).map fun k => ⟨k, [], [], [], [], 0, none, some (code, lvl), []⟩ }

/-- The descriptors a tile instruction names, in plain memory. -/
def State.tdescs (s : State) (l : List Word) : List TDesc := l.map fun ea => TDesc.ofNat (s.bytes ea 64)

/-- Element `i` of a descriptor, its scale byte, and its value with its scale (R134). -/
def State.telem (s : State) (d : TDesc) (i : List Nat) : Nat := s.bytes (d.at_ i) d.esize
def TDesc.scaleAt (d : TDesc) (i : List Nat) : Word :=
  d.aux + BitVec.ofNat 64 ((i.getD 1 0 + d.size 1 * (i.getD 2 0 + d.size 2 * i.getD 3 0)) * ((d.size 0 + 31) / 32) + i.getD 0 0 / 32)
def State.tval (s : State) (d : TDesc) (i : List Nat) : FVal :=
  let v := d.fmt.value d.pt (s.telem d i)
  if d.ms then scaleVal (s.bytes (d.scaleAt i) 1) v else v

/-- What output element `i` holds for a result: with a scale, the result divided by it (R108). -/
def State.holdsAt (s : State) (o : TDesc) (i : List Nat) (x : TOut) : Except Nat Nat :=
  o.holds (if o.ms then s.bytes (o.scaleAt i) 1 else 0) x

/-- Every element of a descriptor, with its scale, lies in HBM; none is trellis-coded. -/
def TDesc.Lies (d : TDesc) : Prop :=
  d.efmt ≠ 0x40 ∧ ∀ i ∈ boxIdx d.box, InHbm (d.at_ i) d.esize ∧ (d.ms = true → InHbm (d.scaleAt i) 1)

/-- Leaf `l` of the running instruction `j` of decomposer `d` can run: nothing stopped it, its descriptors `ds` keep R134 and Table
7 of R304, its share lies in the output, and the elements of the output lie in HBM apart from each other, from their scales and from
the inputs. -/
def LeafReady (s : State) (d j l top : Nat) (r : TileRun) (leaf : Leaf) (ds : List TDesc) : Prop :=
  let o := tdesc ds (tileOut top ds)
  let e := r.env leaf
  (s.dec d).running[j]? = some r ∧ r.leaves[l]? = some leaf ∧ r.job.top = top ∧ r.sibling = none ∧ r.report = none ∧
    r.job.Plain s ∧ (s.part (leaf.core / 40)).halted = false ∧ (tileNeed top = 8 → s.rowsFree (leaf.core / 4) = true) ∧
    PlainMem s ∧ s.MemOk ∧ ds = r.descs.map (fun x => TDesc.ofNat x.toNat) ∧ (∀ x ∈ ds, x.bad = false ∧ x.Lies) ∧
    tableOk top r.job.lvl r.job.w3 ds = true ∧ (∀ i ∈ boxIdx leaf.box, i ∈ boxIdx o.box) ∧
    (o.ms = true → ∀ i ∈ boxIdx o.box, ∀ k ∈ boxIdx o.box,
      (o.at_ i).toNat + o.esize ≤ (o.scaleAt k).toNat ∨ (o.scaleAt k).toNat < (o.at_ i).toNat) ∧
    (boxIdx o.box).Pairwise (fun i k => (o.at_ i).toNat + o.esize ≤ (o.at_ k).toNat ∨ (o.at_ k).toNat + o.esize ≤ (o.at_ i).toNat) ∧
    ∀ x ∈ e.ins, ∀ i ∈ boxIdx o.box, x.touches s e.who (storageOf s e.who .store (o.at_ i) o.esize) = false

/-- The leaf runs: it writes the result `v` into each element of its share and nothing else, raises no flag, and is counted (R299,
R302). -/
def LeafWrites (s : State) (d j l top : Nat) (r : TileRun) (leaf : Leaf) (ds : List TDesc) (v : List Nat → TOut) : Prop :=
  let o := tdesc ds (tileOut top ds)
  let idx := boxIdx leaf.box
  ∃ u : State, exec (.tileLeafRun d j l) s = .next u ∧
    (∀ i ∈ idx, ∃ x, s.holdsAt o i (v i) = .ok x ∧ u.bytes (o.at_ i) o.esize = x % 2 ^ (8 * o.esize)) ∧
    SameBut s u (idx.map fun i => ((o.at_ i).toNat, o.esize)) ∧
    (u.dec d).running = (s.dec d).running.set j { r with leaves := removeAt r.leaves l, done := r.done + 1 } ∧
    u.th = s.th ∧ u.parked = s.parked

/-- The notice of a completion record (R335): PEND of the submitting queue, and with IE its MSI-X message. -/
def Noticed (s u : State) (sub : Submitter) : Prop := match sub with
  | .thread _ _ => u.tqs = s.tqs ∧ u.msix = s.msix
  | .queue q => (u.tq q).pend = true ∧ (∀ k, k ≠ q → u.tq k = s.tq k) ∧
      u.msix = s.msix ++ if (s.tq q).ie ∧ s.plat.linkLost = false then [⟨if 16 ≤ q then q - 15 else 0, .tileQueue q⟩] else []

/-! ### Collectives and loops (spec/12, spec/13, spec/22) -/

/-- A collective but for what is noted of writes to its named buffers (R89). -/
def Coll.unmarked (c : Coll) : Coll := { c with parties := c.parties.map fun p => { p with sbad := false, rbad := false } }

/-- The agent of a participant acts on plain memory, and nothing was written to its buffers since its COLL (R89). -/
def Party.Plain (s : State) (p : Party) : Prop :=
  p.user = false ∧ (s.part p.part).ptroot.getLsbD 0 = false ∧ InHbm p.stat 8 ∧ p.sbad = false ∧ p.rbad = false

/-- `n` elements of `w` bytes from `a` lie in HBM. -/
def RunInHbm (a n w : Nat) : Prop := a % w = 0 ∧ a + n * w ≤ 0x60_0000_0000

/-- The operation of a collective on two patterns (R309): integers wrap, floats round RNE, exact words add modulo 2^128. -/
def Party.combine (p : Party) (x y : Nat) : Nat :=
  let int (a b : Int) : Int := if p.op = 0 then a + b else if p.op = 1 then min a b else max a b
  match Efmt.ofCode p.efmt with
  | some (.int w u) => pattern w (int (patInt w u x) (patInt w u y))
  | some (.fp f) => (if p.op = 0 then f.add .rne x y else f.minmax (p.op == 2) x y).1
  | _ => pattern 128 (int (patInt 128 false x) (patInt 128 false y))

/-- Element `j` a participant receives from what each rank sends (R309). -/
def Party.receivesAt (p : Party) (np : Nat) (sent : Nat → Nat → Nat) (j : Nat) : Nat :=
  let fold (k : Nat) : Nat := (List.range (np - 1)).foldl (fun a r => p.combine a (sent (r + 1) k)) (sent 0 k)
  if p.kind = 0 then fold j else if p.kind = 1 then sent (j / p.count) (j % p.count)
  else if p.kind = 2 then fold (p.rank * p.count + j) else sent p.root j

/-- The tag of a loop fits its slot's entry (R318). -/
def State.TagFits (s : State) (p slot gen : Nat) : Prop :=
  let k := s.kvRegs p
  k.count = 0 ∨ slot < k.count.toNat ∧ s.mem.readLE (k.base.toNat / 16 * 16 + 16 * slot) 4 = gen
def State.TagStale (s : State) (p slot gen : Nat) : Prop :=
  let k := s.kvRegs p
  slot < k.count.toNat ∧ s.mem.readLE (k.base.toNat / 16 * 16 + 16 * slot) 4 ≠ gen

/-- Where word `n` of a slot's page list lies, and the page it names (R318). -/
def State.pageWordAt (s : State) (p slot n : Nat) : Nat :=
  s.mem.readLE ((s.kvRegs p).base.toNat / 16 * 16 + 16 * slot + 8) 8 + 8 * n
def State.slotPage (s : State) (p slot n : Nat) : Nat := s.mem.readLE (s.pageWordAt p slot n) 8

/-- Two ranges (address, length) share no byte. -/
def RangesApart (x y : Nat × Nat) : Prop := x.1 + x.2 ≤ y.1 ∨ y.1 + y.2 ≤ x.1

/-- What a discard of a loop's entries may change (R321): their bytes in the pages the iteration made its own, and the count words of those
pages. -/
def LoopRun.spoils (s : State) (l : LoopRun) : List (Nat × Nat) :=
  l.entries.flatMap fun e =>
    (l.page e.page + e.off, e.len) :: (s.pageOf l.part (l.page e.page)).elim [] fun b => [(b.1, 4)]

/-- And all of it lies in HBM. -/
def LoopRun.CanDiscard (s : State) (l : LoopRun) : Prop := ∀ r ∈ l.spoils s, r.1 + r.2 ≤ 0x60_0000_0000

/-- In `u` loop number `i` has ended with a STAT word, and the function that started it is told (R337, R394). -/
def LoopEnded (s u : State) (i : Nat) (l : LoopRun) (v : Nat) : Prop :=
  u.mem.readLE l.stat.toNat 8 = v ∧ u.loops = removeAt s.loops i ∧
    u.msix = s.msix ++ (if s.plat.linkLost then [] else [⟨l.fn, .loop l.part⟩])

/-! ### Partition swap, resets and the platform (spec/18, spec/19, spec/21, spec/24) -/

/-- Operation `op` of PSWAP on partition `p` is under way and has not had its effect (R352, R357). -/
def State.Due (s : State) (op p : Nat) : Prop :=
  let y := s.die (p / 8)
  p < 16 ∧ y.pswap.getLsbD 15 = true ∧ y.ran = false ∧ bits y.pswap.toNat 10 8 = op ∧ bits y.pswap.toNat 2 0 = p % 8

/-- Thread `k` lives in partition `p`. -/
def State.LivesIn (s : State) (p k : Nat) : Prop := (s.thread k).live = true ∧ (s.thread k).part = p

/-- Nothing of partition `p` stands in an engine: no tile instruction, running channel, collective, ZENC or page move. -/
def State.EnginesIdle (s : State) (p : Nat) : Prop :=
  (∀ e ∈ s.decs, ∀ r ∈ e.2.running, r.job.ofPart p = false) ∧ (∀ n < 16, (s.chan p n).st ≠ .running) ∧
    (∀ c ∈ s.colls, ∀ y ∈ c.parties, y.part ≠ p) ∧ (∀ j ∈ s.zjobs, j.part ≠ p) ∧ (s.part p).migs = []

/-- In `u` the context of partition `p` is gone, and its units hold their reset values; FEAT and CCYC stay, and so do the other cores
(R62, R358, R398), and the accumulators, and its loops end alike (the model's reading, log 45). After a thermal stop the partition is halted
(R406). -/
def ContextGone (s u : State) (p : Nat) : Prop :=
  (∀ k, s.LivesIn p k → (u.thread k).live = false) ∧
  (∃ reuse, u.part p = let q : Partition := { Partition.reset with reuse := reuse }
    if s.plat.limit = 3 then { q with halted := true, chans := Vector.replicate 16 { Channel.reset with paused := true } } else q) ∧
  (∀ c, u.core c = if c / 40 = p then { Core.reset with feat := (s.core c).feat, inService := (s.core c).inService } else s.core c) ∧
  (∀ c, c / 10 = p → u.cluster c = { s.cluster c with banks := Vector.replicate 16 Bank.reset, stale := [] }) ∧
  (∀ d, ∀ j ∈ (u.dec d).queue, j.ofPart p = false) ∧ (∀ l ∈ u.loops, l.part ≠ p) ∧
  ∀ e ∈ (u.tq (4 + p % 4)).marks, e.2.part = p → e.2.dead = true

/-- And nothing else of the card has changed: memory, the error log, messages, and the other clusters. -/
def OthersStay (s u : State) (p : Nat) : Prop :=
  u.mem = s.mem ∧ u.log = s.log ∧ u.msix = s.msix ∧ ∀ c, c / 10 ≠ p → u.cluster c = s.cluster c

/-- An error is logged with its code, address, partition and unit, or counted in DROP while 64 entries stand (R379). -/
def Logged (s u : State) (code addr : Nat) (part : Option Nat) (unit : Nat) : Prop :=
  let g := s.log
  if (g.next - g.ack).toNat = 64 then u.log.drop = g.drop + 1 ∧ u.log.next = g.next ∧ u.log.entries = g.entries
  else u.log.drop = g.drop ∧ u.log.next = g.next + 1 ∧ u.log.entries.find (g.next.toNat % 64) =
    some ⟨BitVec.ofNat 64 (code + part.elim 0 fun p => p * 2 ^ 9 + 2 ^ 13), BitVec.ofNat 64 addr, BitVec.ofNat 64 unit⟩

/-- The Detail recorded for a granule. -/
def State.detail (s : State) (g : Nat) : Option Nat := (s.poison.find? fun e => e.1 == g).map Prod.snd

end Sys2Proof.Machine
end

