-- ==== Sys2Proof/Certificates/Slice0/Obligations.lean ====
section
/-! DEFINITION. The statements about the card that the provers are asked to prove. Each docstring names the rules of spec/. -/

open Sys2Proof Sys2Proof.Machine

/-! ### Encoding and decoding -/

/-- The worked encodings of R131 Table 9, a branch, a load, a matrix word and a tile instruction written out from Tables 2, 3, 8,
10 and 11 decode to the instructions they stand for; K = 3, OP 0x00 and OP 0x7F decode to none. -/
def Obligations.DecodesWrittenWords : Prop :=
  decodeWord 0x2606_0840_4000_0000 = .ok (.vadd { unpackR 0 with d := 3, a := 1, b := 2, ca := true }) ∧
  decodeWord 0x408A_3000_FFFF_FFF8 = .ok (.add { unpackI 0 with d := 5, a := 6, imm := some 0xFFFF_FFF8 }) ∧
  decodeWord 0x8110_C000_1A20_000C = .ok (.pairedWord ⟨1, 2, 3, false, 0⟩ ⟨13, 2, 0, false, 12⟩) ∧
  -- BR with IMM −2: K 01, OP 0x2C
  decodeWord (BitVec.ofNat 64 (2 ^ 62 + 0x2C * 2 ^ 55 + 0xFFFF_FFFE)) = .ok (.br { unpackI 0 with imm := some 0xFFFF_FFFE }) ∧
  -- LD s7 of w32.zx at s8 + s9: K 00, OP 0x32, D 7, A 8, B 9, FN[3:0] 5
  decodeWord (BitVec.ofNat 64 (0x32 * 2 ^ 55 + 7 * 2 ^ 49 + 8 * 2 ^ 43 + 9 * 2 ^ 37 + 5 * 2 ^ 16)) =
    .ok (.ld { unpackR 0 with d := 7, a := 8, b := 9, var := 5 }) ∧
  -- MMA t1, s2, s3: OP 0x7B, FN[7:4] 2
  decodeWord (BitVec.ofNat 64 (0x7B * 2 ^ 55 + 1 * 2 ^ 49 + 2 * 2 ^ 43 + 3 * 2 ^ 37 + 2 * 2 ^ 20)) =
    .ok (.mma { unpackR 0 with d := 1, a := 2, b := 3 }) ∧
  -- TCOPY at level 1 with its record at 0x40: TOP 0x05
  decodeTile (BitVec.ofNat 64 (0x05 * 2 ^ 56 + 1 * 2 ^ 53 + 0x40)) 0x1000 0x2000 0 = .ok (.tcopy ⟨1, false, 0x40, 0x1000, 0x2000, 0⟩) ∧
  decodeWord 0xC000_0000_0000_0000 = .error .reservedKind ∧ decodeWord 0 = .error .reservedOp ∧
  decodeWord (BitVec.ofNat 64 (0x7F * 2 ^ 55)) = .error .reservedOp

/-- Decode of encode: every well-formed instruction is read back from its own words, every operand at every value (R118–R133). -/
def Obligations.DecodeOfEncode : Prop := ∀ i : Instr, i.wf = true → decodeWords (encode i) = .ok i

/-- Encode of decode: a word, or a tile instruction, that decodes gives a well-formed instruction whose encoding is those very
words: no bit of a decoded word is dropped (R118–R133). -/
def Obligations.EncodeOfDecode : Prop :=
  (∀ w i, decodeWord w = .ok i → i.wf = true ∧ encode i = [w]) ∧
  (∀ w0 w1 w2 w3 i, decodeTile w0 w1 w2 w3 = .ok i → i.wf = true ∧ encode i = [w0, w1, w2, w3])

/-! ### Scalar integer words (spec/07) -/

/-- ADD, SUB, MUL, MIN and MAX (R150): the exact result on signed or unsigned operands of w bits, clamped with SAT (R95, R96) or modulo
2^w, sign-extended into D; VXSAT.SAT is set where it was clamped. MULH, DIV and REM (R151, R152): the upper w bits of the product, the
quotient rounded towards zero, the remainder with the sign of a; zero as divisor raises 0x110 or 0x111 with nothing written. -/
def Obligations.IntegerArithmetic : Prop :=
  (∀ (f : Fields) (s : State), Reads s (regsAB f) →
    let a := intOf f.w f.u (s.th.getS f.a)
    let b := intOf f.w f.u (s.opndB f)
    let out (x : Int) : Out :=
      doneWith s ((s.satBit (clamped f.w f.sat f.u x)).put f.d (low f.w (BitVec.ofInt 64 (fitInt f.w f.sat f.u x))))
    exec (.add f) s = out (a + b) ∧ exec (.sub f) s = out (a - b) ∧ exec (.mul f) s = out (a * b) ∧
    exec (.min f) s = out (min a b) ∧ exec (.max f) s = out (max a b)) ∧
  (∀ (f : Fields) (s : State), Reads s [f.a, f.b] →
    let a := intOf f.w f.u (s.th.getS f.a)
    let b := intOf f.w f.u (s.th.getS f.b)
    let q := a.tdiv b
    exec (.mulh f) s = doneWith s (s.put f.d (low f.w (BitVec.ofInt 64 (a * b / 2 ^ f.w)))) ∧
    (b ≠ 0 → exec (.div f) s = doneWith s ((s.satBit (clamped f.w f.sat f.u q)).put f.d
      (low f.w (BitVec.ofInt 64 (fitInt f.w f.sat f.u q))))) ∧
    (b ≠ 0 → exec (.rem f) s = doneWith s (s.put f.d (low f.w (BitVec.ofInt 64 (a.tmod b)))))) ∧
  ∀ (f : Fields) (s : State), Reads s [f.a, f.b] → (s.th.getS f.b).setWidth f.w = 0 →
    exec (.div f) s = trapsWith s 0x110 0 ∧ exec (.rem f) s = trapsWith s 0x111 0

/-- AND, OR and XOR on the low w bits (R150); the shifts by b mod w (R153); SLT and SEQ (R154); CLZ and POPC (R155); EXT (R156); BFX and
BFI (R157), bit by bit; MOV, LI, LIH (R158), LEA (R159), SEL (R160). -/
def Obligations.LogicShiftsMoves : Prop :=
  (∀ (f : Fields) (s : State), Reads s (regsAB f) →
    let w := f.w
    let a := s.th.getS f.a
    let b := s.opndB f
    let k := b.toNat % w
    let x := intOf w f.u a
    let y := intOf w f.u b
    let le := f.var.getLsbD 2
    exec (.and f) s = doneWith s (s.put f.d (low w (a &&& b))) ∧
    exec (.or f) s = doneWith s (s.put f.d (low w (a ||| b))) ∧
    exec (.xor f) s = doneWith s (s.put f.d (low w (a ^^^ b))) ∧
    exec (.shl f) s = doneWith s (s.put f.d (low w (a <<< k))) ∧
    exec (.shr f) s = doneWith s (s.put f.d (low w (a.setWidth w >>> k |>.setWidth 64))) ∧
    exec (.sra f) s = doneWith s (s.put f.d (low w ((low w a).sshiftRight k))) ∧
    exec (.slt f) s = doneWith s (s.put f.d (if x < y ∨ (le = true ∧ x = y) then 1 else 0)) ∧
    exec (.seq f) s = doneWith s (s.put f.d (if (a.setWidth w = b.setWidth w) = (le = false) then 1 else 0)) ∧
    exec (.clz f) s = doneWith s (s.put f.d (BitVec.ofNat 64 (a.setWidth w).clz.toNat)) ∧
    exec (.popc f) s = doneWith s (s.put f.d (BitVec.ofNat 64 (((List.range w).filter fun i => a.getLsbD i).length))) ∧
    exec (.ext f) s = doneWith s (s.put f.d
      (if le then (a.setWidth (widthOf f.var.toNat)).setWidth 64 else low (widthOf f.var.toNat) a))) ∧
  ∀ (f : Fields) (s : State),
    let a := s.th.getS f.a
    let b := s.opndB f
    let d := s.th.getS f.d
    let v : BitVec 32 := f.imm.getD (a.setWidth 32)
    let pos := (b.extractLsb 5 0).toNat
    let len := min (b.extractLsb 12 6).toNat 64
    (Reads s [f.a] → exec (.mov f) s = doneWith s (s.put f.d a)) ∧
    (Reads s (regsA f) → exec (.li f) s = doneWith s (s.put f.d (v.signExtend 64))) ∧
    (Reads s (f.d :: regsA f) → exec (.lih f) s = doneWith s (s.put f.d (v ++ d.setWidth 32))) ∧
    (Reads s (regsAB f) →
      exec (.lea f) s = doneWith s (s.put f.d (if f.imm.isSome then a + b else a + b <<< f.var.toNat))) ∧
    (Reads s [f.a, f.b, f.c] →
      exec (.sel f) s = doneWith s (s.put f.d (if s.th.getS f.c = 0 then s.th.getS f.b else a))) ∧
    (Reads s (regsAB f) → ∃ x : Word, exec (.bfx f) s = doneWith s (s.put f.d x) ∧
      ∀ i < 64, x.getLsbD i = if i < len then a.getLsbD (pos + i)
        else !b.getLsbD 13 && decide (0 < len) && a.getLsbD (pos + len - 1)) ∧
    (Reads s (f.d :: regsAB f) → ∃ x : Word, exec (.bfi f) s = doneWith s (s.put f.d x) ∧
      ∀ i < 64, x.getLsbD i = if pos ≤ i ∧ i < pos + len then a.getLsbD (i - pos) else d.getLsbD i)

/-- What the scalar register words change: D alone, VXSAT with SAT, and the pc; no other register, flag, special register, exception
register or byte of memory. Register s0 (R123) reads as zero, and a word that names it as D leaves all registers as they are. -/
def Obligations.RegisterWordsFrame : Prop :=
  (∀ (f : Fields) (s t : State), Reads s [f.a, f.b, f.c, f.d] → NoWordStep s →
    (∀ i ∈ [Instr.and f, .or f, .xor f, .mulh f, .shl f, .shr f, .sra f, .slt f, .seq f, .clz f, .popc f, .ext f, .bfx f, .bfi f,
        .mov f, .li f, .lih f, .lea f, .sel f],
      exec i s = .next t → OnlyReg f.d s.th t.th ∧ t = { s with th := t.th, chosen := .none }) ∧
    (∀ i ∈ [Instr.add f, .sub f, .mul f, .min f, .max f],
      exec i s = .next t → OnlyReg f.d { s.th with vxsat := t.th.vxsat } t.th ∧ t = { s with th := t.th, chosen := .none } ∧
        (f.sat = false → t.th.vxsat = s.th.vxsat))) ∧
  (∀ t : Thread, t.getS 0 = 0) ∧ (∀ (t : Thread) (v : Word), t.setS 0 v = t) ∧
  ∀ (f : Fields) (s : State), Reads s (regsAB f) → f.d = 0 → f.sat = false →
    exec (.add f) s = doneWith s s ∧ exec (.xor f) s = doneWith s s

/-! ### Scalar floating point (spec/05, spec/07) -/

/-- Rounding a magnitude m × 2^e to a multiple n of 2^q, with k = q − e > 0 bits dropped (R100): the five modes. -/
def Obligations.RoundingModes : Prop :=
  ∀ (neg : Bool) (m k : Nat) (e : Int), 0 < k →
    let n (rm : RM) : Int := ((roundMag rm neg m e false (e + k)).1 : Int)
    let off (rm : RM) : Int := (m : Int) - n rm * 2 ^ k
    (2 * |off .rne| ≤ 2 ^ k ∧ (2 * |off .rne| = 2 ^ k → n .rne % 2 = 0)) ∧
    (0 ≤ off .rtz ∧ off .rtz < 2 ^ k) ∧
    (2 * |off .rna| ≤ 2 ^ k ∧ (2 * |off .rna| = 2 ^ k → off .rna < 0)) ∧
    (if neg then -(2 : Int) ^ k < off .rdn ∧ off .rdn ≤ 0 else 0 ≤ off .rdn ∧ off .rdn < 2 ^ k) ∧
    (if neg then 0 ≤ off .rup ∧ off .rup < 2 ^ k else -(2 : Int) ^ k < off .rup ∧ off .rup ≤ 0)

/-- The scalar floating-point words (R161 to R165): the result under the mode of RND or FRM (R100), zero-extended into D, with its flags
added to FFLAGS (R101) where none of them is enabled to trap; one that FRM enables traps with 0x100 plus 0 NV, 1 DZ, 2 OF, 3 UF or 4
NX, the first in that order, FFLAGS gaining the flags and D keeping its value (R102). -/
def Obligations.ScalarFloat : Prop :=
  ∀ (f : Fields) (s : State),
    let m := fpFmt f.var.toNat
    let rm := s.th.rm f.rnd
    let arg (r : BitVec 6) : Nat := (s.th.getS r).toNat % 2 ^ m.width
    let a := arg f.a
    let b := arg f.b
    let ends (i : Instr) (v : Word) (fl : Flags) : Prop :=
      (s.th.enables &&& fl = 0 → exec i s = doneWith s ((s.flags fl).put f.d v)) ∧
      ∀ d < 5, (s.th.enables &&& fl).getLsbD (4 - d) = true → (∀ k < d, (s.th.enables &&& fl).getLsbD (4 - k) = false) →
        exec i s = trapsWith (s.flags fl) (0x100 + d) 0
    let out (i : Instr) (r : FRes) : Prop := ends i (BitVec.ofNat 64 r.1) r.2
    (Reads s [f.a, f.b] →
      out (.fadd f) (m.add rm a b) ∧ out (.fsub f) (m.sub rm a b) ∧ out (.fmul f) (m.mul rm a b) ∧ out (.fdiv f) (m.div rm a b) ∧
      out (.fmin f) (m.minmax false a b) ∧ out (.fmax f) (m.minmax true a b) ∧
      (let r := m.compare (f.var.toNat / 4) a b
       out (.fcmp f) (b2n r.1, r.2))) ∧
    (Reads s [f.a, f.b, f.c] → out (.ffma f) (m.fma rm false false a b (arg f.c))) ∧
    (Reads s [f.a] →
      out (.fsqrt f) (m.sqrt rm a) ∧
      exec (.fclass f) s = doneWith s (s.put f.d (BitVec.ofNat 64 (m.classify a))) ∧
      (let r := fcvtResult (f.xm.toNat / 8) (f.xm.toNat % 8) rm (s.th.getS f.a)
       ends (.fcvt f) r.1 r.2))

/-! ### Branches (spec/07) -/

/-- BR, BRC, JMP, CALL, CALLR and LOOP (R166 to R169): the target is PC + IMM × 8 or PC + b, or a + b for JMP and CALLR; CALL and CALLR
put the next pc in D, LOOP the decremented counter, and nothing else changes. A target that is no multiple of 8 raises 0x083 with the
target in XVAL, taken or not, and nothing is written (R166). -/
def Obligations.Branches : Prop :=
  ∀ (f : Fields) (s : State),
    let pc := s.th.pc
    let rel : Word := match f.imm with
      | some i => pc + i.signExtend 64 * 8
      | none => pc + s.th.getS f.b
    let abs := s.addr f
    let d := s.th.getS f.d
    let a := s.th.getS f.a
    let c := f.var.toNat
    let taken : Bool := if c = 0 then d == a else if c = 1 then d != a else if c = 2 then decide (d.toInt < a.toInt)
      else if c = 3 then decide (a.toInt ≤ d.toInt) else if c = 4 then decide (d.toNat < a.toNat) else decide (a.toNat ≤ d.toNat)
    let goes (i : Instr) (target npc : Word) (t : State) : Prop :=
      exec i s = if target.toNat % 8 = 0 then .next (complete s npc t) else trapsWith s 0x083 target
    (Reads s (regsB f) → goes (.br f) rel rel s ∧ goes (.call f) rel rel (s.put f.d (pc + 8))) ∧
    (Reads s (f.d :: f.a :: regsB f) → goes (.brc f) rel (if taken then rel else pc + 8) s) ∧
    (Reads s (f.d :: regsB f) → goes (.loop f) rel (if d - 1 = 0 then pc + 8 else rel) (s.put f.d (d - 1))) ∧
    (Reads s (regsAB f) → goes (.jmp f) abs abs s ∧ goes (.callr f) abs abs (s.put f.d (pc + 8)))

/-! ### Memory, atomics, guards and fences (spec/03, spec/04, spec/07) -/

/-- LD and ST (R170, R171): LD puts the w bits its cluster sees at its address into D, sign- or zero-extended; ST stores the low w bits of
D by way of the cluster's caches, or at the home where nothing is cached (R59). With translation off, an aligned access above user level
to HBM reaches the physical address its effective address names, through the caches (R50, R51). A line's home is the L2 slice of its die
that R52 names by its number. -/
def Obligations.LoadsAndStores : Prop :=
  (∀ (f : Fields) (s s1 : State) (pa : Nat) (via : Option Nat),
    let n := bytesOf f
    let ea := s.addr f
    (Reads s (regsAB f) → Reaches s .load 0 n ea n pa via s1 →
      let r := readVia s1 via pa n
      let v : Word := BitVec.ofNat 64 r.2
      exec (.ld f) s = doneWith s (r.1.put f.d (if f.var.getLsbD 2 then (v.setWidth (8 * n)).setWidth 64 else low (8 * n) v))) ∧
    (Reads s (f.d :: regsAB f) → Lands s .store 1 n ea n pa via s1 →
      exec (.st f) s = doneWith s (writeVia s1 via pa n (s.th.getS f.d).toNat))) ∧
  ∀ (s : State) (need : Need) (acc n : Nat) (ea : Word), s.th.level ≠ .user → (s.part s.th.part).ptroot.getLsbD 0 = false →
    ea.toNat < 0x60_0000_0000 → ea.toNat % n = 0 → s.th.vldas = [] → s.zjobs = [] →
    locate s.th.who need acc n ea n s = .ok (.cell ea.toNat (some s.th.clusterNo)) s ∧
    homeSlice s ea.toNat = some (ea.toNat / 0x30_0000_0000, ea.toNat % 0xC_0000_0000 / 128 % 80) ∧
    ∀ pa, 2 ^ 48 ≤ pa → pa < 2 ^ 49 → homeSlice s pa = some (pa / 128 % 2, pa / 128 / 2 % 80)

/-- AMO, CAS and the update-mode AMO (R85, R173, R174, R65): the old value goes to D, zero-extended with U, and the new one to memory in
one step at the home of its line; `.acq` acquires the word's regions after the read and `.rel` releases them before the write, in that
order (R85); a CAS that differs writes nothing and releases nothing; an update-mode add goes to an update line and writes no register, but
at a bank, which has none, it is made at once. -/
def Obligations.Atomics : Prop :=
  ∀ (f : Fields) (s s1 : State) (pa : Nat) (via : Option Nat),
    let w := if f.xm.getLsbD 3 then 32 else 64
    let ea := s.th.getS f.a
    let b := s.th.getS f.b
    let r := s1.atHome pa (w / 8)
    let old := r.2
    let res : Word := if f.u then ((BitVec.ofNat 64 old).setWidth w).setWidth 64 else low w (BitVec.ofNat 64 old)
    let acquired : State := if f.xm.getLsbD 0 then r.1.acquiredGuard ea else r.1
    let written (v : Nat) : State := physWrite (if f.xm.getLsbD 1 then acquired.releasedGuard ea else acquired) pa (w / 8) v
    (Reads s [f.a, f.b] → (f.xm.getLsbD 1 = true → CanRelease s) → ReachesHome s .rmw 2 (w / 8) ea (w / 8) pa via s1 →
      exec (.amo f) s = doneWith s ((written (atomicValue f.var.toNat w f.u (BitVec.ofNat 64 old) b)).put f.d res) ∧
      (Reads s [f.c] → exec (.cas f) s = doneWith s
        ((if old = b.toNat % 2 ^ w then written ((s.th.getS f.c).toNat % 2 ^ w) else acquired).put f.d res))) ∧
    (Reads s [f.a, f.b] → Lands s .store 2 (w / 8) ea (w / 8) pa via s1 →
      let x : Nat := b.toNat % 2 ^ w
      exec (.amoUpd f) s = doneWith s (if isHbm pa || isHost pa || isFabric pa then
        addUpdate s1 s.th.coreNo (.int (w / 8)) pa x
        else addHome pa (w / 8) (fun old free => ((old + x) % 2 ^ w, free, false)) s1))

/-- ACQ, REL and WAIT (R76, R176, R182), FENCE and IFENCE (R81, R94, R178): a guard word is read at its home and then the regions bound to
it are acquired, which a nonzero STATE read there lets the partition's collectives end for (R89), or these are released and then the
word is written; a WAIT whose condition holds does as ACQ, and one whose condition does not waits; FENCE releases and acquires the default object at the scope in VCFG; IFENCE discards the words the core has fetched.
BIND and UNBIND (R177, R75): a region of whole lines that overlaps none of the partition's bindings is added with its guard; a base that
is bound is removed. -/
def Obligations.GuardsAndFences : Prop :=
  (∀ (f : Fields) (s s1 : State) (pa : Nat) (via : Option Nat),
    let ea := s.addr f
    (Reads s (regsAB f) → ReachesHome s .load 2 8 ea 8 pa via s1 →
      let r := s1.atHome pa 8
      exec (.acq f) s = doneWith s (((r.1.acquiredGuard ea).observed ea r.2).put f.d (BitVec.ofNat 64 r.2))) ∧
    (Reads s (f.d :: regsAB f) → CanRelease s → Lands s .store 2 8 ea 8 pa via s1 →
      exec (.rel f) s = doneWith s (physWrite (s1.releasedGuard ea) pa 8 (s.th.getS f.d).toNat)) ∧
    (let at_ : Word := match f.imm with
       | some _ => ea
       | none => s.th.getS f.a
     let cmp : Word := match f.imm with
       | some _ => 0
       | none => s.th.getS f.b
     Reads s (regsAB f) → ReachesHome s .load 2 8 at_ 8 pa via s1 →
      let r := s1.atHome pa 8
      let x : Word := BitVec.ofNat 64 r.2
      exec (.wait f) s = if (if f.var = 0 then x ≠ cmp else cmp.toNat ≤ x.toNat) then
          doneWith s (((r.1.acquiredGuard at_).observed at_ r.2).put f.d x)
        -- a read that drew a free value, as one of another device does, stands
        else .next ((if r.1.free = s.free then s else r.1).waits (.word at_))) ∧
    (Reads s [] → CanRelease s → exec (.fence f) s = doneWith s ((s.releasedDefault s.th.scope).acquiredDefault s.th.scope)) ∧
    (Reads s [] → exec (.ifence f) s = doneWith s (s.setCore s.th.coreNo { s.core s.th.coreNo with icache := [] }))) ∧
  ∀ (f : Fields) (s : State),
    let p := s.part s.th.part
    let b := (s.th.getS f.b).toNat
    let c := (s.th.getS f.c).toNat
    (Reads s [f.a, f.b, f.c] → b % 128 = 0 → c % 128 = 0 → 0 < c → c ≤ 2 ^ 47 → p.bindings.length < 4096 →
      (∀ r ∈ p.bindings, b + c ≤ r.2.1 ∨ r.2.1 + r.2.2 ≤ b) →
      exec (.bind f) s = doneWith s (s.setPart s.th.part { p with bindings := p.bindings ++ [((s.th.getS f.a).toNat, b, c)] })) ∧
    (Reads s [f.b] → (∃ r ∈ p.bindings, r.2.1 = b) →
      exec (.unbind f) s = doneWith s (s.setPart s.th.part { p with bindings := p.bindings.filter fun r => r.2.1 != b }))

/-- What a scalar load or store changes: a store, of all memory only the bytes at the address `locate` gives for the word's effective
address, and no register; a load, no byte and only D; neither any flag or special register (R170, R171, R176). And what of a store is
visible (R59, R60, R77): its own cluster's reads find the new bytes, every other cluster and the home the old ones; a release at scope 2
or more brings them to the home, where other clusters see old or new, and an acquire at such a scope of a cluster that covers the byte
finds the new; a write at the home is seen by all at once. Which clusters hold an older copy after a write-back, that caches hold words, and
that a cluster sees the newest value of a word it stores a part of is the model's choice (log 6). -/
def Obligations.LoadStoreFrame : Prop :=
  (∀ (f : Fields) (s s1 t : State) (pa : Nat) (via : Option Nat), s.MemOk → NoUpdates s → NoWordStep s → s.unseen = [] →
    let n := bytesOf f
    let ea := s.addr f
    (Reads s (f.d :: regsAB f) → Lands s .store 1 n ea n pa via s1 → exec (.st f) s = .next t →
      SameBytesOutside s1 t pa n via ∧ OnlyPc s.th t.th ∧
        (s1.frames = [] → s1.plat.linkLost = false → ∀ k < n, t.byteAt (pa + k) = (s.th.getS f.d).toNat / 2 ^ (8 * k) % 256)) ∧
    (Reads s (f.d :: regsAB f) → CanRelease s → Lands s .store 2 8 ea 8 pa via s1 → exec (.rel f) s = .next t →
      NewestOutside s1 t pa 8 ∧ OnlyPc s.th t.th) ∧
    (Reads s (regsAB f) → Reaches s .load 0 n ea n pa via s1 → exec (.ld f) s = .next t →
      SameBytes s1 t ∧ OnlyReg f.d s.th t.th) ∧
    -- what another device holds is brought in anew
    (Reads s (regsAB f) → ReachesHome s .load 2 8 ea 8 pa via s1 → exec (.acq f) s = .next t →
      (isFabric pa = false → NewestOutside s1 t pa 0) ∧ NewestOutside s1 t (pa / 32 * 32) 64 ∧ OnlyReg f.d s.th t.th)) ∧
  ∀ (s : State) (c pa n v a : Nat), s.MemOk → NoUpdates s → s.frames = [] → s.coherent = true → s.unseen = [] →
    (s.plat.linkLost = true → pa + n ≤ 0x60_0000_0000) →
    let inside : Prop := pa ≤ a ∧ a < pa + n
    let byte : Nat := v / 2 ^ (8 * (a - pa)) % 256
    let old := s.byteAt a
    let t := dirtyWrite s c pa n v
    (t.seenByte c a = (if inside then byte else old)) ∧ t.byteAt a = (if inside then byte else old) ∧ t.homeByte a = old ∧
    (∀ d, d ≠ c → t.seenByte d a = old) ∧
    (∀ sc, 2 ≤ sc →
      let u := releaseLines (fun _ => true) c sc t
      u.homeByte a = t.byteAt a ∧ u.byteAt a = t.byteAt a ∧ u.seenByte c a = t.seenByte c a ∧
      (∀ d, u.seenByte d a = t.byteAt a ∨ u.seenByte d a = old) ∧
      ∀ d st cov, 2 ≤ st → cov (a / 128) = true → (acquireLines cov d st u).seenByte d a = t.byteAt a) ∧
    let h := physWrite s pa n v
    (∀ d, h.seenByte d a = (if inside then byte else old)) ∧ h.homeByte a = (if inside then byte else old)

/-! ### Vector words (spec/08) -/

/-- The integer element-wise words (R204 to R207): each active element from VSTART on gets the exact result, clamped with SAT or
modulo 2^SEW; shifts by b mod SEW, right shifts rounding half up with `.rnd` (R97); VABS, VMV and VDOT2. -/
def Obligations.VectorInteger : Prop :=
  ∀ (f : Fields) (s : State), VecReady s f → GroupOk f.d s.gregs → GroupOk f.a s.gregs → Src2Ok s f →
    let w := s.th.sew
    let a (i : Nat) : Int := patInt w f.u (s.elt f.a w i)
    let b (i : Nat) : Int := patInt w f.u (s.src2 f i)
    let d (i : Nat) : Int := patInt w f.u (s.elt f.d w i)
    let fits (op : Instr) (sat u : Bool) (x : Nat → Int) : Prop :=
      VecRuns op s f w s.gregs (fun i => pattern w (fitInt w sat u (x i))) (fun i => clamped w sat u (x i)) (fun _ => 0)
    let plain (op : Instr) (x : Nat → Nat) : Prop := VecRuns op s f w s.gregs x (fun _ => false) (fun _ => 0)
    let k (i : Nat) : Nat := s.src2 f i % w
    let half (i : Nat) : Int := if f.xm.getLsbD 0 ∧ k i ≠ 0 then 2 ^ (k i - 1) else 0
    fits (.vadd f) f.sat f.u (fun i => a i + b i) ∧ fits (.vsub f) f.sat f.u (fun i => a i - b i) ∧
    fits (.vmul f) f.sat f.u (fun i => a i * b i) ∧ fits (.vmacc f) f.sat f.u (fun i => d i + a i * b i) ∧
    fits (.vmin f) f.sat f.u (fun i => min (a i) (b i)) ∧ fits (.vmax f) f.sat f.u (fun i => max (a i) (b i)) ∧
    plain (.vmulh f) (fun i => pattern w (a i * b i / 2 ^ w)) ∧
    plain (.vand f) (fun i => s.elt f.a w i &&& s.src2 f i) ∧ plain (.vor f) (fun i => s.elt f.a w i ||| s.src2 f i) ∧
    plain (.vxor f) (fun i => s.elt f.a w i ^^^ s.src2 f i) ∧
    ((∀ x, f.imm = some x → x.toNat < w) →
      fits (.vshl f) f.sat f.u (fun i => a i * 2 ^ k i) ∧
      plain (.vshr f) (fun i => pattern w ((patInt w true (s.elt f.a w i) + half i) / 2 ^ k i)) ∧
      plain (.vsra f) (fun i => pattern w ((patInt w false (s.elt f.a w i) + half i) / 2 ^ k i))) ∧
    fits (.vabs f) f.sat false (fun i => |patInt w false (s.elt f.a w i)|) ∧
    plain (.vmv f) (fun i => if f.imm.isSome || f.var.getLsbD 3 then s.src2 f i else s.elt f.a w i) ∧
    (w = 32 → fits (.vdot2 f) true false (fun i =>
      let x := s.elt f.a 32 i
      let y := s.src2 f i
      patInt 32 false (s.elt f.d 32 i) + patInt 16 false x * patInt 16 false y +
        patInt 16 false (x / 65536) * patInt 16 false (y / 65536)))

/-- VCMP (R208), VSEL (R209), VWIDEN and VNARROW (R210). -/
def Obligations.VectorCompareSelectResize : Prop :=
  ∀ (f : Fields) (s : State), VecReady s f → GroupOk f.a s.gregs →
    let w := s.th.sew
    let n := s.gregs
    let a (i : Nat) : Int := patInt w f.u (s.elt f.a w i)
    let b (i : Nat) : Int := patInt w f.u (s.src2 f i)
    let c := f.var.toNat % 8
    let chosen (i : Nat) : Nat := if s.th.enabled f.m f.mn i then s.elt f.a w i else s.src2 f i
    (Src2Ok s f → 0 < f.d.toNat ∧ f.d.toNat < 8 → MaskRuns (.vcmp f) s f
      (fun i => if c = 0 then a i = b i else if c = 1 then a i ≠ b i else if c = 2 then a i < b i else if c = 3 then a i ≤ b i
        else if c = 4 then a i > b i else a i ≥ b i) (fun _ => 0)) ∧
    (Src2Ok s f → GroupOk f.d n → ∃ t : State, exec (.vsel f) s = doneWith s t ∧
      Elements s f w n s.th.finishV (fun i => decide (i < s.vl) && s.ahead w i) chosen t ∧
      t.th.vxsat = s.th.vxsat ∧ t.th.fflags = s.th.fflags) ∧
    (w < 64 → n < 8 → GroupOk f.d (2 * n) → Apart f.d.toNat (2 * n) f.a.toNat n → ListApart f (2 * n) →
      VecRuns (.vwiden f) s f (2 * w) (2 * n) (fun i => pattern (2 * w) (a i)) (fun _ => false) (fun _ => 0)) ∧
    (w < 64 → n < 8 → GroupOk f.d n → GroupOk f.a (2 * n) → Apart f.d.toNat n f.a.toNat (2 * n) → ListApart f n →
      let x (i : Nat) : Int := patInt (2 * w) f.u (s.elt f.a (2 * w) i)
      VecRuns (.vnarrow f) s f w n (fun i => pattern w (fitInt w f.sat f.u (x i))) (fun i => clamped w f.sat f.u (x i)) (fun _ => 0))

/-- The floating-point element-wise words (R211 to R214, R116, R255, R310): each active element as its scalar operation gives it
under RND or FRM, FFLAGS gaining every element's flags, where none is enabled to trap. -/
def Obligations.VectorFloat : Prop :=
  ∀ (f : Fields) (s : State), VecReady s f →
    let w := s.th.sew
    let n := s.gregs
    let m := vfFmt w (f.var.getLsbD 2)
    let rm := s.th.rm f.rnd
    let a (i : Nat) : Nat := s.elt f.a w i
    let b (i : Nat) : Nat := s.src2 f i
    let out (op : Instr) (w n : Nat) (r : Nat → FRes) : Prop := NoFlagTrap s (s.todo f w) (fun i => (r i).2) →
      VecRuns op s f w n (fun i => (r i).1) (fun _ => false) (fun i => (r i).2)
    (FloatReady s f → GroupOk f.a n → Src2Ok s f →
      (GroupOk f.d n →
        out (.vfadd f) w n (fun i => m.add rm (a i) (b i)) ∧ out (.vfsub f) w n (fun i => m.sub rm (a i) (b i)) ∧
        out (.vfmul f) w n (fun i => m.mul rm (a i) (b i)) ∧ out (.vfdiv f) w n (fun i => m.div rm (a i) (b i)) ∧
        out (.vfsqrt f) w n (fun i => m.sqrt rm (a i)) ∧ out (.vfmin f) w n (fun i => m.minmax false (a i) (b i)) ∧
        out (.vfmax f) w n (fun i => m.minmax true (a i) (b i)) ∧
        (featHas s 2 = true → out (.vfexp2 f) w n (fun i => m.exp2 rm (m.decode (a i))) ∧
          out (.vflog2 f) w n (fun i => m.log2 rm (m.decode (a i)))) ∧
        (GroupOk f.c n → out (.vffma f) w n
          (fun i => m.fma rm (f.var.getLsbD 1) (f.var.getLsbD 0) (a i) (b i) (s.elt f.c w i)))) ∧
      (0 < f.d.toNat ∧ f.d.toNat < 8 →
        let r (i : Nat) : Bool × Flags := m.compare (f.var.toNat % 4) (a i) (b i)
        NoFlagTrap s (s.todo f w) (fun i => (r i).2) → MaskRuns (.vfcmp f) s f (fun i => (r i).1) (fun i => (r i).2))) ∧
    (∀ src dst : Efmt, Efmt.ofCode f.b.toNat = some src → Efmt.ofCode (if f.lm then f.xm.toNat else f.c.toNat) = some dst →
      w = max src.width dst.width → (src = .fp fp64 ∨ dst = .fp fp64 → featHas s 0 = true) →
      let nd := cvtRegs n dst.width w
      let na := cvtRegs n src.width w
      GroupOk f.d nd → GroupOk f.a na → (src.width ≠ dst.width → Apart f.d.toNat nd f.a.toNat na ∧ ListApart f nd) →
      out (.vfcvt f) dst.width nd (fun i => cvtElem src dst rm f.sat (s.elt f.a src.width i))) ∧
    (let x := xrndFmt f.var.toNat
     let na := n * 128 / x.width
     (x = fp64 → featHas s 0 = true) → w = x.width → na ≤ 8 → GroupOk f.d n → GroupOk f.a na →
      Apart f.d.toNat n f.a.toNat na → Reads s [f.b] →
      out (.xrnd f) w n (fun i => x.ofExact (exactInt (s.elt f.a 128 i)) ((s.th.getS f.b).toNat % 128))) ∧
    (featHas s 6 = true → w = 32 → GroupOk f.d n → Reads s (f.a :: f.c :: if f.var.getLsbD 3 then [f.b] else []) →
      (f.var.getLsbD 3 = false → GroupOk f.b n) →
      let key := (s.th.getS f.a).toNat
      let p := (s.th.getS f.b).toNat
      let c := (s.th.getS f.c).toNat
      VecRuns (.vrand f) s f 32 n (fun i => if f.var.getLsbD 3 then philoxWord (philox key p (p / 2 ^ 32) c (i / 4)) (i % 4)
        else (philox key (s.elt f.b 32 i) 0 c (c / 2 ^ 32)).1) (fun _ => false) (fun _ => 0))

/-- VRED and VSCAN (R114, R115, R215, R216): integers reduce exactly in any order and clamp or wrap once, floating-point values by
the fixed tree; a scan combines the active elements in turn, each element getting its running value, before it with `.excl`. Both begin at
VSTART and leave the progress registers 0 (R349; that VRED, which nothing stops part way, begins there too is the model's reading,
log 57). -/
def Obligations.ReductionsAndScans : Prop :=
  ∀ (f : Fields) (s : State), VecReady s f → GroupOk f.a s.gregs → Reads s [f.b] →
    let w := s.th.sew
    let op := f.var.toNat
    let seed := (s.th.getS f.b).toNat % 2 ^ w
    let a (i : Nat) : Int := patInt w f.u (s.elt f.a w i)
    let m := vfFmt w (f.var.getLsbD 2)
    let rm := s.th.rm f.rnd
    let before (i : Nat) : List Nat := (List.range i).filter (s.todo f w)
    let s1 : State := { s with free := s.free + 1, th := { s.th with scan := none } }
    let scan (val : Nat → Nat) (sat : Nat → Bool) (fl : Nat → Flags) : Prop :=
      NoFlagTrap s (s.todo f w) fl → ∃ t : State, exec (.vscan f) s = doneWith s t ∧
        Elements s1 f w s.gregs s1.th.finishV (s.todo f w) val t ∧
        t.th.vxsat = satAfter s (s.todo f w) sat ∧ t.th.fflags = flagsAfter s (s.todo f w) fl
    (f.var.getLsbD 3 = false →
      (let x := (s.todos f w).foldl (fun x i => redInt op x (a i)) (patInt w f.u seed)
       let y := pattern w (fitInt w f.sat f.u x)
       exec (.vred f) s = doneWith s
        ((s.satBit (clamped w f.sat f.u x)).put f.d (if f.u then BitVec.ofNat 64 y else low w (BitVec.ofNat 64 y))).finish) ∧
      (GroupOk f.d s.gregs → s.th.resumesV = false →
        let run (i : Nat) : Int := (before i).foldl (fun x j => redInt op x (a j)) (patInt w f.u seed)
        let x (i : Nat) : Int := if f.xm.getLsbD 0 then run i else redInt op (run i) (a i)
        scan (fun i => pattern w (fitInt w f.sat f.u (x i))) (fun i => clamped w f.sat f.u (x i)) (fun _ => 0))) ∧
    (f.var.getLsbD 3 = true → FloatReady s f →
      (let g (x y : Nat × Flags) : Nat × Flags :=
        ((redFp m rm (op % 4) x.1 y.1).1, (redFp m rm (op % 4) x.1 y.1).2 ||| x.2 ||| y.2)
       let r := treeSum g s.vl (fun i => if s.todo f w i then some (s.elt f.a w i, 0) else none) (seed, 0)
       s.th.enables &&& r.2 = 0 → exec (.vred f) s = doneWith s ((s.flags r.2).put f.d (BitVec.ofNat 64 r.1)).finish) ∧
      (GroupOk f.d s.gregs → s.th.resumesV = false →
        let run (i : Nat) : Nat := (before i).foldl (fun x j => (redFp m rm (op % 4) x (s.elt f.a w j)).1) seed
        let r (i : Nat) : FRes := redFp m rm (op % 4) (run i) (s.elt f.a w i)
        scan (fun i => if f.xm.getLsbD 0 then run i else (r i).1) (fun _ => false) (fun i => (r i).2)))

/-- VSLIDEUP, VSLIDEDN (R217), VPERM (R218), VCOMPRESS, VEXPAND, VIOTA (R219), VEXTR and VINS (R220). Those that go
through elements write none below VSTART, which is counted all the same, and all leave the progress registers 0 (R349; the model's reading
for words that nothing stops part way, log 57). -/
def Obligations.VectorMoves : Prop :=
  ∀ (f : Fields) (s : State), VecReady s f →
    let w := s.th.sew
    let n := s.gregs
    let vl := s.vl
    let k := s.indexOp f
    let a (i : Nat) : Nat := s.elt f.a w i
    let todo := s.todo f w
    let below (i : Nat) : Nat := ((s.actives f).filter (decide <| · < i)).length
    let count : Word := BitVec.ofNat 64 (s.actives f).length
    let fromC : Bool := f.imm.isNone && f.var == 2
    let scalarC : Bool := f.imm.isNone && f.var == 1
    let fill (j : Option Nat) : Nat := if fromC then (match j with
        | some j => s.elt f.c w j
        | none => 0) else if scalarC then (s.th.getS f.c).toNat % 2 ^ w else 0
    let okB : Prop := Reads s (regsB f)
    (GroupOk f.d n → GroupOk f.a n → Apart f.d.toNat n f.a.toNat n →
      (okB → (scalarC = true → Reads s [f.c]) → (fromC = true → GroupOk f.c n ∧ Apart f.d.toNat n f.c.toNat n) →
        WholeRuns (.vslideup f) s f w n todo
          (fun i => if k ≤ i then a (i - k) else fill (if k ≤ i + vl then some (i + vl - k) else none)) id ∧
        WholeRuns (.vslidedn f) s f w n todo
          (fun i => if i + k < vl then a (i + k) else fill (if i + k - vl < vl then some (i + k - vl) else none)) id) ∧
      (Src2Ok s f → ListApart f n → (f.imm = none → f.var.getLsbD 3 = false → Apart f.d.toNat n f.b.toNat n) →
        WholeRuns (.vperm f) s f w n todo (fun i => if s.src2 f i < vl then a (s.src2 f i) else 0) id) ∧
      (ListApart f n → WholeRuns (.vcompress f) s f w n (fun j => decide (j < vl) && ((s.actives f)[j]?).all (s.ahead w))
        (fun j => (((s.actives f).map a)[j]?).getD 0) (fun t => t.put f.c count)) ∧
      (ListApart f n → WholeRuns (.vexpand f) s f w n todo (fun i => a (below i)) id)) ∧
    (GroupOk f.d n → WholeRuns (.viota f) s f w n (fun i => decide (i < vl) && s.ahead w i) below id) ∧
    (okB → GroupOk f.a n → exec (.vextr f) s = doneWith s (s.put f.d
      (if s.vlmax ≤ k then 0 else if f.u then BitVec.ofNat 64 (a k) else low w (BitVec.ofNat 64 (a k)))).finish) ∧
    (okB → Reads s [f.a] → GroupOk f.d n →
      WholeRuns (.vins f) s f w n (fun i => decide (k < s.vlmax) && i == k) (fun _ => (s.th.getS f.a).toNat) id)

/-- MLOG (R221), MPOP and MFIRST (R222), MLIST (R223), MBITS and its `.tov` form (R224): bits at or above VL become 0, the counted
elements are the active ones whose bit of mA is 1, and MLIST leaves them as a sorted u32 list, as many as its register holds (with
VMAXLEN.LPC = 8 fewer than 256 or 64, log 60). Elements below VSTART are not counted and keep their bits (R349; the model's reading for
words that nothing stops part way, log 57). -/
def Obligations.MaskWords : Prop :=
  ∀ (f : Fields) (s : State), VecReady s f →
    let vl := s.vl
    let n := s.gregs
    let x (i : Nat) : Bool := s.mbit f.a.toNat i
    let y (i : Nat) : Bool := s.mbit f.b.toNat i
    let op := f.var.toNat
    let w := s.th.sew
    let counted := (s.todos f w).filter x
    let size := min counted.length (s.rbytes / 4)
    let mask (i : Instr) (bit : Nat → Bool) : Prop := 0 < f.d.toNat ∧ f.d.toNat < 8 →
      ∃ t : State, exec i s = doneWith s t ∧ MaskIs s t f.d.toNat
          (fun i => decide (i < vl) && if s.ahead w i then bit i else s.mbit f.d.toNat i) ∧
        t = { s with th := { s.th.finishV with m := t.th.m } }
    mask (.mlog f) (fun i => if op = 0 then x i && y i else if op = 1 then x i || y i else if op = 2 then x i != y i
      else if op = 3 then x i && !y i else if op = 4 then x i || !y i else if op = 5 then !(x i && y i)
      else if op = 6 then !(x i || y i) else x i == y i) ∧
    exec (.mpop f) s = doneWith s (s.put f.d (BitVec.ofNat 64 counted.length)).finish ∧
    exec (.mfirst f) s = doneWith s (s.put f.d (match counted.head? with
      | some i => BitVec.ofNat 64 i
      | none => BitVec.allOnes 64)).finish ∧
    (GroupOk f.d 1 → ∃ t : State, exec (.mlist f) s = doneWith s (t.put f.c (BitVec.ofNat 64 counted.length)) ∧
      (∀ j < s.rbytes / 4, t.elt f.d 32 j = if j < size then (counted[j]?).getD 0 % 2 ^ 32 else 0) ∧
      (∀ k, k ≠ f.d.toNat → t.th.vreg k = s.th.vreg k) ∧
      (let z := t.th.sortOf f.d.toNat
       sortS z = true ∧ sortU z = true ∧ sortD z = false ∧ sortP z = false ∧ sortKey z = 1 ∧ sortLen z = size) ∧
      (∀ k < 32, k ≠ f.d.toNat → t.th.sortOf k = if k + 1 = f.d.toNat then s.th.sortOf k &&& ~~~64 else s.th.sortOf k) ∧
      t = { s with th := { s.th.finishV with v := t.th.v, sort := t.th.sort } }) ∧
    (GroupOk f.a n → mask (.mbits f) (fun i => (s.elt f.a 8 (i / 8)).testBit (i % 8))) ∧
    (GroupOk f.d n → ∃ t : State, exec (.mbitsTov f) s = doneWith s t ∧
      (let byte (j : Nat) : Bool := (List.range 8).any fun k => decide (8 * j + k < vl) && s.ahead w (8 * j + k)
       Elements s f 8 n s.th.finishV byte (fun j => (t.elt f.d 8 j)) t ∧
        (∀ i, vl ≤ i → byte (i / 8) = true → (t.elt f.d 8 (i / 8)).testBit (i % 8) = false)) ∧
      (∀ i < vl, (t.elt f.d 8 (i / 8)).testBit (i % 8) = if s.ahead w i then x i else (s.elt f.d 8 (i / 8)).testBit (i % 8)) ∧
      t.th.vxsat = s.th.vxsat ∧ t.th.fflags = s.th.fflags)

/-! ### Sorted runs (spec/09) -/

/-- The sort of R236 permutes its input, leaves it in order (R226) and keeps Same keys in their order; the merge of R237 of two
runs in order is the stable sort of one after the other. -/
def Obligations.StableSort : Prop :=
  ∀ (key : Nat) (d : Bool) (a b : List KP),
    (sortKP key d a).Perm a ∧ inOrder key d ((sortKP key d a).map Prod.fst) = true ∧
    (∀ k, (sortKP key d a).filter (fun x => keyT key x.1 == k) = a.filter fun x => keyT key x.1 == k) ∧
    (inOrder key d (a.map Prod.fst) = true → inOrder key d (b.map Prod.fst) = true →
      (mergeKP key d (a.length + b.length) a b).map Prod.fst = sortKP key d (a ++ b))

/-- VSORT (R236), VMERGE, VMERGEP and VTOPK (R237), VINTER, VDIFF and VUNIQUE (R238), VRANK (R239), VPART (R240), VSCHK (R241),
VSGET and VSCLR (R242): results with zeros up to VL, payloads beside keys, and the sort states of R232. -/
def Obligations.SortedRuns : Prop :=
  ∀ (f : Fields) (s : State), VecReady s f → s.th.sew = keyWidth (f.var.toNat % 8) → s.gregs = 1 →
    f.d.toNat < 32 → f.a.toNat < 32 → f.b.toNat < 32 →
    let key := f.var.toNat % 8
    let desc := f.var.getLsbD 3
    let w := s.th.sew
    let vl := s.vl
    let d := f.d.toNat
    let le := f.xm.getLsbD 0
    let a := s.run key f.a.toNat vl f.p
    let b (p : Bool) := s.run key f.b.toNat vl p
    let keys (l : List KP) := l.map Prod.fst
    let pays (l : List KP) := l.map Prod.snd
    -- one run to D, its payload to the register after it
    let one (i : Instr) (l : List KP) (out : State → State) : Prop := ∃ t : State, exec i s = doneWith s (out t) ∧
      RunsWritten s ((d, w, vl, keys l) :: if f.p then [(d + 1, w, vl, pays l)] else [])
        ((d, runState f f.p l) :: if f.p then [(d + 1, 0)] else []) t
    let merged := mergeKP key desc (2 * vl) a (b f.p)
    let first := merged.take vl
    let fromA := (first.filter Prod.snd).length
    (featHas s 1 = true →
      ((f.p = true → d < 31 ∧ f.a.toNat < 31) →
        one (.vsort f) (sortKP key desc a) id ∧
        (RunOk s f f.a vl f.p →
          (let l := uniqueKP none a
           one (.vunique f) l (fun t => t.put f.c (BitVec.ofNat 64 l.length))) ∧
          (RunOk s f f.b vl false →
            (let l := matchKP key desc true (2 * vl) a (keys (b false))
             one (.vinter f) l (fun t => t.put f.c (BitVec.ofNat 64 l.length))) ∧
            (let l := matchKP key desc false (2 * vl) a (keys (b false))
             one (.vdiff f) l (fun t => t.put f.c (BitVec.ofNat 64 l.length))))) ∧
        (let n := sortLen (s.th.sortOf f.b.toNat)
         RunOk s f f.b 0 false → n ≤ (if s.th.isL then 255 else 63) → f.c.toNat < 32 → f.c.toNat ≠ d →
          (f.p = true → f.c.toNat ≠ d + 1) →
          let pivots := keys (s.run key f.b.toNat n false)
          let bucket (x : KP) : Nat := (pivots.filter fun p => !before key desc x.1 p).length
          let parts := (List.range (n + 1)).map fun k => a.filter fun x => bucket x == k
          ∃ t : State, exec (.vpart f) s = doneWith s t ∧
            RunsWritten s ((d, w, vl, keys parts.flatten) :: (f.c.toNat, 32, s.rbytes / 4, parts.map List.length) ::
                if f.p then [(d + 1, w, vl, pays parts.flatten)] else [])
              ((d, 0) :: (f.c.toNat, 0) :: if f.p then [(d + 1, 0)] else []) t)) ∧
      (RunOk s f f.a vl f.p → RunOk s f f.b vl f.p → (f.p = true → f.a.toNat < 31 ∧ f.b.toNat < 31) →
        ((if f.p then d < 29 else d < 31) →
          let lo := (merged.take vl).map Prod.fst
          let hi := (merged.drop vl).map Prod.fst
          ∃ t : State, exec (.vmerge f) s = doneWith s t ∧
            RunsWritten s ((d, w, vl, keys lo) :: (d + 1, w, vl, keys hi) ::
                if f.p then [(d + 2, w, vl, pays lo), (d + 3, w, vl, pays hi)] else [])
              ((d, runState f false lo) :: (d + 1, runState f false hi) :: if f.p then [(d + 2, 0), (d + 3, 0)] else []) t) ∧
        ((f.p = true → d < 31) →
          one (.vmergep f) (first.map Prod.fst)
            (fun t => t.put f.c (BitVec.ofNat 64 ((first.length - fromA) * 2 ^ 32 + fromA))) ∧
          (Reads s [f.c] → one (.vtopk f) ((merged.take (min (s.th.getS f.c).toNat vl)).map Prod.fst) id))) ∧
      (RunOk s f f.a 0 false →
        let r := keys (s.run key f.a.toNat (sortLen (s.th.sortOf f.a.toNat)) false)
        ∃ t : State, exec (.vrank f) s = doneWith s t ∧
          RunsWritten s [(d, w, vl, (keys (b false)).map fun x => (r.filter fun y => before key desc y x || le && y == x).length)]
            [(d, 0)] t)) ∧
    ((f.p = true → f.a.toNat < 31) →
      let l := s.run key f.a.toNat vl false
      let ok := inOrder key desc (keys l)
      let t : State := { s with th := s.th.setSortRaw f.a.toNat (if ok then runState f f.p l else 0) }
      exec (.vschk f) s = doneWith s (t.put f.d (if ok then 1 else 0))) ∧
    exec (.vsget f) s = doneWith s (s.put f.d ((s.th.sortOf f.a.toNat).setWidth 64)) ∧
    ∃ t : State, exec (.vsclr f) s = doneWith s t ∧ RunsWritten s [] [(f.a.toNat, 0)] t

/-! ### Vector memory (spec/10) -/

/-- VLD and VLDS, segments and all (R246), VLDT (R247), VLDA (R248), VGATHW (R249) and VFILL (R254), on plain memory: each element
the word has to do is the value at its address. -/
def Obligations.VectorLoads : Prop :=
  ∀ (f : Fields) (s : State), VecReady s f → Quiet s →
    let w := s.th.sew
    let z := w / 8
    let n := s.gregs
    let vl := s.vl
    let max := s.vlmax
    let segs := f.seg.toNat + 1
    let base := s.addr f
    let a := s.th.getS f.a
    let off (x : Nat) : Word := BitVec.ofNat 64 x
    let seg (i : Instr) (addr : Nat → Nat → Word) : Prop := f.d.toNat % n = 0 → segs * n ≤ 8 → f.d.toNat + segs * n ≤ 32 →
      (∀ j < vl, s.active f j = true → ∀ k < segs, InHbm (addr j k) z) →
      ∃ t : State, exec i s = doneWith s t ∧
        Elements s f w (segs * n) s.th.finishV (fun j => s.todo f w (j % max)) (fun j => s.bytes (addr (j % max) (j / max)) z) t ∧
        t.th.vxsat = s.th.vxsat ∧ t.th.fflags = s.th.fflags
    (Reads s (regsAB f) → seg (.vld f) (fun i k => base + off ((i * segs + k) * z))) ∧
    (Reads s [f.a, f.b] → seg (.vlds f) (fun i _ => a + off i * s.th.getS f.b)) ∧
    (Reads s (regsAB f) → GroupOk f.d n → s.th.rows * vl ≤ max →
      let row (j : Nat) : Nat := j / vl
      let col (j : Nat) : Nat := j % vl
      let at_ (j : Nat) : Word := base + off (row j) * s.th.vpitch + off (col j * z)
      let doing (j : Nat) : Bool := decide (row j < s.th.rows) && decide (0 < vl) && s.active f (col j) &&
        (decide (bits s.th.eprog.toNat 31 16 < row j) ||
          row j == bits s.th.eprog.toNat 31 16 && decide (bits s.th.eprog.toNat 15 0 ≤ col j))
      (∀ j < max, doing j = true → InHbm (at_ j) z) →
      ∃ t : State, exec (.vldt f) s = doneWith s t ∧ Elements s f w n s.th.finishV doing (fun j => s.bytes (at_ j) z) t ∧
        t.th.vxsat = s.th.vxsat ∧ t.th.fflags = s.th.fflags) ∧
    (Reads s (regsAB f) → GroupOk f.d n →
      let l := (List.range vl).filter (s.ahead w)
      let at_ (j : Nat) : Word := base + off (j * z)
      (∀ j ∈ l, InHbm (at_ j) z) →
      exec (.vlda f) s = doneWith s { s with th := { (s.th.clearSort f.d.toNat n).finishV with
        vldas := if l = [] then [] else [⟨f.d.toNat, n, w, 0, l.map fun j => ⟨j, at_ j, .cell (at_ j).toNat (some s.th.clusterNo)⟩⟩] } }) ∧
    (Reads s [f.a] → GroupOk f.d n → GroupOk f.b n → GroupOk f.c n → Apart f.d.toNat n f.b.toNat n → Apart f.d.toNat n f.c.toNat n →
      Apart f.b.toNat n f.c.toNat n → f.lm = false → 0 < f.xm.toNat % 8 →
      (∀ j < max, InHbm (a + off (j * z)) z) →
      let win (j : Nat) : Nat := if s.ahead w j then s.bytes (a + off (j * z)) z else s.elt f.c w j
      let idx (i : Nat) : Nat := s.elt f.b w i
      ∃ t : State, exec (.vgathw f) s = doneWith s t ∧
        (∀ j < max, t.elt f.c w j = win j) ∧
        (∀ i < max, t.elt f.d w i = if s.active f i && decide (idx i < max) then win (idx i) else s.elt f.d w i) ∧
        MaskIs s t (f.xm.toNat % 8) (fun i => s.active f i && decide (max ≤ idx i)) ∧
        (∀ k, Apart k 1 f.d.toNat n → Apart k 1 f.c.toNat n → t.th.vreg k = s.th.vreg k) ∧
        (∀ k < n, t.th.sortOf (f.d.toNat + k) = 0 ∧ t.th.sortOf (f.c.toNat + k) = 0) ∧
        t = { s with th := { s.th.finishV with v := t.th.v, m := t.th.m, sort := t.th.sort } }) ∧
    (Reads s (regsAB f) → InHbm base 64 →
      let h := s.bytes base 64
      let vl' := bits h 13 0
      let sew' := bits h 16 14
      let w' := 8 * 2 ^ sew'
      let z' := 2 ^ sew'
      let g := 2 ^ bits h 18 17
      let fits : Prop := h < 2 ^ 22 ∧ sew' < 4 ∧ vl' ≤ vlmaxOf (threadLanes s s.th) (bits h 18 17) sew'
      GroupOk f.d g →
      (¬ fits → exec (.vfill f) s = trapsWith s 0x0E9 s.th.vcfg) ∧
      (fits → base.toNat + 64 + vl' * z' ≤ 0x60_0000_0000 →
        ∃ t : State, exec (.vfill f) s = doneWith s t ∧
          (∀ i < vl', t.elt f.d w' i = if s.ahead w' i then s.bytes (base + off (64 + i * z')) z' else s.elt f.d w' i) ∧
          (∀ k, k < f.d.toNat ∨ f.d.toNat + g ≤ k → t.th.vreg k = s.th.vreg k) ∧
          (∀ k < 32, t.th.sortOf k = if f.d.toNat ≤ k ∧ k < f.d.toNat + g then 0
            else if k + 1 = f.d.toNat then s.th.sortOf k &&& ~~~64 else s.th.sortOf k) ∧
          t = { s with th := { s.th.finishV with v := t.th.v, sort := t.th.sort }, free := t.free }))

/-- VST and VSTS (R246), VSTT (R247), VSCAT (R250), VSPILL (R254), on plain memory: each element the word has to do is stored at its
address, in order, and no other byte changes; VSPILL stores its header before them, unless it resumes, and zeros after them; and the adds of VSCADD (R251), to update lines, and of VREDST (R253), at home. -/
def Obligations.VectorStores : Prop :=
  ∀ (f : Fields) (s : State), VecReady s f → Quiet s → s.MemOk →
    let w := s.th.sew
    let z := w / 8
    let n := s.gregs
    let vl := s.vl
    let segs := f.seg.toNat + 1
    let base := s.addr f
    let a := s.th.getS f.a
    let off (x : Nat) : Word := BitVec.ofNat 64 x
    let doing := (List.range vl).filter (s.todo f w)
    let seg (i : Instr) (addr : Nat → Nat → Word) : Prop := f.d.toNat % n = 0 → segs * n ≤ 8 → f.d.toNat + segs * n ≤ 32 →
      (∀ j < vl, s.active f j = true → ∀ k < segs, InHbm (addr j k) z) →
      StoresRun i s z (doing.flatMap fun j => (List.range segs).map fun k => (addr j k, s.th.vget s.rbytes (f.d.toNat + k * n) w j))
    let kind := f.var.toNat % 4
    let c := (s.th.getS f.c).toNat
    let okKind : Prop := kind ≠ 0 → FloatReady s f
    let bf := f.var.getLsbD 2
    (Reads s (regsAB f) → seg (.vst f) (fun i k => base + off ((i * segs + k) * z))) ∧
    (Reads s [f.a, f.b] → seg (.vsts f) (fun i _ => a + off i * s.th.getS f.b)) ∧
    (Reads s (regsAB f) → GroupOk f.d n → s.th.rows * vl ≤ s.vlmax →
      let r0 := bits s.th.eprog.toNat 31 16
      let c0 := bits s.th.eprog.toNat 15 0
      let at_ (k i : Nat) : Word := base + off k * s.th.vpitch + off (i * z)
      let rows := (List.range s.th.rows).filter (decide <| r0 ≤ ·)
      (∀ k < s.th.rows, ∀ i < vl, s.active f i = true → InHbm (at_ k i) z) →
      StoresRun (.vstt f) s z (rows.flatMap fun k => ((s.actives f).filter fun i => decide (r0 < k) || decide (c0 ≤ i)).map fun i =>
        (at_ k i, s.elt f.d w (k * vl + i)))) ∧
    (Reads s [f.a] → GroupOk f.d n → GroupOk f.b n →
      let at_ (i : Nat) : Word := a + off (s.elt f.b w i * z)
      (∀ i < vl, s.active f i = true → InHbm (at_ i) z) →
      StoresRun (.vscat f) s z (doing.map fun i => (at_ i, s.elt f.d w i))) ∧
    (Reads s (regsAB f) → GroupOk f.d n → base.toNat % 64 = 0 → base.toNat + 64 + (vl * z + 63) / 64 * 64 ≤ 0x60_0000_0000 →
      let at_ (i : Nat) : Word := base + off (64 + i * z)
      let pad := (64 - vl * z % 64) % 64 / z
      let head := if s.th.resumesV then s else s.store base 64 s.th.vcfg.toNat
      let t := (head.stores z (((List.range vl).filter (s.ahead w)).map fun i => (at_ i, s.elt f.d w i))).stores z
        ((List.range pad).map fun k => (at_ (vl + k), 0))
      exec (.vspill f) s = doneWith s { t with th := s.th.finishV } ∧
        ∀ x, x < base.toNat ∨ base.toNat + 64 + (vl * z + 63) / 64 * 64 ≤ x → SameByte s t x) ∧
    (Reads s [f.a] → GroupOk f.d n → GroupOk f.b n → okKind →
      (if kind = 2 then Reads s [f.c] →
        let at_ (i : Nat) : Word := a + off (s.elt f.b w i * 16)
        ∀ y : Nat → Int × Bool, (∀ i ∈ doing, InHbm (at_ i) 16 ∧ exactAddend (c % 128) ((vfFmt w bf).decode (s.elt f.d w i)) = .ok (y i)) →
        exec (.vscadd f) s = doneWith s (doing.foldl (fun t i => addUpdate t s.th.coreNo .exact (at_ i).toNat (y i).1)
          { s with th := { s.th.finishV with fflags := flagsAfter s (s.todo f w) fun i => if (y i).2 then fNX else 0 } })
      else
        let at_ (i : Nat) : Word := a + off (s.elt f.b w i * z)
        (∀ i ∈ doing, InHbm (at_ i) z) →
        exec (.vscadd f) s = doneWith s (doing.foldl
          (fun t i => addUpdate t s.th.coreNo (if kind = 0 then .int z else updFmtOf w bf) (at_ i).toNat (s.elt f.d w i))
          { s with th := s.th.finishV }))) ∧
    (Reads s (f.a :: if kind = 0 then [] else [f.c]) → GroupOk f.b n → okKind →
      let x (i : Nat) : FVal := scaleVal (bits c 7 0) ((vfFmt w bf).decode (s.elt f.b w i))
      if kind = 2 then
        let at_ (i : Nat) : Word := a + off (i * 16)
        ∀ y : Nat → Int × Bool, (∀ i ∈ doing, InHbm (at_ i) 16 ∧ exactAddend (bits c 14 8) (x i) = .ok (y i)) →
        exec (.vredst f) s = doneWith s (doing.foldl (fun t i =>
            let new := exactInt (t.bytes (at_ i) 16) + (y i).1
            let t := physWrite t (at_ i).toNat 16 (exactWord new)
            if inExactRange new then t else logError 0x11A (at_ i).toNat none 0 t)
          { s with th := { s.th.finishV with fflags := flagsAfter s (s.todo f w) fun i => if (y i).2 then fNX else 0 } })
      else
        let at_ (i : Nat) : Word := a + off (i * z)
        (∀ i ∈ doing, InHbm (at_ i) z) →
        exec (.vredst f) s = doneWith s (doing.foldl (fun t i => physWrite t (at_ i).toNat z
            (if kind = 0 then (t.bytes (at_ i) z + s.elt f.b w i) % 2 ^ w else redstFloat (vfFmt w bf) (x i) (t.bytes (at_ i) z)))
          { s with th := s.th.finishV }))

/-! ### Configuration and control registers (spec/06, spec/08, spec/19) -/

/-- VSETVL (R200), VLQ (R202), the chain word read by VSETVL.chain (R48, R201) and written by VCPUB (R47, R203): VL never exceeds
VLMAX, and a VSETVL.chain that finds nothing published waits. That these words complete too where the thread's vector context is not
present is the model's reading (log 12): they act on control state alone. -/
def Obligations.Configuration : Prop :=
  ∀ (f : Fields) (s : State),
    let a := s.th.getS f.a
    let b := s.th.getS f.b
    let c := s.th.getS f.c
    let lanes := threadLanes s s.th
    let max (grp sewc : Nat) : Nat := 16 * lanes * 2 ^ grp / 2 ^ sewc
    let avl (m : Nat) : Nat := if f.a = 0 then m else a.toNat
    let conf (s : State) (scope grp sewc vl : Nat) : State :=
      { s with th := { s.th with vcfg := BitVec.ofNat 64 (scope * 2 ^ 19 + grp * 2 ^ 17 + sewc * 2 ^ 14 + vl) } }
    (Reads s (f.a :: regsB f) →
      let (sewc, grp, scope) := match f.imm with
        | some i => (bits i.toNat 2 0, bits i.toNat 4 3, bits i.toNat 7 5)
        | none => (bits b.toNat 16 14, bits b.toNat 18 17, bits b.toNat 21 19)
      let vl := min (avl (max grp sewc)) (max grp sewc)
      sewc < 4 → scope < 6 → exec (.vsetvl f) s = doneWith s ((conf s scope grp sewc vl).put f.d (BitVec.ofNat 64 vl))) ∧
    (Reads s [f.a] →
      let v := if f.a = 0 then s.th.vcfg.toNat else a.toNat
      bits v 16 14 < 4 → exec (.vlq f) s = doneWith s (s.put f.d (BitVec.ofNat 64
        (64 + 64 * ((bits v 13 0 * (8 * 2 ^ bits v 16 14) + 511) / 512))))) ∧
    (Reads s [f.a, f.b, f.c] → Quiet s → InHbm b 8 →
      let x := s.bytes b 8
      let m := max s.th.grp s.th.sewCode
      let n := min (avl m) (min m (x % 2 ^ 63 - c.toNat))
      exec (.vsetvlChain f) s = if n = 0 ∧ avl m ≠ 0 ∧ x < 2 ^ 63 then
          .next (waitFor (.chain b) s)
        else doneWith s ((conf (s.acquiredGuard b) s.th.scope s.th.grp s.th.sewCode n).put f.d (BitVec.ofNat 64 n))) ∧
    (Reads s (f.d :: regsAB f) → Quiet s → InHbm (s.addr f) 8 →
      exec (.vcpub f) s = doneWith s (physWrite s (s.addr f).toNat 8 ((s.th.getS f.d).toNat % 2 ^ 63 + if f.var.getLsbD 0 then 2 ^ 63 else 0)))

/-- CRR, CRW and its .set and .clr forms (R188, R189): the value read goes to D, and a, old OR a or old AND NOT a to the register, under
the access types of its map. A number with no register raises 0x015, one the level may not name 0x030: no register changes. -/
def Obligations.ControlRegisters : Prop :=
  (∀ (f : Fields) (s : State), Reads s (f.a :: regsB f) → NoWriteWaits s →
    let n := s.crNum f
    let a := s.th.getS f.a
    let lanes := threadLanes s s.th
    MayName s n →
    (∀ x, (n, x) ∈ crValues s → exec (.crr f) s = doneWith s (s.put f.d x) ∧
      (∀ t, (n, t) ∈ crAfter s a ++ crActs s a → exec (.crw f) s = doneWith s (t.put f.d x)) ∧
      (∀ t, (n, t) ∈ crAfter s (x ||| a) ++ crActs s (x ||| a) → exec (.crwSet f) s = doneWith s (t.put f.d x)) ∧
      (∀ t, (n, t) ∈ crAfter s (x &&& ~~~a) ++ crActs s (x &&& ~~~a) → exec (.crwClr f) s = doneWith s (t.put f.d x))) ∧
    -- VCLASS and XPROG of a vector context on lane cluster `lc`
    (∀ lc, (if s.th.isL then lc = 0 else s.th.lc = some lc) →
      (n = 0x008 → exec (.crr f) s = doneWith s (s.put f.d (BitVec.ofNat 64
        (16 * lanes * 2 ^ s.th.grp / 2 ^ s.th.sewCode * 2 ^ 16 + lanes * 2 ^ 8 + lc * 2 + b2n s.th.isL)))) ∧
      (∀ j < 8, n = 0x034 + j →
        let used := s.th.isL ∨ j / 2 = lc
        exec (.crr f) s = doneWith s (s.put f.d (if used then s.th.xprog.getD j 0 else 0)) ∧
        exec (.crw f) s = doneWith s (if used then
            { s with th := { s.th with
              xprog := s.th.xprog.setIfInBounds j (a &&& 0xFFFF)
              scan := if a &&& 0xFFFF = s.th.xprog.getD j 0 then s.th.scan else none } }.put f.d (s.th.xprog.getD j 0)
          else s.put f.d 0))) ∧
    -- CCYC counts on by an amount the spec leaves open
    (n = 0x00D → ∃ x : Word, exec (.crr f) s = doneWith s
      (({ s with free := s.free + 1 }.setCluster s.th.clusterNo { s.cluster s.th.clusterNo with ccyc := x }).put f.d x))) ∧
  ∀ (f : Fields) (s : State), Reads s (regsB f) →
    let n := s.crNum f
    ∀ i ∈ [Instr.crr f, .crw f, .crwSet f, .crwClr f],
      ((0x020 ≤ n ∧ n < 0x030 ∨ 0x03C ≤ n ∧ n < 0x040 ∨ 0x041 ≤ n ∧ n < 0x050 ∨ 0x051 ≤ n ∧ n < 0x060 ∨ 0x061 ≤ n ∧ n < 0x070 ∨ n = 0x083 ∨
        0x08D ≤ n ∧ n < 0x090 ∨ 0x0A5 ≤ n) → exec i s = trapsWith s 0x015 (firstWord i)) ∧
      ((∃ x, (n, x) ∈ crValues s) → ¬ MayName s n → exec i s = trapsWith s 0x030 (BitVec.ofNat 64 n))

/-- The register writes as steps of their own (R191, R58, R63, R73, R71, R352): the write is made by the thread named, whose registers
it concerns, and the selected thread stays selected; a key of no thread in a slot writes nothing. -/
def Obligations.RegisterWriteEvents : Prop :=
  ∀ (k : Nat) (v : Word) (s : State),
    let u := s.select k
    let writes : List (Instr × Nat) := [(.vcfgWrite k v, 0x000), (.ptrootWrite k v, 0x080), (.tlbinv k v, 0x082), (.tvbaseWrite k v, 0x084),
      (.tstepWrite k v, 0x08B), (.slstopWrite k v, 0x0A1)] ++ (List.range 16).map fun j => (.bmodeWrite k j v, 0x090 + j)
    (∀ w ∈ (.vmaxlenWrite k v, 0x050) :: writes, ((s.thread k).live && (s.thread k).pos.isSome) = false → exec w.1 s = .next s) ∧
    ((s.thread k).live = true → (s.thread k).pos.isSome = true → NoWriteWaits u →
      (∀ w ∈ writes, MayName u w.2 → ∀ t, (w.2, t) ∈ crAfter u v ++ crActs u v → exec w.1 s = .next (t.select s.cur)) ∧
      (u.th.level ≠ .user →
        let c := u.th.coreNo
        let lpc := bits v.toNat 4 0
        -- VMAXLEN: LPC of the core, VL clipped, and the rest of the registers discarded (R355)
        (lpc ≠ 8 → lpc ≠ 16 → exec (.vmaxlenWrite k v) s = .next (u.select s.cur)) ∧
        (lpc = 8 ∨ lpc = 16 → ∃ t : State, exec (.vmaxlenWrite k v) s = .next t ∧ (t.core c).full = decide (lpc = 16) ∧
          t.mem = s.mem ∧ t.parts = s.parts ∧
          ∀ x ∈ u.residents c, (t.thread x).vl = min (u.thread x).vl
            (16 * (if (u.thread x).isL then 4 * lpc else lpc) * 2 ^ (u.thread x).grp / 2 ^ (u.thread x).sewCode))))

/-- BMODE_CHANGE_DONE (R63): BUSY clears, and the threads that wait for the bank issue their words again. SLOT_STOP (R352): a slot whose
STOP is 1 has stopped once nothing its thread began is under way. What lets a waiting thread issue its word again (R26, R36, R48, R61,
R87, R181, R182, R307): each event wakes the waits it is for and no other; FIFO_POP_WAKE completes a load that waits at a port.
That WAIT_REEVAL lets every word look again that waits for a condition of the machine is the model's choice (log 34). -/
def Obligations.StopsAndWakes : Prop :=
  (∀ (c j : Nat) (s : State),
    let k := s.cluster c
    let b := k.banks.getD j Bank.reset
    let x := s.core c
    let clear := ∀ t, s.inSlot c j = some t → saveWaits s t = none
    exec (.bmodeChangeDone c j) s = .next (if j < 16 ∧ b.busy = true then
      wakeAll (· == .bank c j) (s.setCluster c { k with banks := k.banks.setIfInBounds j { b with busy := false } }) else s) ∧
    (j < 8 → x.stop.getLsbD j = true → x.stopped.getLsbD j = false → clear →
      exec (.slotStop c j) s = .next (s.setCore c { x with stopped := x.stopped ||| BitVec.ofNat 8 (2 ^ j) })) ∧
    (¬ (j < 8 ∧ x.stop.getLsbD j = true ∧ x.stopped.getLsbD j = false ∧ clear) → exec (.slotStop c j) s = .next s)) ∧
  ∀ (k : Nat) (s : State),
    let t := s.thread k
    let woken : Out := .next (s.setThread k { t with wait := none })
    let events : List Instr := [.yieldEnd k, .waitReeval k, .chainWake k, .fifoPopWake k, .watermarkStallResume k, .launchQueueRoom k]
    (t.wait = none → t.loads = [] → ∀ i ∈ events, exec i s = .next s) ∧
    (∀ (l : FifoLoad) (rest : List FifoLoad) (e : Word) (more : List Word), t.loads = l :: rest → l.width = 64 → l.bank < 16 →
      s.running t = true → (l.vec = none ∨ t.vectorHere = true) →
      let b := (s.cluster l.cluster).banks.getD l.bank Bank.reset
      b.mode = 2 → b.busy = false → b.bad = [] → b.ring = e :: more →
      ∃ u : State, exec (.fifoPopWake k) s = .next u ∧ (u.cluster l.cluster).banks.getD l.bank Bank.reset =
          { b with ring := more, head := (b.head + 1) % 16384 } ∧
        (∀ r, (u.thread k).getS r = if l.vec = none ∧ r = l.reg ∧ r ≠ 0 then e else t.getS r) ∧
        (let rb := 16 * threadLanes s t
         ∀ d, l.vec = some d → d.count = 1 → d.sew = 64 → 0 < rb → d.reg + d.first * 8 / rb < 32 →
          (u.thread k).vget rb d.reg 64 d.first = e.toNat) ∧
        (u.thread k).loads.length = rest.length ∧
        (u.thread k).pc = t.pc ∧ u.mem = s.mem ∧
        (u.thread k).wait = (match t.wait with
          | some (.fifo _ _) | some .load => none
          | w => w)) ∧
    (∀ r, t.wait = some r →
      (exec (.yieldEnd k) s = match r with
        | .yielded => woken
        | _ => .next s) ∧
      (exec (.waitReeval k) s = match r with
        | .yielded | .group _ _ _ | .xfer _ _ _ => .next s
        | _ => woken) ∧
      (exec (.chainWake k) s = match r with
        | .chain _ => woken
        | _ => .next s) ∧
      (t.loads = [] → exec (.fifoPopWake k) s = match r with
        | .fifo _ _ | .load => woken
        | _ => .next s) ∧
      (exec (.watermarkStallResume k) s = match r with
        | .watermark _ _ | .channel _ _ _ => woken
        | _ => .next s) ∧
      (exec (.launchQueueRoom k) s = match r with
        | .launchQueue prio => if ((s.part t.part).queues.getD prio []).length < 256 then woken else .next s
        | .tileQueue l => if (s.dec (t.decOf l)).queue.length < 64 then woken else .next s
        | _ => .next s))

/-- CTXSAVE (R353): the thread named leaves its slot, for a save of its scalar part, and its lane clusters, for one of its vector part,
and a frame of 16 pages and one a granted row holds it; a slot that has not stopped raises 0x1C6. CTXLOAD (R353, R354): an intact frame
gives its thread back, the scalar part to a slot that has stopped, with a grant of the same size, the vector part to free lane clusters
with its counters (R347), and what the core had fetched goes (R94); REQ bits the core lacks raise 0x033. -/
def Obligations.ContextSaveLoad : Prop :=
  (∀ (k x : Nat) (v : Word) (s : State),
    let u := s.select k
    let c := u.th.coreNo
    let slot := bits v.toNat 2 0
    let mode := bits v.toNat 5 4
    let ea : Word := v &&& 0xFFFF_FFFF_FFFF_0000
    let y := u.thread x
    (s.thread k).live = true → (s.thread k).pos.isSome = true → Quiet u →
      (mode = 0 → exec (.ctxsave k v) s = .next (u.select s.cur)) ∧
      (mode = 1 ∨ mode = 3 → (u.core c).stopped.getLsbD slot = false →
        exec (.ctxsave k v) s = .next ((deliver { code := 0x1C6 } u.th.resumeSlot1 u).select s.cur)) ∧
      (mode ≠ 0 → (mode ≠ 2 → (u.core c).stopped.getLsbD slot = true) →
        (if mode = 2 then (u.vectorOwners c).find? fun k => (u.thread k).home.map Pos.slot == some slot else u.inSlot c slot) = some x →
        saveWaits u x = none → ea.toNat + 4096 * (16 + y.grows) ≤ 0x60_0000_0000 →
        ∃ t : State, exec (.ctxsave k v) s = .next t ∧
          (t.thread x).s = y.s ∧ (t.thread x).tid = y.tid ∧
          (mode ≠ 2 → (t.thread x).pos = none ∧ (t.thread x).saved = true) ∧ (mode = 2 → (t.thread x).pos = y.pos) ∧
          (mode ≠ 3 → y.vcore = some c → (t.thread x).lc = none) ∧ (mode = 3 → (t.thread x).lc = y.lc) ∧
          ∃ f, t.frames.find ea.toNat = some f ∧ f.dirty = [] ∧
            f.body = .thread (mode != 2) (mode != 3 && y.vcore == some c) y (grantRows u y).1 (grantRows u y).2)) ∧
  ∀ (k : Nat) (v : Word) (s : State) (hs hv : Bool) (ft : Thread) (rows : Table (BitVec 32)) (bad : List Nat),
    let u := s.select k
    let p := u.th.pos.getD ⟨0, 0, 0⟩
    let c := u.th.coreNo
    let slot := bits v.toNat 2 0
    let mode := bits v.toNat 5 4
    let lane := bits v.toNat 7 6
    let ea : Word := v &&& 0xFFFF_FFFF_FFFF_0000
    let key := threadKey ft.part ft.entry
    let own := u.thread key
    let free := u.freeBlocks u.th.clusterNo
    let target := if mode = 2 then u.inSlot c slot else some key
    (s.thread k).live = true → (s.thread k).pos.isSome = true → Still u →
      (mode = 0 → exec (.ctxload k v) s = .next (u.select s.cur)) ∧
      (mode ≠ 0 → ea.toNat + 4096 * (16 + ft.grows) ≤ 0x60_0000_0000 → FrameHolds u ea.toNat (.thread hs hv ft rows bad) (16 + ft.grows) →
        ft.live = true → ft.part = u.th.part →
        (mode ≠ 2 → hs = true ∧ own.live = true ∧ own.saved = true ∧ own.tid = ft.tid ∧ (u.core c).stopped.getLsbD slot = true ∧
          ft.grows ≤ longestRun free * 8) →
        (mode ≠ 3 → hv = true ∧ ∀ l ∈ lanesFor ft.isL lane, ∀ o, u.laneOwner c l = some o → target = some o) →
        (mode = 2 → ∃ o, u.inSlot c slot = some o ∧ (u.thread o).isL = ft.isL) →
        let lacks := ft.req &&& ~~~((u.core c).feat.setWidth 16)
        (lacks ≠ 0 → exec (.ctxload k v) s = .next ((deliver { code := 0x033 } u.th.resumeSlot1 u).select s.cur)) ∧
        (lacks = 0 → ∃ t : State, exec (.ctxload k v) s = .next t ∧ (t.core c).icache = [] ∧
          (mode ≠ 2 → (t.thread key).pos = some ⟨p.cluster, p.core, slot⟩ ∧ (t.thread key).saved = false ∧ (t.thread key).s = ft.s ∧
            (t.thread key).pc = ft.pc ∧ (t.thread key).level = ft.level ∧ (t.thread key).xcause = ft.xcause ∧
            (t.thread key).grows = ft.grows) ∧
          (mode ≠ 3 → ∀ o, target = some o → (t.thread o).lc = some (if ft.isL then 0 else lane) ∧
            ((u.core c).full = true → (t.thread o).v = ft.v ∧ (t.thread o).m = ft.m ∧ (t.thread o).sort = ft.sort ∧
              (t.thread o).q = ft.q ∧ (t.thread o).w = ft.w)) ∧
          (mode = 1 → ft.isL = false → ft.lc.getD lane < 4 → ∀ i < 2,
            (t.thread key).xprog.getD (2 * lane + i) 0 = ft.xprog.getD (2 * ft.lc.getD lane + i) 0)))

/-! ### Paired words (spec/06) -/

/-- Paired words (R127 to R130): slot 0 and then slot 1 take effect; a load in slot 1 sees a store of slot 0, and a cause of slot 1
leaves slot 0's effect with SLOT = 1. A stop may fall between the slots, which the word's resumption then knows (R348). A vector half
alone, or resumed as slot 1, is its full instruction. -/
def Obligations.PairedWords : Prop :=
  ∀ (h0 h1 : Half) (s : State),
    let nop : Half := ⟨0, 0, 0, false, 0⟩
    (∀ t u : State, Quiet s → s.th.resumeSlot1 = false → HalfRuns s false h0 t → HalfRuns t true h1 u →
      let whole : Prop := exec (.pairedWord h0 h1) s = doneWith s u
      if s.chosen = .cut then
        whole ∨ exec (.pairedWord h0 h1) s = .next { t with th := t.th.noteStop true false false, chosen := .none }
      else whole) ∧
    (∀ u : State, Quiet s → s.th.resumeSlot1 = true → HalfRuns s true h1 u → halfRange s h0 = false →
      exec (.pairedWord h0 h1) s = doneWith s u) ∧
    (∀ t : State, Quiet s → s.th.resumeSlot1 = false → s.chosen ≠ .cut → HalfRuns s false h0 t → h1.hop = 14 ∨ h1.hop = 15 →
      Reads t [slotReg true h1.d, slotReg true h1.a] →
      let ea := t.halfAddr true h1
      ea.toNat % 8 ≠ 0 → ea.toNat < 0x60_0000_0000 →
      let u : State := { t with th := { t.th with resume := none } }
      exec (.pairedWord h0 h1) s =
        .next { deliver { code := if h1.hop = 14 then 0x080 else 0x081, xval := ea } true u with chosen := .none }) ∧
    (∀ i, fullOf false h0 = some i → HalfVecOk s h0 → s.th.resumeSlot1 = false → s.chosen ≠ .cut → exec (.pairedWord h0 nop) s = exec i s) ∧
    (∀ i, fullOf true h1 = some i → HalfVecOk s h1 → s.th.resumeSlot1 = true → halfRange s h0 = false →
      exec (.pairedWord h0 h1) s = exec i s)

/-! ### Transfers and streams (spec/10) -/

/-- VXFER (R252): a half whose partner waits moves the bytes and both go on; one whose partner, a live thread, does not wait for it
waits; and two that wait for each other meet. -/
def Obligations.Transfers : Prop :=
  ∀ (f : Fields) (s : State) (j rj : Nat),
    let tid : BitVec 32 := (s.th.getS f.b).setWidth 32
    (VecReady s f → Reads s [f.b] → s.byTid s.th.part tid = some j → ∀ put : Bool,
      let r := if put then f.a else f.d
      let i : Instr := if put then .vxferPut f else .vxferGet f
      GroupOk r s.gregs →
      (Meets s put s.cur r.toNat j rj → ∃ t : State, exec i s = doneWith s t ∧ Moved s t put s.cur r.toNat j rj ∧
        t.th.s = s.th.s ∧ t.cur = s.cur) ∧
      (xferPartner s put j = none → exec i s = .next (waitFor (.xfer put tid r.toNat) s))) ∧
    ∀ (k rk : Nat) (put : Bool), (s.thread k).live = true → (s.thread k).wait = some (.xfer put (s.thread j).tid rk) →
      (s.select k).byTid (s.thread k).part (s.thread j).tid = some j → Meets s put k rk j rj →
      ∃ t : State, exec (.vxferPair k) s = .next t ∧ Moved s t put k rk j rj ∧ (t.thread k).wait = none ∧
        ((s.thread k).dbg.getLsbD 1 = false → (t.thread k).pc = (s.thread k).pc + 8)

/-- SOPEN (R258), STEND and SCLOSE (R261), SNEXT (R259) and SSEEK (R260), with the descriptor, keys and values in plain memory. -/
def Obligations.Streams : Prop :=
  ∀ (f : Fields) (s : State), StreamReady s → Quiet s →
    let open_ (n : Nat) (q : Stream) : State := { s with th := s.th.setStream n q }
    let r := f.a.toNat
    let q := s.th.stream r
    let ea := s.addr f
    (Reads s (regsAB f) → InHbm ea 64 →
      let q : Stream := { isOpen := true, desc := BitVec.ofNat 512 (s.bytes ea 64) }
      s.bytes ea 64 < 2 ^ 164 → q.idx.toNat % q.kb = 0 → q.val.toNat % q.kb = 0 →
      exec (.sopen f) s = doneWith s (open_ f.d.toNat q)) ∧
    (q.isOpen = true →
      exec (.stend f) s = doneWith s (s.put f.d (BitVec.ofNat 64 (q.len - q.pos))) ∧
      exec (.sclose f) s = doneWith s (open_ r {}) ∧
      (q.poison = false →
        (s.th.sew = keyWidth q.key → s.gregs = 1 → s.th.vpoison = [] → (∀ l ∈ s.th.loads, l.vec = none) → f.d.toNat + (if f.p then 2 else 1) ≤ 32 →
          let vl := s.vl
          let n := min vl (q.len - q.pos)
          let keys := (List.range n).map fun i => s.streamKey q (q.pos + i)
          let withVals := f.p = true ∧ q.val ≠ 0
          let vals := if withVals then (List.range n).map fun i => s.streamVal q (q.pos + i) else []
          let ok : Bool := inOrder q.key q.desc? keys && (match q.last, keys.head? with
            | some l, some x => !before q.key q.desc? x l.toNat
            | _, _ => true)
          let last := if n = 0 then q.last else some (BitVec.ofNat 64 (s.streamKey q (q.pos + n - 1)))
          (∀ i < n, InHbm (q.idx + BitVec.ofNat 64 ((q.pos + i) * q.kb)) q.kb ∧
            (withVals → InHbm (q.val + BitVec.ofNat 64 ((q.pos + i) * q.kb)) q.kb)) →
          ∃ t : State, exec (.snext f) s = doneWith s
              ({ t with th := t.th.setStream r { q with pos := q.pos + n, last := last } }.put f.c
                (BitVec.ofNat 64 (n + if ok then 0 else 2 ^ 63))) ∧
            RunsWritten s ((f.d.toNat, s.th.sew, vl, keys) :: if f.p then [(f.d.toNat + 1, s.th.sew, vl, vals)] else [])
              ((f.d.toNat, if ok then sortWord true q.desc? (strictRun keys) f.p q.key n else 0) ::
                if f.p then [(f.d.toNat + 1, 0)] else []) t) ∧
        (Reads s [f.b] → q.pos ≤ q.len → (∀ i < q.len, InHbm (q.idx + BitVec.ofNat 64 (i * q.kb)) q.kb) →
          let tgt := (s.th.getS f.b).toNat % 2 ^ keyWidth q.key
          let below (i : Nat) : Bool := before q.key q.desc? (s.streamKey q i) tgt
          let signed := q.key = 0 ∨ q.key = 3 ∨ q.key = 6
          let value (i : Nat) : Word :=
            if signed then low (keyWidth q.key) (BitVec.ofNat 64 (s.streamKey q i)) else BitVec.ofNat 64 (s.streamKey q i)
          ∃ p, q.pos ≤ p ∧ p ≤ q.len ∧ (p = q.len ∨ below p = false) ∧ (p = q.pos ∨ below (p - 1) = true) ∧
            exec (.sseek f) s = doneWith s ({ s with
                th := s.th.setStream r { q with pos := p, last := if p = q.pos then q.last else some (BitVec.ofNat 64 (s.streamKey q (p - 1))) }
                free := s.free + 1 }.put f.d (if p = q.len then 0 else value p)))))

/-! ### Groups, launches and the life of a thread (spec/02, spec/07) -/

/-- GJOIN and GLEAVE (R40), GBAR and GRED (R42): one step on the object; an arrival that does not complete the phase waits, and a waiting
member, in a slot that runs, goes on once the phase of the object differs from its own, GRED's destination taking the result and the return
acquiring (R43). What GBAR leaves in ROP
and ACC is open. -/
def Obligations.Groups : Prop :=
  (∀ (f : Fields) (s : State), s.th.live = true → Quiet s →
    let hA := s.th.handle f.a.toNat
    let eaA := handleAddr hA
    let o := s.object eaA
    let x := (s.opndB f).toNat
    let arrives (i : Instr) (red : Option (BitVec 6)) (op x : Nat) : Prop :=
      let o' := arrived o red.isSome op x
      let t := { s.putObject eaA o' with free := s.free + 1 }
      let on := (t.acquiredGroup eaA).setHandle f.a.toNat (handleOf eaA o'.phase)
      exec i s = if o'.phase = handleMph hA then
          .next { t with th := { s.th with wait := some (.group f.a.toNat red (s.th.pc + 8)) }, chosen := .none }
        else doneWith s (match red with
          | some d => on.put d (BitVec.ofNat 64 o'.res)
          | none => on)
    (Reads s (regsAB f) →
      let ea := s.addr f
      let o := s.object ea
      InHbm ea 64 → handleV (s.th.handle f.d.toNat) = false →
      (∀ k < 4, handleV (s.th.handle k) = true → handleAddr (s.th.handle k) ≠ ea) →
      o.rest = 0 → o.members < 65535 → o.arrived ≤ o.members →
      exec (.gjoin f) s = doneWith s ((s.putObject ea { o with members := o.members + 1 }).setHandle f.d.toNat (handleOf ea o.phase))) ∧
    (handleV (s.th.handle f.d.toNat) = true → InHbm (handleAddr (s.th.handle f.d.toNat)) 64 →
      exec (.gleave f) s = doneWith s (s.leave f.d.toNat)) ∧
    (handleV hA = true → InHbm eaA 64 → o.rest = 0 → o.arrived ≤ o.members →
      (∀ p ∈ s.th.prefs, p.handle ≠ some f.a.toNat) →
      ((o.arrived ≠ 0 → o.ract = false) → ∃ op < 5, arrives (.gbar f) none op 0) ∧
      (Reads s (regsB f) → f.var.toNat < 5 → (o.arrived ≠ 0 → o.ract = true ∧ o.rop = f.var.toNat) →
        arrives (.gred f) (some f.d) f.var.toNat x))) ∧
  ∀ (k g : Nat) (red : Option (BitVec 6)) (npc : Word) (s : State),
    let u := s.select k
    let h := u.th.handle g
    let o := u.object (handleAddr h)
    let on := (u.acquiredGroup (handleAddr h)).setHandle g (handleOf (handleAddr h) o.phase)
    (s.thread k).live = true → u.running u.th = true → (s.thread k).wait = some (.group g red npc) → Quiet u →
    InHbm (handleAddr h) 64 →
    exec (.groupWaitRelease k) s = .next (if o.phase = handleMph h then s else
      (complete u npc (match red with
        | some d => on.put d (BitVec.ofNat 64 o.res)
        | none => on)).select s.cur)

/-- LAUNCH (R26, R27, R179): the next sequence number goes to D and an entry to the queue of its priority, or the thread waits for room; that
the object's address is resolved as LAUNCH queues is the model's reading (log 51). EXIT (R30, R180): the thread leaves its groups, and its
slot and table entry are free. YIELD (R181) pauses. -/
def Obligations.ThreadWords : Prop :=
  ∀ (f : Fields) (s : State), s.th.live = true → Quiet s →
    let p := s.part s.th.part
    let ea := s.addr f
    let x := s.bytes ea 64
    let g : Word := BitVec.ofNat 64 (bits x 255 192)
    let join := x.testBit 164
    let o := s.object g
    (Reads s (regsAB f) → InHbm ea 64 →
      bits x 2 0 = 0 → 1 ≤ bits x 159 128 → bits x 159 128 ≤ 65536 → bits x 167 165 = 0 → bits x 191 184 = 0 → bits x 511 384 = 0 →
      bits x 383 320 % 16 = 0 →
      (join = true → InHbm g 64 ∧ o.rest = 0 ∧ o.arrived ≤ o.members ∧ o.members + bits x 159 128 ≤ 65535) →
      exec (.launch f) s = if (p.queues.getD (bits x 163 161) []).length < 256 then
          doneWith s ((s.launched x (if join then g.toNat else 0)).put f.d (BitVec.ofNat 64 ((p.seq + 1) % 2 ^ 64)))
        else .next (waitFor (.launchQueue (bits x 163 161)) s)) ∧
    (s.th.mmaRun = [] → s.th.loads = [] → (∀ k < 4, handleV (s.th.handle k) = true → InHbm (handleAddr (s.th.handle k)) 64) →
      let t := (List.range 4).foldl (fun t k => if handleV (t.th.handle k) then t.leave k else t) s
      exec (.exit f) s = .next { t.setPart s.th.part { p with
          reuse := p.reuse.set s.th.entry ((p.reuse.get s.th.entry 0 + 1) % 65536)
          prefQ := p.prefQ.filter (· != s.cur) } with th := Thread.zero, chosen := .none }) ∧
    (let t := complete s (s.th.pc + 8) { s with th := { s.th with passes := 0, boosted := none } }
     exec (.yield f) s = .next { t with th := { t.th with wait := some .yielded } })

/-! ### Scheduling (spec/02) -/

/-- THREAD_CREATE (R28, R29, R41): the head entry of the highest-priority queue that holds one gives a thread, in index order, with the
registers of Table 2; with `join` the first creation adds COUNT to MEMBERS in one step. THREAD_PLACE (R22, R31, R32) and
L_THREAD_RESERVE (R33): a core in service with the features the thread asks for, kept for no other thread, takes it in a free slot
with the lane clusters of its class: an empty core, which takes that class, or for an S thread an S core. Which of several L threads that
an empty core could take has been passed over long enough is free, as the model has no cycles. That a new thread is at user level is the
model's reading (log 14), and that placement starts its slot the model's choice (log 9). -/
def Obligations.ThreadCreationAndPlacement : Prop :=
  (∀ (p k n : Nat) (e : LaunchEntry) (rest : List LaunchEntry) (s : State),
    let q := s.part p
    let d := e.desc.toNat
    let key := threadKey p n
    let i := e.base + e.next
    let join := d.testBit 164
    let g : Word := BitVec.ofNat 64 (bits d 255 192)
    let o := GObj.ofNat (s.mem.readLE e.gpa 64)
    k < 8 → (∀ j < k, q.queues.getD j [] = []) → q.queues.getD k [] = e :: rest → n < 65536 → (s.thread key).live = false →
    ((join = true ∧ e.handle = none) → s.frames = [] ∧ s.coherent = true ∧ NoUpdates s ∧ s.plat.linkLost = false ∧ s.unseen = [] ∧
      isFabric e.gpa = false ∧ o.rest = 0 ∧ o.arrived ≤ o.members ∧
      o.members + e.count ≤ 65535) →
    ∃ t : State, exec (.threadCreate p (some n)) s = .next t ∧
      (let x := t.thread key
       x.live = true ∧ x.part = p ∧ x.entry = n ∧ x.pc = BitVec.ofNat 64 d ∧ x.level = .user ∧ x.getS 1 = BitVec.ofNat 64 (d / 2 ^ 64) ∧
       x.getS 2 = BitVec.ofNat 64 i ∧ x.getS 3 = BitVec.ofNat 64 (bits d 159 128) ∧
       x.getS 62 = BitVec.ofNat 64 (bits d 319 256 + (i + 1) * bits d 383 320) ∧
       (∀ r, r ≠ 1 → r ≠ 2 → r ≠ 3 → r ≠ 62 → x.getS r = 0) ∧ x.isL = d.testBit 160 ∧ x.prio = bits d 163 161 ∧ x.seq = e.seq ∧
       x.index = i ∧ x.tid = BitVec.ofNat 32 (n + q.reuse.get n 0 % 65536 * 65536) ∧ x.pos = none ∧ x.wait = none ∧
       x.handle 0 = (if join then e.handle.getD (handleOf g o.phase) else 0)) ∧
      (let left := if e.next + 1 < e.count then
          { e with next := e.next + 1, handle := if join then some (e.handle.getD (handleOf g o.phase)) else none } :: rest else rest
       (t.part p).queues.getD k [] = left ∧ ∀ j, j ≠ k → (t.part p).queues.getD j [] = q.queues.getD j []) ∧
      (if join = true ∧ e.handle = none then
        t.mem = s.mem.writeLE e.gpa { o with members := o.members + e.count }.toNat 24 else t.mem = s.mem)) ∧
  ∀ (p k c l : Nat) (s : State),
    let u := s.thread k
    (∀ rest, s.unplaced p = k :: rest → s.placeFor k = some (c, l) → ∃ t : State, exec (.threadPlace p) s = .next t ∧
      c / 40 = p ∧ l < 4 ∧ (u.isL = true → l = 0 ∧ s.residents c = []) ∧
      (s.core c).inService = true ∧ u.req &&& ~~~((s.core c).feat.setWidth 16) = 0 ∧ (∀ r, (s.core c).reserved = some r → r = k) ∧
      s.inSlot c l = none ∧ (∀ j ∈ lanesFor u.isL l, s.laneOwner c j = none) ∧
      (if s.residents c = [] then (t.core c).cls = some u.isL else u.isL = false ∧ s.coreClass c = some false) ∧
      (t.thread k).pos = some ⟨c / 4 % 10, c % 4, l⟩ ∧ (t.thread k).lc = some l ∧ (t.thread k).home = some ⟨c / 4 % 10, c % 4, l⟩ ∧
      (t.thread k).s = u.s ∧ (t.thread k).pc = u.pc ∧ ((s.part p).halted = false → (t.core c).stop.getLsbD l = false) ∧
      (∀ r, (t.core c).reserved = some r → r ≠ k) ∧ t.mem = s.mem ∧ t.parts = s.parts) ∧
    ((∀ j ∈ s.unplaced p, s.placeFor j = none) → exec (.threadPlace p) s = .next s) ∧
    (∀ waiting, (∀ j, j ∈ waiting ↔ j ∈ s.unplaced p ∧ (s.thread j).isL = true ∧ (∀ c' ∈ coresOf p, (s.core c').reserved ≠ some j) ∧
        s.canTake j c 0 = true) →
      (waiting = [] ∨ s.residents c ≠ [] → exec (.lThreadReserve p c) s = .next s) ∧
      (waiting ≠ [] → c / 40 = p → s.residents c = [] → ∃ j ∈ waiting, ∃ n : Nat,
        exec (.lThreadReserve p c) s = .next { s.setCore c { s.core c with reserved := some j } with free := n } ∧
        (∀ x, waiting = [x] → (s.unplaced p).count x = 1 → n = s.free)))

/-- ISSUE (R34, R35, R299): of the ready threads of the core the boosted come first, the earliest boosted before the others, then the
highest priority, the smallest launch number and the lowest slot; a ready leaf comes before all but the boosted and a thread of priority 0
and launch number 0. Before the word issues, the steps that follow try the words of the other threads: nothing of a trial stands, but that
a thread whose word is not ready waits and does not count as passed over; the counters of the others rise as the word issues. A word that
then cannot proceed was not issued: its thread waits, and every counter and boost is what it was. PASS_BOOST at 256. That readiness shows
when a word is tried is the model's reading (log 66). -/
def Obligations.IssueOrder : Prop :=
  ∀ (c k : Nat) (s : State),
    let x := s.thread k
    (∀ others, s.readyList c = k :: others →
      (x.boosted = none → (x.prio ≠ 0 ∨ x.seq ≠ 0) → ∀ d j l, s.coreLeaf c = some (d, j, l) →
        exec (.issue c) s = .next { s with agenda := .tileLeafRun d j l :: s.agenda }) ∧
      (x.boosted ≠ none ∨ (x.prio = 0 ∧ x.seq = 0) ∨ s.coreLeaf c = none →
        exec (.issue c) s = .next { s with chosen := .probe k others ⟨x.passes, x.boosted, []⟩ }) ∧
      (∀ j ∈ others,
        let y := s.thread j
        match x.boosted, y.boosted with
        | some a, some b => a ≤ b
        | some _, none => True
        | none, some _ => False
        | none, none => x.prio < y.prio ∨ x.prio = y.prio ∧ (x.seq < y.seq ∨ x.seq = y.seq ∧ x.slot ≤ y.slot))) ∧
    (s.readyList c = [] → exec (.issue c) s = .next s) ∧
    (∀ (j : Nat) (todo : List Nat) (u : Passes), s.chosen = .probe k (j :: todo) u →
      let counted : Out := .next { s with chosen := .probe k todo { u with others := u.others ++ [j] } }
      let idle (r : WaitReason) : Out := .next { s.setThread j { s.thread j with wait := some r } with chosen := .probe k todo u }
      (step s = counted ∨ ∃ r, step s = idle r) ∧
      ∀ i s' t, fetchWord (s.probeAt j) = .word i s' → exec i s' = .next t →
        ((t.thread j).wait = none → step s = counted) ∧
        ∀ r, (t.thread j).wait = some r → (t.thread j).passes = (s.thread j).passes → step s = idle r) ∧
    (∀ u : Passes, s.chosen = .probe k [] u → ∃ t : State, step s = .next t ∧
      t.cur = k ∧ t.th = { x with passes := 0, boosted := none } ∧ t.chosen = .thread (some u) ∧ t.mem = s.mem ∧ t.cores = s.cores ∧
      (∀ j, u.others.count j = 1 → j ≠ k → (s.thread j).live = true →
        (t.thread j).passes = (s.thread j).passes + 1 ∧ (t.thread j).s = (s.thread j).s) ∧
      ∀ r, (∀ pa n, r ≠ .fabric pa n) → let w := waitFor r t
        w.th.wait = some r ∧ w.th.passes = u.count ∧ w.th.boosted = u.boosted ∧
          ∀ j, u.others.count j = 1 → j ≠ k → (s.thread j).live = true → (w.thread j).passes = (s.thread j).passes) ∧
    (256 ≤ x.passes → x.boosted = none → exec (.passBoost k) s =
      .next { s.setThread k { x with boosted := some s.boosts } with boosts := s.boosts + 1 })

/-! ### Work in the background (spec/03, spec/10) -/

/-- VLDA_FILL (R248) reads one element; UPDATE_LINE_MERGE (R65) adds what an integer line holds; MSC_ACCESS and MSC_FILTER_CLEAR (R66)
count, and set or clear the filter. No data change but the elements and words named. -/
def Obligations.BackgroundWork : Prop :=
  ∀ (k c ch x : Nat) (s : State),
    (∀ (v : Vlda) (e : VldaElem) (rest : List VldaElem) (pa : Nat) (via : Option Nat),
      let u := s.thread k
      let r := 16 * threadLanes s u
      u.live = true → u.vldas = [v] → v.todo = e :: rest → v.bytes = 0 → e.place = .cell pa via → u.vpoison = [] → s.poison = [] → s.frames = [] →
      s.coherent = true → NoUpdates s → s.plat.linkLost = false → s.holds pa (v.sew / 8) = true →
      (∀ p ∈ s.parts, ∀ n < 16, (p.2.chans.getD n Channel.reset).st ≠ .running) →
      (v.sew = 8 ∨ v.sew = 16 ∨ v.sew = 32 ∨ v.sew = 64) → v.reg + e.elem * (v.sew / 8) / r < 32 →
      ∃ t : State, exec (.vldaFill k) s = .next t ∧ t.mem = s.mem ∧
        (t.thread k).vldas = (if rest = [] then [] else [{ v with todo := rest }]) ∧ (t.thread k).s = u.s ∧
        ∀ i, v.reg + i * (v.sew / 8) / r < 32 → (t.thread k).vget r v.reg v.sew i =
          if i = e.elem then s.mem.readLE pa (v.sew / 8) else u.vget r v.reg v.sew i) ∧
    (∀ (l : UpdLine) (b : Nat), (s.core c).upd.find? (fun l => l.line == x) = some l → l.fmt = .int b → s.frames = [] → s.coherent = true →
      s.plat.linkLost = false → s.unseen = [] → isFabric (x * 128) = false → s.MemOk →
      (b = 4 ∨ b = 8) → (∀ a ∈ l.adds, a.1 % b = 0 ∧ a.1 < 128) →
      ∃ t : State, exec (.updateLineMerge c x) s = .next t ∧ (t.core c).upd = (s.core c).upd.filter (fun l => l.line != x) ∧
        (∀ o, o % b = 0 → o < 128 → t.mem.readLE (l.line * 128 + o) b =
          ((s.mem.readLE (l.line * 128 + o) b + ((l.adds.filter fun a => a.1 == o).map Prod.snd).sum : Int) % 2 ^ (8 * b)).toNat) ∧
        ∀ a, a < l.line * 128 ∨ l.line * 128 + 128 ≤ a → t.mem.read a = s.mem.read a) ∧
    (let sl := s.slices.get ch Slice.reset
     let hashes := [0x9E37_79B1, 0x85EB_CA77, 0xC2B2_AE3D].map fun m => x * m % 2 ^ 32 / 2 ^ 19
     (x * 128 < 0x60_0000_0000 → lineChannel x = ch → ∃ t : State, exec (.mscAccess ch x) s = .next t ∧ t.mem = s.mem ∧
       (let sl' := t.slices.get ch Slice.reset
        sl'.count = sl.count + 1 ∧
        (if x ∈ sl.lines then sl'.lines = sl.lines ∧ sl'.filter = sl.filter
         else if ∀ h ∈ hashes, sl.filter.getLsbD h = true then x ∈ sl'.lines ∧ sl'.filter = sl.filter
         else sl'.lines = sl.lines ∧ ∀ i < 8192, sl'.filter.getLsbD i = (sl.filter.getLsbD i || hashes.contains i))) ∧
       t.agenda = s.agenda ++ if sl.count + 1 = 2 ^ 20 then [.mscFilterClear ch] else []) ∧
     (2 ^ 20 ≤ sl.count → exec (.mscFilterClear ch) s =
       .next { s with slices := s.slices.set ch { sl with filter := 0, count := 0 } }))

/-! ### The matrix unit (spec/11) -/

/-- MATT (R274): the grant is as large as the request and the free rows allow, at the lowest place, its rows zero in every tile; MDET
(R275) frees it. MDRAIN and MLDACC (R279, R278 Table 8), with a row pitch or with the offsets of a register: each enabled column of
each row. -/
def Obligations.MatrixGrantsAndMoves : Prop :=
  (∀ (f : Fields) (s : State), s.th.live = true → featHas s 3 = true →
    let c := s.th.clusterNo
    let a : Word := match f.imm with
      | some i => i.signExtend 64
      | none => s.th.getS f.a
    let free (k : Nat) : Prop := (s.freeBlocks c).getD k false = true
    (Reads s (regsA f) → 1 ≤ a.toNat → a.toNat ≤ 128 → s.th.grows = 0 → ∃ b g : Nat,
      let u := (s.cluster c).zeroRows (8 * b) (8 * g)
      g ≤ (a.toNat + 7) / 8 ∧ b + g ≤ 16 ∧ (∀ k < g, free (b + k)) ∧
      (g < (a.toNat + 7) / 8 → ∀ m, m + g < 16 → ∃ k ≤ g, ¬ free (m + k)) ∧
      (if g = 0 then b = 0 else ∀ m < b, ∃ k < g, ¬ free (m + k)) ∧
      (∀ e, e ∈ u.acc ↔ e ∈ (s.cluster c).acc ∧ ¬ (8 * b ≤ accRow e.1 ∧ accRow e.1 < 8 * b + 8 * g)) ∧
      exec (.matt f) s = doneWith s ({ s.setCluster c u with
        th := { s.th with mgrant := BitVec.ofNat 64 (8 * b * 256 + 8 * g) } }.put f.d (BitVec.ofNat 64 (8 * g)))) ∧
    (s.th.mmaRun = [] → (∀ n < 16, ((s.part s.th.part).chans.getD n Channel.reset).st ≠ .running) →
      exec (.mdet f) s = doneWith s { s with th := { s.th with mgrant := 0 } })) ∧
  ∀ (f : Fields) (s : State), MatrixReady s → Quiet s → VecReady s f → s.MemOk →
    let code := f.var.toNat % 8
    let ix := f.var.getLsbD 3
    let z := if code = 0 then 4 else if code = 4 then 1 else 2
    let c := (s.th.getS f.c).toNat
    let row0 := bits c 23 16
    let col0 := bits c 15 0
    let vl := s.vl
    let at_ (k i : Nat) : Word := s.th.getS f.a +
      (if ix then BitVec.ofNat 64 (s.elt f.b 32 k) else BitVec.ofNat 64 k * s.th.getS f.b) + BitVec.ofNat 64 (i * z)
    let r0 := bits s.th.eprog.toNat 31 16
    let c0 := bits s.th.eprog.toNat 15 0
    let doing := (List.range s.th.rows).flatMap fun k => ((List.range vl).filter fun i =>
      s.th.enabled f.m f.mn i && (decide (r0 < k) || r0 == k && decide (c0 ≤ i))).map fun i => (k, i)
    let key (e : Nat × Nat) : Nat := accKey f.d.toNat (s.th.gbase + row0 + e.1) (col0 + e.2)
    let x (e : Nat × Nat) : Nat := (s.entry f.d.toNat (row0 + e.1) (col0 + e.2)).toNat
    let int : Int := 2 ^ (8 * z - 1)
    let outInt (e : Nat × Nat) : Int := max (-int) (min (int - 1) (patInt 32 false (x e)))
    let rm := s.th.rm f.rnd
    let out (e : Nat × Nat) : FRes := if code = 0 then (x e, 0) else if code = 1 then fp16.ofVal rm (fp32.decode (x e))
      else if code = 2 then bf16.ofVal rm (fp32.decode (x e)) else (pattern (8 * z) (outInt e), 0)
    let sat := doing.any fun e => decide (3 ≤ code) && outInt e != patInt 32 false (x e)
    let m (e : Nat × Nat) : Nat := s.bytes (at_ e.1 e.2) z
    let into (e : Nat × Nat) : FRes := if code = 0 then (m e, 0) else if code = 1 then fp32.ofVal .rne (fp16.decode (m e))
      else if code = 2 then fp32.ofVal .rne (bf16.decode (m e)) else (pattern 32 (patInt (8 * z) false (m e)), 0)
    let flags (r : Nat × Nat → FRes) : Word := s.th.fflags ||| (doing.foldl (fun y e => y ||| (r e).2) (0 : Flags)).setWidth 64
    Reads s (f.a :: f.c :: if ix then [] else [f.b]) → (ix = true → 4 * s.th.rows ≤ s.rbytes) → code < 5 → s.th.sew = 8 * z →
    0 < s.th.grows → row0 + s.th.rows ≤ s.th.grows → col0 + vl ≤ 256 →
    (∀ k < s.th.rows, ∀ i < vl, s.th.enabled f.m f.mn i = true → InHbm (at_ k i) z) →
    ((∀ e ∈ doing, s.th.enables &&& (out e).2 = 0) →
      let cells := doing.map fun e => (at_ e.1 e.2, (out e).1)
      exec (.mdrain f) s = doneWith s { s.stores z cells with
        th := { s.th.finishV with fflags := flags out, vxsat := if sat then s.th.vxsat ||| 1 else s.th.vxsat } } ∧
      ∀ a, (∀ c ∈ cells, a < c.1.toNat ∨ c.1.toNat + z ≤ a) → SameByte s (s.stores z cells) a) ∧
    ∃ u : Cluster, exec (.mldacc f) s = doneWith s { s.setCluster s.th.clusterNo u with
        th := { s.th.finishV with fflags := flags into } } ∧
      EntriesAre (s.cluster s.th.clusterNo) u (fun k => (doing.find? fun e => key e == k).map fun e => BitVec.ofNat 32 (into e).1)

/-- MMA (R276) and MMAS (R278), whose compressed elements stand at the places their metadata name with +0 between; and the finish that
adds their flags to FFLAGS and VXSAT (R277, R101). -/
def Obligations.MatrixMultiply : Prop :=
  ∀ (f : Fields) (s : State) (rA rB : Option TRec) (cls : OpClass), MatrixReady s → Quiet s → Reads s [f.a, f.b, f.c] →
    let a := s.th.getS f.a
    let b := s.th.getS f.b
    let hA := s.shape a
    let hB := s.shape b
    let K := s.th.vl
    let M := hA.rows
    let N := hB.cols
    let col (j : Nat) := (List.range K).map fun k => s.operand hB rB k j j hB.rows k
    let byte (i q : Nat) : Word := s.th.getS f.c + BitVec.ofNat 64 (i * ((K + 7) / 8) + q / 2)
    let nibble (i q : Nat) : Nat := s.bytes (byte i q) 1 / 16 ^ (q % 2) % 16
    let place (i e : Nat) : Nat := 4 * (e / 2) + (if e % 2 = 0 then nibble i (e / 2) % 4 else nibble i (e / 2) / 4)
    InHbm a 64 → InHbm b 64 → opClass hA.efmt = some cls →
    (ShapesOk s hA hB rA rB false (fun _ e => e) →
      (K = 0 → exec (.mma f) s = doneWith s s) ∧
      (0 < K → MatrixRuns (.mma f) s f cls M N (fun i => (List.range K).map fun k => s.operand hA rA i k i hA.cols k) col)) ∧
    (ShapesOk s hA hB rA rB true place →
      (∀ i < M, ∀ q < K / 4, InHbm (byte i q) 1 ∧ nibble i q % 4 < nibble i q / 4) →
      (K = 0 → exec (.mmas f) s = doneWith s s) ∧
      (0 < K → MatrixRuns (.mmas f) s f cls M N (fun i => (List.range K).map fun k =>
        ((List.range (K / 2)).find? fun e => place i e == k).elim (.num false 0 0) fun e => s.operand hA rA i e i hA.cols k) col)) ∧
    ∀ (k : Nat) (fl : Flags) (sat : Bool) (rest : List (BitVec 5 × Bool)),
      let t := s.thread k
      exec (.matrixFinish k) s = .next (if t.mmaRun = [] then s else s.setThread k t.matrixFinish) ∧
      (t.mmaRun = (fl, sat) :: rest → t.matrixFinish = { t with
        mmaRun := rest, fflags := t.fflags ||| fl.setWidth 64, vxsat := if sat then t.vxsat ||| 1 else t.vxsat
        wait := if t.wait = some .matrix then none else t.wait })

/-- WSET (R280) and WDEC (R281): each active element is the binary8 code of a weight of the window's record, with its flags. ZENC (R284)
hands its job to Zinnia. ZINNIA_JOB (R284): the oldest job of the die has its next block encoded: the stream among its neighbours'
bits, which keep, and its scale byte (R269), the least of R282; the last block gives NBLK to the register. ZENC_FAULT_TAKEN (R366). -/
def Obligations.TrellisAndZinnia : Prop :=
  (∀ (f : Fields) (s : State), Quiet s → s.th.live = true →
    let ea := s.addr f
    let a := s.th.getS f.a
    let b := s.th.getS f.b
    let wd := s.th.w.getD f.a.toNat {}
    (featHas s 4 = true → s.th.vectorHere = true → Reads s (regsAB f) → InHbm ea 64 → (TRec.ofNat (s.bytes ea 64)).isSome = true →
      exec (.wset f) s = doneWith s { s with
        th := { s.th with w := s.th.w.setIfInBounds f.d.toNat ⟨true, BitVec.ofNat 512 (s.bytes ea 64), ea⟩ } }) ∧
    (∀ r, featHas s 4 = true → VecReady s f → Reads s [f.b] → s.th.sew = 8 → s.gregs = 1 → f.d.toNat < 32 → wd.isOpen = true →
      TRec.ofNat wd.record.toNat = some r → (∀ i < s.vl, s.todo f 8 i = true → WeightInHbm r (b.toNat + i)) →
      NoFlagTrap s (s.todo f 8) (fun i => (s.weightAt r (b.toNat + i)).2) →
      VecRuns (.wdec f) s f 8 1 (fun i => (s.weightAt r (b.toNat + i)).1) (fun _ => false) (fun i => (s.weightAt r (b.toNat + i)).2)) ∧
    (Reads s [f.a, f.b] → a.toNat % 4 = 0 → InHbm b 64 → (TRec.ofNat (s.bytes b 64)).isSome = true →
      exec (.zenc f) s = doneWith s { s with
        zjobs := [⟨s.cur, s.th.part, false, s.th.clusterNo, f.d, a, BitVec.ofNat 512 (s.bytes b 64), b, 0⟩]
        th := { s.th with zenc := if f.d = 0 then s.th.zenc else s.th.zenc ++ [f.d] } })) ∧
  (∀ (die : Nat) (s : State) (pre post : List ZJob) (j : ZJob) (r : TRec), s.zjobs = pre ++ j :: post → (∀ x ∈ pre, x.part / 8 ≠ die) →
    j.part / 8 = die → TRec.ofNat j.data.toNat = some r → j.user = false → (s.part j.part).ptroot.getLsbD 0 = false → PlainMem s →
    s.MemOk → (s.thread j.key).vldas = [] →
    (∀ n < 16, ((s.part j.part).chans.getD n Channel.reset).st ≠ .running) →
    let k := j.block
    let at_ (i : Nat) : Word := j.tgt + BitVec.ofNat 64 (4 * (k * r.tr.B + i))
    let targets := (List.range r.tr.B).map fun i => fp32.decode (s.bytes (at_ i) 4)
    let lo := (r.streamBytes k (k + 1)).1
    let hi := (r.streamBytes k (k + 1)).2
    let sh := k * r.tr.bits % 8
    (∀ i < r.tr.B, InHbm (at_ i) 4) → (∀ x ∈ targets, ∃ n m e, x = FVal.num n m e) →
    hi ≤ 0x60_0000_0000 → r.scl + k < 0x60_0000_0000 → (r.scl + k < lo ∨ hi ≤ r.scl + k) →
    ∃ t : State, exec (.zinniaJob die) s = .next t ∧
      (∀ b < 8 * (hi - lo), (t.mem.readLE lo (hi - lo)).testBit b = if sh ≤ b ∧ b < sh + r.tr.bits then
        (encodeBlock r.tr targets).2.testBit (b - sh) else (s.mem.readLE lo (hi - lo)).testBit b) ∧
      t.mem.read (r.scl + k) = BitVec.ofNat 8 (encodeBlock r.tr targets).1 ∧
      (∀ a, a ≠ r.scl + k → (a < lo ∨ hi ≤ a) → t.mem.read a = s.mem.read a) ∧
      t.zjobs = pre ++ (if k + 1 < r.nblk then { j with block := k + 1 } :: post else post) ∧
      (¬ k + 1 < r.nblk → (s.thread j.key).live = true → (s.thread j.key).zenc.contains j.reg = true → j.reg ≠ 0 →
        (t.thread j.key).getS j.reg = BitVec.ofNat 64 r.nblk)) ∧
  (∀ (t : Trellis) (targets : List FVal), (∀ x ∈ targets, ∃ n m e, x = FVal.num n m e) →
    let e := (encodeBlock t targets).1
    let fits (e : Nat) : Prop := ∀ x ∈ targets, (unitInt x).natAbs ≤ 510 * 2 ^ (e + 33)
    ((∀ x ∈ targets, unitInt x = 0) → e = 0) ∧
    (¬ (∀ x ∈ targets, unitInt x = 0) → e ≤ 254 ∧ (fits e ∨ e = 254) ∧ ∀ e' < e, ¬ fits e')) ∧
  ∀ (k code n pa : Nat) (addr : Word) (r : BitVec 6) (l : List (Nat × Word × BitVec 6 × Nat × Nat)) (s : State),
    (s.thread k).zfault = (code, addr, r, n, pa) :: l → (s.thread k).live = true → (s.thread k).inGroupWait = false →
    let u := s.select k
    let th : Thread := { (u.th.zencDone r 0).setS r (BitVec.ofNat 64 n) with zfault := l, wait := none, trap := none }
    -- the word not yet issued keeps what it has done
    let at_ : Resume := u.th.trap.elim (u.th.resume.getD ⟨false, false, false⟩) fun p => ⟨p.slot1, p.cause.vpart, p.cause.tpart⟩
    exec (.zencFaultTaken k) s = .next (if u.finishing = true then s else
      (deliver { code := code, xval := addr, pa := pa, vpart := at_.vpart, tpart := at_.tpart } at_.slot1 { u with th := th }).select s.cur)

/-! ### Traps (spec/19) -/

/-- TRAP and BRK (R185, R186) take their causes; XRET (R187, R351), once none of the thread's accesses is under way (R372), takes the
level, the pc and the progress the trap registers hold and clears INH; at user level it raises 0x031. Taking an exception (R350): XCAUSE,
XPC, XVAL and XSTAT with INH, the level before and SLOT; the level is supervisor and the pc is XVEC. With INH = 1 at supervisor level the
slot stops and the monitor receives 0x1C1. While work runs that R348 lets finish the trap waits, and is taken as the work is over. A
completed word raises 0x1C4 where DBG.WSTEP was on as it began and no handler runs: which word that is, is the model's reading of R359
(log 17). -/
def Obligations.Traps : Prop :=
  (∀ (f : Fields) (s : State), s.th.live = true →
    let x := s.th.xstat
    (Reads s (regsA f) →
      exec (.trap f) s = trapsWith s (0x1E0 + (match f.imm with
        | some i => i.toNat
        | none => (s.th.getS f.a).toNat) % 32) 0 ∧
      exec (.brk f) s = trapsWith s 0x1C2 (match f.imm with
        | some i => i.setWidth 64
        | none => s.th.getS f.a &&& 0xFFFF)) ∧
    (s.th.level = .user → exec (.xret f) s = trapsWith s 0x031 0) ∧
    (s.th.level ≠ .user → s.th.vldas = [] → s.th.loads = [] → CanRelease s → exec (.xret f) s = .next { s with chosen := .none, th := { s.th with
      xstat := x &&& ~~~8, pc := s.th.xpc, wait := none, resume := some ⟨x.getLsbD 0, x.getLsbD 1, x.getLsbD 2⟩
      level := if bits x.toNat 5 4 = 0 then .user else if bits x.toNat 5 4 = 1 then .supervisor else .monitor } })) ∧
  ∀ (s : State) (code : Nat) (xval : Word), code < 512 → ∃ t : State, trapsWith s code xval = .next t ∧
    (code / 32 ≠ 5 → t.log = s.log) ∧
    (s.finishing = true → t = { s with chosen := .none, log := t.log, th := { s.th with
      trap := some ⟨{ code := code, xval := xval }, s.th.resumeSlot1⟩ } }) ∧
    (s.finishing = false → s.th.level = .user ∨ s.th.level = .supervisor ∧ s.th.inh = false →
      t = { s with chosen := .none, log := t.log, th := { s.th with
        xcause := BitVec.ofNat 64 code, xpc := s.th.pc &&& ~~~7, xval := xval
        xstat := BitVec.ofNat 64 (b2n s.th.resumeSlot1 + 8 + 16 * if s.th.level = .user then 0 else 1)
        level := .supervisor, pc := (s.part s.th.part).xvec &&& ~~~7, resume := none } }) ∧
    (s.finishing = false → s.th.level = .supervisor → s.th.inh = true →
      let c := s.th.coreNo
      let bit : BitVec 8 := BitVec.ofNat 8 (2 ^ s.th.slot)
      t = { (s.setCore c { s.core c with stop := (s.core c).stop ||| bit, stopped := (s.core c).stopped ||| bit }) with
        chosen := .none, log := t.log, monitor := s.monitor ++ [⟨0x1C1, code, s.cur⟩] }) ∧
    -- the trap that waited, once the work is over
    (∀ p : Pending, s.th.trap = some p → p.cause.code < 512 → s.finishing = false → s.th.level = .user ∨ s.th.level = .supervisor ∧ s.th.inh = false →
      let v := (runMove (.trap s.cur) s).th
      v.xcause = BitVec.ofNat 64 p.cause.code ∧ v.xpc = s.th.pc &&& ~~~7 ∧ v.xval = p.cause.xval ∧ v.xstat.getLsbD 0 = p.slot1 ∧
        v.xstat.getLsbD 1 = p.cause.vpart ∧ v.xstat.getLsbD 2 = p.cause.tpart ∧ v.inh = true ∧ v.level = .supervisor ∧ v.trap = none ∧
        v.pc = (s.part s.th.part).xvec &&& ~~~7 ∧ v.s = s.th.s) ∧
    ∀ (u : State) (npc : Word), u.finishing = false → s.th.dbg.getLsbD 1 = true → s.th.inh = false → u.th.inh = false → u.th.level ≠ .monitor →
      let v := (complete s npc u).th
      v.xcause = 0x1C4 ∧ v.xpc = npc &&& ~~~7 ∧ v.level = .supervisor ∧ v.s = u.th.s ∧ v.pc = (u.part u.th.part).xvec &&& ~~~7

/-! ### Lupin (spec/12) -/

/-- CPROG (R293), CGO (R294, R289), CWAIT (R295) and CKILL (R296) on a channel of the thread's partition, with translation off. -/
def Obligations.ChannelWords : Prop :=
  ∀ (f : Fields) (s : State), s.th.live = true → Quiet s → s.MemOk →
    let p := s.th.part
    let n := f.d.toNat
    let c := s.chan p n
    let ea := s.addr f
    let b := s.th.getS f.b
    let num : Word := BitVec.ofNat 64 n
    let x := s.bytes ea 128
    let rec0 : Channel := { Channel.reset with st := .loaded, record := BitVec.ofNat 1024 x, cwm := c.cwm }
    let aux : Word := BitVec.ofNat 64 rec0.aux
    let new : Channel := if rec0.fn = 2 ∨ rec0.fn = 3 then { rec0 with func := BitVec.ofNat 512 (s.bytes aux 64) } else rec0
    n < 16 →
    (Reads s (regsAB f) → InHbm ea 128 → (rec0.fn = 2 ∨ rec0.fn = 3 → InHbm aux 8 ∧ aux.toNat + 64 ≤ 0x60_0000_0000) →
      exec (.cprog f) s = if rec0.broken = true ∨ new.funcBroken = true then trapsWith s (0x140 + 4 * rec0.fn) num
        else doneWith s (s.setChan p n new)) ∧
    (c.st ≠ .loaded → exec (.cgo f) s = trapsWith s (0x141 + 4 * c.fn) num) ∧
    (Reads s [f.b] → c.st = .loaded → (c.fn = 3 → selaccInside s.th c = true) →
      (∀ ea ∈ c.srcTouch ++ c.dstTouch, ea.toNat < 0x60_0000_0000) → b.toNat % 32 = 0 → b.toNat + 32 ≤ 0x60_0000_0000 →
      let go : Channel := { c with
        st := .running, done := 0, counts := [], edges := [], cwm := BitVec.ofNat 64 c.range.1, dlo := c.range.1, dhi := c.range.2
        owner := s.cur, user := false, cl := s.th.clusterNo, crec := b, xl := false, pages := []
        grant := (s.th.clusterNo, s.th.gbase, s.th.grows), whole := false, fault := none, paused := false }
      let t := s.setChan p n { go with whole := go.overlaps s }
      (c.total ≠ 0 → exec (.cgo f) s = doneWith s t) ∧
      (c.total = 0 → ∃ u : State, exec (.cgo f) s = doneWith s u ∧ ChannelEnded t u p n 0 0 ∧
        SameBut s u (if b = 0 then [] else [(b.toNat, 32)]))) ∧
    (Reads s [f.b] → f.a.toNat < 16 →
      let c := s.chan p f.a.toNat
      exec (.cwait f) s = doneWith s (s.put f.d c.cwm)) ∧
    (c.st = .idle → exec (.ckill f) s = doneWith s s) ∧
    (c.st = .loaded → exec (.ckill f) s = doneWith s (s.setChan p n (c.idle c.cwm))) ∧
    ∀ (s : State) (n : Nat),
      let c := s.chan s.th.part n
      s.th.live = true → n < 16 → c.st = .running →
      (Reads s [f.b] → f.a.toNat = n → exec (.cwait f) s = if c.cwm.toNat ≤ (s.th.getS f.b).toNat then
          .next (waitFor (.channel s.th.part n (s.th.getS f.b)) s)
        else doneWith s (s.put f.d c.cwm)) ∧
      (f.d.toNat = n → PlainMem s → s.MemOk → c.xl = false → c.user = false → (c.crec ≠ 0 → InHbm c.crec 32) →
        c.dhi ≤ 0x60_0000_0000 →
        ∃ t : State, exec (.ckill f) s = doneWith s t ∧ (t.chan s.th.part n).st = .idle ∧ (t.chan s.th.part n).cwm = c.cwm ∧
          SameBut s t ((c.cwm.toNat, c.dhi - c.cwm.toNat) :: if c.crec = 0 then [] else [(c.crec.toNat, 32)]) ∧
          (c.crec ≠ 0 → t.mem.readLE c.crec.toNat 32 =
            recordOf 4 0 0 ((if c.fn = 2 ∨ c.fn = 3 then c.done * c.cnt 0 else c.done) % 2 ^ 64) (c.done % 2 ^ 64)))

/-- LUPIN_COPY, LUPIN_FILL and LUPIN_CONV (R286): one iteration writes its destination bytes and no others; two iterations that read
parts of one aligned 8-byte word read it as the first found it (R86); the watermark moves to the lowest byte still to be written for the
first time, and after the last iteration the channel ends (R289). LUPIN_COMPRESS (R287): the nonzeros of a row and
their columns, then the row pointers. LUPIN_SELACC (R288): the header of a row and its first KMAX candidates. CHANNEL_FAULT (R381). -/
def Obligations.LupinSteps : Prop :=
  (∀ (p n : Nat) (s : State), n < 16 → PlainMem s → s.MemOk →
    let c := s.chan p n
    let src := c.srcAt c.done
    let dst := c.dstAt c.done
    let last := c.done + 1 = c.total
    let rec_ := if last ∧ c.crec ≠ 0 then [(c.crec.toNat, 32)] else []
    let goes (i : Instr) (len val : Nat) (kept : List (Nat × Nat)) : Prop := dst + len ≤ 0x60_0000_0000 →
      (c.crec ≠ 0 → InHbm c.crec 32 ∧ (dst + len ≤ c.crec.toNat ∨ c.crec.toNat + 32 ≤ dst)) →
      ∃ t : State, exec i s = .next t ∧ t.mem.readLE dst len = val % 2 ^ (8 * len) ∧ SameBut s t ((dst, len) :: rec_) ∧
        (if last then ChannelEnded s t p n c.total 0
         else (t.chan p n = { c with done := c.done + 1, counts := [], cwm := c.mark (c.done + 1), edges := (t.chan p n).edges } ∧
          ∀ e ∈ kept, (t.chan p n).edges.find e.1 = some e.2))
    let word := (c.edges.find (src / 8)).getD (s.mem.readLE (8 * (src / 8)) 8)
    c.done < c.total →
    (c.Steps 0 → c.Fresh s → 0 < c.clen → src + c.clen ≤ 0x60_0000_0000 →
      goes (.lupinCopy p n) c.clen (s.mem.readLE src c.clen) []) ∧
    (c.Steps 4 → 0 < c.clen → goes (.lupinFill p n) c.clen (packElems 8 (fun j => c.aux / 2 ^ (8 * (j % 8)) % 256) c.clen) []) ∧
    (c.Steps 1 → src % c.ssize = 0 → dst % c.dsize = 0 → src + 8 ≤ 0x60_0000_0000 →
      (c.Fresh s → goes (.lupinConv p n) c.dsize (c.conv (s.mem.readLE src c.ssize)) []) ∧
      (c.ssize = 4 → goes (.lupinConv p n) c.dsize (c.conv (word / 2 ^ (32 * (src / 4 % 2)) % 2 ^ 32)) [(src / 8, word)])) ∧
    -- below the watermark every byte an iteration writes stands written (offsets that stay inside the address space); at it, one does not
    ((c.fn = 0 ∨ c.fn = 1 ∨ c.fn = 4) →
      (∀ k < c.total, 0 ≤ (c.dst : Int) + (c.offsets k).2 ∧ (c.dst : Int) + (c.offsets k).2 + c.writeLen ≤ 2 ^ 64) →
      let mark := (c.mark (c.done + 1)).toNat
      let written (a : Nat) : Prop := ∃ k ≤ c.done, c.dstAt k ≤ a ∧ a < c.dstAt k + c.writeLen
      (∀ k < c.total, ∀ j < c.writeLen, c.dstAt k + j < mark → written (c.dstAt k + j)) ∧
      (mark = c.dhi ∨ ¬ written mark ∧ ∃ k < c.total, c.dstAt k ≤ mark ∧ mark < c.dstAt k + c.writeLen))) ∧
  ∀ (p n : Nat) (s : State), n < 16 → PlainMem s → s.MemOk →
    let c := s.chan p n
    let z := c.ssize
    let row := ((List.range (c.cnt 0)).map fun k => (k, s.mem.readLE (c.cellAt c.done k) z)).filter fun e => !c.isZero e.2
    let first := c.counts.sum
    let vals := (c.dst + first * z, row.length * z)
    let cols := (c.cidx + 4 * first, 4 * row.length)
    let ptrs := (c.rptr, 4 * (c.counts.length + 1))
    let apart (a b : Nat × Nat) : Prop := a.1 + a.2 ≤ b.1 ∨ b.1 + b.2 ≤ a.1
    let inHbm (a : Nat × Nat) : Prop := a.1 + a.2 ≤ 0x60_0000_0000
    let recOk (a : Nat × Nat) : Prop := c.crec ≠ 0 → InHbm c.crec 32 ∧ apart a (c.crec.toNat, 32)
    let rec_ := if c.crec = 0 then [] else [(c.crec.toNat, 32)]
    (c.Steps 2 → c.Fresh s → c.done < c.total → (∀ k < c.cnt 0, c.cellAt c.done k % z = 0 ∧ c.cellAt c.done k + z ≤ 0x60_0000_0000) →
      first + row.length ≤ c.nnzmax → c.dst % z = 0 → c.cidx % 4 = 0 → inHbm vals → inHbm cols → apart vals cols →
      ∃ t : State, exec (.lupinCompress p n) s = .next t ∧ SameBut s t [vals, cols] ∧
        (∀ i < row.length, t.mem.readLE (vals.1 + i * z) z = ((row.map Prod.snd).getD i 0) % 2 ^ (8 * z) ∧
          t.mem.readLE (cols.1 + 4 * i) 4 = ((row.map Prod.fst).getD i 0) % 2 ^ 32) ∧
        t.chan p n = { c with
          done := c.done + 1, counts := c.counts ++ [row.length], cwm := BitVec.ofNat 64 c.dlo, edges := (t.chan p n).edges }) ∧
    (c.Steps 2 → c.total ≤ c.done → c.rptr % 4 = 0 → inHbm ptrs → recOk ptrs →
      ∃ t : State, exec (.lupinCompress p n) s = .next t ∧ SameBut s t (ptrs :: rec_) ∧
        (∀ r ≤ c.counts.length, t.mem.readLE (c.rptr + 4 * r) 4 = (c.counts.take r).sum % 2 ^ 32) ∧
        ChannelEnded s t p n c.done 0) ∧
    (let cl := s.cluster c.grant.1
     let entries := (List.range (c.cnt 0)).map fun k => (cl.accGet (accKey c.tile (c.grant.2.1 + c.row0 + c.done) (c.col0 + k))).toNat
     let m := rowMax entries
     let cands := candidates c.logp entries
     let pairs := cands.take c.kmax
     let h := c.headAt c.done
     let area := (h, 32 + 8 * pairs.length)
     let last := c.done + 1 = c.total
     c.Steps 3 → c.done < c.total → cl.accPoison = [] → h % 16 = 0 → inHbm area → (last → recOk area) →
     ∃ t : State, exec (.lupinSelacc p n) s = .next t ∧ SameBut s t (area :: if last then rec_ else []) ∧
       t.mem.readLE h 4 = cands.length % 2 ^ 32 ∧ t.mem.readLE (h + 4) 4 = m % 2 ^ 32 ∧ t.mem.readLE (h + 8) 8 = 0 ∧
       (∀ l : List Int, (cands.mapM fun e => massOf m e.2) = some l → t.mem.readLE (h + 16) 16 = exactWord l.sum) ∧
       (∀ i < pairs.length, t.mem.readLE (h + 32 + 8 * i) 4 = (pairs.map Prod.fst).getD i 0 % 2 ^ 32 ∧
         t.mem.readLE (h + 36 + 8 * i) 4 = (pairs.map Prod.snd).getD i 0 % 2 ^ 32) ∧
       (if last then ChannelEnded s t p n c.total 0
        else t.chan p n = { c with done := c.done + 1, counts := [], cwm := BitVec.ofNat 64 c.dlo })) ∧
    (∀ code, c.st = .running → c.fault = some code → ∃ t : State, exec (.channelFault p n) s = .next t ∧ (t.chan p n).st = .idle ∧
      (t.chan p n).cwm = c.cwm ∧ (t.chan p n).fault = none) ∧
    ((c.st ≠ .running ∨ c.fault = none) → exec (.channelFault p n) s = .next s)

/-! ### Tiering (spec/03, spec/12, spec/21) -/

/-- LHINT (R297, R71): priority and NEXT of every tiered page that overlaps the range. LSTEP: STEP, and the partition's step when larger.
LPREF (R298): the pages of the capacity tier, one prefetch of at most 16, and its end; a further one waits. VERBENA_DEMOTE and VERBENA_PROMOTE (R72, R298):
the page and the frame of a move; TIER_NO_ROOM (R73); MIGRATION_COPY and MIGRATION_SWITCH (R373): lines in rising order, marked ones
again, then the new frame with MIG clear and the translation dropped. That no page whose NEXT has passed is promoted by Verbena's own
accord is the model's choice (log 27). -/
def Obligations.Tiering : Prop :=
  (∀ (f : Fields) (s : State), Reads s [f.a, f.c] →
    let p := s.th.part
    let q := s.part p
    let a := s.th.getS f.a
    let c := (s.th.getS f.c).toNat
    let overlaps (e : TlbEntry) : Bool := decide (0 < c) && decide (e.va < a.toNat + c) && decide (a.toNat < e.va + pageBytes e.size)
    (Reads s [f.b] → ∃ q' : Partition, exec (.lhint f) s = doneWith s (s.setPart p q') ∧ q' = { q with hints := q'.hints, stuck := q'.stuck } ∧
      (∀ va, q'.hint va = if (s.tiered p).any fun e => e.va == va && overlaps e then (f.var.toNat % 8, (s.th.getS f.b).toNat) else q.hint va) ∧
      q'.stuck = q.stuck.filter fun va => !((s.tiered p).any fun e => e.va == va && overlaps e)) ∧
    exec (.lstep f) s = doneWith s ({ s with th := { s.th with step := a } }.setPart p { q with
      tstep := if q.tstep.toNat < a.toNat then a else q.tstep }) ∧
    (let bound := f.var.getLsbD 0
     let g := f.b.toNat
     let pages := ((s.tiered p).filter fun e => overlaps e && q.isSlow e).map TlbEntry.va
     (bound = true → handleV (s.th.handle g) = false → exec (.lpref f) s = trapsWith s 0x129 0) ∧
     ((bound = true → handleV (s.th.handle g) = true) →
       (16 ≤ s.th.prefs.length → exec (.lpref f) s = .next (waitFor .prefetchRoom s)) ∧
       (s.th.prefs.length < 16 → pages = [] → exec (.lpref f) s = doneWith s s) ∧
       (s.th.prefs.length < 16 → pages ≠ [] → ∃ id, (∀ x ∈ s.th.prefs, x.id ≠ id) ∧
         exec (.lpref f) s = doneWith s ({ s with
           th := { s.th with prefs := s.th.prefs ++ [({ id := id, handle := if bound then some g else none, pages := pages } : Prefetch)] } }.setPart p { q with
             prefQ := if s.cur ∈ q.prefQ then q.prefQ else q.prefQ ++ [s.cur] })))) ∧
    ∀ (k id : Nat) (x : Prefetch),
      let t := s.thread k
      x ∈ t.prefs → x.id = id → (∀ va ∈ x.pages, s.slowPage t.part va = none) →
      ∃ u : State, exec (.lprefComplete k id) s = .next u ∧ (u.thread k).prefs = t.prefs.filter (fun y => y.id != id) ∧
        (u.thread k).s = t.s ∧ (u.thread k).pc = t.pc ∧ u.mem = s.mem ∧
        (u.thread k).wait = (match t.wait with
          | some (.prefetch _) | some .prefetchRoom => none
          | w => w)) ∧
  ∀ (p : Nat) (s : State),
    let q := s.part p
    let low := bits q.tmark.toNat 31 0
    let horizon := bits q.tmark.toNat 63 32
    let moving (va : Nat) : Bool := q.migs.any fun g => g.va == va
    let room (lo len : Nat) (e : TlbEntry) : Prop := s.freeFrames p lo len e.size ≠ []
    let canGo (e : TlbEntry) : Prop :=
      e ∈ s.tiered p ∧ q.isFast e = true ∧ moving e.va = false ∧ e.va ∉ q.stuck ∧ room q.slowLo q.slowLen e
    let canCome (e : TlbEntry) : Prop :=
      e ∈ s.tiered p ∧ q.isSlow e = true ∧ moving e.va = false ∧ e.va ∉ q.stuck ∧ room q.fastLo q.fastLen e ∧
        q.tstep.toNat ≤ (q.hint e.va).2 ∧ (q.hint e.va).2 - q.tstep.toNat ≤ horizon
    (q.tvbase.getLsbD 0 = true → s.plat.linkLost = false → PlainMem s → s.MemOk →
      ((∃ e, canGo e) → s.tfreeNow p < low → ∃ (e : TlbEntry) (f : Nat) (t : State), canGo e ∧ (∀ x, canGo x → q.DemotesBy e x) ∧
        FreeFrame s p q.slowLo q.slowLen e.size f ∧ exec (.verbenaDemote p) s = .next t ∧ MoveStarted s t p e f false) ∧
      ((∃ e, canCome e) → s.prefNext p = none → ∃ (e : TlbEntry) (f : Nat) (t : State), canCome e ∧
        FreeFrame s p q.fastLo q.fastLen e.size f ∧ exec (.verbenaPromote p) s = .next t ∧ MoveStarted s t p e f true) ∧
      (∀ e, s.prefNext p = some e → room q.fastLo q.fastLen e → ∃ (f : Nat) (t : State), FreeFrame s p q.fastLo q.fastLen e.size f ∧
        exec (.verbenaPromote p) s = .next t ∧ MoveStarted s t p e f true) ∧
      ((∀ e, ¬ canGo e) → s.tfreeNow p < low → exec (.tierNoRoom p) s = .next (logError 0x180 0 (some p) 0 s))) ∧
    (¬ (q.tvbase.getLsbD 0 = true ∧ s.tfreeNow p < low) → exec (.tierNoRoom p) s = .next s) ∧
    ∀ (i : Nat) (g : Migration), q.migs[i]? = some g → s.plat.linkLost = false → s.poison = [] → s.frames = [] → s.coherent = true → NoUpdates s →
      s.unseen = [] → s.MemOk →
      let lines := pageBytes g.size / 128
      let line (m : Mem) (base l : Nat) : Nat := m.readLE (base + 128 * l) 128
      (g.copied < lines → ∃ t : State, exec (.migrationCopy p i) s = .next t ∧
        line t.mem g.dst g.copied = line s.mem g.src g.copied ∧ SameBut s t [(g.dst + 128 * g.copied, 128)] ∧
        ((t.part p).migs[i]?).map Migration.copied = some (g.copied + 1)) ∧
      (∀ l rest, lines ≤ g.copied → g.marked = l :: rest → g.src % 128 = 0 → g.src ≤ 128 * l →
        (g.src + pageBytes g.size ≤ g.dst ∨ g.dst + pageBytes g.size ≤ g.src) →
        ∃ t : State, exec (.migrationCopy p i) s = .next t ∧
        line t.mem g.dst (l - g.src / 128) = t.mem.readLE (128 * l) 128 ∧ SameBut s t [(g.dst + (128 * l - g.src), 128)] ∧
        ((t.part p).migs[i]?).map Migration.marked = some (g.marked.filter (fun x => x != l))) ∧
      (lines ≤ g.copied → g.marked.length ≤ 64 → g.src % 128 = 0 → g.entry % 8 = 0 →
        (∀ l ∈ g.marked, g.src ≤ 128 * l ∧ 128 * l < g.src + pageBytes g.size) →
        (g.src + pageBytes g.size ≤ g.dst ∨ g.dst + pageBytes g.size ≤ g.src) →
        (g.entry + 8 * runLength g.size ≤ g.dst ∨ g.dst + pageBytes g.size ≤ g.entry) → g.dst < 2 ^ 52 →
        ∃ t : State, exec (.migrationSwitch p i) s = .next t ∧
          (∀ k < runLength g.size, t.mem.readLE (g.entry + 8 * k) 8 =
            setBits (setBits (s.mem.readLE (g.entry + 8 * k) 8) 58 58 0) 51 12 (g.dst / 4096)) ∧
          (∀ l ∈ g.marked, (128 * l + 128 ≤ g.entry ∨ g.entry + 8 * runLength g.size ≤ 128 * l) →
            line t.mem g.dst (l - g.src / 128) = s.mem.readLE (128 * l) 128) ∧
          SameBut s t ((g.entry, 8 * runLength g.size) :: g.marked.map fun l => (g.dst + (128 * l - g.src), 128)) ∧
          ((t.part p).migs.map Migration.va) = (removeAt (q.migs.map Migration.va) i) ∧
          ∀ x ∈ (t.part p).tlb, x.va + pageBytes x.size ≤ g.va ∨ g.va + pageBytes g.size ≤ x.va)

/-! ### The tile hierarchy (spec/06, spec/12, spec/20, spec/22) -/

/-- TSUB and TWAIT (R307, R368): TSUB checks the tile instruction, queues it at the thread's own unit of its level, or waits while 64 are
queued; TWAIT waits until STATE is nonzero. TQTAIL and TQ_ENTRY_READ (R334 to R336, R368, R404): a tail beyond the ring sets OVF; the
device reads the entry at HEAD while its queue has room, queues it, refuses it in its record, or discards one with no valid place for
a record. An entry a loop put into Marigold's queue belongs to that loop's partition, and to it alone where a virtual function started
the loop (R335); one that a kill discarded is passed over (R398, R400). -/
def Obligations.TileSubmission : Prop :=
  (∀ (f : Fields) (s : State), Reads s [f.a] → Quiet s →
    let a := s.th.getS f.a
    let x := s.bytes a 32
    let word (k : Nat) : Word := BitVec.ofNat 64 (x >>> (64 * k))
    let l := bits x 55 53
    let d := s.th.decOf l
    let q := s.dec d
    let waits (r : WaitReason) : Out := .next (waitFor r s)
    (InHbm a 32 →
      (∀ e, decodeTile (word 0) (word 1) (word 2) (word 3) = .error e → exec (.tsub f) s = trapsWith s e.detail a) ∧
      (∀ i, decodeTile (word 0) (word 1) (word 2) (word 3) = .ok i →
        exec (.tsub f) s = if l = 0 then trapsWith s 0x1A3 a
          else if q.queue.length < 64 then doneWith s (s.setDec d { q with queue := q.queue ++
            [{ word := BitVec.ofNat 256 x, addr := a, sub := .thread s.th.part s.th.tid, part := s.th.part, user := false, phys := false,
               only := none }] })
          else waits (.tileQueue l)) ∧
      exec (.twait f) s = if x % 256 = 0 then waits (.tile a) else doneWith s (s.put f.d (BitVec.ofNat 64 x))) ∧
    (a.toNat % 32 ≠ 0 → a.toNat < 0x60_0000_0000 →
      exec (.tsub f) s = trapsWith s 0x080 a ∧ exec (.twait f) s = trapsWith s 0x080 a)) ∧
  ∀ (q : Nat) (s : State),
    let t := s.tq q
    (∀ v : Word, ∃ u : State, exec (.tqtail q v) s = .next u ∧ (∀ k, k ≠ q → u.tq k = s.tq k) ∧ u.mem = s.mem ∧
      u.tq q = if t.en = false then t
        else if 2 ^ t.size < ((v.setWidth 16 : BitVec 16) - t.head).toNat then { t with ovf := true } else { t with tail := v.setWidth 16 }) ∧
    let dev := decKey 4 0
    let y := s.dec dev
    (t.en = false ∨ t.head = t.tail ∨ 64 ≤ y.queue.length → exec (.tqEntryRead q) s = .next s) ∧
    (t.en = true → t.head ≠ t.tail → y.queue.length < 64 → (q < 8 ∨ 16 ≤ q) → t.base.getLsbD 63 = true → PlainMem s → s.MemOk →
      let a := t.base.toNat % 2 ^ 63 / 32 * 32 + 32 * (t.head.toNat % 2 ^ t.size)
      let x := s.mem.readLE a 32
      let word (k : Nat) : Word := BitVec.ofNat 64 (x >>> (64 * k))
      let crec := bits x 47 0
      let vf := 16 ≤ q
      let own (j : TileJob) : Prop := j.word = BitVec.ofNat 256 x ∧ j.sub = .queue q ∧ j.user = false ∧
        (q < 4 → j.phys = true ∧ j.only = none) ∧
        (vf → j.phys = false ∧ j.part = q - 16 ∧ j.only = some (q - 16)) ∧
        (4 ≤ q → q < 8 → j.phys = false ∧ (t.marks.find t.head.toNat = none → j.only = none) ∧
          ∀ m, t.marks.find t.head.toNat = some m → j.part = m.part ∧ j.tag = some m.tag ∧ (m.fn = 0 → j.only = none) ∧
            (1 ≤ m.fn → j.only = some m.part))
      let owner : Option Nat := if vf then some (q - 16) else if q < 4 then none
        else ((t.marks.find t.head.toNat).filter fun m => decide (1 ≤ m.fn)).map Mark.part
      let read (u : State) : Prop := (u.tq q).head = t.head + 1 ∧ u.th = s.th ∧ u.parked = s.parked
      let refused (code : Nat) : Prop := (q < 4 ∨ vf ∧ (s.part (q - 16)).ptroot.getLsbD 0 = false) → crec + 32 ≤ 0x60_0000_0000 →
        ∃ u : State, exec (.tqEntryRead q) s = .next u ∧ read u ∧ u.mem.readLE crec 32 = recordOf 2 (code + 4 * 512) 0 0 0 ∧
          SameBut s u [(crec, 32)] ∧ u.decs = s.decs ∧ (u.tq q).pend = true
      ((∃ m, t.marks.find t.head.toNat = some m ∧ m.dead = true) → ∃ u : State, exec (.tqEntryRead q) s = .next u ∧ read u ∧
        u.mem = s.mem ∧ u.decs = s.decs ∧ u.log = s.log ∧ (u.tq q).pend = t.pend) ∧
      ((∀ m, t.marks.find t.head.toNat = some m → m.dead = false) → a + 32 ≤ 0x60_0000_0000 →
      (crec % 32 ≠ 0 → ∃ u : State, exec (.tqEntryRead q) s = .next u ∧ read u ∧ u.mem = s.mem ∧ u.decs = s.decs ∧
        u.log = (logError 0x018 crec owner 0 s).log ∧ (u.tq q).pend = t.pend) ∧
      (crec % 32 = 0 →
        (s.plat.minimal = true → refused 0x1B3) ∧
        (s.plat.minimal = false →
          (∀ e, decodeTile (word 0) (word 1) (word 2) (word 3) = .error e → refused e.detail) ∧
          (∀ i, decodeTile (word 0) (word 1) (word 2) (word 3) = .ok i →
            (bits x 55 53 ≠ 4 → refused 0x1B3) ∧
            (bits x 55 53 = 4 → ∃ (u : State) (j : TileJob), exec (.tqEntryRead q) s = .next u ∧ read u ∧ own j ∧ u.mem = s.mem ∧
              u.dec dev = { y with queue := y.queue ++ [j] }))))))

/-- The split of a tile (R300, R301): the dimension chosen, the shares floor(S / h) and one more for the first S mod h children, and over
all levels leaves on healthy cores whose boxes take each index exactly once; work of a virtual function stays in its partition. -/
def Obligations.TileSplit : Prop :=
  ∀ (b : Box) (dims : List Nat), b.length = 4 → (∀ k ∈ dims, k < 4) → (∀ e ∈ b, 1 ≤ e.2) →
    let size (k : Nat) : Nat := (b.getD k (0, 1)).2
    (∀ (h k : Nat) (pre post : List Nat), 0 < h → dims = pre ++ k :: post →
      ((∀ j ∈ pre, size j < h) ∧ h ≤ size k ∨ (∀ j ∈ dims, size j < h) ∧ (∀ j ∈ pre, size j = 1) ∧ 1 < size k) →
      (splitBox dims b h).length = h ∧ ∀ j < h, (splitBox dims b h)[j]? = some
        (let n := size k / h + if j < size k % h then 1 else 0
         if n = 0 then none else some (b.set k ((b.getD k (0, 1)).1 + (j * (size k / h) + min j (size k % h)), n)))) ∧
    (∀ h, 0 < h → (∀ k ∈ dims, size k = 1 ∧ 1 < h) → splitBox dims b h = some b :: List.replicate (h - 1) none) ∧
    ∀ (s : State) (need l u : Nat) (only : Option Nat), 1 ≤ l → l ≤ 4 →
      let leaves := splitTile s need only dims l u b
      (leaves = [] ↔ healthyBelow s need only l u = []) ∧
      (leaves ≠ [] → ∀ i ∈ boxIdx b, (leaves.filter fun x => decide (i ∈ boxIdx x.box)).length = 1) ∧
      ∀ x ∈ leaves, s.coreHealthy x.core need = true ∧ (∀ i ∈ boxIdx x.box, i ∈ boxIdx b) ∧
        (3 ≤ l → ∀ p, only = some p → x.core / 40 = p)

/-- Acceptance (R299, R300, R303, R304, R368): the accepting level checks the descriptors (0x019), then Table 7 (0x1A0 + 4 × LVL) and
the healthy children (0x1A1 + 4 × LVL), then the trellis records (0x16A), TENC's against its descriptors, all before any input; a
failure is its report. Otherwise the instruction runs with its leaves, from a queue that runs up to 8 at once. -/
def Obligations.TileAcceptance : Prop :=
  ∀ (t : TileWord) (d : Nat) (job : TileJob) (rest : List TileJob) (s : State),
    let l := t.lvl.toNat
    let x := s.dec d
    ∀ c ∈ [(Instr.tmma t, 0x01), (.tewise t, 0x02), (.treduce t, 0x03), (.tconv t, 0x04), (.tcopy t, 0x05), (.tsort t, 0x06),
        (.tmerge t, 0x07), (.ttopk t, 0x08), (.tinter t, 0x09), (.tgather t, 0x0A), (.tscadd t, 0x0B), (.tsample t, 0x0C),
        (.tenc t, 0x0D)],
      let i := c.1
      let top := c.2
      let addrs := tileDescs top t
      let ds := s.tdescs addrs
      let recs := ((ds.filter fun q => q.efmt == 0x40).map TDesc.aux) ++ if top = 0x0D then [t.w3] else []
      let read (ea : Word) : BitVec 512 := BitVec.ofNat 512 (s.bytes ea 64)
      let raw := addrs.map read
      let o := tdesc ds (tileOut top ds)
      let encOk : Prop := top = 0x0D → ∃ r, TRec.ofNat (s.bytes t.w3 64) = some r ∧
        (tdesc ds 0).size 0 = r.weights ∧ (tdesc ds 1).base.toNat = r.strm
      let leaves := splitTile s (tileNeed top) job.only (if isSorted top then [3, 2, 1] else [3, 2, 1, 0]) l (d % 256) o.box
      let becomes (y : Decomposer) : Prop := ∃ u : State, exec i s = .next u ∧ u.dec d = y ∧ (∀ e, e ≠ d → u.dec e = s.dec e) ∧
        u.th = s.th ∧ u.parked = s.parked ∧ u.mem = s.mem ∧ u.chosen = .none
      let fails (raw : List (BitVec 512)) (code : Nat) : Prop := becomes (x.refused job raw rest code l (d % 256))
      s.chosen = .tile d → x.queue = job :: rest → job.Plain s → PlainMem s →
      (8 ≤ x.busy ∨ s.decPaused d = true → becomes x) ∧
      (x.busy < 8 → s.decPaused d = false → (∀ ea ∈ addrs, InHbm ea 64) →
        ((∃ q ∈ ds, q.bad = true) → fails [] 0x019) ∧
        ((∀ q ∈ ds, q.bad = false) →
          (tableOk top l t.w3 ds = false → fails raw (0x1A0 + 4 * l)) ∧
          (tableOk top l t.w3 ds = true → leaves = [] → fails raw (0x1A1 + 4 * l)) ∧
          (tableOk top l t.w3 ds = true → leaves ≠ [] → (∀ ea ∈ recs, InHbm ea 64) →
            ((∃ ea ∈ recs, TRec.ofNat (s.bytes ea 64) = none) → fails raw 0x16A) ∧
            ((∀ ea ∈ recs, (TRec.ofNat (s.bytes ea 64)).isSome = true) →
              (¬ encOk → fails raw (0x1A0 + 4 * l)) ∧
              (encOk → (∀ q ∈ ds, q.guard ≠ 0 → InHbm q.guard 8) →
                becomes { queue := rest, running := x.running ++ [⟨job, raw,
                  (ds.map fun q => if q.efmt = 0x40 then read q.aux else 0) ++ (if top = 0x0D then [read t.w3] else []),
                  leaves, [], 0, none, none, []⟩] })))))

/-- What the leaves of TMMA, TCONV, TEWISE (operations 0 to 4), TREDUCE and TCOPY write (R302, R304), for integer and floating-point
outputs; TMMA and TCONV form each output by R113. And of TSORT, TTOPK, TMERGE, TINTER and TGATHER (R304, R236 to R238), rows along
dimension 0; a row of TMERGE or TINTER out of order is the leaf's report 0x0CF or 0x0DF (R368). What an output that has scales holds, and
an operation on inputs with scales, are the model's reading of R108 (log 40). -/
def Obligations.TileLeaves : Prop :=
  (∀ (d j l top : Nat) (r : TileRun) (leaf : Leaf) (ds : List TDesc) (s : State), LeafReady s d j l top r leaf ds →
    let A := tdesc ds 0
    let B := tdesc ds 1
    let o := tdesc ds (tileOut top ds)
    let writes (v : List Nat → TOut) : Prop := LeafWrites s d j l top r leaf ds v
    let at_ (i : List Nat) (k : Nat) : Nat := i.getD k 0
    let mac (start : Bool) (xs ys : List Nat → List FVal) (i : List Nat) : TOut :=
      let old := if start then (match o.fmt with
        | .fp _ => (fp32.ofVal .rne (s.tval o i)).1
        | _ => if o.ms then o.encode (s.tval o i) [3, o.efmt] else s.telem o i) else 0
      let e := tileMac ((opClass A.efmt).getD .int8) old start (xs i) (ys i)
      match o.fmt with
      | .fp _ => .val .arith (fp32.decode e) []
      | _ => .bits e
    (top = 0x01 → writes (mac (o.func % 2 == 1)
      (fun i => (List.range (A.size 0)).map fun k => s.tval A [k, at_ i 1, at_ i 2, at_ i 3])
      (fun i => (List.range (A.size 0)).map fun k => s.tval B [at_ i 0, k, at_ i 2, at_ i 3]))) ∧
    (top = 0x04 →
      let ks := (List.range (B.size 2)).flatMap fun h => (List.range (B.size 1)).flatMap fun w => (List.range (B.size 0)).map fun c => (c, w, h)
      writes (mac false (fun i => ks.map fun k => s.tval A [k.1, at_ i 1 + k.2.1, at_ i 2 + k.2.2, 0])
        (fun i => ks.map fun k => s.tval B [k.1, k.2.1, k.2.2, at_ i 0]))) ∧
    (top = 0x02 → o.func < 5 →
      let j (i : List Nat) : List Nat := (List.range 4).map fun k => if B.size k = 1 then 0 else at_ i k
      let op := o.func
      let plain : Prop := A.ms = false ∧ B.ms = false ∧ o.ms = false
      (∀ w u, plain → o.fmt = .int w u → writes fun i =>
        let x := patInt w u (s.telem A i)
        let y := patInt w u (s.telem B (j i))
        .bits (pattern w (if op = 0 then x + y else if op = 1 then x - y else if op = 2 then x * y else if op = 3 then min x y
          else max x y))) ∧
      (∀ f, plain → o.fmt = .fp f → writes fun i =>
        let x := s.telem A i
        let y := s.telem B (j i)
        .bits (if op = 0 then f.add .rne x y else if op = 1 then f.sub .rne x y else if op = 2 then f.mul .rne x y
          else f.minmax (op == 4) x y).1) ∧
      (¬ plain → ¬ (o.efmt = 13 ∧ op = 2) → writes fun i =>
        .val .arith (tileVal op (s.tval A i) (s.tval B (j i))) [4, op, A.efmt, s.telem A i, s.telem B (j i)])) ∧
    (top = 0x03 →
      let row (i : List Nat) : List (List Nat) := boxIdx ((List.range 4).map fun k =>
        if r.job.w3.getLsbD k then (0, A.size k) else (at_ i k, 1))
      let raws (i : List Nat) : List Nat := (row i).map (s.telem A)
      let op := if o.func = 0 then 0 else o.func + 2
      let plain : Prop := A.ms = false ∧ o.ms = false
      (∀ w u, plain → o.fmt = .int w u →
        let xs (i : List Nat) : List Int := (raws i).map (patInt w u)
        (o.func = 0 → writes fun i => .bits (pattern w (xs i).sum)) ∧
        (o.func = 1 → writes fun i => .bits (pattern w ((xs i).foldl min ((xs i).headD 0)))) ∧
        (o.func = 2 → writes fun i => .bits (pattern w ((xs i).foldl max ((xs i).headD 0))))) ∧
      (∀ f, plain → o.fmt = .fp f → writes fun i => .bits
        ((reduceAll (fun x y => (if o.func = 0 then f.add .rne x y else f.minmax (o.func == 2) x y).1) (raws i)).getD 0)) ∧
      (¬ plain → writes fun i =>
        let node (x y : FVal) : FVal := o.fmt.value o.pt (o.encode (tileVal op x y) (6 :: op :: raws i))
        .val .arith ((reduceAll node ((row i).map (s.tval A))).getD (.num false 0 0)) (7 :: op :: raws i))) ∧
    (top = 0x05 →
      let sat := o.func % 2 == 1
      let plain : Prop := A.ms = false ∧ o.ms = false
      (plain → A.efmt = o.efmt → A.pt = o.pt → writes fun i => .bits (s.telem A i)) ∧
      (∀ w u v x, plain → A.efmt ≠ o.efmt → A.fmt = .int w u → o.fmt = .int v x → writes fun i =>
        .bits (pattern v (fitInt v sat x (patInt w u (s.telem A i))))) ∧
      (∀ w u v x, ¬ plain → A.fmt = .int w u → o.fmt = .int v x → writes fun i =>
        .val (.whole sat) (s.tval A i) [2, A.efmt, o.efmt, b2n sat, s.telem A i]))) ∧
  ∀ (d j l top : Nat) (r : TileRun) (leaf : Leaf) (ds : List TDesc) (s : State), LeafReady s d j l top r leaf ds →
    let A := tdesc ds 0
    let B := tdesc ds 1
    let o := tdesc ds (tileOut top ds)
    let writes (v : List Nat → TOut) : Prop := LeafWrites s d j l top r leaf ds v
    let key := o.func % 8
    let desc := o.func.testBit 3
    let row (x : TDesc) (t : List Nat) : List Nat := (List.range (x.size 0)).map fun k => s.telem x (k :: t)
    let keys (x : TDesc) (t : List Nat) : List KP := (row x t).map fun y => (y, 0)
    let nth (out : List Nat → List Nat) (i : List Nat) : TOut := .bits ((out (i.drop 1)).getD (i.headD 0) 0)
    (isSorted top = true → leaf.box.head? = some (0, o.size 0) →
      (top = 0x06 → ds.length = 2 → writes (nth fun t => (sortKP key desc (keys A t)).map Prod.fst)) ∧
      (top = 0x08 → writes (nth fun t => ((sortKP key desc (keys A t)).map Prod.fst).take (o.size 0))) ∧
      (top = 0x07 ∨ top = 0x09 →
        ((∀ t ∈ boxRows leaf.box, inOrder key desc (row A t) = true ∧ inOrder key desc (row B t) = true) →
          (top = 0x07 → writes (nth fun t => (sortKP key desc (keys A t ++ keys B t)).map Prod.fst)) ∧
          (top = 0x09 → writes (nth fun t =>
            let m := (matchKP key desc true ((row A t).length + (row B t).length + 1) (keys A t) (row B t)).map Prod.fst
            m.length :: m))) ∧
        (∀ t rest, boxRows leaf.box = t :: rest → ∀ code,
          (code = 0x0CF ∧ inOrder key desc (row A t) = false ∨
            code = 0x0DF ∧ inOrder key desc (row A t) = true ∧ inOrder key desc (row B t) = false) →
          ∃ u : State, exec (.tileLeafRun d j l) s = .next u ∧ u.mem = s.mem ∧ u.th = s.th ∧ u.parked = s.parked ∧
            ((u.dec d).running[j]?).map TileRun.report = some (some ⟨code, 0, locOf (leaf.core / 40) (leaf.core / 4 % 10) (leaf.core % 4) 0,
              o.linear (leaf.box.map Prod.fst)⟩) ∧
            ((u.dec d).running[j]?).map TileRun.done = some r.done))) ∧
    (top = 0x0A → writes fun i =>
      match (s.tval B [i.getD 1 0, 0, 0, 0]).whole? with
      | none => .bits 0
      | some k =>
        let e := [i.getD 0 0, k.toNat, 0, 0]
        if k < 0 ∨ A.size 1 ≤ k then .bits 0
        else if A.ms then .val .arith (s.tval A e) [3, A.efmt, s.telem A e] else .bits (s.telem A e))

/-- TLAUNCH (R306, R300, R368): COUNT is split among the healthy partitions by R301, each share queued in its partition with its first
index; with JOIN the total joins the group in one step, before anything queues. TILE_COMPLETION and TLAUNCH_COMPLETE (R134, R136, R303, R306,
R385, R386): once no leaf is to start, or every created thread has exited, the record is written once with its STATE, the fault kept,
and DONE; then the guard; the queue that submitted it is told. -/
def Obligations.TileEnds : Prop :=
  (∀ (t : TileWord) (d : Nat) (job : TileJob) (rest : List TileJob) (s : State),
    let l := t.lvl.toNat
    let y := s.dec d
    let x := s.bytes t.w1 64
    let n := bits x 159 128
    let prio := bits x 163 161
    let join := x.testBit 164
    let g : Word := BitVec.ofNat 64 (bits x 255 192)
    let o := s.object g
    let parts := launchParts s l (d % 256) (bits x 183 168) job.only
    let h := parts.length
    let share (k : Nat) : Nat := n / h + if k < n % h then 1 else 0
    let first (k : Nat) : Nat := k * (n / h) + min k (n % h)
    let fails (code : Nat) : Prop := ∃ u : State, exec (.tlaunch t) s = .next u ∧ u.dec d = y.refused job [] rest code l (d % 256) ∧
      u.th = s.th ∧ u.parked = s.parked ∧ u.mem = s.mem ∧ u.parts = s.parts
    s.chosen = .tile d → y.queue = job :: rest → y.busy < 8 → s.decPaused d = false → job.Plain s → PlainMem s → s.MemOk →
    InHbm t.w1 64 →
    (l < 2 → fails (0x1A0 + 4 * l)) ∧
    (2 ≤ l → descBad x = true → fails 0x01A) ∧
    (2 ≤ l → descBad x = false → parts = [] → fails (0x1A1 + 4 * l)) ∧
    (2 ≤ l → descBad x = false → (∃ k p, parts[k]? = some p ∧ share k ≠ 0 ∧ 256 ≤ ((s.part p).queues.getD prio []).length) →
      exec (.tlaunch t) s = .next { s with chosen := .none }) ∧
    (2 ≤ l → l ≤ 4 → (l = 3 → d % 256 < 2) → descBad x = false → parts ≠ [] →
      (∀ k p, parts[k]? = some p → share k ≠ 0 → ((s.part p).queues.getD prio []).length < 256) →
      (join = true → (∀ e ∈ s.parts, e.2.ptroot.getLsbD 0 = false) ∧ InHbm g 64 ∧ o.rest = 0 ∧ o.arrived ≤ o.members ∧
        o.members + n ≤ 65535) →
      ∃ u : State, exec (.tlaunch t) s = .next u ∧
        (∀ k p, parts[k]? = some p →
          (u.part p).queues.getD prio [] = (s.part p).queues.getD prio [] ++ if share k = 0 then [] else
            [⟨((s.part p).seq + 1) % 2 ^ 64, BitVec.ofNat 512 x, 0, first k, share k,
              if join then some (handleOf g o.phase) else none, if join then g.toNat else 0⟩]) ∧
        (∀ p, p ∉ parts → u.part p = s.part p) ∧
        u.mem = (if join then s.mem.writeLE g.toNat { o with members := o.members + n }.toNat 24 else s.mem) ∧
        (u.dec d).queue = rest ∧ u.th = s.th ∧ u.parked = s.parked ∧
        ∃ ls, (u.dec d).running = y.running ++ [⟨job, [], [], [], [], n, none, none, ls⟩] ∧
          ls.map Prod.fst = ((parts.zipIdx).filter fun e => share e.2 != 0).map Prod.fst)) ∧
  ∀ (d j : Nat) (r : TileRun) (s : State), (s.dec d).running[j]? = some r →
    -- a run that no level accepted goes by its descriptors as memory holds them now, and loses every output (R386)
    let q := r.softDescs (r.job.who (unitCluster (d / 256) (d % 256))) s
    let env := q.env ⟨0, []⟩
    let o := env.o
    let lost := if r.leaves = [] ∧ r.lost = [] ∧ r.done = 0 then boxIdx o.box else (r.lost ++ r.leaves).flatMap fun l => boxIdx l.box
    let stopped : Prop := r.sibling.isSome = true ∨ r.report.isSome = true ∧ r.job.fp = false
    let gone : Prop := (∀ e ∈ r.launch, (∀ q ∈ (s.part e.1).queues.toList, ∀ x ∈ q, x.seq ≠ e.2) ∧
      ∀ k ∈ s.liveKeys, (s.thread k).part ≠ e.1 ∨ (s.thread k).seq ≠ e.2)
    let record : Nat := match r.report, r.sibling with
      | some p, _ => recordOf 2 (p.code % 512 + p.flvl % 8 * 512) p.leaf (p.elem % 2 ^ 64) (r.done % 2 ^ 64)
      | none, some (code, flvl) => recordOf 3 (code % 512 + flvl % 8 * 512) 0 0 (r.done % 2 ^ 64)
      | none, none => recordOf 1 0 0 0 (r.done % 2 ^ 64)
    let guarded : Prop := q.descs ≠ [] ∧ o.guard ≠ 0
    let ends (i : Instr) : Prop := ∃ u : State, exec i s = .next u ∧ u.mem.readLE r.job.crec.toNat 32 = record % 2 ^ 256 ∧
      (guarded → u.mem.readLE o.guard.toNat 8 = record % 2 ^ 64) ∧
      SameBut s u ((r.job.crec.toNat, 32) :: (o.guard.toNat, 8) :: lost.map fun i => ((o.at_ i).toNat, o.esize)) ∧
      (u.dec d).running = removeAt (s.dec d).running j ∧ u.th = s.th ∧ u.parked = s.parked ∧ Noticed s u r.job.sub
    r.job.Plain s → PlainMem s → s.MemOk → InHbm r.job.crec 32 →
    (guarded → InHbm o.guard 8 ∧ (r.job.crec.toNat + 32 ≤ o.guard.toNat ∨ o.guard.toNat + 8 ≤ r.job.crec.toNat)) →
    (q.descs ≠ [] → q.descs.length = 2 ∨ r.job.top ≠ 0x06) → (q.descs ≠ [] → ∀ i ∈ lost, InHbm (o.at_ i) o.esize) →
    (q.descs ≠ [] → ∀ e ∈ env.spans, overlapsIn s (r.job.who (unitCluster (d / 256) (d % 256))) env.ins e.1 e.2 = false) →
    ((r.leaves = [] ∨ stopped) → (r.launch = [] ∨ r.report.isSome = true) → ends (.tileCompletion d j)) ∧
    (¬ ((r.leaves = [] ∨ stopped) ∧ (r.launch = [] ∨ r.report.isSome = true)) → exec (.tileCompletion d j) s = .next s) ∧
    (r.launch ≠ [] → r.report = none → gone → ends (.tlaunchComplete d j)) ∧
    (¬ (r.launch ≠ [] ∧ r.report = none ∧ gone) → exec (.tlaunchComplete d j) s = .next s)

/-! ### Collectives, loops and tile queues (spec/12, spec/13, spec/18, spec/22) -/

/-- COLL (R308): the record is checked (0x014, 0x01C) and the participant joins those that name the same KEY, NP and member table: the
oldest open collective that lacks its rank, by the table as COLL reads it (the model's reading: log 41).
COLLECTIVE_MEET, COLLECTIVE_COMPLETE and COLLECTIVE_FAIL (R308, R309, R389, R390): participants that disagree get STATE 2 with 0x12B and
no RBUF byte; the results of the four kinds, then STATE 1; after a failure, the loss of a link of a member among them, STATE 2 with its
code. Until a participant observes its STAT, its buffers are still those of the collective (R89). -/
def Obligations.Collectives : Prop :=
  (∀ (f : Fields) (s : State), Reads s [f.a] → Quiet s → InHbm (s.th.getS f.a) 64 →
    let x := s.bytes (s.th.getS f.a) 64
    let word := firstWord (.coll f)
    let np := bits x 255 248 + 1
    let mtab := bits x 319 256
    let members := (List.range np).map fun k => s.mem.readLE (mtab + 8 * k) 8
    let p : Party := ⟨bits x 247 240, s.th.part, false, BitVec.ofNat 512 x, [], [], false, false⟩
    let me : Party := { p with
      sends := placesOf p.who .load p.sbuf (p.sendCount np * p.esize) s
      recvs := placesOf p.who .store p.rbuf (p.recvCount np * p.esize) s }
    let good : Prop := 1 ≤ bits x 223 192 ∧ 1 ≤ bits x 231 224 ∧ bits x 231 224 ≤ 13 ∧ bits x 239 237 = 0 ∧ bits x 247 240 < np ∧
      bits x 383 328 = 0 ∧ bits x 511 448 = 0 ∧ (bits x 236 235 = 3 → bits x 327 320 < np)
    let fits (c : Coll) : Prop := c.key = BitVec.ofNat 64 x ∧ c.members = members ∧ c.met = false ∧ ∀ p ∈ c.parties, p.rank ≠ me.rank
    (3 ≤ bits x 234 232 → exec (.coll f) s = trapsWith s 0x014 word) ∧
    (bits x 234 232 < 3 → ¬ good → exec (.coll f) s = trapsWith s 0x01C word) ∧
    (bits x 234 232 < 3 → good → RunInHbm mtab np 8 →
      ((∀ c ∈ s.colls, ¬ fits c) →
        exec (.coll f) s = doneWith s { s with colls := s.colls ++ [⟨BitVec.ofNat 64 x, members, [me], [], false, false⟩] }) ∧
      ∀ pre c post, s.colls = pre ++ c :: post → (∀ y ∈ pre, ¬ fits y) → fits c →
        exec (.coll f) s = doneWith s { s with colls := pre ++ { c with parties := c.parties ++ [me] } :: post })) ∧
  ∀ (i : Nat) (c : Coll) (s : State), s.colls[i]? = some c → (∀ p ∈ c.parties, p.Plain s) → PlainMem s → s.MemOk →
    let np := c.members.length
    let stats (u : State) (v : Nat) : Prop := (∀ p ∈ c.parties, u.mem.readLE p.stat.toNat 8 = v) ∧
      u.colls.map Coll.unmarked = (removeAt s.colls i).map Coll.unmarked ∧ u.unseen = c.parties ∧ u.th = s.th ∧ u.parked = s.parked
    let words : List (Nat × Nat) := c.parties.map fun p => (p.stat.toNat, 8)
    let rlen (p : Party) : Nat := (if p.kind = 1 then np * p.count else p.count) * p.esize
    let bufs : List (Nat × Nat) := c.parties.map fun p => (p.rbuf, rlen p)
    let apart (x y : Nat × Nat) : Prop := x.1 + x.2 ≤ y.1 ∨ y.1 + y.2 ≤ x.1
    (∀ remote : List Remote,
      let ranks := c.parties.map Party.rank ++ remote.map Remote.rank
      let terms := c.parties.map (fun p => (p.efmt, p.op, p.kind, p.count, p.root)) ++
        remote.map fun r => (r.efmt, r.op, r.kind, r.count, r.root)
      let here : Prop := c.met = false ∧ 0 < np ∧ ranks.length = np ∧ (∀ r < np, ranks.count r = 1) ∧
        (∀ r ∈ remote, c.members.getD r.rank 0 % 256 ≠ s.devnum.toNat) ∧
        ∀ m ∈ c.members, m % 256 = s.devnum.toNat ∨ linkInService s (m % 256) = true
      let agree : Prop := ∀ x ∈ terms, ∀ y ∈ terms, x = y
      (here → agree → exec (.collectiveMeet i remote) s =
        .next { s with colls := s.colls.set i { c with met := true, remote := remote } }) ∧
      (here → ¬ agree → ∃ u : State, exec (.collectiveMeet i remote) s = .next u ∧ stats u (2 + 0x12B * 256) ∧ SameBut s u words) ∧
      (¬ here → exec (.collectiveMeet i remote) s = .next s)) ∧
    (let sent (r k : Nat) : Nat := match c.parties.find? fun p => p.rank == r with
       | some p => s.mem.readLE (p.sbuf + k * p.esize) p.esize
       | none => ((c.remote.find? fun x => x.rank == r).elim [] Remote.data).getD k 0
     let sends (p : Party) : Nat := if p.kind = 2 then np * p.count else if p.kind = 3 then (if p.rank = p.root then p.count else 0) else p.count
     c.met = true → c.lost = false →
     (∀ p ∈ c.parties, 1 ≤ p.count ∧ 1 ≤ p.efmt ∧ p.efmt ≤ 13 ∧ p.rank < np ∧ RunInHbm p.sbuf (sends p) p.esize ∧
       RunInHbm p.rbuf (rlen p / p.esize) p.esize) →
     (∀ p ∈ c.parties, ∀ q ∈ c.parties, (p.efmt, p.op, p.kind, p.count, p.root) = (q.efmt, q.op, q.kind, q.count, q.root)) →
     bufs.Pairwise apart → (∀ x ∈ bufs, ∀ y ∈ words, apart x y) →
     ∃ u : State, exec (.collectiveComplete i) s = .next u ∧ stats u 1 ∧ SameBut s u (words ++ bufs) ∧
       ∀ p ∈ c.parties, ∀ j < rlen p / p.esize,
         u.mem.readLE (p.rbuf + j * p.esize) p.esize = p.receivesAt np sent j % 2 ^ (8 * p.esize)) ∧
    (c.met = false → exec (.collectiveComplete i) s = .next s) ∧
    let fails (j : Instr) (code : Nat) : Prop := (∀ p ∈ c.parties, RunInHbm p.rbuf (rlen p) 1) →
      ∃ u : State, exec j s = .next u ∧ stats u (2 + code * 256) ∧ SameBut s u (words ++ bufs)
    (c.met = true → c.lost = true → fails (.collectiveComplete i) 0x09E) ∧
    ∀ code,
      let canFail : Prop := c.met = true ∧ (code = 0x09E ∧ c.lost = true ∨ c.remote ≠ [] ∧ (code = 0x09E ∨ 0x0B0 ≤ code ∧ code < 0x0C0))
      (canFail → fails (.collectiveFail i code) code) ∧ (¬ canFail → exec (.collectiveFail i code) s = .next s)

/-- LPGO and LPSTOP (R311, R318, R337, R363): a loop starts from its record, 64 at most; one refused has its STAT word written; LPSTOP
marks a running loop or sets BAD. KV_TAGGED_WRITE (R318, R393). LOOP_ITERATION takes a loop through its iteration (R312): at the boundary
LPSTOP ends it (5), and else it makes the pages it writes its own, a shared one by a copy (R320); it submits its programs through its
core's tile queue (R337), waits for their records, a failed one ending it (4), drains each block of 256 columns that they left by a
SELACC channel, waits for its record alike, joins what the blocks of a row list (R288, R314), and commits. A page copy carries the loop's
tag (R318): where the slot was retired it writes nothing. After a start with minimal firmware LPGO does nothing (R404).
In EXACT mode (R316, R319, R394) drafts are kept while they equal the target's own draws, the tokens go to OUT, then LEN, then POS, and
the entries beyond are discarded (R321); the loop ends at MAXPOS or EOS (1) or on a retired slot (3). How many instructions a run takes,
which entries and blocks it has and which fresh pages it takes come with the step (log 28). -/
def Obligations.Loops : Prop :=
  (∀ (fn p : Nat) (v : Word) (s : State), (s.part p).ptroot.getLsbD 0 = false → PlainMem s → s.MemOk →
    let a := v.toNat / 128 * 128
    let q := s.port p
    let x := s.mem.readLE a 128
    let l : LoopRun := { part := p, fn := fn, addr := BitVec.ofNat 64 a, data := BitVec.ofNat 1024 x, pos := bits x 127 64, stop := false }
    let good : Prop := bits x 131 129 = 0 ∧ bits x 135 132 ≤ 8 ∧ bits x 159 136 = 0 ∧ bits x 639 609 = 0 ∧ bits x 1023 640 = 0 ∧
      logpBad (bits x 191 160) = false ∧ (bits x 135 132 = 0 → bits x 447 384 = 0)
    let room : Prop := (s.loops.filter fun y => y.part == p).length < 64
    let refused (w : Nat) : Prop := ∃ u : State, exec (.lpgo fn p v) s = .next u ∧ u.mem.readLE (bits x 575 512) 8 = w ∧
      SameBut s u [(bits x 575 512, 8)] ∧ u.loops = s.loops ∧ u.msix = s.msix ++ (if s.plat.linkLost then [] else [⟨fn, .loop p⟩])
    (s.plat.minimal = true → exec (.lpgo fn p v) s = .next s) ∧
    (s.plat.minimal = false → ¬ room → exec (.lpgo fn p v) s = .next { s with ports := s.ports.set p { q with full := true } }) ∧
    (s.plat.minimal = false → room → a < 0x60_0000_0000 → good → s.TagFits p (bits x 287 256) (bits x 319 288) →
      exec (.lpgo fn p v) s = .next { s with loops := s.loops ++ [l], free := s.free + 1 }) ∧
    (s.plat.minimal = false → room → a < 0x60_0000_0000 → InHbm (BitVec.ofNat 64 (bits x 575 512)) 8 →
      (¬ good → refused (2 + 0x1D * 256)) ∧ (good → s.TagStale p (bits x 287 256) (bits x 319 288) → refused 2)) ∧
    ((∃ y ∈ s.loops, y.part = p ∧ y.addr = BitVec.ofNat 64 a) → exec (.lpstop fn p v) s =
      .next { s with loops := s.loops.map fun y => if y.part = p ∧ y.addr = BitVec.ofNat 64 a then { y with stop := true } else y }) ∧
    ((∀ y ∈ s.loops, y.part = p → y.addr ≠ BitVec.ofNat 64 a) →
      exec (.lpstop fn p v) s = .next { s with ports := s.ports.set p { q with bad := true } }) ∧
    ∀ (slot : Nat) (gen : BitVec 32) (pa n w : Nat), pa + n ≤ 0x60_0000_0000 →
      (s.TagFits p slot gen.toNat → ∃ u : State, exec (.kvTaggedWrite p slot gen pa n w) s = .next u ∧ u.mem = s.mem.writeLE pa w n ∧
        u.kv = s.kv) ∧
      (s.TagStale p slot gen.toNat → ∃ u : State, exec (.kvTaggedWrite p slot gen pa n w) s = .next u ∧ u.mem = s.mem ∧
        u.kvRegs p = { s.kvRegs p with drops := (s.kvRegs p).drops + 1, last := BitVec.ofNat 32 slot })) ∧
  ∀ (p i : Nat) (rows : LoopRows) (l : LoopRun) (s : State), s.loops[i]? = some l → l.part = p → (s.part p).halted = false →
    (s.part p).ptroot.getLsbD 0 = false → PlainMem s → s.MemOk → InHbm l.stat 8 →
    let k := l.kd
    let slot := (s.kvRegs p).base.toNat / 16 * 16 + 16 * l.slot
    let becomes (m : LoopRun) : Prop := exec (.loopIteration p i rows) s = .next { s with loops := s.loops.set i m }
    let stays : Prop := exec (.loopIteration p i rows) s = .next s
    let ends (v : Nat) : Prop := ∃ u : State, exec (.loopIteration p i rows) s = .next u ∧ LoopEnded s u i l v ∧
      (l.CanDiscard s → SameBut s u ((l.stat.toNat, 8) :: l.spoils s))
    let word (a : Nat) : Word := BitVec.ofNat 64 a
    -- the next `n` instructions of the program of the run under way
    let run (m : LoopRun) (n : Nat) : LoopRun := { m with
      phase := .submit ((List.range n).map fun x => word ((if m.run < k then l.dfwd else l.tfwd) + 32 * (m.used + x)))
      used := m.used + n, crecs := [] }
    -- the boundary
    (l.phase = .start →
      let wanted := (if l.behind then [(true, l.pos - 1)] else []) ++ (List.range k).map (fun j => (true, l.pos + j)) ++
        (List.range (k + 1)).map fun j => (false, l.pos + j)
      let nums := (rows.entries.map KvEntry.page).dedup
      let begun (pages : List (Nat × Nat)) : LoopRun :=
        run { l with run := 0, used := 0, tail := false, rows := [], cols := [], entries := rows.entries, pages := pages } rows.count
      (l.stop = true → ends 5) ∧
      (l.stop = false → rows.entries.map (fun e => (e.draft, e.pos)) ≠ wanted → stays) ∧
      (l.stop = false → rows.entries.map (fun e => (e.draft, e.pos)) = wanted →
        (∀ n ∈ nums, InHbm (word (s.pageWordAt p l.slot n)) 8 ∧ s.pageWordAt p l.slot n < 2 ^ 64) →
        (∀ len : Nat → Nat, (∀ n ∈ nums, ∃ b, s.pageOf p (s.slotPage p l.slot n) = some b ∧ b.1 < 2 ^ 64 ∧ InHbm (word b.1) 4 ∧
            s.mem.readLE b.1 4 ≤ 1 ∧ b.2.2 = len n) →
          becomes (begun (nums.map fun n => (s.slotPage p l.slot n, len n)))) ∧
        (∀ (n : Nat) (b g : Nat × Nat × Nat),
          let page := s.slotPage p l.slot n
          let w := (s.pageWordAt p l.slot n, 8)
          let places : List (Nat × Nat) := [(page, b.2.2), (g.2.1, b.2.2), (b.1, 4), (g.1, 4), w, (slot, 16)]
          nums = [n] → s.pageOf p page = some b → 1 < s.mem.readLE b.1 4 → rows.fresh = [(n, g.2.1)] → s.pageOf p g.2.1 = some g →
          g.2.2 = b.2.2 → b.2.2 % 8 = 0 → page % 8 = 0 → g.2.1 % 8 = 0 → b.1 % 4 = 0 → g.1 % 4 = 0 →
          (∀ r ∈ places, r.1 + r.2 ≤ 0x60_0000_0000) → places.Pairwise RangesApart →
          (s.TagStale p l.slot l.gen → ∃ u : State, exec (.loopIteration p i rows) s = .next u ∧
            u.loops = s.loops.set i (begun [(page, b.2.2)]) ∧ u.mem = s.mem) ∧
          (s.TagFits p l.slot l.gen → ∃ u : State, exec (.loopIteration p i rows) s = .next u ∧
            u.loops = s.loops.set i (begun [(g.2.1, b.2.2)]) ∧
            (∀ a < b.2.2, u.mem.read (g.2.1 + a) = s.mem.read (page + a)) ∧ u.mem.readLE b.1 4 = s.mem.readLE b.1 4 - 1 ∧
            u.mem.readLE g.1 4 = 1 ∧ u.mem.readLE w.1 8 = g.2.1 ∧ SameBut s u [(g.2.1, b.2.2), (b.1, 4), (g.1, 4), w])))) ∧
    -- submission, through tile queue 4 + (p mod 4)
    (l.phase = .submit [] → becomes { l with phase := .await }) ∧
    (∀ (a : Word) (rest : List Word), l.phase = .submit (a :: rest) →
      let t := s.tq (4 + p % 4)
      let x := s.mem.readLE a.toNat 32
      let crec := bits x 47 0
      let entry := t.base.toNat % 2 ^ 63 / 32 * 32 + 32 * (t.tail.toNat % 2 ^ t.size)
      (t.en = false ∨ 2 ^ t.size ≤ (t.tail - t.head).toNat → stays) ∧
      (t.en = true → (t.tail - t.head).toNat < 2 ^ t.size → InHbm a 32 → t.base.getLsbD 63 = true → crec % 32 = 0 →
        crec + 32 ≤ 0x60_0000_0000 → entry + 32 ≤ 0x60_0000_0000 → RangesApart (crec, 32) (entry, 32) →
        ∃ u : State, exec (.loopIteration p i rows) s = .next u ∧ u.mem.readLE crec 32 = 0 ∧ u.mem.readLE entry 32 = x ∧
          SameBut s u [(crec, 32), (entry, 32)] ∧
          u.tq (4 + p % 4) = { t with tail := t.tail + 1, marks := t.marks.set t.tail.toNat ⟨p, l.fn, ⟨l.slot, l.gen, l.pages⟩, false⟩ } ∧
          u.loops = s.loops.set i { l with phase := .submit rest, crecs := l.crecs ++ [word crec] })) ∧
    -- the records
    (l.phase = .await → (∀ a ∈ l.crecs, InHbm a 8) →
      let recs := l.crecs.map fun a => s.mem.readLE a.toNat 8
      ((∃ x ∈ recs, x % 256 = 0) → stays) ∧
      ((∀ x ∈ recs, x % 256 = 1) → becomes { l with phase := .filter }) ∧
      ∀ x, (∀ x ∈ recs, x % 256 ≠ 0) → (recs.find? fun x => x % 256 != 1) = some x → ends (4 + bits x 16 8 * 256)) ∧
    -- the blocks of a run, by SELACC channels
    (l.phase = .filter →
      let n := if l.run < k then 1 else k + 1
      let all := rows.blocks.flatten
      let fits : Prop := rows.blocks.length = n ∧ (∀ bs ∈ rows.blocks, bs ≠ []) ∧
        (∀ b ∈ all, b.cluster / 10 = p ∧ b.tile < 4 ∧ b.row < 128 ∧ 1 ≤ b.cols ∧ b.col + b.cols ≤ 256 ∧ b.chan < 16 ∧
          b.dst % 16 = 0 ∧ b.dst < 2 ^ 63 ∧ b.crec % 32 = 0 ∧ b.crec ≠ 0 ∧ b.crec < 2 ^ 63) ∧
        (∀ bs ∈ rows.blocks, ∀ (j : Nat) (b : BlockAt), bs[j]? = some b → j + 1 < bs.length ∨ rows.more = true → b.cols = 256) ∧
        (∀ bs ∈ rows.blocks, ∀ cs ∈ rows.blocks, (bs.map BlockAt.cols).sum = (cs.map BlockAt.cols).sum) ∧
        (all.flatMap fun b => [(b.dst, blockList), (b.crec, 32)]).Pairwise RangesApart
      (¬ fits → stays) ∧
      (fits → becomes { l with
        phase := .drain (rows.blocks.zipIdx.flatMap fun e => e.1.map fun b => (e.2, b)) [] rows.more
        cols := if l.cols.length = n then l.cols else List.replicate n [] })) ∧
    (∀ (left started : List (Nat × BlockAt)) (more : Bool), l.phase = .drain left started more →
      let busy : Prop := ∀ e, left.head? = some e → (s.chan p e.2.chan).st ≠ .idle
      (∀ e rest, left = e :: rest → (s.chan p e.2.chan).st = .idle → InHbm (word e.2.crec) 32 → e.2.crec < 2 ^ 64 →
        e.2.dst + blockList ≤ 0x60_0000_0000 →
        ∃ u : State, exec (.loopIteration p i rows) s = .next u ∧
          u.loops = s.loops.set i { l with phase := .drain rest (started ++ [e]) more } ∧
          u.mem.readLE e.2.crec 32 = 0 ∧ SameBut s u [(e.2.crec, 32)] ∧
          let c := u.chan p e.2.chan
          c.st = .running ∧ c.record = blockRecord e.2 ∧ c.func = blockFunc e.2 l.logp ∧ c.crec = word e.2.crec ∧ c.done = 0) ∧
      (∀ r b rest, busy → started = (r, b) :: rest → InHbm (word b.crec) 8 → b.crec < 2 ^ 64 →
        let x := s.mem.readLE b.crec 8
        let at_ (o : Nat) : Nat := s.mem.readLE (b.dst + o) 4
        let pairs := (List.range (min (at_ 0) 256)).map fun y => (at_ (32 + 8 * y), at_ (36 + 8 * y))
        let row := (List.range b.cols).map fun y => ((pairs.find? fun e => e.1 == y).map Prod.snd).getD fp32.nanBits
        (x % 256 = 0 → stays) ∧
        (2 ≤ x % 256 → ends (4 + bits x 16 8 * 256)) ∧
        (x % 256 = 1 → b.dst % 16 = 0 → b.dst + blockList ≤ 0x60_0000_0000 →
          becomes { l with phase := .drain left rest more, cols := l.cols.modify r (· ++ row) })) ∧
      (busy → started = [] → left ≠ [] → stays) ∧
      (left = [] → started = [] →
        let m : LoopRun := { l with run := l.run + 1, used := 0, tail := false, rows := l.rows ++ l.cols, cols := [] }
        becomes (if more then run { l with tail := true } rows.count else if l.run < k then run m rows.count
          else { m with phase := .commit }))) ∧
    -- the commit
    (l.phase = .commit → l.rows.length = 2 * k + 1 → l.ratio = false →
      let y (j : Nat) : Nat := sampleToken l.seed (l.pos + j) 0 l.logp (l.rows.getD (k + j) [])
      let drafted (j : Nat) : Nat := sampleToken l.seed (l.pos + j) 0 l.logp (l.rows.getD j [])
      let rec_ := l.addr.toNat + 8
      let out := l.out + 4 * l.pos
      let places : List (Nat × Nat) := [(out, 4 * (k + 1)), (slot + 4, 4), (rec_, 8), (l.stat.toNat, 8)]
      let held : Prop := ∃ j, j ≠ i ∧ ∃ z : LoopRun, s.loops[j]? = some z ∧ z.part = p ∧ z.writing = true
      let fit : Prop := RunInHbm out (k + 1) 4 ∧ slot + 8 ≤ 0x60_0000_0000 ∧ InHbm (l.addr + 8) 8 ∧ rec_ < 2 ^ 64 ∧
        places.Pairwise RangesApart
      (held → stays) ∧
      (¬ held → s.TagStale p l.slot l.gen → ends 3) ∧
      (¬ held → s.TagFits p l.slot l.gen → fit → l.CanDiscard s → rows.adds = [] →
        ∃ (a n : Nat) (u : State), exec (.loopIteration p i rows) s = .next u ∧
          a ≤ k ∧ (∀ j < a, drafted j = y j) ∧ (a = k ∨ drafted a ≠ y a) ∧
          (let m := min (a + 1) (l.maxpos - l.pos)
           n ≤ m ∧ (l.een = true → ∀ j, j + 1 < n → y j ≠ l.eos) ∧ (n < m → l.een = true ∧ 0 < n ∧ y (n - 1) = l.eos)) ∧
          (∀ j < n, u.mem.readLE (out + 4 * j) 4 = y j % 2 ^ 32) ∧ u.mem.readLE (slot + 4) 4 = (l.pos + n) % 2 ^ 32 ∧
          u.mem.readLE rec_ 8 = (l.pos + n) % 2 ^ 64 ∧ SameBut s u (places ++ l.spoils s) ∧
          ((∀ e ∈ l.entries, e.pos < l.pos + n) → SameBut s u places) ∧
          (if l.maxpos ≤ l.pos + n ∨ l.een = true ∧ ∃ j < n, y j = l.eos then LoopEnded s u i l 1
           else u.msix = s.msix ∧ u.loops = s.loops.set i { l with
             pos := l.pos + n, phase := .start, rows := [], entries := [], pages := [], behind := decide (0 < k ∧ a = k) })))

/-! ### Partition swap and resets (spec/19, spec/24) -/

/-- PSWAP halt, resume, save and restore, and their end (R352, R357, R406): STOP bits and paused channels; the context saved in the
shadow store or at ADDR once nothing R348 lets finish is running (that a halt ends once every slot has stopped, and that a restore
without an intact context changes nothing, is the model's reading, log 44); a restore brings it back into its partition, with what was fetched
and what the clusters kept of older bytes gone (R82, R94), the prefetches that completed meanwhile complete (R356), and halted after
a thermal stop; BUSY clears. -/
def Obligations.PartitionSwap : Prop :=
  ∀ (p : Nat) (s : State),
    let d := p / 8
    let y := s.die d
    let q := s.part p
    let chans (u : State) (b : Bool) : Prop := ∀ n < 16, u.chan p n = { s.chan p n with paused := b }
    let ran (u : State) (shadow : Option PartCtx) : Prop := u.die d = { y with ran := true, shadow := shadow }
    let rest (u : State) : Prop := u.mem = s.mem ∧ u.th = s.th ∧ u.parked = s.parked
    (s.Due 1 p → ∃ u : State, exec (.pswapHalt p) s = .next u ∧ ran u y.shadow ∧ rest u ∧ chans u true ∧ (u.part p).halted = true ∧
      ∀ c, (c / 40 = p → (u.core c).stop = 0xFF ∧ (u.core c).haltSet = (s.core c).haltSet ||| ~~~(s.core c).stop) ∧
        (c / 40 ≠ p → u.core c = s.core c)) ∧
    (s.Due 4 p → ∃ u : State, exec (.pswapResume p) s = .next u ∧ ran u y.shadow ∧ rest u ∧
      (s.plat.limit = 3 → u.part p = q ∧ ∀ c, u.core c = s.core c) ∧
      (s.plat.limit ≠ 3 → chans u false ∧ (u.part p).halted = false ∧
        ∀ c, (c / 40 = p → (u.core c).stop = (s.core c).stop &&& ~~~(s.core c).haltSet ∧ (u.core c).haltSet = 0) ∧
          (c / 40 ≠ p → u.core c = s.core c))) ∧
    (let busy : Prop := ∃ k, s.LivesIn p k ∧ saveWaits s k ≠ none
     let spill := y.pswap.getLsbD 11
     let pa := y.pswap.toNat / 65536 * 65536
     (busy → exec (.pswapSave p) s = .next s) ∧
     (¬ busy → s.Due 2 p → s.coherent = true → NoUpdates s →
       (spill = false → ∃ u : State, exec (.pswapSave p) s = .next u ∧ rest u ∧
         ran u (if y.shadow = none ∧ usedBanks p s ≤ 140 then some (partCtx p s) else y.shadow)) ∧
       (spill = true → pa < 0x60_0000_0000 → ∃ u : State, exec (.pswapSave p) s = .next u ∧ rest u ∧ ran u y.shadow ∧
         ∃ f, u.frames.find pa = some f ∧ f.body = .part (partCtx p s) ∧ f.dirty = []))) ∧
    (s.Due 3 p → y.pswap.getLsbD 11 = false → s.MemOk →
      ((∀ x, y.shadow = some x → x.part ≠ p) → ∃ u : State, exec (.pswapRestore p) s = .next u ∧ rest u ∧ ran u y.shadow) ∧
      ∀ s0 : State, s0.MemOk → y.shadow = some (partCtx p s0) → ∃ u : State, exec (.pswapRestore p) s = .next u ∧ ran u none ∧
        (∀ k, s0.LivesIn p k →
          let t := s0.thread k
          let o := s.thread k
          u.thread k = if o.live = true ∧ o.part = p ∧ o.tid = t.tid then
            { t with prefs := t.prefs.filter fun r => o.prefs.any fun y => y.id == r.id } else t) ∧
        (∀ k, s.LivesIn p k → ¬ s0.LivesIn p k → (u.thread k).live = false) ∧
        (u.part p).queues = (s0.part p).queues ∧ (u.part p).ptroot = q.ptroot ∧
        (∀ c, c / 40 = p →
          let k := { s0.core c with feat := (s.core c).feat, inService := (s.core c).inService, icache := [] }
          (s.plat.limit ≠ 3 → u.core c = k) ∧ (s.plat.limit = 3 → (u.core c).stop = 0xFF)) ∧
        (s.plat.limit ≠ 3 → (u.part p).chans = (s0.part p).chans ∧ (u.part p).halted = (s0.part p).halted) ∧
        (s.plat.limit = 3 → (u.part p).halted = true) ∧
        (∀ c, c / 10 = p → u.cluster c = { s0.cluster c with ccyc := (s.cluster c).ccyc, stale := [] }) ∧
        (∀ e ∈ decsOf p, u.dec e = s0.dec e) ∧
        ∀ a, u.mem.read a = if scratchLo p ≤ a ∧ a < scratchLo (p + 1) then s0.mem.read a else s.mem.read a) ∧
    ∀ die, let z := s.die die
      let n := die * 8 + bits z.pswap.toNat 2 0
      let done : Prop := z.pswap.getLsbD 15 = true ∧ z.ran = true ∧
        (bits z.pswap.toNat 10 8 = 1 → ∀ c, c / 40 = n → (s.core c).stopped = 0xFF)
      (¬ done → exec (.pswapDone die) s = .next s) ∧
      (done → ∃ u : State, exec (.pswapDone die) s = .next u ∧ u.mem = s.mem ∧ u.die die = { z with pswap := z.pswap &&& ~~~0x8000, ran := false } ∧
        ∀ k, (s.thread k).live = true →
          u.thread k = if (s.thread k).wait = some .pswap then { s.thread k with wait := none } else s.thread k)

/-- Kill, by PSWAP (R358) and by a reset of a virtual function (R398, R400): the partition's context is gone; a running tile instruction's
record gets STATE 4 under PSWAP and nothing under the reset, which also resets the function's tile queue. Its loops end, and what they had
put into their queue is discarded; the accumulators stay (under PSWAP the model's reading, log 45). After a thermal stop the partition
stays halted (R406). -/
def Obligations.PartitionKill : Prop :=
  ∀ (p : Nat) (s : State), p < 16 → s.coherent = true → NoUpdates s → s.MemOk →
    let y := s.die (p / 8)
    let others (u : State) : Prop := ∀ k, (s.thread k).live = true → (s.thread k).part ≠ p → u.thread k = s.thread k
    (s.Due 5 p → ∃ u : State, exec (.pswapKill p) s = .next u ∧ ContextGone s u p ∧ others u ∧ u.die (p / 8) = { y with ran := true } ∧
      (s.EnginesIdle p → OthersStay s u p)) ∧
    (∃ u : State, exec (.flrVf (p + 1)) s = .next u ∧ ContextGone s u p ∧ u.plat = s.plat ∧
      (∀ k, (s.thread k).live = true → (s.thread k).part ≠ p →
        u.thread k = if (s.thread k).wait = some .pswap then { s.thread k with wait := none } else s.thread k) ∧
      u.tq (16 + p) = TileQ.reset ∧ u.loops = s.loops.filter (fun l => l.part != p) ∧
      (∀ x, (u.die (p / 8)).shadow = some x → x.part ≠ p) ∧
      (s.EnginesIdle p → OthersStay s u p ∧ ∀ k, k ≠ 16 + p →
        let kept (e : Nat × Mark) : Nat × Mark := (e.1, { e.2 with dead := e.2.dead || k == 4 + p % 4 && e.2.part == p })
        u.tq k = { s.tq k with marks := (s.tq k).marks.map kept })) ∧
    (∀ n, n = 0 ∨ 16 < n → exec (.flrVf n) s = .next s) ∧
    ∀ (d : Nat) (x : Decomposer) (r : TileRun), s.decs = [(d, x)] → x.running = [r] → r.job.ofPart p = true → r.job.Plain s →
      PlainMem s → InHbm r.job.crec 32 → r.lost = [] → r.leaves = [] →
      (r.softDescs (r.job.who (unitCluster (d / 256) (d % 256))) s).descs = [] →
      (∀ n < 16, (s.chan p n).st ≠ .running) → s.colls = [] → s.zjobs = [] →
      (s.Due 5 p → ∃ u : State, exec (.pswapKill p) s = .next u ∧ (u.dec d).running = [] ∧
        u.mem.readLE r.job.crec.toNat 32 = recordOf 4 0 0 0 (r.done % 2 ^ 64) ∧ SameBut s u [(r.job.crec.toNat, 32)]) ∧
      ∃ u : State, exec (.flrVf (p + 1)) s = .next u ∧ (u.dec d).running = [] ∧ u.mem = s.mem

/-- Starts and resets (R339, R399, R401 to R404): images are checked in the order of Table 2 and before hardware and FEAT (which reason is
reported where several hold is the model's reading, log 47), the fused key's hash and the signature of each computed (over bytes laid
out as log 33 presumes), and FEAT against R21; a failed start counts up to 3 and then leaves minimal mode; fundamental reset keeps FEAT and host
memory; a reset of the physical function resets the device block but the error log, START and THERM; link loss keeps everything
running. -/
def Obligations.StartAndReset : Prop :=
  ∀ s : State,
    let P := s.plat
    let fails (P u : Platform) (r : BitVec 8) : Prop := u.devready = false ∧ u.fails = min 3 (P.fails + 1) ∧ u.reason = r ∧
      u.minimal = decide (min 3 (P.fails + 1) = 3) ∧ u.images = P.images ∧ u.staged = P.staged
    let cold (u : State) : Prop := u.th = Thread.zero ∧ u.parked = [] ∧ u.parts = [] ∧ u.decs = [] ∧ u.colls = [] ∧ u.loops = [] ∧
      u.tqs = [] ∧ u.log = State.reset.log ∧ (∀ c, (u.core c).feat = (s.core c).feat) ∧
      (s.MemOk → ∀ a, isHost a = true → u.mem.read a = s.mem.read a)
    (∀ hw : Nat, ∃ u : State, exec (.fundamentalReset hw) s = .next u ∧ cold u ∧
      let is := (P.images.filter fun i => P.staged.all fun x => x.kind != i.kind) ++ P.staged
      let signed (i : Image) : Prop := i.header.length = 128 ∧ sha384 (keyBytes i.key) = P.keyHash ∧
        ecdsaOk i.key i.sig (i.header ++ i.body) = true
      let absent (k : Nat) : Prop := ∀ i ∈ is, i.kind ≠ k
      let hub : Prop := absent 0 ∨ ∃ i ∈ is, i.kind = 0 ∧ ¬ signed i
      let old : Prop := ∃ i ∈ is, i.version < P.rollback
      let two : Prop := absent 1 ∨ absent 2 ∨ ∃ i ∈ is, (i.kind = 1 ∨ i.kind = 2) ∧ ¬ signed i
      let has (b : Nat) : Nat := ((List.range 640).filter fun c => (s.core c).feat.getLsbD b).length
      let units : Prop := 156 * 4 ≤ has 3 ∧ ∀ b ∈ [0, 1, 2, 4, 5, 6], 632 ≤ has b
      let update : Prop := P.staged ≠ [] ∧ ∀ i ∈ P.staged, signed i ∧ P.rollback ≤ i.version
      let start : Prop := ¬ (P.fails = 3 ∧ ¬ update)
      let hwBad : Prop := hw = 4 ∨ hw = 5 ∨ hw = 7 ∨ hw = 8
      (¬ start → u.plat.minimal = true ∧ u.plat.devready = false ∧ u.plat.fails = 3) ∧
      (start → hub → fails P u.plat 1) ∧ (start → ¬ hub → old → fails P u.plat 2) ∧
      (start → ¬ hub → ¬ old → two → fails P u.plat 3) ∧
      (start → ¬ hub → ¬ old → ¬ two → hwBad → fails P u.plat (BitVec.ofNat 8 hw)) ∧
      (start → ¬ hub → ¬ old → ¬ two → ¬ hwBad → ¬ units → fails P u.plat 6) ∧
      (start → ¬ hub → ¬ old → ¬ two → ¬ hwBad → units →
        u.plat.devready = true ∧ u.plat.fails = 0 ∧ u.plat.minimal = false ∧ u.plat.images = is ∧ u.plat.staged = [])) ∧
    (∃ u : State, exec .restart s = .next u ∧ cold u ∧ u.plat.devready = false ∧ u.plat.fails = P.fails ∧ u.plat.limit = 0) ∧
    (P.started = true ∨ P.minimal = true → exec .devreadyTimeout s = .next s ∧ exec .hubFirmwareWatchdog s = .next s) ∧
    (P.started = false → P.minimal = false → P.devready = false →
      (∃ (u : State) (r : BitVec 8), exec .devreadyTimeout s = .next u ∧ fails P u.plat r ∧ (P.fails < 2 → u.mem = s.mem)) ∧
      ∃ u : State, exec .hubFirmwareWatchdog s = .next u ∧ fails P u.plat 8 ∧ (P.fails < 2 → u.mem = s.mem)) ∧
    (∃ u : State, exec .flrPf s = .next u ∧ (∀ k, (s.thread k).live = true → (s.thread k).part < 16 → (u.thread k).live = false) ∧
      u.devnum = 0x80 ∧ u.linken = 0 ∧ u.route = [] ∧ u.bud = State.reset.bud ∧ u.ovr = State.reset.ovr ∧ u.ports = [] ∧ u.kv = [] ∧
      u.loops = [] ∧ u.colls = [] ∧ (∀ q < 8, u.tq q = TileQ.reset) ∧ (∀ q < 16, u.tq (16 + q) = TileQ.reset) ∧
      u.dec (decKey 4 0) = Decomposer.reset ∧ u.plat = { P with devready := false } ∧ ∀ c, (u.core c).feat = (s.core c).feat) ∧
    exec .linkLoss s = .next { s with plat := { P with linkLost := true, pcieUp := false } } ∧
    exec .linkRetrain s = .next { s with plat := { P with pcieUp := true } }

/-! ### Management, errors and the host (spec/18, spec/21, spec/24) -/

/-- Shares, what each class receives of a period, and overruns (R342, R405), the board limit (R341), throttling and the thermal stop (R406), and Primrose's services (R340): a report is signed by the device identity key (its bytes as log 33
presumes). -/
def Obligations.Management : Prop :=
  ∀ s : State,
    let P := s.plat
    let plat (u : Platform) : Out := .next { s with plat := u }
    (∀ k v, k < 7 →
      let x : BitVec 10 := (v : Word).setWidth 10
      let bud := s.bud.setIfInBounds k x
      exec (.budWrite k v) s = .next (if (bud.toList.map BitVec.toNat).sum ≤ 1024 then { s with bud := bud } else s)) ∧
    (∀ (slots : Nat) (demand : List (Requester × Nat)), ∃ u : State, exec (.arbitrationPeriod slots demand) s = .next u ∧
      u.bud = s.bud ∧ u.mem = s.mem ∧
      let asked (k : Nat) : Nat := ((demand.filter fun e => requestClass e.1 == k).map Prod.snd).sum
      let sure (k : Nat) : Nat := min (asked k) ((s.bud[k]?).elim 0 BitVec.toNat * slots / 1024)
      let idle (k : Nat) : Nat := slots - ((List.range 7).map sure).sum - ((List.range k).map fun i => u.served.getD i 0 - sure i).sum
      u.served.length = 7 ∧
      ∀ k < 7, u.ovr[k]? = ((s.ovr[k]?).map fun x => if (s.bud[k]?).elim 0 BitVec.toNat * slots / 1024 < asked k then x + 1 else x) ∧
        u.served.getD k 0 = sure k + min (asked k - sure k) (idle k)) ∧
    (∀ w, exec (.powerLimit w) s = if 600 ≤ w ∧ w ≤ 1500 ∧ w % 25 = 0 then plat { P with power := w } else .next s) ∧
    (∀ l, exec (.throttleStep l) s = if P.limit = 3 ∨ 3 ≤ l then .next s else if l = 0 then plat { P with limit := 0, fmin := 1900 }
      else plat { P with limit := l, fmin := if P.fmin ≤ 700 then 600 else P.fmin - 100 }) ∧
    (∃ u : State, exec .thermalStop s = .next u ∧ u.plat = { P with limit := 3, events := P.events ++ [3] } ∧
      (∀ p < 16, (u.part p).halted = true) ∧ (∀ c < 640, (u.core c).stop = 0xFF) ∧ u.mem = s.mem ∧ u.th = s.th ∧ u.parked = s.parked) ∧
    (∀ r : Sensors, exec (.pldmMonitor r) s = plat { P with replies := P.replies ++ [.monitor r s.log.ue.toNat s.log.ce.toNat] }) ∧
    (∀ img, exec (.pldmFirmwareUpdate img) s =
      plat { P with staged := (P.staged.filter fun i => i.kind != img.kind) ++ [img] }) ∧
    ∀ nonce, ∃ (u : State) (k : Nat), exec (.attestation nonce) s = .next u ∧ u.mem = s.mem ∧ 0 < k ∧ k < orderN ∧
      let count (b : Nat) : Nat := ((List.range 640).filter fun c => (s.core c).feat.getLsbD b).length
      let measures := P.images.map fun i => sha384 (i.header ++ i.body)
      let feat : List Word := (count 3 / 4 :: [count 0, count 1, count 2, count 4, count 5, count 6]).map fun n => BitVec.ofNat 64 n
      u.plat = { P with replies := P.replies ++ [.report nonce measures feat P.fails
        (ecdsaSign P.identity.toNat k (reportBytes nonce measures feat P.fails))] }

/-- Errors (R376, R377, R379): a corrected one only counts, and one in an L1 instruction cache drops the line; an uncorrectable one counts
once, is logged with 0x0A0 + Detail, and poisons the granules, register, lane word, entry or FIFO entries it touches, or what of a saved
context its granule of the shadow store holds, which is free (log 64); one in a clean copy or in a tag poisons nothing. That structures
11, 12 and 15 are logged and poisoned as the memory behind them is the model's reading (log 48). -/
def Obligations.Errors : Prop :=
  ∀ s : State,
    let counts (u : State) : Prop := u.log.ue = s.log.ue + 1 ∧ u.log.ce = s.log.ce ∧ u.log.ack = s.log.ack
    let counted (u : State) : Prop := counts u ∧ u.mem = s.mem
    let inFifo (a c b o : Nat) : Prop := c < 160 ∧ b < 16 ∧ o < 0x2_0000 ∧ a = windowBase + 0x40_0000 * c + 0x2_0000 * b + o ∧
      ((s.cluster c).banks.getD b Bank.reset).mode = 2
    let hits (i : Instr) (d a n : Nat) : Prop := ∃ u : State, exec i s = .next u ∧ counts u ∧ (isFabric a = false → u.mem = s.mem) ∧
      Logged s u (0x0A0 + d) (a / 32 * 32) none 0 ∧ u.th = s.th ∧ u.parked = s.parked ∧
      (s.poison.Pairwise (fun x y => x.1 < y.1) → ∀ g,
        u.detail g = if a / 32 ≤ g ∧ g ≤ a / 32 + n then some ((s.detail g).getD d) else s.detail g)
    exec .correctedError s = .next { s with log := { s.log with ce := s.log.ce + 1 } } ∧
    (∀ a b, ∃ u : State, exec (.uncorrectableError 1 a b) s = .next u ∧ u.log = { s.log with ce := s.log.ce + 1 } ∧ u.mem = s.mem ∧
      (u.core b).icache = (s.core b).icache.filter (fun x => x.1 / 16 != a / 128) ∧ ∀ c, c ≠ b → u.core c = s.core c) ∧
    (∀ d a n, d ∈ [0, 2, 3, 4, 5, 6, 7] → (d = 2 → ∀ c b o, ¬ inFifo a c b o) →
      hits (.uncorrectableError d a (2 * n + 1)) d a n) ∧
    (∀ d a n, d ∈ [11, 12, 15] → hits (.uncorrectableError d a (2 * n + 1)) (if isHost a then 6 else 5) a n) ∧
    (∀ a c b o n, inFifo a c b o → ∃ u : State, exec (.uncorrectableError 2 a (2 * n + 1)) s = .next u ∧ counted u ∧
      Logged s u 0x0A2 (a / 32 * 32) none 0 ∧ u.poison = s.poison ∧
      ∀ i < 4, (((u.cluster c).banks.getD b Bank.reset).bad).get (o / 32 * 4 + i) 0 = 2) ∧
    (∀ d a n, d ∈ [0, 2, 3, 4] → ∃ u : State, exec (.uncorrectableError d a (2 * n)) s = .next u ∧ counted u ∧
      Logged s u (0x0A0 + d) (a / 32 * 32) none 0 ∧ u.poison = s.poison ∧ u.th = s.th ∧ u.parked = s.parked) ∧
    (∀ k r, (s.thread k).live = true → ∃ u : State, exec (.uncorrectableError 9 k r) s = .next u ∧ counted u ∧
      Logged s u 0x0A9 0 (some (s.thread k).part) (s.thread k).loc.toNat ∧ u.poison = s.poison ∧
      u.thread k = { s.thread k with spoison := (s.thread k).spoison ++ [{ reg := BitVec.ofNat 6 r, code := 0x0A9, ea := 0, pa := 0 }] }) ∧
    (∀ k b, (s.thread k).live = true → ∃ u : State, exec (.uncorrectableError 8 k b) s = .next u ∧ counted u ∧
      Logged s u 0x0A8 0 (some (s.thread k).part) (s.thread k).loc.toNat ∧ u.poison = s.poison ∧
      u.thread k = { s.thread k with vpoison := (s.thread k).vpoison ++ [⟨b / 256 % 32, 4 * (b % 256), 4, 0x0A8, 0, 0⟩] }) ∧
    (∀ c key, ∃ u : State, exec (.uncorrectableError 10 c key) s = .next u ∧ counted u ∧ (u.cluster c).accPoisoned key = true ∧
      (s.matrixLeaf c = none → Logged s u 0x0AA 0 (some (c / 10)) (unitLoc 1 c)) ∧
      (∀ j, j ≠ key → (u.cluster c).accPoisoned j = (s.cluster c).accPoisoned j) ∧ (u.cluster c).acc = (s.cluster c).acc) ∧
    (∀ die g, ∃ u : State, exec (.uncorrectableError 13 die g) s = .next u ∧ counted u ∧ Logged s u 0x0AD (32 * g) none 0 ∧
      u.poison = s.poison ∧ ((s.die die).shadow = none → u.die die = s.die die) ∧
      ∀ x, (s.die die).shadow = some x → ∃ y, u.die die = { s.die die with shadow := some y } ∧
        ((∃ h, y = { x with poison := setPoison x.poison h 13 }) ∨
          ∃ (j : Nat) (e : Nat × Thread) (vs : List VMark) (rs : List SMark), x.threads[j]? = some e ∧ (vs ≠ [] ∨ rs ≠ []) ∧
            (∀ m ∈ vs, m.code = 0x0AD) ∧ (∀ m ∈ rs, m.code = 0x0AD) ∧
            let t : Thread := { e.2 with vpoison := e.2.vpoison ++ vs, spoison := e.2.spoison ++ rs }
            y = { x with threads := List.set x.threads j (e.1, t) })) ∧
    ∀ line, (exec (.patrolScrub line false) s = .next s) ∧
      (128 * line < 0x60_0000_0000 → ∃ u : State, exec (.patrolScrub line true) s = .next u ∧ counted u ∧
        Logged s u 0x0A5 (128 * line) none 0 ∧ u.th = s.th ∧
        (s.poison.Pairwise (fun x y => x.1 < y.1) → ∀ g,
          u.detail g = if 4 * line ≤ g ∧ g < 4 * line + 4 then some ((s.detail g).getD 5) else s.detail g))

/-- The host's registers (R6, R7, R67, R333, R334, R337, R342, R379, R392, R404): what a write to each does; a read-only register and an
offset that holds none ignore it; in minimal mode Marigold and the dies take nothing. BAR accesses (R333, R404), fabric accesses from a peer and links (R338): HBM through BAR2 and the
fabric offsets below 384 GB, registers through BAR0, the peer queues; other offsets read 0, are ignored or refused. A write whose flits are
poisoned (the bit of `v` above its bytes) poisons the granules it writes with Detail 7 (R376). Only the physical function exists in minimal mode. A link that leaves
service is lost to the collectives that have met (R390). -/
def Obligations.HostAndPeers : Prop :=
  let lose (t : State) : State := { t with colls := t.colls.map fun c => { c with
    lost := c.lost || c.met && c.members.any fun m => m % 256 != t.devnum.toNat && !linkInService t (m % 256) } }
  (∀ (v : Word) (s : State),
    let x := v.toNat
    let wr (fn off : Nat) : Out := exec (.registerWrite fn off v) s
    let held : Prop := s.plat.minimal = true
    wr 0 0x0000 = .next (if 0x80 ≤ x % 256 then { s with devnum := v.setWidth 8 } else s) ∧
    wr 0 0x0008 = .next (lose { s with linken := v.setWidth 8 }) ∧
    wr 0 0x0018 = .next { s with plat := { s.plat with linkLost := s.plat.linkLost && !v.getLsbD 1 } } ∧
    (∀ d < 128, wr 0 (0x0100 + 8 * d) = .next (lose { s with route := s.route.set d (x % 8) })) ∧
    (∀ k < 7, wr 0 (0x1800 + 8 * k) = exec (.budWrite k v) s) ∧
    wr 0 0x2008 = .next { s with log := { s.log with ack := (v >>> 16).setWidth 16 } } ∧
    wr 0 0x2010 = .next { s with log := { s.log with drop := s.log.drop &&& ~~~(v.setWidth 32) } } ∧
    (∀ p < 16, let k := s.kvRegs p
      let kv (k : KvRegs) : Out := .next { s with kv := s.kv.set p k }
      wr 0 (0x3000 + 32 * p) = kv { k with base := v &&& ~~~15 } ∧ wr 0 (0x3008 + 32 * p) = kv { k with count := v.setWidth 32 } ∧
      wr 0 (0x3010 + 32 * p) = kv { k with drops := v.setWidth 32 } ∧
      (held → ∀ o < 64, wr 0 (0x6000 + 64 * p + o) = .next s) ∧
      (¬ held → wr 0 (0x6000 + 64 * p) = exec (.lpgo 0 p v) s ∧ wr 0 (0x6008 + 64 * p) = exec (.lpstop 0 p v) s ∧
        let port : LoopPort := { full := (s.port p).full && !v.getLsbD 1, bad := (s.port p).bad && !v.getLsbD 0 }
        wr 0 (0x6010 + 64 * p) = .next { s with ports := s.ports.set p port })) ∧
    (∀ q off, (q < 8 → off < 0x1000 → ∃ u : State, wr 0 (0x200_0000 + 0x1000 * q + off) = .next u ∧ u.tq q = tqWrite (s.tq q) off x ∧
        (∀ k, k ≠ q → u.tq k = s.tq k) ∧ u.mem = s.mem) ∧
      (1 ≤ q → q ≤ 16 → off < 0x1000 → ¬ held → ∃ u : State, wr q off = .next u ∧
        u.tq (15 + q) = tqWrite (s.tq (15 + q)) off x ∧ (∀ k, k ≠ 15 + q → u.tq k = s.tq k) ∧ u.mem = s.mem) ∧
      (1 ≤ q → held → wr q off = .next s)) ∧
    (∀ q : TileQ, tqWrite q 0x00 x = { q with base := v &&& ~~~31 } ∧
      tqWrite q 0x08 x = { q with en := v.getLsbD 31, ie := v.getLsbD 4, size := if 4 ≤ x % 16 ∧ x % 16 ≤ 12 then x % 16 else q.size } ∧
      tqWrite q 0x18 x = q ∧ tqWrite q 0x20 x = { q with ovf := q.ovf && !v.getLsbD 1, pend := q.pend && !v.getLsbD 0 }) ∧
    (∀ off ∈ [0x0010, 0x0020, 0x1840, 0x1870, 0x2000, 0x2100, 0x28F8, 0x4000, 0x53F8, 0x5400, 0xF_FFF8, 0x30_0000], wr 0 off = .next s) ∧
    ∀ die r off, die < 2 → r < 64 → off < 64 →
      let z := s.regions.get (die * 64 + r) Region.reset
      let put (z : Region) : Out := .next { s with regions := s.regions.set (die * 64 + r) z }
      wr 0 (0x10_0000 * (die + 1) + 0x1000 + 0x40 * r + off) =
        exec (.formatRegionWrite die r off v) s ∧
      (held → exec (.formatRegionWrite die r off v) s = .next s) ∧
      (¬ held →
        exec (.formatRegionWrite die r 0x00 v) s = put { z with frb := v &&& 0xF_FFFF_FFFF_FF80 } ∧
        exec (.formatRegionWrite die r 0x08 v) s = put { z with frl := v &&& 0xFFFF_FFFF_FF80 } ∧
        exec (.formatRegionWrite die r 0x10 v) s = put { z with frs := v &&& 0xF_FFFF_FFFF_FFFF } ∧
        exec (.formatRegionWrite die r 0x18 v) s = put { z with frv := v &&& 0xFFFF_FFFF_FF80 } ∧
        exec (.formatRegionWrite die r 0x20 v) s = put { z with frk := v } ∧
        exec (.formatRegionWrite die r 0x28 v) s = put { z with frc := v &&& 0xF000_0000_3FE7_FF00 })) ∧
  ∀ (off n v : Nat) (s : State), PlainMem s →
    let reads (x : Nat) : Out := .next { s with reads := s.reads ++ [⟨x, false⟩] }
    let written (o : Out) : Prop := ∃ u : State, o = .next u ∧ u = { s with mem := s.mem.writeLE off v n, colls := u.colls } ∧
      u.colls.map Coll.unmarked = s.colls.map Coll.unmarked
    let bar (fn b off : Nat) (w : Bool) (n : Nat) : Out := exec (.hostBarAccess fn b off w n v) s
    (s.plat.pcieUp = false → ∀ fn b w, bar fn b off w n = .next s) ∧
    (s.plat.minimal = true → ∀ fn b w, fn ≠ 0 ∨ b ≠ 0 → bar fn b off w n = .next s) ∧
    (s.plat.pcieUp = true →
      (s.plat.minimal = false → off + n ≤ 0x60_0000_0000 →
        written (bar 0 2 off true n) ∧ bar 0 2 off false n = reads (s.mem.readLE off n)) ∧
      (∀ fn ≤ 16, (fn = 0 ∨ s.plat.minimal = false) → off % 8 = 0 →
        bar fn 0 off true 8 = exec (.registerWrite fn off (BitVec.ofNat 64 v)) s) ∧
      (∀ e ∈ [(0x0000, s.devnum.toNat), (0x0008, s.linken.toNat), (0x0010, if s.plat.devready then 1 else 0),
          (0x2000, s.log.ce.toNat * 2 ^ 32 + s.log.ue.toNat), (0x2008, s.log.ack.toNat * 2 ^ 16 + s.log.next.toNat),
          (0x2010, s.log.drop.toNat), (0x5400, 0), (0xF_FFF8, 0), (0x30_0000, 0)] ++
          (List.range 640).map fun c => (0x4000 + 8 * c, (s.core c).feat.toNat), bar 0 0 e.1 false 8 = reads (e.2 % 2 ^ 64)) ∧
      ∀ q < 8, ∀ e ∈ [(0x10, (s.tq q).tail.toNat), (0x18, (s.tq q).head.toNat),
        (0x20, (if (s.tq q).ovf then 2 else 0) + if (s.tq q).pend then 1 else 0)],
        bar 0 0 (0x200_0000 + 0x1000 * q + e.1) false 8 = reads e.2) ∧
    (∀ w, s.linkUp &&& s.linken = 0 → exec (.peerAccess off w n v) s = .next s) ∧
    (s.linkUp &&& s.linken ≠ 0 →
      (off < 0x60_0000_0000 → off + n ≤ 0x60_0000_0000 →
        (v.testBit (8 * n) = false → written (exec (.peerAccess off true n v) s)) ∧
        (v.testBit (8 * n) = true → 0 < n → ∃ u : State, exec (.peerAccess off true n v) s = .next u ∧ u.mem = s.mem.writeLE off v n ∧
          u.th = s.th ∧ ∀ g, u.detail g = if off / 32 ≤ g ∧ g ≤ (off + n - 1) / 32 then some 7 else none) ∧
        exec (.peerAccess off false n v) s = reads (s.mem.readLE off n)) ∧
      (∀ q o, q < 8 → o < 0x1000 → off = 0x7F0_0000_0000 + 0x1000 * q + o → ∃ u : State, exec (.peerAccess off true n v) s = .next u ∧
        u.tq (8 + q) = tqWrite (s.tq (8 + q)) o (v % 2 ^ (8 * n) % 2 ^ 64) ∧ (∀ k, k ≠ 8 + q → u.tq k = s.tq k) ∧ u.mem = s.mem) ∧
      (∀ w, 0x60_0000_0000 ≤ off → off < 0x7F0_0000_0000 ∨ 0x7F0_0000_8000 ≤ off →
        exec (.peerAccess off w n v) s = .next s)) ∧
    ∀ l < 8, ∀ up : Bool, ∃ u : State, exec (.ramtinLinkChange l up) s = .next u ∧ u = lose { s with linkUp := u.linkUp } ∧
      ∀ i < 8, u.linkUp.getLsbD i = if i = l then up else s.linkUp.getLsbD i

/-! ### The machine as a whole -/

/-- A step runs what is at hand (R59, R94, R361): the word at the pc of the selected thread, which is the 8 bytes there where memory is
plain, or the cause of one that decodes to none; the tile instruction at the head of a queue; what follows at once; else a move of the
card: a step of the table, what the caches and the L2 do by themselves (R59, R60), the acceptance of a tile instruction, a word that its
slot's stop may cut short, or a trap that what R348 lets finish held up. How a word is chosen is IssueOrder's. A word that its core no longer holds comes as memory holds it; which move comes next is free. -/
def Obligations.StepRunsDecoded : Prop :=
  ∀ (s : State),
    (s.chosen = .cut ∨ (∃ x, s.chosen = .thread x) → s.th.live = true → ∀ (w : Word) (u : State), fetch s.th.pc s = .ok w u →
      (∀ i, decodeWord w = .ok i → step s = exec i u) ∧
      (∀ e, decodeIn u w = .error e → s.th.resume = none → step s =
        .next { deliver { code := e.detail, xval := w } false u with chosen := .none })) ∧
    (Quiet s → InHbm s.th.pc 8 →
      let w : Word := BitVec.ofNat 64 (s.bytes s.th.pc 8)
      let c := s.core s.th.coreNo
      let held := c.icache.find (s.th.pc.toNat / 8)
      (held = some w → fetch s.th.pc s = .ok w s) ∧
      (held = none → ∃ u : State, fetch s.th.pc s = .ok w u ∧ (u.core s.th.coreNo).icache.find (s.th.pc.toNat / 8) = some w ∧
        u = { s with cores := u.cores, free := u.free } ∧
        ∀ k, u.core k = if k = s.th.coreNo then { c with icache := (u.core k).icache } else s.core k)) ∧
    (∀ (d : Nat) (j : TileJob) (rest : List TileJob) (i : Instr), s.chosen = .tile d → (s.dec d).queue = j :: rest →
      let word (k : Nat) : Word := BitVec.ofNat 64 (j.word.toNat >>> (64 * k))
      decodeTile (word 0) (word 1) (word 2) (word 3) = .ok i → step s = exec i s) ∧
    (s.chosen = .none →
      (∀ i l, s.agenda = i :: l → step s = exec i { s with agenda := l }) ∧
      (s.agenda = [] → moves s = [] → step s = .next s) ∧
      (s.agenda = [] → moves s ≠ [] →
        let u := s.tick
        ∃ m ∈ moves s, step s = match m with
        | .event i => exec i u
        | .tile d => .next { u with chosen := .tile d }
        | .cut k => .next { u.select k with chosen := .cut, agenda := [.slotStop (s.thread k).coreNo (s.thread k).slot] }
        | .trap k => .next (u.on k takePending)
        | .writeBack c line => .next (writeBackLine c line u)
        | .dropStale c => .next (u.setCluster c { u.cluster c with stale := (u.cluster c).stale.filter fun x => x.2.ahead })
        | .dropGranule g => .next (giveUp 160 [g] u)))

/-- Right after reset (R339, R346, R352, R357, R399, R400, R404): DEVREADY and the registers of every partition are 0, no thread lives,
every slot is stopped, the banks are caches, no copy differs from memory, the queues and stores are empty, and memory is in its canonical form. -/
def Obligations.ResetState : Prop :=
  let s := State.reset
  s.MemOk ∧ s.late = [] ∧ s.fabric = [] ∧ s.colls = [] ∧ s.unseen = [] ∧ s.loops = [] ∧ s.th.live = false ∧ s.parked = [] ∧ s.plat.devready = false ∧ s.plat.minimal = false ∧ s.plat.limit = 0 ∧
    s.devnum = 0x80 ∧ s.linken = 0 ∧ s.log = ⟨0, 0, 0, 0, 0, []⟩ ∧
    s.bud.toList.map BitVec.toNat = [64, 512, 128, 64, 128, 96, 32] ∧ s.ovr.toList = List.replicate 7 0 ∧
    (∀ c, (s.core c).stop = 0xFF ∧ (s.core c).stopped = 0xFF ∧ (s.core c).reserved = none ∧ (s.core c).upd = []) ∧
    (∀ c, (s.cluster c).ccyc = 0 ∧ (s.cluster c).stale = [] ∧ ∀ b ∈ (s.cluster c).banks.toList, b.mode = 0 ∧ b.ring = []) ∧
    (∀ p, let q := s.part p
      q.ptroot = 0 ∧ q.ptctx = 0 ∧ q.xvec = 0 ∧ q.tvbase = 0 ∧ q.tstep = 0 ∧ q.tmark = 0 ∧ q.tlb = [] ∧ q.bindings = [] ∧ q.hints = [] ∧
      q.halted = false ∧ (∀ l ∈ q.queues.toList, l = []) ∧ ∀ c ∈ q.chans.toList, c.st = .idle) ∧
    (∀ d, (s.dec d).queue = [] ∧ (s.dec d).running = []) ∧ (∀ d, (s.die d).pswap = 0 ∧ (s.die d).shadow = none) ∧
    (∀ q, let t := s.tq q
      t.base = 0 ∧ t.en = false ∧ t.ie = false ∧ t.size = 4 ∧ t.tail = 0 ∧ t.head = 0 ∧ t.ovf = false ∧ t.pend = false) ∧
    ∀ r, s.regions.get r Region.reset = ⟨0, 0, 0, 0, 0, 0⟩

/-- Every step from a state whose memory is in canonical form leaves it so: addresses rise, and no cell lists what an unlisted address
reads as, so that equal memories are equal data. The form, and that unlisted bytes read 0 (log 4), is the model's own. -/
def Obligations.StepKeepsMemOk : Prop := ∀ s t : State, s.MemOk → step s = .next t → t.MemOk

/-- FEAT is set by fuses before shipment and never changes afterwards (R20): no step, reset, kill, save or load changes it in any
core. -/
def Obligations.StepKeepsFuses : Prop := ∀ s t : State, step s = .next t → State.SameFuses s t
end

