-- ==== Sys2Proof/Laws/Memory.lean ====
section
/-! SUPPORT. Laws of sparse tables and of memory: the canonical form is kept, and a read after a write. -/

namespace Sys2Proof.Machine

/-! ### Tables -/

@[simp] theorem Table.find_nil {α : Type} (k : Nat) : Table.find ([] : Table α) k = none := rfl

theorem Table.find_set_same {α : Type} (t : Table α) (k : Nat) (v : α) : (Table.set t k v).find k = some v := by
  induction t with
  | nil => simp [Table.set, Table.find]
  | cons e t ih =>
    simp only [Table.set]
    split_ifs with h1 h2
    · simp [Table.find]
    · simp [Table.find]
    · simp [Table.find, Ne.symm h1, ih]

theorem Table.find_set_other {α : Type} (t : Table α) {k j : Nat} (v : α) (h : j ≠ k) :
    (Table.set t k v).find j = t.find j := by
  induction t with
  | nil => simp [Table.set, Table.find, Ne.symm h]
  | cons e t ih =>
    simp only [Table.set]
    split_ifs with h1 h2
    · subst h1; simp [Table.find, Ne.symm h]
    · simp [Table.find, Ne.symm h]
    · simp [Table.find, ih]

/-- A filter by key keeps or drops each entry. -/
theorem Table.find_filter {α : Type} (t : Table α) (p : Nat → Bool) (k : Nat) :
    Table.find (t.filter fun e => p e.1) k = if p k then t.find k else none := by
  induction t with
  | nil => simp
  | cons e t ih =>
    obtain ⟨i, x⟩ := e
    by_cases hp : p i = true <;> by_cases hk : i = k <;> simp_all [Table.find]

theorem Table.find_erase {α : Type} (t : Table α) (k j : Nat) :
    (Table.erase t k).find j = if j = k then none else t.find j := by
  have h := Table.find_filter t (fun i => i != k) j
  simp only [Table.erase, h]
  by_cases hk : j = k <;> simp [hk]

@[simp] theorem Table.get_set_same {α : Type} (t : Table α) (k : Nat) (v d : α) : (Table.set t k v).get k d = v := by
  simp [Table.get, Table.find_set_same]

theorem Table.get_set_other {α : Type} (t : Table α) {k j : Nat} (v d : α) (h : j ≠ k) :
    (Table.set t k v).get j d = t.get j d := by
  simp [Table.get, Table.find_set_other t v h]

/-! ### Memory -/

theorem Mem.wfFrom_mono : ∀ {lo hi : Nat} {m : Mem}, Mem.wfFrom hi m = true → lo ≤ hi → Mem.wfFrom lo m = true
  | _, _, [], _, _ => rfl
  | _, _, (i, v) :: m, h, hle => by
    simp only [Mem.wfFrom, Bool.and_eq_true, decide_eq_true_eq] at h ⊢
    exact ⟨⟨le_trans hle h.1.1, h.1.2⟩, h.2⟩

/-- A byte below every listed address reads as an unlisted one. -/
theorem Mem.read_below : ∀ {lo : Nat} {m : Mem} {a : Nat}, Mem.wfFrom lo m = true → a < lo → Mem.read m a = unlisted
  | _, [], _, _, _ => rfl
  | _, (i, v) :: m, a, h, hlt => by
    simp only [Mem.wfFrom, Bool.and_eq_true, decide_eq_true_eq] at h
    have h1 : ¬ i = a := by omega
    have h2 : a < i := by omega
    simp [Mem.read, h1, h2]

theorem Mem.write_wfFrom : ∀ {lo : Nat} {m : Mem} {a : Nat} {v : Byte}, Mem.wfFrom lo m = true → lo ≤ a →
    Mem.wfFrom lo (Mem.write m a v) = true
  | lo, [], a, v, _, hle => by
    simp only [Mem.write]; split
    · rfl
    · simp [Mem.wfFrom, *]
  | lo, (i, x) :: m, a, v, h, hle => by
    simp only [Mem.wfFrom, Bool.and_eq_true, decide_eq_true_eq] at h
    simp only [Mem.write]
    split
    · rename_i hai; subst hai
      split
      · exact Mem.wfFrom_mono h.2 (by omega)
      · simp [Mem.wfFrom, h.2, *]
    · split
      · split
        · simp [Mem.wfFrom, h]
        · have : Mem.wfFrom (i + 1) m = true := h.2
          simp [Mem.wfFrom, *]
      · have ih := Mem.write_wfFrom (a := a) (v := v) h.2 (by omega)
        simp [Mem.wfFrom, h.1.1, h.1.2, ih]

/-- A write keeps the canonical form. -/
theorem Mem.write_wf {m : Mem} (a : Nat) (v : Byte) (h : Memory.wf m = true) : Memory.wf (m.write a v) = true :=
  Mem.write_wfFrom h (Nat.zero_le _)

theorem Mem.writeLE_wf {m : Mem} (a v : Nat) (h : Memory.wf m = true) : ∀ n, Memory.wf (m.writeLE a v n) = true
  | 0 => h
  | n + 1 => Mem.write_wf _ _ (Mem.writeLE_wf a v h n)

theorem Mem.read_write_same_from : ∀ {lo : Nat} {m : Mem} {a : Nat} {v : Byte}, Mem.wfFrom lo m = true →
    Mem.read (Mem.write m a v) a = v
  | _, [], a, v, _ => by
    simp only [Mem.write]; split <;> simp_all [Mem.read]
  | lo, (i, x) :: m, a, v, h => by
    simp only [Mem.wfFrom, Bool.and_eq_true, decide_eq_true_eq] at h
    simp only [Mem.write]
    split
    · rename_i hai; subst hai
      split
      · rename_i hv; rw [Mem.read_below h.2 (by omega), hv]
      · simp [Mem.read]
    · rename_i hai
      split
      · split
        · rename_i hlt hv
          have : ¬ i = a := fun e => hai e.symm
          simp [Mem.read, this, hlt, hv]
        · simp [Mem.read]
      · rename_i hlt
        have h1 : ¬ i = a := fun e => hai e.symm
        simp [Mem.read, h1, hlt, Mem.read_write_same_from h.2]

/-- A read after a write to the same address gives the byte written. -/
theorem Mem.read_write_same {m : Mem} (a : Nat) (v : Byte) (h : Memory.wf m = true) : (m.write a v).read a = v :=
  Mem.read_write_same_from h

theorem Mem.read_write_other_from : ∀ {lo : Nat} {m : Mem} {a b : Nat} {v : Byte}, Mem.wfFrom lo m = true → b ≠ a →
    Mem.read (Mem.write m a v) b = Mem.read m b
  | _, [], a, b, v, _, hne => by
    simp only [Mem.write]; split
    · rfl
    · simp only [Mem.read]; split
      · simp_all
      · split <;> rfl
  | lo, (i, x) :: m, a, b, v, h, hne => by
    simp only [Mem.wfFrom, Bool.and_eq_true, decide_eq_true_eq] at h
    simp only [Mem.write]
    split
    · rename_i hai; subst hai
      split
      · simp only [Mem.read, if_neg (Ne.symm hne)]
        split
        · rename_i hlt; exact Mem.read_below h.2 (by omega)
        · rfl
      · simp [Mem.read, Ne.symm hne]
    · split
      · split
        · rfl
        · simp only [Mem.read, if_neg (Ne.symm hne)]
          split
          · split <;> [omega; split <;> [rfl; omega]]
          · rfl
      · simp only [Mem.read, Mem.read_write_other_from h.2 hne]

/-- A write leaves every other address alone. -/
theorem Mem.read_write_other {m : Mem} {a b : Nat} (v : Byte) (h : Memory.wf m = true) (hne : b ≠ a) :
    (m.write a v).read b = m.read b :=
  Mem.read_write_other_from h hne

/-- A store of `n` bytes leaves every byte outside them alone. -/
theorem Mem.read_writeLE_outside {m : Mem} (a v : Nat) {b : Nat} (h : Memory.wf m = true) :
    ∀ n, (b < a ∨ a + n ≤ b) → (m.writeLE a v n).read b = m.read b
  | 0, _ => rfl
  | n + 1, hb => by
    rw [Mem.writeLE, Mem.read_write_other _ (Mem.writeLE_wf a v h n) (by omega),
      Mem.read_writeLE_outside a v h n (by omega)]

/-- Byte `k` of a little-endian store. -/
theorem Mem.read_writeLE_inside {m : Mem} (a v : Nat) (h : Memory.wf m = true) :
    ∀ n k, k < n → (m.writeLE a v n).read (a + k) = BitVec.ofNat 8 (v >>> (8 * k))
  | 0, _, hk => absurd hk (by omega)
  | n + 1, k, hk => by
    by_cases hkn : k = n
    · subst hkn; exact Mem.read_write_same _ _ (Mem.writeLE_wf a v h k)
    · rw [Mem.writeLE, Mem.read_write_other _ (Mem.writeLE_wf a v h n) (by omega),
        Mem.read_writeLE_inside a v h n k (by omega)]

/-- The value of `n` bytes depends on those bytes alone. -/
theorem Mem.readLE_congr {m m' : Mem} (a : Nat) : ∀ n, (∀ k < n, m.read (a + k) = m'.read (a + k)) →
    m.readLE a n = m'.readLE a n
  | 0, _ => rfl
  | n + 1, h => by
    rw [Mem.readLE, Mem.readLE, Mem.readLE_congr a n fun k hk => h k (by omega), h n (by omega)]

/-- A read after a store of the same bytes gives the low bytes of the value stored. -/
theorem Mem.readLE_writeLE {m : Mem} (a v : Nat) (h : Memory.wf m = true) :
    ∀ n, (m.writeLE a v n).readLE a n = v % 2 ^ (8 * n)
  | 0 => by simp [Mem.readLE, Nat.mod_one]
  | n + 1 => by
    have h0 : (m.writeLE a v (n + 1)).readLE a n = (m.writeLE a v n).readLE a n :=
      Mem.readLE_congr a n fun k hk => by
        rw [Mem.read_writeLE_inside a v h (n + 1) k (by omega), Mem.read_writeLE_inside a v h n k hk]
    rw [Mem.readLE, h0, Mem.readLE_writeLE a v h n, Mem.read_writeLE_inside a v h (n + 1) n (by omega)]
    rw [BitVec.toNat_ofNat, Nat.shiftRight_eq_div_pow, Nat.shiftLeft_eq, Nat.mul_add, Nat.pow_add, Nat.mod_mul]
    ring

/-- Equal reads make canonical memories equal. -/
theorem Mem.ext_from : ∀ {lo : Nat} {m m' : Mem}, Mem.wfFrom lo m = true → Mem.wfFrom lo m' = true →
    (∀ a, m.read a = m'.read a) → m = m'
  | _, [], [], _, _, _ => rfl
  | _, [], (i, v) :: m, _, h', hr => by
    simp only [Mem.wfFrom, Bool.and_eq_true, decide_eq_true_eq] at h'
    exact absurd (by simpa [Mem.read] using (hr i).symm) h'.1.2
  | _, (i, v) :: m, [], h, _, hr => by
    simp only [Mem.wfFrom, Bool.and_eq_true, decide_eq_true_eq] at h
    exact absurd (by simpa [Mem.read] using hr i) h.1.2
  | lo, (i, v) :: m, (j, w) :: m', h, h', hr => by
    simp only [Mem.wfFrom, Bool.and_eq_true, decide_eq_true_eq] at h h'
    have hij : i = j := by
      rcases Nat.lt_trichotomy i j with hlt | heq | hgt
      · have := hr i
        have hji : ¬ j = i := by omega
        simp [Mem.read, hji, hlt] at this
        exact absurd this h.1.2
      · exact heq
      · have := hr j
        have hij : ¬ i = j := by omega
        simp [Mem.read, hij, hgt] at this
        exact absurd this.symm h'.1.2
    subst hij
    have hvw : v = w := by simpa [Mem.read] using hr i
    subst hvw
    have : m = m' := Mem.ext_from h.2 h'.2 fun a => by
      by_cases ha : a < i + 1
      · rw [Mem.read_below h.2 ha, Mem.read_below h'.2 ha]
      · have := hr a
        have h1 : ¬ i = a := by omega
        have h2 : ¬ a < i := by omega
        simpa [Mem.read, h1, h2] using this
    rw [this]

/-- Equal reads make canonical memories equal data. -/
theorem Mem.ext {m m' : Mem} (h : Memory.wf m = true) (h' : Memory.wf m' = true) (hr : ∀ a, m.read a = m'.read a) :
    m = m' :=
  Mem.ext_from h h' hr

end Sys2Proof.Machine
end

