-- ==== Sys2Proof/Laws/State.lean ====
section
/-! SUPPORT. What each update of the state and of a thread leaves: one lemma per update and field. -/

namespace Sys2Proof.Machine

/-! ### Updates of the state -/

@[simp] theorem State.setPart_th (s : State) (p : Nat) (x : Partition) : (s.setPart p x).th = s.th := rfl
@[simp] theorem State.setPart_cur (s : State) (p : Nat) (x : Partition) : (s.setPart p x).cur = s.cur := rfl
@[simp] theorem State.setPart_parked (s : State) (p : Nat) (x : Partition) : (s.setPart p x).parked = s.parked := rfl
@[simp] theorem State.setPart_cores (s : State) (p : Nat) (x : Partition) : (s.setPart p x).cores = s.cores := rfl
@[simp] theorem State.setPart_clusters (s : State) (p : Nat) (x : Partition) : (s.setPart p x).clusters = s.clusters := rfl
@[simp] theorem State.setPart_mem (s : State) (p : Nat) (x : Partition) : (s.setPart p x).mem = s.mem := rfl
@[simp] theorem State.setPart_poison (s : State) (p : Nat) (x : Partition) : (s.setPart p x).poison = s.poison := rfl
@[simp] theorem State.setPart_late (s : State) (p : Nat) (x : Partition) : (s.setPart p x).late = s.late := rfl
@[simp] theorem State.setPart_frames (s : State) (p : Nat) (x : Partition) : (s.setPart p x).frames = s.frames := rfl
@[simp] theorem State.setPart_log (s : State) (p : Nat) (x : Partition) : (s.setPart p x).log = s.log := rfl
@[simp] theorem State.setPart_monitor (s : State) (p : Nat) (x : Partition) : (s.setPart p x).monitor = s.monitor := rfl
@[simp] theorem State.setPart_regions (s : State) (p : Nat) (x : Partition) : (s.setPart p x).regions = s.regions := rfl
@[simp] theorem State.setPart_tqs (s : State) (p : Nat) (x : Partition) : (s.setPart p x).tqs = s.tqs := rfl
@[simp] theorem State.setPart_devnum (s : State) (p : Nat) (x : Partition) : (s.setPart p x).devnum = s.devnum := rfl
@[simp] theorem State.setPart_linken (s : State) (p : Nat) (x : Partition) : (s.setPart p x).linken = s.linken := rfl
@[simp] theorem State.setPart_route (s : State) (p : Nat) (x : Partition) : (s.setPart p x).route = s.route := rfl
@[simp] theorem State.setPart_linkUp (s : State) (p : Nat) (x : Partition) : (s.setPart p x).linkUp = s.linkUp := rfl
@[simp] theorem State.setPart_bud (s : State) (p : Nat) (x : Partition) : (s.setPart p x).bud = s.bud := rfl
@[simp] theorem State.setPart_ovr (s : State) (p : Nat) (x : Partition) : (s.setPart p x).ovr = s.ovr := rfl
@[simp] theorem State.setPart_served (s : State) (p : Nat) (x : Partition) : (s.setPart p x).served = s.served := rfl
@[simp] theorem State.setPart_decs (s : State) (p : Nat) (x : Partition) : (s.setPart p x).decs = s.decs := rfl
@[simp] theorem State.setPart_dies (s : State) (p : Nat) (x : Partition) : (s.setPart p x).dies = s.dies := rfl
@[simp] theorem State.setPart_zjobs (s : State) (p : Nat) (x : Partition) : (s.setPart p x).zjobs = s.zjobs := rfl
@[simp] theorem State.setPart_colls (s : State) (p : Nat) (x : Partition) : (s.setPart p x).colls = s.colls := rfl
@[simp] theorem State.setPart_fabric (s : State) (p : Nat) (x : Partition) : (s.setPart p x).fabric = s.fabric := rfl
@[simp] theorem State.setPart_unseen (s : State) (p : Nat) (x : Partition) : (s.setPart p x).unseen = s.unseen := rfl
@[simp] theorem State.setPart_loops (s : State) (p : Nat) (x : Partition) : (s.setPart p x).loops = s.loops := rfl
@[simp] theorem State.setPart_ports (s : State) (p : Nat) (x : Partition) : (s.setPart p x).ports = s.ports := rfl
@[simp] theorem State.setPart_kv (s : State) (p : Nat) (x : Partition) : (s.setPart p x).kv = s.kv := rfl
@[simp] theorem State.setPart_slices (s : State) (p : Nat) (x : Partition) : (s.setPart p x).slices = s.slices := rfl
@[simp] theorem State.setPart_msix (s : State) (p : Nat) (x : Partition) : (s.setPart p x).msix = s.msix := rfl
@[simp] theorem State.setPart_reads (s : State) (p : Nat) (x : Partition) : (s.setPart p x).reads = s.reads := rfl
@[simp] theorem State.setPart_sent (s : State) (p : Nat) (x : Partition) : (s.setPart p x).sent = s.sent := rfl
@[simp] theorem State.setPart_plat (s : State) (p : Nat) (x : Partition) : (s.setPart p x).plat = s.plat := rfl
@[simp] theorem State.setPart_agenda (s : State) (p : Nat) (x : Partition) : (s.setPart p x).agenda = s.agenda := rfl
@[simp] theorem State.setPart_chosen (s : State) (p : Nat) (x : Partition) : (s.setPart p x).chosen = s.chosen := rfl
@[simp] theorem State.setPart_boosts (s : State) (p : Nat) (x : Partition) : (s.setPart p x).boosts = s.boosts := rfl
@[simp] theorem State.setPart_free (s : State) (p : Nat) (x : Partition) : (s.setPart p x).free = s.free := rfl

@[simp] theorem State.setCluster_th (s : State) (c : Nat) (x : Cluster) : (s.setCluster c x).th = s.th := rfl
@[simp] theorem State.setCluster_cur (s : State) (c : Nat) (x : Cluster) : (s.setCluster c x).cur = s.cur := rfl
@[simp] theorem State.setCluster_parked (s : State) (c : Nat) (x : Cluster) : (s.setCluster c x).parked = s.parked := rfl
@[simp] theorem State.setCluster_cores (s : State) (c : Nat) (x : Cluster) : (s.setCluster c x).cores = s.cores := rfl
@[simp] theorem State.setCluster_parts (s : State) (c : Nat) (x : Cluster) : (s.setCluster c x).parts = s.parts := rfl
@[simp] theorem State.setCluster_mem (s : State) (c : Nat) (x : Cluster) : (s.setCluster c x).mem = s.mem := rfl
@[simp] theorem State.setCluster_poison (s : State) (c : Nat) (x : Cluster) : (s.setCluster c x).poison = s.poison := rfl
@[simp] theorem State.setCluster_late (s : State) (c : Nat) (x : Cluster) : (s.setCluster c x).late = s.late := rfl
@[simp] theorem State.setCluster_frames (s : State) (c : Nat) (x : Cluster) : (s.setCluster c x).frames = s.frames := rfl
@[simp] theorem State.setCluster_log (s : State) (c : Nat) (x : Cluster) : (s.setCluster c x).log = s.log := rfl
@[simp] theorem State.setCluster_monitor (s : State) (c : Nat) (x : Cluster) : (s.setCluster c x).monitor = s.monitor := rfl
@[simp] theorem State.setCluster_regions (s : State) (c : Nat) (x : Cluster) : (s.setCluster c x).regions = s.regions := rfl
@[simp] theorem State.setCluster_tqs (s : State) (c : Nat) (x : Cluster) : (s.setCluster c x).tqs = s.tqs := rfl
@[simp] theorem State.setCluster_devnum (s : State) (c : Nat) (x : Cluster) : (s.setCluster c x).devnum = s.devnum := rfl
@[simp] theorem State.setCluster_linken (s : State) (c : Nat) (x : Cluster) : (s.setCluster c x).linken = s.linken := rfl
@[simp] theorem State.setCluster_route (s : State) (c : Nat) (x : Cluster) : (s.setCluster c x).route = s.route := rfl
@[simp] theorem State.setCluster_linkUp (s : State) (c : Nat) (x : Cluster) : (s.setCluster c x).linkUp = s.linkUp := rfl
@[simp] theorem State.setCluster_bud (s : State) (c : Nat) (x : Cluster) : (s.setCluster c x).bud = s.bud := rfl
@[simp] theorem State.setCluster_ovr (s : State) (c : Nat) (x : Cluster) : (s.setCluster c x).ovr = s.ovr := rfl
@[simp] theorem State.setCluster_served (s : State) (c : Nat) (x : Cluster) : (s.setCluster c x).served = s.served := rfl
@[simp] theorem State.setCluster_decs (s : State) (c : Nat) (x : Cluster) : (s.setCluster c x).decs = s.decs := rfl
@[simp] theorem State.setCluster_dies (s : State) (c : Nat) (x : Cluster) : (s.setCluster c x).dies = s.dies := rfl
@[simp] theorem State.setCluster_zjobs (s : State) (c : Nat) (x : Cluster) : (s.setCluster c x).zjobs = s.zjobs := rfl
@[simp] theorem State.setCluster_colls (s : State) (c : Nat) (x : Cluster) : (s.setCluster c x).colls = s.colls := rfl
@[simp] theorem State.setCluster_fabric (s : State) (c : Nat) (x : Cluster) : (s.setCluster c x).fabric = s.fabric := rfl
@[simp] theorem State.setCluster_unseen (s : State) (c : Nat) (x : Cluster) : (s.setCluster c x).unseen = s.unseen := rfl
@[simp] theorem State.setCluster_loops (s : State) (c : Nat) (x : Cluster) : (s.setCluster c x).loops = s.loops := rfl
@[simp] theorem State.setCluster_ports (s : State) (c : Nat) (x : Cluster) : (s.setCluster c x).ports = s.ports := rfl
@[simp] theorem State.setCluster_kv (s : State) (c : Nat) (x : Cluster) : (s.setCluster c x).kv = s.kv := rfl
@[simp] theorem State.setCluster_slices (s : State) (c : Nat) (x : Cluster) : (s.setCluster c x).slices = s.slices := rfl
@[simp] theorem State.setCluster_msix (s : State) (c : Nat) (x : Cluster) : (s.setCluster c x).msix = s.msix := rfl
@[simp] theorem State.setCluster_reads (s : State) (c : Nat) (x : Cluster) : (s.setCluster c x).reads = s.reads := rfl
@[simp] theorem State.setCluster_sent (s : State) (c : Nat) (x : Cluster) : (s.setCluster c x).sent = s.sent := rfl
@[simp] theorem State.setCluster_plat (s : State) (c : Nat) (x : Cluster) : (s.setCluster c x).plat = s.plat := rfl
@[simp] theorem State.setCluster_agenda (s : State) (c : Nat) (x : Cluster) : (s.setCluster c x).agenda = s.agenda := rfl
@[simp] theorem State.setCluster_chosen (s : State) (c : Nat) (x : Cluster) : (s.setCluster c x).chosen = s.chosen := rfl
@[simp] theorem State.setCluster_boosts (s : State) (c : Nat) (x : Cluster) : (s.setCluster c x).boosts = s.boosts := rfl
@[simp] theorem State.setCluster_free (s : State) (c : Nat) (x : Cluster) : (s.setCluster c x).free = s.free := rfl

@[simp] theorem State.setCore_th (s : State) (c : Nat) (x : Core) : (s.setCore c x).th = s.th := rfl
@[simp] theorem State.setCore_cur (s : State) (c : Nat) (x : Core) : (s.setCore c x).cur = s.cur := rfl
@[simp] theorem State.setCore_parked (s : State) (c : Nat) (x : Core) : (s.setCore c x).parked = s.parked := rfl
@[simp] theorem State.setCore_clusters (s : State) (c : Nat) (x : Core) : (s.setCore c x).clusters = s.clusters := rfl
@[simp] theorem State.setCore_parts (s : State) (c : Nat) (x : Core) : (s.setCore c x).parts = s.parts := rfl
@[simp] theorem State.setCore_mem (s : State) (c : Nat) (x : Core) : (s.setCore c x).mem = s.mem := rfl
@[simp] theorem State.setCore_poison (s : State) (c : Nat) (x : Core) : (s.setCore c x).poison = s.poison := rfl
@[simp] theorem State.setCore_late (s : State) (c : Nat) (x : Core) : (s.setCore c x).late = s.late := rfl
@[simp] theorem State.setCore_frames (s : State) (c : Nat) (x : Core) : (s.setCore c x).frames = s.frames := rfl
@[simp] theorem State.setCore_log (s : State) (c : Nat) (x : Core) : (s.setCore c x).log = s.log := rfl
@[simp] theorem State.setCore_monitor (s : State) (c : Nat) (x : Core) : (s.setCore c x).monitor = s.monitor := rfl
@[simp] theorem State.setCore_regions (s : State) (c : Nat) (x : Core) : (s.setCore c x).regions = s.regions := rfl
@[simp] theorem State.setCore_tqs (s : State) (c : Nat) (x : Core) : (s.setCore c x).tqs = s.tqs := rfl
@[simp] theorem State.setCore_devnum (s : State) (c : Nat) (x : Core) : (s.setCore c x).devnum = s.devnum := rfl
@[simp] theorem State.setCore_linken (s : State) (c : Nat) (x : Core) : (s.setCore c x).linken = s.linken := rfl
@[simp] theorem State.setCore_route (s : State) (c : Nat) (x : Core) : (s.setCore c x).route = s.route := rfl
@[simp] theorem State.setCore_linkUp (s : State) (c : Nat) (x : Core) : (s.setCore c x).linkUp = s.linkUp := rfl
@[simp] theorem State.setCore_bud (s : State) (c : Nat) (x : Core) : (s.setCore c x).bud = s.bud := rfl
@[simp] theorem State.setCore_ovr (s : State) (c : Nat) (x : Core) : (s.setCore c x).ovr = s.ovr := rfl
@[simp] theorem State.setCore_served (s : State) (c : Nat) (x : Core) : (s.setCore c x).served = s.served := rfl
@[simp] theorem State.setCore_decs (s : State) (c : Nat) (x : Core) : (s.setCore c x).decs = s.decs := rfl
@[simp] theorem State.setCore_dies (s : State) (c : Nat) (x : Core) : (s.setCore c x).dies = s.dies := rfl
@[simp] theorem State.setCore_zjobs (s : State) (c : Nat) (x : Core) : (s.setCore c x).zjobs = s.zjobs := rfl
@[simp] theorem State.setCore_colls (s : State) (c : Nat) (x : Core) : (s.setCore c x).colls = s.colls := rfl
@[simp] theorem State.setCore_fabric (s : State) (c : Nat) (x : Core) : (s.setCore c x).fabric = s.fabric := rfl
@[simp] theorem State.setCore_unseen (s : State) (c : Nat) (x : Core) : (s.setCore c x).unseen = s.unseen := rfl
@[simp] theorem State.setCore_loops (s : State) (c : Nat) (x : Core) : (s.setCore c x).loops = s.loops := rfl
@[simp] theorem State.setCore_ports (s : State) (c : Nat) (x : Core) : (s.setCore c x).ports = s.ports := rfl
@[simp] theorem State.setCore_kv (s : State) (c : Nat) (x : Core) : (s.setCore c x).kv = s.kv := rfl
@[simp] theorem State.setCore_slices (s : State) (c : Nat) (x : Core) : (s.setCore c x).slices = s.slices := rfl
@[simp] theorem State.setCore_msix (s : State) (c : Nat) (x : Core) : (s.setCore c x).msix = s.msix := rfl
@[simp] theorem State.setCore_reads (s : State) (c : Nat) (x : Core) : (s.setCore c x).reads = s.reads := rfl
@[simp] theorem State.setCore_sent (s : State) (c : Nat) (x : Core) : (s.setCore c x).sent = s.sent := rfl
@[simp] theorem State.setCore_plat (s : State) (c : Nat) (x : Core) : (s.setCore c x).plat = s.plat := rfl
@[simp] theorem State.setCore_agenda (s : State) (c : Nat) (x : Core) : (s.setCore c x).agenda = s.agenda := rfl
@[simp] theorem State.setCore_chosen (s : State) (c : Nat) (x : Core) : (s.setCore c x).chosen = s.chosen := rfl
@[simp] theorem State.setCore_boosts (s : State) (c : Nat) (x : Core) : (s.setCore c x).boosts = s.boosts := rfl
@[simp] theorem State.setCore_free (s : State) (c : Nat) (x : Core) : (s.setCore c x).free = s.free := rfl

@[simp] theorem State.wrMem_th (s : State) (pa v n : Nat) : (s.wrMem pa v n).th = s.th := rfl
@[simp] theorem State.wrMem_cur (s : State) (pa v n : Nat) : (s.wrMem pa v n).cur = s.cur := rfl
@[simp] theorem State.wrMem_parked (s : State) (pa v n : Nat) : (s.wrMem pa v n).parked = s.parked := rfl
@[simp] theorem State.wrMem_cores (s : State) (pa v n : Nat) : (s.wrMem pa v n).cores = s.cores := rfl
@[simp] theorem State.wrMem_clusters (s : State) (pa v n : Nat) : (s.wrMem pa v n).clusters = s.clusters := rfl
@[simp] theorem State.wrMem_parts (s : State) (pa v n : Nat) : (s.wrMem pa v n).parts = s.parts := rfl
@[simp] theorem State.wrMem_poison (s : State) (pa v n : Nat) : (s.wrMem pa v n).poison = s.poison := rfl
@[simp] theorem State.wrMem_late (s : State) (pa v n : Nat) : (s.wrMem pa v n).late = s.late := rfl
@[simp] theorem State.wrMem_log (s : State) (pa v n : Nat) : (s.wrMem pa v n).log = s.log := rfl
@[simp] theorem State.wrMem_monitor (s : State) (pa v n : Nat) : (s.wrMem pa v n).monitor = s.monitor := rfl
@[simp] theorem State.wrMem_regions (s : State) (pa v n : Nat) : (s.wrMem pa v n).regions = s.regions := rfl
@[simp] theorem State.wrMem_tqs (s : State) (pa v n : Nat) : (s.wrMem pa v n).tqs = s.tqs := rfl
@[simp] theorem State.wrMem_devnum (s : State) (pa v n : Nat) : (s.wrMem pa v n).devnum = s.devnum := rfl
@[simp] theorem State.wrMem_linken (s : State) (pa v n : Nat) : (s.wrMem pa v n).linken = s.linken := rfl
@[simp] theorem State.wrMem_route (s : State) (pa v n : Nat) : (s.wrMem pa v n).route = s.route := rfl
@[simp] theorem State.wrMem_linkUp (s : State) (pa v n : Nat) : (s.wrMem pa v n).linkUp = s.linkUp := rfl
@[simp] theorem State.wrMem_bud (s : State) (pa v n : Nat) : (s.wrMem pa v n).bud = s.bud := rfl
@[simp] theorem State.wrMem_ovr (s : State) (pa v n : Nat) : (s.wrMem pa v n).ovr = s.ovr := rfl
@[simp] theorem State.wrMem_served (s : State) (pa v n : Nat) : (s.wrMem pa v n).served = s.served := rfl
@[simp] theorem State.wrMem_decs (s : State) (pa v n : Nat) : (s.wrMem pa v n).decs = s.decs := rfl
@[simp] theorem State.wrMem_dies (s : State) (pa v n : Nat) : (s.wrMem pa v n).dies = s.dies := rfl
@[simp] theorem State.wrMem_zjobs (s : State) (pa v n : Nat) : (s.wrMem pa v n).zjobs = s.zjobs := rfl
@[simp] theorem State.wrMem_colls (s : State) (pa v n : Nat) : (s.wrMem pa v n).colls = s.colls := rfl
@[simp] theorem State.wrMem_fabric (s : State) (pa v n : Nat) : (s.wrMem pa v n).fabric = s.fabric := rfl
@[simp] theorem State.wrMem_unseen (s : State) (pa v n : Nat) : (s.wrMem pa v n).unseen = s.unseen := rfl
@[simp] theorem State.wrMem_loops (s : State) (pa v n : Nat) : (s.wrMem pa v n).loops = s.loops := rfl
@[simp] theorem State.wrMem_ports (s : State) (pa v n : Nat) : (s.wrMem pa v n).ports = s.ports := rfl
@[simp] theorem State.wrMem_kv (s : State) (pa v n : Nat) : (s.wrMem pa v n).kv = s.kv := rfl
@[simp] theorem State.wrMem_slices (s : State) (pa v n : Nat) : (s.wrMem pa v n).slices = s.slices := rfl
@[simp] theorem State.wrMem_msix (s : State) (pa v n : Nat) : (s.wrMem pa v n).msix = s.msix := rfl
@[simp] theorem State.wrMem_reads (s : State) (pa v n : Nat) : (s.wrMem pa v n).reads = s.reads := rfl
@[simp] theorem State.wrMem_sent (s : State) (pa v n : Nat) : (s.wrMem pa v n).sent = s.sent := rfl
@[simp] theorem State.wrMem_plat (s : State) (pa v n : Nat) : (s.wrMem pa v n).plat = s.plat := rfl
@[simp] theorem State.wrMem_agenda (s : State) (pa v n : Nat) : (s.wrMem pa v n).agenda = s.agenda := rfl
@[simp] theorem State.wrMem_chosen (s : State) (pa v n : Nat) : (s.wrMem pa v n).chosen = s.chosen := rfl
@[simp] theorem State.wrMem_boosts (s : State) (pa v n : Nat) : (s.wrMem pa v n).boosts = s.boosts := rfl
@[simp] theorem State.wrMem_free (s : State) (pa v n : Nat) : (s.wrMem pa v n).free = s.free := rfl

@[simp] theorem State.tick_th (s : State) : s.tick.th = s.th := rfl
@[simp] theorem State.tick_cur (s : State) : s.tick.cur = s.cur := rfl
@[simp] theorem State.tick_parked (s : State) : s.tick.parked = s.parked := rfl
@[simp] theorem State.tick_cores (s : State) : s.tick.cores = s.cores := rfl
@[simp] theorem State.tick_clusters (s : State) : s.tick.clusters = s.clusters := rfl
@[simp] theorem State.tick_parts (s : State) : s.tick.parts = s.parts := rfl
@[simp] theorem State.tick_mem (s : State) : s.tick.mem = s.mem := rfl
@[simp] theorem State.tick_poison (s : State) : s.tick.poison = s.poison := rfl
@[simp] theorem State.tick_late (s : State) : s.tick.late = s.late := rfl
@[simp] theorem State.tick_frames (s : State) : s.tick.frames = s.frames := rfl
@[simp] theorem State.tick_log (s : State) : s.tick.log = s.log := rfl
@[simp] theorem State.tick_monitor (s : State) : s.tick.monitor = s.monitor := rfl
@[simp] theorem State.tick_regions (s : State) : s.tick.regions = s.regions := rfl
@[simp] theorem State.tick_tqs (s : State) : s.tick.tqs = s.tqs := rfl
@[simp] theorem State.tick_devnum (s : State) : s.tick.devnum = s.devnum := rfl
@[simp] theorem State.tick_linken (s : State) : s.tick.linken = s.linken := rfl
@[simp] theorem State.tick_route (s : State) : s.tick.route = s.route := rfl
@[simp] theorem State.tick_linkUp (s : State) : s.tick.linkUp = s.linkUp := rfl
@[simp] theorem State.tick_bud (s : State) : s.tick.bud = s.bud := rfl
@[simp] theorem State.tick_ovr (s : State) : s.tick.ovr = s.ovr := rfl
@[simp] theorem State.tick_served (s : State) : s.tick.served = s.served := rfl
@[simp] theorem State.tick_decs (s : State) : s.tick.decs = s.decs := rfl
@[simp] theorem State.tick_dies (s : State) : s.tick.dies = s.dies := rfl
@[simp] theorem State.tick_zjobs (s : State) : s.tick.zjobs = s.zjobs := rfl
@[simp] theorem State.tick_colls (s : State) : s.tick.colls = s.colls := rfl
@[simp] theorem State.tick_fabric (s : State) : s.tick.fabric = s.fabric := rfl
@[simp] theorem State.tick_unseen (s : State) : s.tick.unseen = s.unseen := rfl
@[simp] theorem State.tick_loops (s : State) : s.tick.loops = s.loops := rfl
@[simp] theorem State.tick_ports (s : State) : s.tick.ports = s.ports := rfl
@[simp] theorem State.tick_kv (s : State) : s.tick.kv = s.kv := rfl
@[simp] theorem State.tick_slices (s : State) : s.tick.slices = s.slices := rfl
@[simp] theorem State.tick_msix (s : State) : s.tick.msix = s.msix := rfl
@[simp] theorem State.tick_reads (s : State) : s.tick.reads = s.reads := rfl
@[simp] theorem State.tick_sent (s : State) : s.tick.sent = s.sent := rfl
@[simp] theorem State.tick_plat (s : State) : s.tick.plat = s.plat := rfl
@[simp] theorem State.tick_agenda (s : State) : s.tick.agenda = s.agenda := rfl
@[simp] theorem State.tick_chosen (s : State) : s.tick.chosen = s.chosen := rfl
@[simp] theorem State.tick_boosts (s : State) : s.tick.boosts = s.boosts := rfl

@[simp] theorem State.setDec_th (s : State) (d : Nat) (x : Decomposer) : (s.setDec d x).th = s.th := rfl
@[simp] theorem State.setDec_cur (s : State) (d : Nat) (x : Decomposer) : (s.setDec d x).cur = s.cur := rfl
@[simp] theorem State.setDec_parked (s : State) (d : Nat) (x : Decomposer) : (s.setDec d x).parked = s.parked := rfl
@[simp] theorem State.setDec_cores (s : State) (d : Nat) (x : Decomposer) : (s.setDec d x).cores = s.cores := rfl
@[simp] theorem State.setDec_clusters (s : State) (d : Nat) (x : Decomposer) : (s.setDec d x).clusters = s.clusters := rfl
@[simp] theorem State.setDec_parts (s : State) (d : Nat) (x : Decomposer) : (s.setDec d x).parts = s.parts := rfl
@[simp] theorem State.setDec_mem (s : State) (d : Nat) (x : Decomposer) : (s.setDec d x).mem = s.mem := rfl
@[simp] theorem State.setDec_poison (s : State) (d : Nat) (x : Decomposer) : (s.setDec d x).poison = s.poison := rfl
@[simp] theorem State.setDec_late (s : State) (d : Nat) (x : Decomposer) : (s.setDec d x).late = s.late := rfl
@[simp] theorem State.setDec_frames (s : State) (d : Nat) (x : Decomposer) : (s.setDec d x).frames = s.frames := rfl
@[simp] theorem State.setDec_log (s : State) (d : Nat) (x : Decomposer) : (s.setDec d x).log = s.log := rfl
@[simp] theorem State.setDec_monitor (s : State) (d : Nat) (x : Decomposer) : (s.setDec d x).monitor = s.monitor := rfl
@[simp] theorem State.setDec_regions (s : State) (d : Nat) (x : Decomposer) : (s.setDec d x).regions = s.regions := rfl
@[simp] theorem State.setDec_tqs (s : State) (d : Nat) (x : Decomposer) : (s.setDec d x).tqs = s.tqs := rfl
@[simp] theorem State.setDec_devnum (s : State) (d : Nat) (x : Decomposer) : (s.setDec d x).devnum = s.devnum := rfl
@[simp] theorem State.setDec_linken (s : State) (d : Nat) (x : Decomposer) : (s.setDec d x).linken = s.linken := rfl
@[simp] theorem State.setDec_route (s : State) (d : Nat) (x : Decomposer) : (s.setDec d x).route = s.route := rfl
@[simp] theorem State.setDec_linkUp (s : State) (d : Nat) (x : Decomposer) : (s.setDec d x).linkUp = s.linkUp := rfl
@[simp] theorem State.setDec_bud (s : State) (d : Nat) (x : Decomposer) : (s.setDec d x).bud = s.bud := rfl
@[simp] theorem State.setDec_ovr (s : State) (d : Nat) (x : Decomposer) : (s.setDec d x).ovr = s.ovr := rfl
@[simp] theorem State.setDec_served (s : State) (d : Nat) (x : Decomposer) : (s.setDec d x).served = s.served := rfl
@[simp] theorem State.setDec_dies (s : State) (d : Nat) (x : Decomposer) : (s.setDec d x).dies = s.dies := rfl
@[simp] theorem State.setDec_zjobs (s : State) (d : Nat) (x : Decomposer) : (s.setDec d x).zjobs = s.zjobs := rfl
@[simp] theorem State.setDec_colls (s : State) (d : Nat) (x : Decomposer) : (s.setDec d x).colls = s.colls := rfl
@[simp] theorem State.setDec_fabric (s : State) (d : Nat) (x : Decomposer) : (s.setDec d x).fabric = s.fabric := rfl
@[simp] theorem State.setDec_unseen (s : State) (d : Nat) (x : Decomposer) : (s.setDec d x).unseen = s.unseen := rfl
@[simp] theorem State.setDec_loops (s : State) (d : Nat) (x : Decomposer) : (s.setDec d x).loops = s.loops := rfl
@[simp] theorem State.setDec_ports (s : State) (d : Nat) (x : Decomposer) : (s.setDec d x).ports = s.ports := rfl
@[simp] theorem State.setDec_kv (s : State) (d : Nat) (x : Decomposer) : (s.setDec d x).kv = s.kv := rfl
@[simp] theorem State.setDec_slices (s : State) (d : Nat) (x : Decomposer) : (s.setDec d x).slices = s.slices := rfl
@[simp] theorem State.setDec_msix (s : State) (d : Nat) (x : Decomposer) : (s.setDec d x).msix = s.msix := rfl
@[simp] theorem State.setDec_reads (s : State) (d : Nat) (x : Decomposer) : (s.setDec d x).reads = s.reads := rfl
@[simp] theorem State.setDec_sent (s : State) (d : Nat) (x : Decomposer) : (s.setDec d x).sent = s.sent := rfl
@[simp] theorem State.setDec_plat (s : State) (d : Nat) (x : Decomposer) : (s.setDec d x).plat = s.plat := rfl
@[simp] theorem State.setDec_agenda (s : State) (d : Nat) (x : Decomposer) : (s.setDec d x).agenda = s.agenda := rfl
@[simp] theorem State.setDec_chosen (s : State) (d : Nat) (x : Decomposer) : (s.setDec d x).chosen = s.chosen := rfl
@[simp] theorem State.setDec_boosts (s : State) (d : Nat) (x : Decomposer) : (s.setDec d x).boosts = s.boosts := rfl
@[simp] theorem State.setDec_free (s : State) (d : Nat) (x : Decomposer) : (s.setDec d x).free = s.free := rfl

@[simp] theorem State.setThread_cur (s : State) (k : Nat) (t : Thread) : (s.setThread k t).cur = s.cur := by unfold State.setThread; split <;> rfl
@[simp] theorem State.setThread_cores (s : State) (k : Nat) (t : Thread) : (s.setThread k t).cores = s.cores := by unfold State.setThread; split <;> rfl
@[simp] theorem State.setThread_clusters (s : State) (k : Nat) (t : Thread) : (s.setThread k t).clusters = s.clusters := by unfold State.setThread; split <;> rfl
@[simp] theorem State.setThread_parts (s : State) (k : Nat) (t : Thread) : (s.setThread k t).parts = s.parts := by unfold State.setThread; split <;> rfl
@[simp] theorem State.setThread_mem (s : State) (k : Nat) (t : Thread) : (s.setThread k t).mem = s.mem := by unfold State.setThread; split <;> rfl
@[simp] theorem State.setThread_poison (s : State) (k : Nat) (t : Thread) : (s.setThread k t).poison = s.poison := by unfold State.setThread; split <;> rfl
@[simp] theorem State.setThread_late (s : State) (k : Nat) (t : Thread) : (s.setThread k t).late = s.late := by unfold State.setThread; split <;> rfl
@[simp] theorem State.setThread_frames (s : State) (k : Nat) (t : Thread) : (s.setThread k t).frames = s.frames := by unfold State.setThread; split <;> rfl
@[simp] theorem State.setThread_log (s : State) (k : Nat) (t : Thread) : (s.setThread k t).log = s.log := by unfold State.setThread; split <;> rfl
@[simp] theorem State.setThread_monitor (s : State) (k : Nat) (t : Thread) : (s.setThread k t).monitor = s.monitor := by unfold State.setThread; split <;> rfl
@[simp] theorem State.setThread_regions (s : State) (k : Nat) (t : Thread) : (s.setThread k t).regions = s.regions := by unfold State.setThread; split <;> rfl
@[simp] theorem State.setThread_tqs (s : State) (k : Nat) (t : Thread) : (s.setThread k t).tqs = s.tqs := by unfold State.setThread; split <;> rfl
@[simp] theorem State.setThread_devnum (s : State) (k : Nat) (t : Thread) : (s.setThread k t).devnum = s.devnum := by unfold State.setThread; split <;> rfl
@[simp] theorem State.setThread_linken (s : State) (k : Nat) (t : Thread) : (s.setThread k t).linken = s.linken := by unfold State.setThread; split <;> rfl
@[simp] theorem State.setThread_route (s : State) (k : Nat) (t : Thread) : (s.setThread k t).route = s.route := by unfold State.setThread; split <;> rfl
@[simp] theorem State.setThread_linkUp (s : State) (k : Nat) (t : Thread) : (s.setThread k t).linkUp = s.linkUp := by unfold State.setThread; split <;> rfl
@[simp] theorem State.setThread_bud (s : State) (k : Nat) (t : Thread) : (s.setThread k t).bud = s.bud := by unfold State.setThread; split <;> rfl
@[simp] theorem State.setThread_ovr (s : State) (k : Nat) (t : Thread) : (s.setThread k t).ovr = s.ovr := by unfold State.setThread; split <;> rfl
@[simp] theorem State.setThread_served (s : State) (k : Nat) (t : Thread) : (s.setThread k t).served = s.served := by unfold State.setThread; split <;> rfl
@[simp] theorem State.setThread_decs (s : State) (k : Nat) (t : Thread) : (s.setThread k t).decs = s.decs := by unfold State.setThread; split <;> rfl
@[simp] theorem State.setThread_dies (s : State) (k : Nat) (t : Thread) : (s.setThread k t).dies = s.dies := by unfold State.setThread; split <;> rfl
@[simp] theorem State.setThread_zjobs (s : State) (k : Nat) (t : Thread) : (s.setThread k t).zjobs = s.zjobs := by unfold State.setThread; split <;> rfl
@[simp] theorem State.setThread_colls (s : State) (k : Nat) (t : Thread) : (s.setThread k t).colls = s.colls := by unfold State.setThread; split <;> rfl
@[simp] theorem State.setThread_fabric (s : State) (k : Nat) (t : Thread) : (s.setThread k t).fabric = s.fabric := by unfold State.setThread; split <;> rfl
@[simp] theorem State.setThread_unseen (s : State) (k : Nat) (t : Thread) : (s.setThread k t).unseen = s.unseen := by unfold State.setThread; split <;> rfl
@[simp] theorem State.setThread_loops (s : State) (k : Nat) (t : Thread) : (s.setThread k t).loops = s.loops := by unfold State.setThread; split <;> rfl
@[simp] theorem State.setThread_ports (s : State) (k : Nat) (t : Thread) : (s.setThread k t).ports = s.ports := by unfold State.setThread; split <;> rfl
@[simp] theorem State.setThread_kv (s : State) (k : Nat) (t : Thread) : (s.setThread k t).kv = s.kv := by unfold State.setThread; split <;> rfl
@[simp] theorem State.setThread_slices (s : State) (k : Nat) (t : Thread) : (s.setThread k t).slices = s.slices := by unfold State.setThread; split <;> rfl
@[simp] theorem State.setThread_msix (s : State) (k : Nat) (t : Thread) : (s.setThread k t).msix = s.msix := by unfold State.setThread; split <;> rfl
@[simp] theorem State.setThread_reads (s : State) (k : Nat) (t : Thread) : (s.setThread k t).reads = s.reads := by unfold State.setThread; split <;> rfl
@[simp] theorem State.setThread_sent (s : State) (k : Nat) (t : Thread) : (s.setThread k t).sent = s.sent := by unfold State.setThread; split <;> rfl
@[simp] theorem State.setThread_plat (s : State) (k : Nat) (t : Thread) : (s.setThread k t).plat = s.plat := by unfold State.setThread; split <;> rfl
@[simp] theorem State.setThread_agenda (s : State) (k : Nat) (t : Thread) : (s.setThread k t).agenda = s.agenda := by unfold State.setThread; split <;> rfl
@[simp] theorem State.setThread_chosen (s : State) (k : Nat) (t : Thread) : (s.setThread k t).chosen = s.chosen := by unfold State.setThread; split <;> rfl
@[simp] theorem State.setThread_boosts (s : State) (k : Nat) (t : Thread) : (s.setThread k t).boosts = s.boosts := by unfold State.setThread; split <;> rfl
@[simp] theorem State.setThread_free (s : State) (k : Nat) (t : Thread) : (s.setThread k t).free = s.free := by unfold State.setThread; split <;> rfl

@[simp] theorem State.dropThread_cur (s : State) (k : Nat) : (s.dropThread k).cur = s.cur := by unfold State.dropThread; split <;> rfl
@[simp] theorem State.dropThread_cores (s : State) (k : Nat) : (s.dropThread k).cores = s.cores := by unfold State.dropThread; split <;> rfl
@[simp] theorem State.dropThread_clusters (s : State) (k : Nat) : (s.dropThread k).clusters = s.clusters := by unfold State.dropThread; split <;> rfl
@[simp] theorem State.dropThread_parts (s : State) (k : Nat) : (s.dropThread k).parts = s.parts := by unfold State.dropThread; split <;> rfl
@[simp] theorem State.dropThread_mem (s : State) (k : Nat) : (s.dropThread k).mem = s.mem := by unfold State.dropThread; split <;> rfl
@[simp] theorem State.dropThread_poison (s : State) (k : Nat) : (s.dropThread k).poison = s.poison := by unfold State.dropThread; split <;> rfl
@[simp] theorem State.dropThread_late (s : State) (k : Nat) : (s.dropThread k).late = s.late := by unfold State.dropThread; split <;> rfl
@[simp] theorem State.dropThread_frames (s : State) (k : Nat) : (s.dropThread k).frames = s.frames := by unfold State.dropThread; split <;> rfl
@[simp] theorem State.dropThread_log (s : State) (k : Nat) : (s.dropThread k).log = s.log := by unfold State.dropThread; split <;> rfl
@[simp] theorem State.dropThread_monitor (s : State) (k : Nat) : (s.dropThread k).monitor = s.monitor := by unfold State.dropThread; split <;> rfl
@[simp] theorem State.dropThread_regions (s : State) (k : Nat) : (s.dropThread k).regions = s.regions := by unfold State.dropThread; split <;> rfl
@[simp] theorem State.dropThread_tqs (s : State) (k : Nat) : (s.dropThread k).tqs = s.tqs := by unfold State.dropThread; split <;> rfl
@[simp] theorem State.dropThread_devnum (s : State) (k : Nat) : (s.dropThread k).devnum = s.devnum := by unfold State.dropThread; split <;> rfl
@[simp] theorem State.dropThread_linken (s : State) (k : Nat) : (s.dropThread k).linken = s.linken := by unfold State.dropThread; split <;> rfl
@[simp] theorem State.dropThread_route (s : State) (k : Nat) : (s.dropThread k).route = s.route := by unfold State.dropThread; split <;> rfl
@[simp] theorem State.dropThread_linkUp (s : State) (k : Nat) : (s.dropThread k).linkUp = s.linkUp := by unfold State.dropThread; split <;> rfl
@[simp] theorem State.dropThread_bud (s : State) (k : Nat) : (s.dropThread k).bud = s.bud := by unfold State.dropThread; split <;> rfl
@[simp] theorem State.dropThread_ovr (s : State) (k : Nat) : (s.dropThread k).ovr = s.ovr := by unfold State.dropThread; split <;> rfl
@[simp] theorem State.dropThread_served (s : State) (k : Nat) : (s.dropThread k).served = s.served := by unfold State.dropThread; split <;> rfl
@[simp] theorem State.dropThread_decs (s : State) (k : Nat) : (s.dropThread k).decs = s.decs := by unfold State.dropThread; split <;> rfl
@[simp] theorem State.dropThread_dies (s : State) (k : Nat) : (s.dropThread k).dies = s.dies := by unfold State.dropThread; split <;> rfl
@[simp] theorem State.dropThread_zjobs (s : State) (k : Nat) : (s.dropThread k).zjobs = s.zjobs := by unfold State.dropThread; split <;> rfl
@[simp] theorem State.dropThread_colls (s : State) (k : Nat) : (s.dropThread k).colls = s.colls := by unfold State.dropThread; split <;> rfl
@[simp] theorem State.dropThread_fabric (s : State) (k : Nat) : (s.dropThread k).fabric = s.fabric := by unfold State.dropThread; split <;> rfl
@[simp] theorem State.dropThread_unseen (s : State) (k : Nat) : (s.dropThread k).unseen = s.unseen := by unfold State.dropThread; split <;> rfl
@[simp] theorem State.dropThread_loops (s : State) (k : Nat) : (s.dropThread k).loops = s.loops := by unfold State.dropThread; split <;> rfl
@[simp] theorem State.dropThread_ports (s : State) (k : Nat) : (s.dropThread k).ports = s.ports := by unfold State.dropThread; split <;> rfl
@[simp] theorem State.dropThread_kv (s : State) (k : Nat) : (s.dropThread k).kv = s.kv := by unfold State.dropThread; split <;> rfl
@[simp] theorem State.dropThread_slices (s : State) (k : Nat) : (s.dropThread k).slices = s.slices := by unfold State.dropThread; split <;> rfl
@[simp] theorem State.dropThread_msix (s : State) (k : Nat) : (s.dropThread k).msix = s.msix := by unfold State.dropThread; split <;> rfl
@[simp] theorem State.dropThread_reads (s : State) (k : Nat) : (s.dropThread k).reads = s.reads := by unfold State.dropThread; split <;> rfl
@[simp] theorem State.dropThread_sent (s : State) (k : Nat) : (s.dropThread k).sent = s.sent := by unfold State.dropThread; split <;> rfl
@[simp] theorem State.dropThread_plat (s : State) (k : Nat) : (s.dropThread k).plat = s.plat := by unfold State.dropThread; split <;> rfl
@[simp] theorem State.dropThread_agenda (s : State) (k : Nat) : (s.dropThread k).agenda = s.agenda := by unfold State.dropThread; split <;> rfl
@[simp] theorem State.dropThread_chosen (s : State) (k : Nat) : (s.dropThread k).chosen = s.chosen := by unfold State.dropThread; split <;> rfl
@[simp] theorem State.dropThread_boosts (s : State) (k : Nat) : (s.dropThread k).boosts = s.boosts := by unfold State.dropThread; split <;> rfl
@[simp] theorem State.dropThread_free (s : State) (k : Nat) : (s.dropThread k).free = s.free := by unfold State.dropThread; split <;> rfl

@[simp] theorem State.select_cores (s : State) (k : Nat) : (s.select k).cores = s.cores := by unfold State.select; split <;> rfl
@[simp] theorem State.select_clusters (s : State) (k : Nat) : (s.select k).clusters = s.clusters := by unfold State.select; split <;> rfl
@[simp] theorem State.select_parts (s : State) (k : Nat) : (s.select k).parts = s.parts := by unfold State.select; split <;> rfl
@[simp] theorem State.select_mem (s : State) (k : Nat) : (s.select k).mem = s.mem := by unfold State.select; split <;> rfl
@[simp] theorem State.select_poison (s : State) (k : Nat) : (s.select k).poison = s.poison := by unfold State.select; split <;> rfl
@[simp] theorem State.select_late (s : State) (k : Nat) : (s.select k).late = s.late := by unfold State.select; split <;> rfl
@[simp] theorem State.select_frames (s : State) (k : Nat) : (s.select k).frames = s.frames := by unfold State.select; split <;> rfl
@[simp] theorem State.select_log (s : State) (k : Nat) : (s.select k).log = s.log := by unfold State.select; split <;> rfl
@[simp] theorem State.select_monitor (s : State) (k : Nat) : (s.select k).monitor = s.monitor := by unfold State.select; split <;> rfl
@[simp] theorem State.select_regions (s : State) (k : Nat) : (s.select k).regions = s.regions := by unfold State.select; split <;> rfl
@[simp] theorem State.select_tqs (s : State) (k : Nat) : (s.select k).tqs = s.tqs := by unfold State.select; split <;> rfl
@[simp] theorem State.select_devnum (s : State) (k : Nat) : (s.select k).devnum = s.devnum := by unfold State.select; split <;> rfl
@[simp] theorem State.select_linken (s : State) (k : Nat) : (s.select k).linken = s.linken := by unfold State.select; split <;> rfl
@[simp] theorem State.select_route (s : State) (k : Nat) : (s.select k).route = s.route := by unfold State.select; split <;> rfl
@[simp] theorem State.select_linkUp (s : State) (k : Nat) : (s.select k).linkUp = s.linkUp := by unfold State.select; split <;> rfl
@[simp] theorem State.select_bud (s : State) (k : Nat) : (s.select k).bud = s.bud := by unfold State.select; split <;> rfl
@[simp] theorem State.select_ovr (s : State) (k : Nat) : (s.select k).ovr = s.ovr := by unfold State.select; split <;> rfl
@[simp] theorem State.select_served (s : State) (k : Nat) : (s.select k).served = s.served := by unfold State.select; split <;> rfl
@[simp] theorem State.select_decs (s : State) (k : Nat) : (s.select k).decs = s.decs := by unfold State.select; split <;> rfl
@[simp] theorem State.select_dies (s : State) (k : Nat) : (s.select k).dies = s.dies := by unfold State.select; split <;> rfl
@[simp] theorem State.select_zjobs (s : State) (k : Nat) : (s.select k).zjobs = s.zjobs := by unfold State.select; split <;> rfl
@[simp] theorem State.select_colls (s : State) (k : Nat) : (s.select k).colls = s.colls := by unfold State.select; split <;> rfl
@[simp] theorem State.select_fabric (s : State) (k : Nat) : (s.select k).fabric = s.fabric := by unfold State.select; split <;> rfl
@[simp] theorem State.select_unseen (s : State) (k : Nat) : (s.select k).unseen = s.unseen := by unfold State.select; split <;> rfl
@[simp] theorem State.select_loops (s : State) (k : Nat) : (s.select k).loops = s.loops := by unfold State.select; split <;> rfl
@[simp] theorem State.select_ports (s : State) (k : Nat) : (s.select k).ports = s.ports := by unfold State.select; split <;> rfl
@[simp] theorem State.select_kv (s : State) (k : Nat) : (s.select k).kv = s.kv := by unfold State.select; split <;> rfl
@[simp] theorem State.select_slices (s : State) (k : Nat) : (s.select k).slices = s.slices := by unfold State.select; split <;> rfl
@[simp] theorem State.select_msix (s : State) (k : Nat) : (s.select k).msix = s.msix := by unfold State.select; split <;> rfl
@[simp] theorem State.select_reads (s : State) (k : Nat) : (s.select k).reads = s.reads := by unfold State.select; split <;> rfl
@[simp] theorem State.select_sent (s : State) (k : Nat) : (s.select k).sent = s.sent := by unfold State.select; split <;> rfl
@[simp] theorem State.select_plat (s : State) (k : Nat) : (s.select k).plat = s.plat := by unfold State.select; split <;> rfl
@[simp] theorem State.select_agenda (s : State) (k : Nat) : (s.select k).agenda = s.agenda := by unfold State.select; split <;> rfl
@[simp] theorem State.select_chosen (s : State) (k : Nat) : (s.select k).chosen = s.chosen := by unfold State.select; split <;> rfl
@[simp] theorem State.select_boosts (s : State) (k : Nat) : (s.select k).boosts = s.boosts := by unfold State.select; split <;> rfl
@[simp] theorem State.select_free (s : State) (k : Nat) : (s.select k).free = s.free := by unfold State.select; split <;> rfl

/-! ### Updates of a thread -/

@[simp] theorem Thread.setS_live (t : Thread) (r : BitVec 6) (v : Word) : (t.setS r v).live = t.live := by unfold Thread.setS; split <;> rfl
@[simp] theorem Thread.setS_part (t : Thread) (r : BitVec 6) (v : Word) : (t.setS r v).part = t.part := by unfold Thread.setS; split <;> rfl
@[simp] theorem Thread.setS_entry (t : Thread) (r : BitVec 6) (v : Word) : (t.setS r v).entry = t.entry := by unfold Thread.setS; split <;> rfl
@[simp] theorem Thread.setS_pc (t : Thread) (r : BitVec 6) (v : Word) : (t.setS r v).pc = t.pc := by unfold Thread.setS; split <;> rfl
@[simp] theorem Thread.setS_level (t : Thread) (r : BitVec 6) (v : Word) : (t.setS r v).level = t.level := by unfold Thread.setS; split <;> rfl
@[simp] theorem Thread.setS_vcfg (t : Thread) (r : BitVec 6) (v : Word) : (t.setS r v).vcfg = t.vcfg := by unfold Thread.setS; split <;> rfl
@[simp] theorem Thread.setS_vrows (t : Thread) (r : BitVec 6) (v : Word) : (t.setS r v).vrows = t.vrows := by unfold Thread.setS; split <;> rfl
@[simp] theorem Thread.setS_vpitch (t : Thread) (r : BitVec 6) (v : Word) : (t.setS r v).vpitch = t.vpitch := by unfold Thread.setS; split <;> rfl
@[simp] theorem Thread.setS_vstart (t : Thread) (r : BitVec 6) (v : Word) : (t.setS r v).vstart = t.vstart := by unfold Thread.setS; split <;> rfl
@[simp] theorem Thread.setS_eprog (t : Thread) (r : BitVec 6) (v : Word) : (t.setS r v).eprog = t.eprog := by unfold Thread.setS; split <;> rfl
@[simp] theorem Thread.setS_vxsat (t : Thread) (r : BitVec 6) (v : Word) : (t.setS r v).vxsat = t.vxsat := by unfold Thread.setS; split <;> rfl
@[simp] theorem Thread.setS_fflags (t : Thread) (r : BitVec 6) (v : Word) : (t.setS r v).fflags = t.fflags := by unfold Thread.setS; split <;> rfl
@[simp] theorem Thread.setS_frm (t : Thread) (r : BitVec 6) (v : Word) : (t.setS r v).frm = t.frm := by unfold Thread.setS; split <;> rfl
@[simp] theorem Thread.setS_step (t : Thread) (r : BitVec 6) (v : Word) : (t.setS r v).step = t.step := by unfold Thread.setS; split <;> rfl
@[simp] theorem Thread.setS_tid (t : Thread) (r : BitVec 6) (v : Word) : (t.setS r v).tid = t.tid := by unfold Thread.setS; split <;> rfl
@[simp] theorem Thread.setS_mgrant (t : Thread) (r : BitVec 6) (v : Word) : (t.setS r v).mgrant = t.mgrant := by unfold Thread.setS; split <;> rfl
@[simp] theorem Thread.setS_xcause (t : Thread) (r : BitVec 6) (v : Word) : (t.setS r v).xcause = t.xcause := by unfold Thread.setS; split <;> rfl
@[simp] theorem Thread.setS_xpc (t : Thread) (r : BitVec 6) (v : Word) : (t.setS r v).xpc = t.xpc := by unfold Thread.setS; split <;> rfl
@[simp] theorem Thread.setS_xval (t : Thread) (r : BitVec 6) (v : Word) : (t.setS r v).xval = t.xval := by unfold Thread.setS; split <;> rfl
@[simp] theorem Thread.setS_xstat (t : Thread) (r : BitVec 6) (v : Word) : (t.setS r v).xstat = t.xstat := by unfold Thread.setS; split <;> rfl
@[simp] theorem Thread.setS_xprog (t : Thread) (r : BitVec 6) (v : Word) : (t.setS r v).xprog = t.xprog := by unfold Thread.setS; split <;> rfl
@[simp] theorem Thread.setS_dbg (t : Thread) (r : BitVec 6) (v : Word) : (t.setS r v).dbg = t.dbg := by unfold Thread.setS; split <;> rfl
@[simp] theorem Thread.setS_xscr (t : Thread) (r : BitVec 6) (v : Word) : (t.setS r v).xscr = t.xscr := by unfold Thread.setS; split <;> rfl
@[simp] theorem Thread.setS_g (t : Thread) (r : BitVec 6) (v : Word) : (t.setS r v).g = t.g := by unfold Thread.setS; split <;> rfl
@[simp] theorem Thread.setS_v (t : Thread) (r : BitVec 6) (v : Word) : (t.setS r v).v = t.v := by unfold Thread.setS; split <;> rfl
@[simp] theorem Thread.setS_sort (t : Thread) (r : BitVec 6) (v : Word) : (t.setS r v).sort = t.sort := by unfold Thread.setS; split <;> rfl
@[simp] theorem Thread.setS_m (t : Thread) (r : BitVec 6) (v : Word) : (t.setS r v).m = t.m := by unfold Thread.setS; split <;> rfl
@[simp] theorem Thread.setS_q (t : Thread) (r : BitVec 6) (v : Word) : (t.setS r v).q = t.q := by unfold Thread.setS; split <;> rfl
@[simp] theorem Thread.setS_w (t : Thread) (r : BitVec 6) (v : Word) : (t.setS r v).w = t.w := by unfold Thread.setS; split <;> rfl
@[simp] theorem Thread.setS_scan (t : Thread) (r : BitVec 6) (v : Word) : (t.setS r v).scan = t.scan := by unfold Thread.setS; split <;> rfl
@[simp] theorem Thread.setS_isL (t : Thread) (r : BitVec 6) (v : Word) : (t.setS r v).isL = t.isL := by unfold Thread.setS; split <;> rfl
@[simp] theorem Thread.setS_prio (t : Thread) (r : BitVec 6) (v : Word) : (t.setS r v).prio = t.prio := by unfold Thread.setS; split <;> rfl
@[simp] theorem Thread.setS_seq (t : Thread) (r : BitVec 6) (v : Word) : (t.setS r v).seq = t.seq := by unfold Thread.setS; split <;> rfl
@[simp] theorem Thread.setS_index (t : Thread) (r : BitVec 6) (v : Word) : (t.setS r v).index = t.index := by unfold Thread.setS; split <;> rfl
@[simp] theorem Thread.setS_req (t : Thread) (r : BitVec 6) (v : Word) : (t.setS r v).req = t.req := by unfold Thread.setS; split <;> rfl
@[simp] theorem Thread.setS_pos (t : Thread) (r : BitVec 6) (v : Word) : (t.setS r v).pos = t.pos := by unfold Thread.setS; split <;> rfl
@[simp] theorem Thread.setS_lc (t : Thread) (r : BitVec 6) (v : Word) : (t.setS r v).lc = t.lc := by unfold Thread.setS; split <;> rfl
@[simp] theorem Thread.setS_home (t : Thread) (r : BitVec 6) (v : Word) : (t.setS r v).home = t.home := by unfold Thread.setS; split <;> rfl
@[simp] theorem Thread.setS_passes (t : Thread) (r : BitVec 6) (v : Word) : (t.setS r v).passes = t.passes := by unfold Thread.setS; split <;> rfl
@[simp] theorem Thread.setS_boosted (t : Thread) (r : BitVec 6) (v : Word) : (t.setS r v).boosted = t.boosted := by unfold Thread.setS; split <;> rfl
@[simp] theorem Thread.setS_wait (t : Thread) (r : BitVec 6) (v : Word) : (t.setS r v).wait = t.wait := by unfold Thread.setS; split <;> rfl
@[simp] theorem Thread.setS_resume (t : Thread) (r : BitVec 6) (v : Word) : (t.setS r v).resume = t.resume := by unfold Thread.setS; split <;> rfl
@[simp] theorem Thread.setS_saved (t : Thread) (r : BitVec 6) (v : Word) : (t.setS r v).saved = t.saved := by unfold Thread.setS; split <;> rfl
@[simp] theorem Thread.setS_vldas (t : Thread) (r : BitVec 6) (v : Word) : (t.setS r v).vldas = t.vldas := by unfold Thread.setS; split <;> rfl
/-- A write to a register takes it away from a load that still waits for it (R61). -/
theorem Thread.setS_loads (t : Thread) {r : BitVec 6} (v : Word) (h : r ≠ 0) :
    (t.setS r v).loads = t.loads.map fun l => if l.vec.isNone && l.reg == r then { l with reg := 0 } else l := by unfold Thread.setS; rw [if_neg h]
@[simp] theorem Thread.setS_mmaRun (t : Thread) (r : BitVec 6) (v : Word) : (t.setS r v).mmaRun = t.mmaRun := by unfold Thread.setS; split <;> rfl
@[simp] theorem Thread.setS_zfault (t : Thread) (r : BitVec 6) (v : Word) : (t.setS r v).zfault = t.zfault := by unfold Thread.setS; split <;> rfl
@[simp] theorem Thread.setS_begun (t : Thread) (r : BitVec 6) (v : Word) : (t.setS r v).begun = t.begun := by unfold Thread.setS; split <;> rfl
@[simp] theorem Thread.setS_trap (t : Thread) (r : BitVec 6) (v : Word) : (t.setS r v).trap = t.trap := by unfold Thread.setS; split <;> rfl
@[simp] theorem Thread.setS_prefs (t : Thread) (r : BitVec 6) (v : Word) : (t.setS r v).prefs = t.prefs := by unfold Thread.setS; split <;> rfl
@[simp] theorem Thread.setS_vpoison (t : Thread) (r : BitVec 6) (v : Word) : (t.setS r v).vpoison = t.vpoison := by unfold Thread.setS; split <;> rfl

@[simp] theorem Thread.setVreg_live (t : Thread) (n : Nat) (x : BitVec 8192) : (t.setVreg n x).live = t.live := by unfold Thread.setVreg; split <;> rfl
@[simp] theorem Thread.setVreg_part (t : Thread) (n : Nat) (x : BitVec 8192) : (t.setVreg n x).part = t.part := by unfold Thread.setVreg; split <;> rfl
@[simp] theorem Thread.setVreg_entry (t : Thread) (n : Nat) (x : BitVec 8192) : (t.setVreg n x).entry = t.entry := by unfold Thread.setVreg; split <;> rfl
@[simp] theorem Thread.setVreg_pc (t : Thread) (n : Nat) (x : BitVec 8192) : (t.setVreg n x).pc = t.pc := by unfold Thread.setVreg; split <;> rfl
@[simp] theorem Thread.setVreg_s (t : Thread) (n : Nat) (x : BitVec 8192) : (t.setVreg n x).s = t.s := by unfold Thread.setVreg; split <;> rfl
@[simp] theorem Thread.setVreg_level (t : Thread) (n : Nat) (x : BitVec 8192) : (t.setVreg n x).level = t.level := by unfold Thread.setVreg; split <;> rfl
@[simp] theorem Thread.setVreg_vcfg (t : Thread) (n : Nat) (x : BitVec 8192) : (t.setVreg n x).vcfg = t.vcfg := by unfold Thread.setVreg; split <;> rfl
@[simp] theorem Thread.setVreg_vrows (t : Thread) (n : Nat) (x : BitVec 8192) : (t.setVreg n x).vrows = t.vrows := by unfold Thread.setVreg; split <;> rfl
@[simp] theorem Thread.setVreg_vpitch (t : Thread) (n : Nat) (x : BitVec 8192) : (t.setVreg n x).vpitch = t.vpitch := by unfold Thread.setVreg; split <;> rfl
@[simp] theorem Thread.setVreg_vstart (t : Thread) (n : Nat) (x : BitVec 8192) : (t.setVreg n x).vstart = t.vstart := by unfold Thread.setVreg; split <;> rfl
@[simp] theorem Thread.setVreg_eprog (t : Thread) (n : Nat) (x : BitVec 8192) : (t.setVreg n x).eprog = t.eprog := by unfold Thread.setVreg; split <;> rfl
@[simp] theorem Thread.setVreg_vxsat (t : Thread) (n : Nat) (x : BitVec 8192) : (t.setVreg n x).vxsat = t.vxsat := by unfold Thread.setVreg; split <;> rfl
@[simp] theorem Thread.setVreg_fflags (t : Thread) (n : Nat) (x : BitVec 8192) : (t.setVreg n x).fflags = t.fflags := by unfold Thread.setVreg; split <;> rfl
@[simp] theorem Thread.setVreg_frm (t : Thread) (n : Nat) (x : BitVec 8192) : (t.setVreg n x).frm = t.frm := by unfold Thread.setVreg; split <;> rfl
@[simp] theorem Thread.setVreg_step (t : Thread) (n : Nat) (x : BitVec 8192) : (t.setVreg n x).step = t.step := by unfold Thread.setVreg; split <;> rfl
@[simp] theorem Thread.setVreg_tid (t : Thread) (n : Nat) (x : BitVec 8192) : (t.setVreg n x).tid = t.tid := by unfold Thread.setVreg; split <;> rfl
@[simp] theorem Thread.setVreg_mgrant (t : Thread) (n : Nat) (x : BitVec 8192) : (t.setVreg n x).mgrant = t.mgrant := by unfold Thread.setVreg; split <;> rfl
@[simp] theorem Thread.setVreg_xcause (t : Thread) (n : Nat) (x : BitVec 8192) : (t.setVreg n x).xcause = t.xcause := by unfold Thread.setVreg; split <;> rfl
@[simp] theorem Thread.setVreg_xpc (t : Thread) (n : Nat) (x : BitVec 8192) : (t.setVreg n x).xpc = t.xpc := by unfold Thread.setVreg; split <;> rfl
@[simp] theorem Thread.setVreg_xval (t : Thread) (n : Nat) (x : BitVec 8192) : (t.setVreg n x).xval = t.xval := by unfold Thread.setVreg; split <;> rfl
@[simp] theorem Thread.setVreg_xstat (t : Thread) (n : Nat) (x : BitVec 8192) : (t.setVreg n x).xstat = t.xstat := by unfold Thread.setVreg; split <;> rfl
@[simp] theorem Thread.setVreg_xprog (t : Thread) (n : Nat) (x : BitVec 8192) : (t.setVreg n x).xprog = t.xprog := by unfold Thread.setVreg; split <;> rfl
@[simp] theorem Thread.setVreg_dbg (t : Thread) (n : Nat) (x : BitVec 8192) : (t.setVreg n x).dbg = t.dbg := by unfold Thread.setVreg; split <;> rfl
@[simp] theorem Thread.setVreg_xscr (t : Thread) (n : Nat) (x : BitVec 8192) : (t.setVreg n x).xscr = t.xscr := by unfold Thread.setVreg; split <;> rfl
@[simp] theorem Thread.setVreg_g (t : Thread) (n : Nat) (x : BitVec 8192) : (t.setVreg n x).g = t.g := by unfold Thread.setVreg; split <;> rfl
@[simp] theorem Thread.setVreg_sort (t : Thread) (n : Nat) (x : BitVec 8192) : (t.setVreg n x).sort = t.sort := by unfold Thread.setVreg; split <;> rfl
@[simp] theorem Thread.setVreg_m (t : Thread) (n : Nat) (x : BitVec 8192) : (t.setVreg n x).m = t.m := by unfold Thread.setVreg; split <;> rfl
@[simp] theorem Thread.setVreg_q (t : Thread) (n : Nat) (x : BitVec 8192) : (t.setVreg n x).q = t.q := by unfold Thread.setVreg; split <;> rfl
@[simp] theorem Thread.setVreg_w (t : Thread) (n : Nat) (x : BitVec 8192) : (t.setVreg n x).w = t.w := by unfold Thread.setVreg; split <;> rfl
@[simp] theorem Thread.setVreg_scan (t : Thread) (n : Nat) (x : BitVec 8192) : (t.setVreg n x).scan = t.scan := by unfold Thread.setVreg; split <;> rfl
@[simp] theorem Thread.setVreg_isL (t : Thread) (n : Nat) (x : BitVec 8192) : (t.setVreg n x).isL = t.isL := by unfold Thread.setVreg; split <;> rfl
@[simp] theorem Thread.setVreg_prio (t : Thread) (n : Nat) (x : BitVec 8192) : (t.setVreg n x).prio = t.prio := by unfold Thread.setVreg; split <;> rfl
@[simp] theorem Thread.setVreg_seq (t : Thread) (n : Nat) (x : BitVec 8192) : (t.setVreg n x).seq = t.seq := by unfold Thread.setVreg; split <;> rfl
@[simp] theorem Thread.setVreg_index (t : Thread) (n : Nat) (x : BitVec 8192) : (t.setVreg n x).index = t.index := by unfold Thread.setVreg; split <;> rfl
@[simp] theorem Thread.setVreg_req (t : Thread) (n : Nat) (x : BitVec 8192) : (t.setVreg n x).req = t.req := by unfold Thread.setVreg; split <;> rfl
@[simp] theorem Thread.setVreg_pos (t : Thread) (n : Nat) (x : BitVec 8192) : (t.setVreg n x).pos = t.pos := by unfold Thread.setVreg; split <;> rfl
@[simp] theorem Thread.setVreg_lc (t : Thread) (n : Nat) (x : BitVec 8192) : (t.setVreg n x).lc = t.lc := by unfold Thread.setVreg; split <;> rfl
@[simp] theorem Thread.setVreg_home (t : Thread) (n : Nat) (x : BitVec 8192) : (t.setVreg n x).home = t.home := by unfold Thread.setVreg; split <;> rfl
@[simp] theorem Thread.setVreg_passes (t : Thread) (n : Nat) (x : BitVec 8192) : (t.setVreg n x).passes = t.passes := by unfold Thread.setVreg; split <;> rfl
@[simp] theorem Thread.setVreg_boosted (t : Thread) (n : Nat) (x : BitVec 8192) : (t.setVreg n x).boosted = t.boosted := by unfold Thread.setVreg; split <;> rfl
@[simp] theorem Thread.setVreg_wait (t : Thread) (n : Nat) (x : BitVec 8192) : (t.setVreg n x).wait = t.wait := by unfold Thread.setVreg; split <;> rfl
@[simp] theorem Thread.setVreg_resume (t : Thread) (n : Nat) (x : BitVec 8192) : (t.setVreg n x).resume = t.resume := by unfold Thread.setVreg; split <;> rfl
@[simp] theorem Thread.setVreg_saved (t : Thread) (n : Nat) (x : BitVec 8192) : (t.setVreg n x).saved = t.saved := by unfold Thread.setVreg; split <;> rfl
@[simp] theorem Thread.setVreg_vldas (t : Thread) (n : Nat) (x : BitVec 8192) : (t.setVreg n x).vldas = t.vldas := by unfold Thread.setVreg; split <;> rfl
@[simp] theorem Thread.setVreg_loads (t : Thread) (n : Nat) (x : BitVec 8192) : (t.setVreg n x).loads = t.loads := by unfold Thread.setVreg; split <;> rfl
@[simp] theorem Thread.setVreg_mmaRun (t : Thread) (n : Nat) (x : BitVec 8192) : (t.setVreg n x).mmaRun = t.mmaRun := by unfold Thread.setVreg; split <;> rfl
@[simp] theorem Thread.setVreg_zenc (t : Thread) (n : Nat) (x : BitVec 8192) : (t.setVreg n x).zenc = t.zenc := by unfold Thread.setVreg; split <;> rfl
@[simp] theorem Thread.setVreg_zfault (t : Thread) (n : Nat) (x : BitVec 8192) : (t.setVreg n x).zfault = t.zfault := by unfold Thread.setVreg; split <;> rfl
@[simp] theorem Thread.setVreg_begun (t : Thread) (n : Nat) (x : BitVec 8192) : (t.setVreg n x).begun = t.begun := by unfold Thread.setVreg; split <;> rfl
@[simp] theorem Thread.setVreg_trap (t : Thread) (n : Nat) (x : BitVec 8192) : (t.setVreg n x).trap = t.trap := by unfold Thread.setVreg; split <;> rfl
@[simp] theorem Thread.setVreg_prefs (t : Thread) (n : Nat) (x : BitVec 8192) : (t.setVreg n x).prefs = t.prefs := by unfold Thread.setVreg; split <;> rfl
@[simp] theorem Thread.setVreg_spoison (t : Thread) (n : Nat) (x : BitVec 8192) : (t.setVreg n x).spoison = t.spoison := by unfold Thread.setVreg; split <;> rfl
@[simp] theorem Thread.setVreg_vpoison (t : Thread) (n : Nat) (x : BitVec 8192) : (t.setVreg n x).vpoison = t.vpoison := by unfold Thread.setVreg; split <;> rfl

@[simp] theorem Thread.setMreg_live (t : Thread) (k : Nat) (x : BitVec 8192) : (t.setMreg k x).live = t.live := by unfold Thread.setMreg; split <;> (try split) <;> rfl
@[simp] theorem Thread.setMreg_part (t : Thread) (k : Nat) (x : BitVec 8192) : (t.setMreg k x).part = t.part := by unfold Thread.setMreg; split <;> (try split) <;> rfl
@[simp] theorem Thread.setMreg_entry (t : Thread) (k : Nat) (x : BitVec 8192) : (t.setMreg k x).entry = t.entry := by unfold Thread.setMreg; split <;> (try split) <;> rfl
@[simp] theorem Thread.setMreg_pc (t : Thread) (k : Nat) (x : BitVec 8192) : (t.setMreg k x).pc = t.pc := by unfold Thread.setMreg; split <;> (try split) <;> rfl
@[simp] theorem Thread.setMreg_s (t : Thread) (k : Nat) (x : BitVec 8192) : (t.setMreg k x).s = t.s := by unfold Thread.setMreg; split <;> (try split) <;> rfl
@[simp] theorem Thread.setMreg_level (t : Thread) (k : Nat) (x : BitVec 8192) : (t.setMreg k x).level = t.level := by unfold Thread.setMreg; split <;> (try split) <;> rfl
@[simp] theorem Thread.setMreg_vcfg (t : Thread) (k : Nat) (x : BitVec 8192) : (t.setMreg k x).vcfg = t.vcfg := by unfold Thread.setMreg; split <;> (try split) <;> rfl
@[simp] theorem Thread.setMreg_vrows (t : Thread) (k : Nat) (x : BitVec 8192) : (t.setMreg k x).vrows = t.vrows := by unfold Thread.setMreg; split <;> (try split) <;> rfl
@[simp] theorem Thread.setMreg_vpitch (t : Thread) (k : Nat) (x : BitVec 8192) : (t.setMreg k x).vpitch = t.vpitch := by unfold Thread.setMreg; split <;> (try split) <;> rfl
@[simp] theorem Thread.setMreg_vstart (t : Thread) (k : Nat) (x : BitVec 8192) : (t.setMreg k x).vstart = t.vstart := by unfold Thread.setMreg; split <;> (try split) <;> rfl
@[simp] theorem Thread.setMreg_eprog (t : Thread) (k : Nat) (x : BitVec 8192) : (t.setMreg k x).eprog = t.eprog := by unfold Thread.setMreg; split <;> (try split) <;> rfl
@[simp] theorem Thread.setMreg_vxsat (t : Thread) (k : Nat) (x : BitVec 8192) : (t.setMreg k x).vxsat = t.vxsat := by unfold Thread.setMreg; split <;> (try split) <;> rfl
@[simp] theorem Thread.setMreg_fflags (t : Thread) (k : Nat) (x : BitVec 8192) : (t.setMreg k x).fflags = t.fflags := by unfold Thread.setMreg; split <;> (try split) <;> rfl
@[simp] theorem Thread.setMreg_frm (t : Thread) (k : Nat) (x : BitVec 8192) : (t.setMreg k x).frm = t.frm := by unfold Thread.setMreg; split <;> (try split) <;> rfl
@[simp] theorem Thread.setMreg_step (t : Thread) (k : Nat) (x : BitVec 8192) : (t.setMreg k x).step = t.step := by unfold Thread.setMreg; split <;> (try split) <;> rfl
@[simp] theorem Thread.setMreg_tid (t : Thread) (k : Nat) (x : BitVec 8192) : (t.setMreg k x).tid = t.tid := by unfold Thread.setMreg; split <;> (try split) <;> rfl
@[simp] theorem Thread.setMreg_mgrant (t : Thread) (k : Nat) (x : BitVec 8192) : (t.setMreg k x).mgrant = t.mgrant := by unfold Thread.setMreg; split <;> (try split) <;> rfl
@[simp] theorem Thread.setMreg_xcause (t : Thread) (k : Nat) (x : BitVec 8192) : (t.setMreg k x).xcause = t.xcause := by unfold Thread.setMreg; split <;> (try split) <;> rfl
@[simp] theorem Thread.setMreg_xpc (t : Thread) (k : Nat) (x : BitVec 8192) : (t.setMreg k x).xpc = t.xpc := by unfold Thread.setMreg; split <;> (try split) <;> rfl
@[simp] theorem Thread.setMreg_xval (t : Thread) (k : Nat) (x : BitVec 8192) : (t.setMreg k x).xval = t.xval := by unfold Thread.setMreg; split <;> (try split) <;> rfl
@[simp] theorem Thread.setMreg_xstat (t : Thread) (k : Nat) (x : BitVec 8192) : (t.setMreg k x).xstat = t.xstat := by unfold Thread.setMreg; split <;> (try split) <;> rfl
@[simp] theorem Thread.setMreg_xprog (t : Thread) (k : Nat) (x : BitVec 8192) : (t.setMreg k x).xprog = t.xprog := by unfold Thread.setMreg; split <;> (try split) <;> rfl
@[simp] theorem Thread.setMreg_dbg (t : Thread) (k : Nat) (x : BitVec 8192) : (t.setMreg k x).dbg = t.dbg := by unfold Thread.setMreg; split <;> (try split) <;> rfl
@[simp] theorem Thread.setMreg_xscr (t : Thread) (k : Nat) (x : BitVec 8192) : (t.setMreg k x).xscr = t.xscr := by unfold Thread.setMreg; split <;> (try split) <;> rfl
@[simp] theorem Thread.setMreg_g (t : Thread) (k : Nat) (x : BitVec 8192) : (t.setMreg k x).g = t.g := by unfold Thread.setMreg; split <;> (try split) <;> rfl
@[simp] theorem Thread.setMreg_v (t : Thread) (k : Nat) (x : BitVec 8192) : (t.setMreg k x).v = t.v := by unfold Thread.setMreg; split <;> (try split) <;> rfl
@[simp] theorem Thread.setMreg_sort (t : Thread) (k : Nat) (x : BitVec 8192) : (t.setMreg k x).sort = t.sort := by unfold Thread.setMreg; split <;> (try split) <;> rfl
@[simp] theorem Thread.setMreg_q (t : Thread) (k : Nat) (x : BitVec 8192) : (t.setMreg k x).q = t.q := by unfold Thread.setMreg; split <;> (try split) <;> rfl
@[simp] theorem Thread.setMreg_w (t : Thread) (k : Nat) (x : BitVec 8192) : (t.setMreg k x).w = t.w := by unfold Thread.setMreg; split <;> (try split) <;> rfl
@[simp] theorem Thread.setMreg_scan (t : Thread) (k : Nat) (x : BitVec 8192) : (t.setMreg k x).scan = t.scan := by unfold Thread.setMreg; split <;> (try split) <;> rfl
@[simp] theorem Thread.setMreg_isL (t : Thread) (k : Nat) (x : BitVec 8192) : (t.setMreg k x).isL = t.isL := by unfold Thread.setMreg; split <;> (try split) <;> rfl
@[simp] theorem Thread.setMreg_prio (t : Thread) (k : Nat) (x : BitVec 8192) : (t.setMreg k x).prio = t.prio := by unfold Thread.setMreg; split <;> (try split) <;> rfl
@[simp] theorem Thread.setMreg_seq (t : Thread) (k : Nat) (x : BitVec 8192) : (t.setMreg k x).seq = t.seq := by unfold Thread.setMreg; split <;> (try split) <;> rfl
@[simp] theorem Thread.setMreg_index (t : Thread) (k : Nat) (x : BitVec 8192) : (t.setMreg k x).index = t.index := by unfold Thread.setMreg; split <;> (try split) <;> rfl
@[simp] theorem Thread.setMreg_req (t : Thread) (k : Nat) (x : BitVec 8192) : (t.setMreg k x).req = t.req := by unfold Thread.setMreg; split <;> (try split) <;> rfl
@[simp] theorem Thread.setMreg_pos (t : Thread) (k : Nat) (x : BitVec 8192) : (t.setMreg k x).pos = t.pos := by unfold Thread.setMreg; split <;> (try split) <;> rfl
@[simp] theorem Thread.setMreg_lc (t : Thread) (k : Nat) (x : BitVec 8192) : (t.setMreg k x).lc = t.lc := by unfold Thread.setMreg; split <;> (try split) <;> rfl
@[simp] theorem Thread.setMreg_home (t : Thread) (k : Nat) (x : BitVec 8192) : (t.setMreg k x).home = t.home := by unfold Thread.setMreg; split <;> (try split) <;> rfl
@[simp] theorem Thread.setMreg_passes (t : Thread) (k : Nat) (x : BitVec 8192) : (t.setMreg k x).passes = t.passes := by unfold Thread.setMreg; split <;> (try split) <;> rfl
@[simp] theorem Thread.setMreg_boosted (t : Thread) (k : Nat) (x : BitVec 8192) : (t.setMreg k x).boosted = t.boosted := by unfold Thread.setMreg; split <;> (try split) <;> rfl
@[simp] theorem Thread.setMreg_wait (t : Thread) (k : Nat) (x : BitVec 8192) : (t.setMreg k x).wait = t.wait := by unfold Thread.setMreg; split <;> (try split) <;> rfl
@[simp] theorem Thread.setMreg_resume (t : Thread) (k : Nat) (x : BitVec 8192) : (t.setMreg k x).resume = t.resume := by unfold Thread.setMreg; split <;> (try split) <;> rfl
@[simp] theorem Thread.setMreg_saved (t : Thread) (k : Nat) (x : BitVec 8192) : (t.setMreg k x).saved = t.saved := by unfold Thread.setMreg; split <;> (try split) <;> rfl
@[simp] theorem Thread.setMreg_vldas (t : Thread) (k : Nat) (x : BitVec 8192) : (t.setMreg k x).vldas = t.vldas := by unfold Thread.setMreg; split <;> (try split) <;> rfl
@[simp] theorem Thread.setMreg_loads (t : Thread) (k : Nat) (x : BitVec 8192) : (t.setMreg k x).loads = t.loads := by unfold Thread.setMreg; split <;> (try split) <;> rfl
@[simp] theorem Thread.setMreg_mmaRun (t : Thread) (k : Nat) (x : BitVec 8192) : (t.setMreg k x).mmaRun = t.mmaRun := by unfold Thread.setMreg; split <;> (try split) <;> rfl
@[simp] theorem Thread.setMreg_zenc (t : Thread) (k : Nat) (x : BitVec 8192) : (t.setMreg k x).zenc = t.zenc := by unfold Thread.setMreg; split <;> (try split) <;> rfl
@[simp] theorem Thread.setMreg_zfault (t : Thread) (k : Nat) (x : BitVec 8192) : (t.setMreg k x).zfault = t.zfault := by unfold Thread.setMreg; split <;> (try split) <;> rfl
@[simp] theorem Thread.setMreg_begun (t : Thread) (k : Nat) (x : BitVec 8192) : (t.setMreg k x).begun = t.begun := by unfold Thread.setMreg; split <;> (try split) <;> rfl
@[simp] theorem Thread.setMreg_trap (t : Thread) (k : Nat) (x : BitVec 8192) : (t.setMreg k x).trap = t.trap := by unfold Thread.setMreg; split <;> (try split) <;> rfl
@[simp] theorem Thread.setMreg_prefs (t : Thread) (k : Nat) (x : BitVec 8192) : (t.setMreg k x).prefs = t.prefs := by unfold Thread.setMreg; split <;> (try split) <;> rfl
@[simp] theorem Thread.setMreg_spoison (t : Thread) (k : Nat) (x : BitVec 8192) : (t.setMreg k x).spoison = t.spoison := by unfold Thread.setMreg; split <;> (try split) <;> rfl
@[simp] theorem Thread.setMreg_vpoison (t : Thread) (k : Nat) (x : BitVec 8192) : (t.setMreg k x).vpoison = t.vpoison := by unfold Thread.setMreg; split <;> (try split) <;> rfl

@[simp] theorem Thread.setSortRaw_live (t : Thread) (n : Nat) (x : BitVec 21) : (t.setSortRaw n x).live = t.live := by unfold Thread.setSortRaw; split <;> rfl
@[simp] theorem Thread.setSortRaw_part (t : Thread) (n : Nat) (x : BitVec 21) : (t.setSortRaw n x).part = t.part := by unfold Thread.setSortRaw; split <;> rfl
@[simp] theorem Thread.setSortRaw_entry (t : Thread) (n : Nat) (x : BitVec 21) : (t.setSortRaw n x).entry = t.entry := by unfold Thread.setSortRaw; split <;> rfl
@[simp] theorem Thread.setSortRaw_pc (t : Thread) (n : Nat) (x : BitVec 21) : (t.setSortRaw n x).pc = t.pc := by unfold Thread.setSortRaw; split <;> rfl
@[simp] theorem Thread.setSortRaw_s (t : Thread) (n : Nat) (x : BitVec 21) : (t.setSortRaw n x).s = t.s := by unfold Thread.setSortRaw; split <;> rfl
@[simp] theorem Thread.setSortRaw_level (t : Thread) (n : Nat) (x : BitVec 21) : (t.setSortRaw n x).level = t.level := by unfold Thread.setSortRaw; split <;> rfl
@[simp] theorem Thread.setSortRaw_vcfg (t : Thread) (n : Nat) (x : BitVec 21) : (t.setSortRaw n x).vcfg = t.vcfg := by unfold Thread.setSortRaw; split <;> rfl
@[simp] theorem Thread.setSortRaw_vrows (t : Thread) (n : Nat) (x : BitVec 21) : (t.setSortRaw n x).vrows = t.vrows := by unfold Thread.setSortRaw; split <;> rfl
@[simp] theorem Thread.setSortRaw_vpitch (t : Thread) (n : Nat) (x : BitVec 21) : (t.setSortRaw n x).vpitch = t.vpitch := by unfold Thread.setSortRaw; split <;> rfl
@[simp] theorem Thread.setSortRaw_vstart (t : Thread) (n : Nat) (x : BitVec 21) : (t.setSortRaw n x).vstart = t.vstart := by unfold Thread.setSortRaw; split <;> rfl
@[simp] theorem Thread.setSortRaw_eprog (t : Thread) (n : Nat) (x : BitVec 21) : (t.setSortRaw n x).eprog = t.eprog := by unfold Thread.setSortRaw; split <;> rfl
@[simp] theorem Thread.setSortRaw_vxsat (t : Thread) (n : Nat) (x : BitVec 21) : (t.setSortRaw n x).vxsat = t.vxsat := by unfold Thread.setSortRaw; split <;> rfl
@[simp] theorem Thread.setSortRaw_fflags (t : Thread) (n : Nat) (x : BitVec 21) : (t.setSortRaw n x).fflags = t.fflags := by unfold Thread.setSortRaw; split <;> rfl
@[simp] theorem Thread.setSortRaw_frm (t : Thread) (n : Nat) (x : BitVec 21) : (t.setSortRaw n x).frm = t.frm := by unfold Thread.setSortRaw; split <;> rfl
@[simp] theorem Thread.setSortRaw_step (t : Thread) (n : Nat) (x : BitVec 21) : (t.setSortRaw n x).step = t.step := by unfold Thread.setSortRaw; split <;> rfl
@[simp] theorem Thread.setSortRaw_tid (t : Thread) (n : Nat) (x : BitVec 21) : (t.setSortRaw n x).tid = t.tid := by unfold Thread.setSortRaw; split <;> rfl
@[simp] theorem Thread.setSortRaw_mgrant (t : Thread) (n : Nat) (x : BitVec 21) : (t.setSortRaw n x).mgrant = t.mgrant := by unfold Thread.setSortRaw; split <;> rfl
@[simp] theorem Thread.setSortRaw_xcause (t : Thread) (n : Nat) (x : BitVec 21) : (t.setSortRaw n x).xcause = t.xcause := by unfold Thread.setSortRaw; split <;> rfl
@[simp] theorem Thread.setSortRaw_xpc (t : Thread) (n : Nat) (x : BitVec 21) : (t.setSortRaw n x).xpc = t.xpc := by unfold Thread.setSortRaw; split <;> rfl
@[simp] theorem Thread.setSortRaw_xval (t : Thread) (n : Nat) (x : BitVec 21) : (t.setSortRaw n x).xval = t.xval := by unfold Thread.setSortRaw; split <;> rfl
@[simp] theorem Thread.setSortRaw_xstat (t : Thread) (n : Nat) (x : BitVec 21) : (t.setSortRaw n x).xstat = t.xstat := by unfold Thread.setSortRaw; split <;> rfl
@[simp] theorem Thread.setSortRaw_xprog (t : Thread) (n : Nat) (x : BitVec 21) : (t.setSortRaw n x).xprog = t.xprog := by unfold Thread.setSortRaw; split <;> rfl
@[simp] theorem Thread.setSortRaw_dbg (t : Thread) (n : Nat) (x : BitVec 21) : (t.setSortRaw n x).dbg = t.dbg := by unfold Thread.setSortRaw; split <;> rfl
@[simp] theorem Thread.setSortRaw_xscr (t : Thread) (n : Nat) (x : BitVec 21) : (t.setSortRaw n x).xscr = t.xscr := by unfold Thread.setSortRaw; split <;> rfl
@[simp] theorem Thread.setSortRaw_g (t : Thread) (n : Nat) (x : BitVec 21) : (t.setSortRaw n x).g = t.g := by unfold Thread.setSortRaw; split <;> rfl
@[simp] theorem Thread.setSortRaw_v (t : Thread) (n : Nat) (x : BitVec 21) : (t.setSortRaw n x).v = t.v := by unfold Thread.setSortRaw; split <;> rfl
@[simp] theorem Thread.setSortRaw_m (t : Thread) (n : Nat) (x : BitVec 21) : (t.setSortRaw n x).m = t.m := by unfold Thread.setSortRaw; split <;> rfl
@[simp] theorem Thread.setSortRaw_q (t : Thread) (n : Nat) (x : BitVec 21) : (t.setSortRaw n x).q = t.q := by unfold Thread.setSortRaw; split <;> rfl
@[simp] theorem Thread.setSortRaw_w (t : Thread) (n : Nat) (x : BitVec 21) : (t.setSortRaw n x).w = t.w := by unfold Thread.setSortRaw; split <;> rfl
@[simp] theorem Thread.setSortRaw_scan (t : Thread) (n : Nat) (x : BitVec 21) : (t.setSortRaw n x).scan = t.scan := by unfold Thread.setSortRaw; split <;> rfl
@[simp] theorem Thread.setSortRaw_isL (t : Thread) (n : Nat) (x : BitVec 21) : (t.setSortRaw n x).isL = t.isL := by unfold Thread.setSortRaw; split <;> rfl
@[simp] theorem Thread.setSortRaw_prio (t : Thread) (n : Nat) (x : BitVec 21) : (t.setSortRaw n x).prio = t.prio := by unfold Thread.setSortRaw; split <;> rfl
@[simp] theorem Thread.setSortRaw_seq (t : Thread) (n : Nat) (x : BitVec 21) : (t.setSortRaw n x).seq = t.seq := by unfold Thread.setSortRaw; split <;> rfl
@[simp] theorem Thread.setSortRaw_index (t : Thread) (n : Nat) (x : BitVec 21) : (t.setSortRaw n x).index = t.index := by unfold Thread.setSortRaw; split <;> rfl
@[simp] theorem Thread.setSortRaw_req (t : Thread) (n : Nat) (x : BitVec 21) : (t.setSortRaw n x).req = t.req := by unfold Thread.setSortRaw; split <;> rfl
@[simp] theorem Thread.setSortRaw_pos (t : Thread) (n : Nat) (x : BitVec 21) : (t.setSortRaw n x).pos = t.pos := by unfold Thread.setSortRaw; split <;> rfl
@[simp] theorem Thread.setSortRaw_lc (t : Thread) (n : Nat) (x : BitVec 21) : (t.setSortRaw n x).lc = t.lc := by unfold Thread.setSortRaw; split <;> rfl
@[simp] theorem Thread.setSortRaw_home (t : Thread) (n : Nat) (x : BitVec 21) : (t.setSortRaw n x).home = t.home := by unfold Thread.setSortRaw; split <;> rfl
@[simp] theorem Thread.setSortRaw_passes (t : Thread) (n : Nat) (x : BitVec 21) : (t.setSortRaw n x).passes = t.passes := by unfold Thread.setSortRaw; split <;> rfl
@[simp] theorem Thread.setSortRaw_boosted (t : Thread) (n : Nat) (x : BitVec 21) : (t.setSortRaw n x).boosted = t.boosted := by unfold Thread.setSortRaw; split <;> rfl
@[simp] theorem Thread.setSortRaw_wait (t : Thread) (n : Nat) (x : BitVec 21) : (t.setSortRaw n x).wait = t.wait := by unfold Thread.setSortRaw; split <;> rfl
@[simp] theorem Thread.setSortRaw_resume (t : Thread) (n : Nat) (x : BitVec 21) : (t.setSortRaw n x).resume = t.resume := by unfold Thread.setSortRaw; split <;> rfl
@[simp] theorem Thread.setSortRaw_saved (t : Thread) (n : Nat) (x : BitVec 21) : (t.setSortRaw n x).saved = t.saved := by unfold Thread.setSortRaw; split <;> rfl
@[simp] theorem Thread.setSortRaw_vldas (t : Thread) (n : Nat) (x : BitVec 21) : (t.setSortRaw n x).vldas = t.vldas := by unfold Thread.setSortRaw; split <;> rfl
@[simp] theorem Thread.setSortRaw_loads (t : Thread) (n : Nat) (x : BitVec 21) : (t.setSortRaw n x).loads = t.loads := by unfold Thread.setSortRaw; split <;> rfl
@[simp] theorem Thread.setSortRaw_mmaRun (t : Thread) (n : Nat) (x : BitVec 21) : (t.setSortRaw n x).mmaRun = t.mmaRun := by unfold Thread.setSortRaw; split <;> rfl
@[simp] theorem Thread.setSortRaw_zenc (t : Thread) (n : Nat) (x : BitVec 21) : (t.setSortRaw n x).zenc = t.zenc := by unfold Thread.setSortRaw; split <;> rfl
@[simp] theorem Thread.setSortRaw_zfault (t : Thread) (n : Nat) (x : BitVec 21) : (t.setSortRaw n x).zfault = t.zfault := by unfold Thread.setSortRaw; split <;> rfl
@[simp] theorem Thread.setSortRaw_begun (t : Thread) (n : Nat) (x : BitVec 21) : (t.setSortRaw n x).begun = t.begun := by unfold Thread.setSortRaw; split <;> rfl
@[simp] theorem Thread.setSortRaw_trap (t : Thread) (n : Nat) (x : BitVec 21) : (t.setSortRaw n x).trap = t.trap := by unfold Thread.setSortRaw; split <;> rfl
@[simp] theorem Thread.setSortRaw_prefs (t : Thread) (n : Nat) (x : BitVec 21) : (t.setSortRaw n x).prefs = t.prefs := by unfold Thread.setSortRaw; split <;> rfl
@[simp] theorem Thread.setSortRaw_spoison (t : Thread) (n : Nat) (x : BitVec 21) : (t.setSortRaw n x).spoison = t.spoison := by unfold Thread.setSortRaw; split <;> rfl
@[simp] theorem Thread.setSortRaw_vpoison (t : Thread) (n : Nat) (x : BitVec 21) : (t.setSortRaw n x).vpoison = t.vpoison := by unfold Thread.setSortRaw; split <;> rfl

@[simp] theorem Thread.setStream_live (t : Thread) (n : Nat) (x : Stream) : (t.setStream n x).live = t.live := by unfold Thread.setStream; split <;> rfl
@[simp] theorem Thread.setStream_part (t : Thread) (n : Nat) (x : Stream) : (t.setStream n x).part = t.part := by unfold Thread.setStream; split <;> rfl
@[simp] theorem Thread.setStream_entry (t : Thread) (n : Nat) (x : Stream) : (t.setStream n x).entry = t.entry := by unfold Thread.setStream; split <;> rfl
@[simp] theorem Thread.setStream_pc (t : Thread) (n : Nat) (x : Stream) : (t.setStream n x).pc = t.pc := by unfold Thread.setStream; split <;> rfl
@[simp] theorem Thread.setStream_s (t : Thread) (n : Nat) (x : Stream) : (t.setStream n x).s = t.s := by unfold Thread.setStream; split <;> rfl
@[simp] theorem Thread.setStream_level (t : Thread) (n : Nat) (x : Stream) : (t.setStream n x).level = t.level := by unfold Thread.setStream; split <;> rfl
@[simp] theorem Thread.setStream_vcfg (t : Thread) (n : Nat) (x : Stream) : (t.setStream n x).vcfg = t.vcfg := by unfold Thread.setStream; split <;> rfl
@[simp] theorem Thread.setStream_vrows (t : Thread) (n : Nat) (x : Stream) : (t.setStream n x).vrows = t.vrows := by unfold Thread.setStream; split <;> rfl
@[simp] theorem Thread.setStream_vpitch (t : Thread) (n : Nat) (x : Stream) : (t.setStream n x).vpitch = t.vpitch := by unfold Thread.setStream; split <;> rfl
@[simp] theorem Thread.setStream_vstart (t : Thread) (n : Nat) (x : Stream) : (t.setStream n x).vstart = t.vstart := by unfold Thread.setStream; split <;> rfl
@[simp] theorem Thread.setStream_eprog (t : Thread) (n : Nat) (x : Stream) : (t.setStream n x).eprog = t.eprog := by unfold Thread.setStream; split <;> rfl
@[simp] theorem Thread.setStream_vxsat (t : Thread) (n : Nat) (x : Stream) : (t.setStream n x).vxsat = t.vxsat := by unfold Thread.setStream; split <;> rfl
@[simp] theorem Thread.setStream_fflags (t : Thread) (n : Nat) (x : Stream) : (t.setStream n x).fflags = t.fflags := by unfold Thread.setStream; split <;> rfl
@[simp] theorem Thread.setStream_frm (t : Thread) (n : Nat) (x : Stream) : (t.setStream n x).frm = t.frm := by unfold Thread.setStream; split <;> rfl
@[simp] theorem Thread.setStream_step (t : Thread) (n : Nat) (x : Stream) : (t.setStream n x).step = t.step := by unfold Thread.setStream; split <;> rfl
@[simp] theorem Thread.setStream_tid (t : Thread) (n : Nat) (x : Stream) : (t.setStream n x).tid = t.tid := by unfold Thread.setStream; split <;> rfl
@[simp] theorem Thread.setStream_mgrant (t : Thread) (n : Nat) (x : Stream) : (t.setStream n x).mgrant = t.mgrant := by unfold Thread.setStream; split <;> rfl
@[simp] theorem Thread.setStream_xcause (t : Thread) (n : Nat) (x : Stream) : (t.setStream n x).xcause = t.xcause := by unfold Thread.setStream; split <;> rfl
@[simp] theorem Thread.setStream_xpc (t : Thread) (n : Nat) (x : Stream) : (t.setStream n x).xpc = t.xpc := by unfold Thread.setStream; split <;> rfl
@[simp] theorem Thread.setStream_xval (t : Thread) (n : Nat) (x : Stream) : (t.setStream n x).xval = t.xval := by unfold Thread.setStream; split <;> rfl
@[simp] theorem Thread.setStream_xstat (t : Thread) (n : Nat) (x : Stream) : (t.setStream n x).xstat = t.xstat := by unfold Thread.setStream; split <;> rfl
@[simp] theorem Thread.setStream_xprog (t : Thread) (n : Nat) (x : Stream) : (t.setStream n x).xprog = t.xprog := by unfold Thread.setStream; split <;> rfl
@[simp] theorem Thread.setStream_dbg (t : Thread) (n : Nat) (x : Stream) : (t.setStream n x).dbg = t.dbg := by unfold Thread.setStream; split <;> rfl
@[simp] theorem Thread.setStream_xscr (t : Thread) (n : Nat) (x : Stream) : (t.setStream n x).xscr = t.xscr := by unfold Thread.setStream; split <;> rfl
@[simp] theorem Thread.setStream_g (t : Thread) (n : Nat) (x : Stream) : (t.setStream n x).g = t.g := by unfold Thread.setStream; split <;> rfl
@[simp] theorem Thread.setStream_v (t : Thread) (n : Nat) (x : Stream) : (t.setStream n x).v = t.v := by unfold Thread.setStream; split <;> rfl
@[simp] theorem Thread.setStream_sort (t : Thread) (n : Nat) (x : Stream) : (t.setStream n x).sort = t.sort := by unfold Thread.setStream; split <;> rfl
@[simp] theorem Thread.setStream_m (t : Thread) (n : Nat) (x : Stream) : (t.setStream n x).m = t.m := by unfold Thread.setStream; split <;> rfl
@[simp] theorem Thread.setStream_w (t : Thread) (n : Nat) (x : Stream) : (t.setStream n x).w = t.w := by unfold Thread.setStream; split <;> rfl
@[simp] theorem Thread.setStream_scan (t : Thread) (n : Nat) (x : Stream) : (t.setStream n x).scan = t.scan := by unfold Thread.setStream; split <;> rfl
@[simp] theorem Thread.setStream_isL (t : Thread) (n : Nat) (x : Stream) : (t.setStream n x).isL = t.isL := by unfold Thread.setStream; split <;> rfl
@[simp] theorem Thread.setStream_prio (t : Thread) (n : Nat) (x : Stream) : (t.setStream n x).prio = t.prio := by unfold Thread.setStream; split <;> rfl
@[simp] theorem Thread.setStream_seq (t : Thread) (n : Nat) (x : Stream) : (t.setStream n x).seq = t.seq := by unfold Thread.setStream; split <;> rfl
@[simp] theorem Thread.setStream_index (t : Thread) (n : Nat) (x : Stream) : (t.setStream n x).index = t.index := by unfold Thread.setStream; split <;> rfl
@[simp] theorem Thread.setStream_req (t : Thread) (n : Nat) (x : Stream) : (t.setStream n x).req = t.req := by unfold Thread.setStream; split <;> rfl
@[simp] theorem Thread.setStream_pos (t : Thread) (n : Nat) (x : Stream) : (t.setStream n x).pos = t.pos := by unfold Thread.setStream; split <;> rfl
@[simp] theorem Thread.setStream_lc (t : Thread) (n : Nat) (x : Stream) : (t.setStream n x).lc = t.lc := by unfold Thread.setStream; split <;> rfl
@[simp] theorem Thread.setStream_home (t : Thread) (n : Nat) (x : Stream) : (t.setStream n x).home = t.home := by unfold Thread.setStream; split <;> rfl
@[simp] theorem Thread.setStream_passes (t : Thread) (n : Nat) (x : Stream) : (t.setStream n x).passes = t.passes := by unfold Thread.setStream; split <;> rfl
@[simp] theorem Thread.setStream_boosted (t : Thread) (n : Nat) (x : Stream) : (t.setStream n x).boosted = t.boosted := by unfold Thread.setStream; split <;> rfl
@[simp] theorem Thread.setStream_wait (t : Thread) (n : Nat) (x : Stream) : (t.setStream n x).wait = t.wait := by unfold Thread.setStream; split <;> rfl
@[simp] theorem Thread.setStream_resume (t : Thread) (n : Nat) (x : Stream) : (t.setStream n x).resume = t.resume := by unfold Thread.setStream; split <;> rfl
@[simp] theorem Thread.setStream_saved (t : Thread) (n : Nat) (x : Stream) : (t.setStream n x).saved = t.saved := by unfold Thread.setStream; split <;> rfl
@[simp] theorem Thread.setStream_vldas (t : Thread) (n : Nat) (x : Stream) : (t.setStream n x).vldas = t.vldas := by unfold Thread.setStream; split <;> rfl
@[simp] theorem Thread.setStream_loads (t : Thread) (n : Nat) (x : Stream) : (t.setStream n x).loads = t.loads := by unfold Thread.setStream; split <;> rfl
@[simp] theorem Thread.setStream_mmaRun (t : Thread) (n : Nat) (x : Stream) : (t.setStream n x).mmaRun = t.mmaRun := by unfold Thread.setStream; split <;> rfl
@[simp] theorem Thread.setStream_zenc (t : Thread) (n : Nat) (x : Stream) : (t.setStream n x).zenc = t.zenc := by unfold Thread.setStream; split <;> rfl
@[simp] theorem Thread.setStream_zfault (t : Thread) (n : Nat) (x : Stream) : (t.setStream n x).zfault = t.zfault := by unfold Thread.setStream; split <;> rfl
@[simp] theorem Thread.setStream_begun (t : Thread) (n : Nat) (x : Stream) : (t.setStream n x).begun = t.begun := by unfold Thread.setStream; split <;> rfl
@[simp] theorem Thread.setStream_trap (t : Thread) (n : Nat) (x : Stream) : (t.setStream n x).trap = t.trap := by unfold Thread.setStream; split <;> rfl
@[simp] theorem Thread.setStream_prefs (t : Thread) (n : Nat) (x : Stream) : (t.setStream n x).prefs = t.prefs := by unfold Thread.setStream; split <;> rfl
@[simp] theorem Thread.setStream_spoison (t : Thread) (n : Nat) (x : Stream) : (t.setStream n x).spoison = t.spoison := by unfold Thread.setStream; split <;> rfl
@[simp] theorem Thread.setStream_vpoison (t : Thread) (n : Nat) (x : Stream) : (t.setStream n x).vpoison = t.vpoison := by unfold Thread.setStream; split <;> rfl

@[simp] theorem Thread.setWindow_live (t : Thread) (n : Nat) (x : Window) : (t.setWindow n x).live = t.live := by unfold Thread.setWindow; split <;> rfl
@[simp] theorem Thread.setWindow_part (t : Thread) (n : Nat) (x : Window) : (t.setWindow n x).part = t.part := by unfold Thread.setWindow; split <;> rfl
@[simp] theorem Thread.setWindow_entry (t : Thread) (n : Nat) (x : Window) : (t.setWindow n x).entry = t.entry := by unfold Thread.setWindow; split <;> rfl
@[simp] theorem Thread.setWindow_pc (t : Thread) (n : Nat) (x : Window) : (t.setWindow n x).pc = t.pc := by unfold Thread.setWindow; split <;> rfl
@[simp] theorem Thread.setWindow_s (t : Thread) (n : Nat) (x : Window) : (t.setWindow n x).s = t.s := by unfold Thread.setWindow; split <;> rfl
@[simp] theorem Thread.setWindow_level (t : Thread) (n : Nat) (x : Window) : (t.setWindow n x).level = t.level := by unfold Thread.setWindow; split <;> rfl
@[simp] theorem Thread.setWindow_vcfg (t : Thread) (n : Nat) (x : Window) : (t.setWindow n x).vcfg = t.vcfg := by unfold Thread.setWindow; split <;> rfl
@[simp] theorem Thread.setWindow_vrows (t : Thread) (n : Nat) (x : Window) : (t.setWindow n x).vrows = t.vrows := by unfold Thread.setWindow; split <;> rfl
@[simp] theorem Thread.setWindow_vpitch (t : Thread) (n : Nat) (x : Window) : (t.setWindow n x).vpitch = t.vpitch := by unfold Thread.setWindow; split <;> rfl
@[simp] theorem Thread.setWindow_vstart (t : Thread) (n : Nat) (x : Window) : (t.setWindow n x).vstart = t.vstart := by unfold Thread.setWindow; split <;> rfl
@[simp] theorem Thread.setWindow_eprog (t : Thread) (n : Nat) (x : Window) : (t.setWindow n x).eprog = t.eprog := by unfold Thread.setWindow; split <;> rfl
@[simp] theorem Thread.setWindow_vxsat (t : Thread) (n : Nat) (x : Window) : (t.setWindow n x).vxsat = t.vxsat := by unfold Thread.setWindow; split <;> rfl
@[simp] theorem Thread.setWindow_fflags (t : Thread) (n : Nat) (x : Window) : (t.setWindow n x).fflags = t.fflags := by unfold Thread.setWindow; split <;> rfl
@[simp] theorem Thread.setWindow_frm (t : Thread) (n : Nat) (x : Window) : (t.setWindow n x).frm = t.frm := by unfold Thread.setWindow; split <;> rfl
@[simp] theorem Thread.setWindow_step (t : Thread) (n : Nat) (x : Window) : (t.setWindow n x).step = t.step := by unfold Thread.setWindow; split <;> rfl
@[simp] theorem Thread.setWindow_tid (t : Thread) (n : Nat) (x : Window) : (t.setWindow n x).tid = t.tid := by unfold Thread.setWindow; split <;> rfl
@[simp] theorem Thread.setWindow_mgrant (t : Thread) (n : Nat) (x : Window) : (t.setWindow n x).mgrant = t.mgrant := by unfold Thread.setWindow; split <;> rfl
@[simp] theorem Thread.setWindow_xcause (t : Thread) (n : Nat) (x : Window) : (t.setWindow n x).xcause = t.xcause := by unfold Thread.setWindow; split <;> rfl
@[simp] theorem Thread.setWindow_xpc (t : Thread) (n : Nat) (x : Window) : (t.setWindow n x).xpc = t.xpc := by unfold Thread.setWindow; split <;> rfl
@[simp] theorem Thread.setWindow_xval (t : Thread) (n : Nat) (x : Window) : (t.setWindow n x).xval = t.xval := by unfold Thread.setWindow; split <;> rfl
@[simp] theorem Thread.setWindow_xstat (t : Thread) (n : Nat) (x : Window) : (t.setWindow n x).xstat = t.xstat := by unfold Thread.setWindow; split <;> rfl
@[simp] theorem Thread.setWindow_xprog (t : Thread) (n : Nat) (x : Window) : (t.setWindow n x).xprog = t.xprog := by unfold Thread.setWindow; split <;> rfl
@[simp] theorem Thread.setWindow_dbg (t : Thread) (n : Nat) (x : Window) : (t.setWindow n x).dbg = t.dbg := by unfold Thread.setWindow; split <;> rfl
@[simp] theorem Thread.setWindow_xscr (t : Thread) (n : Nat) (x : Window) : (t.setWindow n x).xscr = t.xscr := by unfold Thread.setWindow; split <;> rfl
@[simp] theorem Thread.setWindow_g (t : Thread) (n : Nat) (x : Window) : (t.setWindow n x).g = t.g := by unfold Thread.setWindow; split <;> rfl
@[simp] theorem Thread.setWindow_v (t : Thread) (n : Nat) (x : Window) : (t.setWindow n x).v = t.v := by unfold Thread.setWindow; split <;> rfl
@[simp] theorem Thread.setWindow_sort (t : Thread) (n : Nat) (x : Window) : (t.setWindow n x).sort = t.sort := by unfold Thread.setWindow; split <;> rfl
@[simp] theorem Thread.setWindow_m (t : Thread) (n : Nat) (x : Window) : (t.setWindow n x).m = t.m := by unfold Thread.setWindow; split <;> rfl
@[simp] theorem Thread.setWindow_q (t : Thread) (n : Nat) (x : Window) : (t.setWindow n x).q = t.q := by unfold Thread.setWindow; split <;> rfl
@[simp] theorem Thread.setWindow_scan (t : Thread) (n : Nat) (x : Window) : (t.setWindow n x).scan = t.scan := by unfold Thread.setWindow; split <;> rfl
@[simp] theorem Thread.setWindow_isL (t : Thread) (n : Nat) (x : Window) : (t.setWindow n x).isL = t.isL := by unfold Thread.setWindow; split <;> rfl
@[simp] theorem Thread.setWindow_prio (t : Thread) (n : Nat) (x : Window) : (t.setWindow n x).prio = t.prio := by unfold Thread.setWindow; split <;> rfl
@[simp] theorem Thread.setWindow_seq (t : Thread) (n : Nat) (x : Window) : (t.setWindow n x).seq = t.seq := by unfold Thread.setWindow; split <;> rfl
@[simp] theorem Thread.setWindow_index (t : Thread) (n : Nat) (x : Window) : (t.setWindow n x).index = t.index := by unfold Thread.setWindow; split <;> rfl
@[simp] theorem Thread.setWindow_req (t : Thread) (n : Nat) (x : Window) : (t.setWindow n x).req = t.req := by unfold Thread.setWindow; split <;> rfl
@[simp] theorem Thread.setWindow_pos (t : Thread) (n : Nat) (x : Window) : (t.setWindow n x).pos = t.pos := by unfold Thread.setWindow; split <;> rfl
@[simp] theorem Thread.setWindow_lc (t : Thread) (n : Nat) (x : Window) : (t.setWindow n x).lc = t.lc := by unfold Thread.setWindow; split <;> rfl
@[simp] theorem Thread.setWindow_home (t : Thread) (n : Nat) (x : Window) : (t.setWindow n x).home = t.home := by unfold Thread.setWindow; split <;> rfl
@[simp] theorem Thread.setWindow_passes (t : Thread) (n : Nat) (x : Window) : (t.setWindow n x).passes = t.passes := by unfold Thread.setWindow; split <;> rfl
@[simp] theorem Thread.setWindow_boosted (t : Thread) (n : Nat) (x : Window) : (t.setWindow n x).boosted = t.boosted := by unfold Thread.setWindow; split <;> rfl
@[simp] theorem Thread.setWindow_wait (t : Thread) (n : Nat) (x : Window) : (t.setWindow n x).wait = t.wait := by unfold Thread.setWindow; split <;> rfl
@[simp] theorem Thread.setWindow_resume (t : Thread) (n : Nat) (x : Window) : (t.setWindow n x).resume = t.resume := by unfold Thread.setWindow; split <;> rfl
@[simp] theorem Thread.setWindow_saved (t : Thread) (n : Nat) (x : Window) : (t.setWindow n x).saved = t.saved := by unfold Thread.setWindow; split <;> rfl
@[simp] theorem Thread.setWindow_vldas (t : Thread) (n : Nat) (x : Window) : (t.setWindow n x).vldas = t.vldas := by unfold Thread.setWindow; split <;> rfl
@[simp] theorem Thread.setWindow_loads (t : Thread) (n : Nat) (x : Window) : (t.setWindow n x).loads = t.loads := by unfold Thread.setWindow; split <;> rfl
@[simp] theorem Thread.setWindow_mmaRun (t : Thread) (n : Nat) (x : Window) : (t.setWindow n x).mmaRun = t.mmaRun := by unfold Thread.setWindow; split <;> rfl
@[simp] theorem Thread.setWindow_zenc (t : Thread) (n : Nat) (x : Window) : (t.setWindow n x).zenc = t.zenc := by unfold Thread.setWindow; split <;> rfl
@[simp] theorem Thread.setWindow_zfault (t : Thread) (n : Nat) (x : Window) : (t.setWindow n x).zfault = t.zfault := by unfold Thread.setWindow; split <;> rfl
@[simp] theorem Thread.setWindow_begun (t : Thread) (n : Nat) (x : Window) : (t.setWindow n x).begun = t.begun := by unfold Thread.setWindow; split <;> rfl
@[simp] theorem Thread.setWindow_trap (t : Thread) (n : Nat) (x : Window) : (t.setWindow n x).trap = t.trap := by unfold Thread.setWindow; split <;> rfl
@[simp] theorem Thread.setWindow_prefs (t : Thread) (n : Nat) (x : Window) : (t.setWindow n x).prefs = t.prefs := by unfold Thread.setWindow; split <;> rfl
@[simp] theorem Thread.setWindow_spoison (t : Thread) (n : Nat) (x : Window) : (t.setWindow n x).spoison = t.spoison := by unfold Thread.setWindow; split <;> rfl
@[simp] theorem Thread.setWindow_vpoison (t : Thread) (n : Nat) (x : Window) : (t.setWindow n x).vpoison = t.vpoison := by unfold Thread.setWindow; split <;> rfl

@[simp] theorem Thread.setHandle_live (t : Thread) (n : Nat) (x : Word) : (t.setHandle n x).live = t.live := by unfold Thread.setHandle; split <;> rfl
@[simp] theorem Thread.setHandle_part (t : Thread) (n : Nat) (x : Word) : (t.setHandle n x).part = t.part := by unfold Thread.setHandle; split <;> rfl
@[simp] theorem Thread.setHandle_entry (t : Thread) (n : Nat) (x : Word) : (t.setHandle n x).entry = t.entry := by unfold Thread.setHandle; split <;> rfl
@[simp] theorem Thread.setHandle_pc (t : Thread) (n : Nat) (x : Word) : (t.setHandle n x).pc = t.pc := by unfold Thread.setHandle; split <;> rfl
@[simp] theorem Thread.setHandle_s (t : Thread) (n : Nat) (x : Word) : (t.setHandle n x).s = t.s := by unfold Thread.setHandle; split <;> rfl
@[simp] theorem Thread.setHandle_level (t : Thread) (n : Nat) (x : Word) : (t.setHandle n x).level = t.level := by unfold Thread.setHandle; split <;> rfl
@[simp] theorem Thread.setHandle_vcfg (t : Thread) (n : Nat) (x : Word) : (t.setHandle n x).vcfg = t.vcfg := by unfold Thread.setHandle; split <;> rfl
@[simp] theorem Thread.setHandle_vrows (t : Thread) (n : Nat) (x : Word) : (t.setHandle n x).vrows = t.vrows := by unfold Thread.setHandle; split <;> rfl
@[simp] theorem Thread.setHandle_vpitch (t : Thread) (n : Nat) (x : Word) : (t.setHandle n x).vpitch = t.vpitch := by unfold Thread.setHandle; split <;> rfl
@[simp] theorem Thread.setHandle_vstart (t : Thread) (n : Nat) (x : Word) : (t.setHandle n x).vstart = t.vstart := by unfold Thread.setHandle; split <;> rfl
@[simp] theorem Thread.setHandle_eprog (t : Thread) (n : Nat) (x : Word) : (t.setHandle n x).eprog = t.eprog := by unfold Thread.setHandle; split <;> rfl
@[simp] theorem Thread.setHandle_vxsat (t : Thread) (n : Nat) (x : Word) : (t.setHandle n x).vxsat = t.vxsat := by unfold Thread.setHandle; split <;> rfl
@[simp] theorem Thread.setHandle_fflags (t : Thread) (n : Nat) (x : Word) : (t.setHandle n x).fflags = t.fflags := by unfold Thread.setHandle; split <;> rfl
@[simp] theorem Thread.setHandle_frm (t : Thread) (n : Nat) (x : Word) : (t.setHandle n x).frm = t.frm := by unfold Thread.setHandle; split <;> rfl
@[simp] theorem Thread.setHandle_step (t : Thread) (n : Nat) (x : Word) : (t.setHandle n x).step = t.step := by unfold Thread.setHandle; split <;> rfl
@[simp] theorem Thread.setHandle_tid (t : Thread) (n : Nat) (x : Word) : (t.setHandle n x).tid = t.tid := by unfold Thread.setHandle; split <;> rfl
@[simp] theorem Thread.setHandle_mgrant (t : Thread) (n : Nat) (x : Word) : (t.setHandle n x).mgrant = t.mgrant := by unfold Thread.setHandle; split <;> rfl
@[simp] theorem Thread.setHandle_xcause (t : Thread) (n : Nat) (x : Word) : (t.setHandle n x).xcause = t.xcause := by unfold Thread.setHandle; split <;> rfl
@[simp] theorem Thread.setHandle_xpc (t : Thread) (n : Nat) (x : Word) : (t.setHandle n x).xpc = t.xpc := by unfold Thread.setHandle; split <;> rfl
@[simp] theorem Thread.setHandle_xval (t : Thread) (n : Nat) (x : Word) : (t.setHandle n x).xval = t.xval := by unfold Thread.setHandle; split <;> rfl
@[simp] theorem Thread.setHandle_xstat (t : Thread) (n : Nat) (x : Word) : (t.setHandle n x).xstat = t.xstat := by unfold Thread.setHandle; split <;> rfl
@[simp] theorem Thread.setHandle_xprog (t : Thread) (n : Nat) (x : Word) : (t.setHandle n x).xprog = t.xprog := by unfold Thread.setHandle; split <;> rfl
@[simp] theorem Thread.setHandle_dbg (t : Thread) (n : Nat) (x : Word) : (t.setHandle n x).dbg = t.dbg := by unfold Thread.setHandle; split <;> rfl
@[simp] theorem Thread.setHandle_xscr (t : Thread) (n : Nat) (x : Word) : (t.setHandle n x).xscr = t.xscr := by unfold Thread.setHandle; split <;> rfl
@[simp] theorem Thread.setHandle_v (t : Thread) (n : Nat) (x : Word) : (t.setHandle n x).v = t.v := by unfold Thread.setHandle; split <;> rfl
@[simp] theorem Thread.setHandle_sort (t : Thread) (n : Nat) (x : Word) : (t.setHandle n x).sort = t.sort := by unfold Thread.setHandle; split <;> rfl
@[simp] theorem Thread.setHandle_m (t : Thread) (n : Nat) (x : Word) : (t.setHandle n x).m = t.m := by unfold Thread.setHandle; split <;> rfl
@[simp] theorem Thread.setHandle_q (t : Thread) (n : Nat) (x : Word) : (t.setHandle n x).q = t.q := by unfold Thread.setHandle; split <;> rfl
@[simp] theorem Thread.setHandle_w (t : Thread) (n : Nat) (x : Word) : (t.setHandle n x).w = t.w := by unfold Thread.setHandle; split <;> rfl
@[simp] theorem Thread.setHandle_scan (t : Thread) (n : Nat) (x : Word) : (t.setHandle n x).scan = t.scan := by unfold Thread.setHandle; split <;> rfl
@[simp] theorem Thread.setHandle_isL (t : Thread) (n : Nat) (x : Word) : (t.setHandle n x).isL = t.isL := by unfold Thread.setHandle; split <;> rfl
@[simp] theorem Thread.setHandle_prio (t : Thread) (n : Nat) (x : Word) : (t.setHandle n x).prio = t.prio := by unfold Thread.setHandle; split <;> rfl
@[simp] theorem Thread.setHandle_seq (t : Thread) (n : Nat) (x : Word) : (t.setHandle n x).seq = t.seq := by unfold Thread.setHandle; split <;> rfl
@[simp] theorem Thread.setHandle_index (t : Thread) (n : Nat) (x : Word) : (t.setHandle n x).index = t.index := by unfold Thread.setHandle; split <;> rfl
@[simp] theorem Thread.setHandle_req (t : Thread) (n : Nat) (x : Word) : (t.setHandle n x).req = t.req := by unfold Thread.setHandle; split <;> rfl
@[simp] theorem Thread.setHandle_pos (t : Thread) (n : Nat) (x : Word) : (t.setHandle n x).pos = t.pos := by unfold Thread.setHandle; split <;> rfl
@[simp] theorem Thread.setHandle_lc (t : Thread) (n : Nat) (x : Word) : (t.setHandle n x).lc = t.lc := by unfold Thread.setHandle; split <;> rfl
@[simp] theorem Thread.setHandle_home (t : Thread) (n : Nat) (x : Word) : (t.setHandle n x).home = t.home := by unfold Thread.setHandle; split <;> rfl
@[simp] theorem Thread.setHandle_passes (t : Thread) (n : Nat) (x : Word) : (t.setHandle n x).passes = t.passes := by unfold Thread.setHandle; split <;> rfl
@[simp] theorem Thread.setHandle_boosted (t : Thread) (n : Nat) (x : Word) : (t.setHandle n x).boosted = t.boosted := by unfold Thread.setHandle; split <;> rfl
@[simp] theorem Thread.setHandle_wait (t : Thread) (n : Nat) (x : Word) : (t.setHandle n x).wait = t.wait := by unfold Thread.setHandle; split <;> rfl
@[simp] theorem Thread.setHandle_resume (t : Thread) (n : Nat) (x : Word) : (t.setHandle n x).resume = t.resume := by unfold Thread.setHandle; split <;> rfl
@[simp] theorem Thread.setHandle_saved (t : Thread) (n : Nat) (x : Word) : (t.setHandle n x).saved = t.saved := by unfold Thread.setHandle; split <;> rfl
@[simp] theorem Thread.setHandle_vldas (t : Thread) (n : Nat) (x : Word) : (t.setHandle n x).vldas = t.vldas := by unfold Thread.setHandle; split <;> rfl
@[simp] theorem Thread.setHandle_loads (t : Thread) (n : Nat) (x : Word) : (t.setHandle n x).loads = t.loads := by unfold Thread.setHandle; split <;> rfl
@[simp] theorem Thread.setHandle_mmaRun (t : Thread) (n : Nat) (x : Word) : (t.setHandle n x).mmaRun = t.mmaRun := by unfold Thread.setHandle; split <;> rfl
@[simp] theorem Thread.setHandle_zenc (t : Thread) (n : Nat) (x : Word) : (t.setHandle n x).zenc = t.zenc := by unfold Thread.setHandle; split <;> rfl
@[simp] theorem Thread.setHandle_zfault (t : Thread) (n : Nat) (x : Word) : (t.setHandle n x).zfault = t.zfault := by unfold Thread.setHandle; split <;> rfl
@[simp] theorem Thread.setHandle_begun (t : Thread) (n : Nat) (x : Word) : (t.setHandle n x).begun = t.begun := by unfold Thread.setHandle; split <;> rfl
@[simp] theorem Thread.setHandle_trap (t : Thread) (n : Nat) (x : Word) : (t.setHandle n x).trap = t.trap := by unfold Thread.setHandle; split <;> rfl
@[simp] theorem Thread.setHandle_prefs (t : Thread) (n : Nat) (x : Word) : (t.setHandle n x).prefs = t.prefs := by unfold Thread.setHandle; split <;> rfl
@[simp] theorem Thread.setHandle_spoison (t : Thread) (n : Nat) (x : Word) : (t.setHandle n x).spoison = t.spoison := by unfold Thread.setHandle; split <;> rfl
@[simp] theorem Thread.setHandle_vpoison (t : Thread) (n : Nat) (x : Word) : (t.setHandle n x).vpoison = t.vpoison := by unfold Thread.setHandle; split <;> rfl

@[simp] theorem Thread.finishV_live (t : Thread) : t.finishV.live = t.live := rfl
@[simp] theorem Thread.finishV_part (t : Thread) : t.finishV.part = t.part := rfl
@[simp] theorem Thread.finishV_entry (t : Thread) : t.finishV.entry = t.entry := rfl
@[simp] theorem Thread.finishV_pc (t : Thread) : t.finishV.pc = t.pc := rfl
@[simp] theorem Thread.finishV_s (t : Thread) : t.finishV.s = t.s := rfl
@[simp] theorem Thread.finishV_level (t : Thread) : t.finishV.level = t.level := rfl
@[simp] theorem Thread.finishV_vcfg (t : Thread) : t.finishV.vcfg = t.vcfg := rfl
@[simp] theorem Thread.finishV_vrows (t : Thread) : t.finishV.vrows = t.vrows := rfl
@[simp] theorem Thread.finishV_vpitch (t : Thread) : t.finishV.vpitch = t.vpitch := rfl
@[simp] theorem Thread.finishV_vxsat (t : Thread) : t.finishV.vxsat = t.vxsat := rfl
@[simp] theorem Thread.finishV_fflags (t : Thread) : t.finishV.fflags = t.fflags := rfl
@[simp] theorem Thread.finishV_frm (t : Thread) : t.finishV.frm = t.frm := rfl
@[simp] theorem Thread.finishV_step (t : Thread) : t.finishV.step = t.step := rfl
@[simp] theorem Thread.finishV_tid (t : Thread) : t.finishV.tid = t.tid := rfl
@[simp] theorem Thread.finishV_mgrant (t : Thread) : t.finishV.mgrant = t.mgrant := rfl
@[simp] theorem Thread.finishV_xcause (t : Thread) : t.finishV.xcause = t.xcause := rfl
@[simp] theorem Thread.finishV_xpc (t : Thread) : t.finishV.xpc = t.xpc := rfl
@[simp] theorem Thread.finishV_xval (t : Thread) : t.finishV.xval = t.xval := rfl
@[simp] theorem Thread.finishV_xstat (t : Thread) : t.finishV.xstat = t.xstat := rfl
@[simp] theorem Thread.finishV_dbg (t : Thread) : t.finishV.dbg = t.dbg := rfl
@[simp] theorem Thread.finishV_xscr (t : Thread) : t.finishV.xscr = t.xscr := rfl
@[simp] theorem Thread.finishV_g (t : Thread) : t.finishV.g = t.g := rfl
@[simp] theorem Thread.finishV_v (t : Thread) : t.finishV.v = t.v := rfl
@[simp] theorem Thread.finishV_sort (t : Thread) : t.finishV.sort = t.sort := rfl
@[simp] theorem Thread.finishV_m (t : Thread) : t.finishV.m = t.m := rfl
@[simp] theorem Thread.finishV_q (t : Thread) : t.finishV.q = t.q := rfl
@[simp] theorem Thread.finishV_w (t : Thread) : t.finishV.w = t.w := rfl
@[simp] theorem Thread.finishV_scan (t : Thread) : t.finishV.scan = t.scan := rfl
@[simp] theorem Thread.finishV_isL (t : Thread) : t.finishV.isL = t.isL := rfl
@[simp] theorem Thread.finishV_prio (t : Thread) : t.finishV.prio = t.prio := rfl
@[simp] theorem Thread.finishV_seq (t : Thread) : t.finishV.seq = t.seq := rfl
@[simp] theorem Thread.finishV_index (t : Thread) : t.finishV.index = t.index := rfl
@[simp] theorem Thread.finishV_req (t : Thread) : t.finishV.req = t.req := rfl
@[simp] theorem Thread.finishV_pos (t : Thread) : t.finishV.pos = t.pos := rfl
@[simp] theorem Thread.finishV_lc (t : Thread) : t.finishV.lc = t.lc := rfl
@[simp] theorem Thread.finishV_home (t : Thread) : t.finishV.home = t.home := rfl
@[simp] theorem Thread.finishV_passes (t : Thread) : t.finishV.passes = t.passes := rfl
@[simp] theorem Thread.finishV_boosted (t : Thread) : t.finishV.boosted = t.boosted := rfl
@[simp] theorem Thread.finishV_wait (t : Thread) : t.finishV.wait = t.wait := rfl
@[simp] theorem Thread.finishV_saved (t : Thread) : t.finishV.saved = t.saved := rfl
@[simp] theorem Thread.finishV_vldas (t : Thread) : t.finishV.vldas = t.vldas := rfl
@[simp] theorem Thread.finishV_loads (t : Thread) : t.finishV.loads = t.loads := rfl
@[simp] theorem Thread.finishV_mmaRun (t : Thread) : t.finishV.mmaRun = t.mmaRun := rfl
@[simp] theorem Thread.finishV_zenc (t : Thread) : t.finishV.zenc = t.zenc := rfl
@[simp] theorem Thread.finishV_zfault (t : Thread) : t.finishV.zfault = t.zfault := rfl
@[simp] theorem Thread.finishV_begun (t : Thread) : t.finishV.begun = t.begun := rfl
@[simp] theorem Thread.finishV_trap (t : Thread) : t.finishV.trap = t.trap := rfl
@[simp] theorem Thread.finishV_prefs (t : Thread) : t.finishV.prefs = t.prefs := rfl
@[simp] theorem Thread.finishV_spoison (t : Thread) : t.finishV.spoison = t.spoison := rfl
@[simp] theorem Thread.finishV_vpoison (t : Thread) : t.finishV.vpoison = t.vpoison := rfl

end Sys2Proof.Machine
end

