-- ==== Sys2Proof/Laws/Tier.lean ====
section
/-! SUPPORT. Laws of plain memory and of the pages a partition maps: where nothing stands in update lines a recall does nothing, and
the leaves of tables whose later entries are zero come from their first entries alone (spec/03 R56, R65, R71). -/

namespace Sys2Proof.Machine

theorem recallLine_of_noUpdates {s : State} (h : NoUpdates s) (line : Nat) : recallLine s line = s := by
  have hh : s.holders line = [] := List.filter_eq_nil_iff.mpr fun e he => by simp [h e he]
  simp only [recallLine, hh]

theorem recallRange_of_noUpdates {s : State} (h : NoUpdates s) (pa n : Nat) : recallRange s pa n = s := by
  have fold : ∀ l : List Nat, l.foldl (fun s k => recallLine s (pa / 128 + k)) s = s := by
    intro l
    induction l with
    | nil => rfl
    | cons k l ih => simp only [List.foldl_cons, recallLine_of_noUpdates h, ih]
  exact fold _

theorem Mem.read_of_unlisted {m : Mem} {a : Nat} (h : ∀ c ∈ m, c.1 ≠ a) : m.read a = unlisted := by
  induction m with
  | nil => rfl
  | cons c m ih =>
    have := ih fun x hx => h x (List.mem_cons_of_mem _ hx)
    simp only [Mem.read, h c List.mem_cons_self, if_false, this, ite_self]

theorem Mem.readLE_of_unlisted {m : Mem} {a : Nat} : ∀ n, (∀ c ∈ m, c.1 < a ∨ a + n ≤ c.1) → m.readLE a n = 0
  | 0, _ => rfl
  | n + 1, h => by
    have hr : m.read (a + n) = 0 := Mem.read_of_unlisted fun c hc => by have := h c hc; omega
    have ih : m.readLE a n = 0 := Mem.readLE_of_unlisted n fun c hc => by have := h c hc; omega
    simp [Mem.readLE, hr, ih]

/-- The leaves that the first `n` entries of each table give, in plain memory. -/
def leavesWithin (m : Mem) (n : Nat) : Nat → Nat → Nat → List TlbEntry
  | 0, _, _ => []
  | l + 1, table, va =>
    (List.range n).flatMap fun k =>
      let at_ := table + 8 * k
      let v := va + k * 2 ^ (12 + 9 * l)
      if !(isHbm at_ || isHost at_) then []
      else
        let e := m.readLE at_ 8
        let c := bits e 62 59
        if !e.testBit 0 || bits e 55 52 != 0 then []
        else if e.testBit 1 then
          if l = 4 || sizeLevel c != l || bits e 51 12 * 4096 % pageBytes c != 0 || v % pageBytes c != 0 then []
          else [⟨v, c, BitVec.ofNat 64 e, at_⟩]
        else leavesWithin m n l (bits e 51 12 * 4096) v

/-- No table holds anything after its first `n` entries: the walk needs no more than these. -/
theorem leavesFrom_eq_leavesWithin {s : State} {n : Nat} (hn : n ≤ 512) (hp : s.poison = []) (hl : s.plat.linkLost = false)
    (hf : s.frames = []) (he : s.late = []) (hu : NoUpdates s) (hm : ∀ c ∈ s.mem, c.1 % 4096 < 8 * n) :
    ∀ l table va, table % 4096 = 0 → leavesFrom s l table va = leavesWithin s.mem n l table va
  | 0, _, _, _ => rfl
  | l + 1, table, va, ht => by
    have hr (a : Nat) : (recallRange s a 8).rdHome a 8 = s.mem.readLE a 8 := by
      simp only [recallRange_of_noUpdates hu, State.rdHome, he, State.rdMem, hf]
    have ho (a : Nat) : (poisonAt s a 8).isSome = false := by simp [poisonAt, hp, hl]
    have hz (k : Nat) (h1 : n ≤ k) (h2 : k < 512) : s.mem.readLE (table + 8 * k) 8 = 0 :=
      Mem.readLE_of_unlisted 8 fun c hc => by have := hm c hc; omega
    have hsplit : List.range 512 = List.range n ++ (List.range (512 - n)).map (n + ·) := by
      rw [← List.range_add, Nat.add_sub_cancel' hn]
    simp only [leavesFrom, leavesWithin, hr, ho, Bool.or_false]
    rw [hsplit, List.flatMap_append, List.flatMap_map]
    have htail : ((List.range (512 - n)).flatMap fun k =>
        if (!(isHbm (table + 8 * (n + k)) || isHost (table + 8 * (n + k)))) = true then ([] : List TlbEntry)
        else if (!(s.mem.readLE (table + 8 * (n + k)) 8).testBit 0 || bits (s.mem.readLE (table + 8 * (n + k)) 8) 55 52 != 0) = true then []
        else if (s.mem.readLE (table + 8 * (n + k)) 8).testBit 1 = true then
          if (decide (l = 4) || sizeLevel (bits (s.mem.readLE (table + 8 * (n + k)) 8) 62 59) != l ||
              bits (s.mem.readLE (table + 8 * (n + k)) 8) 51 12 * 4096 % pageBytes (bits (s.mem.readLE (table + 8 * (n + k)) 8) 62 59) != 0 ||
              (va + (n + k) * 2 ^ (12 + 9 * l)) % pageBytes (bits (s.mem.readLE (table + 8 * (n + k)) 8) 62 59) != 0) = true then []
          else [⟨va + (n + k) * 2 ^ (12 + 9 * l), bits (s.mem.readLE (table + 8 * (n + k)) 8) 62 59,
            BitVec.ofNat 64 (s.mem.readLE (table + 8 * (n + k)) 8), table + 8 * (n + k)⟩]
        else leavesFrom s l (bits (s.mem.readLE (table + 8 * (n + k)) 8) 51 12 * 4096) (va + (n + k) * 2 ^ (12 + 9 * l))) = [] := by
      refine List.flatMap_eq_nil_iff.mpr fun k hk => ?_
      have hk := List.mem_range.mp hk
      rw [hz (n + k) (by omega) (by omega)]
      simp
    rw [htail, List.append_nil]
    refine List.flatMap_congr fun k _ => ?_
    rw [leavesFrom_eq_leavesWithin hn hp hl hf he hu hm l _ _ (by omega)]

end Sys2Proof.Machine
end

