-- ==== Sys2Proof/Laws/Word.lean ====
section
/-! SUPPORT. Laws of the word monad: what each shared operation answers, and how a word completes. -/

namespace Sys2Proof.Machine

/-! ### Running -/

@[simp] theorem M.run_pure {α : Type} (a : α) (s : State) : (pure a : M α) s = .ok a s := rfl

theorem M.run_bind {α β : Type} (x : M α) (f : α → M β) (s : State) :
    (x >>= f) s = match x s with
      | .ok a s' => f a s'
      | .error e s' => .error e s' := by
  cases h : x s <;> simp [bind, EStateM.bind, h]

/-- A bind whose first part answers `a`. -/
theorem M.run_bind_ok {α β : Type} {x : M α} {f : α → M β} {s s' : State} {a : α} (h : x s = .ok a s') :
    (x >>= f) s = f a s' := by rw [M.run_bind, h]

/-- A bind whose first part stops. -/
theorem M.run_bind_error {α β : Type} {x : M α} {f : α → M β} {s s' : State} {e : Stop} (h : x s = .error e s') :
    (x >>= f) s = .error e s' := by rw [M.run_bind, h]

/-- From a bind that answers, both parts. -/
theorem M.bind_ok_inv {α β : Type} {x : M α} {f : α → M β} {s t : State} {b : β} (h : (x >>= f) s = .ok b t) :
    ∃ a u, x s = .ok a u ∧ f a u = .ok b t := by
  rw [M.run_bind] at h
  split at h
  · exact ⟨_, _, ‹_›, h⟩
  · cases h

@[simp] theorem M.run_get (s : State) : (get : M State) s = .ok s s := rfl
@[simp] theorem M.run_set (t s : State) : (set t : M Unit) s = .ok () t := rfl
@[simp] theorem M.run_modify (f : State → State) (s : State) : (modify f : M Unit) s = .ok () (f s) := rfl
@[simp] theorem M.run_throw {α : Type} (e : Stop) (s : State) : (throw e : M α) s = .error e s := rfl
@[simp] theorem M.run_raise {α : Type} (c : Nat) (x : Word) (s : State) :
    (raise c x : M α) s = .error (.cause { code := c, xval := x }) s := rfl
@[simp] theorem M.run_getTh (s : State) : getTh s = .ok s.th s := rfl
@[simp] theorem M.run_modTh (f : Thread → Thread) (s : State) : modTh f s = .ok () { s with th := f s.th } := rfl
@[simp] theorem M.run_wrS (r : BitVec 6) (v : Word) (s : State) :
    wrS r v s = .ok () { s with th := s.th.setS r v } := rfl
@[simp] theorem M.run_addFlags (f : BitVec 5) (s : State) :
    addFlags f s = .ok () { s with th := { s.th with fflags := s.th.fflags ||| f.setWidth 64 } } := rfl

@[simp] theorem M.run_raiseIf_false (c : Nat) (x : Word) (s : State) : raiseIf false c x s = .ok () s := rfl
@[simp] theorem M.run_raiseIf_true (c : Nat) (x : Word) (s : State) :
    raiseIf true c x s = .error (.cause { code := c, xval := x }) s := rfl

/-- setSat leaves everything but VXSAT. -/
theorem M.run_setSat (b : Bool) (s : State) :
    setSat b s = .ok () { s with th := if b then { s.th with vxsat := s.th.vxsat ||| 1 } else s.th } := by
  cases b <;> rfl

/-! ### Operands -/

/-- What `readable` says. -/
theorem Thread.readable_iff {t : Thread} {r : BitVec 6} : t.readable r = true ↔
    r = 0 ∨ (t.spoison.any fun m => m.reg == r) = false ∧ t.zenc.contains r = false ∧
      (t.loads.any fun l => l.vec.isNone && l.reg == r) = false := by
  simp only [Thread.readable, Bool.or_eq_true, Bool.and_eq_true, Bool.not_eq_true', beq_iff_eq, and_assoc]

/-- Where no word was stopped part way, the word at the pc begins with what stands. -/
theorem Thread.asBegun_of_fresh {t : Thread} (h : t.resume = none) : t.AsBegun := by
  simp [Thread.AsBegun, Thread.begins, Thread.beganAs, h]

theorem M.run_awaitS {r : BitVec 6} {s : State} (h : s.th.readable r = true) : awaitS r s = .ok () s := by
  unfold awaitS
  rcases Thread.readable_iff.mp h with h0 | ⟨-, h2, h3⟩
  · subst h0; simp only [M.run_bind, M.run_getTh, bne_self_eq_false, Bool.and_false]; rfl
  · simp only [M.run_bind, M.run_getTh, h2, h3, Bool.false_and]; rfl

theorem M.run_cleanS {r : BitVec 6} {s : State} (h : s.th.readable r = true) : cleanS r s = .ok () s := by
  unfold cleanS
  rcases Thread.readable_iff.mp h with h0 | ⟨h1, -, -⟩
  · subst h0
    simp only [M.run_bind, M.run_getTh, bne_self_eq_false, Bool.false_and]
    cases s.th.spoison.find? (fun m => m.reg == 0) <;> rfl
  · have : s.th.spoison.find? (fun m => m.reg == r) = none := by simpa using h1
    simp only [M.run_bind, M.run_getTh, this, M.run_pure]

/-- A readable register reads as its value, with nothing changed, whenever its poison is checked. -/
theorem M.run_peekS {r : BitVec 6} {s : State} (hb : s.th.AsBegun) (h : s.th.readable r = true) :
    peekS r s = .ok (s.th.getS r) s := by
  unfold peekS
  rw [M.run_bind_ok (M.run_getTh s)]
  cases hs : s.th.beganAs with
  | some b =>
    have : b.s = s.th.s := by
      have := hb
      simp only [Thread.AsBegun, Thread.begins, hs, Option.getD_some] at this
      rw [this]
    simp only [Thread.getS, this]
    rfl
  | none =>
    simp only [M.run_bind_ok (M.run_awaitS h), M.run_bind_ok (M.run_getTh s), M.run_pure]

theorem M.run_rdS {r : BitVec 6} {s : State} (hb : s.th.AsBegun) (h : s.th.readable r = true) :
    rdS r s = .ok (s.th.getS r) s := by
  unfold rdS
  rw [M.run_bind_ok (M.run_cleanS h), M.run_peekS hb h]

/-- An immediate second operand reads nothing. -/
theorem M.run_opB_imm {f : Fields} {i : BitVec 32} (h : f.imm = some i) (s : State) : opB f s = .ok (immS i) s := by
  simp [opB, h]

theorem M.run_opB_reg {f : Fields} {s : State} (h : f.imm = none) (hb : s.th.AsBegun) (hr : s.th.readable f.b = true) :
    opB f s = .ok (s.th.getS f.b) s := by simp [opB, h, M.run_rdS hb hr]

/-! ### How a word ends -/

/-- A word that answers completes at pc + 8. -/
theorem runWord_ok {m : M Unit} {s t : State} (hl : s.th.live = true) (h : m s = .ok () t) :
    runWord m s = .next (complete s (s.th.pc + 8) t) := by
  simp [runWord, runTo, hl, M.run_bind, h]

theorem runTo_ok {m : M Word} {s t : State} {n : Word} (hl : s.th.live = true) (h : m s = .ok n t) :
    runTo m s = .next (complete s n t) := by simp [runTo, hl, h]

/-- A cause that cuts nothing short ends the word in the trap. -/
theorem endWord_trap {c : Cause} {slot1 : Bool} {s s' : State} (hc : c.code ≠ 0x1C3) (hv : c.vpart = false) (ht : c.tpart = false) :
    endWord c slot1 s s' = { deliver c slot1 s' with chosen := .none } := by
  unfold endWord
  rw [if_neg]
  · simp [Thread.keepBegun, hv, ht]
  · simp [hc]

/-- A word that raises a cause with nothing standing takes the trap from the state it began in. -/
theorem runTo_cause {m : M Word} {s t : State} {c : Cause} (hl : s.th.live = true) (hc : c.code ≠ 0x1C3) (hv : c.vpart = false)
    (ht : c.tpart = false) (h : m s = .error (.cause c) t) :
    runTo m s = .next { deliver c s.th.resumeSlot1 (if c.keep then t else keepTlb s t) with chosen := .none } := by
  simp only [runTo, hl, h, endWord_trap hc hv ht, if_true]

theorem runWord_cause {m : M Unit} {s t : State} {c : Cause} (hl : s.th.live = true) (hc : c.code ≠ 0x1C3) (hv : c.vpart = false)
    (ht : c.tpart = false) (h : m s = .error (.cause c) t) :
    runWord m s = .next { deliver c s.th.resumeSlot1 (if c.keep then t else keepTlb s t) with chosen := .none } :=
  runTo_cause hl hc hv ht (M.run_bind_error h)

/-- A trap with none of the work R348 lets finish under way is taken at once; else it stays to be taken. -/
theorem deliver_now {c : Cause} {slot1 : Bool} {s : State} (hc : c.code / 32 ≠ 5) (hf : s.finishing = false) :
    deliver c slot1 s = takeTrap c s.th.pc slot1 s := by simp [deliver, hc, hf]

theorem deliver_later {c : Cause} {slot1 : Bool} {s : State} (hc : c.code / 32 ≠ 5) (hf : s.finishing = true) :
    deliver c slot1 s = { s with th := { s.th with trap := some ⟨c, slot1⟩ } } := by simp [deliver, hc, hf]

/-- A word that brings no TLB entry in keeps the state it began in when it is refused. -/
@[simp] theorem keepTlb_self (s : State) : keepTlb s s = s := by
  unfold keepTlb keepTlbOf
  have h : ((s.part s.th.part).tlb.filter fun e =>
      !((s.part s.th.part).tlb.any fun o => o.va == e.va && o.size == e.size)) = [] := by
    rw [List.filter_eq_nil_iff]
    intro e he hc
    rw [Bool.not_eq_true', List.any_eq_false] at hc
    exact hc e he (by simp)
  dsimp only
  rw [h]

/-- Outside a word step, a completed word moves the pc, uses up what an XRET left, and is no longer one stopped part way. -/
theorem complete_plain {s t : State} {n : Word} (h : s.th.dbg.getLsbD 1 = false) :
    complete s n t = { t.doneAt n with th := { (t.doneAt n).th with begun := t.th.begun.erase s.th.pc.toNat } } := by
  unfold complete
  rw [h]
  rfl

/-- It moves the pc alone where no word had been stopped part way. -/
theorem complete_fresh {s t : State} {n : Word} (h : s.th.dbg.getLsbD 1 = false) (hb : t.th.begun = []) :
    complete s n t = t.doneAt n := by
  rw [complete_plain h, hb]
  simp only [State.doneAt, hb, Table.erase, List.filter_nil]

end Sys2Proof.Machine
end

