-- ==== Sys2Proof/Tests/Slice0.lean ====
section
/-! SUPPORT. Tests: decoding of words written out from the spec's encodings, ill-formed terms, single steps against the spec's
worked examples, and for every obligation with hypotheses a state that meets them. -/

namespace Sys2Proof.Tests

open Machine

set_option Elab.async false

/-! ### Small states -/

/-- A supervisor thread with its vector context in slot 0 of core 0; translation is off, and the rest of the card is idle. -/
def sup : State := { State.reset with th := bootThread, chosen := .thread none }

/-- Change the selected thread. -/
def thr (f : Thread → Thread) (s : State) : State := { s with th := f s.th }

/-- Set scalar registers. -/
def regs (l : List (BitVec 6 × Word)) (s : State) : State := l.foldl (fun s r => s.put r.1 r.2) s

/-- Set VCFG: GROUP, the SEW code and VL. -/
def cfg (grp sewc vl : Nat) : State → State := thr fun t => { t with vcfg := BitVec.ofNat 64 (grp * 2 ^ 17 + sewc * 2 ^ 14 + vl) }

/-- Write `n` bytes of memory. -/
def poke (a n v : Nat) (s : State) : State := { s with mem := s.mem.writeLE a v n }

/-- Fields of zeros, of registers 3, 1, 2 and 4, and of an I-form word. -/
def fld : Fields := unpackR 0
def abc : Fields := { fld with d := 3, a := 1, b := 2, c := 4 }
def imm (n : Nat) : Fields := { fld with d := 3, a := 1, imm := some (BitVec.ofNat 32 n) }

/-- The outcome is a next state, and it passes a check. -/
def next (o : Out) (p : State → Bool) : Bool := match o with
  | .next t => p t
  | _ => false

/-- A step answers a next state. -/
def goes (o : Out) : Bool := next o fun _ => true

theorem next_of_goes {o : Out} (h : goes o = true) : ∃ t : State, o = .next t := by
  unfold goes next at h
  split at h
  · exact ⟨_, rfl⟩
  · simp at h

/-- An access that reaches its cell by way of cluster 0 and changes nothing on the way. -/
def reaches (s : State) (need : Need) (acc al : Nat) (ea : Word) (n pa : Nat) : Bool :=
  (match locate s.th.who need acc al ea n s with
    | .ok (.cell p via) t => decide (p = pa ∧ via = some 0 ∧ t = s)
    | _ => false) && poisonAt s pa n == none && watermarkStall s s.th.who pa n == none

theorem reaches_of {s : State} {need : Need} {acc al : Nat} {ea : Word} {n pa : Nat}
    (h : reaches s need acc al ea n pa = true) : Reaches s need acc al ea n pa (some 0) s := by
  unfold reaches at h
  split at h
  · rename_i p via t hl
    simp only [Bool.and_eq_true, decide_eq_true_eq, beq_iff_eq] at h
    obtain ⟨⟨⟨rfl, rfl, rfl⟩, hp⟩, hw⟩ := h
    exact ⟨⟨hl, hw⟩, hp⟩
  · simp at h

theorem home_of {s : State} {need : Need} {acc al : Nat} {ea : Word} {n pa : Nat} (h : reaches s need acc al ea n pa = true)
    (hp : poisonAt (s.atHome pa n).1 pa n = none) : ReachesHome s need acc al ea n pa (some 0) s := ⟨(reaches_of h).1, hp⟩
/-! ### Decoding: a word of every entry of the opcode map

Each word is its fields set at the bits of R119 Table 2 or R120 Table 3, with OP and FN[7:4] of R131 Table 8. -/

/-- Scalar integer words (R150–R160). -/
def intWords : List (Word × Instr) := [
  (0x008A_30E0_0001_0800, .add { fld with d := 5, a := 6, b := 7, var := 1, sat := true }),
  (0x010A_30E0_0000_0400, .sub { fld with d := 5, a := 6, b := 7, u := true }),
  (0x418A_3000_FFFF_FFFD, .mul { fld with d := 5, a := 6, imm := some 0xFFFFFFFD }),
  (0x020A_30E0_0000_0400, .mulh { fld with d := 5, a := 6, b := 7, u := true }),
  (0x028A_30E0_0000_0800, .div { fld with d := 5, a := 6, b := 7, sat := true }),
  (0x030A_30E0_0001_0000, .rem { fld with d := 5, a := 6, b := 7, var := 1 }),
  (0x038A_30E0_0000_0000, .and { fld with d := 5, a := 6, b := 7 }),
  (0x040A_30E0_0000_0000, .or { fld with d := 5, a := 6, b := 7 }),
  (0x44FF_F000_FFFF_FFFF, .xor { fld with d := 63, a := 62, imm := some 0xFFFFFFFF }),
  (0x450A_3000_0000_003F, .shl { fld with d := 5, a := 6, imm := some 0x3F }),
  (0x458A_3001_0000_001F, .shr { fld with d := 5, a := 6, var := 1, imm := some 0x1F }),
  (0x060A_30E0_0000_0000, .sra { fld with d := 5, a := 6, b := 7 }),
  (0x068A_30E0_0000_0400, .min { fld with d := 5, a := 6, b := 7, u := true }),
  (0x070A_30E0_0000_0000, .max { fld with d := 5, a := 6, b := 7 }),
  (0x078A_30E0_0005_0400, .slt { fld with d := 5, a := 6, b := 7, var := 5, u := true }),
  (0x080A_30E0_0004_0000, .seq { fld with d := 5, a := 6, b := 7, var := 4 }),
  (0x088A_3000_0000_0000, .clz { fld with d := 5, a := 6 }),
  (0x090A_3000_0001_0000, .popc { fld with d := 5, a := 6, var := 1 }),
  (0x098A_3000_0007_0000, .ext { fld with d := 5, a := 6, var := 7 }),
  (0x4A0A_3000_0000_1008, .bfx { fld with d := 5, a := 6, imm := some 0x1008 }),
  (0x0A8A_30E0_0000_0000, .bfi { fld with d := 5, a := 6, b := 7 }),
  (0x0B0A_3000_0000_0000, .mov { fld with d := 5, a := 6 }),
  (0x4B8A_0000_8000_0000, .li { fld with d := 5, imm := some 0x80000000 }),
  (0x4B8A_0010_1234_5678, .lih { fld with d := 5, imm := some 0x12345678 }),
  (0x0C0A_30E0_0003_0000, .lea { fld with d := 5, a := 6, b := 7, var := 3 }),
  (0x0C8A_30E4_0000_0000, .sel { fld with d := 5, a := 6, b := 7, c := 8 })]

theorem test_decode_int : ∀ x ∈ intWords, decodeWord x.1 = .ok x.2 := by decide +kernel

/-- Scalar floating-point words (R161–R165). -/
def fpWords : List (Word × Instr) := [
  (0x1012_5160_0001_5000, .fadd { fld with d := 9, a := 10, b := 11, var := 1, rnd := 5 }),
  (0x1092_5160_0003_0000, .fsub { fld with d := 9, a := 10, b := 11, var := 3 }),
  (0x1112_5160_0000_1000, .fmul { fld with d := 9, a := 10, b := 11, rnd := 1 }),
  (0x1192_5166_0002_0000, .ffma { fld with d := 9, a := 10, b := 11, c := 12, var := 2 }),
  (0x1212_5160_0000_2000, .fdiv { fld with d := 9, a := 10, b := 11, rnd := 2 }),
  (0x1212_5000_0010_3000, .fsqrt { fld with d := 9, a := 10, rnd := 3 }),
  (0x1292_5160_0000_0000, .fmin { fld with d := 9, a := 10, b := 11 }),
  (0x1292_5160_0011_0000, .fmax { fld with d := 9, a := 10, b := 11, var := 1 }),
  (0x1312_5160_000D_0000, .fcmp { fld with d := 9, a := 10, b := 11, var := 13 }),
  (0x1392_5000_0000_4019, .fcvt { fld with d := 9, a := 10, rnd := 4, xm := 25 }),
  (0x1412_5000_0002_0000, .fclass { fld with d := 9, a := 10, var := 2 })]

theorem test_decode_fp : ∀ x ∈ fpWords, decodeWord x.1 = .ok x.2 := by decide +kernel

/-- Branches, memory, atomics, threads, groups and traps (R166–R188). -/
def sysWords : List (Word × Instr) := [
  (0x5600_0000_FFFF_FFFE, .br { fld with imm := some 0xFFFFFFFE }),
  (0x5682_1005_0000_0010, .brc { fld with d := 1, a := 2, var := 5, imm := some 0x10 }),
  (0x1700_0840_0000_0000, .jmp { fld with a := 1, b := 2 }),
  (0x5782_0000_0000_0004, .call { fld with d := 1, imm := some 0x4 }),
  (0x5802_1000_0000_0008, .callr { fld with d := 1, a := 2, imm := some 0x8 }),
  (0x5886_0000_FFFF_FFFC, .loop { fld with d := 3, imm := some 0xFFFFFFFC }),
  (0x190A_30E0_0007_0000, .ld { fld with d := 5, a := 6, b := 7, var := 7 }),
  (0x598A_3003_FFFF_FFF8, .st { fld with d := 5, a := 6, var := 3, imm := some 0xFFFFFFF8 }),
  (0x1A0A_30E0_0006_0403, .amo { fld with d := 5, a := 6, b := 7, var := 6, u := true, xm := 3 }),
  (0x1A00_30E0_0000_0004, .amoUpd { fld with a := 6, b := 7, xm := 4 }),
  (0x1A8A_30E4_0000_0003, .cas { fld with d := 5, a := 6, b := 7, c := 8, xm := 3 }),
  (0x5B0A_3000_0000_0008, .acq { fld with d := 5, a := 6, imm := some 0x8 }),
  (0x1B8A_30E0_0000_0000, .rel { fld with d := 5, a := 6, b := 7 }),
  (0x1C00_28C3_8000_0000, .bind { fld with a := 5, b := 6, c := 7 }),
  (0x1C00_00C0_0010_0000, .unbind { fld with b := 6 }),
  (0x1C80_0000_0000_0000, .fence fld),
  (0x1D00_0000_0000_0000, .ifence fld),
  (0x5E0A_3000_0000_0000, .launch { fld with d := 5, a := 6, imm := some 0 }),
  (0x1E80_0000_0000_0000, .exit fld),
  (0x1F00_0000_0000_0000, .yield fld),
  (0x5F8A_3001_0000_0000, .wait { fld with d := 5, a := 6, var := 1, imm := some 0 }),
  (0x6004_3000_0000_0000, .gjoin { fld with d := 2, a := 6, imm := some 0 }),
  (0x2006_0000_0010_0000, .gleave { fld with d := 3 }),
  (0x2080_0800_0000_0000, .gbar { fld with a := 1 }),
  (0x210A_08E0_0004_0000, .gred { fld with d := 5, a := 1, b := 7, var := 4 }),
  (0x6200_0000_0000_001F, .trap { fld with imm := some 0x1F }),
  (0x2280_0000_0000_0000, .xret fld),
  (0x630A_0000_0000_0100, .crr { fld with d := 5, imm := some 0x100 }),
  (0x6380_3000_0000_0105, .crw { fld with a := 6, imm := some 0x105 }),
  (0x6380_3001_0000_0105, .crwSet { fld with a := 6, var := 1, imm := some 0x105 }),
  (0x638A_3002_0000_0105, .crwClr { fld with d := 5, a := 6, var := 2, imm := some 0x105 }),
  (0x6400_0000_0000_FFFF, .brk { fld with imm := some 0xFFFF })]

theorem test_decode_sys : ∀ x ∈ sysWords, decodeWord x.1 = .ok x.2 := by decide +kernel

/-- Configuration and integer vector words (R200–R210). -/
def vintWords : List (Word × Instr) := [
  (0x648A_3000_0000_0042, .vsetvl { fld with d := 5, a := 6, imm := some 0x42 }),
  (0x248A_30E4_0001_0000, .vsetvlChain { fld with d := 5, a := 6, b := 7, c := 8, var := 1 }),
  (0x250A_3000_0000_0000, .vlq { fld with d := 5, a := 6 }),
  (0x658A_3001_0000_0100, .vcpub { fld with d := 5, a := 6, var := 1, imm := some 0x100 }),
  (0x2606_0840_4F00_0C00, .vadd { fld with d := 3, a := 1, b := 2, ca := true, m := 7, mn := true, sat := true, u := true }),
  (0x2686_0840_0008_0000, .vsub { fld with d := 3, a := 1, b := 2, var := 8 }),
  (0x6706_0A00_0000_0007, .vmul { fld with d := 3, a := 1, m := 2, imm := some 0x7 }),
  (0x2706_0840_0010_0400, .vmulh { fld with d := 3, a := 1, b := 2, u := true }),
  (0x2786_0840_2000_0800, .vmacc { fld with d := 3, a := 1, b := 2, cb := true, sat := true }),
  (0x2806_0840_0000_0000, .vdot2 { fld with d := 3, a := 1, b := 2 }),
  (0x2886_0840_0000_0400, .vmin { fld with d := 3, a := 1, b := 2, u := true }),
  (0x2886_0840_0010_0000, .vmax { fld with d := 3, a := 1, b := 2 }),
  (0x2906_0840_0000_0000, .vand { fld with d := 3, a := 1, b := 2 }),
  (0x2906_0840_0010_8000, .vor { fld with d := 3, a := 1, b := 2, lm := true }),
  (0x2906_0840_0028_0000, .vxor { fld with d := 3, a := 1, b := 2, var := 8 }),
  (0x2986_0840_0000_0800, .vshl { fld with d := 3, a := 1, b := 2, sat := true }),
  (0x2A06_0840_0000_0001, .vshr { fld with d := 3, a := 1, b := 2, xm := 1 }),
  (0x2A06_0840_0010_0000, .vsra { fld with d := 3, a := 1, b := 2 }),
  (0x2A86_0800_0000_0800, .vabs { fld with d := 3, a := 1, sat := true }),
  (0x2B06_0840_000D_0400, .vcmp { fld with d := 3, a := 1, b := 2, var := 13, u := true }),
  (0x2B86_0840_0200_0000, .vsel { fld with d := 3, a := 1, b := 2, m := 1 }),
  (0x2C06_0120_0008_0000, .vmv { fld with d := 3, b := 9, var := 8 }),
  (0x2C86_2000_0000_0C00, .vnarrow { fld with d := 3, a := 4, u := true, sat := true }),
  (0x2C88_0800_0010_0400, .vwiden { fld with d := 4, a := 1, u := true })]

theorem test_decode_vint : ∀ x ∈ vintWords, decodeWord x.1 = .ok x.2 := by decide +kernel

/-- Floating-point vector words, reductions, moves and masks (R211–R224). -/
def vfpWords : List (Word × Instr) := [
  (0x2E06_0840_0004_1000, .vfadd { fld with d := 3, a := 1, b := 2, var := 4, rnd := 1 }),
  (0x2E06_0840_0010_0000, .vfsub { fld with d := 3, a := 1, b := 2 }),
  (0x2E86_0840_000C_0000, .vfmul { fld with d := 3, a := 1, b := 2, var := 12 }),
  (0x2F06_0842_100F_0000, .vffma { fld with d := 3, a := 1, b := 2, c := 4, cc := true, var := 15 }),
  (0x2F86_0840_0000_0000, .vfdiv { fld with d := 3, a := 1, b := 2 }),
  (0x2F86_0800_0010_0000, .vfsqrt { fld with d := 3, a := 1 }),
  (0x3006_0840_0000_0000, .vfmin { fld with d := 3, a := 1, b := 2 }),
  (0x3006_0840_0010_0000, .vfmax { fld with d := 3, a := 1, b := 2 }),
  (0x3086_0840_000B_0000, .vfcmp { fld with d := 3, a := 1, b := 2, var := 11 }),
  (0x3106_0976_8000_5800, .vfcvt { fld with d := 3, a := 1, b := 11, c := 45, sat := true, rnd := 5 }),
  (0x3186_0800_0000_0000, .vfexp2 { fld with d := 3, a := 1 }),
  (0x3186_0800_0010_1000, .vflog2 { fld with d := 3, a := 1, rnd := 1 }),
  (0x3206_0840_0008_4000, .vred { fld with d := 3, a := 1, b := 2, var := 8, rnd := 4 }),
  (0x3286_0840_0001_0401, .vscan { fld with d := 3, a := 1, b := 2, var := 1, u := true, xm := 1 }),
  (0x7306_0800_0000_0004, .vslideup { fld with d := 3, a := 1, imm := some 0x4 }),
  (0x3306_0842_8012_0000, .vslidedn { fld with d := 3, a := 1, b := 2, c := 5, var := 2 }),
  (0x3386_0840_0000_0000, .vperm { fld with d := 3, a := 1, b := 2 }),
  (0x3406_0804_8000_0000, .vcompress { fld with d := 3, a := 1, c := 9 }),
  (0x3406_0800_0210_0000, .vexpand { fld with d := 3, a := 1, m := 1 }),
  (0x3486_0000_0200_0000, .viota { fld with d := 3, m := 1 }),
  (0x7512_0800_0000_0003, .vextr { fld with d := 9, a := 1, imm := some 0x3 }),
  (0x3506_4940_0010_0000, .vins { fld with d := 3, a := 9, b := 10 }),
  (0x3582_1060_0007_0000, .mlog { fld with d := 1, a := 2, b := 3, var := 7 }),
  (0x3612_0800_0000_0000, .mpop { fld with d := 9, a := 1 }),
  (0x3612_0800_0510_0000, .mfirst { fld with d := 9, a := 1, m := 2, mn := true }),
  (0x3686_0804_8000_0000, .mlist { fld with d := 3, a := 1, c := 9 }),
  (0x3682_1800_0010_0000, .mbits { fld with d := 1, a := 3 }),
  (0x3686_0800_0011_0000, .mbitsTov { fld with d := 3, a := 1, var := 1 })]

theorem test_decode_vfp : ∀ x ∈ vfpWords, decodeWord x.1 = .ok x.2 := by decide +kernel

/-- Sorted runs (R236–R242). -/
def sortWords : List (Word × Instr) := [
  (0x3706_0800_0009_0200, .vsort { fld with d := 3, a := 1, var := 9, p := true }),
  (0x3786_0840_0002_0000, .vmerge { fld with d := 3, a := 1, b := 2, var := 2 }),
  (0x3786_0844_8010_0000, .vmergep { fld with d := 3, a := 1, b := 2, c := 9 }),
  (0x3786_0844_8028_0000, .vtopk { fld with d := 3, a := 1, b := 2, c := 9, var := 8 }),
  (0x3806_0844_8000_0000, .vinter { fld with d := 3, a := 1, b := 2, c := 9 }),
  (0x3806_0844_8010_0000, .vdiff { fld with d := 3, a := 1, b := 2, c := 9 }),
  (0x3806_0804_8020_0000, .vunique { fld with d := 3, a := 1, c := 9 }),
  (0x3886_0840_0000_0001, .vrank { fld with d := 3, a := 1, b := 2, xm := 1 }),
  (0x3906_0842_0000_0000, .vpart { fld with d := 3, a := 1, b := 2, c := 4 }),
  (0x3992_0800_0003_0000, .vschk { fld with d := 9, a := 1, var := 3 }),
  (0x3992_0800_0010_0000, .vsget { fld with d := 9, a := 1 }),
  (0x3980_0800_0020_0000, .vsclr { fld with a := 1 })]

theorem test_decode_sort : ∀ x ∈ sortWords, decodeWord x.1 = .ok x.2 := by decide +kernel

/-- Vector memory and streams (R246–R261). -/
def vmemWords : List (Word × Instr) := [
  (0x7A06_4900_FFFF_FFF0, .vld { fld with d := 3, a := 9, m := 1, imm := some 0xFFFFFFF0 }),
  (0x3A06_4940_0010_0000, .vlds { fld with d := 3, a := 9, b := 10 }),
  (0x7A06_4820_0000_0000, .vldt { fld with d := 3, a := 9, imm := some 0 }),
  (0x7A06_4830_0000_0040, .vlda { fld with d := 3, a := 9, imm := some 0x40 }),
  (0x3A86_4940_0000_00C0, .vst { fld with d := 3, a := 9, b := 10, seg := 3 }),
  (0x3A86_4940_0010_0000, .vsts { fld with d := 3, a := 9, b := 10 }),
  (0x7A86_4820_0000_0000, .vstt { fld with d := 3, a := 9, imm := some 0 }),
  (0x3B06_4821_2000_0005, .vgathw { fld with d := 3, a := 9, b := 1, c := 2, cb := true, xm := 5 }),
  (0x3B06_4820_0010_0000, .vscat { fld with d := 3, a := 9, b := 1 }),
  (0x3B06_4825_0022_0000, .vscadd { fld with d := 3, a := 9, b := 1, c := 10, var := 2 }),
  (0x3B80_0920_0000_0000, .vxferPut { fld with a := 1, b := 9 }),
  (0x3B86_0120_0001_0000, .vxferGet { fld with d := 3, b := 9, var := 1 }),
  (0x3B80_4825_0011_0000, .vredst { fld with a := 9, b := 1, c := 10, var := 1 }),
  (0x7C00_4800_0000_0000, .vspill { fld with d := 0, a := 9, imm := some 0 }),
  (0x7C10_4810_0000_0000, .vfill { fld with d := 8, a := 9, imm := some 0 }),
  (0x3C86_F120_0002_0000, .xrnd { fld with d := 3, a := 30, b := 9, var := 2 }),
  (0x7D0E_4800_0000_0000, .sopen { fld with d := 7, a := 9, imm := some 0 }),
  (0x3D06_3804_8010_0200, .snext { fld with d := 3, a := 7, c := 9, p := true }),
  (0x3D12_3940_0020_0000, .sseek { fld with d := 9, a := 7, b := 10 }),
  (0x3D12_3800_0030_0000, .stend { fld with d := 9, a := 7 }),
  (0x3D00_3800_0040_0000, .sclose { fld with a := 7 })]

theorem test_decode_vmem : ∀ x ∈ vmemWords, decodeWord x.1 = .ok x.2 := by decide +kernel

/-- Matrix, trellis and engine words (R274–R310). -/
def engWords : List (Word × Instr) := [
  (0x7D92_0000_0000_0010, .matt { fld with d := 9, imm := some 0x10 }),
  (0x3D80_0000_0010_0000, .mdet fld),
  (0x3D86_4940_0020_0001, .mma { fld with d := 3, a := 9, b := 10, xm := 1 }),
  (0x3D84_4945_8030_0007, .mmas { fld with d := 2, a := 9, b := 10, c := 11, xm := 7 }),
  (0x3D82_4945_8043_5000, .mdrain { fld with d := 1, a := 9, b := 10, c := 11, var := 3, rnd := 5 }),
  (0x3D82_4865_8058_0000, .mldacc { fld with d := 1, a := 9, b := 3, c := 11, var := 8 }),
  (0x7E06_4800_0000_0000, .wset { fld with d := 3, a := 9, imm := some 0 }),
  (0x3E06_1120_0010_0000, .wdec { fld with d := 3, a := 2, b := 9 }),
  (0x3E12_5160_0020_0000, .zenc { fld with d := 9, a := 10, b := 11 }),
  (0x7E9E_4800_0000_0000, .cprog { fld with d := 15, a := 9, imm := some 0 }),
  (0x3E9E_0120_0010_0000, .cgo { fld with d := 15, b := 9 }),
  (0x3E92_7940_0020_0000, .cwait { fld with d := 9, a := 15, b := 10 }),
  (0x3E9E_0000_0030_0000, .ckill { fld with d := 15 }),
  (0x3F00_4945_8007_0000, .lhint { fld with a := 9, b := 10, c := 11, var := 7 }),
  (0x3F00_4800_0010_0000, .lstep { fld with a := 9 }),
  (0x3F00_4865_8021_0000, .lpref { fld with a := 9, b := 3, c := 11, var := 1 }),
  (0x3F00_4800_0030_0000, .tsub { fld with a := 9 }),
  (0x3F12_5000_0040_0000, .twait { fld with d := 9, a := 10 }),
  (0x3F00_4800_0050_0000, .coll { fld with a := 9 }),
  (0x3F06_4845_8060_0000, .vrand { fld with d := 3, a := 9, b := 2, c := 11 })]

theorem test_decode_eng : ∀ x ∈ engWords, decodeWord x.1 = .ok x.2 := by decide +kernel

/-- Word 0 of every tile opcode (R133 Table 11) at level 3 with FP = 1 and its record at 0x1020 (R132 Table 10). -/
def tileWords : List (Nat × (TileWord → Instr)) := [
  (0x1, .tmma), (0x2, .tewise), (0x3, .treduce), (0x4, .tconv), (0x5, .tcopy), (0x6, .tsort), (0x7, .tmerge), (0x8, .ttopk), (0x9, .tinter), (0xA, .tgather), (0xB, .tscadd), (0xC, .tsample), (0xD, .tenc), (0xE, .tlaunch)]

theorem test_decode_tile : ∀ x ∈ tileWords, decodeTile (BitVec.ofNat 64 (x.1 * 2 ^ 56 + 0x0070_0000_0000_1020)) 0 0 0 =
    .ok (x.2 ⟨3, true, 0x1020, 0, 0, 0⟩) := by decide +kernel

/-- Two slots (R127 Table 6): HOP 38 with D 4, A 5 and CA in slot 0, LD of HOP 14 with D 1, A 2 and IMM14 8 in slot 1. -/
theorem test_decode_paired : decodeWord 0xA621_6000_1C11_0008 = .ok (.pairedWord ⟨38, 4, 5, true, 0⟩ ⟨14, 1, 2, false, 8⟩) := by
  decide +kernel
/-- The worked encodings of spec/07 Table 3 to spec/25 Table 2. -/
def workedWords : List (Word × Instr) := [
  (0x5913_F005_0000_0018, .ld { fld with d := 9, a := 62, var := 5, imm := some 0x18 }),
  (0x1A14_A160_0000_0001, .amo { fld with d := 10, a := 20, b := 11, xm := 1 }),
  (0x5688_2802_FFFF_FFFD, .brc { fld with d := 4, a := 5, var := 2, imm := some 0xFFFFFFFD }),
  (0x6380_3800_0000_0006, .crw { fld with a := 7, imm := some 0x6 }),
  (0x648A_3000_0000_0082, .vsetvl { fld with d := 5, a := 6, imm := some 0x82 }),
  (0x2808_4120_4008_0000, .vdot2 { fld with d := 4, a := 8, b := 9, var := 8, ca := true }),
  (0x2A0C_3140_0018_0001, .vsra { fld with d := 6, a := 6, b := 10, var := 8, xm := 1 }),
  (0x3808_0845_0000_0000, .vinter { fld with d := 4, a := 1, b := 2, c := 10 }),
  (0x3798_20C5_8011_0200, .vmergep { fld with d := 12, a := 4, b := 6, c := 11, var := 1, p := true }),
  (0x398A_1800_000A_0000, .vschk { fld with d := 5, a := 3, var := 10 }),
  (0x7A02_A000_0000_0000, .vld { fld with d := 1, a := 20, imm := some 0x0 }),
  (0x3B14_C905_8000_0002, .vgathw { fld with d := 10, a := 25, b := 8, c := 11, xm := 2 }),
  (0x3D1E_01C0_0020_0000, .sseek { fld with d := 15, a := 0, b := 14 }),
  (0x3D82_A2A0_0020_0004, .mma { fld with d := 1, a := 20, b := 21, xm := 4 }),
  (0x7E00_C000_0000_0000, .wset { fld with d := 0, a := 24, imm := some 0x0 }),
  (0x3E08_0920_0010_0000, .wdec { fld with d := 4, a := 1, b := 9 }),
  (0x3E86_0120_0010_0000, .cgo { fld with d := 3, b := 9 }),
  (0x3E8A_1920_0020_0000, .cwait { fld with d := 5, a := 3, b := 9 }),
  (0x3F0A_A000_0040_0000, .twait { fld with d := 5, a := 20 }),
  (0x3306_0A05_8011_0000, .vslidedn { fld with d := 3, a := 1, b := 16, c := 11, var := 1 }),
  (0x3A8A_B800_0000_0040, .vst { fld with d := 5, a := 23, b := 0, seg := 1 }),
  (0x3D80_A900_0041_0000, .mdrain { fld with d := 0, a := 21, b := 8, c := 0, var := 1 }),
  (0x3F00_A000_0030_0000, .tsub { fld with a := 20 }),
  (0x1C00_DB84_8000_0000, .bind { fld with a := 27, b := 28, c := 9 }),
  (0x1A18_DA00_0000_000B, .amo { fld with d := 12, a := 27, b := 16, xm := 11 }),
  (0x2080_0000_0000_0000, .gbar { fld with a := 0 }),
  (0x7A28_3820_0000_0000, .vldt { fld with d := 20, a := 7, imm := some 0 }),
  (0x1326_91E0_0008_0000, .fcmp { fld with d := 19, a := 18, b := 15, var := 8 }),
  (0x212C_02A0_0004_0000, .gred { fld with d := 22, a := 0, b := 21, var := 4 }),
  (0x3584_0020_0003_0000, .mlog { fld with d := 2, a := 0, b := 1, var := 3 }),
  (0x5E12_4800_0000_0000, .launch { fld with d := 9, a := 9, imm := some 0 }),
  (0x1A9C_D807_8000_0001, .cas { fld with d := 14, a := 27, b := 0, c := 15, xm := 1 }),
  (0x37B4_B308_8029_0200, .vtopk { fld with d := 26, a := 22, b := 24, c := 17, var := 9, p := true })]

theorem test_decode_worked : ∀ x ∈ workedWords, decodeWord x.1 = .ok x.2 ∧ x.2.wf = true ∧ encode x.2 = [x.1] := by decide +kernel

/-! ### Ill-formed words and terms (R362 Table 2): for each check, what it refuses -/

def refusedWords : List (Word × EncErr × Instr) := [
  (0x020A_30E0_0002_0000, .reservedVariant, .mulh { fld with d := 5, a := 6, b := 7, var := 2 }),
  (0x6706_0810_0000_0000, .noIForm, .vmulh { fld with d := 3, a := 1, imm := some 0 }),
  (0x1C82_0000_0000_0000, .unusedRegister, .fence { fld with d := 1 }),
  (0x2640_0840_0000_0000, .outsideClass, .vadd { fld with d := 32, a := 1, b := 2 }),
  (0x008A_30E0_4000_0000, .chainBit, .add { fld with d := 5, a := 6, b := 7, ca := true }),
  (0x2606_0840_0100_0000, .maskComplement, .vadd { fld with d := 3, a := 1, b := 2, mn := true }),
  (0x2B86_0840_0000_8000, .listRefused, .vsel { fld with d := 3, a := 1, b := 2, lm := true }),
  (0x038A_30E0_0000_0800, .unusedMod, .and { fld with d := 5, a := 6, b := 7, sat := true }),
  (0x1012_5160_0000_6000, .reservedRnd, .fadd { fld with d := 9, a := 10, b := 11, rnd := 6 }),
  (0x028A_30E0_0000_0C00, .modifiersRefused, .div { fld with d := 5, a := 6, b := 7, sat := true, u := true }),
  (0x450A_3000_0000_0040, .immediateRange, .shl { fld with d := 5, a := 6, imm := some 0x40 }),
  (0x6200_0000_0000_0020, .immediateRange, .trap { fld with imm := some 0x20 }),
  (0x648A_3000_0000_0004, .formatCode, .vsetvl { fld with d := 5, a := 6, imm := some 0x4 }),
  (0x1392_5000_0000_0024, .operationCode, .fcvt { fld with d := 9, a := 10, xm := 36 }),
  (0x3E06_1120_1010_8000, .chainBit, .wdec { fld with d := 3, a := 2, b := 9, lm := true, cc := true }),
  (0x4B8A_3000_0000_0000, .unusedRegister, .li { fld with d := 5, a := 6, imm := some 0 })]

theorem test_illFormed : ∀ x ∈ refusedWords, decodeWord x.1 = .error x.2.1 ∧ x.2.2.wf = false := by decide +kernel

/-- A slot's HOP, its zero fields, its vector registers and its shift amount. -/
def refusedPairs : List (Word × EncErr × Half × Half) := [
  (0x9100_0000_0000_0000, .reservedHop0, ⟨17, 0, 0, false, 0⟩, ⟨0, 0, 0, false, 0⟩),
  (0x8000_0000_6600_0000, .reservedHop1, ⟨0, 0, 0, false, 0⟩, ⟨51, 0, 0, false, 0⟩),
  (0x8000_0000_0000_0001, .halfNonzero, ⟨0, 0, 0, false, 0⟩, ⟨0, 0, 0, false, 1⟩),
  (0x8D00_4000_0000_0000, .halfNonzero, ⟨13, 0, 1, false, 0⟩, ⟨0, 0, 0, false, 0⟩),
  (0x8000_0000_4D00_0000, .halfVector, ⟨0, 0, 0, false, 0⟩, ⟨38, 16, 0, false, 0⟩),
  (0x8700_0020_0000_0000, .immediateRange, ⟨7, 0, 0, false, 64⟩, ⟨0, 0, 0, false, 0⟩)]

theorem test_illFormed_paired : ∀ x ∈ refusedPairs,
    decodeWord x.1 = .error x.2.1 ∧ (Instr.pairedWord x.2.2.1 x.2.2.2).wf = false := by decide +kernel

/-- LVL 5, CREC not aligned, and a word that Table 11 marks 0. -/
theorem test_illFormed_tile :
    (Instr.tmma ⟨5, false, 0x40, 0, 0, 0⟩).wf = false ∧ (Instr.tmma ⟨0, false, 0x48, 0, 0, 0⟩).wf = false ∧
    (Instr.tcopy ⟨0, false, 0x40, 0, 0, 1⟩).wf = false ∧ (Instr.treduce ⟨0, false, 0x40, 0, 0, 16⟩).wf = false ∧
    (Instr.ttopk ⟨0, false, 0x40, 0, 0, 0x1_0000_0000⟩).wf = false ∧ (Instr.tlaunch ⟨0, false, 0x40, 0, 1, 0⟩).wf = false := by
  decide +kernel

theorem test_decode_tile_refused :
    decodeTile 0x00A0_0000_0000_0040 0 0 0 = .error .reservedTop ∧ decodeTile 0x01A0_0000_0000_0040 0 0 0 = .error .reservedLvl ∧
    decodeTile 0x0101_0000_0000_0040 0 0 0 = .error .tileReserved ∧ decodeTile 0x0500_0000_0000_0040 0 0 1 = .error .tileReserved := by
  decide +kernel

/-- K = 0b11, OP 0x00, FN[7:4] beyond the list; a term no word has: B in I-form, CRW named as its set form; a step without encoding. -/
theorem test_decode_reserved :
    decodeWord 0xC000_0000_0000_0000 = .error .reservedKind ∧ decodeWord 0 = .error .reservedOp ∧
    decodeWord 0x0080_0000_0010_0000 = .error .reservedFn ∧ (Instr.add { fld with imm := some 0, b := 1 }).wf = false ∧
    (Instr.crwSet fld).wf = false ∧ Instr.linkRetrain.wf = false := by decide +kernel

/-! ### Single steps: the examples of the instruction reference -/

/-- `exec` answers a next state that passes a check. -/
def does (i : Instr) (s : State) (p : State → Bool) : Bool := next (exec i s) p

/-- Write 32-bit, or `w`-bit, elements of a vector register, and read them back. -/
def putV (r : Nat) (l : List Nat) (s : State) (w : Nat := 32) : State :=
  thr (fun t => l.zipIdx.foldl (fun t x => t.vput 256 r w x.2 x.1) t) s
def getV (s : State) (r n : Nat) (w : Nat := 32) : List Nat := (List.range n).map (s.th.vget 256 r w)

/-- s6 = 0x7FFF_FFFF_FFFF_FFF0 and s7 = 0x20 (R150). -/
def ints : State := regs [(6, 0x7FFF_FFFF_FFFF_FFF0), (7, 0x20)] sup
def f567 : Fields := { fld with d := 5, a := 6, b := 7 }

theorem test_add : does (.add { fld with d := 5, a := 6, imm := some 0xFFFF_FFF8 }) ints fun t =>
    t.th.getS 5 == 0x7FFF_FFFF_FFFF_FFE8 && t.th.pc == ints.th.pc + 8 := by decide +kernel
theorem test_add_sat : does (.add { f567 with sat := true }) ints fun t =>
    t.th.getS 5 == 0x7FFF_FFFF_FFFF_FFFF && t.th.vxsat == 1 := by decide +kernel
theorem test_sub_w32 : does (.sub { fld with d := 5, a := 7, var := 1, imm := some 0x21 }) ints fun t =>
    t.th.getS 5 == 0xFFFF_FFFF_FFFF_FFFF := by decide +kernel
theorem test_min_u : does (.min { f567 with u := true }) ints fun t => t.th.getS 5 == 0x20 := by decide +kernel
theorem test_div_zero : does (.div { f567 with b := 0 }) ints fun t =>
    t.th.getS 5 == 0 && t.th.xcause == 0x110 := by decide +kernel
theorem test_bfx : does (.bfx { fld with d := 5, a := 6, imm := some 776 }) (regs [(6, 0x00AB_CD00)] sup) fun t =>
    t.th.getS 5 == 0xFFFF_FFFF_FFFF_FBCD := by decide +kernel
theorem test_bfi : does (.bfi { fld with d := 5, a := 6, imm := some 776 }) (regs [(6, 0x123)] sup) fun t =>
    t.th.getS 5 == 0x0001_2300 := by decide +kernel
theorem test_s0_discards : does (.add { f567 with d := 0 }) ints fun t => t.th.getS 0 == 0 := by decide +kernel

/-- s5 = 1.0, s6 = 3.0, s8 = 4.0 in FP64 and s9 = the quiet NaN (R161–R164). -/
def floats : State := regs [(5, 0x3F80_0000), (6, 0x4040_0000), (8, 0x4010_0000_0000_0000), (9, 0x7FC0_0000)] sup

theorem test_fadd : does (.fadd { fld with d := 7, a := 5, b := 6, var := 1 }) floats fun t => t.th.getS 7 == 0x4080_0000 := by decide +kernel
theorem test_fdiv_rtz : does (.fdiv { fld with d := 7, a := 5, b := 6, var := 1, rnd := 2 }) floats fun t =>
    t.th.getS 7 == 0x3EAA_AAAA && t.th.fflags == fNX.setWidth 64 := by decide +kernel
theorem test_fsqrt : does (.fsqrt { fld with d := 7, a := 8 }) floats fun t => t.th.getS 7 == 0x4000_0000_0000_0000 := by decide +kernel
theorem test_fmin_nan : does (.fmin { fld with d := 7, a := 9, b := 5, var := 1 }) floats fun t => t.th.getS 7 == 0x3F80_0000 := by decide +kernel

/-- SEW 32, VL 3, v1 = (10, −3, 0x7FFF_FFF0), v2 = (4, 7, 0x20), v4 = (1, 1, 1) and s10 = 1 (R203–R209). -/
def v3s : State := regs [(10, 1)] (putV 4 [1, 1, 1] (putV 2 [4, 7, 0x20] (putV 1 [10, 0xFFFF_FFFD, 0x7FFF_FFF0] (cfg 0 2 3 sup))))
def f312 : Fields := { fld with d := 3, a := 1, b := 2 }

theorem test_vadd : does (.vadd f312) v3s fun t => getV t 3 3 == [14, 4, 0x8000_0010] := by decide +kernel
theorem test_vadd_sat : does (.vadd { f312 with sat := true }) v3s fun t =>
    getV t 3 3 == [14, 4, 0x7FFF_FFFF] && t.th.vxsat == 1 := by decide +kernel
theorem test_vsub_imm : does (.vsub { fld with d := 3, a := 1, imm := some 1 }) v3s fun t =>
    getV t 3 3 == [9, 0xFFFF_FFFC, 0x7FFF_FFEF] := by decide +kernel
theorem test_vmulh : does (.vmulh f312) v3s fun t => getV t 3 3 == [0, 0xFFFF_FFFF, 15] := by decide +kernel
theorem test_vmacc : does (.vmacc { f312 with d := 4 }) v3s fun t => getV t 4 3 == [41, 0xFFFF_FFEC, 0xFFFF_FE01] := by decide +kernel
theorem test_vmax_u : does (.vmax { f312 with u := true }) v3s fun t => getV t 3 3 == [10, 0xFFFF_FFFD, 0x7FFF_FFF0] := by decide +kernel
theorem test_vsra_rnd : does (.vsra { f312 with b := 10, var := 8, xm := 1 }) v3s fun t =>
    getV t 3 3 == [5, 0xFFFF_FFFF, 0x3FFF_FFF8] := by decide +kernel
theorem test_vmv : does (.vmv { fld with d := 3, imm := some 0xFFFF_FFFF }) v3s fun t =>
    getV t 3 3 == [0xFFFF_FFFF, 0xFFFF_FFFF, 0xFFFF_FFFF] := by decide +kernel
theorem test_vwiden : does (.vwiden { fld with d := 4, a := 1 }) (putV 1 [0xFFFE, 3] (cfg 0 1 2 sup) 16) fun t =>
    getV t 4 2 == [0xFFFF_FFFE, 3] := by decide +kernel
theorem test_vnarrow_sat : does (.vnarrow { fld with d := 1, a := 4, sat := true }) (putV 4 [70000, 0xFFFF_FFFB] (cfg 0 1 2 sup)) fun t =>
    getV t 1 2 16 == [0x7FFF, 0xFFFB] && t.th.vxsat == 1 := by decide +kernel
theorem test_vnarrow : does (.vnarrow { fld with d := 1, a := 4 }) (putV 4 [70000, 0xFFFF_FFFB] (cfg 0 1 2 sup)) fun t =>
    getV t 1 2 16 == [0x1170, 0xFFFB] := by decide +kernel

/-- SEW 32, VL 2, v1 = (1.0, 3.0) and v2 = (3.0, −0.5) (R211–R217). -/
def v2f : State := putV 2 [0x4040_0000, 0xBF00_0000] (putV 1 [0x3F80_0000, 0x4040_0000] (cfg 0 2 2 sup))

theorem test_vfadd : does (.vfadd f312) v2f fun t => getV t 3 2 == [0x4080_0000, 0x4020_0000] := by decide +kernel
theorem test_vfdiv_rtz : does (.vfdiv { f312 with rnd := 2 }) v2f fun t => getV t 3 2 == [0x3EAA_AAAA, 0xC0C0_0000] := by decide +kernel
theorem test_vfmax : does (.vfmax f312) v2f fun t => getV t 3 2 == [0x4040_0000, 0x4040_0000] := by decide +kernel
theorem test_vfexp2 : does (.vfexp2 { fld with d := 3, a := 2 }) v2f fun t =>
    getV t 3 2 == [0x4100_0000, 0x3F35_04F3] && t.th.fflags == fNX.setWidth 64 := by decide +kernel

/-- VL 4, v1 = (1, 2, 3, 4) or (10, 20, 30, 40), m2 = 0b1010, m4 = 0b0110 (R216–R221). -/
def v4s (l : List Nat) : State := thr (fun t => { t with m := (t.m.set 2 10).set 4 6 }) (regs [(10, 1), (11, 99), (6, 7)] (putV 7 [1, 2, 3, 4] (putV 1 l (cfg 0 2 4 sup))))
def tens : State := v4s [10, 20, 30, 40]

theorem test_vscan : does (.vscan { fld with d := 3, a := 1 }) (v4s [1, 2, 3, 4]) fun t => getV t 3 4 == [1, 3, 6, 10] := by decide +kernel
theorem test_vscan_excl : does (.vscan { fld with d := 3, a := 1, xm := 1 }) (v4s [1, 2, 3, 4]) fun t => getV t 3 4 == [0, 1, 3, 6] := by decide +kernel
theorem test_vslideup : does (.vslideup { fld with d := 3, a := 1, imm := some 1 }) tens fun t => getV t 3 4 == [0, 10, 20, 30] := by decide +kernel
theorem test_vslideup_fv : does (.vslideup { fld with d := 3, a := 1, b := 10, c := 7, var := 2 }) tens fun t => getV t 3 4 == [4, 10, 20, 30] := by decide +kernel
theorem test_vslidedn_fs : does (.vslidedn { fld with d := 3, a := 1, b := 10, c := 11, var := 1 }) tens fun t => getV t 3 4 == [20, 30, 40, 99] := by decide +kernel
theorem test_vcompress : does (.vcompress { fld with d := 3, a := 1, c := 12, m := 2 }) tens fun t =>
    getV t 3 4 == [20, 40, 0, 0] && t.th.getS 12 == 2 := by decide +kernel
theorem test_vexpand : does (.vexpand { fld with d := 3, a := 1, m := 2 }) (putV 3 [1, 1, 1, 1] tens) fun t => getV t 3 4 == [1, 10, 1, 20] := by decide +kernel
theorem test_viota : does (.viota { fld with d := 3, m := 2 }) tens fun t => getV t 3 4 == [0, 0, 1, 1] := by decide +kernel
theorem test_vextr : does (.vextr { fld with d := 5, a := 1, imm := some 2 }) tens fun t => t.th.getS 5 == 30 := by decide +kernel
theorem test_vins : does (.vins { fld with d := 1, a := 6, imm := some 0 }) tens fun t => getV t 1 4 == [7, 20, 30, 40] := by decide +kernel
theorem test_mlog : does (.mlog { fld with d := 3, a := 2, b := 4 }) tens fun t => (t.th.m[3]'(by decide)).toNat % 16 == 2 := by decide +kernel
theorem test_mlog_andn : does (.mlog { fld with d := 3, a := 2, b := 4, var := 3 }) tens fun t => (t.th.m[3]'(by decide)).toNat % 16 == 8 := by decide +kernel

/-- v1 and v2 sorted i32 ascending with VL 4, s12 = 3 (R237–R241). -/
def sorted (a b : List Nat) : State :=
  thr (fun t => (t.setSortRaw 1 (sortWord true false false false 0 4)).setSortRaw 2 (sortWord true false false false 0 4)) (regs [(12, 3)] (putV 2 b (putV 1 a (cfg 0 2 4 sup))))
def pair4 : State := sorted [1, 3, 5, 5] [2, 5, 6, 9]
def pair5 : State := sorted [2, 5, 5, 5] [1, 5, 5, 9]

theorem test_vmerge : does (.vmerge { fld with d := 4, a := 1, b := 2 }) pair4 fun t =>
    getV t 4 4 == [1, 2, 3, 5] && getV t 5 4 == [5, 5, 6, 9] := by decide +kernel
theorem test_vmergep : does (.vmergep { fld with d := 4, a := 1, b := 2, c := 11 }) pair4 fun t =>
    getV t 4 4 == [1, 2, 3, 5] && t.th.getS 11 == 0x0000_0001_0000_0003 := by decide +kernel
theorem test_vtopk : does (.vtopk { fld with d := 4, a := 1, b := 2, c := 12 }) pair4 fun t =>
    getV t 4 4 == [1, 2, 3, 0] && sortLen (t.th.sortOf 4) == 3 := by decide +kernel
theorem test_vinter : does (.vinter { fld with d := 4, a := 1, b := 2, c := 12 }) pair5 fun t =>
    getV t 4 4 == [5, 5, 0, 0] && t.th.getS 12 == 2 := by decide +kernel
theorem test_vdiff : does (.vdiff { fld with d := 4, a := 1, b := 2, c := 12 }) pair5 fun t =>
    getV t 4 4 == [2, 5, 0, 0] && t.th.getS 12 == 2 := by decide +kernel
theorem test_vunique : does (.vunique { fld with d := 4, a := 1, c := 12 }) pair5 fun t =>
    getV t 4 4 == [2, 5, 0, 0] && t.th.getS 12 == 2 && (t.th.sortOf 4).getLsbD 2 := by decide +kernel
theorem test_vrank : does (.vrank { fld with d := 7, a := 4, b := 6 })
    (thr (fun t => t.setSortRaw 4 (sortWord true false true false 0 3)) (putV 6 [21, 5, 50] (putV 4 [8, 21, 42] (cfg 0 2 3 sup)))) fun t =>
    getV t 7 3 == [1, 0, 3] := by decide +kernel
theorem test_vsget : does (.vsget { fld with d := 13, a := 4 }) (thr (fun t => t.setSortRaw 4 (sortWord true false true false 0 3)) sup) fun t =>
    t.th.getS 13 == 0x185 := by decide +kernel

/-- SEW 32, VL 2, memory 1, 2, 3, 4 at s20 = 0x2000, s7 = 8 (R246, R247). -/
def inMem : State := poke 0x2000 16 0x0000_0004_0000_0003_0000_0002_0000_0001 (regs [(20, 0x2000), (7, 8)] (cfg 0 2 2 sup))

theorem test_vld_seg2 : does (.vld { fld with d := 4, a := 20, seg := 1 }) inMem fun t => getV t 4 2 == [1, 3] && getV t 5 2 == [2, 4] := by decide +kernel
theorem test_vlds : does (.vlds { fld with d := 6, a := 20, b := 7 }) inMem fun t => getV t 6 2 == [1, 3] := by decide +kernel

/-- VSETVL on 1,000 elements of 32 bits with G = 1: an S thread has 64. -/
theorem test_vsetvl : does (.vsetvl { fld with d := 5, a := 6, imm := some 0x82 }) (regs [(6, 1000)] sup) fun t =>
    t.th.vl == 64 && t.th.sew == 32 := by decide +kernel

/-- BRC.lt to 24 bytes before it, taken (spec/07 Table 3). -/
theorem test_brc : does (.brc { fld with d := 4, a := 5, var := 2, imm := some 0xFFFF_FFFD }) (regs [(4, 1), (5, 2)] sup) fun t =>
    t.th.pc + 24 == sup.th.pc := by decide +kernel

/-- A word of K = 0b11 raises 0x000 with itself in XVAL (R361, R362 Table 4). -/
theorem test_reserved_traps : next (step (sup.withFetchWord 64 0xC000_0000_0000_0000)) fun t =>
    t.th.xcause == 0 && t.th.xval == 0xC000_0000_0000_0000 := by decide +kernel

/-- The first instruction after reset: ADD s5, s6, #-8. -/
theorem test_withFetchWord : next (step (State.reset.withFetchWord 64 0x408A_3000_FFFF_FFF8)) fun t =>
    t.th.getS 5 == 0xFFFF_FFFF_FFFF_FFF8 && t.th.pc == 0x1_0008 := by decide +kernel

/-! ### Single steps: a resumed word, a poisoned write, a lost link -/

/-- VADD stopped before element 1 under VL 4, resumed after a handler set VL to 2 and changed the scalar operand: it keeps VL and the operand
it began with (R9, R191, R195). -/
def resumed : State :=
  let old := putV 1 [10, 20, 30, 40] (regs [(7, 5)] (cfg 0 2 4 sup))
  let b : Begun := ⟨old.th.vcfg, old.th.frm, old.th.vrows, old.th.vpitch, old.th.s⟩
  regs [(7, 9)] (cfg 0 2 2 (thr (fun t => { t with resume := some ⟨false, true, false⟩, vstart := 1, xprog := Vector.replicate 8 1, begun := t.begun.set t.pc.toNat b }) old))

theorem test_resumed_vadd : does (.vadd { fld with d := 3, a := 1, b := 7, var := 8 }) resumed fun t =>
    getV t 3 4 == [0, 25, 35, 45] && t.th.vcfg == resumed.th.vcfg && t.th.begun.isEmpty := by decide +kernel

/-- A peer's write whose flits are poisoned leaves its granule with Detail 7 (R376). -/
theorem test_poisoned_write : does (.peerAccess 0x100 true 8 0x1_0000_0000_0000_0001) { sup with linken := 1, linkUp := 1 } fun t =>
    t.poison == [(8, 7)] && t.log.ue == 1 := by decide +kernel

/-- A met collective with a member on device 0x81 loses the link (R390). -/
theorem test_lost_link : next (exec (.ramtinLinkChange 0 false)
    { sup with linken := 1, linkUp := 1, colls := [⟨9, [0x80, 0x81], [], [], true, false⟩] }) fun t =>
    t.colls.map Coll.lost == [true] := by decide +kernel
/-! ### Witnesses: scalar words and memory -/

theorem witness_IntegerArithmetic :
    Reads sup (regsAB abc) ∧ Reads sup (regsAB (imm 0xFFFF_FFFF)) ∧ Reads sup [abc.a, abc.b] ∧
      intOf 64 false ((regs [(2, 1)] sup).th.getS 2) ≠ 0 ∧
      (let s := regs [(2, 0x1_0000_0000)] sup
       Reads s [abc.a, abc.b] ∧ (s.th.getS abc.b).setWidth ({ abc with var := 1 } : Fields).w = 0) := by
  unfold Reads; decide +kernel

theorem witness_LogicShiftsMoves :
    Reads sup (regsAB abc) ∧ Reads sup (regsAB (imm 63)) ∧ Reads sup (regsA (imm 0)) ∧ Reads sup (abc.d :: regsA abc) ∧
      Reads sup (abc.d :: regsAB abc) ∧ Reads sup [abc.a, abc.b, abc.c] := by
  unfold Reads; decide +kernel

theorem witness_RegisterWordsFrame :
    Reads sup [abc.a, abc.b, abc.c, abc.d] ∧ NoWordStep sup ∧ (∃ t, exec (.bfi abc) sup = .next t) ∧ (∃ t, exec (.mul abc) sup = .next t) ∧
      (let f : Fields := { abc with d := 0 }
       Reads sup (regsAB f) ∧ f.d = 0 ∧ f.sat = false) :=
  ⟨by unfold Reads; decide +kernel, by unfold NoWordStep; decide +kernel, next_of_goes (by decide +kernel),
    next_of_goes (by decide +kernel), by unfold Reads; decide +kernel⟩

theorem witness_RoundingModes : 0 < 1 := by decide

/-- 0 ÷ 0 with ENV (the first cause) and 1 ÷ 3 with ENX (the last); 1 ÷ 2 and 1 + 2 raise nothing. -/
theorem witness_ScalarFloat :
    (let s := regs [(1, 0x3FF0_0000_0000_0000), (2, 0x4000_0000_0000_0000)] sup
     Reads s [abc.a, abc.b, abc.c] ∧ s.th.enables &&& (fp64.div .rne 0x3FF0_0000_0000_0000 0x4000_0000_0000_0000).2 = 0 ∧
       s.th.enables &&& (fp64.add .rne 0x3FF0_0000_0000_0000 0x4000_0000_0000_0000).2 = 0) ∧
    (let s := thr (fun t => { t with frm := 0x1000 }) sup
     Reads s [abc.a, abc.b] ∧ (s.th.enables &&& (fp64.div (s.th.rm 0) 0 0).2).getLsbD (4 - 0) = true) ∧
    (let s := thr (fun t => { t with frm := 0x100 }) (regs [(1, 0x3FF0_0000_0000_0000), (2, 0x4008_0000_0000_0000)] sup)
     let e := s.th.enables &&& (fp64.div (s.th.rm 0) 0x3FF0_0000_0000_0000 0x4008_0000_0000_0000).2
     Reads s [abc.a, abc.b] ∧ e.getLsbD (4 - 4) = true ∧ ∀ k < 4, e.getLsbD (4 - k) = false) := by
  unfold Reads; decide +kernel

theorem witness_Branches :
    (let f := imm 0xFFFF_FFFE
     Reads sup (regsB f) ∧ Reads sup [f.d, f.a] ∧ (sup.th.pc + ((0xFFFF_FFFE : BitVec 32).signExtend 64 : Word) * 8).toNat % 8 = 0) ∧
    (let s := regs [(1, 0x100), (2, 0x20)] sup
     Reads s (regsAB abc) ∧ (s.addr abc).toNat % 8 = 0 ∧ Reads s (regsB abc) ∧ (s.th.pc + s.th.getS abc.b).toNat % 8 = 0) ∧
    (let s := regs [(2, 7)] sup
     Reads s (abc.d :: abc.a :: regsB abc) ∧ (s.th.pc + s.th.getS abc.b).toNat % 8 ≠ 0 ∧ (s.addr abc).toNat % 8 ≠ 0) := by
  unfold Reads; decide +kernel

/-- A thread whose s1 is the last aligned double word of HBM. -/
def top8 : State := regs [(1, 0x5F_FFFF_FFF8)] sup

theorem witness_LoadsAndStores :
    (Reads top8 (regsAB abc) ∧ Reads top8 (abc.d :: regsAB abc)) ∧
    Reaches top8 .load 0 8 (top8.addr abc) 8 0x5F_FFFF_FFF8 (some 0) top8 ∧
    Lands top8 .store 1 8 (top8.addr abc) 8 0x5F_FFFF_FFF8 (some 0) top8 ∧
    (top8.th.level ≠ .user ∧ (top8.part top8.th.part).ptroot.getLsbD 0 = false ∧ (0x5F_FFFF_FFF8 : Word).toNat < 0x60_0000_0000 ∧
      (0x5F_FFFF_FFF8 : Word).toNat % 8 = 0 ∧ top8.th.vldas = [] ∧ top8.zjobs = []) :=
  ⟨by unfold Reads; decide +kernel, reaches_of (by decide +kernel), (reaches_of (by decide +kernel)).1, by decide +kernel⟩

theorem witness_Atomics :
    (let f : Fields := { abc with xm := 3 }
     Reads top8 [f.a, f.b] ∧ CanRelease top8 ∧ Reads top8 [f.c]) ∧
    ReachesHome top8 .rmw 2 8 (top8.th.getS 1) 8 0x5F_FFFF_FFF8 (some 0) top8 ∧
    Lands top8 .store 2 4 (top8.th.getS 1) 4 0x5F_FFFF_FFF8 (some 0) top8 :=
  ⟨by unfold Reads CanRelease; decide +kernel, home_of (by decide +kernel) (by decide +kernel), (reaches_of (by decide +kernel)).1⟩

/-- A partition with one binding of one line, and registers that bind the line before it. -/
def bound : State :=
  regs [(1, 0x1000), (2, 0x2000), (4, 0x80)] (sup.setPart 0 { sup.part 0 with bindings := [(0x1000, 0x2080, 0x80)] })

theorem witness_GuardsAndFences :
    (Reads top8 (abc.d :: regsAB abc) ∧ CanRelease top8 ∧ Reads top8 []) ∧
    ReachesHome top8 .load 2 8 (top8.addr abc) 8 0x5F_FFFF_FFF8 (some 0) top8 ∧
    Lands top8 .store 2 8 (top8.addr abc) 8 0x5F_FFFF_FFF8 (some 0) top8 ∧
    ReachesHome top8 .load 2 8 (top8.th.getS abc.a) 8 0x5F_FFFF_FFF8 (some 0) top8 ∧
    (let p := bound.part bound.th.part
     let b := (bound.th.getS abc.b).toNat
     let c := (bound.th.getS abc.c).toNat
     Reads bound [abc.a, abc.b, abc.c] ∧ b % 128 = 0 ∧ c % 128 = 0 ∧ 0 < c ∧ c ≤ 2 ^ 47 ∧ p.bindings.length < 4096 ∧
       ∀ r ∈ p.bindings, b + c ≤ r.2.1 ∨ r.2.1 + r.2.2 ≤ b) ∧
    (let s := regs [(2, 0x2080)] bound
     Reads s [abc.b] ∧ ∃ r ∈ (s.part s.th.part).bindings, r.2.1 = (s.th.getS abc.b).toNat) :=
  ⟨by unfold Reads CanRelease; decide +kernel, home_of (by decide +kernel) (by decide +kernel), (reaches_of (by decide +kernel)).1,
    home_of (by decide +kernel) (by decide +kernel), by unfold Reads; decide +kernel, by unfold Reads; decide +kernel⟩

/-- The last bytes of HBM, with an acquire of every line. -/
theorem witness_LoadStoreFrame :
    (top8.MemOk ∧ NoUpdates top8 ∧ NoWordStep top8 ∧ top8.frames = [] ∧ top8.plat.linkLost = false ∧ top8.coherent = true ∧
      top8.unseen = [] ∧ isFabric 0x5F_FFFF_FFF8 = false) ∧
    Reaches top8 .load 0 8 (top8.addr abc) 8 0x5F_FFFF_FFF8 (some 0) top8 ∧
    (∃ t, exec (.st abc) top8 = .next t) ∧ (∃ t, exec (.rel abc) top8 = .next t) ∧ (∃ t, exec (.ld abc) top8 = .next t) ∧
      ∃ t, exec (.acq abc) top8 = .next t := by
  refine ⟨by unfold State.MemOk NoUpdates NoWordStep; decide +kernel, reaches_of (by decide +kernel), ?_, ?_, ?_, ?_⟩ <;>
    exact next_of_goes (by decide +kernel)
/-! ### Witnesses: vector words -/

/-- VL 8 of 32-bit elements; with GROUP 3, groups of eight registers; a sorted list register (v4, one index). -/
def vec : State := regs [(1, 0x2000), (2, 8)] (cfg 0 2 8 sup)
def vec8 : State := cfg 3 2 512 sup
def vecL : State := thr (fun t => t.setSortRaw 4 (sortWord true false true false 1 1)) vec
def abc8 : Fields := { fld with d := 24, a := 16, b := 8, c := 0 }
def lm (f : Fields) : Fields := { f with lm := true }

theorem witness_VectorInteger :
    (VecReady vec abc ∧ GroupOk abc.d vec.gregs ∧ GroupOk abc.a vec.gregs ∧ Src2Ok vec abc ∧ vec.th.sew = 32) ∧
    (VecReady vec8 abc8 ∧ GroupOk abc8.d vec8.gregs ∧ GroupOk abc8.a vec8.gregs ∧ Src2Ok vec8 abc8) ∧
    (VecReady vecL (lm abc) ∧ Src2Ok vec { abc with var := 8 }) ∧
    (Src2Ok vec (imm 31) ∧ ∀ x, (imm 31).imm = some x → x.toNat < vec.th.sew) :=
  ⟨⟨by unfold VecReady; decide +kernel, by unfold GroupOk; decide +kernel, by unfold GroupOk; decide +kernel,
      by show GroupOk _ _; unfold GroupOk; decide +kernel, by decide +kernel⟩,
    ⟨by unfold VecReady; decide +kernel, by unfold GroupOk; decide +kernel, by unfold GroupOk; decide +kernel,
      by show GroupOk _ _; unfold GroupOk; decide +kernel⟩,
    ⟨by unfold VecReady; decide +kernel, by show _ = true; decide +kernel⟩,
    trivial, by rintro x ⟨⟩; decide +kernel⟩

/-- Lists apart from the destination, and the widest source of VNARROW. -/
theorem witness_VectorCompareSelectResize :
    (VecReady vec abc ∧ GroupOk abc.a vec.gregs ∧ Src2Ok vec abc ∧ 0 < abc.d.toNat ∧ abc.d.toNat < 8 ∧ GroupOk abc.d vec.gregs) ∧
    (let f : Fields := { abc with d := 30, a := 1 }
     vec.th.sew < 64 ∧ vec.gregs < 8 ∧ GroupOk f.d (2 * vec.gregs) ∧ Apart f.d.toNat (2 * vec.gregs) f.a.toNat vec.gregs ∧
       VecReady vecL (lm f) ∧ ListApart (lm f) (2 * vec.gregs)) ∧
    (let f : Fields := { abc with d := 3, a := 30 }
     GroupOk f.d vec.gregs ∧ GroupOk f.a vec.gregs ∧ GroupOk f.a (2 * vec.gregs) ∧ Apart f.d.toNat vec.gregs f.a.toNat (2 * vec.gregs) ∧
       ListApart (lm f) vec.gregs) :=
  ⟨⟨by unfold VecReady; decide +kernel, by unfold GroupOk; decide +kernel, by show GroupOk _ _; unfold GroupOk; decide +kernel,
      by unfold GroupOk; decide +kernel⟩, by unfold VecReady GroupOk ListApart Apart; decide +kernel,
    by unfold GroupOk ListApart Apart; decide +kernel⟩

/-- The exact words of v30 and v31 round to v3 with GROUP 0, at SEW 64. -/
theorem witness_VectorFloat :
    (VecReady vec abc ∧ FloatReady vec abc ∧ GroupOk abc.a vec.gregs ∧ Src2Ok vec abc ∧ GroupOk abc.d vec.gregs ∧
      GroupOk abc.c vec.gregs ∧ featHas vec 2 = true ∧ 0 < abc.d.toNat ∧ abc.d.toNat < 8 ∧
      NoFlagTrap vec (vec.todo abc 32) (fun _ => fNX)) ∧
    (let f : Fields := { abc with b := 12, c := 11 }
     ∃ src dst, Efmt.ofCode f.b.toNat = some src ∧ Efmt.ofCode f.c.toNat = some dst ∧ featHas vec 0 = true ∧
       ((cfg 0 3 4 sup).th.sew = max src.width dst.width) ∧ GroupOk f.d (cvtRegs 1 dst.width 64) ∧ GroupOk f.a (cvtRegs 1 src.width 64) ∧
       (src.width ≠ dst.width → Apart f.d.toNat (cvtRegs 1 dst.width 64) f.a.toNat (cvtRegs 1 src.width 64) ∧
         ListApart f (cvtRegs 1 dst.width 64))) ∧
    (let s := cfg 0 3 2 sup
     let f : Fields := { abc with a := 30, var := 2 }
     s.th.sew = (xrndFmt f.var.toNat).width ∧ featHas s 0 = true ∧ s.gregs * 128 / (xrndFmt f.var.toNat).width ≤ 8 ∧ GroupOk f.d s.gregs ∧
       GroupOk f.a (s.gregs * 128 / (xrndFmt f.var.toNat).width) ∧
       Apart f.d.toNat s.gregs f.a.toNat (s.gregs * 128 / (xrndFmt f.var.toNat).width) ∧ Reads s [f.b]) ∧
    (featHas vec 6 = true ∧ vec.th.sew = 32 ∧ Reads vec [abc.a, abc.c, abc.b] ∧ GroupOk abc.b vec.gregs) :=
  ⟨⟨by unfold VecReady; decide +kernel, by unfold FloatReady; decide +kernel, by unfold GroupOk; decide +kernel,
      by show GroupOk _ _; unfold GroupOk; decide +kernel, by unfold GroupOk; decide +kernel, by unfold GroupOk; decide +kernel,
      by decide +kernel, by decide, by decide, by unfold NoFlagTrap; decide +kernel⟩,
    ⟨_, _, rfl, rfl, by decide +kernel, by decide +kernel, by unfold GroupOk; decide +kernel, by unfold GroupOk; decide +kernel,
      by unfold ListApart Apart; decide +kernel⟩,
    by unfold GroupOk Apart Reads; decide +kernel, by unfold Reads GroupOk; decide +kernel⟩

theorem witness_ReductionsAndScans :
    (VecReady vec abc ∧ GroupOk abc.a vec.gregs ∧ Reads vec [abc.b] ∧ abc.var.getLsbD 3 = false ∧ GroupOk abc.d vec.gregs ∧
      vec.th.resumesV = false ∧ NoFlagTrap vec (vec.todo abc 32) (fun _ => 0)) ∧
    (let f : Fields := { abc with var := 8 }
     f.var.getLsbD 3 = true ∧ FloatReady vec f ∧ vec.th.enables &&& fNX = 0) :=
  ⟨by unfold VecReady GroupOk Reads NoFlagTrap; decide +kernel, by unfold FloatReady; decide +kernel⟩

/-- The scalar and the vector that fill a slide, and the immediates. -/
theorem witness_VectorMoves :
    (VecReady vec abc ∧ GroupOk abc.d vec.gregs ∧ GroupOk abc.a vec.gregs ∧ Apart abc.d.toNat vec.gregs abc.a.toNat vec.gregs ∧
      Reads vec (regsB abc) ∧ Reads vec [abc.c] ∧ GroupOk abc.c vec.gregs ∧ Apart abc.d.toNat vec.gregs abc.c.toNat vec.gregs ∧
      ListApart (lm abc) vec.gregs ∧ Apart abc.d.toNat vec.gregs abc.b.toNat vec.gregs ∧ Reads vec [abc.a] ∧ Reads vec (regsB (imm 0))) ∧
    Src2Ok vec abc ∧ Src2Ok vec { abc with var := 8 } :=
  ⟨by unfold VecReady GroupOk ListApart Apart Reads; decide +kernel, by show GroupOk _ _; unfold GroupOk; decide +kernel,
    by show _ = true; decide +kernel⟩

theorem witness_MaskWords :
    VecReady vec abc ∧ 0 < abc.d.toNat ∧ abc.d.toNat < 8 ∧ GroupOk abc.d 1 ∧ GroupOk abc.a vec.gregs ∧ GroupOk abc.d vec.gregs := by
  unfold VecReady GroupOk; decide +kernel

theorem witness_StableSort : inOrder 1 false [1, 1, 2] = true ∧ inOrder 1 false [0, 1] = true := by decide +kernel

/-- v1 and v2 hold sorted runs of four u32 zeros with payloads; with P the destinations are at their highest. -/
def runs : State :=
  thr (fun t => (t.setSortRaw 1 (sortWord true false false true 1 4)).setSortRaw 2 (sortWord true false true true 1 4)) (cfg 0 2 4 sup)

theorem witness_SortedRuns :
    (let f : Fields := { abc with d := 28, a := 1, b := 2, c := 4, var := 1, p := true }
     VecReady runs f ∧ runs.th.sew = keyWidth (f.var.toNat % 8) ∧ runs.gregs = 1 ∧ f.d.toNat < 29 ∧ f.a.toNat < 31 ∧ f.b.toNat < 31 ∧
       featHas runs 1 = true ∧ RunOk runs f f.a runs.vl f.p ∧ RunOk runs f f.b runs.vl f.p ∧ RunOk runs f f.b runs.vl false ∧
       RunOk runs f f.b 0 false ∧ sortLen (runs.th.sortOf f.b.toNat) ≤ 63 ∧ f.c.toNat < 32 ∧ f.c.toNat ≠ f.d.toNat ∧
       f.c.toNat ≠ f.d.toNat + 1 ∧ Reads runs [f.c]) ∧
    (let f : Fields := { abc with d := 30, var := 1 }
     VecReady runs f ∧ f.d.toNat < 31 ∧ RunOk runs f f.a 0 false) := by
  unfold VecReady RunOk Reads; dsimp only; and_intros <;> decide +kernel

/-- Loads of the last elements of HBM: a unit stride, a stride, a tile of one row, a window, and a spilled group of one element. -/
def loadAt : State := regs [(1, 0x5F_FFFF_FFE0), (2, 0)] vec
def filled : State := poke 0x3000 8 (0x8000 + 1) (regs [(1, 0x3000)] sup)
def aligned (ea : Word) (n : Nat) : Bool := ea.toNat % n == 0 && decide (ea.toNat + n ≤ 0x60_0000_0000)

theorem witness_VectorLoads :
    (VecReady loadAt abc ∧ Quiet loadAt ∧ Reads loadAt (regsAB abc) ∧ Reads loadAt [abc.a, abc.b] ∧ loadAt.gregs = 1 ∧
      (∀ j < loadAt.vl, ∀ k < 1, InHbm (loadAt.addr abc + BitVec.ofNat 64 ((j * 1 + k) * 4)) 4) ∧
      (∀ j < loadAt.vl, InHbm (loadAt.th.getS 1 + BitVec.ofNat 64 j * loadAt.th.getS 2) 4)) ∧
    (let s := thr (fun t => { t with vrows := 1 }) loadAt
     GroupOk abc.d s.gregs ∧ s.th.rows * s.vl ≤ s.vlmax ∧
       ∀ j < s.vl, InHbm (s.addr abc + BitVec.ofNat 64 (j / s.vl) * s.th.vpitch + BitVec.ofNat 64 (j % s.vl * 4)) 4) ∧
    (let s := regs [(1, 0x5F_FFFF_FF00)] vec
     let f : Fields := { abc with xm := 7 }
     Reads s [f.a] ∧ GroupOk f.b s.gregs ∧ GroupOk f.c s.gregs ∧ Apart f.d.toNat s.gregs f.b.toNat s.gregs ∧
       Apart f.d.toNat s.gregs f.c.toNat s.gregs ∧ Apart f.b.toNat s.gregs f.c.toNat s.gregs ∧ f.lm = false ∧ 0 < f.xm.toNat % 8 ∧
       ∀ j < s.vlmax, InHbm (s.th.getS 1 + BitVec.ofNat 64 (j * 4)) 4) ∧
    (let h := filled.bytes (filled.addr abc) 64
     Reads filled (regsAB abc) ∧ InHbm (filled.addr abc) 64 ∧ h < 2 ^ 22 ∧ bits h 16 14 < 4 ∧ bits h 21 19 < 6 ∧
       bits h 13 0 ≤ vlmaxOf (threadLanes filled filled.th) (bits h 18 17) (bits h 16 14) ∧ GroupOk abc.d (2 ^ bits h 18 17) ∧
       (filled.addr abc).toNat + 64 + (bits h 13 0 * 2 ^ bits h 16 14 + 63) / 64 * 64 ≤ 0x60_0000_0000) :=
  ⟨by unfold VecReady Quiet Still NoUpdates Reads InHbm; decide +kernel, by unfold GroupOk InHbm; decide +kernel,
    by unfold Reads GroupOk Apart InHbm; decide +kernel, by unfold Reads InHbm GroupOk; decide +kernel⟩

theorem witness_VectorStores :
    (VecReady loadAt abc ∧ Quiet loadAt ∧ loadAt.MemOk ∧ Reads loadAt (regsAB abc) ∧ Reads loadAt [abc.a, abc.b] ∧
      (∀ j < loadAt.vl, InHbm (loadAt.addr abc + BitVec.ofNat 64 (j * 4)) 4) ∧ GroupOk abc.d loadAt.gregs ∧ GroupOk abc.b loadAt.gregs ∧
      (∀ i < loadAt.vl, InHbm (loadAt.th.getS 1 + BitVec.ofNat 64 (loadAt.elt abc.b 32 i * 4)) 4)) ∧
    (let s := regs [(1, 0x5F_FFFF_FF80), (2, 0)] vec
     Reads s (regsAB abc) ∧ (s.addr abc).toNat % 64 = 0 ∧ (s.th.getS 1).toNat + 64 + (s.vl * 4 + 63) / 64 * 64 ≤ 0x60_0000_0000) ∧
    (let f : Fields := { abc with var := 2 }
     let s := regs [(1, 0x5F_FFFF_FF80), (4, 127)] vec
     Reads s [f.a, f.c] ∧ FloatReady s f ∧
       ∀ i < 8, InHbm (s.th.getS 1 + BitVec.ofNat 64 (i * 16)) 16 ∧ s.elt f.d 32 i = 0 ∧ s.elt f.b 32 i = 0) ∧
    exactAddend 127 (fp32.decode 0) = .ok (0, false) := by
  refine ⟨?_, ?_, ?_, ?_⟩
  · unfold VecReady Quiet Still NoUpdates State.MemOk Reads InHbm GroupOk; decide +kernel
  · unfold Reads; decide +kernel
  · unfold Reads FloatReady InHbm; decide +kernel
  · rfl

/-! ### Witnesses: configuration, contexts, paired words -/

theorem witness_Configuration :
    (let f := imm 0xBB
     Reads sup (f.a :: regsB f) ∧ bits 0xBB 2 0 < 4 ∧ bits 0xBB 7 5 < 6) ∧
    (let s := regs [(2, 0x2E_C000)] sup
     Reads s (abc.a :: regsB abc) ∧ bits (s.th.getS 2).toNat 16 14 < 4 ∧ bits (s.th.getS 2).toNat 21 19 < 6) ∧
    (let s := regs [(1, 0xC000)] sup
     Reads s [abc.a] ∧ bits (s.th.getS 1).toNat 16 14 < 4 ∧ bits sup.th.vcfg.toNat 16 14 < 4) ∧
    (let s := regs [(1, 5), (2, 0x5F_FFFF_FFF8)] sup
     Reads s [abc.a, abc.b, abc.c] ∧ Quiet s ∧ InHbm (s.th.getS 2) 8) ∧
    (Reads top8 (abc.d :: regsAB abc) ∧ Quiet top8 ∧ InHbm (top8.addr abc) 8) :=
  ⟨by unfold Reads; decide +kernel, by unfold Reads; decide +kernel, by unfold Reads; decide +kernel,
    by unfold Reads Quiet Still NoUpdates InHbm; decide +kernel, by unfold Reads Quiet Still NoUpdates InHbm; decide +kernel⟩

theorem entry_of_key {α : Type} {n : Nat} {l : List (Nat × α)} (h : n ∈ l.map Prod.fst) : ∃ x, (n, x) ∈ l := by
  obtain ⟨⟨k, x⟩, hm, rfl⟩ := List.mem_map.1 h
  exact ⟨x, hm⟩

/-- The numbers at the edges of the map: 0x000, 0x00E, 0x020, 0x0A3, and 0x0A4, which the monitor alone may name. -/
theorem witness_ControlRegisters :
    NoWriteWaits sup ∧
    (∀ n ∈ [0, 0xE, 0xA3], Reads sup ((imm n).a :: regsB (imm n)) ∧ MayName sup (sup.crNum (imm n))) ∧
    (∃ x, (0x000, x) ∈ crValues sup) ∧ (∃ t, (0x000, t) ∈ crAfter sup 5) ∧ (∃ t, (0x00E, t) ∈ crAfter sup 5) ∧
    (∃ x, (0x09F, x) ∈ crValues sup) ∧ (∃ t, (0x09F, t) ∈ crActs sup 5) ∧ sup.th.lc = some 0 ∧
    (∃ x, (0x030, x) ∈ crValues (thr (fun t => { t with level := .user }) sup)) ∧
    ¬ MayName (thr (fun t => { t with level := .user }) sup) 0x030 ∧ (0x020 ≤ sup.crNum (imm 0x20) ∧ sup.crNum (imm 0x20) < 0x030) ∧
    (∃ x, (0x0A4, x) ∈ crValues sup) ∧ ¬ MayName sup 0x0A4 ∧ 0x0A5 ≤ sup.crNum (imm 0xA5) :=
  ⟨by unfold NoWriteWaits; decide +kernel, by unfold Reads MayName; decide +kernel, entry_of_key (by decide +kernel),
    entry_of_key (by decide +kernel), entry_of_key (by decide +kernel), entry_of_key (by decide +kernel), entry_of_key (by decide +kernel),
    by decide +kernel, entry_of_key (by decide +kernel), by unfold MayName; decide +kernel, by decide +kernel,
    entry_of_key (by decide +kernel), by unfold MayName; decide +kernel, by decide +kernel⟩

/-- A second thread, a user's, in slot 1 of core 0: key 1, TID 1; slots 1 and 7 are stopped, slot 0 runs. -/
def other : Thread := { bootThread with entry := 1, level := .user, tid := 1, pos := some ⟨0, 0, 1⟩, home := some ⟨0, 0, 1⟩, lc := some 1 }
def two : State := { sup with parked := [(1, other)] }.setCore 0 { Core.reset with stop := 0x82, stopped := 0x82 }

theorem witness_RegisterWriteEvents :
    ((sup.thread 5).live && (sup.thread 5).pos.isSome) = false ∧
    ((two.thread 1).live = true ∧ (two.thread 1).pos.isSome = true ∧ NoWriteWaits (two.select 1) ∧ MayName (two.select 1) 0x000 ∧
      ∃ t, (0x000, t) ∈ crAfter (two.select 1) 5) ∧
    (NoWriteWaits (two.select 0) ∧ (two.select 0).th.level ≠ .user ∧ MayName (two.select 0) 0x09F ∧ bits 8 4 0 = 8 ∧ bits 16 4 0 = 16) :=
  ⟨by decide +kernel, ⟨by decide +kernel, by decide +kernel, by unfold NoWriteWaits; decide +kernel, by unfold MayName; decide +kernel,
      entry_of_key (by decide +kernel)⟩,
    by unfold NoWriteWaits; decide +kernel, by decide +kernel, by unfold MayName; decide +kernel, by decide, by decide⟩

/-- Slots 0 (the thread's) and 7 (empty) are asked to stop. -/
def stopping : State := sup.setCore 0 { Core.reset with stop := 0x81, stopped := 0 }

theorem witness_StopsAndWakes :
    (∀ j ∈ [0, 7], (stopping.core 0).stop.getLsbD j = true ∧ (stopping.core 0).stopped.getLsbD j = false ∧
      ∀ t, stopping.inSlot 0 j = some t → saveWaits stopping t = none) ∧
    (sup.thread 0).wait = none ∧ (sup.thread 0).loads = [] ∧
    ((thr (fun t => { t with wait := some (.launchQueue 7) }) sup).thread 0).wait = some (.launchQueue 7) ∧
    (let l : FifoLoad := ⟨none, 5, 64, false, 0, 0, 15⟩
     let b : Bank := { Bank.reset with mode := 2, ring := [7], head := 16383 }
     let s := (thr (fun t => { t with loads := [l] }) stopping).setCluster 0 { Cluster.reset with banks := Cluster.reset.banks.set 15 b }
     (s.thread 0).loads = l :: [] ∧ l.bank < 16 ∧ s.running (s.thread 0) = true ∧
       (s.cluster l.cluster).banks.getD l.bank Bank.reset = b ∧ b.bad = []) ∧
    (let d : VDest := ⟨3, 1, 64, 0, 1⟩
     d.count = 1 ∧ d.sew = 64 ∧ stopping.th.vectorHere = true ∧ d.reg + d.first * 8 / (16 * threadLanes stopping stopping.th) < 32) := by
  refine ⟨fun j hj => ⟨?_, ?_, fun t ht => ?_⟩, by decide +kernel, by decide +kernel, by decide +kernel, by decide +kernel, by decide +kernel⟩
  · revert j; decide +kernel
  · revert j; decide +kernel
  · have h : ∀ j ∈ [0, 7], (stopping.inSlot 0 j).all fun t => saveWaits stopping t == none := by decide +kernel
    simpa [ht] using h j hj

/-- The frame of `other` with no granted row, over 16 pages from 0x20000. -/
def framed : State :=
  { two with
    parked := [(1, { other with pos := none, home := none, lc := none, saved := true })]
    frames := (List.range 16).map fun i => (0x2_0000 + 4096 * i,
      ⟨if i = 0 then .thread true true other [] [] else .rest, 4096, 4096 * i, []⟩) }

theorem witness_ContextSaveLoad :
    ((two.thread 0).live = true ∧ (two.thread 0).pos.isSome = true ∧ Quiet (two.select 0) ∧
      ((two.select 0).core 0).stopped.getLsbD 0 = false ∧ ((two.select 0).core 0).stopped.getLsbD 1 = true ∧
      (two.select 0).inSlot 0 1 = some 1 ∧ ((two.select 0).vectorOwners 0).find? (fun k => ((two.select 0).thread k).home.map Pos.slot == some 1) = some 1 ∧
      saveWaits (two.select 0) 1 = none ∧ (0x5F_FFFF_0000 : Word).toNat + 4096 * (16 + ((two.select 0).thread 1).grows) ≤ 0x60_0000_0000) ∧
    (let u := framed.select 0
     (framed.thread 0).live = true ∧ (framed.thread 0).pos.isSome = true ∧ Still u ∧
       FrameHolds u 0x2_0000 (.thread true true other [] []) (16 + other.grows) ∧ other.live = true ∧ other.part = u.th.part ∧
       (let own := u.thread (threadKey other.part other.entry)
        own.live = true ∧ own.saved = true ∧ own.tid = other.tid ∧ (u.core 0).stopped.getLsbD 7 = true ∧
          other.req &&& ~~~((u.core 0).feat.setWidth 16) = 0 ∧ (u.core 0).full = true ∧ other.isL = false ∧ other.lc.getD 3 < 4 ∧ other.grows ≤ longestRun (u.freeBlocks 0) * 8) ∧
       (∀ l ∈ lanesFor other.isL 3, ∀ o, u.laneOwner 0 l = some o → some 1 = some o)) ∧
    (let u := two.select 0
     ∃ o, u.inSlot 0 1 = some o ∧ (u.thread o).isL = other.isL) := by
  refine ⟨by unfold Quiet Still NoUpdates; decide +kernel, ⟨by decide +kernel, by decide +kernel, by unfold Still NoUpdates; decide +kernel,
    ⟨_, rfl, rfl, rfl, fun i h1 h2 => ?_⟩, by decide +kernel, by decide +kernel, by decide +kernel, fun l hl o ho => ?_⟩, 1, by decide +kernel, by decide +kernel⟩
  · have h : ∀ i < 16, 1 ≤ i → ((framed.select 0).frames.find (0x2_0000 + 4096 * i)).any fun g => g.dirty == [] && g.stamp == 4096 * i := by
      decide +kernel
    obtain ⟨g, hg, hp⟩ := (Option.any_eq_true _ _).1 (h i h2 h1)
    exact ⟨g, hg, by simpa using hp⟩
  · have h : ∀ l ∈ lanesFor other.isL 3, (framed.select 0).laneOwner 0 l = none := by decide +kernel
    rw [h l hl] at ho
    cases ho

/-- A halves pair: v8 ← an address in slot 0 of s2, s3 of slot 1. -/
theorem witness_PairedWords :
    (let h0 : Half := ⟨13, 1, 0, false, 5⟩
     let h1 : Half := ⟨14, 1, 2, false, 0⟩
     let s := regs [(5, 0x5F_FFFF_FFF8)] sup
     Quiet s ∧ s.th.resumeSlot1 = false ∧ (∃ t, HalfRuns s false h0 t) ∧ (∃ u, HalfRuns s true h1 u) ∧ halfRange s h0 = false) ∧
    (let s := thr (fun t => { t with resume := some ⟨true, false, false⟩ }) sup
     Quiet s ∧ s.th.resumeSlot1 = true ∧ (∃ u, HalfRuns s true ⟨0, 0, 0, false, 0⟩ u)) ∧
    (let s := regs [(5, 0x1004)] sup
     let h1 : Half := ⟨15, 1, 2, false, 0⟩
     Reads s [slotReg true h1.d, slotReg true h1.a] ∧ (s.halfAddr true h1).toNat % 8 ≠ 0 ∧ (s.halfAddr true h1).toNat < 0x60_0000_0000) ∧
    ((fullOf false ⟨41, 1, 2, false, 31⟩).isSome = true ∧ HalfVecOk sup ⟨41, 1, 2, false, 31⟩ ∧ (fullOf true ⟨50, 1, 2, false, 0⟩).isSome = true ∧
      HalfVecOk (thr (fun t => { t with resume := some ⟨true, false, false⟩ }) sup) ⟨50, 1, 2, false, 0⟩) ∧
    ({ sup with chosen := .cut }.chosen = .cut ∧ Quiet { sup with chosen := .cut } ∧ sup.chosen ≠ .cut) :=
  ⟨⟨by unfold Quiet Still NoUpdates; decide +kernel, by decide +kernel, ⟨_, by unfold Reads; decide +kernel, .inr (.inl ⟨_, rfl, rfl⟩)⟩,
      ⟨_, by unfold Reads; decide +kernel, .inr (.inr ⟨by unfold InHbm; decide +kernel, .inl ⟨rfl, rfl⟩⟩)⟩, by decide +kernel⟩,
    ⟨by unfold Quiet Still NoUpdates; decide +kernel, by decide +kernel, ⟨_, by unfold Reads; decide +kernel, .inl ⟨rfl, rfl⟩⟩⟩,
    by unfold Reads; decide +kernel, by unfold HalfVecOk; decide +kernel, rfl, by unfold Quiet Still NoUpdates; decide +kernel, nofun⟩

/-! ### Witnesses: transfers, streams, groups and threads -/

/-- Core 0 with no slot asked to stop. Two threads of it with VL 8 of 32 bits; the second waits in the get of v31 for thread 0. -/
def awake (s : State) : State := s.setCore 0 { Core.reset with stop := 0, stopped := 0 }
def pair : State := awake (cfg 0 2 8 { two with parked := [(1, { other with vcfg := 0x8008, wait := some (.xfer false 0 31) })] })

theorem witness_Transfers :
    (let s := regs [(2, 1)] pair
     VecReady s abc ∧ Reads s [abc.b] ∧ s.byTid s.th.part 1 = some 1 ∧ GroupOk abc.a s.gregs ∧ Meets s true s.cur abc.a.toNat 1 31) ∧
    (let s := regs [(2, 1)] two
     s.byTid s.th.part 1 = some 1 ∧ xferPartner s true 1 = none) ∧
    (let s := thr (fun t => { t with wait := some (.xfer true 1 1) }) pair
     (s.thread 0).live = true ∧ (s.thread 0).wait = some (.xfer true (s.thread 1).tid 1) ∧
       (s.select 0).byTid (s.thread 0).part (s.thread 1).tid = some 1 ∧ Meets s true 0 1 1 31) :=
  ⟨⟨by unfold VecReady; decide +kernel, by unfold Reads; decide +kernel, by decide +kernel, by unfold GroupOk; decide +kernel,
      by unfold Meets; dsimp only; and_intros <;> decide +kernel⟩,
    by decide +kernel, by decide +kernel, by decide +kernel, by decide +kernel, by unfold Meets; dsimp only; and_intros <;> decide +kernel⟩

/-- A stream of three u32 keys at 0x4000 with its descriptor at 0x3000, open in q1 at its last key. -/
def descr : Nat := 0x4000 + 3 * 2 ^ 128 + 1 * 2 ^ 160
def flow : State :=
  thr (fun t => t.setStream 1 { isOpen := true, desc := BitVec.ofNat 512 descr, pos := 2 }) (poke 0x3000 64 descr (regs [(1, 0x3000)] (cfg 0 2 8 sup)))

theorem witness_Streams :
    (StreamReady flow ∧ Quiet flow ∧ Reads flow (regsAB abc) ∧ InHbm (flow.addr abc) 64) ∧
    (let q : Stream := { isOpen := true, desc := BitVec.ofNat 512 (flow.bytes (flow.addr abc) 64) }
     flow.bytes (flow.addr abc) 64 < 2 ^ 164 ∧ q.idx.toNat % q.kb = 0 ∧ q.val.toNat % q.kb = 0) ∧
    (let q := flow.th.stream 1
     q.isOpen = true ∧ q.poison = false ∧ flow.th.sew = keyWidth q.key ∧ flow.gregs = 1 ∧ flow.th.vpoison = [] ∧ (∀ l ∈ flow.th.loads, l.vec = none) ∧ (30 : BitVec 6).toNat + 2 ≤ 32 ∧
       (∀ i < min flow.vl (q.len - q.pos), InHbm (q.idx + BitVec.ofNat 64 ((q.pos + i) * q.kb)) q.kb) ∧ Reads flow [abc.b] ∧ q.pos ≤ q.len ∧
       ∀ i < q.len, InHbm (q.idx + BitVec.ofNat 64 (i * q.kb)) q.kb) :=
  ⟨⟨by unfold StreamReady; decide +kernel, by unfold Quiet Still NoUpdates; decide +kernel, by unfold Reads; decide +kernel,
      by unfold InHbm; decide +kernel⟩, by decide +kernel, by unfold InHbm Reads; decide +kernel⟩

/-- A member of a group of two at 0x5000, of whom none has arrived, through g1; and one that waits for its phase. -/
def member (arrived : Nat) : State :=
  poke 0x5000 64 (GObj.toNat ⟨2, arrived, false, 4, true, 0, 0, 0⟩) (thr (fun t => t.setHandle 1 (handleOf 0x5000 false)) (regs [(1, 0x5000)] sup))
def waits : State := awake <| thr (fun t => { t with wait := some (.group 1 (some 3) 0x1_0008) }) (member 1)

theorem witness_Groups :
    (let s := regs [(1, 0x5FC0), (2, 0)] (poke 0x5FC0 64 (GObj.toNat ⟨65534, 65534, true, 0, false, 0, 0, 0⟩) (member 0))
     let ea := s.addr abc
     let o := s.object ea
     s.th.live = true ∧ Quiet s ∧ Reads s (regsAB abc) ∧ InHbm ea 64 ∧ handleV (s.th.handle 3) = false ∧
       (∀ k < 4, handleV (s.th.handle k) = true → handleAddr (s.th.handle k) ≠ ea) ∧ o.rest = 0 ∧ o.members < 65535 ∧ o.arrived ≤ o.members) ∧
    (∀ n ∈ [0, 1], let s := member n
      let h := s.th.handle 1
      let o := s.object (handleAddr h)
      handleV h = true ∧ InHbm (handleAddr h) 64 ∧ o.rest = 0 ∧ o.arrived ≤ o.members ∧ (∀ p ∈ s.th.prefs, p.handle ≠ some 1) ∧
        Reads s [2] ∧ (o.arrived ≠ 0 → o.ract = true ∧ o.rop = 4)) ∧
    ((member 0).object (handleAddr ((member 0).th.handle 1))).arrived = 0 ∧
    ((waits.thread 0).live = true ∧ (waits.select 0).running (waits.select 0).th = true ∧ (waits.thread 0).wait = some (.group 1 (some 3) 0x1_0008) ∧
      Quiet (waits.select 0) ∧ InHbm (handleAddr ((waits.select 0).th.handle 1)) 64) :=
  ⟨by unfold Quiet Still NoUpdates Reads InHbm; decide +kernel, by unfold InHbm Reads; decide +kernel, by decide +kernel,
    by unfold Quiet Still NoUpdates InHbm; decide +kernel⟩

/-- A launch of 65,536 threads at priority 7 that joins a group which then is full; and one of a single thread. -/
def launchDesc (count prio group : Nat) : Nat :=
  0x1_0000 + count * 2 ^ 128 + prio * 2 ^ 161 + (if group = 0 then 0 else 2 ^ 164) + group * 2 ^ 192 + 0x8000 * 2 ^ 256 + 0x100 * 2 ^ 320
def launches (count group members : Nat) : State :=
  poke 0x6000 64 (launchDesc count 7 group) (poke 0x5000 64 (GObj.toNat ⟨members, 0, false, 0, false, 0, 0, 0⟩) (regs [(1, 0x6000)] sup))

theorem witness_ThreadWords :
    (∀ c ∈ [(65536, 0, 0), (1, 0x5000, 65534)], let s := launches c.1 c.2.1 c.2.2
      let x := s.bytes (s.addr abc) 64
      let g : Word := BitVec.ofNat 64 (bits x 255 192)
      let o := s.object g
      s.th.live = true ∧ Quiet s ∧ Reads s (regsAB abc) ∧ InHbm (s.addr abc) 64 ∧ bits x 2 0 = 0 ∧ 1 ≤ bits x 159 128 ∧ bits x 159 128 ≤ 65536 ∧
        bits x 167 165 = 0 ∧ bits x 191 184 = 0 ∧ bits x 511 384 = 0 ∧ bits x 383 320 % 16 = 0 ∧
        (x.testBit 164 = true → InHbm g 64 ∧ o.rest = 0 ∧ o.arrived ≤ o.members ∧ o.members + bits x 159 128 ≤ 65535)) ∧
    (let s := member 0
     s.th.mmaRun = [] ∧ s.th.loads = [] ∧ ∀ k < 4, handleV (s.th.handle k) = true → InHbm (handleAddr (s.th.handle k)) 64) ∧
    (sup.th.live = true ∧ Quiet sup) := by
  refine ⟨?_, ?_, ?_⟩
  · unfold Quiet Still NoUpdates Reads InHbm; decide +kernel
  · unfold InHbm; decide +kernel
  · unfold Quiet Still NoUpdates; decide +kernel

/-- The last entry of the table goes to the last thread of a launch at priority 7, after a group's count rose to the most. -/
def queued (join : Bool) : State :=
  let e : LaunchEntry := ⟨1, BitVec.ofNat 512 (launchDesc 2 7 (if join then 0x5000 else 0)), if join then 0 else 1, 0, 2, none, 0x5000⟩
  poke 0x5000 64 (GObj.toNat ⟨65533, 0, false, 0, false, 0, 0, 0⟩) (State.reset.setPart 0 { Partition.reset with queues := Partition.reset.queues.set 7 [e] })

/-- Unplaced threads: an S thread, and an L thread that some core can be kept for. -/
def unplacedOne (isL : Bool) : State :=
  { State.reset.setPart 0 Partition.reset with parked := [(3, { other with entry := 3, isL := isL, pos := none, home := none, lc := none })] }

theorem witness_ThreadCreationAndPlacement :
    (∀ join, let q := (queued join).part 0
      (∀ j < 7, q.queues.getD j [] = []) ∧ (∃ e rest, q.queues.getD 7 [] = e :: rest) ∧ ((queued join).thread (threadKey 0 65535)).live = false ∧
        (queued join).frames = [] ∧ (queued join).coherent = true ∧ NoUpdates (queued join) ∧
        ((queued join).plat.linkLost = false ∧ (queued join).unseen = [] ∧ isFabric 0x5000 = false) ∧
        (let o := GObj.ofNat ((queued join).mem.readLE 0x5000 64)
         o.rest = 0 ∧ o.arrived ≤ o.members ∧ o.members + 2 ≤ 65535)) ∧
    ((unplacedOne false).unplaced 0 = 3 :: [] ∧ (unplacedOne false).placeFor 3 = some (0, 0)) ∧
    (∀ j ∈ sup.unplaced 0, sup.placeFor j = none) ∧
    (let s := unplacedOne true
     (∀ j ∈ s.unplaced 0, j = 3) ∧ (3 ∈ s.unplaced 0 ∧ (s.thread 3).isL = true ∧ (∀ c ∈ coresOf 0, (s.core c).reserved ≠ some 3) ∧
       s.canTake 3 39 0 = true) ∧ 39 / 40 = 0 ∧ s.residents 39 = [] ∧ (s.unplaced 0).count 3 = 1) ∧
    (sup.residents 0 ≠ [] ∧ sup.unplaced 0 = []) := by
  refine ⟨fun join => ⟨?_, ?_, ?_, ?_, ?_, ?_, ?_, ?_⟩, by decide +kernel, by decide +kernel, by decide +kernel, by decide +kernel⟩
  · cases join <;> decide +kernel
  · exact ⟨_, _, rfl⟩
  · cases join <;> decide +kernel
  · cases join <;> decide +kernel
  · cases join <;> decide +kernel
  · cases join <;> (unfold NoUpdates; decide +kernel)
  · cases join <;> decide +kernel
  · cases join <;> decide +kernel

/-- A leaf on core 0 beside a thread of priority 1; and a second thread, whose word at the pc is ADD, which reads s6, to be tried while
thread 0's is chosen. -/
def leafed : State :=
  let job : TileJob := { word := 0, addr := 0, sub := .queue 0, part := 0, user := false, phys := true, only := none }
  { thr (fun t => { t with prio := 1 }) (sup.setCore 0 { Core.reset with stop := 0 }) with
    decs := [(decKey 1 0, ⟨[], [⟨job, [], [], [⟨0, []⟩], [], 0, none, none, []⟩]⟩)] }
def trying (awaited : List (BitVec 6)) : State :=
  let t : Thread := { other with level := .supervisor, zenc := awaited }
  { poke 0x1_0000 8 0x408A_3000_FFFF_FFF8 (awake { two with parked := [(1, t)] }) with chosen := .probe 0 [1] ⟨3, none, []⟩ }
/-- What trying its word answers. -/
def tried (s : State) : Option Thread := match fetchWord (s.probeAt 1) with
  | .word i u => match exec i u with
    | .next t => some (t.thread 1)
    | _ => none
  | .done _ => none

theorem witness_IssueOrder :
    (let s := sup.setCore 0 { Core.reset with stop := 0 }
     s.readyList 0 = 0 :: [] ∧ s.coreLeaf 0 = none) ∧ sup.readyList 1 = [] ∧
    (leafed.readyList 0 = 0 :: [] ∧ (leafed.thread 0).boosted = none ∧ (leafed.thread 0).prio ≠ 0 ∧
      leafed.coreLeaf 0 = some (decKey 1 0, 0, 0)) ∧
    ((trying []).chosen = .probe 0 (1 :: []) ⟨3, none, []⟩ ∧ (tried (trying [])).map Thread.wait = some none) ∧
    ((tried (trying [6])).map Thread.wait = some (some .zenc) ∧ (tried (trying [6])).map Thread.passes = some ((trying [6]).thread 1).passes) ∧
    (let s := { trying [] with chosen := .probe 0 [] ⟨3, none, [1]⟩ }
     (⟨3, none, [1]⟩ : Passes).others.count 1 = 1 ∧ (s.thread 1).live = true ∧ ∀ pa n, WaitReason.pswap ≠ .fabric pa n) ∧
    ((thr (fun t => { t with passes := 256 }) sup).thread 0).passes = 256 ∧ (sup.thread 0).boosted = none := by
  refine ⟨by decide +kernel, by decide +kernel, by decide +kernel, by decide +kernel, by decide +kernel, ⟨by decide, by decide +kernel, nofun⟩,
    by decide +kernel, by decide +kernel⟩
/-! ### Witnesses: background work, matrix unit, trellis weights, traps -/

/-- A VLDA of one element of 64 bits, the last of v31; and an update line of one addend at the end of line 5. -/
def filling : State :=
  thr (fun t => { t with vldas := [⟨31, 1, 64, 0, [⟨31, 0x5F_FFFF_FFF8, .cell 0x5F_FFFF_FFF8 (some 0)⟩]⟩] }) sup
def updating : State := sup.setCore 2 { Core.reset with upd := [⟨5, .int 8, [(120, -1), (120, 2)]⟩] }
def counting : State := { sup with slices := [(0, ⟨0, 2 ^ 20, []⟩)] }

theorem witness_BackgroundWork :
    (let u := filling.thread 0
     let v : Vlda := ⟨31, 1, 64, 0, [⟨31, 0x5F_FFFF_FFF8, .cell 0x5F_FFFF_FFF8 (some 0)⟩]⟩
     u.live = true ∧ u.vldas = [v] ∧ u.vpoison = [] ∧ filling.poison = [] ∧ filling.frames = [] ∧ filling.coherent = true ∧ NoUpdates filling ∧ v.bytes = 0 ∧
       filling.plat.linkLost = false ∧ filling.holds 0x5F_FFFF_FFF8 8 = true ∧
       (∀ p ∈ filling.parts, ∀ n < 16, (p.2.chans.getD n Channel.reset).st ≠ .running) ∧
       v.reg + 31 * (64 / 8) / (16 * threadLanes filling u) < 32) ∧
    (let l : UpdLine := ⟨5, .int 8, [(120, -1), (120, 2)]⟩
     (updating.core 2).upd.find? (fun l => l.line == 5) = some l ∧ updating.frames = [] ∧ updating.coherent = true ∧ updating.MemOk ∧
       updating.plat.linkLost = false ∧ updating.unseen = [] ∧ isFabric (5 * 128) = false ∧
       ∀ a ∈ l.adds, a.1 % 8 = 0 ∧ a.1 < 128) ∧
    (3221225471 * 128 < 0x60_0000_0000 ∧ lineChannel 0 = 0 ∧ 2 ^ 20 ≤ (counting.slices.get 0 Slice.reset).count) := by
  unfold NoUpdates State.MemOk; decide +kernel

/-- A grant of 8 rows; shape records of 1 × 4 and 4 × 1 bytes, and metadata that keep elements 0 and 1. -/
def shapeRec (base rows cols : Nat) : Nat := base + 1 * 2 ^ 64 + rows * 2 ^ 128 + cols * 2 ^ 160 + cols * 2 ^ 192 + 1 * 2 ^ 224
def matrix (vl : Nat) : State :=
  thr (fun t => { t with mgrant := 8 }) (poke 0x7100 1 0x04 (poke 0x7040 64 (shapeRec 0x8100 4 1) (poke 0x7000 64 (shapeRec 0x8000 1 4)
    (regs [(1, 0x7000), (2, 0x7040), (4, 0x7100)] (cfg 0 0 vl sup)))))

theorem witness_MatrixMultiply :
    (∀ vl ∈ [0, 4], MatrixReady (matrix vl) ∧ Quiet (matrix vl) ∧ Reads (matrix vl) [abc.a, abc.b, abc.c]) ∧
    (InHbm 0x7000 64 ∧ InHbm 0x7040 64 ∧ opClass ((matrix 4).shape 0x7000).efmt = some .int8) ∧
    ShapesOk (matrix 4) ((matrix 4).shape 0x7000) ((matrix 4).shape 0x7040) none none false (fun _ e => e) ∧
    ShapesOk (matrix 4) ((matrix 4).shape 0x7000) ((matrix 4).shape 0x7040) none none true (fun _ e => e) ∧
    (∀ q < 4 / 4, InHbm (0x7100 + BitVec.ofNat 64 (q / 2)) 1 ∧ (matrix 4).bytes 0x7100 1 % 4 < (matrix 4).bytes 0x7100 1 / 4) ∧
    ShapesOk (matrix 0) ((matrix 0).shape 0x7000) ((matrix 0).shape 0x7040) none none false (fun _ e => e) ∧
    ((thr (fun t => { t with mmaRun := [(1, true)] }) sup).thread 0).mmaRun = (1, true) :: [] := by
  refine ⟨?_, ?_, ?_, ?_, ?_, ?_, by decide +kernel⟩
  · unfold MatrixReady Quiet Still NoUpdates Reads; decide +kernel
  · unfold InHbm; decide +kernel
  · unfold ShapesOk TrellisOf OperandInHbm InHbm; dsimp only; refine ⟨?_, ?_, ?_, ?_, ?_, ?_, ?_, ?_, ?_, ?_, ?_, ?_, ?_⟩ <;> decide +kernel
  · unfold ShapesOk TrellisOf OperandInHbm InHbm; dsimp only; refine ⟨?_, ?_, ?_, ?_, ?_, ?_, ?_, ?_, ?_, ?_, ?_, ?_, ?_⟩ <;> decide +kernel
  · unfold InHbm; decide +kernel
  · unfold ShapesOk TrellisOf OperandInHbm InHbm; dsimp only; refine ⟨?_, ?_, ?_, ?_, ?_, ?_, ?_, ?_, ?_, ?_, ?_, ?_, ?_⟩ <;> decide +kernel

/-- A row of four 32-bit columns drained to the end of HBM; and by an offset register. -/
def drained : State := thr (fun t => { t with mgrant := 8, vrows := 1 }) (regs [(1, 0x5F_FFFF_FFF0), (4, 0x0007_00FC)] (cfg 0 2 4 sup))

theorem witness_MatrixGrantsAndMoves :
    (∀ n ∈ [1, 128], let s := regs [(1, BitVec.ofNat 64 n)] sup
      s.th.live = true ∧ featHas s 3 = true ∧ Reads s (regsA abc) ∧ 1 ≤ (s.th.getS 1).toNat ∧ (s.th.getS 1).toNat ≤ 128 ∧ s.th.grows = 0) ∧
    (drained.th.mmaRun = [] ∧ ∀ n < 16, ((drained.part drained.th.part).chans.getD n Channel.reset).st ≠ .running) ∧
    (MatrixReady drained ∧ Quiet drained ∧ VecReady drained abc ∧ drained.MemOk ∧ Reads drained [abc.a, abc.c, abc.b] ∧
      4 * drained.th.rows ≤ drained.rbytes ∧ drained.th.sew = 8 * 4 ∧ 0 < drained.th.grows ∧
      bits (drained.th.getS 4).toNat 23 16 + drained.th.rows ≤ drained.th.grows ∧ bits (drained.th.getS 4).toNat 15 0 + drained.vl ≤ 256 ∧
      ∀ k < drained.th.rows, ∀ i < drained.vl, InHbm (drained.th.getS 1 + BitVec.ofNat 64 k * drained.th.getS 2 + BitVec.ofNat 64 (i * 4)) 4) := by
  refine ⟨?_, ?_, ?_⟩
  · unfold Reads; decide +kernel
  · decide +kernel
  · exact ⟨by unfold MatrixReady; decide +kernel, by unfold Quiet Still NoUpdates; decide +kernel, by unfold VecReady; decide +kernel,
      by unfold State.MemOk; decide +kernel, by unfold Reads InHbm; decide +kernel⟩

/-- A trellis record of one block of 16 weights, 4 bits each, with L = 12, and what it says. -/
def trellisRec : Nat := 0x9000 + 0x9100 * 2 ^ 64 + 1 * 2 ^ 128 + 0 * 2 ^ 160 + (0x13 * 2 ^ 8) * 2 ^ 192 + 1 * 2 ^ 256
def trellis : TRec := ⟨0x9000, 0x9100, { n := 4, L := 12, C := 1, D := 0, B := 16, fmt := B8.ofCode 0x13, sat := false }, 1⟩
def coded : State :=
  thr (fun t => { t with w := t.w.set 1 ⟨true, BitVec.ofNat 512 trellisRec, 0x8000⟩ })
    (poke 0x8000 64 trellisRec (regs [(1, 0x8000), (2, 0)] (cfg 0 0 16 sup)))
def encoding : State :=
  { coded with zjobs := [⟨0, 0, false, 0, 3, 0xA000, BitVec.ofNat 512 trellisRec, 0x8000, 0⟩], th := { coded.th with zenc := [3] } }

theorem witness_TrellisAndZinnia :
    (Quiet coded ∧ coded.th.live = true ∧ featHas coded 4 = true ∧ coded.th.vectorHere = true ∧ Reads coded (regsAB abc) ∧
      InHbm (coded.addr abc) 64 ∧ (TRec.ofNat (coded.bytes (coded.addr abc) 64)).isSome = true) ∧
    (TRec.ofNat (coded.th.w.getD 1 {}).record.toNat = some trellis ∧ VecReady coded abc ∧ Reads coded [abc.b] ∧ coded.th.sew = 8 ∧
      coded.gregs = 1 ∧ (∀ i < coded.vl, WeightInHbm trellis (0 + i)) ∧
      NoFlagTrap coded (coded.todo abc 8) (fun i => (coded.weightAt trellis (0 + i)).2)) ∧
    (let s := regs [(1, 0xA000), (2, 0x8000)] coded
     Reads s [abc.a, abc.b] ∧ (s.th.getS 1).toNat % 4 = 0 ∧ InHbm (s.th.getS 2) 64 ∧ (TRec.ofNat (s.bytes (s.th.getS 2) 64)).isSome = true) ∧
    (let s := encoding
     let j : ZJob := ⟨0, 0, false, 0, 3, 0xA000, BitVec.ofNat 512 trellisRec, 0x8000, 0⟩
     s.zjobs = [] ++ j :: [] ∧ TRec.ofNat j.data.toNat = some trellis ∧ j.user = false ∧
       (s.part j.part).ptroot.getLsbD 0 = false ∧ PlainMem s ∧ s.MemOk ∧ (s.thread j.key).vldas = [] ∧
       (∀ n < 16, ((s.part j.part).chans.getD n Channel.reset).st ≠ .running) ∧
       (∀ i < trellis.tr.B, InHbm (j.tgt + BitVec.ofNat 64 (4 * i)) 4) ∧ (trellis.streamBytes 0 1).2 ≤ 0x60_0000_0000 ∧
       trellis.scl < 0x60_0000_0000 ∧ (trellis.streamBytes 0 1).2 ≤ trellis.scl ∧ ¬ j.block + 1 < trellis.nblk ∧
       (s.thread j.key).zenc.contains j.reg = true ∧ j.reg ≠ 0) ∧
    (match fp32.decode (encoding.bytes 0xA000 4) with
      | .num _ _ _ => true
      | _ => false) = true ∧
    (let s := thr (fun t => { t with zfault := [(0x16A, 0x8000, 3, 0, 0)] }) encoding
     (s.thread 0).zfault = (0x16A, 0x8000, 3, 0, 0) :: [] ∧ (s.thread 0).live = true ∧ (s.thread 0).inGroupWait = false) := by
  refine ⟨?_, ?_, ?_, ?_, by decide +kernel, by decide +kernel⟩
  · unfold Quiet Still NoUpdates Reads InHbm; decide +kernel
  · exact ⟨by decide +kernel, by unfold VecReady; decide +kernel, by unfold Reads WeightInHbm NoFlagTrap; decide +kernel⟩
  · unfold Reads InHbm; decide +kernel
  · unfold PlainMem NoUpdates State.MemOk InHbm; decide +kernel

theorem witness_Traps :
    (Reads sup (regsA abc) ∧ Reads sup (regsA (imm 31))) ∧ (thr (fun t => { t with level := .user }) sup).th.level = .user ∧
    (sup.th.level ≠ .user ∧ sup.th.vldas = [] ∧ sup.th.loads = [] ∧ CanRelease sup) ∧ 0x1FF < 512 ∧ (sup.th.level = .supervisor ∧ sup.th.inh = false) ∧
    (let s := thr (fun t => { t with xstat := 8 }) sup
     s.th.level = .supervisor ∧ s.th.inh = true ∧ s.finishing = false) ∧
    (let s := thr (fun t => { t with mmaRun := [(0, false)] }) sup
     s.finishing = true) ∧
    (let p : Pending := ⟨{ code := 0x080, vpart := true }, true⟩
     let s := thr (fun t => { t with trap := some p }) sup
     s.th.trap = some p ∧ p.cause.code < 512 ∧ s.finishing = false ∧ s.th.level = .supervisor ∧ s.th.inh = false) ∧
    (let u := thr (fun t => { t with dbg := 2 }) sup
     u.finishing = false ∧ u.th.dbg.getLsbD 1 = true ∧ u.th.inh = false ∧ u.th.level ≠ .monitor) := by
  unfold Reads CanRelease; decide +kernel


/-! ### Channels -/

/-- A channel record: source, destination, function, formats, length, AUX and the inner two levels as (CNT, SSTR, DSTR). -/
def chanRec (src dst fn sf df len aux : Nat) (l0 l1 : Nat × Nat × Nat) : Nat :=
  let level (l : Nat) (x : Nat × Nat × Nat) : Nat := (x.1 + x.2.1 * 2 ^ 64 + x.2.2 * 2 ^ 96) * 2 ^ (256 + 128 * l)
  src + dst * 2 ^ 64 + fn * 2 ^ 128 + sf * 2 ^ 136 + df * 2 ^ 144 + len * 2 ^ 160 + aux * 2 ^ 192 +
    level 0 l0 + level 1 l1 + level 2 (1, 0, 0) + level 3 (1, 0, 0) + level 4 (1, 0, 0) + level 5 (1, 0, 0)

/-- Channel 3 of partition 0, changed. -/
def chan (f : Channel → Channel) (s : State) : State := s.setChan 0 3 (f (s.chan 0 3))
def loaded (x y : Nat) : State → State := chan fun c => { c with st := .loaded, record := BitVec.ofNat 1024 x, func := BitVec.ofNat 512 y }
def running (x y : Nat) (dlo dhi : Nat) : State → State := fun s =>
  chan (fun c => { c with st := .running, crec := 0x9000, dlo := dlo, dhi := dhi, cwm := BitVec.ofNat 64 dlo }) (loaded x y s)

/-- COPY of two rows of 64 bytes that ends at the end of HBM. -/
def copyRec : Nat := chanRec 0x1000 0x5F_FFFF_FF80 0 0 0 64 0 (2, 64, 64) (1, 0, 0)
/-- COMPRESS of two rows of two u8, its function record at 0x8040. -/
def compressRec : Nat := chanRec 0x1000 0x2000 2 1 0 0 0x8040 (2, 1, 0) (2, 2, 0)
def compressFn : Nat := 0x3000 + 0x4000 * 2 ^ 64 + 4 * 2 ^ 128

def programming (x : Nat) : State := poke 0x8040 64 compressFn (poke 0x8000 128 x (regs [(1, 0x8000)] sup))

theorem witness_ChannelWords :
    (∀ x ∈ [copyRec, compressRec], let s := programming x
      s.th.live = true ∧ Quiet s ∧ s.MemOk ∧ abc.d.toNat < 16 ∧ Reads s (regsAB abc) ∧ InHbm (s.addr abc) 128 ∧
        InHbm (0x8040 : Word) 8 ∧ (0x8040 : Word).toNat + 64 ≤ 0x60_0000_0000) ∧
    (sup.chan 0 3).st ≠ .loaded ∧ (sup.chan 0 3).st = .idle ∧
    (let s := regs [(2, 0x9000)] (loaded copyRec 0 sup)
     let c := s.chan s.th.part 3
     Reads s [abc.b] ∧ c.st = .loaded ∧ (c.fn = 3 → selaccInside s.th c = true) ∧ c.total ≠ 0 ∧
       (∀ ea ∈ (c.srcTouch ++ c.dstTouch).map BitVec.toNat, ea < 0x60_0000_0000) ∧
       (s.th.getS abc.b).toNat % 32 = 0 ∧ (s.th.getS abc.b).toNat + 32 ≤ 0x60_0000_0000) ∧
    ((loaded (chanRec 0 0 0 0 0 64 0 (0, 0, 0) (1, 0, 0)) 0 sup).chan 0 3).total = 0 ∧
    abc.a.toNat < 16 ∧
    (let s := running copyRec 0 0x5F_FFFF_FF80 0x60_0000_0000 sup
     let c := s.chan s.th.part 3
     s.th.live = true ∧ c.st = .running ∧ Reads s [abc.b] ∧ ({ abc with a := 3 } : Fields).a.toNat = 3 ∧ PlainMem s ∧ s.MemOk ∧
       c.xl = false ∧ c.user = false ∧ InHbm c.crec 32 ∧ c.dhi ≤ 0x60_0000_0000) := by
  unfold Quiet Still PlainMem NoUpdates Reads State.MemOk InHbm
  refine ⟨?_, ?_, ?_, ?_, ?_, ?_, ?_⟩ <;> decide +kernel

/-- Its function may be COPY or FILL, and for CONV the formats are u8 to s16. -/
def convRec : Nat := chanRec 0x1000 0x2000 1 1 2 0 0 (2, 1, 2) (1, 0, 0)
def fillRec : Nat := chanRec 0 0x2000 4 0 0 3 0x55 (1, 0, 0) (1, 0, 0)

/-- Iteration `c.done` of channel 3 can run to its end. -/
def Iterates (s : State) (fn len : Nat) : Prop :=
  let c := s.chan 0 3
  let dst := c.dstAt c.done
  PlainMem s ∧ s.MemOk ∧ c.Fresh s ∧ c.done < c.total ∧ c.Steps fn ∧ dst + len ≤ 0x60_0000_0000 ∧ InHbm c.crec 32 ∧
    (dst + len ≤ c.crec.toNat ∨ c.crec.toNat + 32 ≤ dst)

theorem witness_LupinSteps :
    (∀ done ∈ [0, 1], let s := chan (fun c => { c with done := done }) (running copyRec 0 0x5F_FFFF_FF80 0x60_0000_0000 sup)
      Iterates s 0 64 ∧ 0 < (s.chan 0 3).clen ∧ (s.chan 0 3).srcAt done + (s.chan 0 3).clen ≤ 0x60_0000_0000) ∧
    (let s := running fillRec 0 0x2000 0x2003 sup
     Iterates s 4 3 ∧ 0 < (s.chan 0 3).clen) ∧
    (let s := running convRec 0 0x2000 0x2004 sup
     let c := s.chan 0 3
     Iterates s 1 c.dsize ∧ c.srcAt c.done % c.ssize = 0 ∧ c.dstAt c.done % c.dsize = 0 ∧ c.srcAt c.done + 8 ≤ 0x60_0000_0000) ∧
    (let s := poke 0x1000 2 0x500 (running compressRec compressFn 0x2000 0x400C sup)
     let c := s.chan 0 3
     PlainMem s ∧ s.MemOk ∧ c.Steps 2 ∧ c.Fresh s ∧ c.done < c.total ∧
       (∀ k < c.cnt 0, c.cellAt c.done k % c.ssize = 0 ∧ c.cellAt c.done k + c.ssize ≤ 0x60_0000_0000) ∧
       c.counts.sum + 1 ≤ c.nnzmax ∧ c.dst % c.ssize = 0 ∧ c.cidx % 4 = 0 ∧ c.cidx + 4 ≤ 0x60_0000_0000 ∧ c.dst + 1 ≤ c.cidx) ∧
    (let s := chan (fun c => { c with done := 2, counts := [1, 0] }) (running compressRec compressFn 0x2000 0x400C sup)
     let c := s.chan 0 3
     c.Steps 2 ∧ c.total ≤ c.done ∧ c.rptr % 4 = 0 ∧ c.rptr + 12 ≤ 0x60_0000_0000 ∧ InHbm c.crec 32 ∧ c.rptr + 12 ≤ c.crec.toNat) ∧
    (let s := chan (fun c => { c with grant := (0, 0, 8) })
      (running (chanRec 0 0x2000 3 0 0 0 0x8040 (2, 0, 0) (1, 0, 64)) (0xBF800000 * 2 ^ 32 + 2 * 2 ^ 64) 0x2000 0x2030 sup)
     let c := s.chan 0 3
     c.Steps 3 ∧ c.done < c.total ∧ (s.cluster c.grant.1).accPoison = [] ∧ c.headAt c.done % 16 = 0 ∧ c.headAt c.done + 48 ≤ 0x60_0000_0000 ∧
       c.done + 1 = c.total ∧ InHbm c.crec 32 ∧ c.headAt c.done + 48 ≤ c.crec.toNat) ∧
    (let s := chan (fun c => { c with fault := some 0x142 }) (running copyRec 0 0x5F_FFFF_FF80 0x60_0000_0000 sup)
     (s.chan 0 3).st = .running ∧ (s.chan 0 3).fault = some 0x142) := by
  unfold Iterates PlainMem NoUpdates State.MemOk InHbm Channel.Steps Channel.Fresh
  refine ⟨?_, ?_, ?_, ?_, ?_, ?_, ?_⟩ <;> decide +kernel

/-! ### Tiering -/

/-- Change partition 0. -/
def part0 (f : Partition → Partition) (s : State) : State := s.setPart 0 (f (s.part 0))

/-- Tables at 0x10000 to 0x14000 map VA 0 to 0x20000 in the fast pool of two frames, and VA 0x1000 to the first of the four frames of
the capacity pool in host memory. -/
def tables : Mem :=
  [(0x10000, 0x01), (0x10001, 0x10), (0x10002, 0x01), (0x11000, 0x01), (0x11001, 0x20), (0x11002, 0x01), (0x12000, 0x01), (0x12001, 0x30),
    (0x12002, 0x01), (0x13000, 0x01), (0x13001, 0x40), (0x13002, 0x01), (0x14000, 0x03), (0x14002, 0x02), (0x14008, 0x03),
    (0x14009, 0x40), (0x1400E, 0x01)]
def pteFast : Nat := 0x20000 + 3
def pteSlow : Nat := hostBase + 0x4000 + 3
def tiered (low : Nat) : State :=
  part0 (fun q => { q with ptroot := 0x10001, tvbase := 1, tvlen := 0x2000, tfbase := 0x20000, tflen := 0x2000, thbase := 0x4000,
                           thlen := 0x4000, tmark := BitVec.ofNat 64 (10 * 2 ^ 32 + low), hints := [(0x1000, (6, 5))] })
    { sup with mem := tables }
def fastPage : TlbEntry := ⟨0, 0, BitVec.ofNat 64 pteFast, 0x14000⟩
def slowEntry : TlbEntry := ⟨0x1000, 0, BitVec.ofNat 64 pteSlow, 0x14008⟩

/-- And a thread that prefetches the second page. -/
def prefetching (low : Nat) : State :=
  let s := thr (fun t => { t with prefs := [⟨1, none, [0x1000]⟩] }) (tiered low)
  part0 (fun q => { q with prefQ := [s.cur] }) s

theorem tiered_pages {s : State} (h : s.mem = tables ∧ s.poison = [] ∧ s.plat.linkLost = false ∧ s.frames = [] ∧ s.late = [] ∧
      s.cores = [] ∧ (s.part 0).ptroot = 0x10001 ∧ (s.part 0).tvbase = 1 ∧ (s.part 0).tvlen = 0x2000) :
    s.tiered 0 = [fastPage, slowEntry] := by
  obtain ⟨hm, hp, hl, hf, he, hu, hr, hb, hn⟩ := h
  have hw := leavesFrom_eq_leavesWithin (s := s) (n := 2) (by decide) hp hl hf he (by simp [NoUpdates, hu]) (by rw [hm]; decide +kernel) 5
    0x10000 0 (by decide)
  have hx : bits (0x10001 : Word).toNat 51 12 * 4096 = 0x10000 := by decide
  unfold State.tiered
  simp only [hr, hx, hw, hm, Partition.tierOn, Partition.tvLo, Partition.tvHi, hb, hn]
  decide +kernel

/-- A thread whose ranges end in the second page, and meet it alone. -/
def hinting : State := regs [(1, 0x1FFF), (4, 1)] (tiered 2)

theorem hinting_pages : hinting.tiered 0 = [fastPage, slowEntry] :=
  tiered_pages (by decide +kernel)

theorem moving_pages : (tiered 2).tiered 0 = [fastPage, slowEntry] :=
  tiered_pages (by decide +kernel)

theorem prefetching_pages : (prefetching 0).tiered 0 = [fastPage, slowEntry] :=
  tiered_pages (by decide +kernel)

theorem witness_Tiering_words :
    (let s := hinting
     Reads s [abc.a, abc.c] ∧ Reads s [abc.b] ∧ s.th.prefs.length < 16 ∧ handleV (s.th.handle 2) = false ∧
       ((s.tiered 0).filter fun e => decide (0 < 1) && decide (e.va < 0x1FFF + 1) && decide (0x1FFF < e.va + pageBytes e.size) &&
         (s.part 0).isSlow e).map TlbEntry.va = [0x1000]) ∧
    (let s := thr (fun t => { t with prefs := [⟨1, none, [0x1000]⟩], wait := some .prefetchRoom }) sup
     (⟨1, none, [0x1000]⟩ : Prefetch) ∈ (s.thread s.cur).prefs ∧ ∀ va ∈ [0x1000], s.slowPage (s.thread s.cur).part va = none) := by
  dsimp only
  rw [hinting_pages]
  unfold Reads
  exact ⟨by decide +kernel, by decide +kernel⟩

/-- The free frames of a pool, where the tiered pages are known. -/
theorem freeFrames_of {s : State} {l : List TlbEntry} (h : s.tiered 0 = l) (lo len n : Nat) : s.freeFrames 0 lo len n =
    ((List.range ((lo + len) / pageBytes n - ceilDiv lo (pageBytes n))).map fun k => (ceilDiv lo (pageBytes n) + k) * pageBytes n).filter fun f =>
      !((l.map (fun e => (e.frame, pageBytes e.size)) ++ (s.part 0).migs.flatMap fun g => [(g.src, pageBytes g.size), (g.dst, pageBytes g.size)]).any
        fun u => decide (u.1 < f + pageBytes n) && decide (f < u.1 + u.2)) := by
  simp only [State.freeFrames, State.usedFrames, h]

theorem tfreeNow_of {s : State} (n : Nat) (h : s.freeFrames 0 (s.part 0).fastLo (s.part 0).fastLen 0 = [n]) (ht : (s.part 0).tierOn = true) :
    s.tfreeNow 0 = 1 := by
  simp only [State.tfreeNow, ht, h, if_true]; rfl

theorem slowPage_of {s : State} {l : List TlbEntry} (h : s.tiered 0 = l) (va : Nat) :
    s.slowPage 0 va = l.find? fun e => e.va == va && (s.part 0).isSlow e && !(s.part 0).stuck.contains e.va := by
  simp only [State.slowPage, h]

theorem prefNext_of {s : State} {x : Prefetch} {e : TlbEntry} {va : Nat} (hq : (s.part 0).prefQ = [s.cur]) (hx : s.th.prefs = [x])
    (hv : x.pages = [va]) (he : s.slowPage 0 va = some e) (hm : (s.part 0).migs = []) : s.prefNext 0 = some e := by
  simp [State.prefNext, State.prefHeads, State.thread, hq, hx, hv, he, hm]

theorem tiered_free : (tiered 2).freeFrames 0 ((tiered 2).part 0).fastLo ((tiered 2).part 0).fastLen 0 = [0x21000] := by
  rw [freeFrames_of moving_pages]; decide +kernel

theorem witness_Tiering_moves :
    (let s := tiered 2
     let q := s.part 0
     q.tvbase.getLsbD 0 = true ∧ s.plat.linkLost = false ∧ PlainMem s ∧ s.MemOk ∧ s.tfreeNow 0 < 2 ∧ s.prefNext 0 = none ∧
       (fastPage ∈ s.tiered 0 ∧ q.isFast fastPage = true ∧ (q.migs.any fun g => g.va == fastPage.va) = false ∧ fastPage.va ∉ q.stuck ∧
         s.freeFrames 0 q.slowLo q.slowLen 0 ≠ []) ∧
       (slowEntry ∈ s.tiered 0 ∧ q.isSlow slowEntry = true ∧ (q.migs.any fun g => g.va == slowEntry.va) = false ∧
         slowEntry.va ∉ q.stuck ∧ s.freeFrames 0 q.fastLo q.fastLen 0 ≠ [] ∧ q.tstep.toNat ≤ (q.hint slowEntry.va).2 ∧
         (q.hint slowEntry.va).2 - q.tstep.toNat ≤ 10)) ∧
    (let s := prefetching 0
     s.prefNext 0 = some slowEntry ∧ s.freeFrames 0 (s.part 0).fastLo (s.part 0).fastLen 0 ≠ [] ∧ PlainMem s ∧ s.MemOk) ∧
    (let s := part0 (fun q => { q with tvbase := 1, tmark := 1 }) sup
     s.tiered 0 = [] ∧ s.tfreeNow 0 < 1 ∧ PlainMem s ∧ s.MemOk) := by
  have hp : (prefetching 0).prefNext 0 = some slowEntry :=
    prefNext_of (x := ⟨1, none, [0x1000]⟩) (va := 0x1000) (by decide +kernel) (by decide +kernel) rfl
      (by rw [slowPage_of prefetching_pages]; decide +kernel) (by decide +kernel)
  have hf : (prefetching 0).freeFrames 0 ((prefetching 0).part 0).fastLo ((prefetching 0).part 0).fastLen 0 = [0x21000] := by
    rw [freeFrames_of prefetching_pages]; decide +kernel
  have hs : (tiered 2).freeFrames 0 ((tiered 2).part 0).slowLo ((tiered 2).part 0).slowLen 0 ≠ [] := by
    rw [freeFrames_of moving_pages]; decide +kernel
  have plain : PlainMem (tiered 2) ∧ (tiered 2).MemOk ∧ PlainMem (prefetching 0) ∧ (prefetching 0).MemOk := by
    unfold PlainMem NoUpdates State.MemOk; decide +kernel
  refine ⟨⟨by decide +kernel, by decide +kernel, plain.1, plain.2.1, ?_, by decide +kernel, ⟨?_, by decide +kernel, by decide +kernel, by decide +kernel, hs⟩,
    ⟨?_, by decide +kernel, by decide +kernel, by decide +kernel, ?_, by decide +kernel, by decide +kernel⟩⟩, ⟨hp, ?_, plain.2.2⟩, ?_⟩
  · rw [tfreeNow_of _ tiered_free (by decide +kernel)]; decide
  · rw [moving_pages]; decide
  · rw [moving_pages]; decide
  · rw [tiered_free]; decide
  · rw [hf]; decide
  · unfold PlainMem NoUpdates State.MemOk; decide +kernel

/-- A page of 4 KiB on its way to the capacity pool, its first line written since. -/
def onItsWay (copied : Nat) : Migration := ⟨0, 0, 0x20000, 0x1000_0000_4000, 0x14000, false, copied, [1024]⟩

theorem witness_Tiering_migration :
    (∀ copied ∈ [0, 31, 32], let s := part0 (fun q => { q with migs := [onItsWay copied] }) sup
      let g := onItsWay copied
      (s.part 0).migs[0]? = some g ∧ s.plat.linkLost = false ∧ s.poison = [] ∧ s.frames = [] ∧ s.coherent = true ∧ NoUpdates s ∧ s.MemOk ∧ s.unseen = [] ∧
        g.entry % 8 = 0 ∧ g.src % 128 = 0 ∧ (∀ l ∈ g.marked, g.src ≤ 128 * l ∧ 128 * l < g.src + pageBytes g.size) ∧ g.marked.length ≤ 64 ∧
        (pageBytes g.size / 128 = 32) ∧ g.src + pageBytes g.size ≤ g.dst ∧ g.entry + 8 * runLength g.size ≤ g.dst ∧ g.dst < 2 ^ 52) := by
  unfold NoUpdates State.MemOk; decide +kernel

/-! ### Tile instructions -/

/-- A tile descriptor, a tile instruction as a 256-bit value, and one queued at cluster 0's decomposer by queue 0. -/
def dsc (base efmt ndim func : Nat) (sz st : List Nat) (aux : Nat := 0) : Nat :=
  base + (efmt + ndim * 2 ^ 16 + func * 2 ^ 24) * 2 ^ 64 + ((List.range 4).map fun k => sz.getD k 1 * 2 ^ (128 + 32 * k)).sum +
    ((List.range 4).map fun k => st.getD k 0 * 2 ^ (256 + 32 * k)).sum + aux * 2 ^ 448
def tileWord (top lvl w1 w2 w3 : Nat) : Nat := top * 2 ^ 56 + lvl * 2 ^ 53 + 0x8000 + w1 * 2 ^ 64 + w2 * 2 ^ 128 + w3 * 2 ^ 192
def job (top lvl w1 w2 w3 : Nat) : TileJob :=
  { word := BitVec.ofNat 256 (tileWord top lvl w1 w2 w3), addr := 0, sub := .queue 0, part := 0, user := false, phys := true, only := none }

/-- TCOPY at level 1 of the bytes at 0x1000 to 0x2000, its descriptors at 0x400 and 0x440. -/
def copyTile : Nat := tileWord 0x05 1 0x400 0x440 0
def submitting : State := poke 0x4000 32 copyTile (regs [(1, 0x4000)] sup)
/-- The same entry in the ring of queue `q`, at the last place of its first pass. -/
def ringed (q : Nat) (x : Nat) : State :=
  { poke (0x4000 + 32 * 15) 32 x sup with
    tqs := [(q, { TileQ.reset with base := 0x8000_0000_0000_4000, en := true, head := 15, tail := 16 })] }
/-- Level 4, as the device's queue takes it. -/
def wideTile : Nat := tileWord 0x05 4 0x400 0x440 0

theorem witness_TileSubmission :
    (let s := submitting
     let a := s.th.getS abc.a
     Reads s [abc.a] ∧ Quiet s ∧ InHbm a 32 ∧ (s.bytes a 32 == copyTile) = true ∧ bits copyTile 55 53 = 1) ∧
    decodeTile (BitVec.ofNat 64 copyTile) 0x400 0x440 0 = .ok (.tcopy ⟨1, false, 0x8000, 0x400, 0x440, 0⟩) ∧
    decodeTile (BitVec.ofNat 64 (copyTile + 2 ^ 51)) 0x400 0x440 0 = .error .tileReserved ∧
    (let s := regs [(1, 0x4008)] sup
     (s.th.getS 1).toNat % 32 ≠ 0 ∧ (s.th.getS 1).toNat < 0x60_0000_0000) ∧
    (let y := sup.tq 0
     y.en = false) ∧
    (∀ q ∈ [0, 4, 16], ∀ x ∈ [copyTile, wideTile], let s := ringed q x
      let t := s.tq q
      let a := t.base.toNat % 2 ^ 63 / 32 * 32 + 32 * (t.head.toNat % 2 ^ t.size)
      t.en = true ∧ t.head ≠ t.tail ∧ (s.dec (decKey 4 0)).queue.length < 64 ∧ (q < 8 ∨ 16 ≤ q) ∧ t.base.getLsbD 63 = true ∧ PlainMem s ∧
        s.MemOk ∧ a + 32 ≤ 0x60_0000_0000 ∧ (s.mem.readLE a 32 == x) = true ∧ bits x 47 0 + 32 ≤ 0x60_0000_0000 ∧ bits x 47 0 % 32 = 0 ∧
        s.plat.minimal = false ∧ (q < 4 ∨ q = 4 ∨ 16 ≤ q ∧ (s.part (q - 16)).ptroot.getLsbD 0 = false)) ∧
    (∀ fn ∈ [0, 9], ∀ dead, let s := { ringed 4 wideTile with tqs := [(4, { (ringed 4 wideTile).tq 4 with marks := [(15, ⟨8, fn, ⟨1, 2, []⟩, dead⟩)] })] }
     (s.tq 4).marks.find (s.tq 4).head.toNat = some ⟨8, fn, ⟨1, 2, []⟩, dead⟩) ∧
    (bits copyTile 55 53 ≠ 4 ∧ bits wideTile 55 53 = 4) ∧ bits (copyTile + 8) 47 0 % 32 ≠ 0 := by
  refine ⟨?_, by decide +kernel, by decide +kernel, by decide +kernel, by decide +kernel, ?_, by decide +kernel, by decide +kernel, by decide +kernel⟩
  · unfold Quiet Still NoUpdates Reads InHbm; decide +kernel
  · unfold PlainMem NoUpdates State.MemOk; decide +kernel

/-- Seven columns among four children are split along dimension 0; among eight, the rows of dimension 1, of which there are three,
come first; a single element is not split. -/
theorem witness_TileSplit :
    (let b : Box := [(0, 7), (0, 3), (0, 1), (0, 1)]
     let size (k : Nat) : Nat := (b.getD k (0, 1)).2
     b.length = 4 ∧ (∀ k ∈ [3, 2, 1, 0], k < 4) ∧ (∀ e ∈ b, 1 ≤ e.2) ∧
       ([3, 2, 1, 0] = [3, 2, 1] ++ 0 :: [] ∧ (∀ j ∈ [3, 2, 1], size j < 4) ∧ 4 ≤ size 0) ∧
       ([3, 2, 1, 0] = [3, 2] ++ 1 :: [0] ∧ (∀ j ∈ [3, 2, 1, 0], size j < 8) ∧ (∀ j ∈ [3, 2], size j = 1) ∧ 1 < size 1)) ∧
    (let b : Box := [(0, 1), (0, 1), (0, 1), (0, 1)]
     ∀ k ∈ [3, 2, 1, 0], (b.getD k (0, 1)).2 = 1 ∧ 1 < 4) ∧
    (splitTile sup 0 none [3, 2, 1, 0] 1 0 [(0, 7), (0, 3), (0, 1), (0, 1)]).length = 4 := by decide +kernel

/-- The instruction stands at the head of the queue of cluster 0, with its descriptors in memory. -/
def accepting (x : Nat) (ds : List Nat) : State :=
  { (ds.zipIdx.foldl (fun s e => poke (0x400 + 64 * e.2) 64 e.1 s) sup) with
    chosen := .tile (decKey 1 0)
    decs := [(decKey 1 0, { queue := [{ (job 0 1 0 0 0) with word := BitVec.ofNat 256 x }], running := [] })] }
def srcDesc (n : Nat) : Nat := dsc 0x1000 1 1 0 [n, 2] [1, n]
def dstDesc : Nat := dsc 0x2000 1 1 0 [3, 2] [1, 3]

theorem witness_TileAcceptance :
    (∀ e ∈ [([srcDesc 3, dstDesc], true, true), ([srcDesc 4, dstDesc], true, false), ([srcDesc 0, dstDesc], false, false)],
      let s := accepting copyTile e.1
      let t : TileWord := ⟨1, false, 0x8000, 0x400, 0x440, 0⟩
      let ds := s.tdescs (tileDescs 0x05 t)
      s.chosen = .tile (decKey 1 0) ∧ (s.dec (decKey 1 0)).queue = job 0x05 1 0x400 0x440 0 :: [] ∧ (job 0x05 1 0x400 0x440 0).Plain s ∧
        PlainMem s ∧ (s.dec (decKey 1 0)).busy < 8 ∧ s.decPaused (decKey 1 0) = false ∧
        (∀ ea ∈ (tileDescs 0x05 t).map BitVec.toNat, ea % 64 = 0 ∧ ea + 64 ≤ 0x60_0000_0000) ∧
        (ds.all fun q => !q.bad) = e.2.1 ∧ (e.2.1 = true → tableOk 0x05 1 0 ds = e.2.2) ∧
        (splitTile s 0 none [3, 2, 1, 0] 1 0 (tdesc ds 1).box).isEmpty = false) ∧
    (let s := { accepting copyTile [srcDesc 3, dstDesc] with cores := (List.range 4).map fun c => (c, { Core.reset with inService := false }) }
     (splitTile s 0 none [3, 2, 1, 0] 1 0 [(0, 3), (0, 2), (0, 1), (0, 1)]).isEmpty = true) ∧
    (let s := accepting copyTile [dsc 0 0x40 0 0 [4] [1] 0x9000, dstDesc]
     let q := TDesc.ofNat (s.bytes 0x400 64)
     q.bad = false ∧ q.efmt = 0x40 ∧ InHbm q.aux 64 ∧ (TRec.ofNat (s.bytes q.aux 64)).isNone = true) ∧
    (let s := poke 0x480 64 trellisRec (accepting (tileWord 0x0D 3 0x400 0x440 0x480) [dsc 0x7000 11 0 0 [16] [1], dsc 0x9000 2 0 0 [8] [1]])
     let ds := [TDesc.ofNat (s.bytes 0x400 64), TDesc.ofNat (s.bytes 0x440 64)]
     tableOk 0x0D 3 0x480 ds = true ∧ TRec.ofNat (s.bytes 0x480 64) = some trellis ∧ (tdesc ds 0).size 0 = trellis.weights ∧
       (tdesc ds 1).base.toNat = trellis.strm) := by
  unfold PlainMem NoUpdates InHbm TileJob.Plain
  exact ⟨by decide +kernel, by decide +kernel, by decide +kernel, by decide +kernel⟩

/-- A run of one leaf, which has the whole output, with descriptors over the bytes at 0x1000, 0x2000 and 0x3000. -/
def leafRun (top w3 : Nat) (ds : List Nat) (o : Nat) : TileRun :=
  ⟨job top 2 0x400 0x440 w3, ds.map fun x => BitVec.ofNat 512 x, ds.map fun _ => 0, [⟨0, (TDesc.ofNat o).box⟩], [], 0, none, none, []⟩
def leafState (r : TileRun) : State :=
  { poke 0x1000 8 0x0403_0201 (poke 0x2000 8 0x0807_0605 sup) with decs := [(decKey 2 0, { queue := [], running := [r] })] }

/-- One leaf for each clause: TMMA of u8 with and without its start, TCONV, TEWISE of s8 and of FP32, TREDUCE of s8 and of FP32, TCOPY of one
format, to another and to one with scales, TSORT, TTOPK, TMERGE out of and in order, TINTER in and out of order, TGATHER, and TEWISE, TREDUCE and TGATHER of inputs with
scales. -/
def leafCases : List (Nat × TileRun) :=
  let one (top w3 : Nat) (a o : Nat) : Nat × TileRun := (top, leafRun top w3 [a, o] o)
  let two (top : Nat) (a b o : Nat) : Nat × TileRun := (top, leafRun top 0 [a, b, o] o)
  let a (efmt : Nat) (sz : List Nat) : Nat := dsc 0x1000 efmt 2 0 sz [1, sz.headD 1, 8]
  let b (efmt : Nat) (sz : List Nat) : Nat := dsc 0x2000 efmt 3 0 sz [1, sz.headD 1, 8, 16]
  let ms : Nat := 2 ^ 82 + 0xC000 * 2 ^ 448
  let o (efmt func : Nat) (sz : List Nat) : Nat := dsc 0x3000 efmt 2 func sz [1, sz.headD 1, 8]
  [two 0x01 (a 1 [2, 2]) (b 1 [2, 2]) (o 5 0 [2, 2]), two 0x01 (a 1 [2, 2]) (b 1 [2, 2]) (o 5 1 [2, 2]),
    two 0x04 (a 1 [1, 2, 2]) (b 1 [1, 1, 1, 2]) (o 5 0 [2, 2, 2]), two 0x02 (a 1 [2, 2]) (b 1 [2, 1]) (o 1 0 [2, 2]),
    two 0x02 (a 11 [2, 2]) (b 11 [2, 1]) (o 11 4 [2, 2]), one 0x03 1 (a 1 [2, 2]) (o 1 2 [1, 2]), one 0x03 3 (a 11 [2, 2]) (o 11 0 [1, 1]),
    one 0x05 0 (a 1 [2, 2]) (o 1 0 [2, 2]), one 0x05 0 (a 1 [2, 2]) (o 5 1 [2, 2]),
    one 0x05 0 (a 1 [2, 2]) (o 1 0 [2, 2] + ms), one 0x06 0 (a 6 [2, 2]) (o 6 0 [2, 2]),
    one 0x08 1 (a 6 [2, 2]) (o 6 0 [1, 2]), two 0x07 (a 6 [2]) (b 6 [1]) (o 6 0 [3]), two 0x07 (a 6 [2]) (b 6 [1]) (o 6 8 [3]),
    two 0x09 (a 6 [2]) (b 6 [1]) (o 6 8 [3]), two 0x09 (a 6 [1]) (b 6 [2]) (o 6 0 [2]), two 0x0A (a 1 [2, 2]) (b 6 [1]) (o 1 0 [2, 1]),
    two 0x02 (a 1 [2, 2] + ms) (b 1 [2, 1]) (o 1 2 [2, 2]), one 0x03 1 (a 11 [2, 2] + ms) (o 11 0 [1, 2]),
    two 0x0A (a 1 [2, 2] + ms) (b 6 [1]) (o 1 0 [2, 1])]

theorem witness_TileLeaves : ∀ e ∈ leafCases,
    LeafReady (leafState e.2) (decKey 2 0) 0 0 e.1 e.2 (e.2.leaves.headD ⟨0, []⟩) (e.2.descs.map fun x => TDesc.ofNat x.toNat) := by
  unfold LeafReady TileJob.Plain PlainMem NoUpdates State.MemOk TDesc.Lies InHbm
  decide +kernel

/-- The rows of the out-of-order cases: TMERGE's first run, and TINTER's second with the first in order. -/
theorem witness_TileLeaves_order :
    (let s := leafState (leafRun 0 0 [] 0)
     let a := TDesc.ofNat (dsc 0x1000 6 0 0 [2] [1])
     let b := TDesc.ofNat (dsc 0x2000 6 0 0 [2] [1])
     let row (x : TDesc) (n : Nat) : List Nat := (List.range n).map fun k => s.telem x [k, 0, 0, 0]
     inOrder 0 false (row a 1) = true ∧ inOrder 0 true (row a 2) = true ∧ inOrder 0 false (row a 2) = false ∧ inOrder 0 true (row b 1) = true ∧
       inOrder 0 false (row b 2) = false) := by decide +kernel

/-- TLAUNCH at a level, its descriptor at 0x400, at the head of the queue of unit 0. -/
def threads (n : Nat) (join : Bool) : Nat := 0x10000 + n * 2 ^ 128 + (if join then 2 ^ 164 + 0xA000 * 2 ^ 192 else 0)
def launching (lvl n : Nat) (join : Bool) : State :=
  { poke 0x400 64 (threads n join) sup with
    chosen := .tile (decKey lvl 0)
    decs := [(decKey lvl 0, { queue := [job 0x0E lvl 0x400 0 0], running := [] })] }

theorem witness_TileEnds_launch :
    (∀ e ∈ [(1, 5, false), (2, 5, true), (3, 5, true), (4, 0, false), (4, 65535, true)], let s := launching e.1 e.2.1 e.2.2
      let y := s.dec (decKey e.1 0)
      s.chosen = .tile (decKey e.1 0) ∧ y.queue = job 0x0E e.1 0x400 0 0 :: [] ∧ y.busy < 8 ∧ s.decPaused (decKey e.1 0) = false ∧
        (job 0x0E e.1 0x400 0 0).Plain s ∧ PlainMem s ∧ s.MemOk ∧ InHbm (0x400 : Word) 64 ∧ (decKey e.1 0) % 256 < 2 ∧
        descBad (s.bytes 0x400 64) = decide (e.2.1 = 0) ∧
        (e.1 = 3 → (launchParts s 3 0 0 none).length = 8) ∧ (∀ z ∈ s.parts, z.2.ptroot.getLsbD 0 = false) ∧ InHbm (0xA000 : Word) 64 ∧
        (let o := s.object 0xA000
         o.rest = 0 ∧ o.arrived ≤ o.members ∧ o.members + e.2.1 ≤ 65535)) ∧
    (launchParts { launching 3 5 false with cores := (List.range 320).map fun c => (c, { Core.reset with inService := false }) } 3 0 0 none).isEmpty = true ∧
    (let full : List LaunchEntry := List.replicate 256 ⟨1, 0, 0, 0, 1, none, 0⟩
     let s := { launching 2 5 false with parts := [(0, { Partition.reset with queues := Vector.replicate 8 full })] }
     (launchParts s 2 0 0 none)[0]? = some 0 ∧ 256 ≤ ((s.part 0).queues.getD 0 []).length) := by
  unfold PlainMem NoUpdates State.MemOk InHbm TileJob.Plain
  exact ⟨by decide +kernel, by decide +kernel, by decide +kernel⟩

/-- A run over the descriptors of a TCOPY with a guard at 0xB000, which memory holds too; a launch whose threads have all exited; and a
run that stopped with its sibling before any level accepted it. -/
def ending (leaves lost : List Leaf) (report : Option Report) (ds : List Nat) : TileRun :=
  ⟨job 0x05 2 0x400 0x440 0, ds.map fun x => BitVec.ofNat 512 x, ds.map fun _ => 0, leaves, lost, 1, report, none, []⟩
def guardedDsc : Nat := dstDesc + 0xB000 * 2 ^ 384
def endState (r : TileRun) : State := poke 0x400 64 (srcDesc 3) (poke 0x440 64 guardedDsc (leafState r))
def wholeBox : Box := [(0, 3), (0, 2), (0, 1), (0, 1)]

theorem witness_TileEnds_record :
    (∀ r ∈ [ending [] [] none [srcDesc 3, guardedDsc], ending [⟨0, wholeBox⟩] [] (some ⟨0x0A5, 0, 0, 0⟩) [srcDesc 3, guardedDsc],
        { ending [] [] none [] with job := job 0x0E 2 0x400 0 0, launch := [(0, 7)] },
        { ending [] [] none [] with done := 0, sibling := some (0x0A5, 0) }], let s := endState r
      let q := r.softDescs (r.job.who (unitCluster 2 0)) s
      let env := q.env ⟨0, []⟩
      let o := env.o
      let lost := if r.leaves = [] ∧ r.lost = [] ∧ r.done = 0 then boxIdx o.box else (r.lost ++ r.leaves).flatMap fun l => boxIdx l.box
      (s.dec (decKey 2 0)).running[0]? = some r ∧ r.job.Plain s ∧ PlainMem s ∧ s.MemOk ∧ InHbm r.job.crec 32 ∧
        (q.descs ≠ [] → o.guard = 0xB000 ∧ InHbm o.guard 8 ∧ r.job.crec.toNat + 32 ≤ o.guard.toNat) ∧ r.job.top ≠ 0x06 ∧
        (q.descs ≠ [] → ∀ i ∈ lost, InHbm (o.at_ i) o.esize) ∧
        (q.descs ≠ [] → ∀ e ∈ env.spans, overlapsIn s (r.job.who (unitCluster (decKey 2 0 / 256) (decKey 2 0 % 256))) env.ins e.1 e.2 = false) ∧
        ((r.leaves = [] ∨ r.sibling.isSome = true ∨ r.report.isSome = true ∧ r.job.fp = false) ∧ (r.launch = [] ∨ r.report.isSome = true) ∨
          r.launch ≠ [] ∧ r.report = none ∧ (∀ e ∈ r.launch, (∀ q ∈ (s.part e.1).queues.toList, ∀ x ∈ q, x.seq ≠ e.2) ∧
            ∀ k ∈ s.liveKeys, (s.thread k).part ≠ e.1 ∨ (s.thread k).seq ≠ e.2))) ∧
    (let r := ending [⟨0, wholeBox⟩] [] none [srcDesc 3, guardedDsc]
     ¬ (r.leaves = [] ∨ r.sibling.isSome = true ∨ r.report.isSome = true ∧ r.job.fp = false)) := by
  unfold PlainMem NoUpdates State.MemOk InHbm TileJob.Plain; decide +kernel

/-! ### Collectives and loops -/

/-- A collective record: element count, format, operation, kind, rank, NP − 1 and root, with KEY 9, its buffers of rank r at 0x10000 +
0x1000 r and 0x20000 + 0x1000 r, the member table at 0x5000, and STAT at 0x7000 + 8 r. -/
def collRec (count efmt op kind rank npm root : Nat) : Nat :=
  9 + (0x10000 + 0x1000 * rank) * 2 ^ 64 + (0x20000 + 0x1000 * rank) * 2 ^ 128 +
    (count + efmt * 2 ^ 32 + op * 2 ^ 40 + kind * 2 ^ 43 + rank * 2 ^ 48 + npm * 2 ^ 56) * 2 ^ 192 + 0x5000 * 2 ^ 256 + root * 2 ^ 320 +
    (0x7000 + 8 * rank) * 2 ^ 384
def party (count efmt op kind rank npm root : Nat) : Party := ⟨rank, 0, false, BitVec.ofNat 512 (collRec count efmt op kind rank npm root), [], [], false, false⟩
def joining (x : Nat) : State := poke 0x5000 16 (0x80 + 0x81 * 2 ^ 64) (poke 0x4000 64 x (regs [(1, 0x4000)] sup))

theorem witness_Collectives_join :
    (∀ e ∈ [(collRec 4 5 0 0 0 1 0, 0, true), (collRec 4 5 3 0 0 1 0, 3, true), (collRec 4 14 2 0 0 1 0, 2, false),
        (collRec 4 13 2 3 1 1 2, 2, false)],
      let s := joining e.1
      let x := s.bytes (s.th.getS 1) 64
      Reads s [abc.a] ∧ Quiet s ∧ InHbm (s.th.getS 1) 64 ∧ bits x 234 232 = e.2.1 ∧ RunInHbm (bits x 319 256) (bits x 255 248 + 1) 8 ∧
        decide (1 ≤ bits x 223 192 ∧ 1 ≤ bits x 231 224 ∧ bits x 231 224 ≤ 13 ∧ bits x 239 237 = 0 ∧ bits x 247 240 < bits x 255 248 + 1 ∧
          bits x 383 328 = 0 ∧ bits x 511 448 = 0 ∧ (bits x 236 235 = 3 → bits x 327 320 < bits x 255 248 + 1)) = e.2.2) ∧
    (let s := joining (collRec 4 5 0 0 0 1 0)
     let c : Coll := ⟨9, [0x80, 0x81], [party 4 5 0 0 1 1 0], [], false, false⟩
     s.colls = [] ∧ c.key = BitVec.ofNat 64 (collRec 4 5 0 0 0 1 0) ∧ ((List.range 2).map fun k => s.mem.readLE (0x5000 + 8 * k) 8) = c.members ∧
       c.met = false ∧ ∀ p ∈ c.parties, p.rank ≠ 0) := by
  unfold Quiet Still NoUpdates Reads InHbm RunInHbm; decide +kernel

/-- Two participants on this device and one elsewhere. -/
def meeting (kind op : Nat) (met : Bool) : Coll :=
  let p (r : Nat) : Party := party 2 5 op kind r 2 1
  ⟨9, [0x80, 0x80, 0x81], [p 1, p 0], if met then [⟨2, 5, op, kind, 2, 1, [1, 2, 3, 4, 5, 6]⟩] else [], met, false⟩
def holding (c : Coll) : State := { sup with colls := [c], devnum := 0x80, linken := 1, linkUp := 1 }

theorem witness_Collectives_end :
    (∀ met ∈ [false, true], ∀ kind ∈ [0, 1, 2, 3], let c := meeting kind 0 met
      let s := holding c
      let np := c.members.length
      let rlen (p : Party) : Nat := (if p.kind = 1 then np * p.count else p.count) * p.esize
      let sends (p : Party) : Nat := if p.kind = 2 then np * p.count else if p.kind = 3 then (if p.rank = p.root then p.count else 0) else p.count
      let bufs : List (Nat × Nat) := c.parties.map fun p => (p.rbuf, rlen p)
      let words : List (Nat × Nat) := c.parties.map fun p => (p.stat.toNat, 8)
      s.colls[0]? = some c ∧ (∀ p ∈ c.parties, p.Plain s) ∧ PlainMem s ∧ s.MemOk ∧ c.met = met ∧ c.lost = false ∧ (met = true → c.remote ≠ []) ∧
        (∀ p ∈ c.parties, 1 ≤ p.count ∧ 1 ≤ p.efmt ∧ p.efmt ≤ 13 ∧ p.rank < np ∧ RunInHbm p.sbuf (sends p) p.esize ∧
          RunInHbm p.rbuf (rlen p / p.esize) p.esize ∧ RunInHbm p.rbuf (rlen p) 1) ∧
        (∀ p ∈ c.parties, ∀ q ∈ c.parties, (p.efmt, p.op, p.kind, p.count, p.root) = (q.efmt, q.op, q.kind, q.count, q.root)) ∧
        bufs.Pairwise (fun x y => x.1 + x.2 ≤ y.1 ∨ y.1 + y.2 ≤ x.1) ∧ (∀ x ∈ bufs, ∀ y ∈ words, x.1 + x.2 ≤ y.1 ∨ y.1 + y.2 ≤ x.1)) ∧
    (∀ op ∈ [0, 1], let c := meeting 0 0 false
      let s := holding c
      let remote : List Remote := [⟨2, 5, op, 0, 2, 1, [1, 2]⟩]
      let ranks := c.parties.map Party.rank ++ remote.map Remote.rank
      let terms := c.parties.map (fun p => (p.efmt, p.op, p.kind, p.count, p.root)) ++ remote.map fun r => (r.efmt, r.op, r.kind, r.count, r.root)
      c.met = false ∧ ranks.length = 3 ∧ (∀ r < 3, ranks.count r = 1) ∧ (∀ r ∈ remote, c.members.getD r.rank 0 % 256 ≠ s.devnum.toNat) ∧
        (∀ m ∈ c.members, m % 256 = s.devnum.toNat ∨ linkInService s (m % 256) = true) ∧
        ((∀ x ∈ terms, ∀ y ∈ terms, x = y) ↔ op = 0)) ∧
    (let s := holding { meeting 0 0 true with lost := true }
     (∀ p ∈ (meeting 0 0 true).parties, p.Plain s) ∧ PlainMem s ∧ s.MemOk) := by
  unfold Party.Plain PlainMem NoUpdates State.MemOk InHbm RunInHbm; exact ⟨by decide +kernel, by decide +kernel, by decide +kernel⟩

/-- A loop record: POS, KD, slot and generation, MAXPOS, EOS enabled; OUT at 0x6000 and STAT at 0x7000; its draft program's row address
only where it drafts. -/
def loopRec (kd slot gen : Nat) : Nat :=
  7 + 3 * 2 ^ 64 + kd * 2 ^ 132 + 0xBF800000 * 2 ^ 160 + 5 * 2 ^ 192 + (slot + gen * 2 ^ 32) * 2 ^ 256 + 0x100 * 2 ^ 320 +
    (if kd = 0 then 0 else 0x200) * 2 ^ 384 + 0x6000 * 2 ^ 448 + 0x7000 * 2 ^ 512 + 2 * 2 ^ 576 + 2 ^ 608
/-- Slot 1 of partition 0 has generation 40 and the page list at 0xC000: page 0 at 0x20000, with `n` references; a fresh page stands at
0x21000. -/
def slots (x n : Nat) : State :=
  { part0 (fun q => { q with bindings := [(0x8100, 0x20000, 0x80), (0x8180, 0x21000, 0x80)] })
      (poke 0x8100 4 n (poke 0xC000 8 0x20000 (poke 0x9018 8 0xC000 (poke 0x9010 4 40 (poke 0x4000 128 x sup))))) with
    kv := [(0, ⟨0x9000, 8, 0, 5⟩)] }
/-- A loop that has two drafts and the tag of slot 1, in a phase. -/
def loopOf (gen : Nat) (phase : LoopPhase) (stop : Bool := false) : LoopRun :=
  { part := 0, fn := 0, addr := 0x4000, data := BitVec.ofNat 1024 (loopRec 2 1 gen), pos := 7, stop := stop, phase := phase }
def looping (l : LoopRun) (n : Nat := 1) : State := { slots (loopRec 2 1 l.gen) n with loops := [l] }

theorem witness_Loops_start :
    (∀ e ∈ [(loopRec 2 1 40, 40, true), (loopRec 2 1 41, 41, true), (loopRec 9 1 40, 40, false)], let s := slots e.1 1
      let x := s.mem.readLE 0x4000 128
      (s.part 0).ptroot.getLsbD 0 = false ∧ PlainMem s ∧ s.MemOk ∧ (0x4000 : Word).toNat / 128 * 128 < 0x60_0000_0000 ∧
        (s.loops.filter fun y => y.part == 0).length < 64 ∧ InHbm (BitVec.ofNat 64 (bits x 575 512)) 8 ∧
        decide (bits x 131 129 = 0 ∧ bits x 135 132 ≤ 8 ∧ bits x 159 136 = 0 ∧ bits x 639 609 = 0 ∧ bits x 1023 640 = 0 ∧
          logpBad (bits x 191 160) = false ∧ (bits x 135 132 = 0 → bits x 447 384 = 0)) = e.2.2 ∧
        bits x 287 256 = 1 ∧ bits x 319 288 = e.2.1) ∧
    (let s := slots 0 1
     s.TagFits 0 1 40 ∧ s.TagStale 0 1 41 ∧ 0x6000 + 8 ≤ 0x60_0000_0000) ∧
    (let s := { slots 0 1 with loops := List.replicate 64 (loopOf 40 .start) }
     s.plat.minimal = false ∧ ¬ (s.loops.filter fun y => y.part == 0).length < 64 ∧ (s.loops.any fun y => y.part == 0 && y.addr == 0x4000) = true) ∧
    (∀ y ∈ (slots 0 1).loops, y.part = 0 → y.addr ≠ 0x4000) ∧
    (let s := { slots 0 1 with plat := { (slots 0 1).plat with minimal := true } }
     s.plat.minimal = true ∧ PlainMem s ∧ s.MemOk) := by
  unfold PlainMem NoUpdates State.MemOk InHbm State.TagFits State.TagStale
  refine ⟨?_, ?_, ?_, ?_, ?_⟩ <;> decide +kernel

/-- In every phase, and with a stale tag: the loop, its partition and its STAT word. -/
theorem witness_Loops_phase :
    ∀ l ∈ [loopOf 40 .start, loopOf 40 .start true, loopOf 40 (.submit []), loopOf 40 (.submit [0x100]), loopOf 40 .await, loopOf 40 .filter, loopOf 40 (.drain [] [] false),
        loopOf 40 .commit, loopOf 41 .commit], let s := looping l
      s.loops[0]? = some l ∧ l.part = 0 ∧ (s.part 0).halted = false ∧ (s.part 0).ptroot.getLsbD 0 = false ∧ PlainMem s ∧ s.MemOk ∧
        InHbm l.stat 8 ∧ l.kd = 2 ∧ (s.kvRegs 0).base.toNat / 16 * 16 + 16 * l.slot = 0x9010 ∧
        (l.gen = 40 → s.TagFits 0 l.slot l.gen) ∧ (l.gen = 41 → s.TagStale 0 l.slot l.gen) := by
  unfold PlainMem NoUpdates State.MemOk InHbm State.TagFits State.TagStale; decide +kernel

/-- The entries of an iteration, in page 0. -/
def entries : List KvEntry :=
  [⟨true, 7, 0, 0, 8, false⟩, ⟨true, 8, 0, 8, 8, false⟩, ⟨false, 7, 0, 16, 8, false⟩, ⟨false, 8, 0, 24, 8, false⟩, ⟨false, 9, 0, 32, 8, false⟩]
def rowsOf (blocks : List (List BlockAt)) : LoopRows := ⟨2, entries, [(0, 0x21000)], blocks, false, []⟩

theorem witness_Loops_boundary :
    (let l := loopOf 40 .start
     let s := looping l
     let u := looping l 2
     let rows := rowsOf []
     let places : List (Nat × Nat) := [(0x20000, 0x80), (0x21000, 0x80), (0x8100, 4), (0x8180, 4), (0xC000, 8), (0x9010, 16)]
     rows.entries.map (fun e => (e.draft, e.pos)) =
         (if l.behind then [(true, l.pos - 1)] else []) ++ (List.range 2).map (fun j => (true, l.pos + j)) ++
           (List.range 3).map (fun j => (false, l.pos + j)) ∧
       (rows.entries.map KvEntry.page).dedup = [0] ∧ s.pageWordAt 0 l.slot 0 = 0xC000 ∧ s.slotPage 0 l.slot 0 = 0x20000 ∧
       s.pageOf 0 0x20000 = some (0x8100, 0x20000, 0x80) ∧ s.mem.readLE 0x8100 4 ≤ 1 ∧ InHbm (BitVec.ofNat 64 0x8100) 4 ∧
       u.pageWordAt 0 l.slot 0 = 0xC000 ∧ u.slotPage 0 l.slot 0 = 0x20000 ∧ 1 < u.mem.readLE 0x8100 4 ∧
       u.pageOf 0 0x21000 = some (0x8180, 0x21000, 0x80) ∧ InHbm (BitVec.ofNat 64 0xC000) 8 ∧
       (∀ r ∈ places, r.1 + r.2 ≤ 0x60_0000_0000) ∧ (places.Pairwise fun x y => x.1 + x.2 ≤ y.1 ∨ y.1 + y.2 ≤ x.1) ∧
       u.TagFits 0 l.slot l.gen ∧ (looping (loopOf 41 .start) 2).TagStale 0 l.slot 41) := by
  unfold InHbm State.TagFits State.TagStale; decide +kernel

/-- The blocks of a row of 258 columns, and two channels of partition 0 that drain them. -/
def wideRow : List BlockAt := [⟨9, 3, 127, 0, 256, 3, 0x10000, 0xB000⟩, ⟨9, 3, 127, 254, 2, 4, 0x11000, 0xB020⟩]

theorem witness_Loops_submit :
    (∀ en, let s := { looping (loopOf 40 (.submit [0x100])) with tqs := [(4, { TileQ.reset with en := en, base := 0x8000_0000_0000_A000 })] }
      let t := s.tq (4 + 0 % 4)
      t.en = en ∧ (t.tail - t.head).toNat < 2 ^ t.size ∧ InHbm (0x100 : Word) 32 ∧ t.base.getLsbD 63 = true ∧
        bits (s.mem.readLE 0x100 32) 47 0 % 32 = 0 ∧ bits (s.mem.readLE 0x100 32) 47 0 + 32 ≤ 0xA000) ∧
    (∀ x ∈ [0, 1, 2 + 0x0BA * 256], let s := poke 0xB000 8 x (looping { loopOf 40 .await with crecs := [0xB000] })
      InHbm (0xB000 : Word) 8 ∧ s.mem.readLE 0xB000 8 = x) ∧
    (let l := loopOf 40 .filter
     let rows := rowsOf [wideRow]
     l.run < l.kd ∧ rows.blocks.length = 1 ∧ (∀ bs ∈ rows.blocks, bs ≠ []) ∧
       (∀ b ∈ rows.blocks.flatten, b.cluster / 10 = 0 ∧ b.tile < 4 ∧ b.row < 128 ∧ 1 ≤ b.cols ∧ b.col + b.cols ≤ 256 ∧ b.chan < 16 ∧
         b.dst % 16 = 0 ∧ b.dst < 2 ^ 63 ∧ b.crec % 32 = 0 ∧ b.crec ≠ 0 ∧ b.crec < 2 ^ 63) ∧
       (wideRow.dropLast.all fun b => b.cols == 256) = true ∧
       (rows.blocks.flatten.flatMap fun b => [(b.dst, blockList), (b.crec, 32)]).Pairwise (fun x y => x.1 + x.2 ≤ y.1 ∨ y.1 + y.2 ≤ x.1) ∧
       (rowsOf []).blocks.length ≠ 1) := by
  unfold InHbm; decide +kernel

/-- A block to start, one whose record has come, and one whose channel is busy with none to wait for. -/
theorem witness_Loops_drain :
    let b := wideRow.headD ⟨0, 0, 0, 0, 0, 0, 0, 0⟩
    (let s := looping (loopOf 40 (.drain [(0, b)] [] false))
     (s.chan 0 b.chan).st = .idle ∧ InHbm (BitVec.ofNat 64 b.crec) 32 ∧ b.crec < 2 ^ 64 ∧ b.dst % 16 = 0 ∧ b.dst + blockList ≤ 0x60_0000_0000) ∧
    (∀ x ∈ [0, 1, 2 + 0x0BA * 256], let s := poke b.crec 8 x (looping (loopOf 40 (.drain [] [(0, b)] false)))
      (([] : List (Nat × BlockAt)).head? = none) ∧ InHbm (BitVec.ofNat 64 b.crec) 8 ∧ s.mem.readLE b.crec 8 = x) ∧
    (let s := running copyRec 0 0 0 (looping (loopOf 40 (.drain [(0, b)] [] false)))
     (s.chan 0 b.chan).st ≠ .idle) := by
  unfold InHbm; decide +kernel

/-- The entries lie in page 0, whose count and bytes are all a discard may change. -/
theorem witness_Loops_commit :
    let l : LoopRun := { loopOf 40 .commit with
      rows := [[0, 0x40000000], [0], [0, 0x40000000], [0, 0], [0]], entries := entries, pages := [(0x20000, 0x80)] }
    let s := looping l
    let places : List (Nat × Nat) := [(l.out + 4 * l.pos, 4 * (l.kd + 1)), (0x9014, 4), (l.addr.toNat + 8, 8), (l.stat.toNat, 8)]
    l.rows.length = 2 * l.kd + 1 ∧ l.ratio = false ∧ RunInHbm (l.out + 4 * l.pos) (l.kd + 1) 4 ∧ InHbm (l.addr + 8) 8 ∧
      l.addr.toNat + 8 < 2 ^ 64 ∧ (places.Pairwise fun x y => x.1 + x.2 ≤ y.1 ∨ y.1 + y.2 ≤ x.1) ∧
      (∀ r ∈ l.spoils s, r.1 + r.2 ≤ 0x60_0000_0000) ∧ (0x8100, 4) ∈ l.spoils s := by
  unfold InHbm RunInHbm; decide +kernel

/-! ### Partition swap, resets, the platform -/

/-- Operation `op` of PSWAP on partition 0 is under way. -/
def swapping (op : Nat) (spill : Bool) (shadow : Option PartCtx) : State :=
  { sup with dies := [(0, { pswap := BitVec.ofNat 64 (0x8000 + op * 256 + (if spill then 0x800 + 0x10000 else 0)), ran := false, shadow := shadow })] }

theorem witness_PartitionSwap :
    (∀ op ∈ [1, 2, 3, 4], (swapping op false none).Due op 0) ∧ (swapping 4 false none).plat.limit ≠ 3 ∧
    (let s := { swapping 4 false none with plat := { sup.plat with limit := 3 } }
     s.Due 4 0 ∧ s.plat.limit = 3) ∧
    (let s := thr (fun t => { t with mmaRun := [(0, false)] }) (swapping 2 false none)
     s.LivesIn 0 0 ∧ saveWaits s 0 ≠ none) ∧
    (let s := swapping 2 true none
     s.Due 2 0 ∧ s.coherent = true ∧ NoUpdates s ∧ (∀ k ∈ s.liveKeys, s.LivesIn 0 k → saveWaits s k = none) ∧ ((s.die 0).pswap.getLsbD 11 = true) ∧
       (s.die 0).pswap.toNat / 65536 * 65536 < 0x60_0000_0000) ∧
    (let s := swapping 3 false (some (partCtx 0 sup))
     s.Due 3 0 ∧ (s.die 0).pswap.getLsbD 11 = false ∧ s.MemOk ∧ sup.MemOk ∧ (s.die 0).shadow = some (partCtx 0 sup) ∧ sup.LivesIn 0 0) ∧
    (let s := { swapping 1 false none with dies := [(0, { pswap := 0x8100, ran := true, shadow := none })] }
     (s.die 0).pswap.getLsbD 15 = true ∧ (s.die 0).ran = true ∧ ∀ c < 40, (s.core c).stopped = 0xFF) := by
  unfold State.Due State.LivesIn NoUpdates State.MemOk
  refine ⟨?_, ?_, ?_, ?_, ?_, ?_, ?_⟩ <;> decide +kernel

/-- A tile instruction of partition 0 that runs when the partition is killed. -/
def killed (op : Nat) : State :=
  { swapping op false none with
    decs := [(decKey 2 0, { queue := [], running := [{ ending [] [] none [] with job := { job 0x0E 2 0x400 0 0 with sub := .queue 16, phys := false } }] })] }

theorem witness_PartitionKill :
    (swapping 5 false none).Due 5 0 ∧ (swapping 5 false none).coherent = true ∧ NoUpdates (swapping 5 false none) ∧
      (swapping 5 false none).MemOk ∧ (swapping 5 false none).EnginesIdle 0 := by
  unfold State.Due State.MemOk NoUpdates State.EnginesIdle; decide +kernel

theorem witness_PartitionKill_running :
    let s := killed 5
    let r := (s.dec (decKey 2 0)).running.headD (ending [] [] none [])
    (s.Due 5 0 ∧ r.job.Plain s ∧ PlainMem s) ∧ s.decs = [(decKey 2 0, s.dec (decKey 2 0))] ∧ (s.dec (decKey 2 0)).running = [r] ∧
      (r.job.ofPart 0 = true ∧ InHbm r.job.crec 32 ∧ r.lost = [] ∧ r.leaves = []) ∧
      (r.softDescs (r.job.who (unitCluster 2 0)) s).descs.isEmpty = true ∧
      (∀ n < 16, (s.chan 0 n).st ≠ .running) ∧ s.colls = [] ∧ s.zjobs = [] := by
  refine ⟨?_, by decide +kernel, by decide +kernel, ?_, by decide +kernel, by decide +kernel⟩
  · unfold State.Due PlainMem NoUpdates TileJob.Plain; decide +kernel
  · unfold InHbm; decide +kernel

/-- The shipped images are signed with the fused key; the card has the units of R21; without its hub image, without the others, with a
higher rollback counter, or with no FEAT bits it would not start; nor, but in minimal mode, after three failed starts. -/
theorem witness_StartAndReset :
    (∀ i ∈ Platform.reset.images, i.header.length = 128 ∧ sha384 (keyBytes i.key) = Platform.reset.keyHash ∧
      ecdsaOk i.key i.sig (i.header ++ i.body) = true) ∧
    (Platform.reset.images.map Image.kind = [0, 1, 2] ∧ (∀ i ∈ Platform.reset.images, Platform.reset.rollback ≤ i.version) ∧
      (∀ i ∈ Platform.reset.images, i.version < Platform.reset.rollback + 2) ∧ Platform.reset.staged.isEmpty = true ∧ Platform.reset.fails = 0) ∧
    (let s := { State.reset with cores := (List.range 17).map fun c => (c, { Core.reset with feat := 0 }) }
     156 * 4 ≤ featCount State.reset 3 ∧ (∀ b ∈ [0, 1, 2, 4, 5, 6], 632 ≤ featCount State.reset b) ∧ featCount s 3 < 156 * 4) ∧
    (State.reset.plat.devready = false ∧ State.reset.plat.started = false ∧ State.reset.plat.minimal = false) ∧
    ((sup.thread 0).live = true ∧ (sup.thread 0).part < 16) := by
  refine ⟨?_, ?_, ?_, ?_, ?_⟩ <;> decide +kernel

/-- The last bank of the last cluster in FIFO mode, and the last granule of its storage. -/
theorem witness_Errors :
    (sup.thread 0).live = true ∧ sup.poison.Pairwise (fun x y => x.1 < y.1) ∧
    ({ sup with poison := [(0, 5), (2 ^ 40, 6)] } : State).poison.Pairwise (fun x y => x.1 < y.1) ∧ 128 * 0 < 0x60_0000_0000 ∧
    sup.matrixLeaf 0 = none ∧ isFabric 0 = false ∧
    (swapping 1 false (some (partCtx 0 sup))).dies.length = 1 ∧ ((swapping 1 false (some (partCtx 0 sup))).die 0).shadow = some (partCtx 0 sup) ∧
    (let s := sup.setCluster 159 { Cluster.reset with banks := Cluster.reset.banks.set 15 { Bank.reset with mode := 2 } }
     windowBase + 0x40_0000 * 159 + 0x2_0000 * 15 + 0x1_FFE0 < windowBase + 0x40_0000 * 160 ∧
       ((s.cluster 159).banks.getD 15 Bank.reset).mode = 2) ∧
    (∀ c < 160, ∀ b < 16, ((sup.cluster c).banks.getD b Bank.reset).mode ≠ 2) := by
  decide +kernel

/-- The last eight bytes of HBM, and a register, over PCI Express and over a link. -/
theorem witness_HostAndPeers :
    (let s := { sup with plat := { sup.plat with pcieUp := true }, linken := 1, linkUp := 1 }
     PlainMem s ∧ s.plat.pcieUp = true ∧ s.plat.minimal = false ∧ 0x5F_FFFF_FFF8 + 8 ≤ 0x60_0000_0000 ∧ s.linkUp &&& s.linken ≠ 0 ∧ 0x2000 % 8 = 0) ∧
    (let s := { sup with plat := { sup.plat with pcieUp := false, minimal := true } }
     PlainMem s ∧ s.plat.pcieUp = false ∧ s.plat.minimal = true ∧ { s.plat with pcieUp := true }.minimal = true ∧ s.linkUp &&& s.linken = 0) ∧
    (1 : Nat).testBit (8 * 8) = false ∧ (0x1_0000_0000_0000_0001 : Nat).testBit (8 * 8) = true := by
  unfold PlainMem NoUpdates; decide +kernel

/-! ### The machine as a whole -/

/-- A queue's head, an instruction at hand, and a card with nothing at hand that still has a move. -/
theorem witness_StepRunsDecoded :
    (let s := poke 0x1_0000 8 0x408A_3000_FFFF_FFF8 sup
     s.chosen = .thread none ∧ s.th.live = true ∧ Quiet s ∧ InHbm s.th.pc 8 ∧ decodeWord (BitVec.ofNat 64 (s.bytes s.th.pc 8)) =
       .ok (.add { unpackI 0 with d := 5, a := 6, imm := some 0xFFFF_FFF8 }) ∧
       (s.core s.th.coreNo).icache.find (s.th.pc.toNat / 8) = none) ∧
    (decodeIn sup (BitVec.ofNat 64 (sup.bytes sup.th.pc 8)) = .error .reservedOp ∧ sup.th.resume = none) ∧
    (let s := accepting copyTile [srcDesc 3, dstDesc]
     s.chosen = .tile (decKey 1 0) ∧ (s.dec (decKey 1 0)).queue = job 0x05 1 0x400 0x440 0 :: []) ∧
    (let s := { State.reset with agenda := [.linkRetrain] }
     s.chosen = .none ∧ s.agenda = .linkRetrain :: []) ∧
    ({ sup with chosen := .cut }.chosen = .cut ∧ { sup with chosen := .cut }.th.live = true) ∧
    (∀ c u, ({ sup with chosen := .probe 0 [1] u } : State).chosen ≠ .thread c) ∧
    (State.reset.chosen = .none ∧ State.reset.agenda = [] ∧ (moves State.reset).isEmpty = false) := by
  unfold Quiet Still NoUpdates InHbm
  refine ⟨?_, ?_, ?_, ?_, ?_, nofun, ?_⟩ <;> decide +kernel

theorem witness_StepKeeps : State.reset.MemOk ∧ goes (step { State.reset with agenda := [.linkRetrain] }) = true := by
  unfold State.MemOk; decide +kernel

end Sys2Proof.Tests
end

section
/-! SUPPORT. What one write in plain HBM, one poisoned flit and one lost link do: the rules the host's and the peers' accesses rest on
(spec/03 R51, spec/12 R390, spec/21 R376, R377, spec/18 R338). -/

namespace Sys2Proof.Machine

/-! ### Storage that is plain (R51, R60, R89) -/

theorem isHost_of_le_hbmEnd {pa : Nat} (h : pa ≤ hbmEnd) : isHost pa = false := by
  unfold hbmEnd at h
  simp only [isHost, Bool.and_eq_false_iff, decide_eq_false_iff_not]
  left; unfold hostBase; omega

theorem isFabric_of_le_hbmEnd {pa : Nat} (h : pa ≤ hbmEnd) : isFabric pa = false := by
  unfold hbmEnd at h
  simp only [isFabric, decide_eq_false_iff_not]
  unfold fabricBase; omega

theorem State.settle_of_coherent {s : State} (h : s.coherent = true) (pa n : Nat) : s.settle pa n = s := if_pos h

theorem sendOut_of_not_fabric {pa : Nat} (h : isFabric pa = false) (n : Nat) (s : State) : sendOut pa n s = s := by simp [sendOut, h]

theorem spoilUnseen_of_none {s : State} (h : s.unseen = []) (pa n : Nat) : spoilUnseen pa n s = s := by simp only [spoilUnseen, h]

/-- A collective once `n` bytes at `pa` were written: its participants note it (R89). -/
def Coll.written (pa n : Nat) (c : Coll) : Coll := { c with parties := c.parties.map fun p => p.written pa n }

theorem Coll.unmarked_written (pa n : Nat) (c : Coll) : (c.written pa n).unmarked = c.unmarked := by
  simp [Coll.written, Coll.unmarked, Party.written]

theorem Coll.map_unmarked_written (pa n : Nat) (l : List Coll) : (l.map (Coll.written pa n)).map Coll.unmarked = l.map Coll.unmarked := by
  simp [Coll.unmarked_written]

theorem State.wrMem_of_noFrames {s : State} (h : s.frames = []) (pa v n : Nat) :
    s.wrMem pa v n = { s with mem := s.mem.writeLE pa v n } := by simp only [State.wrMem, h]

/-- What a write to plain storage does: the bytes, and a note in the collectives. -/
theorem State.putBytes_of_plain {s : State} (h : PlainMem s) (pa n v : Nat) :
    s.putBytes pa n v = { s with mem := s.mem.writeLE pa v n, colls := s.colls.map (Coll.written pa n) } := by
  obtain ⟨hp, hf, -, -, hu, hm⟩ := h
  simp only [State.putBytes, State.wrMem_of_noFrames hf]
  rw [spoilUnseen_of_none (by exact hu)]
  congr 1
  · exact (List.map_congr_left fun e he => by simp only [hm e he, id]).trans (List.map_id _)
  · simp only [clearPoison, hp, List.filter_nil]

/-- A write at the home of bytes of plain HBM. -/
theorem physWrite_of_plain {s : State} (h : PlainMem s) {pa n : Nat} (hn : pa + n ≤ hbmEnd) (v : Nat) :
    physWrite s pa n v = { s with mem := s.mem.writeLE pa v n, colls := s.colls.map (Coll.written pa n) } := by
  have hpa : pa ≤ hbmEnd := by omega
  obtain ⟨-, -, hc, hu, -⟩ := id h
  simp only [physWrite, putHome, recallRange_of_noUpdates hu, isHost_of_le_hbmEnd hpa, Bool.and_false, Bool.false_eq_true, if_false,
    State.settle_of_coherent hc, State.putBytes_of_plain h, sendOut_of_not_fabric (isFabric_of_le_hbmEnd hpa)]

/-- The home of plain storage holds what memory holds. -/
theorem State.rdHome_of_plain {s : State} (h : PlainMem s) (pa n : Nat) : s.rdHome pa n = s.mem.readLE pa n := by
  obtain ⟨-, hf, hc, -⟩ := h
  have hl : s.late = [] := by
    simp only [State.coherent, Bool.and_eq_true, List.isEmpty_iff] at hc
    exact hc.1
  simp only [State.rdHome, State.rdMem, hl, hf]

/-- A read of plain HBM returns its bytes, unpoisoned. -/
theorem answerHbm_of_plain {s : State} (h : PlainMem s) {pa : Nat} (hpa : pa ≤ hbmEnd) (n : Nat) :
    answerHbm pa n s = s.answer (s.mem.readLE pa n) false := by
  obtain ⟨hp, -, -, hu, -⟩ := id h
  have hnone : poisonAt s pa n = none := by simp [poisonAt, isHost_of_le_hbmEnd hpa, hp]
  simp only [answerHbm, physRead, hnone, recallRange_of_noUpdates hu, State.rdHome_of_plain h, Option.isSome_none]

/-- What an outcome that writes plain HBM says of the state after it. -/
theorem physWrite_next {s : State} (hp : PlainMem s) {off n : Nat} (hn : off + n ≤ hbmEnd) (v : Nat) :
    ∃ u : State, Host.Outcome.next (physWrite s off n v) = (.next u : Out) ∧
      u = { s with mem := s.mem.writeLE off v n, colls := u.colls } ∧ u.colls.map Coll.unmarked = s.colls.map Coll.unmarked := by
  rw [physWrite_of_plain hp hn]
  exact ⟨_, rfl, rfl, Coll.map_unmarked_written off n s.colls⟩

/-! ### Poison that arrives (R376, R377) -/

theorem mem_setPoison {ps : Poison} {g d : Nat} {x : Nat × Nat} (h : x ∈ setPoison ps g d) : x = (g, d) ∨ x ∈ ps := by
  induction ps with
  | nil => simpa [setPoison] using h
  | cons e r ih =>
    simp only [setPoison] at h
    split_ifs at h with h1 h2
    · exact .inr h
    · simpa using h
    · rcases List.mem_cons.mp h with rfl | hr
      · exact .inr List.mem_cons_self
      · exact (ih hr).imp_right (List.mem_cons_of_mem _)

/-- The list of poisoned granules stays in rising order. -/
theorem setPoison_sorted {ps : Poison} (h : ps.Pairwise fun x y => x.1 < y.1) (g d : Nat) :
    (setPoison ps g d).Pairwise fun x y => x.1 < y.1 := by
  induction ps with
  | nil => simp [setPoison]
  | cons e r ih =>
    obtain ⟨hlt, hr⟩ := List.pairwise_cons.mp h
    simp only [setPoison]
    split_ifs with h1 h2
    · exact h
    · refine List.pairwise_cons.mpr ⟨fun x hx => ?_, h⟩
      rcases List.mem_cons.mp hx with rfl | hx
      · exact h2
      · exact h2.trans (hlt x hx)
    · refine List.pairwise_cons.mpr ⟨fun x hx => ?_, ih hr⟩
      rcases mem_setPoison hx with rfl | hx
      · show e.1 < g
        omega
      · exact hlt x hx

/-- The Detail of a granule is its entry in the table of poison. -/
theorem State.detail_eq_find (s : State) (k : Nat) : s.detail k = Table.find s.poison k := by
  unfold State.detail
  induction s.poison with
  | nil => rfl
  | cons e r ih => by_cases he : e.1 = k <;> simp [Table.find, he, ih]

theorem Table.find_eq_none {α : Type} {t : Table α} {k : Nat} (h : ∀ x ∈ t, x.1 ≠ k) : t.find k = none := by
  induction t with
  | nil => rfl
  | cons e r ih =>
    simp only [Table.find, if_neg (h e List.mem_cons_self), ih fun x hx => h x (List.mem_cons_of_mem _ hx)]

/-- The granule poisoned keeps the Detail first recorded; no other changes. -/
theorem find_setPoison {ps : Poison} (h : ps.Pairwise fun x y => x.1 < y.1) (g d k : Nat) :
    Table.find (setPoison ps g d) k = if k = g then some ((Table.find ps g).getD d) else Table.find ps k := by
  induction ps with
  | nil => simp [setPoison, Table.find, eq_comm]
  | cons e r ih =>
    obtain ⟨hlt, hr⟩ := List.pairwise_cons.mp h
    simp only [setPoison]
    split
    · next h1 =>
      by_cases hk : k = g
      · simp [Table.find, hk, h1]
      · simp [hk]
    · next h1 =>
      split
      · next h2 =>
        have hnone : Table.find (e :: r) g = none := Table.find_eq_none fun x hx => by
          rcases List.mem_cons.mp hx with rfl | hx
          · exact Ne.symm h1
          · have := hlt x hx
            omega
        by_cases hk : k = g
        · rw [if_pos hk, hnone, hk]
          simp [Table.find]
        · rw [if_neg hk, Table.find, if_neg (Ne.symm hk)]
      · simp only [Table.find, ih hr, if_neg (Ne.symm h1)]
        by_cases he : e.1 = k
        · have : k ≠ g := fun hk => h1 (hk ▸ he.symm)
          simp [he, this]
        · simp [he]

/-- An error is counted and logged; nothing but the log changes. -/
theorem logUe_eq (d addr : Nat) (part : Option Nat) (unit : Nat) (s : State) :
    logUe d addr part unit s = { s with log := (logUe d addr part unit s).log } := by
  unfold logUe logError
  dsimp only
  split <;> rfl

/-- A granule that arrives poisoned: nothing but its poison and the log changes. -/
theorem arriveBad_eq (s : State) (g : Nat) :
    arriveBad s g = { s with poison := setPoison s.poison g 7, log := (arriveBad s g).log } :=
  logUe_eq ..

/-- Granules that arrive poisoned: what they leave, and the Detail of each granule afterwards. -/
theorem foldl_arriveBad (gs : List Nat) (s : State) (h : s.poison.Pairwise fun x y => x.1 < y.1) :
    (gs.foldl arriveBad s).mem = s.mem ∧ (gs.foldl arriveBad s).th = s.th ∧
      ∀ k, (gs.foldl arriveBad s).detail k = if k ∈ gs then some ((s.detail k).getD 7) else s.detail k := by
  induction gs generalizing s with
  | nil => simp
  | cons g gs ih =>
    have hb := arriveBad_eq s g
    have hp : (arriveBad s g).poison = setPoison s.poison g 7 := by rw [hb]
    obtain ⟨hm, ht, hd⟩ := ih (arriveBad s g) (by rw [hp]; exact setPoison_sorted h g 7)
    refine ⟨hm.trans (by rw [hb]), ht.trans (by rw [hb]), fun k => ?_⟩
    have hk : (arriveBad s g).detail k = if k = g then some ((s.detail k).getD 7) else s.detail k := by
      rw [State.detail_eq_find, hp, find_setPoison h, State.detail_eq_find]
      split
      · next hk => rw [hk]
      · rfl
    rw [List.foldl_cons, hd, hk]
    by_cases h1 : k = g <;> by_cases h2 : k ∈ gs <;> simp [h1, h2]

theorem mem_granulesOf {pa n g : Nat} (hn : 0 < n) : g ∈ granulesOf pa n ↔ pa / 32 ≤ g ∧ g ≤ (pa + n - 1) / 32 := by
  simp only [granulesOf, List.mem_map, List.mem_range]
  constructor
  · rintro ⟨k, hk, rfl⟩
    omega
  · rintro ⟨h1, h2⟩
    exact ⟨g - pa / 32, by omega, by omega⟩

/-! ### Links and tile queues (R334, R338, R390) -/

/-- A collective that has met is lost where a member lies beyond a link that is out of service. -/
theorem loseColls_eq (s : State) : loseColls s = { s with colls := s.colls.map fun c => { c with
    lost := c.lost || c.met && c.members.any fun m => m % 256 != s.devnum.toNat && !linkInService s (m % 256) } } := by
  simp only [loseColls, Coll.linked, List.not_all_eq_any_not, Bool.not_or, bne]

theorem writeTq_tq (q off : Nat) (v : Word) (s : State) (k : Nat) :
    (writeTq q off v s).tq k = if k = q then tqWrite (s.tq q) off v.toNat else s.tq k := by
  unfold writeTq State.tq
  split
  · next hk => rw [hk, Table.get_set_same]
  · next hk => rw [Table.get_set_other _ _ _ hk]

/-- Clearing the low `k` bits of a word, as a division and as a mask. -/
theorem ofNat_div_mul_two_pow (v : Word) (k : Nat) :
    BitVec.ofNat 64 (v.toNat / 2 ^ k * 2 ^ k) = v &&& ~~~(BitVec.ofNat 64 (2 ^ k - 1)) := by
  refine BitVec.eq_of_getLsbD_eq fun i hi => ?_
  simp only [BitVec.getLsbD_ofNat, BitVec.getLsbD_and, BitVec.getLsbD_not, Nat.testBit_mul_two_pow, Nat.testBit_div_two_pow,
    Nat.testBit_two_pow_sub_one, BitVec.testBit_toNat, hi, decide_true, Bool.true_and]
  by_cases hk : k ≤ i
  · simp [hk, Nat.not_lt.mpr hk]
  · simp [hk, Nat.not_le.mp hk]

end Sys2Proof.Machine
end

section
/-! SUPPORT. What a write to each register of the host's BAR0 does (spec/18 R333, R334, R337, R342, spec/03 R67, spec/21 R379, spec/22
R392, spec/24 R404). -/

namespace Sys2Proof.Machine

/-! ### Which register an offset names (R333, R404) -/

/-- An offset of the device block outside the loop ports. -/
def InDevice (off : Nat) : Prop := off < 0x6000 ∨ 0x6400 ≤ off ∧ off < 0x10_0000

theorem InDevice.of_lt {off : Nat} (h : off < 0x6000) : InDevice off := .inl h

/-- Outside the loop ports and the dies' blocks a write goes on in minimal mode too. -/
theorem heldOffset_false {off : Nat} (h : (off < 0x6000 ∨ 0x6400 ≤ off) ∧ (off < 0x10_0000 ∨ 0x30_0000 ≤ off)) :
    (decide (0x6000 ≤ off) && decide (off < 0x6400) || decide (0x10_0000 ≤ off) && decide (off < 0x30_0000)) = false := by
  simp only [Bool.or_eq_false_iff, Bool.and_eq_false_iff, decide_eq_false_iff_not]
  omega

theorem registerWrite_device {off : Nat} (h : InDevice off) (v : Word) (s : State) :
    exec (.registerWrite 0 off v) s = .next (deviceWrite off v s) := by
  unfold InDevice at h
  show Host.Outcome.next (bar0Write 0 off v s) = _
  simp only [bar0Write, if_true, heldOffset_false (off := off) (by omega), Bool.and_false, Bool.false_eq_true, if_false,
    if_pos (show off < 0x10_0000 by omega)]

/-- The loop ports: held in reset in minimal mode (R404). -/
theorem registerWrite_port {off : Nat} (h1 : 0x6000 ≤ off) (h2 : off < 0x6400) (v : Word) (s : State) :
    exec (.registerWrite 0 off v) s = .next (if s.plat.minimal then s else deviceWrite off v s) := by
  show Host.Outcome.next (bar0Write 0 off v s) = _
  simp only [bar0Write, if_true, h1, h2, decide_true, Bool.and_self, Bool.true_or, Bool.and_true, if_pos (show off < 0x10_0000 by omega)]

/-- A format region's register in its die's block: 64 bytes for each region from 0x1000 on (R67). -/
theorem regionOffset_fields {r off : Nat} (hr : r < 64) (ho : off < 64) :
    let o := 0x1000 + 0x40 * r + off
    (0x1000 ≤ o ∧ o < 0x2000) ∧ (o - 0x1000) / 0x40 = r ∧ o % 0x40 = off := by
  intro o; omega

/-- An offset in the block of a die. -/
theorem bar0Write_die {die o : Nat} (hd : die < 2) (ho : o < 0x10_0000) (v : Word) (s : State) :
    bar0Write 0 (0x10_0000 * (die + 1) + o) v s = if s.plat.minimal then s
      else if 0x1000 ≤ o ∧ o < 0x2000 then writeRegion die ((o - 0x1000) / 0x40) (o % 0x40) v s else s := by
  generalize ha : 0x10_0000 * (die + 1) + o = a
  have h3 : (a - 0x10_0000) / 0x10_0000 = die := by omega
  have h4 : a % 0x10_0000 = o := by omega
  have h1 : ¬ a < 0x10_0000 := by omega
  have h2 : a < 0x30_0000 := by omega
  have held : (decide (0x6000 ≤ a) && decide (a < 0x6400) || decide (0x10_0000 ≤ a) && decide (a < 0x30_0000)) = true := by
    simp only [Bool.or_eq_true, Bool.and_eq_true, decide_eq_true_eq]
    omega
  simp only [bar0Write, if_true, held, Bool.and_true, if_neg h1, if_pos h2, h3, h4]

/-- The format regions of a die. -/
theorem registerWrite_region {die r off : Nat} (hd : die < 2) (hr : r < 64) (ho : off < 64) (v : Word) (s : State) :
    exec (.registerWrite 0 (0x10_0000 * (die + 1) + 0x1000 + 0x40 * r + off) v) s = exec (.formatRegionWrite die r off v) s := by
  obtain ⟨hin, hr', ho'⟩ := regionOffset_fields hr ho
  show Host.Outcome.next (bar0Write 0 _ v s) = .next (if s.plat.minimal then s else writeRegion die r off v s)
  rw [show 0x10_0000 * (die + 1) + 0x1000 + 0x40 * r + off = 0x10_0000 * (die + 1) + (0x1000 + 0x40 * r + off) by omega,
    bar0Write_die hd (by omega), if_pos hin, hr', ho']

/-- The tile queues of the physical function. -/
theorem registerWrite_tq {q off : Nat} (hq : q < 8) (ho : off < 0x1000) (v : Word) (s : State) :
    exec (.registerWrite 0 (0x200_0000 + 0x1000 * q + off) v) s = .next (writeTq q off v s) := by
  show Host.Outcome.next (bar0Write 0 _ v s) = _
  generalize ha : 0x200_0000 + 0x1000 * q + off = a
  have h1 : (a - 0x200_0000) / 0x1000 = q := by omega
  have h2 : a % 0x1000 = off := by omega
  simp only [bar0Write, if_true, heldOffset_false (off := a) (by omega), Bool.and_false, Bool.false_eq_true, if_false,
    if_neg (show ¬ a < 0x10_0000 by omega), if_neg (show ¬ a < 0x30_0000 by omega),
    if_pos (show 0x200_0000 ≤ a ∧ a < 0x200_8000 by omega), h1, h2]

/-- The tile queue of a virtual function. -/
theorem registerWrite_vfTq {fn off : Nat} (h1 : 1 ≤ fn) (h2 : fn ≤ 16) (ho : off < 0x1000) (v : Word) {s : State}
    (hm : s.plat.minimal = false) : exec (.registerWrite fn off v) s = .next (writeTq (15 + fn) off v s) := by
  show Host.Outcome.next (bar0Write fn off v s) = _
  simp only [bar0Write, if_neg (show fn ≠ 0 by omega), hm, Bool.false_or, decide_eq_true_eq, if_neg (show ¬ 16 < fn by omega), ho,
    if_true]

/-- Only the physical function exists in minimal mode (R404). -/
theorem registerWrite_vf_minimal {fn : Nat} (h1 : 1 ≤ fn) (off : Nat) (v : Word) {s : State} (hm : s.plat.minimal = true) :
    exec (.registerWrite fn off v) s = .next s := by
  show Host.Outcome.next (bar0Write fn off v s) = _
  simp only [bar0Write, if_neg (show fn ≠ 0 by omega), hm, Bool.true_or, if_true]

/-- The offset past the blocks of the dies holds no register. -/
theorem registerWrite_none (v : Word) (s : State) : exec (.registerWrite 0 0x30_0000 v) s = .next s := by
  show Host.Outcome.next (bar0Write 0 0x30_0000 v s) = _
  simp [bar0Write]

/-! ### The device block -/

theorem deviceWrite_route {d : Nat} (hd : d < 128) (v : Word) (s : State) :
    deviceWrite (0x0100 + 8 * d) v s = loseColls { s with route := s.route.set d (v.toNat % 8) } := by
  have h : (0x0100 + 8 * d - 0x0100) / 8 = d := by omega
  simp (disch := omega) only [deviceWrite, if_neg, if_pos, Bool.and_eq_true, decide_eq_true_eq, beq_iff_eq, h]

theorem deviceWrite_bud {k : Nat} (hk : k < 7) (v : Word) (s : State) : deviceWrite (0x1800 + 8 * k) v s = writeBud k v s := by
  have h : (0x1800 + 8 * k - 0x1800) / 8 = k := by omega
  simp (disch := omega) only [deviceWrite, if_neg, if_pos, Bool.and_eq_true, decide_eq_true_eq, beq_iff_eq, h]

theorem deviceWrite_port {p off : Nat} (hp : p < 16) (ho : off < 64) (h8 : off % 8 = 0) (v : Word) (s : State) :
    deviceWrite (0x6000 + 64 * p + off) v s = portWrite 0 p off v s := by
  have h1 : (0x6000 + 64 * p + off - 0x6000) / 64 = p := by omega
  have h2 : (0x6000 + 64 * p + off) % 64 = off := by omega
  simp (disch := omega) only [deviceWrite, if_neg, if_pos, Bool.and_eq_true, decide_eq_true_eq, beq_iff_eq, h1, h2]

/-- The slot registers of a partition as a write to one of them leaves them (R392). -/
def KvRegs.write (k : KvRegs) (off : Nat) (v : Word) : KvRegs :=
  if off = 0 then { k with base := masked v 0xFFFF_FFFF_FFFF_FFF0 }
  else if off = 8 then { k with count := v.setWidth 32 }
  else if off = 16 then { k with drops := v.setWidth 32 } else k

theorem deviceWrite_kv {p off : Nat} (hp : p < 16) (ho : off < 32) (h8 : off % 8 = 0) (v : Word) (s : State) :
    deviceWrite (0x3000 + 32 * p + off) v s = { s with kv := s.kv.set p ((s.kvRegs p).write off v) } := by
  have h1 : (0x3000 + 32 * p + off - 0x3000) / 32 = p := by omega
  have h2 : (0x3000 + 32 * p + off - 0x3000) % 32 = off := by omega
  simp (disch := omega) only [deviceWrite, if_neg, if_pos, Bool.and_eq_true, decide_eq_true_eq, beq_iff_eq, h1]
  rw [h2]; rfl

/-- Offsets of the device block that hold a read-only register or none: DEVREADY and THERM; the overruns and the counts; the log's
entries; FEAT; what lies past the loop ports. -/
def ReadOnly (off : Nat) : Prop :=
  off = 0x0010 ∨ off = 0x0020 ∨ 0x1838 ≤ off ∧ off < 0x2008 ∨ 0x2018 ≤ off ∧ off < 0x3000 ∨ 0x3200 ≤ off ∧ off < 0x6000 ∨
    0x6400 ≤ off ∧ off < 0x10_0000

theorem deviceWrite_readOnly {off : Nat} (h : ReadOnly off) (v : Word) (s : State) : deviceWrite off v s = s := by
  unfold ReadOnly at h
  simp (disch := omega) only [deviceWrite, if_neg, Bool.and_eq_true, decide_eq_true_eq, beq_iff_eq]

/-- Starting and stopping loops always answer. -/
theorem execLpgo_next (fn p : Nat) (v : Word) (s : State) : execLpgo fn p v s = .next (outState s (execLpgo fn p v s)) := by
  unfold execLpgo
  dsimp only
  split
  · rfl
  · split
    · rfl
    · split
      · split
        · rfl
        · split <;> rfl
      · rfl

theorem execLpstop_next (fn p : Nat) (v : Word) (s : State) : execLpstop fn p v s = .next (outState s (execLpstop fn p v s)) := by
  unfold execLpstop
  dsimp only
  split <;> rfl

/-! ### Register writes as the host makes them -/

theorem registerWrite_devnum (v : Word) (s : State) : exec (.registerWrite 0 0x0000 v) s =
    .next (if 0x80 ≤ v.toNat % 256 then { s with devnum := v.setWidth 8 } else s) :=
  registerWrite_device (.of_lt (by omega)) v s

theorem registerWrite_linken (v : Word) (s : State) :
    exec (.registerWrite 0 0x0008 v) s = .next (loseColls { s with linken := v.setWidth 8 }) :=
  registerWrite_device (.of_lt (by omega)) v s

theorem registerWrite_start (v : Word) (s : State) : exec (.registerWrite 0 0x0018 v) s =
    .next { s with plat := { s.plat with linkLost := s.plat.linkLost && !v.getLsbD 1 } } :=
  registerWrite_device (.of_lt (by omega)) v s

theorem registerWrite_route (v : Word) (s : State) {d : Nat} (hd : d < 128) : exec (.registerWrite 0 (0x0100 + 8 * d) v) s =
    .next (loseColls { s with route := s.route.set d (v.toNat % 8) }) := by
  rw [registerWrite_device (.of_lt (by omega)), deviceWrite_route hd]

theorem registerWrite_bud (v : Word) (s : State) {k : Nat} (hk : k < 7) :
    exec (.registerWrite 0 (0x1800 + 8 * k) v) s = exec (.budWrite k v) s := by
  rw [registerWrite_device (.of_lt (by omega)), deviceWrite_bud hk]
  rfl

theorem ofNat_bits_ack (v : Word) : BitVec.ofNat 16 (bits v.toNat 31 16) = (v >>> 16).setWidth 16 :=
  BitVec.eq_of_toNat_eq (by simp [bits])

theorem registerWrite_logAck (v : Word) (s : State) :
    exec (.registerWrite 0 0x2008 v) s = .next { s with log := { s.log with ack := (v >>> 16).setWidth 16 } } := by
  rw [registerWrite_device (.of_lt (by omega)), ← ofNat_bits_ack]
  rfl

theorem registerWrite_logDrop (v : Word) (s : State) :
    exec (.registerWrite 0 0x2010 v) s = .next { s with log := { s.log with drop := s.log.drop &&& ~~~(v.setWidth 32) } } :=
  registerWrite_device (.of_lt (by omega)) v s

theorem registerWrite_kv (v : Word) (s : State) {p off : Nat} (hp : p < 16) (ho : off < 32) (h8 : off % 8 = 0) :
    exec (.registerWrite 0 (0x3000 + off + 32 * p) v) s = .next { s with kv := s.kv.set p ((s.kvRegs p).write off v) } := by
  rw [registerWrite_device (.of_lt (by omega)), Nat.add_right_comm, deviceWrite_kv hp ho h8]

/-- In minimal mode Marigold takes nothing. -/
theorem registerWrite_port_minimal (v : Word) {s : State} (hm : s.plat.minimal = true) {p o : Nat} (hp : p < 16) (ho : o < 64) :
    exec (.registerWrite 0 (0x6000 + 64 * p + o) v) s = .next s := by
  rw [registerWrite_port (by omega) (by omega), if_pos hm]

theorem registerWrite_port_running (v : Word) {s : State} (hm : s.plat.minimal ≠ true) {p o : Nat} (hp : p < 16) (ho : o < 64)
    (h8 : o % 8 = 0) : exec (.registerWrite 0 (0x6000 + o + 64 * p) v) s = .next (portWrite 0 p o v s) := by
  rw [registerWrite_port (by omega) (by omega), if_neg hm, Nat.add_right_comm, deviceWrite_port hp ho h8]

theorem registerWrite_readOnly (v : Word) (s : State) {off : Nat} (h : ReadOnly off) : exec (.registerWrite 0 off v) s = .next s := by
  rw [registerWrite_device (by unfold ReadOnly at h; unfold InDevice; omega), deviceWrite_readOnly h]

/-! ### Tile queues and format regions -/

/-- A register of a tile queue but TAIL, as a write leaves it (R334). -/
theorem tqWrite_registers (v : Word) (q : TileQ) : tqWrite q 0x00 v.toNat = { q with base := v &&& ~~~31 } ∧
    tqWrite q 0x08 v.toNat = { q with
      en := v.getLsbD 31, ie := v.getLsbD 4,
      size := if 4 ≤ v.toNat % 16 ∧ v.toNat % 16 ≤ 12 then v.toNat % 16 else q.size } ∧
    tqWrite q 0x18 v.toNat = q ∧ tqWrite q 0x20 v.toNat = { q with ovf := q.ovf && !v.getLsbD 1, pend := q.pend && !v.getLsbD 0 } := by
  refine ⟨?_, ?_, rfl, rfl⟩
  · exact congrArg (fun b => { q with base := b }) (ofNat_div_mul_two_pow v 5)
  · simp only [tqWrite, BitVec.testBit_toNat, Bool.and_eq_true, decide_eq_true_eq]
    rfl

/-- What TAIL, HEAD and the status register of a tile queue read as. -/
theorem tqRead_registers (q : TileQ) : ∀ e ∈ [(0x10, q.tail.toNat), (0x18, q.head.toNat),
    (0x20, (if q.ovf then 2 else 0) + if q.pend then 1 else 0)],
    e.1 < 0x1000 ∧ e.1 % 8 = 0 ∧ tqRead q e.1 = e.2 ∧ e.2 < 2 ^ 64 := by
  have hstatus : b2n q.ovf * 2 + b2n q.pend = (if q.ovf then 2 else 0) + if q.pend then 1 else 0 := by
    cases q.ovf <;> cases q.pend <;> rfl
  have ht := q.tail.isLt
  have hh := q.head.isLt
  refine List.forall_mem_cons.mpr ⟨⟨by omega, by omega, rfl, by omega⟩, List.forall_mem_cons.mpr ⟨⟨by omega, by omega, rfl, by omega⟩,
    List.forall_mem_singleton.mpr ⟨by omega, by omega, hstatus, ?_⟩⟩⟩
  cases q.ovf <;> cases q.pend <;> decide

/-- A queue written through any function: no other queue, and no memory, changes. -/
theorem writeTq_next (q off : Nat) (v : Word) (s : State) : ∃ u : State, Host.Outcome.next (writeTq q off v s) = (.next u : Out) ∧
    u.tq q = tqWrite (s.tq q) off v.toNat ∧ (∀ k, k ≠ q → u.tq k = s.tq k) ∧ u.mem = s.mem :=
  ⟨_, rfl, by rw [writeTq_tq, if_pos rfl], fun k hk => by rw [writeTq_tq, if_neg hk], rfl⟩

theorem formatRegionWrite_running {s : State} (hm : s.plat.minimal ≠ true) {die r : Nat} (hd : die < 2) (hr : r < 64) (off : Nat)
    (v : Word) : exec (.formatRegionWrite die r off v) s =
      .next { s with regions := s.regions.set (die * 64 + r) ((s.regions.get (die * 64 + r) Region.reset).write off v) } := by
  show Host.Outcome.next (if s.plat.minimal then s else writeRegion die r off v s) = _
  rw [if_neg hm, writeRegion, if_pos ⟨hd, hr⟩]

theorem formatRegionWrite_minimal {s : State} (hm : s.plat.minimal = true) (die r off : Nat) (v : Word) :
    exec (.formatRegionWrite die r off v) s = .next s := by
  show Host.Outcome.next (if s.plat.minimal then s else writeRegion die r off v s) = _
  rw [if_pos hm]

end Sys2Proof.Machine
end

section
/-! SUPPORT. Accesses through the BARs and from peers (spec/18 R333, R338, spec/24 R404), and what settles O56. -/

namespace Sys2Proof.Machine

/-! ### Accesses through the BARs (R333, R404) -/

/-- While PCI Express is down nothing arrives. -/
theorem hostBarAccess_down {s : State} (h : s.plat.pcieUp = false) (fn b off : Nat) (w : Bool) (n v : Nat) :
    exec (.hostBarAccess fn b off w n v) s = .next s := by
  show execHostBarAccess fn b off w n v s = _
  simp only [execHostBarAccess, h, Bool.not_false, Bool.true_or, if_true]

theorem hostBarAccess_minimal {s : State} (h : s.plat.minimal = true) {fn b : Nat} (hf : fn ≠ 0 ∨ b ≠ 0) (off : Nat) (w : Bool)
    (n v : Nat) : exec (.hostBarAccess fn b off w n v) s = .next s := by
  show execHostBarAccess fn b off w n v s = _
  have hb : (fn != 0 || b != 0) = true := by simpa using hf
  simp only [execHostBarAccess, h, hb, Bool.and_self, Bool.or_true, if_true]

/-- An access that is served: the link is up and the function exists; in minimal mode BAR0 of the physical function alone does. -/
def Serves (s : State) (fn b : Nat) : Prop :=
  s.plat.pcieUp = true ∧ fn ≤ 16 ∧ (fn = 0 ∧ b = 0 ∨ s.plat.minimal = false)

theorem Serves.gate {s : State} {fn b : Nat} (h : Serves s fn b) :
    (!s.plat.pcieUp || decide (16 < fn) || s.plat.minimal && (fn != 0 || b != 0)) = false := by
  obtain ⟨hu, hf, ⟨rfl, rfl⟩ | hm⟩ := h
  · simp [hu]
  · simp [hu, hm, hf]

/-- BAR2 is HBM. -/
theorem hostBarAccess_hbm {s : State} (h : Serves s 0 2) {off n : Nat} (hn : off + n ≤ hbmEnd) (w : Bool) (v : Nat) :
    exec (.hostBarAccess 0 2 off w n v) s = .next (if w then physWrite s off n v else answerHbm off n s) := by
  show execHostBarAccess 0 2 off w n v s = _
  unfold execHostBarAccess
  rw [h.gate]
  simp [hn]

/-- A whole register written replaces what it held. -/
theorem ofNat_replace_word (old v : Nat) :
    BitVec.ofNat 64 ((old - (old &&& 2 ^ 64 - 1)) ||| v % 2 ^ 64) = BitVec.ofNat 64 v := by
  have hold : (old - (old &&& 2 ^ 64 - 1)) % 2 ^ 64 = 0 := by
    rw [Nat.and_two_pow_sub_one_eq_mod]
    omega
  refine BitVec.eq_of_toNat_eq ?_
  rw [BitVec.toNat_ofNat, BitVec.toNat_ofNat, Nat.or_mod_two_pow, hold, Nat.zero_or, Nat.mod_mod]

theorem hostBarAccess_writeRegister {s : State} {fn : Nat} (h : Serves s fn 0) {off : Nat} (ho : off % 8 = 0) (v : Nat) :
    exec (.hostBarAccess fn 0 off true 8 v) s = exec (.registerWrite fn off (BitVec.ofNat 64 v)) s := by
  have ho' : off / 8 * 8 = off := by omega
  show execHostBarAccess fn 0 off true 8 v s = .next (bar0Write fn off (BitVec.ofNat 64 v) s)
  simp only [execHostBarAccess, h.gate, ho, ho', Nat.mul_zero, Nat.shiftLeft_zero, Bool.false_eq_true, if_false, if_true]
  exact congrArg (fun x => Host.Outcome.next (bar0Write fn off x s)) (ofNat_replace_word _ v)

theorem hostBarAccess_readRegister {s : State} {fn : Nat} (h : Serves s fn 0) {off : Nat} (ho : off % 8 = 0) (v : Nat) :
    exec (.hostBarAccess fn 0 off false 8 v) s = .next (s.answer (bar0Read s fn off % 2 ^ 64) false) := by
  have ho' : off / 8 * 8 = off := by omega
  show execHostBarAccess fn 0 off false 8 v s = _
  simp only [execHostBarAccess, h.gate, ho, ho', Nat.mul_zero, Nat.shiftRight_zero, Bool.false_eq_true, if_false, if_true]

/-- What the device block holds at the offsets of its fixed registers, and past the last core's FEAT. -/
theorem bar0Read_device (s : State) : ∀ e ∈ [(0x0000, s.devnum.toNat), (0x0008, s.linken.toNat),
    (0x0010, if s.plat.devready then 1 else 0), (0x2000, s.log.ce.toNat * 2 ^ 32 + s.log.ue.toNat),
    (0x2008, s.log.ack.toNat * 2 ^ 16 + s.log.next.toNat), (0x2010, s.log.drop.toNat), (0x5400, 0), (0xF_FFF8, 0), (0x30_0000, 0)],
    e.1 % 8 = 0 ∧ bar0Read s 0 e.1 = e.2 := by
  simp [bar0Read, deviceRead, b2n]

theorem bar0Read_feat (s : State) {c : Nat} (hc : c < 640) : bar0Read s 0 (0x4000 + 8 * c) = (s.core c).feat.toNat := by
  have h : (0x4000 + 8 * c - 0x4000) / 8 = c := by omega
  have hd : 0x4000 + 8 * c < 0x10_0000 := by omega
  simp only [bar0Read, if_pos hd, if_true]
  simp (disch := omega) only [deviceRead, if_neg, if_pos, Bool.and_eq_true, decide_eq_true_eq, h]

theorem bar0Read_tq (s : State) {q o : Nat} (hq : q < 8) (ho : o < 0x1000) :
    bar0Read s 0 (0x200_0000 + 0x1000 * q + o) = tqRead (s.tq q) o := by
  have h1 : (0x200_0000 + 0x1000 * q + o - 0x200_0000) / 0x1000 = q := by omega
  have h2 : (0x200_0000 + 0x1000 * q + o) % 0x1000 = o := by omega
  simp (disch := omega) only [bar0Read, if_neg, if_pos, if_true, h1, h2]

/-! ### Accesses from peers (R338) -/

/-- While no link is in service nothing arrives. -/
theorem peerAccess_down {s : State} (h : s.linkUp &&& s.linken = 0) (off : Nat) (w : Bool) (n v : Nat) :
    exec (.peerAccess off w n v) s = .next s := by
  show execPeerAccess off w n v s = _
  simp only [execPeerAccess, h, if_true]

theorem peerServe_hbm {off : Nat} (h : off < hbmEnd) : peerServe off = .cell off none := by simp only [peerServe, h, if_true]

theorem peerServe_queue {q o : Nat} (hq : q < 8) (ho : o < 0x1000) :
    peerServe (0x7F0_0000_0000 + 0x1000 * q + o) = .peerQueue q o := by
  have h0 : ¬ 0x7F0_0000_0000 + 0x1000 * q + o < hbmEnd := by unfold hbmEnd; omega
  have h1 : (0x7F0_0000_0000 + 0x1000 * q + o - 0x7F0_0000_0000) / 0x1000 = q := by omega
  have h2 : (0x7F0_0000_0000 + 0x1000 * q + o) % 0x1000 = o := by omega
  simp (disch := omega) only [peerServe, if_neg h0, if_pos, Bool.and_eq_true, decide_eq_true_eq, h1, h2]

theorem peerServe_nowhere {off : Nat} (h : hbmEnd ≤ off) (hq : off < 0x7F0_0000_0000 ∨ 0x7F0_0000_8000 ≤ off) :
    peerServe off = .nowhere := by
  simp (disch := omega) only [peerServe, if_neg, Bool.and_eq_true, decide_eq_true_eq]

section
variable {s : State} (hl : s.linkUp &&& s.linken ≠ 0)
include hl

theorem peerAccess_hbm {off n : Nat} (h : off < hbmEnd) (hn : off + n ≤ hbmEnd) (w : Bool) (v : Nat) :
    exec (.peerAccess off w n v) s = .next (if w then
      (if v.testBit (8 * n) then (granulesOf off n).foldl arriveBad (physWrite s off n v) else physWrite s off n v)
      else answerHbm off n s) := by
  show execPeerAccess off w n v s = _
  simp only [execPeerAccess, if_neg hl, peerServe_hbm h, if_neg (Nat.not_lt.mpr hn)]
  cases w <;> simp

theorem peerAccess_writeQueue {q o : Nat} (hq : q < 8) (ho : o < 0x1000) (n v : Nat) :
    exec (.peerAccess (0x7F0_0000_0000 + 0x1000 * q + o) true n v) s =
      .next (writeTq (8 + q) o (BitVec.ofNat 64 (v % 2 ^ (8 * n))) s) := by
  show execPeerAccess _ true n v s = _
  simp only [execPeerAccess, if_neg hl, peerServe_queue hq ho, if_true]

theorem peerAccess_refused {off : Nat} (h : hbmEnd ≤ off) (hq : off < 0x7F0_0000_0000 ∨ 0x7F0_0000_8000 ≤ off) (w : Bool) (n v : Nat) :
    exec (.peerAccess off w n v) s = .next s := by
  show execPeerAccess off w n v s = _
  simp only [execPeerAccess, if_neg hl, peerServe_nowhere h hq]

/-- A write in poisoned flits: the bytes are written, and every granule they touch is poisoned with Detail 7 (R376). -/
theorem peerAccess_poisoned (hp : PlainMem s) {off n v : Nat} (h : off < hbmEnd) (hn : off + n ≤ hbmEnd) (h0 : 0 < n)
    (hv : v.testBit (8 * n) = true) : ∃ u : State, exec (.peerAccess off true n v) s = .next u ∧ u.mem = s.mem.writeLE off v n ∧
      u.th = s.th ∧ ∀ g, u.detail g = if off / 32 ≤ g ∧ g ≤ (off + n - 1) / 32 then some 7 else none := by
  have hw := physWrite_of_plain hp hn v
  have hpoison : (physWrite s off n v).poison = [] := by rw [hw]; exact hp.1
  obtain ⟨hm, ht, hd⟩ := foldl_arriveBad (granulesOf off n) (physWrite s off n v) (by rw [hpoison]; exact .nil)
  refine ⟨_, by rw [peerAccess_hbm hl h hn, if_pos rfl, if_pos hv], hm.trans (by rw [hw]), ht.trans (by rw [hw]), fun g => ?_⟩
  have hnone : (physWrite s off n v).detail g = none := by rw [State.detail_eq_find, hpoison]; rfl
  rw [hd, hnone]
  simp only [mem_granulesOf h0, Option.getD_none]

end

/-! ### Links -/

/-- The bit of a link that trains or goes. -/
theorem getLsbD_linkBit {l i : Nat} (hi : i < 8) (up : Bool) (x : BitVec 8) :
    (if up then x ||| BitVec.ofNat 8 (2 ^ l) else x &&& ~~~(BitVec.ofNat 8 (2 ^ l))).getLsbD i = if i = l then up else x.getLsbD i := by
  have hb : (BitVec.ofNat 8 (2 ^ l)).getLsbD i = decide (i = l) := by
    rw [BitVec.getLsbD_ofNat, Nat.testBit_two_pow]
    simp only [hi, decide_true, Bool.true_and, eq_comm]
  cases up
  · simp only [Bool.false_eq_true, if_false, BitVec.getLsbD_and, BitVec.getLsbD_not, hb]
    rcases eq_or_ne i l with rfl | h
    · simp only [decide_true, Bool.not_true, Bool.and_false, if_true]
    · simp only [h, hi, decide_false, decide_true, Bool.not_false, Bool.and_true, if_false]
  · simp only [if_true, BitVec.getLsbD_or, hb]
    rcases eq_or_ne i l with rfl | h
    · simp only [decide_true, Bool.or_true, if_true]
    · simp only [h, decide_false, Bool.or_false, if_false]

theorem ramtinLinkChange_next (l : Nat) (up : Bool) (s : State) : exec (.ramtinLinkChange l up) s = .next (loseColls { s with
    linkUp := if up then s.linkUp ||| BitVec.ofNat 8 (2 ^ l) else s.linkUp &&& ~~~(BitVec.ofNat 8 (2 ^ l)) }) := rfl

/-! ### What settles O56 -/

/-- Settles O56, by the rule of each register, and of each access on plain memory, proved above. -/
theorem hostAndPeers : Obligations.HostAndPeers := by
  unfold Obligations.HostAndPeers
  intro lose
  have hlose (t : State) : loseColls t = lose t := loseColls_eq t
  refine ⟨fun v s => ?_, fun off n v s hp => ?_⟩
  · intro x wr held
    refine ⟨registerWrite_devnum v s, ?_, registerWrite_start v s, fun d hd => ?_, fun k hk => registerWrite_bud v s hk,
      registerWrite_logAck v s, registerWrite_logDrop v s, fun p hp16 => ?_, fun q off => ?_, tqWrite_registers v,
      fun off h => ?_, fun die r off hd hr ho => ?_⟩
    · exact (registerWrite_linken v s).trans (congrArg _ (hlose _))
    · exact (registerWrite_route v s hd).trans (congrArg _ (hlose _))
    · intro k kv
      have port (hm : ¬ held) (o : Nat) (ho : o < 64) (h8 : o % 8 = 0) := registerWrite_port_running v hm hp16 ho h8
      exact ⟨registerWrite_kv v s hp16 (off := 0) (by omega) rfl, registerWrite_kv v s hp16 (off := 8) (by omega) rfl,
        registerWrite_kv v s hp16 (off := 16) (by omega) rfl, fun hm o ho => registerWrite_port_minimal v hm hp16 ho,
        fun hm => ⟨(port hm 0 (by omega) rfl).trans (execLpgo_next 0 p v s).symm,
          (port hm 8 (by omega) rfl).trans (execLpstop_next 0 p v s).symm, port hm 16 (by omega) rfl⟩⟩
    · refine ⟨fun hq ho => ?_, fun h1 h16 ho hm => ?_, fun h1 hm => registerWrite_vf_minimal h1 off v hm⟩
      · show ∃ u : State, exec (.registerWrite 0 _ v) s = _ ∧ _
        rw [registerWrite_tq hq ho]
        exact writeTq_next q off v s
      · show ∃ u : State, exec (.registerWrite q off v) s = _ ∧ _
        rw [registerWrite_vfTq h1 h16 ho v (Bool.not_eq_true _ ▸ hm)]
        exact writeTq_next (15 + q) off v s
    · simp only [List.mem_cons, List.not_mem_nil, or_false] at h
      by_cases hlast : off = 0x30_0000
      · exact hlast ▸ registerWrite_none v s
      · exact registerWrite_readOnly v s (by unfold ReadOnly; omega)
    · intro z put
      refine ⟨registerWrite_region hd hr ho v s, fun hm => formatRegionWrite_minimal hm die r off v, fun hm => ?_⟩
      exact ⟨formatRegionWrite_running hm hd hr 0x00 v, formatRegionWrite_running hm hd hr 0x08 v,
        formatRegionWrite_running hm hd hr 0x10 v, formatRegionWrite_running hm hd hr 0x18 v,
        formatRegionWrite_running hm hd hr 0x20 v, formatRegionWrite_running hm hd hr 0x28 v⟩
  · intro reads written bar
    have writtenOf {o : Out} (hn : off + n ≤ hbmEnd) (ho : o = .next (physWrite s off n v)) : written o := ho ▸ physWrite_next hp hn v
    have readOf {o : Out} (hn : off + n ≤ hbmEnd) (ho : o = .next (answerHbm off n s)) : o = reads (s.mem.readLE off n) :=
      ho.trans (congrArg _ (answerHbm_of_plain hp (Nat.le_of_add_right_le hn) n))
    refine ⟨fun hd fn b w => hostBarAccess_down hd fn b off w n v, fun hm fn b w h => hostBarAccess_minimal hm h off w n v,
      fun hup => ?_, fun w hl => peerAccess_down hl off w n v, fun hl => ⟨fun h hn => ⟨fun hv => ?_,
        fun hv h0 => peerAccess_poisoned hl hp h hn h0 hv, readOf hn (peerAccess_hbm hl h hn false v)⟩, fun q o hq ho hoff => ?_,
        fun w h1 h2 => peerAccess_refused hl h1 h2 w n v⟩,
      fun l _ up => ⟨_, ramtinLinkChange_next l up s, hlose _, fun i hi => getLsbD_linkBit hi up s.linkUp⟩⟩
    · have register {o x : Nat} (h8 : o % 8 = 0) (hx : bar0Read s 0 o = x) : bar 0 0 o false 8 = reads (x % 2 ^ 64) :=
        hx ▸ hostBarAccess_readRegister ⟨hup, by omega, .inl ⟨rfl, rfl⟩⟩ h8 v
      refine ⟨fun hm hn => ?_, fun fn hfn hm h8 => hostBarAccess_writeRegister ⟨hup, hfn, hm.imp_left (⟨·, rfl⟩)⟩ h8 v,
        fun e he => ?_, fun q hq e he => ?_⟩
      · have serves : Serves s 0 2 := ⟨hup, by omega, .inr hm⟩
        exact ⟨writtenOf hn (hostBarAccess_hbm serves hn true v), readOf hn (hostBarAccess_hbm serves hn false v)⟩
      · rcases List.mem_append.mp he with h | h
        · obtain ⟨h8, hx⟩ := bar0Read_device s e h
          exact register h8 hx
        · obtain ⟨c, hc, rfl⟩ := List.mem_map.mp h
          exact register (by omega) (bar0Read_feat s (List.mem_range.mp hc))
      · obtain ⟨ho, h8, hx, hlt⟩ := tqRead_registers (s.tq q) e he
        have := register (by omega) ((bar0Read_tq s hq ho).trans hx)
        rwa [Nat.mod_eq_of_lt hlt] at this
    · exact writtenOf hn (by rw [peerAccess_hbm hl h hn, if_pos rfl, if_neg (by simp [hv])])
    · subst hoff
      show ∃ u : State, exec (.peerAccess _ true n v) s = _ ∧ _
      rw [peerAccess_writeQueue hl hq ho, ← BitVec.toNat_ofNat]
      exact writeTq_next (8 + q) o _ s

end Sys2Proof.Machine
end

section
/-! SUPPORT. What settles O60: the statement takes a state whose core table is not by rising number and lists a core twice, and there a
recall of update lines (spec/03 R65) carries FEAT from one entry to the other. -/

namespace Sys2Proof.Machine

/-- A recall writes the entries that hold update lines back under their core's number. Where a core is listed twice, what its second entry
holds comes to stand in the first, FEAT included. -/
theorem core_recallLine_of_twice {s : State} {c line : Nat} {x y : Core} {f : UpdFmt} (hc : s.cores = [(c, x), (c, y)])
    (hx : x.upd = []) (hy : y.upd = [⟨line, f, []⟩]) : (recallLine s line).core c = { y with upd := [] } := by
  have holders : s.holders line = [(c, y)] := by simp [State.holders, hc, hx, hy]
  simp [recallLine, holders, hy, mergeLine, UpdLine.byElem, State.core, State.setCore]

/-- A card at reset whose core table lists core 0 twice: first with no FEAT bit, then as shipped, with an update line at address 0. -/
def twiceListed : State :=
  { State.reset with cores := [(0, { Core.reset with feat := 0 }), (0, { Core.reset with upd := [⟨0, .int 8, []⟩] })] }

/-- The host's read of the first eight bytes of HBM recalls the update lines there. -/
theorem core_answerHbm (s : State) (c : Nat) : (answerHbm 0 8 s).core c = (recallLine s 0).core c := rfl

/-- Refutes O60: the statement asks nothing of the core table. Where it lists core 0 twice, a read by the host recalls the update line of
the second entry, and core 0 has that entry's FEAT from then on. -/
theorem not_stepKeepsFuses : ¬ Obligations.StepKeepsFuses := by
  unfold Obligations.StepKeepsFuses
  intro h
  have served : Serves twiceListed 0 2 := ⟨rfl, by decide, .inr rfl⟩
  have read : step { twiceListed with agenda := [.hostBarAccess 0 2 0 false 8 0] } = .next (answerHbm 0 8 twiceListed) :=
    hostBarAccess_hbm served (by decide) false 0
  have kept := h _ _ read 0
  rw [core_answerHbm, core_recallLine_of_twice rfl rfl rfl] at kept
  exact absurd kept (by decide)

end Sys2Proof.Machine
end

section
/-! SUPPORT. What settles O53: a reset of the physical function recalls update lines where it makes a buffer unspecified, and leaves the
rest of an idle card's cores alone (spec/24 R398, R399). -/

namespace Sys2Proof.Machine

/-! ### Units after one was stored -/

theorem State.core_setCore_same (s : State) (c : Nat) (x : Core) : (s.setCore c x).core c = x := Table.get_set_same s.cores c x Core.reset

theorem State.core_setCore_other (s : State) {c d : Nat} (x : Core) (h : d ≠ c) : (s.setCore c x).core d = s.core d :=
  Table.get_set_other s.cores x Core.reset h

theorem State.part_setPart_same (s : State) (p : Nat) (q : Partition) : (s.setPart p q).part p = q :=
  Table.get_set_same s.parts p q Partition.reset

theorem State.part_setPart_other (s : State) {p r : Nat} (q : Partition) (h : r ≠ p) : (s.setPart p q).part r = s.part r :=
  Table.get_set_other s.parts q Partition.reset h

/-! ### An idle card -/

/-- No engine works: no page moves and no channel runs. -/
def Partition.Rests (q : Partition) : Prop := q.migs = [] ∧ ∀ n, (q.chan n).st ≠ .running

/-- The card holds nothing that a function-level reset discards or writes back, and is in no thermal stop. -/
def Idle (s : State) : Prop :=
  s.late = [] ∧ s.decs = [] ∧ s.colls = [] ∧ s.zjobs = [] ∧ s.th.live = false ∧ s.parked = [] ∧ s.plat.limit ≠ 3 ∧
    (∀ p, (s.part p).Rests) ∧ ∀ c, (s.core c).upd = []

/-- From `s` the card came to the idle state `t` with FEAT as it was. -/
def IdlesTo (s t : State) : Prop := Idle t ∧ State.SameFuses s t

theorem Idle.refl {s : State} (h : Idle s) : IdlesTo s s := ⟨h, fun _ => rfl⟩

theorem IdlesTo.trans {s t u : State} (h : IdlesTo s t) (g : Idle t → IdlesTo t u) : IdlesTo s u :=
  have ⟨idle, same⟩ := g h.1
  ⟨idle, fun c => (same c).trans (h.2 c)⟩

theorem Idle.foldl {α : Type} {f : State → α → State} (hf : ∀ s a, Idle s → IdlesTo s (f s a)) (l : List α) {s : State} (h : Idle s) :
    IdlesTo s (l.foldl f s) := by
  induction l generalizing s with
  | nil => exact h.refl
  | cons a l ih => exact (hf s a h).trans ih

theorem Idle.liveKeys {s : State} (h : Idle s) : s.liveKeys = [] := by
  obtain ⟨-, -, -, -, dead, parked, -⟩ := h
  simp [State.liveKeys, State.thread, dead, parked]

theorem Idle.setPart {s : State} (h : Idle s) (p : Nat) {q : Partition} (hq : q.Rests) : IdlesTo s (s.setPart p q) := by
  obtain ⟨late, decs, colls, zjobs, dead, parked, limit, parts, upd⟩ := h
  refine ⟨⟨late, decs, colls, zjobs, dead, parked, limit, fun r => ?_, upd⟩, fun _ => rfl⟩
  by_cases e : r = p
  · rwa [e, State.part_setPart_same]
  · rw [State.part_setPart_other s q e]; exact parts r

theorem Idle.setCore {s : State} (h : Idle s) (c : Nat) {x : Core} (hu : x.upd = []) (hf : x.feat = (s.core c).feat) :
    IdlesTo s (s.setCore c x) := by
  obtain ⟨late, decs, colls, zjobs, dead, parked, limit, parts, upd⟩ := h
  have same (d : Nat) : ((s.setCore c x).core d).upd = [] ∧ ((s.setCore c x).core d).feat = (s.core d).feat := by
    by_cases e : d = c
    · rw [e, State.core_setCore_same]; exact ⟨hu, hf⟩
    · rw [State.core_setCore_other s x e]; exact ⟨upd d, rfl⟩
  exact ⟨⟨late, decs, colls, zjobs, dead, parked, limit, parts, fun d => (same d).1⟩, fun d => (same d).2⟩

/-! ### A function-level reset of an idle card -/

theorem killLoops_of_idle {s : State} (h : Idle s) (p : Nat) : IdlesTo s (killLoops p s) := by
  dsimp only [killLoops]
  split
  · exact ⟨h, fun _ => rfl⟩
  · exact ⟨h, fun _ => rfl⟩

theorem drainPart_of_idle {s : State} (h : Idle s) (p : Nat) : IdlesTo s (drainPart p s) := by
  have ⟨late, _, _, _, _, _, _, _, upd⟩ := h
  have merge : (coresOf p).foldl (fun s c => mergeCore s c fun _ => true) s = s :=
    List.foldl_fixed' (fun c => by simp [mergeCore, upd c]) _
  have release : (clustersOf p).foldl (fun s c => releaseLines (fun _ => true) c 4 s) s = s :=
    List.foldl_fixed' (fun c => by simp [releaseLines, State.dirtyLines, late]) _
  rw [drainPart, merge, release]
  exact h.refl

theorem killTiles_of_idle {s : State} (h : Idle s) (records : Bool) (p : Nat) : IdlesTo s (killTiles records p s) := by
  have ⟨_, decs, _⟩ := h
  have nothing : killTiles records p s = s := by simp [killTiles, decs]
  rw [nothing]
  exact h.refl

theorem Partition.rests_of_chansReset {q : Partition} (migs : q.migs = []) (chans : q.chans = Vector.replicate 16 Channel.reset) :
    q.Rests := by
  refine ⟨migs, fun n => ?_⟩
  have idle : q.chan n = Channel.reset := by
    rw [Partition.chan, chans, Vector.getD, Array.getD]
    split <;> simp
  rw [idle]
  nofun

theorem killChans_of_idle {s : State} (h : Idle s) (records : Bool) (p : Nat) : IdlesTo s (killChans records p s) := by
  have ⟨_, _, _, _, _, _, _, parts, _⟩ := h
  obtain ⟨migs, chans⟩ := parts p
  have idle (n : Nat) : ((s.chan p n).st != .running) = true := bne_iff_ne.mpr (chans n)
  unfold killChans
  rw [List.foldl_fixed' (fun n => if_pos (idle n))]
  exact h.setPart p (Partition.rests_of_chansReset migs rfl)

theorem killColls_of_idle {s : State} (h : Idle s) (p : Nat) : IdlesTo s (killColls p s) := by
  have ⟨_, _, colls, _⟩ := h
  have leave : (List.range s.colls.length).reverse.foldl (fun s i => leaveColl p i s) s = s := by simp [colls]
  rw [killColls, leave]
  exact ⟨h, fun _ => rfl⟩

theorem killZenc_of_idle {s : State} (h : Idle s) (p : Nat) : IdlesTo s (killZenc p s) := by
  obtain ⟨late, decs, colls, zjobs, rest⟩ := h
  simp only [killZenc, zjobs, List.filter_nil, List.foldl_nil]
  exact ⟨⟨late, decs, colls, rfl, rest⟩, fun _ => rfl⟩

theorem dropThreads_of_idle {s : State} (h : Idle s) (kept : Thread → Bool) (p : Nat) : IdlesTo s (dropThreads kept p s) := by
  have nobody (x : Chosen) : State.threadsOf { s with chosen := x } p = [] := by
    rw [State.threadsOf, Idle.liveKeys (s := { s with chosen := x }) h, List.filter_nil]
  dsimp only [dropThreads]
  rw [nobody]
  exact ⟨h, fun _ => rfl⟩

/-- The page moves of a partition end one way or the other. -/
def settleMoves (p : Nat) (s : State) : State := (List.range (s.part p).migs.length).foldl (fun s _ => settleMove p s) s

theorem settleMoves_of_idle {s : State} (h : Idle s) (p : Nat) : IdlesTo s (settleMoves p s) := by
  have ⟨_, _, _, _, _, _, _, parts, _⟩ := h
  have nothing : settleMoves p s = s := by simp [settleMoves, (parts p).1]
  rw [nothing]
  exact h.refl

/-- The cores of a partition get their reset values, but for what the fuses hold. -/
def resetCores (p : Nat) (s : State) : State := (coresOf p).foldl (fun s c => s.setCore c (s.core c).afterKill) s

theorem resetCores_of_idle {s : State} (h : Idle s) (p : Nat) : IdlesTo s (resetCores p s) := by
  unfold resetCores
  refine Idle.foldl (fun s c h => ?_) _ h
  exact h.setCore c rfl rfl

/-- The banks of a partition's clusters get their reset values, and no cache holds an older copy. -/
def resetBanks (p : Nat) (s : State) : State :=
  (clustersOf p).foldl (fun s c => s.setCluster c { s.cluster c with banks := Vector.replicate 16 Bank.reset, stale := [] }) s

theorem resetBanks_of_idle {s : State} (h : Idle s) (p : Nat) : IdlesTo s (resetBanks p s) := by
  unfold resetBanks
  refine Idle.foldl (fun s c h => ?_) _ h
  exact ⟨h, fun _ => rfl⟩

/-- The registers, queues and bindings of a partition get their reset values; after a thermal stop it stays halted. -/
def resetPartition (p : Nat) (s : State) : State :=
  let s := s.setPart p { Partition.reset with reuse := (s.part p).reuse }
  if s.plat.limit = 3 then haltPart p s else s

theorem resetPartition_of_idle {s : State} (h : Idle s) (p : Nat) : IdlesTo s (resetPartition p s) := by
  have ⟨_, _, _, _, _, _, limit, _⟩ := h
  unfold resetPartition
  rw [if_neg]
  · exact h.setPart p (Partition.rests_of_chansReset rfl rfl)
  · exact limit

/-- The stages of a kill, in order. -/
theorem killPart_eq (records : Bool) (p : Nat) (s : State) : killPart records p s =
    resetPartition p (resetBanks p (resetCores p (dropThreads (fun _ => false) p (settleMoves p (killZenc p (killColls p
      (killChans records p (killTiles records p (drainPart p (killLoops p s)))))))))) := by
  unfold killPart resetPartition resetBanks resetCores settleMoves
  rfl

theorem killPart_of_idle {s : State} (h : Idle s) (records : Bool) (p : Nat) : IdlesTo s (killPart records p s) := by
  rw [killPart_eq]
  exact (killLoops_of_idle h p).trans fun h => (drainPart_of_idle h p).trans fun h => (killTiles_of_idle h records p).trans fun h =>
    (killChans_of_idle h records p).trans fun h => (killColls_of_idle h p).trans fun h => (killZenc_of_idle h p).trans fun h =>
    (settleMoves_of_idle h p).trans fun h => (dropThreads_of_idle h _ p).trans fun h => (resetCores_of_idle h p).trans fun h =>
    (resetBanks_of_idle h p).trans fun h => resetPartition_of_idle h p

theorem wakeAll_of_idle {s : State} (h : Idle s) (why : WaitReason → Bool) : IdlesTo s (wakeAll why s) := by
  rw [wakeAll, h.liveKeys]
  exact h.refl

theorem Idle.setTqs {s : State} (h : Idle s) (l : Table TileQ) : IdlesTo s { s with tqs := l } := ⟨h, fun _ => rfl⟩

theorem flrPart_of_idle {s : State} (h : Idle s) (p : Nat) : IdlesTo s (flrPart p s) := by
  have copies : IdlesTo s (dropCopies p s) := ⟨h, fun _ => rfl⟩
  exact copies.trans fun h => (killPart_of_idle h false p).trans fun h => (h.setTqs _).trans fun h => wakeAll_of_idle h _

/-- What a reset of the physical function does after the collectives and the partitions (R399). -/
def resetDevice (s : State) : State :=
  let s := emptyDevice (s.dec (decKey 4 0)).running.length s
  let s := s.setDec (decKey 4 0) Decomposer.reset
  { s with
    tqs := s.tqs.filter fun e => decide (8 ≤ e.1)
    loops := []
    plat := { s.plat with devready := false }
    devnum := State.reset.devnum
    linken := 0
    route := []
    bud := State.reset.bud
    ovr := State.reset.ovr
    ports := []
    kv := [] }

/-- The stages of a reset of the physical function, in order. -/
theorem execFlrPf_eq (s : State) :
    execFlrPf s = .next (resetDevice ((List.range 16).foldl (fun s p => flrPart p s) (emptyColls s))) := rfl

theorem resetDevice_of_idle {s : State} (h : Idle s) : State.SameFuses s (resetDevice s) := by
  obtain ⟨-, decs, -⟩ := h
  have noRuns : (s.dec (decKey 4 0)).running.length = 0 := by rw [State.dec, decs]; rfl
  unfold resetDevice
  rw [noRuns]
  exact fun _ => rfl

/-- A reset of the physical function that finds the card idle once the collectives have ended changes FEAT no more. -/
theorem flrPf_feat_of_idle {s u : State} (h : Idle (emptyColls s)) (hu : exec .flrPf s = .next u) (c : Nat) :
    (u.core c).feat = ((emptyColls s).core c).feat := by
  have ⟨idle, same⟩ := h.foldl (f := fun s p => flrPart p s) (fun _ p h => flrPart_of_idle h p) (List.range 16)
  have device : execFlrPf s = .next u := hu
  rw [execFlrPf_eq] at device
  rw [← Host.Outcome.next.inj device]
  exact (resetDevice_of_idle idle c).trans (same c)

/-! ### The counterexample -/

/-- A collective of one participant whose receive buffer is the byte at address 0; its participant has met. -/
def metAlone : Coll where
  key := 0
  members := []
  parties := [{
    rank := 0, part := 0, user := false, data := 0x1_0000_0001#512 <<< 192, sends := [], recvs := [], sbad := false, rbad := false }]
  remote := []
  met := true
  lost := false

/-- As the collective ends its receive buffer becomes unspecified: a write, which recalls the update line of the second entry. -/
theorem emptyColls_twiceListed :
    let s := emptyColls { twiceListed with colls := [metAlone] }
    s.cores = [(0, Core.reset), (0, { Core.reset with upd := [⟨0, .int 8, []⟩] })] ∧ s.parts = [] ∧ s.late = [] ∧ s.decs = [] ∧
      s.colls = [] ∧ s.zjobs = [] ∧ s.th = Thread.zero ∧ s.parked = [] ∧ s.plat.limit = 0 := by
  decide +kernel

theorem idle_emptyColls_twiceListed : Idle (emptyColls { twiceListed with colls := [metAlone] }) := by
  obtain ⟨cores, parts, late, decs, colls, zjobs, th, parked, limit⟩ := emptyColls_twiceListed
  refine ⟨late, decs, colls, zjobs, by rw [th]; rfl, parked, by simp [limit], fun p => ?_, fun c => ?_⟩
  · rw [State.part, parts]
    exact Partition.rests_of_chansReset rfl rfl
  · rw [State.core, cores]
    simp only [Table.get, Table.find]
    split <;> rfl

/-- Refutes O53 in its clause that a reset of the physical function keeps FEAT, for the statement asks nothing of the core table. Where it
lists core 0 twice, the write that makes a receive buffer unspecified recalls the update line of the second entry, and core 0 has that
entry's FEAT from then on. -/
theorem not_startAndReset : ¬ Obligations.StartAndReset := by
  unfold Obligations.StartAndReset
  intro h
  obtain ⟨-, -, -, -, ⟨u, hu, reset⟩, -⟩ := h { twiceListed with colls := [metAlone] }
  obtain ⟨-, -, -, -, -, -, -, -, -, -, -, -, -, -, feat⟩ := reset
  have kept := feat 0
  rw [flrPf_feat_of_idle idle_emptyColls_twiceListed hu, State.core, emptyColls_twiceListed.1] at kept
  exact absurd kept (by decide)

end Sys2Proof.Machine
end

section
/-! SUPPORT. The threads of the table after one was stored, selected or changed, and lists of keys in order (spec/02 R23, R32, R34). -/

namespace Sys2Proof.Machine

/-! ### Threads by key -/

theorem State.thread_cur (s : State) : s.thread s.cur = s.th := if_pos rfl

theorem State.thread_parked {s : State} {j : Nat} (h : j ≠ s.cur) : s.thread j = s.parked.get j Thread.zero := if_neg h

theorem State.thread_setThread (s : State) (k j : Nat) (t : Thread) :
    (s.setThread k t).thread j = if j = k then t else s.thread j := by
  unfold State.setThread State.thread
  by_cases hk : k = s.cur
  · by_cases hj : j = k <;> simp [hk, hj]
    simp [← hk, hj]
  · by_cases hj : j = k
    · simp [hk, hj]
    · simp [hk, hj, Table.get_set_other]

theorem State.th_select (s : State) (k : Nat) : (s.select k).th = s.thread k := by
  unfold State.select State.thread
  split <;> rfl

theorem State.cur_select (s : State) (k : Nat) : (s.select k).cur = k := by
  unfold State.select
  split
  · next h => exact h.symm
  · rfl

/-- Selecting a thread parks the one selected before, whose key a dead thread gives up. -/
theorem State.thread_select_of_live {s : State} {j : Nat} (h : (s.thread j).live = true) (k : Nat) :
    (s.select k).thread j = s.thread j := by
  by_cases hj : j = k
  · subst hj
    have := (s.select j).thread_cur
    rw [s.cur_select, s.th_select] at this
    exact this
  unfold State.select
  split
  · rfl
  · next hk =>
    have erased (i : Nat) (hi : i ≠ k) : (s.parked.erase k).get i Thread.zero = s.parked.get i Thread.zero := by
      simp [Table.get, Table.find_erase, hi]
    rw [State.thread_parked hj]
    by_cases hc : j = s.cur
    · subst hc
      rw [s.thread_cur] at h ⊢
      simp [h]
    · rw [State.thread_parked hc]
      dsimp only
      split
      · rw [Table.get_set_other _ _ _ hc, erased j hj]
      · exact erased j hj

/-! ### Changing several threads -/

theorem State.setThread_eq (s : State) (k : Nat) (t : Thread) :
    s.setThread k t = { s with th := (s.setThread k t).th, parked := (s.setThread k t).parked } := by
  unfold State.setThread
  split <;> rfl

theorem State.mapThreads_cons (s : State) (k : Nat) (ks : List Nat) (f : Thread → Thread) :
    s.mapThreads (k :: ks) f = (s.setThread k (f (s.thread k))).mapThreads ks f := rfl

/-- Only the threads change. -/
theorem State.mapThreads_eq (s : State) (ks : List Nat) (f : Thread → Thread) :
    s.mapThreads ks f = { s with th := (s.mapThreads ks f).th, parked := (s.mapThreads ks f).parked } := by
  induction ks generalizing s with
  | nil => rfl
  | cons k ks ih =>
    rw [s.mapThreads_cons, ih, s.setThread_eq]

/-- A thread changes as often as its key is listed. -/
theorem State.thread_mapThreads (s : State) (ks : List Nat) (f : Thread → Thread) (j : Nat) :
    (s.mapThreads ks f).thread j = f^[ks.count j] (s.thread j) := by
  induction ks generalizing s with
  | nil => rfl
  | cons k ks ih =>
    rw [s.mapThreads_cons, ih, s.thread_setThread]
    by_cases h : j = k
    · subst h
      rw [if_pos rfl, List.count_cons_self, Function.iterate_succ_apply]
    · rw [if_neg h, List.count_cons_of_ne (Ne.symm h)]

/-- What one change keeps, repeated changes keep. -/
theorem iterate_keeps {α β : Type} {f : α → α} {g : α → β} (h : ∀ x, g (f x) = g x) (n : Nat) (x : α) : g (f^[n] x) = g x := by
  induction n generalizing x with
  | zero => rfl
  | succ n ih => rw [Function.iterate_succ_apply, ih, h]

/-! ### Ordered lists of keys -/

theorem perm_insertBy (lt : Nat → Nat → Bool) (k : Nat) (l : List Nat) : (insertBy lt k l).Perm (k :: l) := by
  induction l with
  | nil => rfl
  | cons x l ih =>
    unfold insertBy
    split
    · rfl
    · exact (ih.cons x).trans (.swap k x l)

theorem perm_sortBy (lt : Nat → Nat → Bool) (l : List Nat) : (sortBy lt l).Perm l := by
  induction l with
  | nil => rfl
  | cons x l ih => exact (perm_insertBy lt x _).trans (ih.cons x)

/-- Where "not before" is transitive, nothing in the ordered list comes before what stands ahead of it. -/
theorem pairwise_sortBy {lt : Nat → Nat → Bool} (asymm : ∀ a b, lt a b = true → lt b a = false)
    (trans : ∀ a b c, lt b a = false → lt c b = false → lt c a = false) (l : List Nat) :
    (sortBy lt l).Pairwise fun a b => lt b a = false := by
  induction l with
  | nil => exact .nil
  | cons k l ih =>
    show (insertBy lt k (sortBy lt l)).Pairwise _
    generalize sortBy lt l = m at ih
    induction m with
    | nil => simp [insertBy]
    | cons x m step =>
      obtain ⟨hx, hm⟩ := List.pairwise_cons.mp ih
      unfold insertBy
      split
      · next h =>
        have hkx := asymm k x h
        refine .cons (fun y hy => ?_) ih
        rcases List.mem_cons.mp hy with rfl | hy
        · exact hkx
        · exact trans k x y hkx (hx y hy)
      · next h =>
        refine .cons (fun y hy => ?_) (step hm)
        rcases List.mem_cons.mp ((perm_insertBy lt k m).subset hy) with rfl | hy
        · simpa using h
        · exact hx y hy

end Sys2Proof.Machine
end

section
/-! SUPPORT. Which thread of a core issues next, and what the choice does to the pass counters (spec/02 R34, R35): what settles O35. -/

namespace Sys2Proof.Machine

/-! ### The order of R34 -/

/-- `x` issues no later than `y`: the earlier boosted, else the boosted, else by priority, launch and slot (R34). -/
def Thread.NoLater (x y : Thread) : Prop :=
  match x.boosted, y.boosted with
  | some a, some b => a ≤ b
  | some _, none => True
  | none, some _ => False
  | none, none => x.prio < y.prio ∨ x.prio = y.prio ∧ (x.seq < y.seq ∨ x.seq = y.seq ∧ x.slot ≤ y.slot)

theorem Thread.issuesBefore_eq_false {x y : Thread} : y.issuesBefore x = false ↔ x.NoLater y := by
  unfold Thread.issuesBefore Thread.NoLater
  cases x.boosted <;> cases y.boosted
  case none.none =>
    simp only [bne_iff_ne]
    split_ifs <;> simp only [decide_eq_false_iff_not] <;> omega
  all_goals simp

theorem Thread.NoLater.of_issuesBefore {x y : Thread} (h : x.issuesBefore y = true) : x.NoLater y := by
  unfold Thread.issuesBefore at h
  unfold Thread.NoLater
  cases hx : x.boosted <;> cases hy : y.boosted <;> simp only [hx, hy] at h ⊢
  case none.none =>
    simp only [bne_iff_ne] at h
    split_ifs at h <;> simp only [decide_eq_true_eq] at h <;> omega
  case none.some => simp at h
  case some.some => exact (of_decide_eq_true h).le

theorem Thread.NoLater.trans {x y z : Thread} (h : x.NoLater y) (g : y.NoLater z) : x.NoLater z := by
  unfold Thread.NoLater at *
  cases hx : x.boosted <;> cases hy : y.boosted <;> cases hz : z.boosted <;> simp only [hx, hy, hz] at h g ⊢
  case none.none.none => omega
  case some.some.some => exact h.trans g

/-- The thread at the head of the ready list issues no later than any other on it. -/
theorem State.readyList_head {s : State} {c k : Nat} {others : List Nat} (h : s.readyList c = k :: others) :
    ∀ j ∈ others, (s.thread k).NoLater (s.thread j) := by
  have sorted : (s.readyList c).Pairwise fun a b => (s.thread b).issuesBefore (s.thread a) = false :=
    pairwise_sortBy (lt := fun a b => (s.thread a).issuesBefore (s.thread b)) (fun _ _ h => Thread.issuesBefore_eq_false.mpr (.of_issuesBefore h))
      (fun _ _ _ h g => Thread.issuesBefore_eq_false.mpr
        ((Thread.issuesBefore_eq_false.mp h).trans (Thread.issuesBefore_eq_false.mp g))) _
  rw [h] at sorted
  exact fun j hj => Thread.issuesBefore_eq_false.mp (List.rel_of_pairwise_cons sorted hj)

/-! ### The choice of a core -/

theorem issue_of_none {s : State} {c : Nat} (h : s.readyList c = []) : exec (.issue c) s = .next s := by
  show execIssue c s = _
  simp only [execIssue, h]

theorem issue_of_leaf {s : State} {c k d j l : Nat} {others : List Nat} (h : s.readyList c = k :: others)
    (hl : s.leafBefore c k = some (d, j, l)) : exec (.issue c) s = .next { s with agenda := .tileLeafRun d j l :: s.agenda } := by
  show execIssue c s = _
  simp only [execIssue, h, hl]

theorem issue_of_thread {s : State} {c k : Nat} {others : List Nat} (h : s.readyList c = k :: others)
    (hl : s.leafBefore c k = none) :
    exec (.issue c) s = .next { s with chosen := .probe k others ⟨(s.thread k).passes, (s.thread k).boosted, []⟩ } := by
  show execIssue c s = _
  simp only [execIssue, h, hl]

/-- A leaf counts as a thread of priority 0 and launch number 0 that is not boosted (R299). -/
theorem State.leafBefore_of_later {s : State} {c k : Nat} (hb : (s.thread k).boosted = none)
    (hr : (s.thread k).prio ≠ 0 ∨ (s.thread k).seq ≠ 0) : s.leafBefore c k = s.coreLeaf c := by
  unfold State.leafBefore
  rw [if_pos]
  simpa [hb] using hr

theorem State.leafBefore_eq_none {s : State} {c k : Nat}
    (h : (s.thread k).boosted ≠ none ∨ ((s.thread k).prio = 0 ∧ (s.thread k).seq = 0) ∨ s.coreLeaf c = none) :
    s.leafBefore c k = none := by
  unfold State.leafBefore
  rcases h with hb | ⟨hp, hs⟩ | hl
  · simp [Option.isNone_iff_eq_none, hb]
  · simp [hp, hs]
  · simp [hl]

/-! ### Trying a word -/

/-- What the word at the pc of the selected thread answers. -/
def tryWord (s : State) : Out :=
  match fetchWord s with
  | .word i s' => exec i s'
  | .done o => o

theorem tryWord_of_fetch {s s' t : State} {i : Instr} (hf : fetchWord s = .word i s') (he : exec i s' = .next t) : tryWord s = .next t := by
  simp only [tryWord, hf, he]

theorem step_of_probe {s : State} {k j : Nat} {todo : List Nat} {u : Passes} (h : s.chosen = .probe k (j :: todo) u) :
    step s = .next (probed k j todo u (tryWord (s.probeAt j)) s) := by
  unfold step
  rw [h]
  rfl

/-- The word counts as ready, or the thread waits. -/
theorem probed_cases (k j : Nat) (todo : List Nat) (u : Passes) (o : Out) (s : State) :
    probed k j todo u o s = { s with chosen := .probe k todo { u with others := u.others ++ [j] } } ∨
      ∃ r, probed k j todo u o s = { s.setThread j { s.thread j with wait := some r } with chosen := .probe k todo u } := by
  unfold probed
  split
  · split
    · split
      · exact .inr ⟨_, rfl⟩
      · exact .inl rfl
    · exact .inl rfl
  · exact .inl rfl

theorem probed_of_ready {k j : Nat} {todo : List Nat} {u : Passes} {s t : State} (h : (t.thread j).wait = none) :
    probed k j todo u (.next t) s = { s with chosen := .probe k todo { u with others := u.others ++ [j] } } := by
  simp only [probed, h]

theorem probed_of_waiting {k j : Nat} {todo : List Nat} {u : Passes} {s t : State} {r : WaitReason} (h : (t.thread j).wait = some r)
    (hp : (t.thread j).passes = (s.thread j).passes) :
    probed k j todo u (.next t) s = { s.setThread j { s.thread j with wait := some r } with chosen := .probe k todo u } := by
  simp only [probed, h, hp, if_true]

/-! ### Issuing -/

/-- One pass more, and one fewer (R35). -/
def Thread.passOver (t : Thread) : Thread := { t with passes := t.passes + 1 }
def Thread.unpass (t : Thread) : Thread := { t with passes := t.passes - 1 }

/-- A yielded thread's pause ends (R181). -/
def Thread.endPause (t : Thread) : Thread := if t.wait = some .yielded then { t with wait := none } else t

theorem Thread.endPause_eq (t : Thread) : t.endPause = { t with wait := t.endPause.wait } := by
  unfold Thread.endPause
  split <;> rfl

/-- The threads as the word of thread `k` issues. -/
def State.issuing (s : State) (k : Nat) (u : Passes) : State :=
  let s := s.mapThreads u.others Thread.passOver
  let s := s.mapThreads ((s.residents (s.thread k).coreNo).filter (· != k)) Thread.endPause
  s.setThread k { s.thread k with passes := 0, boosted := none }

theorem State.issuing_eq (s : State) (k : Nat) (u : Passes) :
    s.issuing k u = { s with th := (s.issuing k u).th, parked := (s.issuing k u).parked } := by
  unfold State.issuing
  dsimp only
  rw [State.setThread_eq, State.mapThreads_eq (s.mapThreads _ _), State.mapThreads_eq s]

theorem State.thread_issuing_same (s : State) (k : Nat) (u : Passes) :
    (s.issuing k u).thread k = { s.thread k with passes := 0, boosted := none } := by
  unfold State.issuing
  dsimp only
  rw [State.thread_setThread, if_pos rfl, State.thread_mapThreads, List.count_eq_zero_of_not_mem (by simp), Function.iterate_zero_apply,
    State.thread_mapThreads]
  exact iterate_keeps (f := Thread.passOver) (g := fun x => { x with passes := 0, boosted := none }) (fun _ => rfl) _ _

/-- What neither the pass counters nor the pauses are part of, issuing keeps of every other thread. -/
theorem State.thread_issuing_keeps {α : Type} {g : Thread → α} (hp : ∀ x, g x.passOver = g x) (hy : ∀ x, g x.endPause = g x)
    (s : State) {k j : Nat} (hj : j ≠ k) (u : Passes) : g ((s.issuing k u).thread j) = g (s.thread j) := by
  unfold State.issuing
  dsimp only
  rw [State.thread_setThread, if_neg hj, State.thread_mapThreads, iterate_keeps hy, State.thread_mapThreads, iterate_keeps hp]

/-- Another thread whose word was found ready has been passed over once more. -/
theorem State.passes_issuing (s : State) {k j : Nat} (hj : j ≠ k) {u : Passes} (hu : u.others.count j = 1) :
    ((s.issuing k u).thread j).passes = (s.thread j).passes + 1 := by
  unfold State.issuing
  dsimp only
  rw [State.thread_setThread, if_neg hj, State.thread_mapThreads,
    iterate_keeps (g := Thread.passes) fun x => by rw [x.endPause_eq], State.thread_mapThreads, hu]
  rfl

/-- The state in which the word of thread `k` issues. -/
theorem beginIssue_frame (k : Nat) (u : Passes) (s : State) :
    let t := beginIssue k u s
    t.cur = k ∧ t.th = { s.thread k with passes := 0, boosted := none } ∧ t.chosen = .thread (some u) ∧ t.mem = s.mem ∧
      t.cores = s.cores := by
  have select_eq (s : State) : (s.select k).mem = s.mem ∧ (s.select k).cores = s.cores := by
    unfold State.select
    split <;> exact ⟨rfl, rfl⟩
  obtain ⟨mem, cores⟩ := select_eq (s.issuing k u)
  refine ⟨State.cur_select .., (State.th_select ..).trans (s.thread_issuing_same k u), rfl, mem.trans ?_, cores.trans ?_⟩
  · rw [State.issuing_eq]
  · rw [State.issuing_eq]

theorem State.thread_beginIssue {s : State} {k j : Nat} (hj : j ≠ k) (u : Passes) (hl : (s.thread j).live = true) :
    (beginIssue k u s).thread j = (s.issuing k u).thread j := by
  have live : ((s.issuing k u).thread j).live = true := by
    rw [State.thread_issuing_keeps (g := Thread.live) (fun _ => rfl) (fun x => by rw [x.endPause_eq]) s hj, hl]
  exact State.thread_select_of_live live k

/-! ### A word that was not ready -/

theorem waitFor_eq_waits {r : WaitReason} (h : ∀ pa n, r ≠ .fabric pa n) (s : State) : waitFor r s = s.waits r := by
  cases r
  case fabric pa n => exact absurd rfl (h pa n)
  all_goals rfl

theorem unissue_eq {t : State} {u : Passes} (h : t.chosen = .thread (some u)) :
    let s := t.mapThreads u.others Thread.unpass
    unissue t = { s with th := { s.th with passes := u.count, boosted := u.boosted } } := by
  unfold unissue
  rw [h]
  rfl

theorem State.waits_th {t : State} {u : Passes} (h : t.chosen = .thread (some u)) (r : WaitReason) :
    (t.waits r).th.wait = some r ∧ (t.waits r).th.passes = u.count ∧ (t.waits r).th.boosted = u.boosted := by
  unfold State.waits
  rw [unissue_eq h]
  exact ⟨rfl, rfl, rfl⟩

/-- The counters of the other threads are what they were before the choice. -/
theorem State.thread_waits {t : State} {u : Passes} (h : t.chosen = .thread (some u)) (r : WaitReason) {j : Nat} (hj : j ≠ t.cur) :
    (t.waits r).thread j = Thread.unpass^[u.others.count j] (t.thread j) := by
  have other : j ≠ (t.mapThreads u.others Thread.unpass).cur := by rwa [State.mapThreads_eq]
  rw [← State.thread_mapThreads, State.thread_parked other]
  unfold State.waits
  rw [unissue_eq h]
  exact if_neg other

/-- Settles O35: the ready list is sorted by R34's order, and the counters that issuing raises are those a word that must wait sets
back. -/
theorem issueOrder : Obligations.IssueOrder := by
  unfold Obligations.IssueOrder
  intro c k s
  refine ⟨fun others h => ⟨fun hb hr d j l hl => ?_, fun hn => ?_, State.readyList_head h⟩, issue_of_none,
    fun j todo u h => ⟨?_, fun i s' t hf he => ⟨fun hw => ?_, fun r hw hp => ?_⟩⟩, fun u h => ?_, fun hp hb => ?_⟩
  · exact issue_of_leaf h ((State.leafBefore_of_later hb hr).trans hl)
  · exact issue_of_thread h (State.leafBefore_eq_none hn)
  · rw [step_of_probe h]
    exact (probed_cases ..).imp (congrArg _) fun ⟨r, e⟩ => ⟨r, congrArg _ e⟩
  · rw [step_of_probe h, tryWord_of_fetch hf he, probed_of_ready hw]
  · rw [step_of_probe h, tryWord_of_fetch hf he, probed_of_waiting hw hp]
  · have step_eq : step s = .next (beginIssue k u s) := by
      unfold step
      rw [h]
    obtain ⟨cur, th, chosen, mem, cores⟩ := beginIssue_frame k u s
    refine ⟨_, step_eq, cur, th, chosen, mem, cores, fun j hu hj hl => ?_, fun r hr => ?_⟩
    · rw [State.thread_beginIssue hj u hl]
      exact ⟨s.passes_issuing hj hu,
        State.thread_issuing_keeps (g := Thread.s) (fun _ => rfl) (fun x => by rw [x.endPause_eq]) s hj u⟩
    · rw [waitFor_eq_waits hr]
      obtain ⟨wait, passes, boosted⟩ := State.waits_th chosen r
      refine ⟨wait, passes, boosted, fun j hu hj hl => ?_⟩
      rw [State.thread_waits chosen r (by rwa [cur]), hu, Function.iterate_one, State.thread_beginIssue hj u hl]
      exact Nat.sub_eq_of_eq_add (s.passes_issuing hj hu)
  · show execPassBoost k s = _
    simp [execPassBoost, hp, hb]

end Sys2Proof.Machine
end

section
/-! SUPPORT. Creating threads from launch queues, and with `join` the group object (spec/02 R28, R29, R41). -/

namespace Sys2Proof.Machine

/-! ### Tables and vectors of the model -/

/-- A change of every entry that keeps what an absent entry reads as. -/
theorem Table.get_map {α : Type} (t : Table α) {f : α → α} {d : α} (hd : f d = d) (k : Nat) :
    Table.get (t.map fun e => (e.1, f e.2)) k d = f (t.get k d) := by
  have find : Table.find (t.map fun e => (e.1, f e.2)) k = (t.find k).map f := by
    induction t with
    | nil => rfl
    | cons e t ih =>
      simp only [List.map_cons, Table.find, ih]
      split <;> rfl
  rw [Table.get, Table.get, find]
  cases t.find k
  · exact hd.symm
  · rfl

theorem vector_getD_mapIdx {α β : Type} {n : Nat} (f : Nat → α → β) (v : Vector α n) (i : Nat) (a : α) (b : β) :
    (v.mapIdx f).getD i b = if i < n then f i (v.getD i a) else b := by
  by_cases h : i < n <;> simp [Vector.getD, Array.getD, h]

theorem vector_getD_of_le {α : Type} {n i : Nat} (h : n ≤ i) (v : Vector α n) (a : α) : v.getD i a = a := by
  simp [Vector.getD, Array.getD, h]

theorem vector_getD_set {α : Type} {n : Nat} (v : Vector α n) {i : Nat} (hi : i < n) (j : Nat) (x a : α) :
    (v.set i x hi).getD j a = if j = i then x else v.getD j a := by
  by_cases hj : j = i
  · simp [Vector.getD, Array.getD, hj, hi]
  · by_cases hn : j < n <;> simp [Vector.getD, Array.getD, hn, hj, Ne.symm hj]

/-! ### The registers of a new thread (R29 Table 2) -/

theorem Thread.getS_setS {r : BitVec 6} (hr : r ≠ 0) (t : Thread) (v : Word) (q : BitVec 6) :
    (t.setS r v).getS q = if q = r then v else t.getS q := by
  unfold Thread.getS Thread.setS
  rw [if_neg hr]
  by_cases h0 : q = 0
  · rw [if_pos h0, if_pos h0, if_neg (h0 ▸ Ne.symm hr)]
  · by_cases hq : q = r
    · subst hq
      rw [if_neg h0, if_pos rfl, Vector.getElem_set_self]
    · have : r.toNat ≠ q.toNat := fun h => hq (BitVec.eq_of_toNat_eq h.symm)
      rw [if_neg h0, if_neg h0, if_neg hq, Vector.getElem_set_ne _ _ this]

@[simp] theorem Thread.getS_setHandle (t : Thread) (n : Nat) (x : Word) (r : BitVec 6) : (t.setHandle n x).getS r = t.getS r := by
  simp [Thread.getS]

theorem Thread.getS_zero (r : BitVec 6) : Thread.zero.getS r = 0 := by
  simp [Thread.getS, Thread.zero]

theorem Thread.handle_setHandle {n : Nat} (hn : n < 4) (t : Thread) (x : Word) (m : Nat) :
    (t.setHandle n x).handle m = if m = n then x else t.handle m := by
  simp only [Thread.handle, Thread.setHandle, hn, dif_pos, vector_getD_set]

theorem newThread_getS (p n reuse : Nat) (e : LaunchEntry) (handle : Word) (r : BitVec 6) :
    let d := e.desc.toNat
    let i := e.base + e.next
    (newThread p n reuse e handle).getS r =
      if r = 62 then BitVec.ofNat 64 (descStackBase d + (i + 1) * descStackSize d)
      else if r = 3 then BitVec.ofNat 64 (descCount d) else if r = 2 then BitVec.ofNat 64 i
      else if r = 1 then descArg d else 0 := by
  dsimp only [newThread]
  rw [Thread.getS_setHandle, Thread.getS_setS (by decide), Thread.getS_setS (by decide), Thread.getS_setS (by decide),
    Thread.getS_setS (by decide)]
  congr 4
  exact Thread.getS_zero r

/-- What else R29 Table 2 gives: the rest of a new thread is zero. -/
theorem newThread_fields (p n reuse : Nat) (e : LaunchEntry) (handle : Word) :
    let d := e.desc.toNat
    let x := newThread p n reuse e handle
    x.live = true ∧ x.part = p ∧ x.entry = n ∧ x.pc = descEntry d ∧ x.level = .user ∧ x.isL = descIsL d ∧ x.prio = descPrio d ∧
      x.seq = e.seq ∧ x.index = e.base + e.next ∧ x.tid = BitVec.ofNat 32 (n + reuse % 65536 * 65536) ∧ x.pos = none ∧ x.wait = none ∧
      x.handle 0 = handle := by
  dsimp only [newThread]
  simp only [Thread.setHandle_live, Thread.setHandle_part, Thread.setHandle_entry, Thread.setHandle_pc, Thread.setHandle_level,
    Thread.setHandle_isL, Thread.setHandle_prio, Thread.setHandle_seq, Thread.setHandle_index, Thread.setHandle_tid,
    Thread.setHandle_pos, Thread.setHandle_wait, Thread.handle_setHandle, Nat.zero_lt_succ, Thread.setS_live, Thread.setS_part,
    Thread.setS_entry, Thread.setS_pc, Thread.setS_level, Thread.setS_isL, Thread.setS_prio, Thread.setS_seq, Thread.setS_index,
    Thread.setS_tid, Thread.setS_pos, Thread.setS_wait, Thread.zero, if_true, and_self]

/-! ### Launch queues -/

theorem Partition.headLaunch_eq {q : Partition} {k : Nat} {e : LaunchEntry} {rest : List LaunchEntry} (hk : k < 8)
    (lower : ∀ j < k, q.queues.getD j [] = []) (hq : q.queues.getD k [] = e :: rest) : q.headLaunch = some (k, e) := by
  obtain ⟨m, hm⟩ : ∃ m, 8 = k + (m + 1) := ⟨7 - k, by omega⟩
  have range : List.range 8 = List.range k ++ k :: (List.range m).map fun j => k + (j + 1) := by
    rw [hm, List.range_add, List.range_succ_eq_map]
    simp
  rw [Partition.headLaunch, range, List.findSome?_eq_some_iff]
  refine ⟨List.range k, k, _, rfl, by simp [hq], fun j hj => ?_⟩
  · simp [lower j (List.mem_range.mp hj)]

/-- The queues once the head of one was replaced or removed. -/
theorem Partition.queues_setHead {q : Partition} {k : Nat} (hk : k < 8) (x : Option LaunchEntry) (j : Nat) :
    (q.setHead k x).queues.getD j [] = if j = k then x.toList ++ (q.queues.getD k []).drop 1 else q.queues.getD j [] := by
  rw [Partition.setHead, vector_getD_mapIdx _ _ _ []]
  by_cases h : j = k
  · subst h
    cases x <;> simp [hk]
  · by_cases hj : j < 8
    · simp [h, hj]
    · rw [if_neg hj, if_neg h, vector_getD_of_le (Nat.le_of_not_lt hj)]

theorem takeEntry_named {s : State} {p n : Nat} (hn : n < 65536) (free : (s.thread (threadKey p n)).live = false) :
    takeEntry s p (some n) = some n := by
  simp [takeEntry, hn, free]

/-! ### Writing at the home where nothing is cached -/

/-- A partition whose migrating pages note a write (R373). -/
def Partition.noted (pa n : Nat) (q : Partition) : Partition := { q with migs := q.migs.map fun g => markMigration g pa n }

theorem Partition.noted_of_none {q : Partition} (h : q.migs = []) (pa n : Nat) : q.noted pa n = q := by
  rw [Partition.noted, h, List.map_nil, ← h]

/-- A write at the home of storage that no cache, update line, frame or collective holds: the bytes, and a note of it where granules are
poisoned, collectives open and pages migrating. -/
theorem physWrite_of_uncached {s : State} (hf : s.frames = []) (hc : s.coherent = true) (hu : NoUpdates s) (hl : s.plat.linkLost = false)
    (hs : s.unseen = []) {pa : Nat} (hpa : isFabric pa = false) (n v : Nat) :
    physWrite s pa n v = { s with
      mem := s.mem.writeLE pa v n, poison := clearPoison s.poison pa n, colls := s.colls.map (Coll.written pa n)
      parts := s.parts.map fun e => (e.1, e.2.noted pa n) } := by
  simp only [physWrite, putHome, recallRange_of_noUpdates hu, hl, Bool.false_and, Bool.false_eq_true, if_false,
    State.settle_of_coherent hc, sendOut_of_not_fabric hpa, State.putBytes, State.wrMem_of_noFrames hf]
  rw [spoilUnseen_of_none (by exact hs)]
  congr 1
  refine List.map_congr_left fun e _ => ?_
  split
  · next h => rw [Partition.noted_of_none h]
  · rfl

theorem State.rdHome_of_uncached {s : State} (hf : s.frames = []) (hc : s.coherent = true) (pa n : Nat) :
    s.rdHome pa n = s.mem.readLE pa n := by
  have late : s.late = [] := by
    simp only [State.coherent, Bool.and_eq_true, List.isEmpty_iff] at hc
    exact hc.1
  simp only [State.rdHome, State.rdMem, late, hf]

/-! ### The group a launch joins (R41) -/

theorem descGroup_eq (d : Nat) : descGroup d = BitVec.ofNat 64 (bits d 255 192) := by
  refine BitVec.eq_of_toNat_eq ?_
  simp only [descGroup, bits, BitVec.toNat_ofNat, Nat.reduceAdd, Nat.reduceSub, Nat.mod_mod]

/-- A launch that joins no group. -/
theorem joinLaunch_of_alone {e : LaunchEntry} (h : descJoin e.desc.toNat = false) (s : State) : joinLaunch e s = .ok (some (0, s)) := by
  simp only [joinLaunch, h, Bool.not_false, if_true]

/-- A launch whose group an earlier creation has entered. -/
theorem joinLaunch_of_counted {e : LaunchEntry} (h : descJoin e.desc.toNat = true) {x : Word} (hx : e.handle = some x) (s : State) :
    joinLaunch e s = .ok (some (x, s)) := by
  simp only [joinLaunch, h, hx, Bool.not_true, Bool.false_eq_true, if_false]

/-- The group object of a launch, as memory holds it. -/
def LaunchEntry.object (e : LaunchEntry) (m : Mem) : GObj := GObj.ofNat (m.readLE e.gpa 64)

/-- The launch enters its group: nothing else holds the object, which has room for it. -/
def LaunchEntry.Enters (e : LaunchEntry) (s : State) : Prop :=
  let o := e.object s.mem
  s.frames = [] ∧ s.coherent = true ∧ NoUpdates s ∧ s.plat.linkLost = false ∧ s.unseen = [] ∧ isFabric e.gpa = false ∧ o.rest = 0 ∧
    o.arrived ≤ o.members ∧ o.members + e.count ≤ 65535

/-- The first 24 bytes of the object once the launch is counted. -/
def LaunchEntry.entered (e : LaunchEntry) (m : Mem) : Nat :=
  let o := e.object m
  { o with members := o.members + e.count }.toNat

/-- The first creation of a launch that joins. -/
theorem joinLaunch_of_first {e : LaunchEntry} {s : State} (hj : descJoin e.desc.toNat = true) (hh : e.handle = none)
    (h : e.Enters s) : joinLaunch e s =
      .ok (some (handleOf (descGroup e.desc.toNat) (e.object s.mem).phase, physWrite s e.gpa 24 (e.entered s.mem))) := by
  obtain ⟨hf, hc, hu, -, -, hpa, rest, arrived, room⟩ := h
  have consistent : (e.object s.mem).inconsistent = false := by simp [GObj.inconsistent, rest, arrived]
  have read : physRead (freshen e.gpa 64 s) e.gpa 64 = (s, s.mem.readLE e.gpa 64) := by
    simp [physRead, freshen, hpa, recallRange_of_noUpdates hu, State.rdHome_of_uncached hf hc]
  unfold joinLaunch
  simp only [hj, hh, read, Bool.not_true, Bool.false_eq_true, if_false]
  exact (if_neg (ne_true_of_eq_false consistent)).trans (if_neg (Nat.not_lt.mpr room))

/-- The handle a creation gives. -/
def LaunchEntry.given (e : LaunchEntry) (m : Mem) : Word :=
  if e.desc.toNat.testBit 164 then
    e.handle.getD (handleOf (BitVec.ofNat 64 (bits e.desc.toNat 255 192)) (e.object m).phase)
  else 0

/-- The step on the group object: the launch is counted, or was before, and nothing but memory and the notes of a write changes. -/
theorem joinLaunch_cases {e : LaunchEntry} {s : State} (p : Nat)
    (first : e.desc.toNat.testBit 164 = true ∧ e.handle = none → e.Enters s) :
    ∃ u, joinLaunch e s = .ok (some (e.given s.mem, u)) ∧ (u.part p).queues = (s.part p).queues ∧
      u.mem = if e.desc.toNat.testBit 164 = true ∧ e.handle = none then s.mem.writeLE e.gpa (e.entered s.mem) 24 else s.mem := by
  cases hj : e.desc.toNat.testBit 164
  case false =>
    have given : e.given s.mem = 0 := by simp [LaunchEntry.given, hj]
    exact ⟨s, given ▸ joinLaunch_of_alone hj s, rfl, by simp⟩
  case true =>
    cases hh : e.handle
    case some x =>
      have given : e.given s.mem = x := by simp [LaunchEntry.given, hj, hh]
      exact ⟨s, given ▸ joinLaunch_of_counted hj hh s, rfl, by simp⟩
    case none =>
      have enters := first ⟨hj, hh⟩
      have given : e.given s.mem = handleOf (descGroup e.desc.toNat) (e.object s.mem).phase := by
        simp [LaunchEntry.given, hj, hh, descGroup_eq]
      obtain ⟨hf, hc, hu, hl, hs, hpa, -⟩ := id enters
      have written := physWrite_of_uncached hf hc hu hl hs hpa 24 (e.entered s.mem)
      refine ⟨_, given ▸ joinLaunch_of_first hj hh enters, ?_, ?_⟩
      · rw [written, State.part, Table.get_map _ (Partition.noted_of_none rfl _ _)]
        rfl
      · rw [written, if_pos ⟨rfl, rfl⟩]

/-! ### One creation -/

/-- What stands of a launch entry once its next thread exists, whose handle is `h`. -/
def LaunchEntry.after (e : LaunchEntry) (h : Word) : Option LaunchEntry :=
  if e.next + 1 < e.count then some { e with next := e.next + 1, handle := if descJoin e.desc.toNat then some h else none } else none

theorem threadCreate_eq {s u : State} {p k n : Nat} {e : LaunchEntry} {h : Word} (head : (s.part p).headLaunch = some (k, e))
    (entry : takeEntry s p (some n) = some n) (join : joinLaunch e s = .ok (some (h, u))) :
    exec (.threadCreate p (some n)) s = .next ((u.setPart p ((u.part p).setHead k (e.after h))).setThread (threadKey p n)
      (newThread p n ((s.part p).reuse.get n 0) e h)).tick := by
  show execThreadCreate p (some n) s = _
  simp only [execThreadCreate, head, entry, join]
  rfl

/-- What a creation leaves: the thread, what stands of the queues, and memory as the step on the group object left it. -/
theorem threadCreate_creates {s u : State} {p k n : Nat} {e : LaunchEntry} {rest : List LaunchEntry} {h : Word} (hk : k < 8)
    (lower : ∀ j < k, (s.part p).queues.getD j [] = []) (hq : (s.part p).queues.getD k [] = e :: rest) (hn : n < 65536)
    (free : (s.thread (threadKey p n)).live = false) (join : joinLaunch e s = .ok (some (h, u)))
    (same : (u.part p).queues = (s.part p).queues) :
    ∃ t : State, exec (.threadCreate p (some n)) s = .next t ∧
      t.thread (threadKey p n) = newThread p n ((s.part p).reuse.get n 0) e h ∧
      (∀ j, (t.part p).queues.getD j [] = if j = k then (e.after h).toList ++ rest else (s.part p).queues.getD j []) ∧ t.mem = u.mem := by
  refine ⟨_, threadCreate_eq (Partition.headLaunch_eq hk lower hq) (takeEntry_named hn free) join, ?_, fun j => ?_, ?_⟩
  · exact (State.thread_setThread ..).trans (if_pos rfl)
  · have part (x : Partition) (y : Thread) : (((u.setPart p x).setThread (threadKey p n) y).tick).part p = x := by
      rw [State.part, State.tick_parts, State.setThread_parts]
      exact State.part_setPart_same u p x
    rw [part, Partition.queues_setHead hk, same, hq, List.drop_one, List.tail_cons]
  · rw [State.tick_mem, State.setThread_mem, State.setPart_mem]

/-- The thread that a creation gives, register by register (R29 Table 2). -/
theorem newThread_registers (p n reuse : Nat) (e : LaunchEntry) (handle : Word) :
    let d := e.desc.toNat
    let i := e.base + e.next
    let x := newThread p n reuse e handle
    x.getS 1 = BitVec.ofNat 64 (d / 2 ^ 64) ∧ x.getS 2 = BitVec.ofNat 64 i ∧ x.getS 3 = BitVec.ofNat 64 (bits d 159 128) ∧
      x.getS 62 = BitVec.ofNat 64 (bits d 319 256 + (i + 1) * bits d 383 320) ∧
      ∀ r, r ≠ 1 → r ≠ 2 → r ≠ 3 → r ≠ 62 → x.getS r = 0 := by
  intro d i x
  refine ⟨?_, newThread_getS p n reuse e handle 2, newThread_getS p n reuse e handle 3, newThread_getS p n reuse e handle 62,
    fun r h1 h2 h3 h62 => ?_⟩
  · rw [← Nat.shiftRight_eq_div_pow]
    exact newThread_getS p n reuse e handle 1
  · refine (newThread_getS p n reuse e handle r).trans ?_
    rw [if_neg h62, if_neg h3, if_neg h2, if_neg h1]

end Sys2Proof.Machine
end

section
/-! SUPPORT. Placing threads in slots and keeping a core for an L thread (spec/02 R31, R32, R33): with the creation of threads, what
settles O34. -/

namespace Sys2Proof.Machine

/-! ### Threads without a slot -/

theorem State.mem_unplaced {s : State} {p k : Nat} : k ∈ s.unplaced p ↔
    k ∈ s.threadsOf p ∧ ((s.thread k).pos.isNone && !(s.thread k).saved) = true :=
  (perm_sortBy ..).mem_iff.trans List.mem_filter

theorem State.part_of_unplaced {s : State} {p k : Nat} (h : k ∈ s.unplaced p) : (s.thread k).part = p :=
  beq_iff_eq.mp (List.mem_filter.mp (State.mem_unplaced.mp h).1).2

theorem div_of_mem_coresOf {p c : Nat} (h : c ∈ coresOf p) : c / 40 = p := by
  obtain ⟨i, hi, rfl⟩ := List.mem_map.mp h
  have := List.mem_range.mp hi
  omega

theorem State.coreEmpty_iff {s : State} {c : Nat} : s.coreEmpty c = true ↔ s.residents c = [] := List.isEmpty_iff

/-! ### Where a thread can go (R31) -/

/-- What makes slot `l` of core `c` one that thread `k` can take (R22, R31, R33). -/
theorem State.canTake_iff {s : State} {k c l : Nat} : s.canTake k c l = true ↔
    (s.core c).inService = true ∧ (s.thread k).req &&& ~~~((s.core c).feat.setWidth 16) = 0 ∧
      (∀ r, (s.core c).reserved = some r → r = k) ∧ s.inSlot c l = none ∧
      ∀ j ∈ lanesFor (s.thread k).isL l, s.laneOwner c j = none := by
  have kept : ((s.core c).reserved.isNone || (s.core c).reserved == some k) = true ↔ ∀ r, (s.core c).reserved = some r → r = k := by
    cases (s.core c).reserved <;> simp
  simp only [State.canTake, Bool.and_eq_true, and_assoc, kept, beq_iff_eq, List.all_eq_true, Option.isNone_iff_eq_none]

/-- Slot `l` of core `c` suits thread `k`: it can take the thread, alone where that is of class L, else on an empty core or one of its
class. -/
structure State.Suits (s : State) (k c l : Nat) : Prop where
  core : c ∈ coresOf (s.thread k).part
  lane : l < 4
  takes : s.canTake k c l = true
  alone : (s.thread k).isL = true → l = 0 ∧ s.residents c = []
  class_ : s.residents c = [] ∨ (s.thread k).isL = false ∧ s.coreClass c = some false

theorem State.laneFor_some {s : State} {k c l : Nat} (h : s.laneFor k c = some l) : l < 4 ∧ s.canTake k c l = true :=
  ⟨List.mem_range.mp (List.mem_of_find?_eq_some h), List.find?_some h⟩

theorem State.suits_of_laneFor {s : State} {k c l d : Nat} (hd : d ∈ coresOf (s.thread k).part) (hL : (s.thread k).isL = false)
    (hc : s.residents d = [] ∨ s.coreClass d = some false) (h : ((s.laneFor k d).map fun l => (d, l)) = some (c, l)) : s.Suits k c l := by
  obtain ⟨l', hl, e⟩ := Option.map_eq_some_iff.mp h
  obtain ⟨rfl, rfl⟩ := Prod.mk.inj e
  obtain ⟨lane, takes⟩ := State.laneFor_some hl
  exact ⟨hd, lane, takes, fun h => absurd h (by simp [hL]), hc.imp_right fun h => ⟨hL, h⟩⟩

/-- The core and slot the dispatcher chooses suit the thread. -/
theorem State.suits_of_placeFor {s : State} {k c l : Nat} (h : s.placeFor k = some (c, l)) : s.Suits k c l := by
  unfold State.placeFor at h
  dsimp only at h
  cases hL : (s.thread k).isL
  case true =>
    simp only [hL, if_true] at h
    obtain ⟨d, hd, h⟩ := List.exists_of_findSome?_eq_some h
    split_ifs at h with empty takes
    obtain ⟨rfl, rfl⟩ := Prod.mk.inj (Option.some.inj h)
    have none_there := State.coreEmpty_iff.mp empty
    exact ⟨hd, Nat.zero_lt_succ _, takes, fun _ => ⟨rfl, none_there⟩, .inl none_there⟩
  case false =>
    simp only [hL, Bool.false_eq_true, if_false] at h
    split at h
    · next x hx =>
      obtain ⟨d, hd, hx⟩ := List.exists_of_findSome?_eq_some (hx.trans h)
      split_ifs at hx with there
      exact State.suits_of_laneFor hd hL (.inr (beq_iff_eq.mp (Bool.and_eq_true_iff.mp there).1)) hx
    · split at h
      · next x hx =>
        obtain ⟨d, hd, hx⟩ := List.exists_of_findSome?_eq_some (hx.trans h)
        split_ifs at hx with empty
        exact State.suits_of_laneFor hd hL (.inl (State.coreEmpty_iff.mp empty)) hx
      · obtain ⟨d, hd, h⟩ := List.exists_of_findSome?_eq_some h
        split_ifs at h with there
        exact State.suits_of_laneFor hd hL (.inr (beq_iff_eq.mp there)) h

/-! ### What placing does -/

/-- A core that thread `k` no longer reserves (R33). -/
def Core.unkept (k : Nat) (x : Core) : Core := if x.reserved = some k then { x with reserved := none } else x

theorem Core.reserved_unkept {k r : Nat} {x : Core} (h : (x.unkept k).reserved = some r) : r ≠ k := by
  unfold Core.unkept at h
  split at h
  · exact absurd h (by simp)
  · next hk => exact fun e => hk (e ▸ h)

/-- A core as a thread of class `isL` starts in its slot `l`, `empty` saying that the core was and `halted` that its partition is. -/
def Core.taken (isL : Bool) (l : Nat) (empty halted : Bool) (x : Core) : Core :=
  let b : BitVec 8 := BitVec.ofNat 8 (2 ^ l)
  let x := if empty then { x with cls := some isL } else x
  if halted then x else { x with stop := x.stop &&& ~~~b, stopped := x.stopped &&& ~~~b }

theorem Core.taken_frame (isL : Bool) (l : Nat) (empty halted : Bool) (x : Core) :
    (x.taken isL l empty halted).reserved = x.reserved ∧ (empty = true → (x.taken isL l empty halted).cls = some isL) ∧
      (l < 8 → halted = false → (x.taken isL l empty halted).stop.getLsbD l = false) := by
  unfold Core.taken
  refine ⟨?_, fun he => ?_, fun hl hh => ?_⟩
  · cases empty <;> cases halted <;> rfl
  · cases halted <;> simp [he]
  · have bit : (BitVec.ofNat 8 (2 ^ l)).getLsbD l = true := by
      rw [BitVec.getLsbD_ofNat, Nat.testBit_two_pow_self, decide_eq_true hl]
      rfl
    simp only [hh, Bool.false_eq_true, if_false, BitVec.getLsbD_and, BitVec.getLsbD_not, bit, Bool.not_true, Bool.and_false]

/-- At a scope inside the device an acquire drops copies that a cluster's caches hold, and no more. -/
theorem acquireLines_inner (cov : Nat → Bool) (d : Nat) {sc : Nat} (h : sc < 5) (s : State) :
    acquireLines cov d sc s = { s with clusters := (acquireLines cov d sc s).clusters } := by
  unfold acquireLines
  simp only [h, if_true]
  split_ifs
  · rfl
  · cases (s.cluster d).stale with
    | nil => dsimp only; split <;> rfl
    | cons => dsimp only; split <;> rfl

/-- The thread in its slot, where its vector context is too. -/
def Thread.placed (c l : Nat) (t : Thread) : Thread :=
  { t with pos := some ⟨c / 4 % 10, c % 4, l⟩, home := some ⟨c / 4 % 10, c % 4, l⟩, lc := some l, passes := 0, boosted := none }

/-- The state in which the thread has its place and has acquired the default object (R26, R81), its slot not started yet. -/
def entering (k c l : Nat) (s : State) : State :=
  let u := unreserve k (s.setThread k ((s.thread k).placed c l))
  acquireLines (u.unbound (s.thread k).part) (c / 4) 2 u

theorem entering_thread (k c l : Nat) (s : State) : (entering k c l s).thread k = (s.thread k).placed c l := by
  rw [entering, acquireLines_inner _ _ (by decide)]
  exact (State.thread_setThread ..).trans (if_pos rfl)

theorem entering_frame (k c l : Nat) (s : State) :
    (entering k c l s).mem = s.mem ∧ (entering k c l s).parts = s.parts ∧ (entering k c l s).core c = (s.core c).unkept k := by
  rw [entering, acquireLines_inner _ _ (by decide)]
  refine ⟨State.setThread_mem .., State.setThread_parts .., ?_⟩
  have reset : Core.reset.unkept k = Core.reset := rfl
  rw [State.core, unreserve, State.setThread_cores]
  exact Table.get_map s.cores reset c

theorem placeThread_eq (k c l : Nat) (s : State) : placeThread k c l s =
    let t := s.thread k
    let u := entering k c l s
    let x := (u.core c).taken t.isL l (s.coreEmpty c) (u.part t.part).halted
    (u.setCore c x).setThread k (((u.setCore c x).thread k).clipVl x.lpc) := rfl

/-- What a placement leaves: VCFG holds a VL that the core's lanes allow. -/
theorem placeThread_spec (k c l : Nat) (s : State) :
    let t := placeThread k c l s
    (∃ vcfg, t.thread k = { (s.thread k).placed c l with vcfg := vcfg }) ∧
      t.core c = ((s.core c).unkept k).taken (s.thread k).isL l (s.coreEmpty c) (s.part (s.thread k).part).halted ∧
      t.mem = s.mem ∧ t.parts = s.parts := by
  obtain ⟨mem, parts, core⟩ := entering_frame k c l s
  dsimp only
  rw [placeThread_eq]
  dsimp only
  refine ⟨⟨_, (State.thread_setThread ..).trans ((if_pos rfl).trans (congrArg (Thread.clipVl _) (entering_thread k c l s)))⟩, ?_, ?_, ?_⟩
  · rw [State.core, State.setThread_cores]
    refine (State.core_setCore_same ..).trans ?_
    rw [core, State.part, parts]
    rfl
  · rw [State.setThread_mem, State.setCore_mem, mem]
  · rw [State.setThread_parts, State.setCore_parts, parts]

/-! ### The two steps -/

/-- THREAD_PLACE takes the first unplaced thread where the dispatcher finds a place for it. -/
theorem threadPlace_of_first {s : State} {p k c l : Nat} {rest : List Nat} (hk : s.unplaced p = k :: rest)
    (h : s.placeFor k = some (c, l)) : exec (.threadPlace p) s = .next (placeThread k c l s) := by
  show execThreadPlace p s = _
  simp only [execThreadPlace, hk, List.findSome?_cons, h, Option.map_some]

theorem threadPlace_of_none {s : State} {p : Nat} (h : ∀ j ∈ s.unplaced p, s.placeFor j = none) :
    exec (.threadPlace p) s = .next s := by
  have nowhere : ((s.unplaced p).findSome? fun k => (s.placeFor k).map fun x => (k, x)) = none :=
    List.findSome?_eq_none_iff.mpr fun j hj => by rw [h j hj, Option.map_none]
  show execThreadPlace p s = _
  simp only [execThreadPlace, nowhere]

theorem State.mem_passedOver {s : State} {p c j : Nat} : j ∈ s.passedOver p c ↔
    j ∈ s.unplaced p ∧ (s.thread j).isL = true ∧ (∀ c' ∈ coresOf p, (s.core c').reserved ≠ some j) ∧ s.canTake j c 0 = true := by
  simp only [State.passedOver, List.mem_filter, Bool.and_eq_true, Bool.not_eq_true', List.any_eq_false, beq_iff_eq, and_assoc, ne_eq]

theorem lThreadReserve_of_none {s : State} {p c : Nat} (h : s.passedOver p c = [] ∨ s.residents c ≠ []) :
    exec (.lThreadReserve p c) s = .next s := by
  show execLThreadReserve p c s = _
  unfold execLThreadReserve
  rcases h with none_waits | occupied
  · simp [none_waits]
  · have busy : s.coreEmpty c = false := Bool.eq_false_iff.mpr fun e => occupied (State.coreEmpty_iff.mp e)
    dsimp only
    split
    · simp [busy]
    · rfl

/-- L_THREAD_RESERVE keeps the empty core for one of those passed over; where there is one alone, no free choice is made. -/
theorem lThreadReserve_of_some {s : State} {p c : Nat} (h : s.passedOver p c ≠ []) (hp : c / 40 = p) (hc : s.residents c = []) :
    ∃ j ∈ s.passedOver p c, ∃ n : Nat,
      exec (.lThreadReserve p c) s = .next { s.setCore c { s.core c with reserved := some j } with free := n } ∧
        ((s.passedOver p c).length ≤ 1 → n = s.free) := by
  have empty : (c / 40 == p && s.coreEmpty c) = true := by simp [hp, State.coreEmpty_iff.mpr hc]
  by_cases hl : (s.passedOver p c).length ≤ 1
  · obtain ⟨j, rest, hj⟩ := List.exists_cons_of_ne_nil h
    have head : (s.passedOver p c).head? = some j := by rw [hj, List.head?_cons]
    refine ⟨j, List.mem_of_mem_head? head, s.free, ?_, fun _ => rfl⟩
    show execLThreadReserve p c s = _
    simp only [execLThreadReserve, if_pos hl, head, empty, if_true]
    rfl
  · have bound : Config.freeNat s.free % (s.passedOver p c).length < (s.passedOver p c).length := Nat.mod_lt _ (by omega)
    refine ⟨_, List.getElem_mem bound, s.free + 1, ?_, fun h => absurd h hl⟩
    show execLThreadReserve p c s = _
    simp only [execLThreadReserve, if_neg hl, List.getElem?_eq_getElem bound, empty, if_true]
    rfl

/-- Where one thread alone waits, listed once, it alone has been passed over. -/
theorem State.length_passedOver_le_one {s : State} {p c x : Nat} (only : ∀ j ∈ s.passedOver p c, j = x)
    (once : (s.unplaced p).count x = 1) : (s.passedOver p c).length ≤ 1 := by
  have all : (s.passedOver p c).count x = (s.passedOver p c).length := List.count_eq_length.mpr fun j hj => (only j hj).symm
  rw [← all, ← once]
  exact List.Sublist.count_le x List.filter_sublist

/-- The head of the queue after a creation. -/
theorem LaunchEntry.after_given (e : LaunchEntry) (m : Mem) (rest : List LaunchEntry) :
    let given : Word := e.handle.getD (handleOf (BitVec.ofNat 64 (bits e.desc.toNat 255 192)) (e.object m).phase)
    (e.after (e.given m)).toList ++ rest = if e.next + 1 < e.count then
      { e with next := e.next + 1, handle := if e.desc.toNat.testBit 164 then some given else none } :: rest else rest := by
  intro given
  have handle : (if descJoin e.desc.toNat then some (e.given m) else none) = if e.desc.toNat.testBit 164 then some given else none := by
    unfold descJoin LaunchEntry.given
    split <;> rfl
  unfold LaunchEntry.after
  rw [handle]
  split <;> rfl

/-- Settles O34, from what a creation, a placement and a reservation do. -/
theorem threadCreationAndPlacement : Obligations.ThreadCreationAndPlacement := by
  unfold Obligations.ThreadCreationAndPlacement
  refine ⟨fun p k n e rest s => ?_, fun p k c l s => ⟨fun rest hk h => ?_, threadPlace_of_none, fun waiting hw => ⟨fun h => ?_, fun h hp hc => ?_⟩⟩⟩
  · intro q d key i join g o hk lower hq hn free first
    obtain ⟨u, counted, same, umem⟩ := joinLaunch_cases p first
    obtain ⟨t, run, thread, queues, mem⟩ := threadCreate_creates hk lower hq hn free counted same
    refine ⟨t, run, ?_, ⟨?_, fun j hj => (queues j).trans (if_neg hj)⟩, ?_⟩
    · obtain ⟨live, part, entry, pc, level, isL, prio, seq, index, tid, pos, wait, handle⟩ :=
        newThread_fields p n (q.reuse.get n 0) e (e.given s.mem)
      obtain ⟨s1, s2, s3, s62, others⟩ := newThread_registers p n (q.reuse.get n 0) e (e.given s.mem)
      rw [← thread] at *
      exact ⟨live, part, entry, pc, level, s1, s2, s3, s62, others, isL, prio, seq, index, tid, pos, wait, handle⟩
    · exact (queues k).trans ((if_pos rfl).trans (e.after_given s.mem rest))
    · rw [mem, umem]
      split
      · rfl
      · rfl
  · obtain ⟨core, lane, takes, alone, class_⟩ := State.suits_of_placeFor h
    obtain ⟨⟨vcfg, thread⟩, tcore, mem, parts⟩ := placeThread_spec k c l s
    obtain ⟨inService, req, kept, slot, lanes⟩ := State.canTake_iff.mp takes
    have part : (s.thread k).part = p := State.part_of_unplaced (hk ▸ List.mem_cons_self)
    obtain ⟨reserved, cls, stop⟩ := Core.taken_frame (s.thread k).isL l (s.coreEmpty c) (s.part p).halted ((s.core c).unkept k)
    rw [part] at core tcore
    rw [← tcore] at reserved cls stop
    refine ⟨_, threadPlace_of_first hk h, div_of_mem_coresOf core, lane, alone, inService, req, kept, slot, lanes, ?_, ?_, ?_, ?_, ?_, ?_,
      stop (by omega), fun r hr => Core.reserved_unkept (reserved ▸ hr), mem, parts⟩
    · split
      · next empty => exact cls (State.coreEmpty_iff.mpr empty)
      · next occupied => exact class_.resolve_left occupied
    all_goals rw [thread]; rfl
  · exact lThreadReserve_of_none (h.imp_left fun none_waits => List.eq_nil_iff_forall_not_mem.mpr fun j hj => by
      have := (hw j).mpr (State.mem_passedOver.mp hj)
      rw [none_waits] at this
      exact absurd this List.not_mem_nil)
  · have same (j : Nat) : j ∈ s.passedOver p c ↔ j ∈ waiting := State.mem_passedOver.trans (hw j).symm
    obtain ⟨x, hx⟩ := List.exists_mem_of_ne_nil _ h
    obtain ⟨j, hj, n, run, free⟩ := lThreadReserve_of_some (List.ne_nil_of_mem ((same x).mpr hx)) hp hc
    refine ⟨j, (same j).mp hj, n, run, fun x hx once => free (State.length_passedOver_le_one (fun j hj => ?_) once)⟩
    exact List.mem_singleton.mp (hx ▸ (same j).mp hj)

end Sys2Proof.Machine
end

section
/-! SUPPORT. Accesses of a thread on a quiet machine: where they land, what they read, and that they leave the state alone (spec/03 R50,
R51, R57, R60, R65, R85). -/

namespace Sys2Proof.Machine

/-! ### What a quiet machine is -/

theorem Quiet.plainMem {s : State} (h : Quiet s) : PlainMem s := by
  obtain ⟨⟨-, -, -, -, poison, coherent, updates, unseen, parts⟩, frames⟩ := h
  exact ⟨poison, frames, coherent, updates, unseen, fun e he => (parts e he).1⟩

/-- Quiet is what memory, the partitions' engines and a few fields of the selected thread say. -/
theorem Quiet.congr {s t : State} (h : Quiet s) (level : t.th.level = s.th.level) (part : t.th.part = s.th.part)
    (vldas : t.th.vldas = s.th.vldas) (parts : t.parts = s.parts) (cores : t.cores = s.cores) (clusters : t.clusters = s.clusters)
    (zjobs : t.zjobs = s.zjobs) (poison : t.poison = s.poison) (late : t.late = s.late) (unseen : t.unseen = s.unseen)
    (frames : t.frames = s.frames) : Quiet t := by
  unfold Quiet Still NoUpdates State.coherent State.part at *
  rw [level, part, vldas, parts, cores, clusters, zjobs, poison, late, unseen, frames]
  exact h

theorem Quiet.tick {s : State} (h : Quiet s) : Quiet s.tick := h.congr rfl rfl rfl rfl rfl rfl rfl rfl rfl rfl rfl

theorem Still.late_nil {s : State} (h : Still s) : s.late = [] := by
  obtain ⟨-, -, -, -, -, coherent, -⟩ := h
  simp only [State.coherent, Bool.and_eq_true, List.isEmpty_iff] at coherent
  exact coherent.1

/-- What every entry of a table has, and the default, a look-up has. -/
theorem Table.get_of_forall {α : Type} {P : α → Prop} {t : Table α} {d : α} (h : ∀ e ∈ t, P e.2) (hd : P d) (k : Nat) :
    P (t.get k d) := by
  induction t with
  | nil => exact hd
  | cons e t ih =>
    unfold Table.get Table.find
    split
    · exact h e List.mem_cons_self
    · exact ih fun x hx => h x (List.mem_cons_of_mem _ hx)

/-- No cluster holds an older copy. -/
theorem Still.stale_nil {s : State} (h : Still s) (c : Nat) : (s.cluster c).stale = [] := by
  obtain ⟨-, -, -, -, -, coherent, -⟩ := h
  simp only [State.coherent, Bool.and_eq_true, List.all_eq_true, List.isEmpty_iff] at coherent
  exact Table.get_of_forall (P := fun k : Cluster => k.stale = []) coherent.2 rfl c

/-- No core holds an update line. -/
theorem NoUpdates.core {s : State} (h : NoUpdates s) (c : Nat) : (s.core c).upd = [] :=
  Table.get_of_forall (P := fun k : Core => k.upd = []) h rfl c

/-! ### Where an access lands -/

/-- No channel runs whose watermark could stall an access. -/
theorem Still.watermarkStall {s : State} (h : Still s) (w : Who) (pa n : Nat) : watermarkStall s w pa n = none := by
  obtain ⟨-, -, -, -, -, -, -, -, parts⟩ := h
  unfold Machine.watermarkStall
  split
  · rfl
  · refine List.findSome?_eq_none_iff.mpr fun e he => Option.map_eq_none_iff.mpr (List.find?_eq_none.mpr fun c hc => ?_)
    have hc := List.mem_range.mp hc
    have idle := (parts e he).2 c hc
    have chan : e.2.chans.getD c Channel.reset = e.2.chans[c] := by simp [Vector.getD, Array.getD, hc]
    rw [chan] at idle
    simp [hc, idle]

/-- Above user level, with translation off, an address below the end of HBM is physical (R50, R54). -/
theorem Still.translate {s : State} (h : Still s) {ea : Word} (he : ea.toNat < hbmEnd) (need : Need) :
    translate s.th.who need ea s = .ok ⟨ea.toNat, 0, false, none⟩ s := by
  obtain ⟨level, off, -⟩ := h
  have user : s.th.who.user = false := decide_eq_false level
  have part : s.th.who.part = s.th.part := rfl
  have phys : s.th.who.phys = false := rfl
  unfold hbmEnd at he
  have high : ¬ ea.toNat ≥ 2 ^ 63 := by omega
  have b1 : (bits ea.toNat 62 57 != 0) = false := by
    simp [bits, Nat.shiftRight_eq_div_pow]; omega
  have b2 : (bits ea.toNat 56 52 != 0) = false := by
    simp [bits, Nat.shiftRight_eq_div_pow]; omega
  unfold Machine.translate
  simp only [M.run_bind, M.run_get, high, if_false, b1, b2, user, part, phys, off, Bool.not_false, Bool.or_true, if_true,
    Bool.false_eq_true, M.run_pure]

theorem M.run_raiseFirst {l : List (Bool × Nat)} (h : ∀ x ∈ l, x.1 = false) (xval : Word) (s : State) :
    raiseFirst l xval s = .ok () s := by
  have nothing : firstCause l = none := by
    induction l with
    | nil => rfl
    | cons x l ih =>
      obtain ⟨c, code⟩ := x
      obtain rfl : c = false := h _ List.mem_cons_self
      exact ih fun y hy => h y (List.mem_cons_of_mem _ hy)
  simp only [raiseFirst, nothing, M.run_pure]

theorem M.run_needHeld {s : State} {pa : Nat} (h : isFabric pa = false) (n : Nat) : needHeld pa n s = .ok () s := by
  have held : s.holds pa n = true := by simp [State.holds, h]
  simp only [needHeld, M.run_bind, M.run_get, held, Bool.not_true, Bool.false_eq_true, if_false, M.run_pure]

theorem M.run_holdForLoads_cell {s : State} (h : s.th.vldas = []) (w : Who) (acc pa : Nat) (via : Option Nat) (n : Nat) :
    holdForLoads w acc (.cell pa via) n s = .ok () s := by
  simp only [holdForLoads, M.run_bind, M.run_get, h, List.any_nil, Bool.and_false, Bool.false_eq_true, if_false, M.run_pure]

theorem M.run_holdForZenc {s : State} (h : s.zjobs = []) (w : Who) (pa n : Nat) : holdForZenc w pa n s = .ok () s := by
  simp only [holdForZenc, M.run_bind, M.run_get, h, List.any_nil, Bool.and_false, Bool.false_eq_true, if_false, M.run_pure]

/-- An aligned access to HBM lands there by way of the caches of the thread's cluster. -/
theorem Still.locate {s : State} (h : Still s) {ea : Word} {n : Nat} (he : InHbm ea n) (hn : 0 < n) (need : Need) (acc : Nat) :
    locate s.th.who need acc n ea n s = .ok (.cell ea.toNat (some s.th.clusterNo)) s := by
  have low : ea.toNat < hbmEnd := Nat.lt_of_lt_of_le (Nat.lt_add_of_pos_right hn) he.2
  have translated := h.translate low need
  obtain ⟨-, -, vldas, zjobs, -⟩ := h
  have aligned : (ea.toNat % n != 0) = false := bne_eq_false_iff_eq.mpr he.1
  have hbm : isHbm ea.toNat = true := decide_eq_true low
  have near : isFabric ea.toNat = false := isFabric_of_le_hbmEnd low.le
  have place : placeOf s s.th.who ea.toNat = .cell ea.toNat (some s.th.clusterNo) := by
    simp only [placeOf, hbm, Bool.true_or, if_true]
    rfl
  have window : windowCluster s.th.who ea.toNat = none := by
    unfold hbmEnd at low
    have h1 : ¬ windowBase ≤ ea.toNat := by unfold windowBase; omega
    have h2 : ¬ aliasBase ≤ ea.toNat := by unfold aliasBase; omega
    simp [windowCluster, h1, h2]
  have cache : (⟨ea.toNat, 0, false, none⟩ : Xlat).cacheable = true := rfl
  unfold Machine.locate locateX
  simp only [M.run_bind_ok translated, M.run_bind, M.run_get, window, cache, if_true, place, M.run_needHeld near]
  rw [M.run_raiseFirst (by simp [aligned])]
  dsimp only
  split
  · simp only [M.run_bind, M.run_holdForLoads_cell vldas, M.run_holdForZenc zjobs]
    rfl
  · simp only [M.run_bind, M.run_holdForZenc zjobs]
    rfl

/-! ### What an access reads and writes -/

theorem M.run_checkWatermark {s : State} (h : Still s) (w : Who) (pl : Place) (n : Nat) : checkWatermark w pl n s = .ok () s := by
  simp only [checkWatermark, M.run_bind, M.run_get, h.watermarkStall, M.run_pure]

theorem M.run_checked_clean {α : Type} {d : M Unit} {s : State} (h : d s = .ok () s) (m : M α) : checked d m s = m s := by
  unfold checked
  rw [M.run_bind_ok (M.run_get s)]
  have run : d.run s = .ok () s := h
  simp only [run, M.run_bind, M.run_set]

/-- A check that finds nothing leaves what `m` answers. -/
theorem M.run_orClean_ok {α : Type} {m : M α} {s t : State} {x : α} (h : m s = .ok x t) (clean : M Unit) :
    orClean clean m s = .ok x t := by
  have run : m.run s = .ok x t := h
  have tried : attempt m s = .ok (.ok x) t := by
    simp only [attempt, M.run_bind, M.run_get, run, M.run_set, M.run_pure]
  unfold orClean
  simp only [M.run_bind_ok tried, M.run_pure]

theorem Quiet.poisonAt {s : State} (h : Quiet s) {pa : Nat} (hpa : pa ≤ hbmEnd) (n : Nat) : poisonAt s pa n = none := by
  obtain ⟨⟨-, -, -, -, poison, -⟩, -⟩ := h
  simp only [Machine.poisonAt, isHost_of_le_hbmEnd hpa, Bool.and_false, Bool.false_eq_true, if_false, poison]

/-- A load of plain HBM (R59): the value memory holds, with nothing changed. -/
theorem Quiet.load {s : State} (h : Quiet s) {ea : Word} {n : Nat} (he : InHbm ea n) (hn : 0 < n) (acc : Nat) :
    load s.th.who acc n ea n (pure ()) s = .ok (s.bytes ea n) s := by
  have low : ea.toNat ≤ hbmEnd := Nat.le_of_add_right_le he.2
  have via : readVia s (some s.th.clusterNo) ea.toNat n = (s, s.bytes ea n) := by
    obtain ⟨-, -, -, updates, -⟩ := h.plainMem
    have stale : (s.clusters.get s.th.clusterNo Cluster.reset).stale = [] := h.1.stale_nil _
    simp only [readVia, recallRange_of_noUpdates updates, State.rdVia, h.1.late_nil, stale, State.rdMem, h.2, State.bytes]
  unfold Machine.load
  rw [M.run_bind_ok (h.1.locate he hn .load acc), M.run_checked_clean (M.run_pure _ _), M.run_bind_ok (M.run_checkWatermark h.1 ..)]
  simp only [loadPlace, checkPoison, M.run_bind, M.run_get, h.poisonAt low, M.run_pure, via, M.run_set]

/-- A read at the home (R85): the same. -/
theorem Quiet.readHome {s : State} (h : Quiet s) {ea : Word} {n : Nat} (he : ea.toNat + n ≤ hbmEnd) (acc : Nat) (via : Option Nat) :
    readHome acc ea n (.cell ea.toNat via) s = .ok (s.bytes ea n) s := by
  have low : ea.toNat ≤ hbmEnd := Nat.le_of_add_right_le he
  have plain := h.plainMem
  have fresh : freshen ea.toNat n ((recallRange s ea.toNat n).settle ea.toNat n) = s := by
    have near := isFabric_of_le_hbmEnd low
    obtain ⟨-, -, coherent, updates, -⟩ := plain
    simp only [recallRange_of_noUpdates updates, State.settle_of_coherent coherent, freshen, near, Bool.false_eq_true, if_false]
  simp only [Machine.readHome, M.run_bind, M.run_modify, M.run_get, fresh, h.poisonAt low, M.run_pure,
    State.rdHome_of_plain plain, State.bytes]

theorem Quiet.loadHome {s : State} (h : Quiet s) {ea : Word} {n : Nat} (he : InHbm ea n) (hn : 0 < n) (acc : Nat) :
    loadHome s.th.who acc n ea n (pure ()) s = .ok (s.bytes ea n) s := by
  unfold Machine.loadHome
  rw [M.run_bind_ok (h.1.locate he hn .load acc), M.run_checked_clean (M.run_pure _ _), M.run_bind_ok (M.run_checkWatermark h.1 ..),
    h.readHome he.2]

/-- With nothing in the caches a release does nothing (R60, R65). -/
theorem Quiet.releaseBy {s : State} (h : Quiet s) (wb cov : Nat → Bool) (sc : Nat) : releaseBy wb cov sc s = .ok () s := by
  obtain ⟨-, -, -, zjobs, -, -, updates, -⟩ := id h.1
  have merged : mergeCore s s.th.coreNo cov = s := by simp only [mergeCore, updates.core, List.filter_nil]
  have released : releaseLines wb s.th.clusterNo sc s = s := by simp [releaseLines, State.dirtyLines, h.1.late_nil]
  simp only [Machine.releaseBy, M.run_bind, M.run_get, zjobs, List.any_nil, Bool.false_eq_true, if_false, merged, released, M.run_set]

theorem Quiet.releaseDefault {s : State} (h : Quiet s) (sc : Nat) : releaseDefault sc s = .ok () s := by
  unfold Machine.releaseDefault
  rw [M.run_bind_ok (M.run_get s), h.releaseBy]

end Sys2Proof.Machine
end

section
/-! SUPPORT. Operands of words, how a word stops, and one step on a group object (spec/02 R38, R40, R42, spec/07 R148, R183). -/

namespace Sys2Proof.Machine

/-! ### Operands that can be read -/

theorem M.run_peekB {f : Fields} {s : State} (h : Reads s (regsB f)) : peekB f s = .ok (s.opndB f) s := by
  obtain ⟨-, begun, readable⟩ := h
  unfold peekB State.opndB
  unfold regsB at readable
  cases hf : f.imm with
  | some i => rfl
  | none =>
    rw [hf] at readable
    exact M.run_peekS begun (readable f.b List.mem_cons_self)

theorem M.run_cleanB {f : Fields} {s : State} (h : Reads s (regsB f)) : cleanB f s = .ok () s := by
  obtain ⟨-, -, readable⟩ := h
  unfold cleanB
  unfold regsB at readable
  cases hf : f.imm with
  | some i => rfl
  | none =>
    rw [hf] at readable
    exact M.run_cleanS (readable f.b List.mem_cons_self)

theorem regsAB_eq (f : Fields) : regsAB f = f.a :: regsB f := by
  unfold regsAB regsB
  cases f.imm <;> rfl

theorem Reads.right {f : Fields} {s : State} (h : Reads s (regsAB f)) : Reads s (regsB f) := by
  rw [regsAB_eq] at h
  exact ⟨h.1, h.2.1, fun r hr => h.2.2 r (List.mem_cons_of_mem _ hr)⟩

theorem Reads.left {f : Fields} {s : State} (h : Reads s (regsAB f)) : s.th.readable f.a = true := by
  rw [regsAB_eq] at h
  exact h.2.2 f.a List.mem_cons_self

theorem M.run_peekEA {f : Fields} {s : State} (h : Reads s (regsAB f)) : peekEA f s = .ok (s.addr f) s := by
  unfold peekEA
  rw [M.run_bind_ok (M.run_peekS h.2.1 h.left), M.run_bind_ok (M.run_peekB h.right)]
  rfl

theorem M.run_cleanEA {f : Fields} {s : State} (h : Reads s (regsAB f)) : cleanEA f s = .ok () s := by
  unfold cleanEA
  rw [M.run_bind_ok (M.run_cleanS h.left), M.run_cleanB h.right]

/-- No local address is refused (R50). -/
theorem M.run_fabFirst {eas : List Word} (h : ∀ a ∈ eas, a.toNat < 2 ^ 63) (s : State) : fabFirst eas s = .ok () s := by
  have none_far : eas.find? (fun a => decide (2 ^ 63 ≤ a.toNat)) = none :=
    List.find?_eq_none.mpr fun a ha => by simpa using h a ha
  simp only [fabFirst, M.run_bind, M.run_get, none_far]
  split <;> rfl

theorem InHbm.local_ {ea : Word} {n : Nat} (h : InHbm ea n) : ∀ a ∈ [ea], a.toNat < 2 ^ 63 := fun a ha => by
  obtain rfl := List.mem_singleton.mp ha
  have := h.2
  omega

theorem M.run_raiseIf {b : Bool} (h : b = false) (c : Nat) (x : Word) (s : State) : raiseIf b c x s = .ok () s := by rw [h, M.run_raiseIf_false]

/-! ### How a word stops without a cause -/

theorem runWord_wait {m : M Unit} {s t : State} {r : WaitReason} (hl : s.th.live = true) (h : m s = .error (.wait r) t) :
    runWord m s = .next (waitFor r s) := by simp [runWord, runTo, hl, M.run_bind, h]

theorem runWord_hold {m : M Unit} {s t : State} {r : WaitReason} (hl : s.th.live = true) (h : m s = .error (.hold r) t) :
    runWord m s = .next { t with th := { t.th with wait := some r }, chosen := .none } := by simp [runWord, runTo, hl, M.run_bind, h]

theorem runWord_gone {m : M Unit} {s t : State} (hl : s.th.live = true) (h : m s = .error .gone t) :
    runWord m s = .next { t with chosen := .none } := by simp [runWord, runTo, hl, M.run_bind, h]

/-! ### One step on a group object (R38) -/

theorem InHbm.head {ea : Word} (h : InHbm ea 64) : ea.toNat + 24 ≤ hbmEnd := (Nat.add_le_add_left (by decide) _).trans h.2

theorem State.putObject_eq {s : State} (h : Quiet s) {ea : Word} (he : InHbm ea 64) (o : GObj) : s.putObject ea o =
    { s with mem := s.mem.writeLE ea.toNat o.toNat 24, colls := s.colls.map (Coll.written ea.toNat 24) } :=
  physWrite_of_plain h.plainMem he.head o.toNat

theorem Quiet.putObject {s : State} (h : Quiet s) {ea : Word} (he : InHbm ea 64) (o : GObj) : Quiet (s.putObject ea o) := by
  rw [State.putObject_eq h he]
  exact h.congr rfl rfl rfl rfl rfl rfl rfl rfl rfl rfl rfl

theorem Quiet.groupOp {s : State} (h : Quiet s) {ea : Word} (he : InHbm ea 64) {f : GObj → Except Nat GObj} {o : GObj}
    (ho : f (s.object ea) = .ok o) {d : M Unit} (hd : d s = .ok () s) : groupOp ea f d s = .ok o (s.putObject ea o) := by
  unfold Machine.groupOp
  rw [M.run_bind_ok (M.run_getTh s), M.run_bind_ok (h.1.locate he (by decide) .rmw accAtomic),
    M.run_bind_ok (M.run_checkWatermark h.1 ..)]
  dsimp only
  rw [M.run_bind_ok (h.readHome he.2 ..)]
  have found : f (GObj.ofNat (s.bytes ea 64)) = .ok o := ho
  simp only [found, M.run_bind_ok hd, M.run_bind_ok (M.run_modify ..), M.run_pure]
  rfl

theorem GObj.arrive_eq_arrived (o : GObj) (red : Bool) (op x : Nat) : o.arrive red op x = Machine.arrived o red op x := by
  unfold GObj.arrive Machine.arrived redIdentity
  by_cases h : o.arrived = 0
  · cases red <;> simp only [h, if_true, if_false, Bool.false_eq_true] <;> rfl
  · cases red <;> simp only [h, if_true, if_false, Bool.false_eq_true] <;> rfl

theorem GObj.consistent {o : GObj} (rest : o.rest = 0) (arrived : o.arrived ≤ o.members) : o.inconsistent = false := by
  simp [GObj.inconsistent, rest, arrived]

/-- A handle names the object it was made for (R39). -/
theorem handleAddr_handleOf {ea : Word} (h : InHbm ea 64) (mph : Bool) : handleAddr (handleOf ea mph) = ea := by
  obtain ⟨aligned, low⟩ := h
  refine BitVec.eq_of_toNat_eq ?_
  have field : bits ea.toNat 56 6 * 64 = ea.toNat := by
    simp only [bits, Nat.shiftRight_eq_div_pow]
    omega
  have small : b2n mph * 2 + 1 < 64 := by cases mph <;> decide
  simp only [handleAddr, handleOf, field, BitVec.toNat_ofNat]
  simp only [bits, Nat.shiftRight_eq_div_pow]
  omega

/-! ### GJOIN, GLEAVE (R40) -/

/-- GJOIN counts the thread in. -/
theorem gjoin_spec {f : Fields} {s : State} (h : Quiet s) (hr : Reads s (regsAB f)) (he : InHbm (s.addr f) 64)
    (closed : handleV (s.th.handle f.d.toNat) = false)
    (others : ∀ k < 4, handleV (s.th.handle k) = true → handleAddr (s.th.handle k) ≠ s.addr f) :
    let o := s.object (s.addr f)
    o.rest = 0 → o.members < 65535 → o.arrived ≤ o.members → exec (.gjoin f) s =
      doneWith s ((s.putObject (s.addr f) { o with members := o.members + 1 }).setHandle f.d.toNat (handleOf (s.addr f) o.phase)) := by
  intro o rest room arrived
  have free : (handleV (s.th.handle f.d.toNat) ||
      (List.range 4).any fun k => handleV (s.th.handle k) && handleAddr (s.th.handle k) == handleAddr (handleOf (s.addr f) false)) = false := by
    rw [closed, handleAddr_handleOf he, Bool.false_or, List.any_eq_false]
    intro k hk hc
    obtain ⟨open_, same⟩ := Bool.and_eq_true_iff.mp hc
    exact others k (List.mem_range.mp hk) open_ (beq_iff_eq.mp same)
  have notFull : (o.rest == 0 && decide (65535 ≤ o.members)) = false := by simp [rest, room]
  have clear : (o.rest != 0) = false := by simp [rest]
  have below : decide (o.members < o.arrived) = false := by simp [arrived]
  have read := M.run_orClean_ok (h.loadHome he (by decide) accLoad) (cleanEA f)
  have joined := h.groupOp he (f := fun o => .ok { o with members := o.members + 1 }) rfl (M.run_pure () s)
  show execGjoin f s = _
  unfold execGjoin
  refine runWord_ok hr.1 ?_
  rw [M.run_bind_ok (M.run_peekEA hr), M.run_bind_ok (M.run_getTh s)]
  refine (M.run_bind_ok (M.run_fabFirst he.local_ s)).trans ?_
  refine (M.run_bind_ok (M.run_raiseIf free ..)).trans ?_
  refine (M.run_bind_ok read).trans ?_
  refine (M.run_bind_ok (M.run_raiseIf notFull ..)).trans ?_
  refine (M.run_bind_ok (M.run_cleanEA hr)).trans ?_
  refine (M.run_bind_ok (M.run_raiseIf clear ..)).trans ?_
  refine (M.run_bind_ok (M.run_raiseIf below ..)).trans ?_
  exact (M.run_bind_ok joined).trans (M.run_modTh ..)

theorem Quiet.leaveGroup {s : State} (h : Quiet s) {g : Nat} (he : InHbm (handleAddr (s.th.handle g)) 64) :
    leaveGroup g s = .ok () (s.leave g) := by
  have left := h.groupOp he (f := fun o => .ok o.leave) rfl (M.run_pure () s)
  unfold Machine.leaveGroup
  rw [M.run_bind_ok (M.run_getTh s)]
  exact (M.run_bind_ok left).trans (M.run_modTh ..)

/-- GLEAVE. -/
theorem gleave_spec {f : Fields} {s : State} (hl : s.th.live = true) (h : Quiet s) (hv : handleV (s.th.handle f.d.toNat) = true)
    (he : InHbm (handleAddr (s.th.handle f.d.toNat)) 64) : exec (.gleave f) s = doneWith s (s.leave f.d.toNat) := by
  have given : (!handleV (s.th.handle f.d.toNat)) = false := by rw [hv, Bool.not_true]
  show execGleave f s = _
  unfold execGleave
  refine runWord_ok hl ?_
  rw [M.run_bind_ok (M.run_getTh s)]
  exact (M.run_bind_ok (M.run_raiseIf given ..)).trans (h.leaveGroup he)

/-! ### EXIT (R30) -/

/-- Closing a handle leaves the others. -/
theorem Thread.handle_close (t : Thread) (n m : Nat) : (t.setHandle n 0).handle m = if m = n then 0 else t.handle m := by
  by_cases hn : n < 4
  · exact t.handle_setHandle hn 0 m
  · have same : t.setHandle n 0 = t := by rw [Thread.setHandle, dif_neg hn]
    rw [same]
    split
    · next h =>
      rw [h]
      exact vector_getD_of_le (Nat.le_of_not_lt hn) t.g 0
    · rfl

/-- Every group the thread is a member of has its object in HBM. -/
def Grouped (t : Thread) : Prop := ∀ k, handleV (t.handle k) = true → InHbm (handleAddr (t.handle k)) 64

theorem grouped_of_lt {t : Thread} (h : ∀ k < 4, handleV (t.handle k) = true → InHbm (handleAddr (t.handle k)) 64) : Grouped t := by
  intro k hv
  by_cases hk : k < 4
  · exact h k hk hv
  · have zero : t.handle k = 0 := vector_getD_of_le (Nat.le_of_not_lt hk) t.g 0
    rw [zero] at hv
    exact absurd hv (by decide)

/-- What leaving a group keeps. -/
theorem State.leave_frame {s : State} (h : Quiet s) {g : Nat} (he : InHbm (handleAddr (s.th.handle g)) 64) :
    (s.leave g).th = s.th.setHandle g 0 ∧ (s.leave g).parts = s.parts ∧ (s.leave g).cur = s.cur ∧ Quiet (s.leave g) := by
  have written := State.putObject_eq h he (left (s.object (handleAddr (s.th.handle g))))
  unfold State.leave State.setHandle
  dsimp only
  rw [written]
  exact ⟨rfl, rfl, rfl, h.congr (Thread.setHandle_level ..) (Thread.setHandle_part ..) (Thread.setHandle_vldas ..) rfl rfl rfl rfl rfl rfl rfl
    rfl⟩

theorem Grouped.leave {s : State} (hg : Grouped s.th) (h : Quiet s) {g : Nat} (he : InHbm (handleAddr (s.th.handle g)) 64) :
    Grouped (s.leave g).th := by
  obtain ⟨th, -⟩ := State.leave_frame h he
  intro k hv
  rw [th, Thread.handle_close] at hv ⊢
  split at hv
  · exact absurd hv (by decide)
  · next hk =>
    rw [if_neg hk]
    exact hg k hv

/-- The state after the thread left each group it was a member of, by the handles of a list. -/
def State.leaves (s : State) (l : List Nat) : State := l.foldl (fun t k => if handleV (t.th.handle k) then t.leave k else t) s

theorem State.leaves_frame {s : State} (h : Quiet s) (hg : Grouped s.th) (l : List Nat) :
    (s.leaves l).th.part = s.th.part ∧ (s.leaves l).th.entry = s.th.entry ∧ (s.leaves l).parts = s.parts ∧ (s.leaves l).cur = s.cur := by
  induction l generalizing s with
  | nil => exact ⟨rfl, rfl, rfl, rfl⟩
  | cons k l ih =>
    by_cases hv : handleV (s.th.handle k) = true
    · obtain ⟨th, parts, cur, quiet⟩ := State.leave_frame h (hg k hv)
      have rest := ih quiet (hg.leave h (hg k hv))
      rw [th, parts, cur, Thread.setHandle_part, Thread.setHandle_entry] at rest
      simpa only [State.leaves, List.foldl_cons, if_pos hv] using rest
    · simpa only [State.leaves, List.foldl_cons, if_neg hv] using ih h hg

/-- EXIT's step for one handle. -/
def leaveOpen (g : Nat) : M Unit := do
  let t ← getTh
  if handleV (t.handle g) then leaveGroup g

theorem M.run_leaves {s : State} (h : Quiet s) (hg : Grouped s.th) (l : List Nat) : l.forM leaveOpen s = .ok () (s.leaves l) := by
  induction l generalizing s with
  | nil => rfl
  | cons k l ih =>
    show (leaveOpen k >>= fun _ => l.forM leaveOpen) s = _
    have step : leaveOpen k s = .ok () (if handleV (s.th.handle k) = true then s.leave k else s) := by
      unfold leaveOpen
      rw [M.run_bind_ok (M.run_getTh s)]
      split
      · next hv => exact h.leaveGroup (hg k hv)
      · rfl
    rw [M.run_bind_ok step]
    split
    · next hv =>
      have he := hg k hv
      obtain ⟨-, -, -, quiet⟩ := State.leave_frame h he
      simp only [ih quiet (hg.leave h he), State.leaves, List.foldl_cons, if_pos hv]
    · next hv => simp only [ih h hg, State.leaves, List.foldl_cons, if_neg hv]

/-- EXIT: the thread leaves its groups, and its slot and table entry are free. -/
theorem exit_spec (f : Fields) {s : State} (hl : s.th.live = true) (h : Quiet s) (hg : Grouped s.th) (mma : s.th.mmaRun = [])
    (loads : s.th.loads = []) :
    let p := s.part s.th.part
    exec (.exit f) s = .next { (s.leaves (List.range 4)).setPart s.th.part { p with
      reuse := p.reuse.set s.th.entry ((p.reuse.get s.th.entry 0 + 1) % 65536)
      prefQ := p.prefQ.filter (· != s.cur) } with th := Thread.zero, chosen := .none } := by
  obtain ⟨part, entry, parts, cur⟩ := State.leaves_frame h hg (List.range 4)
  have vldas : s.th.vldas = [] := h.1.2.2.1
  have ends : (do
      (List.range 4).forM leaveOpen
      modify freeThread
      throw .gone : M Unit) s = .error .gone (freeThread (s.leaves (List.range 4))) := by
    rw [M.run_bind_ok (M.run_leaves h hg _), M.run_bind_ok (M.run_modify ..), M.run_throw]
  intro p
  show execExit f s = _
  unfold execExit
  refine (runWord_gone hl (t := freeThread (s.leaves (List.range 4))) ?_).trans ?_
  · rw [M.run_bind_ok (M.run_getTh s)]
    simp only [vldas, mma, loads, List.isEmpty_nil, Bool.not_true, Bool.false_eq_true, if_false]
    exact (M.run_bind_ok (h.releaseDefault _)).trans ends
  · unfold freeThread State.dropThread
    simp only [part, entry, cur, State.setPart_cur, if_true, State.part, parts]
    rfl

end Sys2Proof.Machine
end

section
/-! SUPPORT. Arrivals at a group, and the return of a member that waited (spec/02 R42, R43): what settles O32. -/

namespace Sys2Proof.Machine

/-! ### The bytes an arrival orders -/

/-- With translation off a partition reaches storage by the same addresses whatever memory holds. -/
theorem State.covers_of_untranslated {s t : State} {p : Nat} (parts : t.parts = s.parts) (dev : t.devnum = s.devnum)
    (off : (s.part p).ptroot.getLsbD 0 = false) : t.covers p = s.covers p := by
  have part : t.part p = s.part p := by rw [State.part, parts, State.part]
  funext b line
  simp only [State.covers, State.aliases, part, off, Bool.false_eq_true, if_false, State.fabricEA, dev]

theorem State.groupCovers_of_untranslated {s t : State} {p : Nat} (parts : t.parts = s.parts) (dev : t.devnum = s.devnum)
    (off : (s.part p).ptroot.getLsbD 0 = false) (ea : Word) : t.groupCovers p ea = s.groupCovers p ea := by
  have part : t.part p = s.part p := by rw [State.part, parts, State.part]
  funext line
  simp only [State.groupCovers, State.coveredBy, State.unbound, State.covers_of_untranslated parts dev off, part]

theorem State.acquiredGroup_eq (s : State) (ea : Word) :
    s.acquiredGroup ea = acquireLines (s.groupCovers s.th.part ea) s.th.clusterNo s.th.scope s := rfl

/-! ### An arrival -/

/-- The operation an arrival writes to ROP: GRED's, and one the spec leaves open for GBAR (log 51). -/
def arrivalOp (red : Option RedOp) (free : Nat) : Nat := red.elim (Config.freeNat free % 5) RedOp.op

/-- A member goes on with phase `o.phase` of its group: its handle, and GRED's result (R42). -/
def State.passed (s : State) (g : Nat) (ea : Word) (o : GObj) (red : Option (BitVec 6)) : State :=
  let on := s.setHandle g (handleOf ea o.phase)
  red.elim on fun d => on.put d (BitVec.ofNat 64 o.res)

/-- The step of an arrival on the object. -/
def arrivalStep (isRed : Bool) (op : Nat) (x : Word) (o : GObj) : Except Nat GObj :=
  if o.arrived != 0 && (o.ract != isRed || isRed && o.rop != op) then .error 0x126
  else if o.inconsistent then .error 0x128
  else .ok (o.arrive isRed op x.toNat)

/-- On a consistent object an arrival agrees with those before it. -/
theorem arrivalStep_eq {isRed : Bool} {op : Nat} {o : GObj} (rest : o.rest = 0) (below : o.arrived ≤ o.members)
    (fits : o.arrived ≠ 0 → o.ract = isRed ∧ (isRed = true → o.rop = op)) (x : Word) :
    arrivalStep isRed op x o = .ok (arrived o isRed op x.toNat) := by
  have agrees : (o.arrived != 0 && (o.ract != isRed || isRed && o.rop != op)) = false := by
    by_cases h0 : o.arrived = 0
    · simp [h0]
    · obtain ⟨ract, rop⟩ := fits h0
      cases isRed
      · simp [ract]
      · simp [ract, rop]
  rw [arrivalStep, agrees, GObj.consistent rest below, GObj.arrive_eq_arrived]
  rfl

/-- What remains of an arrival by thread `t` once its value is read. -/
def arriveWith (g : Nat) (t : Thread) (red : Option RedOp) (x : Word) : M Unit := do
  let ea := handleAddr (t.handle g)
  let any ← freshIndex
  let cov := (← get).groupCovers t.part ea
  releaseBy (fun _ => true) cov t.scope
  let o ← groupOp ea (arrivalStep red.isSome (arrivalOp red any) x) ((red.map RedOp.clean).getD (pure ()))
  if o.phase = handleMph (t.handle g) then
    throw (.hold (.group g (red.map RedOp.dst) (t.pc + 8)))
  else
    acquireBy cov t.scope
    modTh fun t => t.setHandle g (handleOf ea o.phase)
    red.elim (pure ()) fun r => wrS r.dst (BitVec.ofNat 64 o.res)

theorem arriveM_eq_arriveWith {s : State} {g : Nat} {red : Option RedOp} {x : Word} (hv : handleV (s.th.handle g) = true)
    (prefs : ∀ p ∈ s.th.prefs, p.handle ≠ some g) (value : red.elim (pure 0) RedOp.value s = .ok x s) :
    arriveM g red s = arriveWith g s.th red x s := by
  have given : (!handleV (s.th.handle g)) = false := by rw [hv, Bool.not_true]
  have unbound : (s.th.prefs.any fun p => p.handle == some g) = false := by
    rw [List.any_eq_false]
    exact fun p hp hc => prefs p hp (beq_iff_eq.mp hc)
  unfold arriveM
  rw [M.run_bind_ok (M.run_getTh s)]
  refine (M.run_bind_ok (M.run_raiseIf given ..)).trans ?_
  cases red with
  | some r =>
    refine (M.run_bind_ok value).trans ?_
    simp only [unbound, Bool.false_eq_true, if_false]
    rfl
  | none =>
    refine (M.run_bind_ok value).trans ?_
    simp only [unbound, Bool.false_eq_true, if_false]
    rfl

theorem M.run_freshIndex {s : State} : freshIndex s = .ok s.free s.tick := rfl

theorem State.object_tick (s : State) (ea : Word) : s.tick.object ea = s.object ea := by
  rw [State.object, State.bytes, State.tick_mem, State.object, State.bytes]

theorem State.putObject_tick {s : State} (h : Quiet s) {ea : Word} (he : InHbm ea 64) (o : GObj) :
    s.tick.putObject ea o = { s.putObject ea o with free := s.free + 1 } := by
  rw [State.putObject_eq h.tick he, State.putObject_eq h he, State.tick_mem, State.tick_colls]
  unfold State.tick
  dsimp only

/-- What a write to an object leaves alone. -/
theorem State.putObject_frame {s : State} (h : Quiet s) {ea : Word} (he : InHbm ea 64) (o : GObj) :
    (s.putObject ea o).th = s.th ∧ (s.putObject ea o).parts = s.parts ∧ (s.putObject ea o).devnum = s.devnum := by
  rw [State.putObject_eq h he]
  exact ⟨rfl, rfl, rfl⟩

/-- What an arrival answers: while the phase is not complete the member waits; else it acquires and goes on. -/
theorem Quiet.arriveWith {s : State} (h : Quiet s) {g : Nat} {red : Option RedOp} (x : Word)
    (he : InHbm (handleAddr (s.th.handle g)) 64) (clean : (red.map RedOp.clean).getD (pure ()) s.tick = .ok () s.tick) :
    let ea := handleAddr (s.th.handle g)
    let o := s.object ea
    let op := arrivalOp red s.free
    let o' := arrived o red.isSome op x.toNat
    let t := s.tick.putObject ea o'
    o.rest = 0 → o.arrived ≤ o.members → (o.arrived ≠ 0 → o.ract = red.isSome ∧ (red.isSome = true → o.rop = op)) →
    Machine.arriveWith g s.th red x s = if o'.phase = handleMph (s.th.handle g) then
        .error (.hold (.group g (red.map RedOp.dst) (s.th.pc + 8))) t
      else .ok () ((t.acquiredGroup ea).passed g ea o' (red.map RedOp.dst)) := by
  intro ea o op o' t rest below fits
  have step := h.tick.groupOp he ((congrArg _ (s.object_tick ea)).trans (arrivalStep_eq rest below fits x)) clean
  obtain ⟨th, parts, devnum⟩ : t.th = s.tick.th ∧ t.parts = s.tick.parts ∧ t.devnum = s.tick.devnum := State.putObject_frame h.tick he o'
  have acquired : acquireLines (s.tick.groupCovers s.th.part ea) t.th.clusterNo s.th.scope t = t.acquiredGroup ea := by
    rw [State.acquiredGroup_eq, th, State.tick_th, State.groupCovers_of_untranslated parts devnum h.1.2.1]
  unfold Machine.arriveWith
  rw [M.run_bind_ok M.run_freshIndex, M.run_bind_ok (M.run_get s.tick), M.run_bind_ok (h.tick.releaseBy ..), M.run_bind_ok step]
  split
  · rfl
  · refine (M.run_bind_ok (M.run_modify ..)).trans ?_
    rw [acquired]
    refine (M.run_bind_ok (M.run_modTh ..)).trans ?_
    cases red <;> rfl

/-- A word that arrives, in the terms of the statement. -/
theorem arrives {s : State} (hl : s.th.live = true) (h : Quiet s) {g : Nat} {red : Option RedOp} {x : Word}
    (hv : handleV (s.th.handle g) = true) (he : InHbm (handleAddr (s.th.handle g)) 64) (prefs : ∀ p ∈ s.th.prefs, p.handle ≠ some g)
    (value : red.elim (pure 0) RedOp.value s = .ok x s) (clean : (red.map RedOp.clean).getD (pure ()) s.tick = .ok () s.tick) :
    let ea := handleAddr (s.th.handle g)
    let o := s.object ea
    let op := arrivalOp red s.free
    let o' := arrived o red.isSome op x.toNat
    let t := { s.putObject ea o' with free := s.free + 1 }
    o.rest = 0 → o.arrived ≤ o.members → (o.arrived ≠ 0 → o.ract = red.isSome ∧ (red.isSome = true → o.rop = op)) →
    runWord (arriveM g red) s = if o'.phase = handleMph (s.th.handle g) then
        .next { t with th := { s.th with wait := some (.group g (red.map RedOp.dst) (s.th.pc + 8)) }, chosen := .none }
      else doneWith s ((t.acquiredGroup ea).passed g ea o' (red.map RedOp.dst)) := by
  intro ea o op o' t rest below fits
  have ticked : s.tick.putObject ea o' = t := State.putObject_tick h he o'
  have th : t.th = s.th := (State.putObject_frame h he o').1
  have run := (arriveM_eq_arriveWith hv prefs value).trans (h.arriveWith x he clean rest below fits)
  rw [ticked] at run
  split
  · next waits =>
    rw [if_pos waits] at run
    rw [runWord_hold hl run, th]
  · next goes =>
    rw [if_neg goes] at run
    exact runWord_ok hl run

/-! ### What an acquire reads of the selected thread -/

/-- The selected thread changed by `φ`. -/
def State.mapTh (φ : Thread → Thread) (s : State) : State := { s with th := φ s.th }

/-- `φ` leaves a thread where it is. -/
def Stays (φ : Thread → Thread) : Prop := ∀ t, (φ t).live = t.live ∧ (φ t).pos = t.pos ∧ (φ t).part = t.part

theorem Stays.clusterNo {φ : Thread → Thread} (h : Stays φ) (t : Thread) : (φ t).clusterNo = t.clusterNo := by
  obtain ⟨-, pos, part⟩ := h t
  simp only [Thread.clusterNo, pos, part]

theorem State.thread_mapTh {φ : Thread → Thread} (s : State) (k : Nat) :
    (s.mapTh φ).thread k = if k = s.cur then φ s.th else s.thread k := by
  unfold State.thread State.mapTh
  split <;> rfl

theorem State.watchers_mapTh {φ : Thread → Thread} (h : Stays φ) (s : State) (c : Nat) : (s.mapTh φ).watchers c = s.watchers c := by
  have same (k : Nat) : ((s.mapTh φ).thread k).live = (s.thread k).live ∧ ((s.mapTh φ).thread k).pos = (s.thread k).pos ∧
      ((s.mapTh φ).thread k).clusterNo = (s.thread k).clusterNo := by
    rw [State.thread_mapTh]
    split
    · next hk =>
      rw [hk, State.thread_cur]
      exact ⟨(h s.th).1, (h s.th).2.1, h.clusterNo s.th⟩
    · exact ⟨rfl, rfl, rfl⟩
  have keys : (s.mapTh φ).liveKeys = s.liveKeys := List.filter_congr fun k _ => (same k).1
  simp only [State.watchers, keys, (same _).2.1, (same _).2.2]

theorem leaveCopies_mapTh {φ : Thread → Thread} (h : Stays φ) (c u : Nat) (old : Word) (except : List Nat) (s : State) :
    leaveCopies c u old except (s.mapTh φ) = (leaveCopies c u old except s).mapTh φ := by
  unfold leaveCopies
  rw [State.watchers_mapTh h]
  refine List.foldl_hom (State.mapTh φ) fun s d => ?_
  have cluster : (s.mapTh φ).cluster d = s.cluster d := rfl
  have free : (s.mapTh φ).free = s.free := rfl
  simp only [cluster, free]
  split_ifs <;> rfl

theorem sendOut_mapTh (φ : Thread → Thread) (pa n : Nat) (s : State) : sendOut pa n (s.mapTh φ) = (sendOut pa n s).mapTh φ := by
  unfold sendOut
  split <;> rfl

theorem sendRuns_mapTh (φ : Thread → Thread) (u : Nat) (runs : List (Nat × Nat)) (s : State) :
    runs.foldl (fun s r => sendOut (8 * u + r.1) r.2 s) (s.mapTh φ) =
      (runs.foldl (fun s r => sendOut (8 * u + r.1) r.2 s) s).mapTh φ :=
  List.foldl_hom (g₁ := fun s (r : Nat × Nat) => sendOut (8 * u + r.1) r.2 s)
    (g₂ := fun s (r : Nat × Nat) => sendOut (8 * u + r.1) r.2 s) (State.mapTh φ) fun s r => sendOut_mapTh φ (8 * u + r.1) r.2 s

theorem State.wordHome_mapTh (φ : Thread → Thread) (s : State) (u : Nat) (l : Late) :
    (s.mapTh φ).wordHome u l = (s.wordHome u l).mapTh φ := by
  have lost : (s.mapTh φ).plat.linkLost = s.plat.linkLost := rfl
  simp only [State.wordHome, lost]
  split
  · rfl
  · symm
    exact (sendRuns_mapTh φ u (maskRuns l.mask) _).symm

theorem giveUp_mapTh {φ : Thread → Thread} (h : Stays φ) (d : Nat) (gs : List Nat) (s : State) :
    giveUp d gs (s.mapTh φ) = (giveUp d gs s).mapTh φ := by
  have out : (s.late.filter fun e => gs.contains (e.1 / 4)).foldl (fun s e => s.wordHome e.1 e.2) (s.mapTh φ) =
      ((s.late.filter fun e => gs.contains (e.1 / 4)).foldl (fun s e => s.wordHome e.1 e.2) s).mapTh φ :=
    List.foldl_hom (State.mapTh φ) fun s e => State.wordHome_mapTh φ s e.1 e.2
  unfold giveUp
  have late : (s.mapTh φ).late = s.late := rfl
  simp only [late, out]
  exact congrArg (dropGranules gs) (List.foldl_hom (State.mapTh φ) fun s u => leaveCopies_mapTh h d u _ [] s)

/-- The clean copies of the lines `cov` names go from the caches of cluster `d`. -/
def dropCopiesOf (cov : Nat → Bool) (d : Nat) (s : State) : State :=
  match (s.cluster d).stale with
  | [] => s
  | st => s.setCluster d { s.cluster d with stale := st.filter fun x => x.2.ahead || !cov (x.1 / 16) }

/-- At device scope the granules of the fabric that `cov` names go from cluster `d`, unless one of them is in use. -/
def dropIdleOf (cov : Nat → Bool) (d sc : Nat) (s : State) : State :=
  match s.idleGranules.filter fun g => cov (g / 4) with
  | [] => s
  | gs =>
    if sc < 5 then s
    else
      let s := giveUp d gs s
      s.setCluster d { s.cluster d with stale := (s.cluster d).stale.filter fun x => !gs.contains (x.1 / 4) }

theorem acquireLines_eq (cov : Nat → Bool) (d sc : Nat) (s : State) :
    acquireLines cov d sc s = if sc < 2 then s else dropIdleOf cov d sc (dropCopiesOf cov d s) := rfl

theorem State.cluster_mapTh (φ : Thread → Thread) (s : State) (d : Nat) : (s.mapTh φ).cluster d = s.cluster d := rfl

theorem State.idleGranules_mapTh (φ : Thread → Thread) (s : State) : (s.mapTh φ).idleGranules = s.idleGranules := rfl

theorem dropCopiesOf_mapTh (φ : Thread → Thread) (cov : Nat → Bool) (d : Nat) (s : State) :
    dropCopiesOf cov d (s.mapTh φ) = (dropCopiesOf cov d s).mapTh φ := by
  unfold dropCopiesOf
  rw [State.cluster_mapTh]
  split <;> rfl

theorem dropIdleOf_mapTh {φ : Thread → Thread} (h : Stays φ) (cov : Nat → Bool) (d sc : Nat) (s : State) :
    dropIdleOf cov d sc (s.mapTh φ) = (dropIdleOf cov d sc s).mapTh φ := by
  unfold dropIdleOf
  rw [State.idleGranules_mapTh]
  split
  · rfl
  · split
    · rfl
    · rw [giveUp_mapTh h]
      rfl

/-- What an acquire drops does not depend on what the selected thread holds (R60). -/
theorem acquireLines_mapTh {φ : Thread → Thread} (h : Stays φ) (cov : Nat → Bool) (d sc : Nat) (s : State) :
    acquireLines cov d sc (s.mapTh φ) = (acquireLines cov d sc s).mapTh φ := by
  rw [acquireLines_eq, acquireLines_eq, dropCopiesOf_mapTh, dropIdleOf_mapTh h]
  split <;> rfl

/-! ### A waiting member goes on -/

/-- What `State.passed` does to the thread. -/
def Thread.passed (t : Thread) (g : Nat) (ea : Word) (o : GObj) (red : Option (BitVec 6)) : Thread :=
  let on := t.setHandle g (handleOf ea o.phase)
  red.elim on fun d => on.setS d (BitVec.ofNat 64 o.res)

theorem State.passed_eq_mapTh (s : State) (g : Nat) (ea : Word) (o : GObj) (red : Option (BitVec 6)) :
    s.passed g ea o red = s.mapTh fun t => t.passed g ea o red := by
  cases red <;> rfl

theorem Thread.passed_scope (t : Thread) (g : Nat) (ea : Word) (o : GObj) (red : Option (BitVec 6)) :
    (t.passed g ea o red).scope = t.scope := by
  cases red with
  | some d => simp only [Thread.scope, Thread.passed, Option.elim, Thread.setS_vcfg, Thread.setHandle_vcfg]
  | none => simp only [Thread.scope, Thread.passed, Option.elim, Thread.setHandle_vcfg]

theorem stays_passed (g : Nat) (ea : Word) (o : GObj) (red : Option (BitVec 6)) : Stays fun t => t.passed g ea o red := by
  intro t
  cases red with
  | some d => simp [Thread.passed]
  | none => simp [Thread.passed]

/-- The model acquires for the thread as it goes on; that is the thread's acquire before. -/
theorem State.acquiredGroup_passed (u : State) (g : Nat) (ea : Word) (o : GObj) (red : Option (BitVec 6)) :
    let t := u.th.passed g ea o red
    acquireLines (u.groupCovers t.part ea) t.clusterNo t.scope { u with th := t } = (u.acquiredGroup ea).passed g ea o red := by
  intro t
  have stays := stays_passed g ea o red
  have part : t.part = u.th.part := (stays u.th).2.2
  have cluster : t.clusterNo = u.th.clusterNo := stays.clusterNo u.th
  have scope : t.scope = u.th.scope := u.th.passed_scope g ea o red
  rw [part, cluster, scope, State.passed_eq_mapTh, State.acquiredGroup_eq]
  exact acquireLines_mapTh stays ..

/-- GROUP_WAIT_RELEASE of a member that waits in a slot that runs. -/
theorem groupRelease_of_waiting {u : State} (h : Quiet u) {g : Nat} {red : Option (BitVec 6)} {npc : Word}
    (wait : u.th.wait = some (.group g red npc)) (runs : u.running u.th = true) (he : InHbm (handleAddr (u.th.handle g)) 64) :
    let ea := handleAddr (u.th.handle g)
    let o := u.object ea
    groupRelease u = if o.phase = handleMph (u.th.handle g) then none
      else some (complete u npc ((u.acquiredGroup ea).passed g ea o red)) := by
  intro ea o
  have read : (do
      let pl ← locate u.th.who .load accAtomic 64 (handleAddr (u.th.handle g)) 64
      readHome accAtomic (handleAddr (u.th.handle g)) 64 pl : M Nat).run u = .ok (u.bytes (handleAddr (u.th.handle g)) 64) u :=
    (M.run_bind_ok (h.1.locate he (by decide) .load accAtomic)).trans (h.readHome he.2 ..)
  have acquired := congrArg (fun t => some (complete u npc t)) (u.acquiredGroup_passed g ea o red)
  have object : GObj.ofNat (u.bytes (handleAddr (u.th.handle g)) 64) = o := rfl
  unfold groupRelease
  simp only [wait, runs, read, object, if_true]
  by_cases waits : o.phase = handleMph (u.th.handle g)
  · rw [if_pos waits, if_pos waits]
  · rw [if_neg waits, if_neg waits, ← acquired]
    cases red <;> rfl

/-- GROUP_WAIT_RELEASE, in the terms of the statement. -/
theorem groupWaitRelease_spec {k g : Nat} {red : Option (BitVec 6)} {npc : Word} {s : State} :
    let u := s.select k
    let ea := handleAddr (u.th.handle g)
    let o := u.object ea
    (s.thread k).live = true → u.running u.th = true → (s.thread k).wait = some (.group g red npc) → Quiet u → InHbm ea 64 →
    exec (.groupWaitRelease k) s = .next (if o.phase = handleMph (u.th.handle g) then s
      else (complete u npc ((u.acquiredGroup ea).passed g ea o red)).select s.cur) := by
  intro u ea o live runs wait h he
  have th : u.th = s.thread k := State.th_select s k
  have placed : (s.thread k).pos.isSome = true := by
    rw [State.running, th] at runs
    exact (Bool.and_eq_true_iff.mp runs).1
  have idle : (!(s.thread k).live || (s.thread k).pos.isNone) = false := by
    rw [live, Bool.not_true, Bool.false_or, ← Option.not_isSome, placed, Bool.not_true]
  have released := groupRelease_of_waiting h (th ▸ wait) runs he
  show execGroupWaitRelease k s = _
  unfold execGroupWaitRelease
  rw [idle, if_neg Bool.false_ne_true, released]
  by_cases waits : o.phase = handleMph (u.th.handle g)
  · rw [if_pos waits, if_pos waits]
  · rw [if_neg waits, if_neg waits]

/-! ### GBAR, GRED (R42) -/

/-- Settles O32, each word by what it does to the object of its group, and the release by what an acquire reads of the thread. -/
theorem groups : Obligations.Groups := by
  unfold Obligations.Groups
  refine ⟨fun f s hl h => ?_, fun k g red npc s => ?_⟩
  · refine ⟨gjoin_spec h, gleave_spec hl h, fun hv he rest below prefs => ⟨fun fits => ?_, fun hr hop fits => ?_⟩⟩
    · refine ⟨Config.freeNat s.free % 5, Nat.mod_lt _ (by decide), ?_⟩
      exact arrives hl h (red := none) (x := 0) hv he prefs rfl rfl rest below fun begun => ⟨fits begun, nofun⟩
    · have clean : cleanB f s.tick = .ok () s.tick := M.run_cleanB hr
      exact arrives hl h (red := some ⟨f.var.toNat, peekB f, cleanB f, f.d⟩) hv he prefs (M.run_peekB hr) clean rest below
        fun begun => ⟨(fits begun).1, fun _ => (fits begun).2⟩
  · intro u h o on live runs wait quiet he
    refine (groupWaitRelease_spec live runs wait quiet he).trans ?_
    cases red <;> rfl

end Sys2Proof.Machine
end

section
/-! SUPPORT. LAUNCH, EXIT and YIELD (spec/02 R26 to R30, spec/07 R179 to R181): what settles O33. -/

namespace Sys2Proof.Machine

/-! ### What LAUNCH reads of a descriptor -/

/-- A field that a bit vector of the number still holds. -/
theorem bits_toNat_ofNat {n hi : Nat} (h : hi < n) (x lo : Nat) : bits (BitVec.ofNat n x).toNat hi lo = bits x hi lo := by
  refine Nat.eq_of_testBit_eq fun i => ?_
  simp only [bits, BitVec.toNat_ofNat, Nat.testBit_mod_two_pow, Nat.testBit_shiftRight]
  by_cases inField : i < hi + 1 - lo
  · have held : lo + i < n := by omega
    simp only [inField, held, decide_true, Bool.true_and]
  · simp only [inField, decide_false, Bool.false_and]

theorem descBad_eq_false {x : Nat} (pc : bits x 2 0 = 0) (some_ : 1 ≤ bits x 159 128) (most : bits x 159 128 ≤ 65536)
    (low : bits x 167 165 = 0) (mid : bits x 191 184 = 0) (high : bits x 511 384 = 0) (stack : bits x 383 320 % 16 = 0)
    (group : x.testBit 164 = true → (BitVec.ofNat 64 (bits x 255 192)).toNat % 64 = 0) : descBad x = false := by
  have grouped : (descJoin x && (descGroup x).toNat % 64 != 0) = false := by
    by_cases hj : x.testBit 164 = true
    · rw [descGroup_eq, group hj, bne_self_eq_false, Bool.and_false]
    · rw [descJoin, Bool.eq_false_of_not_eq_true hj, Bool.false_and]
  have none_ : (descCount x == 0) = false := beq_eq_false_iff_ne.mpr (by unfold descCount; omega)
  have many : decide (65536 < descCount x) = false := decide_eq_false (by unfold descCount; omega)
  have aligned : (descStackSize x % 16 != 0) = false := by rw [descStackSize, stack, bne_self_eq_false]
  unfold descBad
  rw [grouped, none_, many, aligned, pc, low, mid, high]
  rfl

/-- Adding to one list of a vector, by its index. -/
theorem vector_mapIdx_append {α : Type} {n : Nat} (v : Vector (List α) n) (q : Nat) (e : α) :
    (v.mapIdx fun k l => if k = q then l ++ [e] else l) = v.setIfInBounds q (v.getD q [] ++ [e]) := by
  refine Vector.ext fun i hi => ?_
  rw [Vector.getElem_mapIdx, Vector.getElem_setIfInBounds]
  by_cases hq : i = q
  · subst hq
    simp [Vector.getD, Array.getD, hi]
  · rw [if_neg hq, if_neg (Ne.symm hq)]

/-- LAUNCH puts its entry at the end of the queue of the descriptor's priority. -/
theorem queueLaunch_eq_launched (s : State) (x gpa : Nat) :
    queueLaunch s s.th.part (BitVec.ofNat 512 x) 0 (descCount x) gpa none = (s.launched x gpa, ((s.part s.th.part).seq + 1) % 2 ^ 64) := by
  have prio : descPrio (BitVec.ofNat 512 x).toNat = bits x 163 161 := bits_toNat_ofNat (by decide) x 161
  simp only [queueLaunch, State.launched, prio, vector_mapIdx_append]
  rfl

/-! ### The group a launch joins (log 51) -/

theorem Quiet.cellOf {s : State} (h : Quiet s) {g : Word} (hg : InHbm g 64) : cellOf g s = .ok g.toNat s := by
  unfold Machine.cellOf
  rw [M.run_bind_ok (M.run_getTh s)]
  exact M.run_bind_ok (h.1.locate hg (by decide) .load accLoad)

/-- LAUNCH's look at the group of a descriptor, which `next` follows with the physical address of the object, or 0 where it joins none. -/
def launchGroup (clean : M Unit) (w : Who) (x : Nat) (next : Nat → M Unit) : M Unit :=
  if descJoin x then do
    let g := descGroup x
    let pa ← orClean clean (cellOf g)
    let o := GObj.ofNat (← orClean clean (loadHome w accLoad 64 g 64))
    raiseIf (decide (65535 < o.members + descCount x)) 0x127 g
    raiseIf o.inconsistent 0x128 g
    next pa
  else next 0

theorem Quiet.launchGroup {s : State} (h : Quiet s) (clean : M Unit) (x : Nat) (next : Nat → M Unit) :
    let g : Word := BitVec.ofNat 64 (bits x 255 192)
    let o := s.object g
    (x.testBit 164 = true → InHbm g 64 ∧ o.rest = 0 ∧ o.arrived ≤ o.members ∧ o.members + bits x 159 128 ≤ 65535) →
    Machine.launchGroup clean s.th.who x next s = next (if x.testBit 164 then g.toNat else 0) s := by
  intro g o hg
  unfold Machine.launchGroup descJoin
  by_cases hj : x.testBit 164 = true
  · obtain ⟨he, rest, below, room⟩ := hg hj
    have fits : decide (65535 < o.members + descCount x) = false := decide_eq_false (by unfold descCount; omega)
    rw [if_pos hj, if_pos hj]
    simp only [descGroup_eq]
    refine (M.run_bind_ok (M.run_orClean_ok (h.cellOf he) clean)).trans ?_
    refine (M.run_bind_ok (M.run_orClean_ok (h.loadHome he (by decide) accLoad) clean)).trans ?_
    refine (M.run_bind_ok (M.run_raiseIf fits ..)).trans ?_
    exact M.run_bind_ok (M.run_raiseIf (GObj.consistent rest below) ..)
  · rw [if_neg hj, if_neg hj]

/-! ### LAUNCH -/

/-- What LAUNCH does once its descriptor and its group stand. -/
def launchQueued (f : Fields) (part x gpa : Nat) : M Unit := do
  cleanEA f
  let s ← get
  if !queueRoom (s.part part) (descPrio x) then throw (.wait (.launchQueue (descPrio x)))
  releaseDefault 2
  let (s, seq) := queueLaunch (← get) part (BitVec.ofNat 512 x) 0 (descCount x) gpa none
  set s
  wrS f.d (BitVec.ofNat 64 seq)

theorem Quiet.launchQueued {f : Fields} {s : State} (h : Quiet s) (hr : Reads s (regsAB f)) (x gpa : Nat) :
    let p := s.part s.th.part
    Machine.launchQueued f s.th.part x gpa s = if (p.queues.getD (bits x 163 161) []).length < 256 then
        .ok () ((s.launched x gpa).put f.d (BitVec.ofNat 64 ((p.seq + 1) % 2 ^ 64)))
      else .error (.wait (.launchQueue (bits x 163 161))) s := by
  intro p
  unfold Machine.launchQueued
  refine (M.run_bind_ok (M.run_cleanEA hr)).trans ?_
  refine (M.run_bind_ok (M.run_get s)).trans ?_
  by_cases room : (p.queues.getD (bits x 163 161) []).length < 256
  · have has : (!queueRoom p (descPrio x)) = false := by simp [queueRoom, descPrio, room]
    rw [has, if_pos room]
    refine (M.run_bind_ok (h.releaseDefault 2)).trans ?_
    refine (M.run_bind_ok (M.run_get s)).trans ?_
    rw [queueLaunch_eq_launched]
    rfl
  · have full : (!queueRoom p (descPrio x)) = true := by simp [queueRoom, descPrio, room]
    rw [full, if_neg room]
    rfl

/-- A word is what its operations answer. -/
theorem runWord_congr {m m' : M Unit} {s : State} (h : m s = m' s) : runWord m s = runWord m' s := by
  simp only [runWord, runTo, M.run_bind, h]

/-- LAUNCH of a good descriptor: an entry in the queue of its priority, or a wait for room. -/
theorem launch_spec {f : Fields} {s : State} (h : Quiet s) (hr : Reads s (regsAB f)) (he : InHbm (s.addr f) 64) :
    let p := s.part s.th.part
    let x := s.bytes (s.addr f) 64
    let g : Word := BitVec.ofNat 64 (bits x 255 192)
    let o := s.object g
    descBad x = false →
    (x.testBit 164 = true → InHbm g 64 ∧ o.rest = 0 ∧ o.arrived ≤ o.members ∧ o.members + bits x 159 128 ≤ 65535) →
    exec (.launch f) s = if (p.queues.getD (bits x 163 161) []).length < 256 then
        doneWith s ((s.launched x (if x.testBit 164 then g.toNat else 0)).put f.d (BitVec.ofNat 64 ((p.seq + 1) % 2 ^ 64)))
      else .next (waitFor (.launchQueue (bits x 163 161)) s) := by
  intro p x g o good group
  have ill : ¬ descBad x = true := by simp [good]
  have read := M.run_orClean_ok (h.load he (by decide) accLoad) (cleanEA f)
  have queued := h.launchQueued hr x (if x.testBit 164 then g.toNat else 0)
  have toQueue : exec (.launch f) s = runWord (launchQueued f s.th.part x (if x.testBit 164 then g.toNat else 0)) s := by
    show execLaunch f s = _
    unfold execLaunch
    refine runWord_congr ?_
    rw [M.run_bind_ok (M.run_peekEA hr), M.run_bind_ok (M.run_getTh s)]
    refine (M.run_bind_ok (M.run_fabFirst he.local_ s)).trans ?_
    refine (M.run_bind_ok read).trans ?_
    refine (congrFun (if_neg ill) s).trans ?_
    exact h.launchGroup (cleanEA f) x (launchQueued f s.th.part x) group
  rw [toQueue]
  by_cases room : (p.queues.getD (bits x 163 161) []).length < 256
  · rw [if_pos room]
    exact runWord_ok hr.1 (queued.trans (if_pos room))
  · rw [if_neg room]
    exact runWord_wait hr.1 (queued.trans (if_neg room))

/-! ### YIELD (R181) -/

theorem yield_spec (f : Fields) {s : State} (hl : s.th.live = true) :
    let t := complete s (s.th.pc + 8) { s with th := { s.th with passes := 0, boosted := none } }
    exec (.yield f) s = .next { t with th := { t.th with wait := some .yielded } } := by
  intro t
  show execYield f s = _
  unfold execYield
  rw [runWord_ok hl (M.run_modTh ..)]

/-- Settles O33: LAUNCH by what it reads of a good descriptor and its group, EXIT by the groups the thread leaves. -/
theorem threadWords : Obligations.ThreadWords := by
  unfold Obligations.ThreadWords
  intro f s hl h p ea x g join o
  refine ⟨fun hr he pc some_ most low mid high stack group => ?_, fun mma loads he => ?_, yield_spec f hl⟩
  · have good : descBad x = false :=
      descBad_eq_false pc some_ most low mid high stack fun hj => (group hj).1.1
    exact launch_spec h hr he good group
  · exact exit_spec f hl h (grouped_of_lt he) mma loads

end Sys2Proof.Machine
end

section
/-! SUPPORT. What a step runs, and what a fetch of plain memory answers (spec/03 R59, spec/04 R94, spec/20 R361): what settles O57. -/

namespace Sys2Proof.Machine

/-! ### The word at the pc (R361) -/

theorem step_of_issued {s : State} (h : s.chosen = .cut ∨ ∃ x, s.chosen = .thread x) : step s = tryWord s := by
  rcases h with h | ⟨x, h⟩ <;> simp only [step, h] <;> rfl

theorem tryWord_of_decoded {s u : State} {w : Word} {i : Instr} (hl : s.th.live = true) (hf : fetch s.th.pc s = .ok w u)
    (hd : decodeIn u w = .ok i) : tryWord s = exec i u := by
  have run : (fetch s.th.pc).run s = .ok w u := hf
  simp only [tryWord, fetchWord, hl, if_true, run, hd]

/-- A word that decodes to nothing raises its class-0x0 cause (R361), with no progress to keep where none was resumed. -/
theorem tryWord_of_undecoded {s u : State} {w : Word} {e : EncErr} (hl : s.th.live = true) (hf : fetch s.th.pc s = .ok w u)
    (hd : decodeIn u w = .error e) (hr : s.th.resume = none) :
    tryWord s = .next { deliver { code := e.detail, xval := w } false u with chosen := .none } := by
  have run : (fetch s.th.pc).run s = .ok w u := hf
  simp only [tryWord, fetchWord, hl, if_true, run, hd, fetchTrap, Thread.resumesV, Thread.resumesT, Thread.resumeSlot1, hr,
    Option.map_none, Option.getD_none, Bool.and_false]

theorem decodeIn_of_decoded {w : Word} {i : Instr} (h : decodeWord w = .ok i) (s : State) : decodeIn s w = .ok i := by
  simp only [decodeIn, h]

/-! ### The instruction cache of a core (R59, R94) -/

/-- Words fetched together each stand under their number. -/
theorem Table.find_foldl_set {α : Type} (f : Nat → α) (l : List Nat) (t : Table α) (k : Nat) :
    (l.foldl (fun t i => t.set i (f i)) t).find k = if k ∈ l then some (f k) else t.find k := by
  induction l generalizing t with
  | nil => simp
  | cons i l ih =>
    rw [List.foldl_cons, ih]
    by_cases hk : k = i
    · subst hk; simp [Table.find_set_same]
    · simp [hk, Table.find_set_other t (f i) hk]

/-- Making room changes what the core's cache holds, and the counter of free values (R15). -/
theorem icacheRoom_eq (c : Nat) (s : State) : ∃ ic : Table Word, ∃ n : Nat,
    icacheRoom c s = s ∨ icacheRoom c s = { s with free := n }.setCore c { s.core c with icache := ic } := by
  unfold icacheRoom
  dsimp only
  split
  · exact ⟨[], 0, .inl rfl⟩
  · split
    · exact ⟨_, s.free + 1, .inr rfl⟩
    · exact ⟨[], 0, .inl rfl⟩

/-- The words of the line of address `pa` that can be fetched, and core `c` once it holds them. -/
def State.lineWords (s : State) (pa : Nat) : List Nat := ((List.range 16).map fun i => pa / 128 * 16 + i).filter fun i => s.holds (8 * i) 8

def lineFetched (via : Option Nat) (pa c : Nat) (s : State) : State :=
  s.setCore c { s.core c with
    icache := (s.lineWords pa).foldl (fun ic i => ic.set i (BitVec.ofNat 64 (s.rdVia via (8 * i) 8))) (s.core c).icache }

theorem mem_lineWords {s : State} {pa : Nat} (h : pa ≤ hbmEnd) : pa / 8 ∈ s.lineWords pa := by
  have near : isFabric (8 * (pa / 8)) = false := isFabric_of_le_hbmEnd (by omega)
  refine List.mem_filter.mpr ⟨List.mem_map.mpr ⟨pa / 8 % 16, List.mem_range.mpr (by omega), by omega⟩, ?_⟩
  simp only [State.holds, near, Bool.not_false, Bool.true_or]

theorem lineFetched_find {s : State} {pa : Nat} (h : pa ≤ hbmEnd) (via : Option Nat) (c : Nat) :
    ((lineFetched via pa c s).core c).icache.find (pa / 8) = some (BitVec.ofNat 64 (s.rdVia via (8 * (pa / 8)) 8)) := by
  rw [lineFetched, State.core_setCore_same]
  dsimp only
  rw [Table.find_foldl_set, if_pos (mem_lineWords h)]

/-- Two states that differ in what the instruction cache of core `c` holds, and in the counter of free values. -/
def SameButIcache (c : Nat) (s u : State) : Prop :=
  u = { s with cores := u.cores, free := u.free } ∧
    ∀ k, u.core k = if k = c then { s.core c with icache := (u.core k).icache } else s.core k

theorem SameButIcache.setCore {c : Nat} {s u : State} (h : SameButIcache c s u) (ic : Table Word) :
    SameButIcache c s (u.setCore c { u.core c with icache := ic }) := by
  obtain ⟨frame, cores⟩ := h
  refine ⟨?_, fun k => ?_⟩
  · rw [frame]; rfl
  · by_cases hk : k = c
    · subst hk
      have own := cores k
      rw [if_pos rfl] at own
      rw [if_pos rfl, State.core_setCore_same, own]
    · rw [if_neg hk, State.core_setCore_other _ _ hk, cores k, if_neg hk]

theorem SameButIcache.refl (c : Nat) (s : State) : SameButIcache c s s :=
  ⟨rfl, fun k => by by_cases hk : k = c <;> simp [hk]⟩

theorem SameButIcache.free {c : Nat} {s u : State} (h : SameButIcache c s u) (n : Nat) : SameButIcache c s { u with free := n } := by
  obtain ⟨frame, cores⟩ := h
  exact ⟨by rw [frame], cores⟩

theorem sameButIcache_icacheRoom (c : Nat) (s : State) : SameButIcache c s (icacheRoom c s) := by
  obtain ⟨ic, n, h | h⟩ := icacheRoom_eq c s
  · rw [h]; exact .refl c s
  · rw [h]; exact ((SameButIcache.refl c s).free n).setCore ic

/-! ### A fetch of plain memory -/

theorem Quiet.rdVia {s : State} (h : Quiet s) (c pa n : Nat) : s.rdVia (some c) pa n = s.mem.readLE pa n := by
  have stale : (s.clusters.get c Cluster.reset).stale = [] := h.1.stale_nil c
  simp only [State.rdVia, h.1.late_nil, stale, State.rdMem, h.2]

theorem Quiet.readVia {s : State} (h : Quiet s) (c pa n : Nat) : readVia s (some c) pa n = (s, s.mem.readLE pa n) := by
  obtain ⟨-, -, -, updates, -⟩ := h.plainMem
  simp only [Machine.readVia, recallRange_of_noUpdates updates, h.rdVia]

/-- What a fetch at `pa` leaves of core `c`: it takes in the line where its instruction cache lacks the word. -/
def keepFetched (via : Option Nat) (pa c : Nat) (s : State) : State :=
  match (s.core c).icache.find (pa / 8) with
  | some _ => s
  | none => lineFetched via pa c (icacheRoom c s)

/-- The word memory holds, where the core holds no other. -/
theorem Quiet.fetch {s : State} (h : Quiet s) {ea : Word} (he : InHbm ea 8)
    (current : ∀ w, (s.core s.th.coreNo).icache.find (ea.toNat / 8) = some w → w = BitVec.ofNat 64 (s.bytes ea 8)) :
    fetch ea s = .ok (BitVec.ofNat 64 (s.bytes ea 8)) (keepFetched (some s.th.clusterNo) ea.toNat s.th.coreNo s) := by
  have low : ea.toNat ≤ hbmEnd := Nat.le_of_add_right_le he.2
  have read : Machine.readVia s (some s.th.clusterNo) ea.toNat 8 = (s, s.bytes ea 8) := h.readVia _ _ _
  unfold Machine.fetch keepFetched
  rw [M.run_bind_ok (M.run_getTh s), M.run_bind_ok (h.1.locate he (by decide) .fetch accFetch), M.run_bind_ok (M.run_checkWatermark h.1 ..)]
  simp only [checkPoison, M.run_bind, M.run_get, h.poisonAt low, M.run_pure, read, M.run_set, Option.isNone_some, Bool.false_eq_true,
    if_false]
  cases held : (s.core s.th.coreNo).icache.find (ea.toNat / 8) with
  | some _ =>
    simp only [current _ held, if_true]
    rfl
  | none => rfl

theorem keepFetched_of_held {s : State} {c pa : Nat} {w : Word} (h : (s.core c).icache.find (pa / 8) = some w) (via : Option Nat) :
    keepFetched via pa c s = s := by
  simp only [keepFetched, h]

/-- A line that comes in changes the core's instruction cache alone, which then holds the word as memory does. -/
theorem Quiet.keepFetched_of_missing {s : State} (h : Quiet s) {ea : Word} (he : InHbm ea 8) {c : Nat} (via : Nat)
    (missing : (s.core c).icache.find (ea.toNat / 8) = none) :
    SameButIcache c s (keepFetched (some via) ea.toNat c s) ∧
      ((keepFetched (some via) ea.toNat c s).core c).icache.find (ea.toNat / 8) = some (BitVec.ofNat 64 (s.bytes ea 8)) := by
  have room := sameButIcache_icacheRoom c s
  have reads : (icacheRoom c s).rdVia (some via) (8 * (ea.toNat / 8)) 8 = s.bytes ea 8 := by
    rw [room.1, Nat.mul_div_cancel' (Nat.dvd_of_mod_eq_zero he.1)]
    exact h.rdVia via ea.toNat 8
  simp only [keepFetched, missing]
  refine ⟨room.setCore _, ?_⟩
  rw [lineFetched_find (Nat.le_of_add_right_le he.2), reads]

/-! ### Tile instructions and moves -/

theorem step_of_tile {s : State} {d : Nat} {j : TileJob} {rest : List TileJob} {i : Instr} (hc : s.chosen = .tile d)
    (hq : (s.dec d).queue = j :: rest)
    (hi : decodeTile (BitVec.ofNat 64 (j.word.toNat >>> (64 * 0))) (BitVec.ofNat 64 (j.word.toNat >>> (64 * 1)))
      (BitVec.ofNat 64 (j.word.toNat >>> (64 * 2))) (BitVec.ofNat 64 (j.word.toNat >>> (64 * 3))) = .ok i) :
    step s = exec i s := by
  simp only [step, hc, tileHead, hq, hi]

theorem step_of_agenda {s : State} {i : Instr} {l : List Instr} (hc : s.chosen = .none) (ha : s.agenda = i :: l) :
    step s = exec i { s with agenda := l } := by simp only [step, hc, ha]

/-- The move that comes next is one the state allows; which one is free. -/
theorem pickMove_mem {s : State} (h : moves s ≠ []) : ∃ m ∈ moves s, pickMove s = some (m, s.tick) := by
  unfold pickMove
  match hm : moves s with
  | [] => exact absurd hm h
  | [m] => exact ⟨m, List.mem_cons_self, rfl⟩
  | m :: m' :: l =>
    have inside : Config.freeNat s.free % (m :: m' :: l).length < (m :: m' :: l).length := Nat.mod_lt _ (Nat.succ_pos _)
    refine ⟨_, List.getElem_mem inside, ?_⟩
    simp only [List.getElem?_eq_getElem inside, Option.map_some]

theorem step_of_move {s : State} {m : Move} (hc : s.chosen = .none) (ha : s.agenda = []) (hm : pickMove s = some (m, s.tick)) :
    step s = match m with
      | .event i => exec i s.tick
      | m => .next (runMove m s.tick) := by
  simp only [step, hc, ha, hm]
  cases m <;> rfl

theorem step_of_still {s : State} (hc : s.chosen = .none) (ha : s.agenda = []) (hm : moves s = []) : step s = .next s := by
  simp only [step, hc, ha, pickMove, hm]

/-- Settles O57: the word, the tile instruction or the step at hand, and otherwise one of the moves the state allows. -/
theorem stepRunsDecoded : Obligations.StepRunsDecoded := by
  unfold Obligations.StepRunsDecoded
  intro s
  refine ⟨fun issued hl w u hf => ⟨fun i hi => ?_, fun e he hr => ?_⟩, fun h he => ⟨fun held => ?_, fun missing => ?_⟩,
    fun d j rest i hc hq hi => step_of_tile hc hq hi,
    fun hc => ⟨fun i l ha => step_of_agenda hc ha, fun ha hm => step_of_still hc ha hm, fun ha hm => ?_⟩⟩
  · rw [step_of_issued issued, tryWord_of_decoded hl hf (decodeIn_of_decoded hi u)]
  · rw [step_of_issued issued, tryWord_of_undecoded hl hf he hr]
  · rw [h.fetch he fun w hw => Option.some.inj (hw.symm.trans held), keepFetched_of_held held]
  · obtain ⟨⟨frame, cores⟩, found⟩ := h.keepFetched_of_missing he s.th.clusterNo missing
    exact ⟨_, h.fetch he fun w hw => absurd (missing.symm.trans hw) nofun, found, frame, cores⟩
  · obtain ⟨m, mem, pick⟩ := pickMove_mem hm
    refine ⟨m, mem, (step_of_move hc ha pick).trans ?_⟩
    cases m with
    | cut k =>
      have next : (Instr.slotStop (s.tick.thread k).coreNo (s.tick.thread k).slot :: s.tick.agenda) =
          [.slotStop (s.thread k).coreNo (s.thread k).slot] := by rw [State.tick_agenda, ha]; rfl
      simp only [runMove, next]
    | _ => rfl

end Sys2Proof.Machine
end

section
/-! SUPPORT. What lets a waiting thread issue its word again, and the load that takes an entry of a FIFO (spec/02 R36, spec/03 R61, R63,
spec/19 R352): what settles O27. -/

namespace Sys2Proof.Machine

/-! ### Waking one thread -/

theorem wake_of_ready {s : State} {k : Nat} (h : (s.thread k).wait = none) (why : WaitReason → Bool) : wake k why s = s := by
  simp only [wake, h]

theorem wake_of_waiting {s : State} {k : Nat} {r : WaitReason} (h : (s.thread k).wait = some r) (why : WaitReason → Bool) :
    wake k why s = if why r then s.setThread k { s.thread k with wait := none } else s := by
  simp only [wake, h]

theorem wake_next {s : State} {k : Nat} {r : WaitReason} (h : (s.thread k).wait = some r) (why : WaitReason → Bool) :
    (.next (wake k why s) : Out) = if why r then .next (s.setThread k { s.thread k with wait := none }) else .next s := by
  rw [wake_of_waiting h]
  exact apply_ite Host.Outcome.next _ _ _

/-- Waking changes what the thread waits for alone. -/
theorem wake_frame (s : State) (k : Nat) (why : WaitReason → Bool) :
    (wake k why s).clusters = s.clusters ∧ (wake k why s).mem = s.mem ∧
      (wake k why s).thread k = { s.thread k with wait := (s.thread k).wait.filter fun r => !why r } := by
  cases h : (s.thread k).wait with
  | none =>
    rw [wake_of_ready h]
    exact ⟨rfl, rfl, by rw [Option.filter_none, ← h]⟩
  | some r =>
    rw [wake_of_waiting h]
    cases hr : why r with
    | true =>
      refine ⟨State.setThread_clusters .., State.setThread_mem .., ?_⟩
      rw [if_pos rfl, State.thread_setThread, if_pos rfl, Option.filter_some_neg (by simp [hr])]
    | false => exact ⟨rfl, rfl, by rw [Option.filter_some_pos (by simp [hr]), ← h]; rfl⟩

/-! ### Elements of vector registers (R194) -/

/-- The bits of a field after it was replaced. -/
theorem field_of_replaced {n w sh : Nat} (h : sh + w ≤ n) (old : BitVec n) (x : Nat) :
    ((old &&& ~~~(BitVec.ofNat n (2 ^ w - 1) <<< sh)) ||| ((BitVec.ofNat n x <<< sh) &&& (BitVec.ofNat n (2 ^ w - 1) <<< sh))).toNat >>> sh % 2 ^ w
      = x % 2 ^ w := by
  refine Nat.eq_of_testBit_eq fun i => ?_
  rw [Nat.testBit_mod_two_pow, Nat.testBit_mod_two_pow, Nat.testBit_shiftRight, BitVec.testBit_toNat]
  by_cases hi : i < w
  · have inside : sh + i < n := by omega
    have low : decide (i < n) = true := decide_eq_true (by omega)
    have ones : (BitVec.ofNat n (2 ^ w - 1)).getLsbD i = true := by
      rw [BitVec.getLsbD_ofNat, low, Nat.testBit_two_pow_sub_one, decide_eq_true hi, Bool.true_and]
    have field : (BitVec.ofNat n x).getLsbD i = x.testBit i := by
      rw [BitVec.getLsbD_ofNat, low, Bool.true_and]
    rw [BitVec.getLsbD_or, BitVec.getLsbD_and, BitVec.getLsbD_and, BitVec.getLsbD_not, BitVec.getLsbD_shiftLeft, BitVec.getLsbD_shiftLeft,
      Nat.add_sub_cancel_left, ones, field]
    simp [hi, inside]
  · simp [hi]

theorem Thread.vget_vput_same {r reg w i : Nat} (t : Thread) (x : Nat) (inside : reg + i * (w / 8) / r < 32)
    (fits : 8 * (i * (w / 8) % r) + w ≤ 8192) : (t.vput r reg w i x).vget r reg w i = x % 2 ^ w := by
  simp only [Thread.vget, Thread.vput, Thread.setVreg, inside, dif_pos, Thread.vreg]
  rw [vector_getD_set _ inside, if_pos rfl]
  exact field_of_replaced fits _ x

/-- Writing elements changes the vector registers alone. -/
theorem Thread.foldl_vput_eq {α : Type} (r reg w : Nat) (i x : α → Nat) (l : List α) (t : Thread) :
    ∃ v, l.foldl (fun t a => t.vput r reg w (i a) (x a)) t = { t with v := v } := by
  induction l generalizing t with
  | nil => exact ⟨t.v, rfl⟩
  | cons a l ih =>
    obtain ⟨v, h⟩ := ih (t.vput r reg w (i a) (x a))
    refine ⟨v, ?_⟩
    rw [List.foldl_cons, h, Thread.vput, Thread.setVreg]
    split <;> rfl

theorem Thread.clearMarks_eq (t : Thread) (r reg w : Nat) (l : List Nat) :
    t.clearMarks r reg w l = { t with vpoison := (t.clearMarks r reg w l).vpoison } := by
  unfold Thread.clearMarks
  split <;> rfl

theorem Thread.vget_clearMarks (t : Thread) (r reg w : Nat) (l : List Nat) (n m k i : Nat) :
    (t.clearMarks r reg w l).vget n m k i = t.vget n m k i := by
  rw [Thread.clearMarks_eq]
  rfl

/-! ### A load that waits at a FIFO port (R61) -/

/-- Thread `t`, with vector registers of `r` bytes, once load `l` brought it `x`. -/
def Thread.takes (r : Nat) (l : FifoLoad) (x : Nat) (t : Thread) : Thread :=
  match l.vec with
  | some d =>
    let es := (List.range d.count).map (d.first + ·)
    (es.zipIdx.foldl (fun t e => t.vput r d.reg d.sew e.1 (elem d.sew x e.2)) t).clearMarks r d.reg d.sew es
  | none => t.setS l.reg (loadResult l.width l.zx (BitVec.ofNat 64 x))

theorem Thread.takes_vector {l : FifoLoad} {d : VDest} (h : l.vec = some d) (r x : Nat) (t : Thread) :
    ∃ v p, t.takes r l x = { t with v := v, vpoison := p } := by
  simp only [Thread.takes, h]
  obtain ⟨v, hv⟩ := t.foldl_vput_eq r d.reg d.sew Prod.fst (fun e => elem d.sew x e.2) ((List.range d.count).map (d.first + ·)).zipIdx
  rw [Thread.clearMarks_eq, hv]
  exact ⟨_, _, rfl⟩

theorem loadResult_word (zx : Bool) (e : Word) : loadResult 64 zx e = e := by
  have whole : e.toNat % 2 ^ 64 = e.toNat := Nat.mod_eq_of_lt e.isLt
  cases zx with
  | true => exact (congrArg (BitVec.ofNat 64) whole).trans (by simp)
  | false =>
    have signed : toWord (sInt 64 e.toNat) = e := by
      unfold toWord wrap sInt
      apply BitVec.eq_of_toNat_eq
      have := e.isLt
      rw [BitVec.toNat_ofNat]
      dsimp only
      split <;> omega
    exact signed

theorem Thread.takes_frame (r x : Nat) (l : FifoLoad) (t : Thread) :
    (t.takes r l x).loads.length = t.loads.length ∧ (t.takes r l x).pc = t.pc ∧ (t.takes r l x).wait = t.wait := by
  cases h : l.vec with
  | some d =>
    obtain ⟨v, p, e⟩ := Thread.takes_vector h r x t
    rw [e]
    exact ⟨rfl, rfl, rfl⟩
  | none =>
    simp only [Thread.takes, h]
    refine ⟨?_, Thread.setS_pc .., Thread.setS_wait ..⟩
    by_cases h0 : l.reg = 0
    · simp [Thread.setS, h0]
    · rw [Thread.setS_loads t _ h0, List.length_map]

theorem Thread.getS_takes {l : FifoLoad} (width : l.width = 64) (r : Nat) (e : Word) (t : Thread) (q : BitVec 6) :
    (t.takes r l e.toNat).getS q = if l.vec = none ∧ q = l.reg ∧ q ≠ 0 then e else t.getS q := by
  cases h : l.vec with
  | some d =>
    obtain ⟨v, p, e⟩ := Thread.takes_vector h r e.toNat t
    rw [e]
    simp [Thread.getS]
  | none =>
    simp only [Thread.takes, h, width, BitVec.ofNat_toNat, BitVec.setWidth_eq, loadResult_word, true_and]
    by_cases h0 : l.reg = 0
    · rw [if_neg fun hq => hq.2 (hq.1.trans h0), Thread.setS, if_pos h0]
    · rw [Thread.getS_setS h0]
      by_cases hq : q = l.reg
      · rw [if_pos hq, if_pos ⟨hq, fun hz => h0 (hq.symm.trans hz)⟩]
      · rw [if_neg hq, if_neg fun h => hq h.1]

/-- The one element of 64 bits a load fills (R194). -/
theorem Thread.vget_takes {l : FifoLoad} {d : VDest} (h : l.vec = some d) (count : d.count = 1) (sew : d.sew = 64) {r : Nat}
    (inside : d.reg + d.first * 8 / r < 32) (fits : 8 * (d.first * 8 % r) + 64 ≤ 8192) (e : Word) (t : Thread) :
    (t.takes r l e.toNat).vget r d.reg 64 d.first = e.toNat := by
  have whole : elem 64 e.toNat 0 % 2 ^ 64 = e.toNat := by
    simp only [elem, Nat.mul_zero, Nat.shiftRight_zero, Nat.mod_mod]
    exact Nat.mod_eq_of_lt e.isLt
  have one : (List.range d.count).map (d.first + ·) = [d.first] := by rw [count]; rfl
  simp only [Thread.takes, h, one, sew, Thread.vget_clearMarks]
  exact (Thread.vget_vput_same t _ inside fits).trans whole

/-- Register bytes leave room for the last aligned double word. -/
theorem fits_threadLanes (s : State) (t : Thread) (i : Nat) : 8 * (i * 8 % (16 * threadLanes s t)) + 64 ≤ 8192 := by
  have lanes : threadLanes s t ∈ [8, 16, 32, 64] := by
    unfold threadLanes lanesOf Core.lpc
    cases t.isL <;> cases (s.core t.coreNo).full <;> decide
  simp only [List.mem_cons, List.not_mem_nil, or_false] at lanes
  rcases lanes with h | h | h | h <;> rw [h] <;> omega

/-- A bank whose next entry was popped, leaving `more`. -/
def Bank.popped (more : List Word) (b : Bank) : Bank := { b with ring := more, head := (b.head + 1) % 16384 }

/-- The bank a load waits at. -/
def State.bankOf (s : State) (l : FifoLoad) : Bank := (s.cluster l.cluster).banks.getD l.bank Bank.reset

/-- After thread `k`'s oldest load `l` popped entry `e` of its bank, leaving the loads `rest` and the entries `more`. -/
def State.popped (k : Nat) (l : FifoLoad) (rest : List FifoLoad) (e : Word) (more : List Word) (s : State) : State :=
  (setBank s l.cluster l.bank ((s.bankOf l).popped more)).setThread k
    ({ s.thread k with loads := rest }.takes (16 * threadLanes s (s.thread k)) l e.toNat)

/-- The oldest load of a thread that runs pops the next entry of a bank where none is damaged. -/
theorem popWaiting_oldest {k : Nat} {s : State} {l : FifoLoad} {rest : List FifoLoad} {e : Word} {more : List Word}
    (loads : (s.thread k).loads = l :: rest) (width : l.width = 64) (bank : l.bank < 16) (running : s.running (s.thread k) = true)
    (here : l.vec = none ∨ (s.thread k).vectorHere = true) (mode : (s.bankOf l).mode = 2) (busy : (s.bankOf l).busy = false)
    (bad : (s.bankOf l).bad = []) (ring : (s.bankOf l).ring = e :: more) : popWaiting k s = some (s.popped k l rest e more) := by
  unfold State.bankOf at mode busy bad ring
  have index : l.bank % 16 = l.bank := Nat.mod_eq_of_lt bank
  have first (p : Nat → Bool) (h : p 0 = true) : (List.range (l :: rest).length).find? p = some 0 := by
    rw [List.length_cons, List.range_succ_eq_map, List.find?_cons_of_pos h]
  have here' : (l.vec.isNone || (s.thread k).vectorHere) = true := by
    rcases here with h | h <;> simp [h]
  unfold popWaiting
  simp only [loads, running]
  rw [first _ (by simp [index, mode, busy, ring, width, here'])]
  simp only [List.getElem?_cons_zero, index, removeAt, width, Bank.damage, bad, Bank.pop, ring, State.popped, State.bankOf, Bank.popped]
  cases h : l.vec with
  | none => simp [Thread.takes, h, fifoValue, width]
  | some d =>
    simp only [Nat.ofNat_pos, Nat.div_self, List.drop_succ_cons, List.drop_zero, Option.isSome_none, Bool.false_eq_true, if_false,
      List.take_succ_cons, List.take_zero, fifoValue, Nat.reducePow, zero_mul, add_zero, Thread.takes, h]
    rfl

theorem popWaiting_of_none {k : Nat} {s : State} (h : (s.thread k).loads = []) : popWaiting k s = none := by
  simp [popWaiting, h]

/-- What FIFO_POP_WAKE wakes (R61). -/
def WaitReason.atFifo : WaitReason → Bool
  | .fifo _ _ | .load => true
  | _ => false

theorem execFifoPopWake_eq (k : Nat) (s : State) : execFifoPopWake k s = .next (wake k WaitReason.atFifo ((popWaiting k s).getD s)) := rfl

theorem execFifoPopWake_of_none {k : Nat} {s : State} (h : (s.thread k).loads = []) :
    execFifoPopWake k s = .next (wake k WaitReason.atFifo s) := by
  rw [execFifoPopWake_eq, popWaiting_of_none h, Option.getD_none]

/-! ### Banks and slots (R63, R352) -/

theorem setBank_eq {j : Nat} (h : j < 16) (s : State) (c : Nat) (b : Bank) :
    setBank s c j b = s.setCluster c { s.cluster c with banks := (s.cluster c).banks.setIfInBounds j b } := by
  unfold setBank
  rw [dif_pos h]
  have same : (s.cluster c).banks.set j b h = (s.cluster c).banks.setIfInBounds j b := by
    simp only [Vector.set, Vector.setIfInBounds, Array.setIfInBounds, Vector.size_toArray, h, dif_pos]
  rw [same]

theorem bankOf_popped {l : FifoLoad} (h : l.bank < 16) (k : Nat) (rest : List FifoLoad) (e : Word) (more : List Word) (s : State) :
    (s.popped k l rest e more).bankOf l = (s.bankOf l).popped more := by
  simp only [State.popped, State.bankOf, State.cluster, State.setThread_clusters, setBank, dif_pos h, State.setCluster, Table.get_set_same]
  rw [vector_getD_set _ h, if_pos rfl]

theorem bmodeChangeDone_spec (c j : Nat) (s : State) :
    exec (.bmodeChangeDone c j) s = .next (if j < 16 ∧ ((s.cluster c).banks.getD j Bank.reset).busy = true then
      wakeAll (· == .bank c j) (s.setCluster c { s.cluster c with
        banks := (s.cluster c).banks.setIfInBounds j { (s.cluster c).banks.getD j Bank.reset with busy := false } }) else s) := by
  change execBmodeChangeDone c j s = _
  unfold execBmodeChangeDone
  by_cases h : j < 16 ∧ ((s.cluster c).banks.getD j Bank.reset).busy = true
  · rw [if_pos h, if_pos (by simp [h]), setBank_eq h.1]
  · rw [if_neg h, if_neg (by simpa using h)]

/-- A slot may stop once its thread, if it has one, waits for nothing it began (R348, R352). -/
theorem slotStop_spec (c j : Nat) (s : State) :
    exec (.slotStop c j) s = if j < 8 ∧ (s.core c).stop.getLsbD j = true ∧ (s.core c).stopped.getLsbD j = false ∧
        ∀ t, s.inSlot c j = some t → saveWaits s t = none then
      .next (s.setCore c { s.core c with stopped := (s.core c).stopped ||| BitVec.ofNat 8 (2 ^ j) }) else .next s := by
  change execSlotStop c j s = _
  unfold execSlotStop
  cases s.inSlot c j <;> simp [and_assoc]

/-- Settles O27: each event by the waits it ends, and the load that pops by the entry it takes. -/
theorem stopsAndWakes : Obligations.StopsAndWakes := by
  unfold Obligations.StopsAndWakes
  refine ⟨fun c j s => ⟨bmodeChangeDone_spec c j s, fun hj stop stopped clear => ?_, fun h => ?_⟩, fun k s => ⟨fun ready none i hi => ?_,
    fun l rest e more loads width bank running here mode busy bad ring => ?_, fun r hr => ⟨?_, ?_, ?_, fun none => ?_, ?_, ?_⟩⟩⟩
  · rw [slotStop_spec, if_pos ⟨hj, stop, stopped, clear⟩]
  · rw [slotStop_spec, if_neg h]
  · simp only [List.mem_cons, List.not_mem_nil, or_false] at hi
    rcases hi with rfl | rfl | rfl | rfl | rfl | rfl
    · exact congrArg _ (wake_of_ready ready _)
    · exact congrArg _ (wake_of_ready ready _)
    · exact congrArg _ (wake_of_ready ready _)
    · exact (execFifoPopWake_of_none none).trans (congrArg _ (wake_of_ready ready _))
    · exact congrArg _ (wake_of_ready ready _)
    · exact congrArg _ (wake_of_ready ready _)
  · obtain ⟨clusters, mem, thread⟩ := wake_frame (s.popped k l rest e more) k WaitReason.atFifo
    rw [State.popped, State.thread_setThread, if_pos rfl, ← State.popped] at thread
    obtain ⟨length, pc, wait⟩ := Thread.takes_frame (16 * threadLanes s (s.thread k)) e.toNat l { s.thread k with loads := rest }
    refine ⟨_, (execFifoPopWake_eq k s).trans (by rw [popWaiting_oldest loads width bank running here mode busy bad ring, Option.getD_some]),
      ?_, fun q => ?_, fun d hd count sew _ inside => ?_, ?_, ?_, ?_, ?_⟩
    · exact (congrArg (fun c : Table Cluster => (c.get l.cluster Cluster.reset).banks.getD l.bank Bank.reset) clusters).trans
        (bankOf_popped bank k rest e more s)
    · rw [thread]
      exact Thread.getS_takes width _ e _ q
    · rw [thread]
      exact Thread.vget_takes hd count sew inside (fits_threadLanes s _ _) e _
    · rw [thread]
      exact length
    · rw [thread]
      exact pc
    · rw [mem, State.popped, State.setThread_mem, setBank_eq bank, State.setCluster_mem]
    · rw [thread]
      dsimp only
      rw [wait]
      dsimp only
      cases (s.thread k).wait with
      | none => rfl
      | some r => cases r <;> rfl
  · exact (wake_next hr _).trans (by cases r <;> rfl)
  · exact (wake_next hr _).trans (by cases r <;> rfl)
  · exact (wake_next hr _).trans (by cases r <;> rfl)
  · exact (execFifoPopWake_of_none none).trans ((wake_next hr _).trans (by cases r <;> rfl))
  · exact (wake_next hr _).trans (by cases r <;> rfl)
  · refine (wake_next hr _).trans ?_
    cases r <;> simp [queueRoom]

end Sys2Proof.Machine
end

section
/-! SUPPORT. What settles O43: a line that stands marked though it lies outside the page that moves is copied beyond the new frame, where
that write can mark a line of the page again (spec/21 R373). -/

namespace Sys2Proof.Machine

/-- A page of 4 KiB, all of it copied, on its way from 0x2000 to 0x1000. The one line that stands marked is the first beyond its source,
whose place after the move is that source's first line. -/
def pastTheEnd : Migration where
  va := 0
  size := 0
  src := 0x2000
  dst := 0x1000
  entry := 0
  up := false
  copied := 32
  marked := [96]

def movingPastTheEnd : State := State.reset.setPart 0 { Partition.reset with migs := [pastTheEnd] }

/-- The copy of the marked line writes the page's first line, which is marked from then on. -/
theorem migrationCopy_movingPastTheEnd :
    ((outState movingPastTheEnd (exec (.migrationCopy 0 0) movingPastTheEnd)).part 0).migs[0]?.map Migration.marked = some [64] := by
  decide +kernel

/-- Refutes O43 in its clause on MIGRATION_COPY of a marked line, which asks nothing of where that line lies. With a mark outside the page
the copy leaves a new mark behind, where the statement has only the old one gone. -/
theorem not_tiering : ¬ Obligations.Tiering := by
  unfold Obligations.Tiering
  intro h
  have noUpdates : NoUpdates movingPastTheEnd := by unfold NoUpdates; decide
  obtain ⟨-, -, moves⟩ := h.2 0 movingPastTheEnd
  obtain ⟨-, marked, -⟩ := moves 0 pastTheEnd rfl rfl rfl rfl (by decide) noUpdates rfl rfl
  obtain ⟨t, run, -, -, left⟩ := marked 96 [] (by decide) rfl (by decide) (by decide) (by decide)
  have again := migrationCopy_movingPastTheEnd
  rw [run] at again
  exact absurd (left.symm.trans again) (by decide)

end Sys2Proof.Machine
end

section
/-! SUPPORT. What an access of an engine leaves alone: threads, cores, decomposers, dies, loops, the marks of tile queues and what a cluster
holds beside its banks and caches (spec/03 R51, R57, R60, spec/12 R286, R303, R390). -/

namespace Sys2Proof.Machine

/-! ### What an engine leaves alone -/

/-- From `s` an engine's access led to `t`. -/
structure Worked (s t : State) : Prop where
  th : t.th = s.th
  cur : t.cur = s.cur
  parked : t.parked = s.parked
  cores : t.cores = s.cores
  decs : t.decs = s.decs
  dies : t.dies = s.dies
  plat : t.plat = s.plat
  loops : t.loops = s.loops
  marks : ∀ q, (t.tq q).marks = (s.tq q).marks
  clusters : ∀ c, t.cluster c = { s.cluster c with banks := (t.cluster c).banks, stale := (t.cluster c).stale }

theorem Worked.refl (s : State) : Worked s s := ⟨rfl, rfl, rfl, rfl, rfl, rfl, rfl, rfl, fun _ => rfl, fun _ => rfl⟩

theorem Worked.trans {s t u : State} (h : Worked s t) (g : Worked t u) : Worked s u where
  th := g.th.trans h.th
  cur := g.cur.trans h.cur
  parked := g.parked.trans h.parked
  cores := g.cores.trans h.cores
  decs := g.decs.trans h.decs
  dies := g.dies.trans h.dies
  plat := g.plat.trans h.plat
  loops := g.loops.trans h.loops
  marks q := (g.marks q).trans (h.marks q)
  clusters c := by rw [g.clusters c, h.clusters c]

theorem Worked.noUpdates {s t : State} (h : Worked s t) (hu : NoUpdates s) : NoUpdates t := by
  unfold NoUpdates
  rw [h.cores]
  exact hu

/-- Storage, its poison and what is noted of it change, and nothing else. -/
theorem worked_of_storage {s t : State} (h : t = { s with
    parts := t.parts, mem := t.mem, late := t.late, fabric := t.fabric, poison := t.poison, frames := t.frames, log := t.log
    zjobs := t.zjobs, colls := t.colls, unseen := t.unseen, kv := t.kv, msix := t.msix, sent := t.sent, free := t.free }) : Worked s t := by
  rw [h]
  exact ⟨rfl, rfl, rfl, rfl, rfl, rfl, rfl, rfl, fun _ => rfl, fun _ => rfl⟩

theorem Worked.foldl {α : Type} {f : State → α → State} (hf : ∀ s a, NoUpdates s → Worked s (f s a)) (l : List α) {s : State}
    (hu : NoUpdates s) : Worked s (l.foldl f s) := by
  induction l generalizing s with
  | nil => exact .refl s
  | cons a l ih =>
    have first := hf s a hu
    exact first.trans (ih (first.noUpdates hu))

/-- A cluster's banks and caches change. -/
theorem worked_setCluster (s : State) (c : Nat) (k : Cluster) (h : k = { s.cluster c with banks := k.banks, stale := k.stale }) :
    Worked s (s.setCluster c k) := by
  refine ⟨rfl, rfl, rfl, rfl, rfl, rfl, rfl, rfl, fun _ => rfl, fun d => ?_⟩
  by_cases hd : d = c
  · subst hd
    have own : (s.setCluster d k).cluster d = k := Table.get_set_same ..
    rw [own]
    exact h
  · have other : (s.setCluster c k).cluster d = s.cluster d := Table.get_set_other _ _ _ hd
    rw [other]

/-- Clusters' banks and caches change. -/
theorem worked_mapClusters (s : State) (g : Nat × Cluster → Nat × Cluster)
    (h : ∀ e, g e = (e.1, { e.2 with banks := (g e).2.banks, stale := (g e).2.stale })) :
    Worked s { s with clusters := s.clusters.map g } := by
  refine ⟨rfl, rfl, rfl, rfl, rfl, rfl, rfl, rfl, fun _ => rfl, fun d => ?_⟩
  unfold State.cluster
  induction s.clusters with
  | nil => rfl
  | cons e l ih =>
    obtain ⟨i, k⟩ := e
    rw [List.map_cons, h (i, k)]
    simp only [Table.get, Table.find] at ih ⊢
    split
    · rfl
    · exact ih

/-! ### Storage (R60, R373, R377) -/

theorem worked_wrMem (s : State) (pa v n : Nat) : Worked s (s.wrMem pa v n) := worked_of_storage rfl

theorem worked_setPart (s : State) (p : Nat) (q : Partition) : Worked s (s.setPart p q) := worked_of_storage rfl

theorem worked_tick (s : State) : Worked s s.tick := worked_of_storage rfl

theorem worked_sendOut (pa n : Nat) (s : State) : Worked s (sendOut pa n s) := by
  unfold sendOut
  split
  · exact worked_of_storage rfl
  · exact .refl s

theorem worked_wordHome (s : State) (u : Nat) (l : Late) (hu : NoUpdates s) : Worked s (s.wordHome u l) := by
  have gone := (worked_of_storage (s := s) (t := { s with late := s.late.erase u }) rfl).trans
    (worked_mapClusters { s with late := s.late.erase u } (fun e => (e.1, { e.2 with
      stale := e.2.stale.map fun x => if x.1 == u then (u, { x.2 with ahead := false }) else x })) fun _ => rfl)
  unfold State.wordHome
  dsimp only
  split
  · exact gone.trans (worked_wrMem ..)
  · exact gone.trans (Worked.foldl (fun s r _ => worked_sendOut _ _ s) _ (gone.noUpdates hu))

theorem worked_settle (s : State) (pa n : Nat) (hu : NoUpdates s) : Worked s (s.settle pa n) := by
  unfold State.settle
  split
  · exact .refl s
  · exact (Worked.foldl (fun s e hu => worked_wordHome s e.1 e.2 hu) _ hu).trans
      (worked_mapClusters _ (fun e => (e.1, { e.2 with stale := e.2.stale.filter fun x => !touchesWord pa n x.1 })) fun _ => rfl)

theorem worked_spoilBuffer (l : List (Nat × Nat)) (s : State) (hu : NoUpdates s) : Worked s (spoilBuffer l s) :=
  Worked.foldl (fun s r hu =>
    have settled := worked_settle s r.1 r.2 hu
    settled.trans (Worked.foldl (fun s _ _ => (worked_tick s).trans (worked_wrMem ..)) _ (settled.noUpdates hu))) l hu

theorem worked_spoilUnseen (pa n : Nat) (s : State) (hu : NoUpdates s) : Worked s (spoilUnseen pa n s) := by
  unfold spoilUnseen
  split
  · exact .refl s
  · exact Worked.foldl (fun s p hu => Worked.foldl (fun s b hu => worked_spoilBuffer b s hu) _ hu) _ hu

theorem worked_putBytes (s : State) (pa n v : Nat) (hu : NoUpdates s) : Worked s (s.putBytes pa n v) := by
  have stored := worked_of_storage (s := s) (t := { s.wrMem pa v n with
    poison := clearPoison s.poison pa n
    colls := s.colls.map fun c => { c with parties := c.parties.map fun p => p.written pa n }
    parts := s.parts.map fun p =>
      match p.2.migs with
      | [] => p
      | gs => (p.1, { p.2 with migs := gs.map fun g => markMigration g pa n }) }) rfl
  exact stored.trans (worked_spoilUnseen pa n _ (stored.noUpdates hu))

theorem worked_putHome (s : State) (pa n v : Nat) (hu : NoUpdates s) : Worked s (putHome s pa n v) := by
  unfold putHome
  split
  · exact .refl s
  · have settled := worked_settle s pa n hu
    exact (settled.trans (worked_putBytes _ pa n v (settled.noUpdates hu))).trans (worked_sendOut ..)

theorem worked_putUnder (s : State) (u : Nat) (f : Word → Word) (hu : NoUpdates s) : Worked s (s.putUnder u f) := by
  unfold State.putUnder
  split
  · exact worked_putHome _ _ _ _ hu
  · split
    · exact .refl s
    · exact (worked_putBytes s _ _ _ hu).trans (worked_of_storage rfl)

theorem worked_physWrite (s : State) (pa n v : Nat) (hu : NoUpdates s) : Worked s (physWrite s pa n v) := by
  rw [physWrite, recallRange_of_noUpdates hu]
  exact worked_putHome s pa n v hu

/-! ### Lines of other devices (R52, R59, R376) -/

theorem worked_logError (code addr : Nat) (part : Option Nat) (unit : Nat) (s : State) : Worked s (logError code addr part unit s) := by
  unfold logError
  dsimp only
  split <;> exact worked_of_storage rfl

theorem worked_arriveBad (s : State) (g : Nat) : Worked s (arriveBad s g) := by
  rw [arriveBad_eq]
  exact worked_of_storage rfl

theorem worked_setFabric (s : State) (l : List Nat) : Worked s { s with fabric := l } := worked_of_storage rfl

theorem worked_fillGranule (s : State) (g : Nat) : Worked s (fillGranule s g) := by
  have brought : Worked s (bringIn s g) := by
    unfold bringIn
    split
    · exact .refl s
    · exact ((worked_tick s).trans (worked_wrMem s.tick (32 * g) (Config.freeVec s.free).toNat 32)).trans (worked_setFabric _ _)
  unfold fillGranule
  split
  · exact .refl s
  · split
    · exact brought.trans (worked_arriveBad ..)
    · exact brought

theorem worked_serveWait (r : WaitReason) (s : State) (hu : NoUpdates s) : Worked s (serveWait r s) := by
  unfold serveWait
  split
  · exact Worked.foldl (fun s g _ => worked_fillGranule s g) _ hu
  · exact .refl s

theorem worked_dropGranules (gs : List Nat) (s : State) : Worked s (dropGranules gs s) := worked_of_storage rfl

/-! ### Caches, ports and queues (R59, R61, R334) -/

theorem worked_setBank (s : State) (c n : Nat) (b : Bank) : Worked s (setBank s c n b) := by
  unfold setBank
  dsimp only
  split
  · exact worked_setCluster s c _ rfl
  · exact .refl s

theorem worked_setTq (s : State) (q : Nat) (t : TileQ) (h : t.marks = (s.tq q).marks) : Worked s { s with tqs := s.tqs.set q t } := by
  refine ⟨rfl, rfl, rfl, rfl, rfl, rfl, rfl, rfl, fun r => ?_, fun _ => rfl⟩
  have queue : State.tq { s with tqs := s.tqs.set q t } r = if r = q then t else s.tq r := by
    by_cases hr : r = q
    · subst hr; rw [if_pos rfl]; exact Table.get_set_same ..
    · rw [if_neg hr]; exact Table.get_set_other _ _ _ hr
  rw [queue]
  split
  · next hr => rw [h, hr]
  · rfl

theorem tqWrite_marks (q : TileQ) (off v : Nat) : (tqWrite q off v).marks = q.marks := by
  unfold tqWrite
  split_ifs <;> try rfl
  dsimp only
  split <;> rfl

theorem worked_sendMsi (m : Msi) (s : State) : Worked s (sendMsi m s) := by
  unfold sendMsi
  split
  · exact .refl s
  · exact worked_of_storage rfl

theorem worked_noticeQueue (sub : Submitter) (s : State) : Worked s (noticeQueue sub s) := by
  unfold noticeQueue
  split
  · next q =>
    have noticed := worked_setTq s q { s.tq q with pend := true } rfl
    dsimp only
    split
    · exact noticed.trans (worked_sendMsi ..)
    · exact noticed
  · exact .refl s

theorem worked_holdDirty (c pa n : Nat) (s : State) (u : Nat) : Worked s (holdDirty c pa n s u) := by
  have copies (now : Word) (l : List Nat) (q : State × List Nat) : Worked q.1 (l.foldl (fun (q : State × List Nat) d =>
      if Config.freeBool q.1.free then (q.1.tick, q.2 ++ [d])
      else (q.1.tick.setCluster d { q.1.cluster d with stale := (q.1.cluster d).stale.set u ⟨now, true⟩ }, q.2)) q).1 := by
    induction l generalizing q with
    | nil => exact .refl q.1
    | cons d l ih =>
      rw [List.foldl_cons]
      refine Worked.trans ?_ (ih _)
      split
      · exact worked_tick q.1
      · exact (worked_tick q.1).trans (worked_setCluster _ d _ rfl)
  unfold holdDirty
  extract_lets now l mask r
  have held : Worked s r.1 := copies now _ (s, [c])
  have late : Worked r.1 { r.1 with late := r.1.late.set u ⟨l.home, mask, r.2⟩ } := worked_of_storage rfl
  refine held.trans (late.trans (worked_mapClusters _ (fun e => if e.1 = c then (c, { e.2 with stale := e.2.stale.erase u }) else e) fun e => ?_))
  dsimp only
  split
  · next h => rw [h]
  · rfl

theorem worked_writeVia (s : State) (via : Option Nat) (pa n v : Nat) (hu : NoUpdates s) : Worked s (writeVia s via pa n v) := by
  unfold writeVia
  split
  · exact worked_physWrite s pa n v hu
  · next c =>
    unfold dirtyWrite
    split
    · exact .refl s
    · rw [recallRange_of_noUpdates hu]
      have held := Worked.foldl (fun s k _ => worked_holdDirty c pa n s (pa / 8 + k)) (List.range ((pa + n + 7) / 8 - pa / 8)) hu
      exact held.trans (worked_putBytes _ pa n v (held.noUpdates hu))

end Sys2Proof.Machine
end

section
/-! SUPPORT. Words of an engine's access in the word monad: whichever way each ends, it leaves alone what no access of an engine touches
(spec/03 R50 to R58, R61, spec/12 R286). -/

namespace Sys2Proof.Machine

/-! ### Parts of a word -/

/-- The state a part of a word leaves, whether it answers or stops. -/
def leftBy {α : Type} : EStateM.Result Stop State α → State
  | .ok _ t => t
  | .error _ t => t

/-- A part of a word that an engine's access consists of. -/
def Engages {α : Type} (m : M α) : Prop := ∀ s, NoUpdates s → Worked s (leftBy (m s))

theorem engages_pure {α : Type} (a : α) : Engages (pure a : M α) := fun s _ => .refl s
theorem engages_throw {α : Type} (e : Stop) : Engages (throw e : M α) := fun s _ => .refl s
theorem engages_get : Engages (get : M State) := fun s _ => .refl s

theorem engages_modify {f : State → State} (h : ∀ s, NoUpdates s → Worked s (f s)) : Engages (modify f : M Unit) := h

theorem Engages.bind {α β : Type} {x : M α} {f : α → M β} (hx : Engages x) (hf : ∀ a, Engages (f a)) : Engages (x >>= f) := by
  intro s hu
  have first := hx s hu
  rw [M.run_bind]
  cases h : x s with
  | ok a t =>
    rw [h] at first
    exact first.trans (hf a t (first.noUpdates hu))
  | error e t =>
    rw [h] at first
    exact first

theorem Engages.ite {α : Type} {c : Prop} [Decidable c] {x y : M α} (hx : Engages x) (hy : Engages y) : Engages (if c then x else y) := by
  split
  · exact hx
  · exact hy

theorem engages_raise {α : Type} (c : Nat) (x : Word) : Engages (raise c x : M α) := engages_throw _

theorem engages_raiseIf (b : Bool) (c : Nat) (x : Word) : Engages (raiseIf b c x) := by
  unfold raiseIf
  split
  · exact engages_raise c x
  · exact engages_pure ()

theorem engages_raiseFirst (l : List (Bool × Nat)) (x : Word) : Engages (raiseFirst l x) := by
  unfold raiseFirst
  split
  · exact engages_raise _ x
  · exact engages_pure ()

/-- A part that reads the state it begins in, and leaves a state made from it. -/
theorem engages_update {α : Type} {f : State → M α} (h : ∀ s, NoUpdates s → Worked s (leftBy (f s s))) : Engages (get >>= f) := h

/-! ### Where an access goes (R54 to R57) -/

theorem engages_needHeld (pa n : Nat) : Engages (needHeld pa n) := by
  unfold needHeld
  refine engages_get.bind fun s => ?_
  split
  · exact engages_throw _
  · exact engages_pure ()

theorem engages_holdForLoads (w : Who) (acc : Nat) (pl : Place) (n : Nat) : Engages (holdForLoads w acc pl n) := by
  unfold holdForLoads
  refine engages_get.bind fun s => ?_
  exact Engages.ite (engages_throw _) (Engages.ite (engages_throw _) (engages_pure _))

theorem engages_holdForZenc (w : Who) (pa n : Nat) : Engages (holdForZenc w pa n) := by
  unfold holdForZenc
  refine engages_get.bind fun s => ?_
  dsimp only
  split
  · exact engages_throw _
  · exact engages_pure ()

theorem engages_setAccessed (w : Who) (need : Need) (x : Xlat) : Engages (setAccessed w need x) := by
  unfold setAccessed
  cases x.entry with
  | none => exact engages_pure ()
  | some e =>
    refine Engages.ite (engages_modify fun s hu => ?_) (engages_pure ())
    dsimp only
    rw [recallRange_of_noUpdates hu]
    exact (worked_putUnder s _ _ hu).trans (worked_setPart _ _ _)

/-- A translation that a TLB gains. -/
theorem engages_fillTlb (w : Who) (a root : Nat) (e : TlbEntry) : Engages (modify fun s =>
    let s := if s.cores.any fun c => !c.2.upd.isEmpty then recallWalk a 5 root s else s
    s.setPart w.part { s.part w.part with tlb := (s.part w.part).tlb ++ [e] }) := by
  refine engages_modify fun s hu => ?_
  have none_ : (s.cores.any fun c => !c.2.upd.isEmpty) = false := by
    rw [List.any_eq_false]
    intro c hc
    simp [hu c hc]
  simp only [none_, Bool.false_eq_true, if_false]
  exact worked_setPart ..

theorem engages_translate (w : Who) (need : Need) (ea : Word) : Engages (translate w need ea) := by
  unfold translate
  refine engages_get.bind fun s => Engages.ite ?_ (Engages.ite (engages_pure _) (Engages.ite ?_ ?_))
  · exact Engages.bind (engages_raiseIf _ _ _) fun _ => Engages.ite (engages_pure _) (engages_pure _)
  · exact Engages.ite (engages_throw _) (Engages.ite (engages_pure _) (engages_pure _))
  · cases tlbFind (s.part w.part) ea.toNat with
    | some e => exact Engages.bind (engages_pure e) fun _ => Engages.bind (engages_raiseIf _ _ _) fun _ => engages_pure _
    | none =>
      cases walkFrom s ea.toNat 5 (bits (s.part w.part).ptroot.toNat 51 12 * 4096) with
      | fail c at_ => exact Engages.bind (engages_throw _) fun _ => Engages.bind (engages_raiseIf _ _ _) fun _ => engages_pure _
      | miss l n => exact Engages.bind (engages_throw _) fun _ => Engages.bind (engages_raiseIf _ _ _) fun _ => engages_pure _
      | leaf pte at_ l =>
        exact Engages.bind (engages_fillTlb _ _ _ _) fun _ => Engages.bind (engages_pure _) fun _ =>
          Engages.bind (engages_raiseIf _ _ _) fun _ => engages_pure _

theorem engages_settle (pa n : Nat) : Engages (modify fun s => s.settle pa n) := engages_modify fun s hu => worked_settle s pa n hu

theorem engages_locateX (w : Who) (need : Need) (acc al : Nat) (ea : Word) (n : Nat) (x : Xlat) :
    Engages (locateX w need acc al ea n x) := by
  unfold locateX
  refine engages_get.bind fun s => ?_
  extract_lets pl viewWrite gone placed settled held found
  clear_value viewWrite gone pl
  have placed' (u : Unit) : Engages (placed u) := Engages.bind (engages_setAccessed w need x) fun _ => engages_pure _
  have settled' (u : Unit) : Engages (settled u) := by
    apply Engages.bind (engages_holdForZenc _ _ _)
    intro _
    split
    · exact Engages.ite (Engages.bind (engages_settle _ _) placed') (placed' ())
    · exact placed' ()
  have held' (u : Unit) : Engages (held u) :=
    Engages.ite (Engages.bind (engages_holdForLoads w acc pl n) settled') (settled' ())
  have found' (u : Unit) : Engages (found u) := by
    apply Engages.bind (engages_raiseFirst _ _)
    intro _
    split
    · exact Engages.bind (engages_needHeld _ _) held'
    · exact Engages.bind (engages_needHeld _ _) held'
    · exact held' ()
  cases windowCluster w x.pa with
  | some c => exact Engages.bind (engages_raiseIf _ _ _) found'
  | none => exact found' ()

theorem engages_locate (w : Who) (need : Need) (acc al : Nat) (ea : Word) (n : Nat) : Engages (locate w need acc al ea n) :=
  Engages.bind (engages_translate w need ea) fun _ => engages_locateX _ _ _ _ _ _ _

/-! ### Stores (R61, R286, R303) -/

theorem engages_checkWatermark (w : Who) (pl : Place) (n : Nat) : Engages (checkWatermark w pl n) := by
  unfold checkWatermark
  refine engages_get.bind fun s => ?_
  cases watermarkStall s w pl.pa n with
  | some c => exact engages_throw _
  | none => exact engages_pure ()

/-- A condition that may end a part before it changes anything. -/
theorem worked_raiseIf {s : State} {m : M Unit} (h : Worked s (leftBy (m s))) (b : Bool) (c : Nat) (x : Word) :
    Worked s (leftBy ((raiseIf b c x >>= fun _ => m) s)) := by
  cases b with
  | true => exact .refl s
  | false => exact h

theorem engages_fifoStore (acc : Nat) (ea : Word) (c n off bytes v : Nat) : Engages (fifoStore acc ea c n off bytes v) := by
  unfold fifoStore
  refine engages_update fun s hu => ?_
  split
  · refine worked_raiseIf ?_ _ _ _
    split <;> exact worked_setBank ..
  · refine worked_raiseIf ?_ _ _ _
    split
    · exact worked_setBank ..
    · exact .refl s

theorem engages_storePlace (acc : Nat) (ea : Word) (n v : Nat) (pl : Place) : Engages (storePlace acc ea n v pl) := by
  cases pl with
  | cell pa via => exact engages_modify fun s hu => worked_writeVia s via pa n v hu
  | fifo c b off => exact engages_fifoStore _ _ _ _ _ _ _
  | peerQueue q off => exact engages_modify fun s _ => worked_setTq s (8 + q) _ (tqWrite_marks ..)
  | peer pa => exact engages_modify fun s _ => (worked_dropGranules _ s).trans (worked_of_storage rfl)
  | view _ _ => exact engages_raise _ _
  | nowhere => exact engages_raise _ _

/-- No check of registers stands before what an engine stores. -/
theorem checked_pure {α : Type} (m : M α) : checked (pure ()) m = m := funext fun s => M.run_checked_clean (M.run_pure () s) m

theorem engages_storeHome (w : Who) (acc al : Nat) (ea : Word) (n v : Nat) : Engages (storeHome w acc al ea n v (pure ())) := by
  unfold storeHome
  refine Engages.bind (engages_locate _ _ _ _ _ _) fun pl => ?_
  rw [checked_pure]
  refine Engages.bind (engages_checkWatermark _ _ _) fun _ => Engages.bind (engages_pure ()) fun _ => ?_
  split
  · exact engages_modify fun s hu => worked_physWrite s _ n v hu
  · exact engages_storePlace _ _ _ _ _

theorem engages_store {w : Who} (h : w.via = none) (acc al : Nat) (ea : Word) (n v : Nat) : Engages (store w acc al ea n v) := by
  unfold store
  refine Engages.bind (engages_locate _ _ _ _ _ _) fun pl => ?_
  rw [checked_pure]
  refine Engages.bind (engages_checkWatermark _ _ _) fun _ => ?_
  rw [h]
  refine Engages.bind engages_get fun s => ?_
  cases w.stale ea n s with
  | some slot => exact engages_modify fun s _ => worked_of_storage rfl
  | none => exact engages_storePlace _ _ _ _ _

theorem Engages.held {α : Type} {m : M α} (h : Engages m) {s : State} (hu : NoUpdates s) : Worked s (leftBy (runHeld m s)) := by
  unfold runHeld
  split
  · next r _ _ =>
    have served := worked_serveWait r s hu
    exact served.trans (h _ (served.noUpdates hu))
  · next r _ => exact h s hu

end Sys2Proof.Machine
end

section
/-! SUPPORT. What the engines do that a kill ends or lets end: outputs freed, results stored, channels and collectives ended, pages copied
(spec/12 R296, R303, R386, R390, spec/21 R373). -/

namespace Sys2Proof.Machine

/-! ### Outputs and results -/

theorem Engages.held_ok {α : Type} {m : M α} (h : Engages m) {s t : State} {a : α} (hu : NoUpdates s) (run : runHeld m s = .ok a t) :
    Worked s t := by
  have went := h.held hu
  rw [run] at went
  exact went

theorem worked_freeAt (w : Who) (ea : Word) (n : Nat) (s : State) (hu : NoUpdates s) : Worked s (freeAt w ea n s) := by
  unfold freeAt
  split
  · next h =>
    have went := (engages_locate w .store accEngine n ea n).held_ok hu h
    exact (went.trans (worked_tick _)).trans (worked_physWrite _ _ _ _ (went.noUpdates hu))
  · exact .refl s

theorem worked_freeElem (w : Who) (o : TDesc) (i : List Nat) (s : State) (hu : NoUpdates s) : Worked s (freeElem w o i s) :=
  worked_freeAt w _ _ s hu

theorem worked_engineStore {w : Who} (h : w.via = none) (ea : Word) (n v : Nat) (s : State) (hu : NoUpdates s) :
    Worked s (engineStore w ea n v s) := by
  unfold engineStore
  split
  · next run => exact (engages_store h accEngine n ea n v).held_ok hu run
  · exact .refl s

theorem worked_scrambleBytes (w : Who) (a n : Nat) (s : State) (hu : NoUpdates s) : Worked s (scrambleBytes w a n s) := by
  refine Worked.foldl (fun s k hu => ?_) _ hu
  split
  · next h =>
    have went := (engages_locate w .store accEngine 1 (BitVec.ofNat 64 (a + k)) 1).held_ok hu h
    exact (went.trans (worked_tick _)).trans (worked_physWrite _ _ _ _ (went.noUpdates hu))
  · exact .refl s

/-! ### Channels (R286, R296) -/

theorem engages_channelXlat (c : Channel) (p : Nat) (ea : Word) : Engages (c.xlat p ea) := by
  unfold Channel.xlat
  refine Engages.ite (engages_pure _) (Engages.ite (engages_pure _) ?_)
  split
  · exact Engages.bind engages_get fun _ => engages_pure _
  · exact engages_raise _ _

theorem engages_channelLocate (c : Channel) (p : Nat) (need : Need) (al : Nat) (ea : Word) (n : Nat) :
    Engages (c.locate p need al ea n) :=
  Engages.bind (engages_channelXlat c p ea) fun _ => engages_locateX _ _ _ _ _ _ _

theorem engages_channelPut (ea : Word) (n v : Nat) (pl : Place) : Engages (Channel.put ea n v pl) := by
  have stored : Engages (storePlace accEngine ea n v pl) := engages_storePlace _ _ _ _ _
  unfold Channel.put
  split
  · exact Engages.bind engages_get fun _ => Engages.ite (Engages.bind (engages_throw _) fun _ => stored) stored
  · exact stored

theorem engages_channelStore (c : Channel) (p al : Nat) (ea : Word) (n v : Nat) : Engages (c.store p al ea n v) :=
  Engages.bind (engages_channelLocate c p .store al ea n) fun _ => engages_channelPut _ _ _ _

theorem worked_writeCompletion (c : Channel) (p v : Nat) (s : State) (hu : NoUpdates s) : Worked s (writeCompletion c p v s) := by
  unfold writeCompletion
  split
  · next run => exact (engages_channelStore c p 32 c.crec 32 v).held_ok hu run
  · exact .refl s

theorem worked_channelScramble (c : Channel) (p lo hi : Nat) (s : State) (hu : NoUpdates s) : Worked s (c.scramble p lo hi s) := by
  refine Worked.foldl (fun s k hu => ?_) _ hu
  split
  · exact (worked_tick s).trans (worked_physWrite _ _ _ _ hu)
  · exact .refl s

theorem worked_setChan (s : State) (p n : Nat) (c : Channel) : Worked s (s.setChan p n c) := by
  unfold State.setChan
  dsimp only
  split
  · exact worked_setPart ..
  · exact .refl s

theorem worked_endChannel (p n state cause : Nat) (s : State) (hu : NoUpdates s) : Worked s (endChannel p n state cause s) := by
  unfold endChannel
  extract_lets c elem cwm a b
  have scrambled : Worked s a := by
    unfold a
    split
    · exact .refl s
    · exact worked_channelScramble _ _ _ _ s hu
  have recorded : Worked a b := by
    unfold b
    split
    · split
      · exact worked_logError ..
      · exact .refl a
    · exact worked_writeCompletion _ _ _ a (scrambled.noUpdates hu)
  exact (scrambled.trans recorded).trans (worked_setChan ..)

/-! ### Collectives (R358, R390) -/

theorem worked_writeStats (c : Coll) (v : Nat) (s : State) (hu : NoUpdates s) : Worked s (writeStats c v s) :=
  (Worked.foldl (fun s p hu => worked_engineStore rfl p.stat 8 v s hu) _ hu).trans (worked_of_storage rfl)

theorem worked_setColls (s : State) (l : List Coll) : Worked s { s with colls := l } := worked_of_storage rfl

theorem worked_failColl (i code : Nat) (c : Coll) (s : State) (hu : NoUpdates s) : Worked s (failColl i code c s) := by
  have scrambled := Worked.foldl (fun s p hu => worked_scrambleBytes (Party.who p) p.rbuf (p.recvCount c.members.length * p.esize) s hu)
    c.parties hu
  unfold failColl
  extract_lets t
  have removed := scrambled.trans (worked_setColls t (removeAt t.colls i))
  exact removed.trans (worked_writeStats c _ _ (removed.noUpdates hu))

theorem worked_leaveColl (p i : Nat) (s : State) (hu : NoUpdates s) : Worked s (leaveColl p i s) := by
  unfold leaveColl
  split
  · exact .refl s
  · next c _ =>
    have scrambled := Worked.foldl (fun s y hu => worked_scrambleBytes (Party.who y) y.rbuf (y.recvCount c.members.length * y.esize) s hu)
      (c.parties.filter fun y => y.part == p) hu
    dsimp only
    split_ifs
    · exact .refl s
    · exact scrambled.trans (worked_failColl _ _ _ _ (scrambled.noUpdates hu))
    · exact worked_setColls ..
    · exact worked_setColls ..

theorem worked_killColls (p : Nat) (s : State) (hu : NoUpdates s) : Worked s (killColls p s) :=
  (Worked.foldl (fun s i hu => worked_leaveColl p i s hu) _ hu).trans (worked_of_storage rfl)

theorem worked_killZenc (p : Nat) (s : State) (hu : NoUpdates s) : Worked s (killZenc p s) := by
  refine Worked.trans (Worked.foldl (fun s j hu => ?_) _ hu) (worked_of_storage rfl)
  split
  · extract_lets w st
    have streamed := worked_scrambleBytes w st.1 (st.2 - st.1) s hu
    exact streamed.trans (worked_scrambleBytes _ _ _ _ (streamed.noUpdates hu))
  · exact .refl s

theorem worked_killChans (records : Bool) (p : Nat) (s : State) (hu : NoUpdates s) : Worked s (killChans records p s) := by
  refine Worked.trans (Worked.foldl (fun s n hu => ?_) _ hu) (worked_setPart ..)
  dsimp only
  split_ifs
  · exact .refl s
  · exact worked_endChannel _ _ _ _ s hu
  · exact worked_channelScramble _ _ _ _ s hu

/-! ### Page moves (R373) -/

theorem worked_rewriteRun (p va size entry : Nat) (f : Nat → Nat) (s : State) (hu : NoUpdates s) :
    Worked s (rewriteRun p va size entry f s) := by
  refine Worked.trans (Worked.foldl (fun s k hu => ?_) _ hu) (worked_setPart ..)
  dsimp only
  rw [recallRange_of_noUpdates hu]
  exact worked_putUnder s _ _ hu

theorem worked_dropMig (s : State) (p i : Nat) : Worked s (s.dropMig p i) := worked_setPart ..
theorem worked_setMig (s : State) (p i : Nat) (g : Migration) : Worked s (s.setMig p i g) := worked_setPart ..
theorem worked_rehomeChans (p va frame : Nat) (s : State) : Worked s (rehomeChans p va frame s) := worked_setPart ..

theorem worked_abandonMove (p i : Nat) (g : Migration) (line : Nat) (s : State) (hu : NoUpdates s) :
    Worked s (abandonMove p i g line s) := by
  have rewritten := worked_rewriteRun p g.va g.size g.entry (setBits · 58 58 0) s hu
  unfold abandonMove
  extract_lets t u q
  exact ((rewritten.trans (worked_dropMig t p i)).trans (worked_rehomeChans p g.va g.src _)).trans
    ((worked_setPart u p _).trans (worked_logError ..))

theorem worked_copyLine (src dst : Nat) (s : State) (hu : NoUpdates s) : Worked s (copyLine src dst s) := by
  have settled := worked_settle s src 128 hu
  unfold copyLine physRead
  rw [recallRange_of_noUpdates (settled.noUpdates hu)]
  exact settled.trans (worked_physWrite _ _ _ _ (settled.noUpdates hu))

/-- The state of a move that went on, or was abandoned. -/
def movedState : Except State State → State
  | .ok s => s
  | .error s => s

theorem worked_moveLine (p i : Nat) (g : Migration) (l : Nat) (s : State) (hu : NoUpdates s) :
    Worked s (movedState (moveLine p i g l s)) := by
  unfold moveLine
  dsimp only
  split
  · exact worked_abandonMove _ _ _ _ s hu
  · exact worked_copyLine _ _ s hu

theorem worked_moveMarked (p i : Nat) (l : List Nat) (s : State) (hu : NoUpdates s) : Worked s (movedState (moveMarked p i l s)) := by
  induction l generalizing s with
  | nil => exact .refl s
  | cons a l ih =>
    unfold moveMarked
    split
    · exact .refl s
    · next g _ =>
      have moved := worked_moveLine p i g (a - g.src / 128) s hu
      split
      · next t h =>
        rw [h] at moved
        have unmarked := Worked.trans moved (worked_setMig t p i { (t.part p).migs.getD i g with
          marked := ((t.part p).migs.getD i g).marked.filter (· != a) })
        exact unmarked.trans (ih _ (unmarked.noUpdates hu))
      · next t h =>
        rw [h] at moved
        exact moved

theorem worked_migrationCopy (p i : Nat) (s : State) (hu : NoUpdates s) : Worked s (outState s (execMigrationCopy p i s)) := by
  unfold execMigrationCopy
  split
  · exact .refl s
  · next g _ =>
    split_ifs
    · exact .refl s
    · have moved := worked_moveLine p i g g.copied s hu
      split
      · next h => rw [h] at moved; exact Worked.trans moved (worked_setMig ..)
      · next h => rw [h] at moved; exact moved
    · have moved := worked_moveMarked p i (g.marked.take 1) s hu
      split
      · next h => rw [h] at moved; exact moved
      · next h => rw [h] at moved; exact moved

end Sys2Proof.Machine
end

section
/-! SUPPORT. What outlives the first stages of a kill, in which the partition's engines end (spec/19 R358, spec/22 R398). -/

namespace Sys2Proof.Machine

/-! ### What outlives the end of a partition's engines -/

/-- From `s` the engines of partition `p` came to `t`. Its threads may read elsewhere, every other thread is as it was, and no decomposer
holds an instruction in its queue that it did not hold before. -/
structure Outlives (p : Nat) (s t : State) : Prop where
  live : ∀ k, (t.thread k).live = (s.thread k).live
  part : ∀ k, (t.thread k).part = (s.thread k).part
  thread : ∀ k, (s.thread k).part ≠ p → t.thread k = s.thread k
  cores : t.cores = s.cores
  dies : t.dies = s.dies
  plat : t.plat = s.plat
  loops : t.loops = s.loops
  marks : ∀ q, (t.tq q).marks = (s.tq q).marks
  clusters : ∀ c, t.cluster c = { s.cluster c with banks := (t.cluster c).banks, stale := (t.cluster c).stale }
  queues : ∀ d, ∀ j ∈ (t.dec d).queue, j ∈ (s.dec d).queue

theorem Worked.outlives {s t : State} (h : Worked s t) (p : Nat) : Outlives p s t :=
  have threads (k : Nat) : t.thread k = s.thread k := by unfold State.thread; rw [h.th, h.cur, h.parked]
  { live := fun k => by rw [threads]
    part := fun k => by rw [threads]
    thread := fun k _ => threads k
    cores := h.cores
    dies := h.dies
    plat := h.plat
    loops := h.loops
    marks := h.marks
    clusters := h.clusters
    queues := fun d j hj => by rwa [State.dec, h.decs] at hj }

theorem Outlives.refl (p : Nat) (s : State) : Outlives p s s := (Worked.refl s).outlives p

theorem Outlives.trans {p : Nat} {s t u : State} (h : Outlives p s t) (g : Outlives p t u) : Outlives p s u where
  live k := (g.live k).trans (h.live k)
  part k := (g.part k).trans (h.part k)
  thread k hk := (g.thread k (by rwa [h.part])).trans (h.thread k hk)
  cores := g.cores.trans h.cores
  dies := g.dies.trans h.dies
  plat := g.plat.trans h.plat
  loops := g.loops.trans h.loops
  marks q := (g.marks q).trans (h.marks q)
  clusters c := by rw [g.clusters c, h.clusters c]
  queues d j hj := h.queues d j (g.queues d j hj)

theorem Outlives.noUpdates {p : Nat} {s t : State} (h : Outlives p s t) (hu : NoUpdates s) : NoUpdates t := by
  unfold NoUpdates
  rw [h.cores]
  exact hu

theorem Outlives.foldl {p : Nat} {α : Type} {f : State → α → State} (hf : ∀ s a, NoUpdates s → Outlives p s (f s a)) (l : List α)
    {s : State} (hu : NoUpdates s) : Outlives p s (l.foldl f s) := by
  induction l generalizing s with
  | nil => exact .refl p s
  | cons a l ih =>
    have first := hf s a hu
    exact first.trans (ih (first.noUpdates hu))

/-! ### Tile instructions (R136, R358, R400) -/

theorem State.dec_setDec_same (s : State) (d : Nat) (x : Decomposer) : (s.setDec d x).dec d = x := Table.get_set_same ..

theorem State.dec_setDec_other (s : State) {d e : Nat} (x : Decomposer) (h : e ≠ d) : (s.setDec d x).dec e = s.dec e :=
  Table.get_set_other _ _ _ h

theorem outlives_setDec (p : Nat) (s : State) (d : Nat) (x : Decomposer) (h : ∀ j ∈ x.queue, j ∈ (s.dec d).queue) :
    Outlives p s (s.setDec d x) where
  live _ := rfl
  part _ := rfl
  thread _ _ := rfl
  cores := rfl
  dies := rfl
  plat := rfl
  loops := rfl
  marks _ := rfl
  clusters _ := rfl
  queues e j hj := by
    by_cases he : e = d
    · subst he
      rw [s.dec_setDec_same] at hj
      exact h j hj
    · rwa [s.dec_setDec_other x he] at hj

theorem worked_overlap (w : Who) (ins : List TileIn) (b : Bool) (l : List (Word × Nat)) (s : State) (hu : NoUpdates s) :
    Worked s (if b then (l.filter fun e => overlapsIn s w ins e.1 e.2).foldl (fun s e => freeAt w e.1 e.2 s) s else s) := by
  split
  · exact Worked.foldl (fun s e hu => worked_freeAt w e.1 e.2 s hu) _ hu
  · exact .refl s

theorem worked_freeOutputs (w : Who) (r : TileRun) (s : State) (hu : NoUpdates s) : Worked s (freeOutputs w r s) := by
  unfold freeOutputs
  split
  · exact .refl s
  · extract_lets env never lost s1 s2 overlap elems bytes s3 p
    have outputs : Worked s s1 := Worked.foldl (fun s i hu => worked_freeElem w env.o i s hu) lost hu
    have second : Worked s1 s2 := by
      unfold s2
      split
      · exact Worked.foldl (fun s i hu => worked_freeElem w (env.d 2) i s hu) lost (outputs.noUpdates hu)
      · exact .refl s1
    have hu2 := second.noUpdates (outputs.noUpdates hu)
    have third : Worked s2 s3 := worked_overlap _ _ _ _ s2 hu2
    refine (outputs.trans second).trans (third.trans ?_)
    split
    · exact worked_overlap _ _ _ _ s3 (third.noUpdates hu2)
    · exact .refl s3

/-- The record, or the guard, that a tile instruction writes, and whether it could be written. -/
def putResult (w : Who) (ea : Word) (n v : Nat) (s : State) : State × Bool :=
  match runHeld (storeHome w accEngine n ea n v (pure ())) s with
  | .ok _ s => (s, true)
  | .error _ _ => (s, false)

theorem worked_putResult (w : Who) (ea : Word) (n v : Nat) (s : State) (hu : NoUpdates s) : Worked s (putResult w ea n v s).1 := by
  unfold putResult
  split
  · next run => exact (engages_storeHome w accEngine n ea n v).held_ok hu run
  · exact .refl s

/-- A tile instruction leaves its decomposer. -/
def removeRun (d j : Nat) (s : State) : State := s.setDec d { s.dec d with running := removeAt (s.dec d).running j }

theorem outlives_removeRun (p d j : Nat) (s : State) : Outlives p s (removeRun d j s) := outlives_setDec p s d _ fun _ => id

/-- A tile instruction leaves its decomposer, and a queue is told of a record that was written. -/
def leaveRun (d j : Nat) (sub : Submitter) (written : Bool) (s : State) : State :=
  if written then noticeQueue sub (removeRun d j s) else removeRun d j s

theorem outlives_leaveRun (p d j : Nat) (sub : Submitter) (written : Bool) (s : State) : Outlives p s (leaveRun d j sub written s) := by
  unfold leaveRun
  split
  · exact (outlives_removeRun ..).trans ((worked_noticeQueue ..).outlives p)
  · exact outlives_removeRun ..

/-- The state of an instruction that ends, once its outputs and its record are as they stay. -/
def recordState (w : Who) (r : TileRun) (v : Nat) (s : State) : State × Bool :=
  let r := r.softDescs w s
  let q := putResult w r.job.crec 32 v (freeOutputs w r s)
  let o := (r.env ⟨0, []⟩).o
  (if r.descs.isEmpty || o.guard = 0 then q.1 else (putResult w o.guard 8 (v % 2 ^ 64) q.1).1, q.2)

theorem softDescs_job (w : Who) (r : TileRun) (s : State) : (r.softDescs w s).job = r.job := by
  unfold TileRun.softDescs
  split <;> rfl

theorem softDescs_done (w : Who) (r : TileRun) (s : State) : (r.softDescs w s).done = r.done := by
  unfold TileRun.softDescs
  split <;> rfl

theorem finishRun_eq {s : State} {d j : Nat} {r : TileRun} (h : (s.dec d).running[j]? = some r) (state cause flvl leaf elem : Nat) :
    finishRun d j state cause flvl leaf elem s =
      let q := recordState (r.job.who (unitCluster (d / 256) (d % 256))) r (completionWord state cause flvl leaf elem r.done) s
      leaveRun d j r.job.sub q.2 q.1 := by
  unfold finishRun
  simp only [h, softDescs_job, softDescs_done, recordState]
  rfl

theorem finishRun_of_none {s : State} {d j : Nat} (h : (s.dec d).running[j]? = none) (state cause flvl leaf elem : Nat) :
    finishRun d j state cause flvl leaf elem s = s := by
  unfold finishRun
  simp only [h]

theorem worked_recordState (w : Who) (r : TileRun) (v : Nat) (s : State) (hu : NoUpdates s) : Worked s (recordState w r v s).1 := by
  have freed := worked_freeOutputs w (r.softDescs w s) s hu
  have put := freed.trans (worked_putResult w (r.softDescs w s).job.crec 32 v _ (freed.noUpdates hu))
  unfold recordState
  dsimp only
  split
  · exact put
  · exact put.trans (worked_putResult _ _ _ _ _ (put.noUpdates hu))

theorem outlives_finishRun (p d j state cause flvl leaf elem : Nat) (s : State) (hu : NoUpdates s) :
    Outlives p s (finishRun d j state cause flvl leaf elem s) := by
  cases h : (s.dec d).running[j]? with
  | none => rw [finishRun_of_none h]; exact .refl p s
  | some r =>
    rw [finishRun_eq h]
    exact ((worked_recordState _ _ _ s hu).outlives p).trans (outlives_leaveRun ..)

/-- What a killed instruction leaves unspecified where it writes no record. -/
def freeRun (d j : Nat) (s : State) : State :=
  match (s.dec d).running[j]? with
  | some r => freeOutputs (r.job.who (unitCluster (d / 256) (d % 256))) (r.softDescs (r.job.who (unitCluster (d / 256) (d % 256))) s) s
  | none => s

theorem worked_freeRun (d j : Nat) (s : State) (hu : NoUpdates s) : Worked s (freeRun d j s) := by
  unfold freeRun
  split
  · exact worked_freeOutputs _ _ s hu
  · exact .refl s

/-- One tile instruction of a killed partition ends. -/
def killRun (records : Bool) (d j : Nat) (s : State) : State :=
  if records then finishRun d j 4 0 0 0 0 s else removeRun d j (freeRun d j s)

theorem outlives_killRun (p : Nat) (records : Bool) (d j : Nat) (s : State) (hu : NoUpdates s) : Outlives p s (killRun records d j s) := by
  unfold killRun
  split
  · exact outlives_finishRun _ _ _ _ _ _ _ _ s hu
  · exact ((worked_freeRun d j s hu).outlives p).trans (outlives_removeRun ..)

theorem killRuns_succ {records : Bool} {p d j : Nat} {s : State} (h : (s.dec d).running.findIdx? (fun r => r.job.ofPart p) = some j) (n : Nat) :
    killRuns records p d (n + 1) s = killRuns records p d n (killRun records d j s) := by
  unfold killRun
  rw [killRuns]
  simp only [h]
  split <;> rfl

theorem killRuns_of_none (records : Bool) {p d : Nat} {s : State} (h : ∀ r ∈ (s.dec d).running, r.job.ofPart p = false) (n : Nat) :
    killRuns records p d n s = s := by
  cases n with
  | zero => rfl
  | succ n =>
    have nobody : (s.dec d).running.findIdx? (fun r => r.job.ofPart p) = none := List.findIdx?_eq_none_iff.mpr h
    rw [killRuns]
    simp only [nobody]

theorem outlives_killRuns (records : Bool) (p d n : Nat) (s : State) (hu : NoUpdates s) : Outlives p s (killRuns records p d n s) := by
  induction n generalizing s with
  | zero => exact .refl p s
  | succ n ih =>
    cases h : (s.dec d).running.findIdx? (fun r => r.job.ofPart p) with
    | none =>
      rw [killRuns_of_none records (List.findIdx?_eq_none_iff.mp h)]
      exact .refl p s
    | some j =>
      have ended := outlives_killRun p records d j s hu
      rw [killRuns_succ h]
      exact ended.trans (ih _ (ended.noUpdates hu))

/-- A partition's instructions leave one decomposer. -/
def killDec (records : Bool) (p : Nat) (s : State) (d : Nat) : State :=
  let s := killRuns records p d (s.dec d).running.length s
  s.setDec d { s.dec d with queue := (s.dec d).queue.filter fun j => !j.ofPart p }

theorem killTiles_eq (records : Bool) (p : Nat) (s : State) : killTiles records p s = (s.decs.map Prod.fst).foldl (killDec records p) s := rfl

theorem outlives_killDec (records : Bool) (p : Nat) (s : State) (d : Nat) (hu : NoUpdates s) : Outlives p s (killDec records p s d) :=
  (outlives_killRuns records p d _ s hu).trans (outlives_setDec p _ d _ fun _ hj => List.mem_of_mem_filter hj)

theorem queue_killDec (records : Bool) (p : Nat) (s : State) (d : Nat) : ∀ j ∈ ((killDec records p s d).dec d).queue, j.ofPart p = false := by
  intro j hj
  rw [killDec, State.dec_setDec_same] at hj
  simpa using (List.mem_filter.mp hj).2

theorem outlives_killTiles (records : Bool) (p : Nat) (s : State) (hu : NoUpdates s) : Outlives p s (killTiles records p s) :=
  Outlives.foldl (fun s d hu => outlives_killDec records p s d hu) _ hu

theorem queue_foldl_killDec (records : Bool) (p : Nat) (l : List Nat) (s : State) (hu : NoUpdates s) {d : Nat} (hd : d ∈ l) :
    ∀ j ∈ ((l.foldl (killDec records p) s).dec d).queue, j.ofPart p = false := by
  induction l generalizing s with
  | nil => cases hd
  | cons e l ih =>
    have emptied := outlives_killDec records p s e hu
    rw [List.foldl_cons]
    by_cases hl : d ∈ l
    · exact ih _ (emptied.noUpdates hu) hl
    · have here : d = e := (List.mem_cons.mp hd).resolve_right hl
      have rest := Outlives.foldl (fun s d hu => outlives_killDec records p s d hu) l (emptied.noUpdates hu)
      intro j hj
      subst here
      exact queue_killDec records p s d j (rest.queues d j hj)

/-- No decomposer holds an instruction of the partition any more. -/
theorem queue_killTiles (records : Bool) (p : Nat) (s : State) (hu : NoUpdates s) (d : Nat) :
    ∀ j ∈ ((killTiles records p s).dec d).queue, j.ofPart p = false := by
  by_cases hd : d ∈ s.decs.map Prod.fst
  · exact queue_foldl_killDec records p _ s hu hd
  · intro j hj
    have held := (outlives_killTiles records p s hu).queues d j hj
    have unused : s.dec d = Decomposer.reset := by
      unfold State.dec Table.get
      rw [Table.find_eq_none fun x hx hk => hd (List.mem_map.mpr ⟨x, hx, hk⟩)]
      rfl
    rw [unused] at held
    cases held

/-! ### Page moves (R373, R398) -/

theorem recallPage_of_noUpdates {s : State} (hu : NoUpdates s) (pa n : Nat) : recallPage s pa n = s := by
  have nothing : (s.cores.flatMap fun c => c.2.upd.map UpdLine.line) = [] :=
    List.flatMap_eq_nil_iff.mpr fun c hc => by rw [hu c hc]; rfl
  unfold recallPage
  rw [nothing]
  rfl

theorem outlives_mapThreads {p : Nat} {s : State} {ks : List Nat} {f : Thread → Thread} (hk : ∀ k ∈ ks, (s.thread k).part = p)
    (live : ∀ t, (f t).live = t.live) (part : ∀ t, (f t).part = t.part) : Outlives p s (s.mapThreads ks f) := by
  have threads := s.thread_mapThreads ks f
  have same (k : Nat) (h : (s.thread k).part ≠ p) : (s.mapThreads ks f).thread k = s.thread k := by
    rw [threads, List.count_eq_zero_of_not_mem fun hin => h (hk k hin), Function.iterate_zero, id]
  have livesOn (k : Nat) : ((s.mapThreads ks f).thread k).live = (s.thread k).live := by
    rw [threads]
    exact iterate_keeps live _ _
  have belongs (k : Nat) : ((s.mapThreads ks f).thread k).part = (s.thread k).part := by
    rw [threads]
    exact iterate_keeps part _ _
  rw [s.mapThreads_eq] at same livesOn belongs ⊢
  exact ⟨livesOn, belongs, same, rfl, rfl, rfl, rfl, fun _ => rfl, fun _ => rfl, fun _ _ => id⟩

theorem outlives_moveAccesses (p src dst n : Nat) (s : State) : Outlives p s (moveAccesses p src dst n s) := by
  unfold moveAccesses
  extract_lets place vldas t q
  have moved : Outlives p s t := outlives_mapThreads (fun k hk => by simp_all) (fun _ => rfl) fun _ => rfl
  exact moved.trans ((worked_setPart t p _).outlives p)

theorem outlives_migrationSwitch (p i : Nat) (s : State) (hu : NoUpdates s) : Outlives p s (outState s (execMigrationSwitch p i s)) := by
  unfold execMigrationSwitch
  split
  · exact .refl p s
  · next g _ =>
    dsimp only
    rw [recallPage_of_noUpdates hu]
    split_ifs
    · exact .refl p s
    · exact .refl p s
    · have copied := worked_moveMarked p i ((s.part p).migs.getD i g).marked s hu
      split
      · next h => rw [h] at copied; exact Worked.outlives copied p
      · next t h =>
        rw [h] at copied
        have hut : NoUpdates t := Worked.noUpdates copied hu
        have dropped := worked_dropMig t p i
        have settled := dropped.trans (worked_settle _ g.src (pageBytes g.size) (dropped.noUpdates hut))
        have framed := settled.trans (worked_of_storage (t := moveFrames g.src g.dst (pageBytes g.size) _) rfl)
        have moved := (Worked.trans copied framed).outlives p |>.trans (outlives_moveAccesses p g.src g.dst (pageBytes g.size) _)
        have rewritten := moved.trans ((worked_rewriteRun p g.va g.size g.entry
          (fun x => setBits (setBits x 58 58 0) 51 12 (g.dst / 4096)) _ (moved.noUpdates hu)).outlives p)
        exact rewritten.trans ((worked_rehomeChans ..).outlives p)

theorem outlives_ite {p : Nat} {s t : State} (c : Prop) [Decidable c] (h : Outlives p s t) : Outlives p s (if c then t else s) := by
  split
  · exact h
  · exact .refl p s

theorem outlives_settleMove (p : Nat) (s : State) (hu : NoUpdates s) : Outlives p s (settleMove p s) := by
  unfold settleMove
  split
  · exact .refl p s
  · next g _ _ =>
    extract_lets here fin t a b
    have copied : Outlives p t a := Outlives.foldl (fun s _ hu => outlives_ite _ ((worked_migrationCopy p 0 s hu).outlives p)) _ hu
    have switched : Outlives p a (if here a then outState a (execMigrationSwitch p 0 a) else a) :=
      outlives_ite _ (outlives_migrationSwitch p 0 a (copied.noUpdates hu))
    have tried : Outlives p s b := ((worked_tick s).outlives p).trans (outlives_ite _ (copied.trans switched))
    have rewritten := worked_rewriteRun p g.va g.size g.entry (setBits · 58 58 0) b (tried.noUpdates hu)
    exact tried.trans (outlives_ite _ ((rewritten.trans (worked_dropMig ..)).outlives p))

theorem outlives_settleMoves (p : Nat) (s : State) (hu : NoUpdates s) : Outlives p s (settleMoves p s) :=
  Outlives.foldl (fun s _ hu => outlives_settleMove p s hu) _ hu

/-! ### The engines' part of a kill -/

/-- The stages of a kill from the tile instructions to the page moves. -/
def endEngines (records : Bool) (p : Nat) (s : State) : State :=
  settleMoves p (killZenc p (killColls p (killChans records p (killTiles records p s))))

theorem outlives_endEngines (records : Bool) (p : Nat) (s : State) (hu : NoUpdates s) : Outlives p s (endEngines records p s) := by
  have tiles := outlives_killTiles records p s hu
  have chans := tiles.trans ((worked_killChans records p _ (tiles.noUpdates hu)).outlives p)
  have colls := chans.trans ((worked_killColls p _ (chans.noUpdates hu)).outlives p)
  have zencs := colls.trans ((worked_killZenc p _ (colls.noUpdates hu)).outlives p)
  exact zencs.trans (outlives_settleMoves p _ (zencs.noUpdates hu))

theorem queue_endEngines (records : Bool) (p : Nat) (s : State) (hu : NoUpdates s) (d : Nat) :
    ∀ j ∈ ((endEngines records p s).dec d).queue, j.ofPart p = false := by
  have tiles := (outlives_killTiles records p s hu).noUpdates hu
  have chans := (worked_killChans records p _ tiles).outlives p
  have colls := chans.trans ((worked_killColls p _ (chans.noUpdates tiles)).outlives p)
  have zencs := colls.trans ((worked_killZenc p _ (colls.noUpdates tiles)).outlives p)
  have moves := zencs.trans (outlives_settleMoves p _ (zencs.noUpdates tiles))
  exact fun j hj => queue_killTiles records p s hu d j (moves.queues d j hj)

end Sys2Proof.Machine
end

section
/-! SUPPORT. The last stages of a kill: the partition's threads go, and its units get their reset values (spec/03 R62, spec/19 R358,
spec/24 R406). -/

namespace Sys2Proof.Machine

/-- A change at each listed number, which made again changes nothing more, has been made at the listed numbers and no others. -/
theorem foldl_pointwise {α : Type} {f : State → Nat → State} {get : State → Nat → α} {g : α → α}
    (hf : ∀ s c d, get (f s c) d = if d = c then g (get s d) else get s d) (idem : ∀ x, g (g x) = g x) (l : List Nat) (s : State) (d : Nat) :
    get (l.foldl f s) d = if d ∈ l then g (get s d) else get s d := by
  induction l generalizing s with
  | nil => rfl
  | cons c l ih =>
    rw [List.foldl_cons, ih, hf]
    by_cases hc : d = c
    · subst hc
      simp only [if_pos, List.mem_cons, true_or, idem, ite_self]
    · simp only [List.mem_cons, hc, false_or, if_false]

/-- From `s` to `t` only threads, what was chosen to issue, and the registers and banks of partitions, cores and clusters change. -/
def WipesOnly (s t : State) : Prop := ∃ chosen th parked parts cores clusters,
  t = { s with chosen := chosen, th := th, parked := parked, parts := parts, cores := cores, clusters := clusters }

theorem WipesOnly.refl (s : State) : WipesOnly s s := ⟨_, _, _, _, _, _, rfl⟩

theorem WipesOnly.trans {s t u : State} (h : WipesOnly s t) (g : WipesOnly t u) : WipesOnly s u := by
  obtain ⟨_, _, _, _, _, _, rfl⟩ := h
  obtain ⟨_, _, _, _, _, _, rfl⟩ := g
  exact ⟨_, _, _, _, _, _, rfl⟩

theorem wipesOnly_setPart (s : State) (p : Nat) (q : Partition) : WipesOnly s (s.setPart p q) := ⟨_, _, _, _, _, _, rfl⟩

theorem coresOnly_foldl {f : State → Nat → State} (hf : ∀ s c, ∃ cores, f s c = { s with cores := cores }) (l : List Nat) (s : State) :
    ∃ cores, l.foldl f s = { s with cores := cores } := by
  induction l generalizing s with
  | nil => exact ⟨_, rfl⟩
  | cons c l ih =>
    obtain ⟨_, first⟩ := hf s c
    obtain ⟨_, rest⟩ := ih (f s c)
    rw [List.foldl_cons, rest, first]
    exact ⟨_, rfl⟩

theorem clustersOnly_foldl {f : State → Nat → State} (hf : ∀ s c, ∃ clusters, f s c = { s with clusters := clusters }) (l : List Nat)
    (s : State) : ∃ clusters, l.foldl f s = { s with clusters := clusters } := by
  induction l generalizing s with
  | nil => exact ⟨_, rfl⟩
  | cons c l ih =>
    obtain ⟨_, first⟩ := hf s c
    obtain ⟨_, rest⟩ := ih (f s c)
    rw [List.foldl_cons, rest, first]
    exact ⟨_, rfl⟩

theorem WipesOnly.plat {s t : State} (h : WipesOnly s t) : t.plat = s.plat := by
  obtain ⟨_, _, _, _, _, _, rfl⟩ := h
  rfl

/-! ### Threads (R358) -/

theorem State.mem_liveKeys {s : State} {k : Nat} : k ∈ s.liveKeys ↔ (s.thread k).live = true := by
  unfold State.liveKeys
  rw [List.mem_filter, and_iff_right_of_imp]
  intro live
  by_cases hc : k = s.cur
  · rw [hc]; exact List.mem_cons_self
  · refine List.mem_cons_of_mem _ (List.mem_filter.mpr ⟨?_, bne_iff_ne.mpr hc⟩)
    by_contra absent
    rw [s.thread_parked hc, Table.get, Table.find_eq_none fun x hx hk => absent (List.mem_map.mpr ⟨x, hx, hk⟩)] at live
    cases live

theorem State.mem_threadsOf {s : State} {p k : Nat} : k ∈ s.threadsOf p ↔ (s.thread k).live = true ∧ (s.thread k).part = p := by
  rw [State.threadsOf, List.mem_filter, State.mem_liveKeys, beq_iff_eq]

theorem State.thread_dropThread (s : State) (k j : Nat) : (s.dropThread k).thread j = if j = k then Thread.zero else s.thread j := by
  unfold State.dropThread
  split
  · next hk =>
    by_cases hj : j = k
    · rw [if_pos hj]; exact if_pos (hj.trans hk)
    · have other : j ≠ s.cur := fun h => hj (h.trans hk.symm)
      rw [if_neg hj, s.thread_parked other]
      exact State.thread_parked other
  · next hk =>
    by_cases hc : j = s.cur
    · have hj : j ≠ k := fun h => hk (h ▸ hc)
      rw [if_neg hj, hc, s.thread_cur]
      exact State.thread_cur _
    · rw [State.thread_parked (s := { s with parked := s.parked.erase k }) hc, s.thread_parked hc, Table.get, Table.find_erase]
      split <;> rfl

/-- The threads of the partition are gone, and every other stands as it did. -/
theorem thread_dropThreads (p : Nat) (s : State) (k : Nat) :
    ((dropThreads (fun _ => false) p s).thread k) = if k ∈ s.threadsOf p then Thread.zero else s.thread k := by
  unfold dropThreads
  extract_lets t
  exact foldl_pointwise (f := fun s k => (countUse p (s.thread k).entry s).dropThread k) (get := State.thread) (g := fun _ => Thread.zero)
    (fun s c d => State.thread_dropThread (countUse p (s.thread c).entry s) c d) (fun _ => rfl)
    (t.threadsOf p) t k

/-- Only threads, what was chosen to issue, and reuse counts change where threads go. -/
theorem dropThreads_eq (p : Nat) (s : State) : ∃ chosen th parked parts,
    dropThreads (fun _ => false) p s = { s with chosen := chosen, th := th, parked := parked, parts := parts } := by
  have drop (s : State) (k : Nat) : ∃ th parked parts,
      (countUse p (s.thread k).entry s).dropThread k = { s with th := th, parked := parked, parts := parts } := by
    unfold State.dropThread
    split <;> exact ⟨_, _, _, rfl⟩
  have fold (l : List Nat) (s : State) : ∃ th parked parts,
      l.foldl (fun s k => (countUse p (s.thread k).entry s).dropThread k) s = { s with th := th, parked := parked, parts := parts } := by
    induction l generalizing s with
    | nil => exact ⟨_, _, _, rfl⟩
    | cons k l ih =>
      obtain ⟨_, _, _, first⟩ := drop s k
      obtain ⟨_, _, _, rest⟩ := ih ((countUse p (s.thread k).entry s).dropThread k)
      rw [List.foldl_cons, rest, first]
      exact ⟨_, _, _, rfl⟩
  unfold dropThreads
  extract_lets t
  obtain ⟨th, parked, parts, eq⟩ := fold (t.threadsOf p) t
  exact ⟨t.chosen, th, parked, parts, eq⟩

theorem wipesOnly_dropThreads (p : Nat) (s : State) : WipesOnly s (dropThreads (fun _ => false) p s) := by
  obtain ⟨_, _, _, _, eq⟩ := dropThreads_eq p s
  exact ⟨_, _, _, _, _, _, eq⟩

/-! ### Units (R62, R358) -/

theorem mem_coresOf {p c : Nat} : c ∈ coresOf p ↔ c / 40 = p := by
  refine ⟨div_of_mem_coresOf, fun h => List.mem_map.mpr ⟨c % 40, List.mem_range.mpr (by omega), by omega⟩⟩

theorem mem_clustersOf {p c : Nat} : c ∈ clustersOf p ↔ c / 10 = p := by
  refine ⟨fun h => ?_, fun h => List.mem_map.mpr ⟨c % 10, List.mem_range.mpr (by omega), by omega⟩⟩
  obtain ⟨i, hi, rfl⟩ := List.mem_map.mp h
  have := List.mem_range.mp hi
  omega

theorem State.core_setCore (s : State) (c d : Nat) (x : Core) : (s.setCore c x).core d = if d = c then x else s.core d := by
  by_cases h : d = c
  · rw [h, State.core_setCore_same, if_pos rfl]
  · rw [State.core_setCore_other s x h, if_neg h]

theorem State.cluster_setCluster (s : State) (c d : Nat) (x : Cluster) :
    (s.setCluster c x).cluster d = if d = c then x else s.cluster d := by
  by_cases h : d = c
  · rw [h, if_pos rfl]; exact Table.get_set_same ..
  · rw [if_neg h]; exact Table.get_set_other _ _ _ h

theorem core_resetCores (p : Nat) (s : State) (c : Nat) : (resetCores p s).core c = if c / 40 = p then (s.core c).afterKill else s.core c := by
  have cores := foldl_pointwise (f := fun s c => s.setCore c (s.core c).afterKill) (get := State.core) (g := Core.afterKill)
    (fun s c d => by rw [State.core_setCore]; split_ifs with h <;> simp [h]) (fun _ => rfl) (coresOf p) s c
  simp only [mem_coresOf] at cores
  exact cores

theorem resetCores_eq (p : Nat) (s : State) : ∃ cores, resetCores p s = { s with cores := cores } :=
  coresOnly_foldl (fun _ _ => ⟨_, rfl⟩) _ s

theorem wipesOnly_resetCores (p : Nat) (s : State) : WipesOnly s (resetCores p s) :=
  have ⟨_, eq⟩ := resetCores_eq p s
  ⟨_, _, _, _, _, _, eq⟩

/-- A cluster whose banks are in cache mode and hold nothing. -/
def Cluster.emptied (k : Cluster) : Cluster := { k with banks := Vector.replicate 16 Bank.reset, stale := [] }

theorem cluster_resetBanks (p : Nat) (s : State) (c : Nat) :
    (resetBanks p s).cluster c = if c / 10 = p then (s.cluster c).emptied else s.cluster c := by
  have clusters := foldl_pointwise (f := fun s c => s.setCluster c (s.cluster c).emptied) (get := State.cluster) (g := Cluster.emptied)
    (fun s c d => by rw [State.cluster_setCluster]; split_ifs with h <;> simp [h]) (fun _ => rfl) (clustersOf p) s c
  simp only [mem_clustersOf] at clusters
  exact clusters

theorem resetBanks_eq (p : Nat) (s : State) : ∃ clusters, resetBanks p s = { s with clusters := clusters } :=
  clustersOnly_foldl (fun _ _ => ⟨_, rfl⟩) _ s

theorem wipesOnly_resetBanks (p : Nat) (s : State) : WipesOnly s (resetBanks p s) :=
  have ⟨_, eq⟩ := resetBanks_eq p s
  ⟨_, _, _, _, _, _, eq⟩

/-- Every slot of a core stops, for no halt that a resume would undo. -/
def Core.AllStopped (k : Core) : Prop := k.stop = 0xFF ∧ k.stopped = 0xFF ∧ k.haltSet = 0

theorem Core.AllStopped.eq {k : Core} (h : k.AllStopped) : { k with stop := 0xFF, stopped := 0xFF, haltSet := 0 } = k := by
  obtain ⟨stop, stopped, haltSet⟩ := h
  rw [← stop, ← haltSet]
  exact congrArg (fun x => { k with stopped := x }) (stop.trans stopped.symm)

theorem core_setStops_of_allStopped {s : State} {c : Nat} (h : (s.core c).AllStopped) (d : Nat) :
    (setStops c 0xFF ((s.core c).haltSet ||| ~~~(s.core c).stop) s).core d = s.core d := by
  have ⟨stop, stopped, haltSet⟩ := h
  have stays : ∀ e : BitVec 8, (0xFF ||| e) &&& 0xFF = (0xFF : BitVec 8) := by decide
  have nothing : ((0 : BitVec 8) ||| ~~~0xFF) &&& 0xFF = 0 := by decide
  unfold setStops
  rw [State.core_setCore]
  split
  · next here =>
    rw [here, stop, stopped, haltSet, stays, nothing]
    exact h.eq
  · rfl

/-- Every slot of a partition's cores stops. -/
def stopCores (p : Nat) (s : State) : State :=
  (coresOf p).foldl (fun s c => setStops c 0xFF ((s.core c).haltSet ||| ~~~(s.core c).stop) s) s

/-- What a halt leaves of a partition's own state. -/
def Partition.halts (q : Partition) : Partition := { q with halted := true, chans := q.chans.map fun c => { c with paused := true } }

theorem haltPart_eq (p : Nat) (s : State) : haltPart p s = (stopCores p s).setPart p ((stopCores p s).part p).halts := rfl

theorem core_stopCores {p : Nat} {s : State} (h : ∀ c, c / 40 = p → (s.core c).AllStopped) (d : Nat) : (stopCores p s).core d = s.core d := by
  have fold (l : List Nat) (s : State) (h : ∀ c ∈ l, (s.core c).AllStopped) :
      (l.foldl (fun s c => setStops c 0xFF ((s.core c).haltSet ||| ~~~(s.core c).stop) s) s).core d = s.core d := by
    induction l generalizing s with
    | nil => rfl
    | cons c l ih =>
      have same := core_setStops_of_allStopped (h c List.mem_cons_self)
      rw [List.foldl_cons, ih _ fun e he => by rw [same]; exact h e (List.mem_cons_of_mem _ he), same]
  exact fold (coresOf p) s fun c hc => h c (mem_coresOf.mp hc)

/-- Only cores change where slots stop. -/
theorem stopCores_eq (p : Nat) (s : State) : ∃ cores, stopCores p s = { s with cores := cores } :=
  coresOnly_foldl (fun _ _ => ⟨_, rfl⟩) _ s

theorem haltPart_changes (p : Nat) (s : State) : ∃ cores, stopCores p s = { s with cores := cores } ∧
    haltPart p s = State.setPart { s with cores := cores } p (s.part p).halts := by
  obtain ⟨cores, stopped⟩ := stopCores_eq p s
  refine ⟨cores, stopped, ?_⟩
  rw [haltPart_eq, stopped]
  rfl

/-- What a killed partition's registers, queues and bindings hold afterwards. -/
def Partition.killed (limit : Nat) (reuse : Table Nat) : Partition :=
  let q : Partition := { Partition.reset with reuse := reuse }
  if limit = 3 then { q with halted := true, chans := Vector.replicate 16 { Channel.reset with paused := true } } else q

/-- A partition's registers, queues and bindings get their reset values. -/
def clearPart (p : Nat) (s : State) : State := s.setPart p { Partition.reset with reuse := (s.part p).reuse }

theorem resetPartition_eq (p : Nat) (s : State) :
    resetPartition p s = if s.plat.limit = 3 then haltPart p (clearPart p s) else clearPart p s := rfl

theorem part_resetPartition (p : Nat) (s : State) : (resetPartition p s).part p = Partition.killed s.plat.limit (s.part p).reuse := by
  have cleared : (clearPart p s).part p = { Partition.reset with reuse := (s.part p).reuse } := State.part_setPart_same ..
  obtain ⟨cores, -, halted⟩ := haltPart_changes p (clearPart p s)
  rw [resetPartition_eq, Partition.killed]
  split
  · rw [halted, State.part_setPart_same, cleared]
    simp [Partition.halts, Partition.reset]
  · exact cleared

theorem wipesOnly_resetPartition (p : Nat) (s : State) : WipesOnly s (resetPartition p s) := by
  have cleared : WipesOnly s (clearPart p s) := wipesOnly_setPart ..
  obtain ⟨cores, -, halted⟩ := haltPart_changes p (clearPart p s)
  rw [resetPartition_eq]
  split
  · rw [halted]
    exact cleared.trans ⟨_, _, _, _, _, _, rfl⟩
  · exact cleared

theorem core_resetPartition {p : Nat} {s : State} (h : ∀ c, c / 40 = p → (s.core c).AllStopped) (d : Nat) :
    (resetPartition p s).core d = s.core d := by
  have same := core_stopCores (s := clearPart p s) h d
  obtain ⟨cores, stopped, halted⟩ := haltPart_changes p (clearPart p s)
  rw [stopped] at same
  rw [resetPartition_eq]
  split
  · rw [halted]
    exact same
  · rfl

theorem thread_resetPartition (p : Nat) (s : State) (k : Nat) : (resetPartition p s).thread k = s.thread k := by
  obtain ⟨cores, -, halted⟩ := haltPart_changes p (clearPart p s)
  rw [resetPartition_eq]
  split
  · rw [halted]; rfl
  · rfl

theorem cluster_resetPartition (p : Nat) (s : State) (c : Nat) : (resetPartition p s).cluster c = s.cluster c := by
  obtain ⟨cores, -, halted⟩ := haltPart_changes p (clearPart p s)
  rw [resetPartition_eq]
  split
  · rw [halted]; rfl
  · rfl

/-! ### The last stages together -/

/-- The stages of a kill from the threads to the registers. -/
def wipePart (p : Nat) (s : State) : State := resetPartition p (resetBanks p (resetCores p (dropThreads (fun _ => false) p s)))

theorem wipesOnly_wipePart (p : Nat) (s : State) : WipesOnly s (wipePart p s) :=
  (((wipesOnly_dropThreads p s).trans (wipesOnly_resetCores p _)).trans (wipesOnly_resetBanks p _)).trans (wipesOnly_resetPartition p _)

theorem thread_wipePart (p : Nat) (s : State) (k : Nat) :
    (wipePart p s).thread k = if (s.thread k).live = true ∧ (s.thread k).part = p then Thread.zero else s.thread k := by
  obtain ⟨cores, reset⟩ := resetCores_eq p (dropThreads (fun _ => false) p s)
  obtain ⟨clusters, emptied⟩ := resetBanks_eq p (resetCores p (dropThreads (fun _ => false) p s))
  have dropped := thread_dropThreads p s k
  simp only [State.mem_threadsOf] at dropped
  rw [wipePart, thread_resetPartition, emptied, reset]
  exact dropped

theorem part_wipePart (p : Nat) (s : State) : ∃ reuse, (wipePart p s).part p = Partition.killed s.plat.limit reuse := by
  have before := ((wipesOnly_dropThreads p s).trans (wipesOnly_resetCores p _)).trans (wipesOnly_resetBanks p _)
  have killed := part_resetPartition p (resetBanks p (resetCores p (dropThreads (fun _ => false) p s)))
  rw [before.plat] at killed
  exact ⟨_, killed⟩

theorem core_wipePart (p : Nat) (s : State) (c : Nat) :
    (wipePart p s).core c = if c / 40 = p then (s.core c).afterKill else s.core c := by
  have dropped (c : Nat) : (dropThreads (fun _ => false) p s).core c = s.core c := by
    obtain ⟨_, _, _, _, dropped⟩ := dropThreads_eq p s
    rw [dropped]
    rfl
  have emptied (s : State) (c : Nat) : (resetBanks p s).core c = s.core c := by
    obtain ⟨clusters, emptied⟩ := resetBanks_eq p s
    rw [emptied]
    rfl
  have here (c : Nat) : (resetBanks p (resetCores p (dropThreads (fun _ => false) p s))).core c =
      if c / 40 = p then (s.core c).afterKill else s.core c := by
    rw [emptied, core_resetCores, dropped]
  rw [wipePart, core_resetPartition, here]
  intro c hc
  rw [here, if_pos hc]
  exact ⟨rfl, rfl, rfl⟩

theorem cluster_wipePart (p : Nat) (s : State) (c : Nat) :
    (wipePart p s).cluster c = if c / 10 = p then (s.cluster c).emptied else s.cluster c := by
  have dropped : (dropThreads (fun _ => false) p s).cluster c = s.cluster c := by
    obtain ⟨_, _, _, _, dropped⟩ := dropThreads_eq p s
    rw [dropped]
    rfl
  have reset (s : State) : (resetCores p s).cluster c = s.cluster c := by
    obtain ⟨cores, reset⟩ := resetCores_eq p s
    rw [reset]
    rfl
  rw [wipePart, cluster_resetPartition, cluster_resetBanks, reset, dropped]

end Sys2Proof.Machine
end

section
/-! SUPPORT. A kill as a whole: what its first and last stages leave, and what it leaves where the partition's engines are idle (spec/03 R62,
spec/19 R358, spec/22 R398). -/

namespace Sys2Proof.Machine

/-! ### Loops and caches (R62, R358) -/

/-- What becomes of a mark of tile queue `k` when the loops of partition `p` end. -/
def killedMark (p k : Nat) (e : Nat × Mark) : Nat × Mark :=
  (e.1, { e.2 with dead := e.2.dead || k == 4 + p % 4 && e.2.part == p })

theorem map_killedMark_of_other {p k : Nat} (h : k ≠ 4 + p % 4) : List.map (killedMark p k) = id := by
  have elsewhere : (k == 4 + p % 4) = false := beq_eq_false_iff_ne.mpr h
  have same : killedMark p k = id := funext fun e => by simp only [killedMark, elsewhere, Bool.false_and, Bool.or_false, id]
  rw [same, List.map_id_fun]

theorem killedMark_here (p : Nat) (e : Nat × Mark) :
    killedMark p (4 + p % 4) e = if e.2.part = p then (e.1, { e.2 with dead := true }) else e := by
  unfold killedMark
  split
  · next own => rw [own, beq_self_eq_true, beq_self_eq_true, Bool.and_self, Bool.or_true]
  · next other => rw [beq_eq_false_iff_ne.mpr other, Bool.and_false, Bool.or_false]

theorem killLoops_eq (p : Nat) (s : State) : ∃ tqs, killLoops p s = { s with loops := s.loops.filter fun l => l.part != p, tqs := tqs } := by
  unfold killLoops
  dsimp only
  split <;> exact ⟨_, rfl⟩

theorem State.tq_set (s : State) (q k : Nat) (t : TileQ) :
    State.tq { s with tqs := s.tqs.set q t } k = if k = q then t else s.tq k := by
  by_cases h : k = q
  · rw [h, if_pos rfl]; exact Table.get_set_same ..
  · rw [if_neg h]; exact Table.get_set_other _ _ _ h

theorem tq_killLoops (p : Nat) (s : State) (k : Nat) :
    (killLoops p s).tq k = { s.tq k with marks := (s.tq k).marks.map (killedMark p k) } := by
  let t : State := { s with loops := s.loops.filter fun l => l.part != p }
  have elsewhere (h : k ≠ 4 + p % 4) : s.tq k = { s.tq k with marks := (s.tq k).marks.map (killedMark p k) } := by
    rw [map_killedMark_of_other h]
    rfl
  unfold killLoops
  dsimp only
  split
  · next none_ =>
    by_cases h : k = 4 + p % 4
    · have empty : (s.tq k).marks = [] := by rw [h]; exact List.isEmpty_iff.mp none_
      change s.tq k = _
      rw [empty, List.map_nil, ← empty]
    · exact elsewhere h
  · refine (State.tq_set t (4 + p % 4) k _).trans ?_
    split
    · next h =>
      subst h
      rw [funext (killedMark_here p)]
    · next h => exact elsewhere h

theorem drainPart_of_coherent {s : State} (hc : s.coherent = true) (hu : NoUpdates s) (p : Nat) : drainPart p s = s := by
  have late : s.late = [] := by
    simp only [State.coherent, Bool.and_eq_true, List.isEmpty_iff] at hc
    exact hc.1
  have merge : (coresOf p).foldl (fun s c => mergeCore s c fun _ => true) s = s :=
    List.foldl_fixed' (fun c => by simp [mergeCore, hu.core c]) _
  have release : (clustersOf p).foldl (fun s c => releaseLines (fun _ => true) c 4 s) s = s :=
    List.foldl_fixed' (fun c => by simp [releaseLines, State.dirtyLines, late]) _
  rw [drainPart, merge, release]

/-- The stages of a kill of a partition whose caches hold nothing back. -/
theorem killPart_of_coherent {s : State} (hc : s.coherent = true) (hu : NoUpdates s) (records : Bool) (p : Nat) :
    killPart records p s = wipePart p (endEngines records p (killLoops p s)) := by
  have drained : drainPart p (killLoops p s) = killLoops p s := by
    obtain ⟨tqs, eq⟩ := killLoops_eq p s
    rw [eq]
    exact drainPart_of_coherent (s := { s with loops := s.loops.filter fun l => l.part != p, tqs := tqs }) hc hu p
  rw [killPart_eq, drained]
  rfl

/-! ### What a kill leaves -/

/-- What a kill of partition `p` leaves, besides what the model's statement of it says. -/
structure Killed (p : Nat) (s u : State) : Prop where
  gone : ContextGone s u p
  others : ∀ k, (s.thread k).live = true → (s.thread k).part ≠ p → u.thread k = s.thread k
  dies : u.dies = s.dies
  plat : u.plat = s.plat
  loops : u.loops = s.loops.filter fun l => l.part != p

theorem Cluster.emptied_of_worked {k l : Cluster} (h : l = { k with banks := l.banks, stale := l.stale }) : l.emptied = k.emptied := by
  rw [h]
  rfl

theorem killed_killPart {s : State} (hc : s.coherent = true) (hu : NoUpdates s) (records : Bool) (p : Nat) :
    Killed p s (killPart records p s) := by
  obtain ⟨tqs, begun⟩ := killLoops_eq p s
  have marks := tq_killLoops p s
  have hut : NoUpdates (killLoops p s) := by rw [begun]; exact hu
  have ended := outlives_endEngines records p (killLoops p s) hut
  have queue := queue_endEngines records p (killLoops p s) hut
  have threads := thread_wipePart p (endEngines records p (killLoops p s))
  have cores := core_wipePart p (endEngines records p (killLoops p s))
  have clusters := cluster_wipePart p (endEngines records p (killLoops p s))
  obtain ⟨reuse, part⟩ := part_wipePart p (endEngines records p (killLoops p s))
  obtain ⟨_, _, _, _, _, _, wiped⟩ := wipesOnly_wipePart p (endEngines records p (killLoops p s))
  rw [killPart_of_coherent hc hu]
  generalize wipePart p (endEngines records p (killLoops p s)) = u at *
  generalize endEngines records p (killLoops p s) = e at *
  generalize killLoops p s = t at *
  have plat : e.plat = s.plat := by rw [ended.plat, begun]
  have thread (k : Nat) : t.thread k = s.thread k := by rw [begun]; rfl
  have core (c : Nat) : e.core c = s.core c := by unfold State.core; rw [ended.cores, begun]
  have loops : u.loops = s.loops.filter fun l => l.part != p := by rw [wiped]; exact ended.loops.trans (by rw [begun])
  refine ⟨⟨fun k hk => ?_, ⟨reuse, ?_⟩, fun c => ?_, fun c hcp => ?_, fun d j hj => ?_, fun l hl => ?_, fun m hm own => ?_⟩,
    fun k live other => ?_, ?_, ?_, loops⟩
  · obtain ⟨live, own⟩ := hk
    rw [threads, if_pos ⟨by rw [ended.live, thread, live], by rw [ended.part, thread, own]⟩]
    rfl
  · rw [part, plat]
    rfl
  · rw [cores, core]
    rfl
  · rw [clusters, if_pos hcp, Cluster.emptied_of_worked (ended.clusters c), begun]
    rfl
  · rw [wiped] at hj
    exact queue d j hj
  · rw [loops] at hl
    simpa using (List.mem_filter.mp hl).2
  · have tq : u.tq (4 + p % 4) = e.tq (4 + p % 4) := by rw [wiped]; rfl
    rw [tq, ended.marks, marks] at hm
    obtain ⟨e, -, rfl⟩ := List.mem_map.mp hm
    have mine : e.2.part = p := own
    simp [killedMark, mine]
  · have same : e.thread k = s.thread k := by rw [ended.thread k (by rw [thread]; exact other), thread]
    rw [threads, same, if_neg fun h => other h.2]
  · rw [wiped]
    exact ended.dies.trans (by rw [begun])
  · rw [wiped]
    exact plat

end Sys2Proof.Machine
end

section
/-! SUPPORT. A kill of a partition that has nothing in an engine, or one tile instruction (spec/12 R303, R385, spec/19 R358, spec/22 R400). -/

namespace Sys2Proof.Machine

/-! ### Nothing in an engine -/

theorem foldl_of_fixed {α : Type} {f : State → α → State} {l : List α} {s : State} (h : ∀ a ∈ l, f s a = s) : l.foldl f s = s := by
  induction l with
  | nil => rfl
  | cons a l ih => rw [List.foldl_cons, h a List.mem_cons_self, ih fun b hb => h b (List.mem_cons_of_mem a hb)]

/-- The stages of a kill from the channels to the page moves. -/
def endOthers (records : Bool) (p : Nat) (s : State) : State := settleMoves p (killZenc p (killColls p (killChans records p s)))

theorem endEngines_eq (records : Bool) (p : Nat) (s : State) : endEngines records p s = endOthers records p (killTiles records p s) := rfl

theorem killChans_of_none {s : State} {p : Nat} (h : ∀ n < 16, (s.chan p n).st ≠ .running) (records : Bool) : ∃ parts,
    killChans records p s = { s with parts := parts } ∧ (State.part { s with parts := parts } p).migs = (s.part p).migs := by
  have none_ (n : Nat) (hn : n ∈ List.range 16) : ((s.chan p n).st != .running) = true := bne_iff_ne.mpr (h n (List.mem_range.mp hn))
  unfold killChans
  rw [foldl_of_fixed fun n hn => if_pos (none_ n hn)]
  have same := State.part_setPart_same s p { s.part p with chans := Vector.replicate 16 Channel.reset }
  exact ⟨_, rfl, (congrArg Partition.migs same :)⟩

theorem leaveColl_of_none {s : State} {p : Nat} (h : ∀ c ∈ s.colls, ∀ y ∈ c.parties, y.part ≠ p) (i : Nat) : leaveColl p i s = s := by
  unfold leaveColl
  split
  · rfl
  · next c found =>
    have all : c.parties.filter (fun y => y.part != p) = c.parties :=
      List.filter_eq_self.mpr fun y hy => bne_iff_ne.mpr (h c (List.mem_of_getElem? found) y hy)
    rw [all]
    exact if_pos rfl

theorem killColls_of_none {s : State} {p : Nat} (h : ∀ c ∈ s.colls, ∀ y ∈ c.parties, y.part ≠ p) :
    killColls p s = { s with unseen := s.unseen.filter fun y => y.part != p } := by
  unfold killColls
  rw [foldl_of_fixed fun i _ => leaveColl_of_none h i]

theorem killZenc_of_none {s : State} {p : Nat} (h : ∀ j ∈ s.zjobs, j.part ≠ p) : killZenc p s = s := by
  have mine : s.zjobs.filter (fun j => j.part == p) = [] := List.filter_eq_nil_iff.mpr fun j hj => by simp [h j hj]
  have others : s.zjobs.filter (fun j => j.part != p) = s.zjobs := List.filter_eq_self.mpr fun j hj => bne_iff_ne.mpr (h j hj)
  unfold killZenc
  rw [mine]
  simp only [List.foldl_nil, others]

theorem settleMoves_of_none {s : State} {p : Nat} (h : (s.part p).migs = []) : settleMoves p s = s := by
  rw [settleMoves, h]
  rfl

/-- With nothing of the partition in a channel, a collective, a ZENC or a page move, only its registers and what is unseen change. -/
theorem endOthers_of_idle {s : State} {p : Nat} (chans : ∀ n < 16, (s.chan p n).st ≠ .running)
    (colls : ∀ c ∈ s.colls, ∀ y ∈ c.parties, y.part ≠ p) (zjobs : ∀ j ∈ s.zjobs, j.part ≠ p) (migs : (s.part p).migs = [])
    (records : Bool) : ∃ parts unseen, endOthers records p s = { s with parts := parts, unseen := unseen } := by
  obtain ⟨parts, ended, same⟩ := killChans_of_none chans records
  rw [endOthers, ended, killColls_of_none (s := { s with parts := parts }) colls]
  rw [killZenc_of_none (by exact zjobs), settleMoves_of_none (by exact same.trans migs)]
  exact ⟨_, _, rfl⟩

/-- No decomposer runs an instruction of the partition. -/
def TilesIdle (p : Nat) (s : State) : Prop := ∀ d, ∀ r ∈ (s.dec d).running, r.job.ofPart p = false

theorem tilesIdle_of_forall {s : State} {p : Nat} (h : ∀ e ∈ s.decs, ∀ r ∈ e.2.running, r.job.ofPart p = false) : TilesIdle p s :=
  fun d => Table.get_of_forall (P := fun x : Decomposer => ∀ r ∈ x.running, r.job.ofPart p = false) h (fun _ hr => by cases hr) d

theorem killDec_of_idle {s : State} {p : Nat} (h : TilesIdle p s) (records : Bool) (d : Nat) :
    killDec records p s d = s.setDec d { s.dec d with queue := (s.dec d).queue.filter fun j => !j.ofPart p } := by
  unfold killDec
  rw [killRuns_of_none records (h d)]

theorem tilesIdle_setDec {s : State} {p : Nat} (h : TilesIdle p s) (d : Nat) (l : List TileJob) :
    TilesIdle p (s.setDec d { s.dec d with queue := l }) := by
  intro e
  by_cases he : e = d
  · subst he
    rw [s.dec_setDec_same]
    exact h e
  · rw [s.dec_setDec_other _ he]
    exact h e

theorem killTiles_of_tilesIdle {s : State} {p : Nat} (h : TilesIdle p s) (records : Bool) :
    ∃ decs, killTiles records p s = { s with decs := decs } := by
  rw [killTiles_eq]
  generalize s.decs.map Prod.fst = l
  induction l generalizing s with
  | nil => exact ⟨_, rfl⟩
  | cons d l ih =>
    obtain ⟨decs, eq⟩ := ih (tilesIdle_setDec h d ((s.dec d).queue.filter fun j => !j.ofPart p))
    rw [List.foldl_cons, killDec_of_idle h, eq]
    exact ⟨_, rfl⟩

/-- With nothing of the partition in an engine, the engines' part of a kill empties queues, and changes nothing else. -/
theorem endEngines_of_idle {s : State} {p : Nat} (h : s.EnginesIdle p) (records : Bool) : ∃ decs parts unseen,
    endEngines records p s = { s with decs := decs, parts := parts, unseen := unseen } := by
  obtain ⟨tiles, chans, colls, zjobs, migs⟩ := h
  obtain ⟨decs, emptied⟩ := killTiles_of_tilesIdle (tilesIdle_of_forall tiles) records
  obtain ⟨parts, unseen, ended⟩ := endOthers_of_idle (s := { s with decs := decs }) chans colls zjobs migs records
  rw [endEngines_eq, emptied, ended]
  exact ⟨_, _, _, rfl⟩

/-- A kill then leaves memory, the log, messages and other clusters as they were, and of the tile queues only notes who was ended. -/
theorem killPart_of_enginesIdle {s : State} (hc : s.coherent = true) (hu : NoUpdates s) {p : Nat} (h : s.EnginesIdle p) (records : Bool) :
    OthersStay s (killPart records p s) p ∧
      ∀ k, (killPart records p s).tq k = { s.tq k with marks := (s.tq k).marks.map (killedMark p k) } := by
  obtain ⟨tqs, begun⟩ := killLoops_eq p s
  have marks := tq_killLoops p s
  have idle : (killLoops p s).EnginesIdle p := by rw [begun]; exact h
  obtain ⟨_, _, _, ended⟩ := endEngines_of_idle idle records
  have clusters := cluster_wipePart p (endEngines records p (killLoops p s))
  obtain ⟨_, _, _, _, _, _, wiped⟩ := wipesOnly_wipePart p (endEngines records p (killLoops p s))
  rw [killPart_of_coherent hc hu]
  generalize wipePart p (endEngines records p (killLoops p s)) = u at *
  generalize endEngines records p (killLoops p s) = e at *
  generalize killLoops p s = t at *
  refine ⟨⟨?_, ?_, ?_, fun c other => ?_⟩, fun k => ?_⟩
  · rw [wiped, ended, begun]
  · rw [wiped, ended, begun]
  · rw [wiped, ended, begun]
  · rw [clusters, if_neg other, ended, begun]
    rfl
  · rw [← marks, wiped, ended]
    rfl

/-! ### One tile instruction -/

/-- Its descriptors, read or not, are none: it names none, or none could be. -/
theorem softDescs_none {w : Who} {r : TileRun} {s : State} (h : (r.softDescs w s).descs = []) (v : Who) (t : State) :
    (r.softDescs v t).descs = [] := by
  unfold TileRun.softDescs at h ⊢
  split at h
  · next some_ => rw [h] at some_; simp at some_
  · next none_ =>
    rw [if_neg none_]
    exact List.map_eq_nil_iff.mpr (List.map_eq_nil_iff.mp h)

theorem freeOutputs_of_none {r : TileRun} (h : r.descs = []) (w : Who) (s : State) : freeOutputs w r s = s := by
  unfold freeOutputs
  rw [h]
  rfl

/-- An instruction that names no descriptors leaves nothing unspecified and no guard, only its record. -/
theorem recordState_of_none {w : Who} {r : TileRun} {s : State} (h : (r.softDescs w s).descs = []) (v : Nat) :
    recordState w r v s = putResult w r.job.crec 32 v s := by
  simp only [recordState, freeOutputs_of_none h, softDescs_job, h, List.isEmpty_nil, Bool.true_or, if_true]

/-- In plain memory, with translation off or for its own agent, an engine's aligned access to HBM lands there (R50, R54). -/
theorem translate_of_physical {w : Who} {s : State} (user : w.user = false) (off : w.phys = true ∨ (s.part w.part).ptroot.getLsbD 0 = false)
    {ea : Word} (he : ea.toNat < hbmEnd) (need : Need) : translate w need ea s = .ok ⟨ea.toNat, 0, false, none⟩ s := by
  have physical : (w.phys || !(s.part w.part).ptroot.getLsbD 0) = true := by
    rcases off with phys | off
    · rw [phys, Bool.true_or]
    · rw [off, Bool.not_false, Bool.or_true]
  unfold hbmEnd at he
  have high : ¬ ea.toNat ≥ 2 ^ 63 := by omega
  have b1 : (bits ea.toNat 62 57 != 0) = false := by
    simp [bits, Nat.shiftRight_eq_div_pow]; omega
  have b2 : (bits ea.toNat 56 52 != 0) = false := by
    simp [bits, Nat.shiftRight_eq_div_pow]; omega
  unfold translate
  simp only [M.run_bind, M.run_get, high, if_false, b1, b2, user, physical, if_true, Bool.false_eq_true, M.run_pure]

theorem M.run_holdForLoads_unwatched {w : Who} (h : w.watch = false) (acc : Nat) (pl : Place) (n : Nat) (s : State) :
    holdForLoads w acc pl n s = .ok () s := by
  simp only [holdForLoads, M.run_bind, M.run_get, h, Bool.false_and, Bool.false_eq_true, if_false, M.run_pure]

theorem locate_of_physical {w : Who} {s : State} (user : w.user = false) (off : w.phys = true ∨ (s.part w.part).ptroot.getLsbD 0 = false)
    (watch : w.watch = false) (zjobs : s.zjobs = []) {ea : Word} {n : Nat} (he : InHbm ea n) (hn : 0 < n) (need : Need) (acc : Nat) :
    locate w need acc n ea n s = .ok (.cell ea.toNat w.via) s := by
  have low : ea.toNat < hbmEnd := Nat.lt_of_lt_of_le (Nat.lt_add_of_pos_right hn) he.2
  have translated := translate_of_physical user off low need
  have aligned : (ea.toNat % n != 0) = false := bne_eq_false_iff_eq.mpr he.1
  have hbm : isHbm ea.toNat = true := decide_eq_true low
  have near : isFabric ea.toNat = false := isFabric_of_le_hbmEnd low.le
  have place : placeOf s w ea.toNat = .cell ea.toNat w.via := by
    simp only [placeOf, hbm, Bool.true_or, if_true]
  have window : windowCluster w ea.toNat = none := by
    unfold hbmEnd at low
    have h1 : ¬ windowBase ≤ ea.toNat := by unfold windowBase; omega
    have h2 : ¬ aliasBase ≤ ea.toNat := by unfold aliasBase; omega
    simp [windowCluster, h1, h2]
  have cache : (⟨ea.toNat, 0, false, none⟩ : Xlat).cacheable = true := rfl
  unfold locate locateX
  simp only [M.run_bind_ok translated, M.run_bind, M.run_get, window, cache, if_true, place, M.run_needHeld near]
  rw [M.run_raiseFirst (by simp [aligned])]
  rcases w.via with _ | c
  all_goals
    dsimp only
    split
    · simp only [M.run_bind, M.run_holdForLoads_unwatched watch, M.run_holdForZenc zjobs]
      rfl
    · simp only [M.run_bind, M.run_holdForZenc zjobs]
      rfl

end Sys2Proof.Machine
end

section
/-! SUPPORT. One tile instruction of a killed partition: its record, or none (spec/06 R136, spec/19 R358, spec/22 R400). -/

namespace Sys2Proof.Machine

theorem M.run_checkWatermark_unwatched {w : Who} (h : w.watch = false) (pl : Place) (n : Nat) (s : State) :
    checkWatermark w pl n s = .ok () s := by
  have none_ : watermarkStall s w pl.pa n = none := by simp [watermarkStall, h]
  simp only [checkWatermark, M.run_bind, M.run_get, none_, M.run_pure]

/-- A record in plain HBM is written there, and nothing else of memory. -/
theorem putResult_of_plain {w : Who} {s : State} (user : w.user = false) (off : w.phys = true ∨ (s.part w.part).ptroot.getLsbD 0 = false)
    (watch : w.watch = false) (zjobs : s.zjobs = []) (plain : PlainMem s) {ea : Word} {n : Nat} (he : InHbm ea n) (hn : 0 < n) (v : Nat) :
    putResult w ea n v s = ({ s with mem := s.mem.writeLE ea.toNat v n, colls := s.colls.map (Coll.written ea.toNat n) }, true) := by
  have stored : storeHome w accEngine n ea n v (pure ()) (pure ()) s = .ok () (physWrite s ea.toNat n v) := by
    unfold storeHome
    rw [M.run_bind_ok (locate_of_physical user off watch zjobs he hn .store accEngine), checked_pure,
      M.run_bind_ok (M.run_checkWatermark_unwatched watch _ _ _), M.run_bind_ok (M.run_pure () s)]
    rfl
  have held : runHeld (storeHome w accEngine n ea n v (pure ())) s = .ok () (physWrite s ea.toNat n v) := by
    have run : (storeHome w accEngine n ea n v (pure ())).run s = .ok () (physWrite s ea.toNat n v) := stored
    simp only [runHeld, run]
  simp only [putResult, held, physWrite_of_plain plain he.2]

theorem noticeQueue_eq (sub : Submitter) (s : State) : ∃ tqs msix, noticeQueue sub s = { s with tqs := tqs, msix := msix } := by
  unfold noticeQueue
  split
  · dsimp only
    split
    · unfold sendMsi
      split <;> exact ⟨_, _, rfl⟩
    · exact ⟨_, _, rfl⟩
  · exact ⟨_, _, rfl⟩

theorem leaveRun_eq (d j : Nat) (sub : Submitter) (written : Bool) (s : State) : ∃ tqs msix,
    leaveRun d j sub written s = { removeRun d j s with tqs := tqs, msix := msix } := by
  unfold leaveRun
  split
  · exact noticeQueue_eq ..
  · exact ⟨_, _, rfl⟩

/-- At decomposer `d` instruction `r` alone runs, and it is the partition's. -/
def RunsOnly (p d : Nat) (r : TileRun) (s : State) : Prop :=
  (∃ queue, s.decs = [(d, ⟨queue, [r]⟩)]) ∧ r.job.ofPart p = true

theorem RunsOnly.running {p d : Nat} {r : TileRun} {s : State} (h : RunsOnly p d r s) : (s.dec d).running = [r] := by
  obtain ⟨⟨queue, decs⟩, -⟩ := h
  simp [State.dec, decs, Table.get, Table.find]

/-- Killing the partition's tile instructions then ends that one. -/
theorem killTiles_of_one {p d : Nat} {r : TileRun} {s : State} (h : RunsOnly p d r s) (records : Bool) :
    killTiles records p s = (killRun records d 0 s).setDec d { (killRun records d 0 s).dec d with
      queue := ((killRun records d 0 s).dec d).queue.filter fun j => !j.ofPart p } := by
  have running := h.running
  obtain ⟨⟨queue, decs⟩, own⟩ := h
  have first : (s.dec d).running.findIdx? (fun r => r.job.ofPart p) = some 0 := by simp [running, own]
  have runs : killRuns records p d (s.dec d).running.length s = killRun records d 0 s := by
    rw [running]
    exact killRuns_succ first 0
  rw [killTiles_eq, decs]
  simp only [List.map_cons, List.map_nil, List.foldl_cons, List.foldl_nil, killDec, runs]

/-- Where one instruction has left decomposer `d`, nothing runs there. -/
theorem running_removeRun {d : Nat} {r : TileRun} {s : State} (h : (s.dec d).running = [r]) : ((removeRun d 0 s).dec d).running = [] := by
  rw [removeRun, State.dec_setDec_same, h]
  rfl

/-- Without a record, an instruction that names no descriptors leaves its decomposer, and nothing else changes. -/
theorem killTiles_unrecorded {p d : Nat} {r : TileRun} {s : State} (h : RunsOnly p d r s)
    (bare : (r.softDescs (r.job.who (unitCluster (d / 256) (d % 256))) s).descs = []) :
    ∃ decs, killTiles false p s = { s with decs := decs } ∧ (Table.get decs d Decomposer.reset).running = [] := by
  have only : (s.dec d).running[0]? = some r := by rw [h.running]; rfl
  have freed : freeRun d 0 s = s := by
    unfold freeRun
    simp only [only, freeOutputs_of_none bare]
  have killed : killRun false d 0 s = removeRun d 0 s := by
    unfold killRun
    rw [freed]
    rfl
  rw [killTiles_of_one h, killed]
  refine ⟨_, rfl, ?_⟩
  rw [Table.get_set_same]
  exact running_removeRun h.running

/-- With a record, its record is written besides, with STATE 4. -/
theorem killTiles_recorded {p d : Nat} {r : TileRun} {s : State} (h : RunsOnly p d r s) (job : r.job.Plain s) (plain : PlainMem s)
    (colls : s.colls = []) (zjobs : s.zjobs = []) (record : InHbm r.job.crec 32)
    (bare : (r.softDescs (r.job.who (unitCluster (d / 256) (d % 256))) s).descs = []) :
    ∃ decs tqs msix, killTiles true p s = { s with
        mem := s.mem.writeLE r.job.crec.toNat (completionWord 4 0 0 0 0 r.done) 32, decs := decs, tqs := tqs, msix := msix } ∧
      (Table.get decs d Decomposer.reset).running = [] := by
  obtain ⟨user, -, off⟩ := job
  have agent : (r.job.who (unitCluster (d / 256) (d % 256))).phys = true ∨
      (s.part (r.job.who (unitCluster (d / 256) (d % 256))).part).ptroot.getLsbD 0 = false := by
    cases phys : r.job.phys with
    | true => exact .inl phys
    | false =>
      have part : (r.job.who (unitCluster (d / 256) (d % 256))).part = r.job.part := by simp [TileJob.who, phys]
      rw [part]
      exact .inr (off.resolve_left (by simp [phys]))
  have only : (s.dec d).running[0]? = some r := by rw [h.running]; rfl
  have killed := finishRun_eq only 4 0 0 0 0
  have written := putResult_of_plain user agent rfl zjobs plain record (by omega) (completionWord 4 0 0 0 0 r.done)
  rw [colls, List.map_nil, ← colls] at written
  simp only [recordState_of_none bare, written] at killed
  generalize s.mem.writeLE r.job.crec.toNat (completionWord 4 0 0 0 0 r.done) 32 = m at killed ⊢
  obtain ⟨tqs, msix, left⟩ := leaveRun_eq d 0 r.job.sub true { s with mem := m }
  have ended : killRun true d 0 s = _ := killed.trans left
  rw [killTiles_of_one h, ended]
  refine ⟨_, tqs, msix, rfl, ?_⟩
  rw [Table.get_set_same]
  exact running_removeRun h.running

theorem completionWord_killed (done : Nat) : completionWord 4 0 0 0 0 done = recordOf 4 0 0 0 (done % 2 ^ 64) := by
  simp [completionWord, recordOf]

/-- What a kill does to memory and decomposers where nothing but tile instructions of the partition stands in an engine. -/
theorem killPart_of_tiles {s : State} (hc : s.coherent = true) (hu : NoUpdates s) {p : Nat} {records : Bool} {mem : Mem}
    {decs : Table Decomposer} (tiles : ∃ tqs msix, killTiles records p (killLoops p s) = { killLoops p s with
      mem := mem, decs := decs, tqs := tqs, msix := msix })
    (chans : ∀ n < 16, (s.chan p n).st ≠ .running) (colls : s.colls = []) (zjobs : s.zjobs = []) (migs : (s.part p).migs = []) :
    (killPart records p s).mem = mem ∧ (killPart records p s).decs = decs := by
  obtain ⟨tqs, begun⟩ := killLoops_eq p s
  obtain ⟨tqs', msix, tiles⟩ := tiles
  rw [begun] at tiles
  obtain ⟨parts, unseen, ended⟩ := endOthers_of_idle (p := p) (s := { s with
    loops := s.loops.filter fun l => l.part != p, mem := mem, decs := decs, tqs := tqs', msix := msix })
    chans (by simp [colls]) (by simp [zjobs]) migs records
  obtain ⟨_, _, _, _, _, _, wiped⟩ := wipesOnly_wipePart p (endEngines records p (killLoops p s))
  rw [killPart_of_coherent hc hu, wiped, endEngines_eq, begun, tiles, ended]
  exact ⟨rfl, rfl⟩

end Sys2Proof.Machine
end

section
/-! SUPPORT. What settles O52: a kill by PSWAP, and by a reset of the partition's virtual function (spec/19 R352, R358, spec/22 R398, R400). -/

namespace Sys2Proof.Machine

/-! ### Threads that wait for PSWAP (R352) -/

/-- A thread that waits for what `why` names waits no longer. -/
def Thread.woken (why : WaitReason → Bool) (t : Thread) : Thread :=
  match t.wait with
  | some r => if why r then { t with wait := none } else t
  | none => t

theorem Thread.woken_woken (why : WaitReason → Bool) (t : Thread) : (t.woken why).woken why = t.woken why := by
  cases waits : t.wait with
  | none => simp [Thread.woken, waits]
  | some r => cases named : why r <;> simp [Thread.woken, waits, named]

theorem Thread.woken_pswap (t : Thread) : t.woken (· == .pswap) = if t.wait = some .pswap then { t with wait := none } else t := by
  cases waits : t.wait with
  | none => simp [Thread.woken, waits]
  | some r => by_cases named : r = .pswap <;> simp [Thread.woken, waits, named]

theorem wakeAll_eq (why : WaitReason → Bool) (s : State) : ∃ th parked, wakeAll why s = { s with th := th, parked := parked } :=
  ⟨_, _, s.mapThreads_eq s.liveKeys (Thread.woken why)⟩

theorem thread_wakeAll (why : WaitReason → Bool) (s : State) (k : Nat) :
    (wakeAll why s).thread k = if (s.thread k).live = true then (s.thread k).woken why else s.thread k := by
  have listed : (wakeAll why s).thread k = (Thread.woken why)^[s.liveKeys.count k] (s.thread k) := s.thread_mapThreads ..
  rw [listed]
  split
  · next live =>
    obtain ⟨n, more⟩ := Nat.exists_eq_add_of_lt (List.count_pos_iff.mpr (State.mem_liveKeys.mpr live))
    rw [more, Nat.zero_add, Function.iterate_succ_apply]
    exact Function.iterate_fixed (Thread.woken_woken why _) n
  · next dead => rw [List.count_eq_zero_of_not_mem fun h => dead (State.mem_liveKeys.mp h), Function.iterate_zero, id]

/-! ### A kill by PSWAP (R352, R358) -/

/-- An operation of PSWAP on partition `p` has had its effect. -/
def pswapRan (p : Nat) (s : State) : State := { s with dies := s.dies.set (p / 8) { s.die (p / 8) with ran := true } }

theorem execPswapKill_due {s : State} {p : Nat} (due : s.Due 5 p) : exec (.pswapKill p) s = .next (pswapRan p (killPart true p s)) := by
  obtain ⟨inside, busy, ran, op, part⟩ := due
  have now : pswapDue 5 p s = true := by simp [pswapDue, Die.busy, inside, busy, ran, op, part]
  exact if_pos now

/-! ### A reset of a virtual function (R398, R400) -/

theorem dropCopies_eq (p : Nat) (s : State) : ∃ dies frames, dropCopies p s = { s with dies := dies, frames := frames } := ⟨_, _, rfl⟩

theorem shadow_dropCopies (p : Nat) (s : State) : ∀ x, ((dropCopies p s).die (p / 8)).shadow = some x → x.part ≠ p := by
  intro x held
  rw [State.die, dropCopies, Table.get_set_same] at held
  dsimp only at held
  split at held
  · cases held
  · next other =>
    intro own
    rw [held] at other
    simp [own] at other

/-- The tile queue of partition `p`'s function gets its reset values. -/
def resetQueue (p : Nat) (s : State) : State := { s with tqs := s.tqs.set (16 + p) TileQ.reset }

/-- What follows the kill of the partition in a reset of its function. -/
def afterFlr (p : Nat) (s : State) : State := wakeAll (· == .pswap) (resetQueue p s)

theorem flrPart_eq (p : Nat) (s : State) : flrPart p s = afterFlr p (killPart false p (dropCopies p s)) := rfl

theorem afterFlr_eq (p : Nat) (s : State) : ∃ th parked, afterFlr p s = { s with
    tqs := s.tqs.set (16 + p) TileQ.reset, th := th, parked := parked } := wakeAll_eq _ (resetQueue p s)

theorem thread_afterFlr (p : Nat) (s : State) (k : Nat) :
    (afterFlr p s).thread k = if (s.thread k).live = true then (s.thread k).woken (· == .pswap) else s.thread k :=
  thread_wakeAll _ (resetQueue p s) k

theorem tq_afterFlr (p : Nat) (s : State) (k : Nat) : (afterFlr p s).tq k = if k = 16 + p then TileQ.reset else s.tq k := by
  obtain ⟨_, _, eq⟩ := afterFlr_eq p s
  rw [eq]
  exact State.tq_set ..

theorem execFlrVf_inside {p : Nat} (h : p < 16) (s : State) : exec (.flrVf (p + 1)) s =
    .next (afterFlr p (killPart false p (dropCopies p s))) := by
  rw [← flrPart_eq]
  exact if_pos ⟨by omega, by omega⟩

theorem execFlrVf_outside {n : Nat} (h : n = 0 ∨ 16 < n) (s : State) : exec (.flrVf n) s = .next s := if_neg (by omega)

/-- What a kill in a reset of the function leaves, the reset leaves. -/
theorem Killed.contextGone_afterFlr {p : Nat} {s k : State} (h : Killed p s k) : ContextGone s (afterFlr p k) p := by
  obtain ⟨threads, part, cores, clusters, queues, loops, marks⟩ := h.gone
  have thread := thread_afterFlr p k
  have tq := tq_afterFlr p k (4 + p % 4)
  obtain ⟨_, _, eq⟩ := afterFlr_eq p k
  generalize afterFlr p k = u at *
  refine ⟨fun j hj => ?_, ?_, ?_, ?_, ?_, ?_, ?_⟩
  · rw [thread, if_neg (by rw [threads j hj]; exact Bool.false_ne_true)]
    exact threads j hj
  · rw [eq]; exact part
  · rw [eq]; exact cores
  · rw [eq]; exact clusters
  · rw [eq]; exact queues
  · rw [eq]; exact loops
  · rw [tq, if_neg (by omega)]
    exact marks

/-- A kill of partition `p` by PSWAP leaves all this (R352, R358). -/
theorem pswapRan_spec {p : Nat} {s k : State} (h : Killed p s k) : ContextGone s (pswapRan p k) p ∧
    (∀ j, (s.thread j).live = true → (s.thread j).part ≠ p → (pswapRan p k).thread j = s.thread j) ∧
    (pswapRan p k).die (p / 8) = { s.die (p / 8) with ran := true } := by
  refine ⟨h.gone, h.others, ?_⟩
  have here : k.die (p / 8) = s.die (p / 8) := by unfold State.die; rw [h.dies]
  rw [← here]
  exact Table.get_set_same ..

/-- A reset of the function leaves all this, of whose copies the card has let go (R398, R400). -/
theorem afterFlr_spec {p : Nat} {s t k : State} (copies : ∃ dies frames, t = { s with dies := dies, frames := frames }) (h : Killed p t k) :
    ContextGone s (afterFlr p k) p ∧ (afterFlr p k).plat = s.plat ∧
    (∀ j, (s.thread j).live = true → (s.thread j).part ≠ p →
      (afterFlr p k).thread j = if (s.thread j).wait = some .pswap then { s.thread j with wait := none } else s.thread j) ∧
    (afterFlr p k).tq (16 + p) = TileQ.reset ∧ (afterFlr p k).loops = s.loops.filter (fun l => l.part != p) ∧
    (afterFlr p k).dies = t.dies := by
  have gone := h.contextGone_afterFlr
  have plat := h.plat
  have loops := h.loops
  have dies := h.dies
  have others := h.others
  have thread := thread_afterFlr p k
  have queue := tq_afterFlr p k (16 + p)
  obtain ⟨_, _, eq⟩ := afterFlr_eq p k
  generalize afterFlr p k = u at *
  obtain ⟨_, _, rfl⟩ := copies
  refine ⟨gone, ?_, fun j live other => ?_, ?_, ?_, ?_⟩
  · rw [eq]; exact plat
  · have same : k.thread j = s.thread j := others j live other
    rw [thread, same, if_pos live, Thread.woken_pswap]
  · rw [queue, if_pos rfl]
  · rw [eq]; exact loops
  · rw [eq]; exact dies

/-- Where the partition's engines are idle, nothing else changes but the marks of its loops' queue. -/
theorem afterFlr_of_enginesIdle {p : Nat} {s k : State} (stay : OthersStay s k p)
    (tqs : ∀ j, k.tq j = { s.tq j with marks := (s.tq j).marks.map (killedMark p j) }) :
    OthersStay s (afterFlr p k) p ∧ ∀ j, j ≠ 16 + p → (afterFlr p k).tq j = { s.tq j with marks := (s.tq j).marks.map (killedMark p j) } := by
  refine ⟨?_, fun j other => ?_⟩
  · obtain ⟨_, _, eq⟩ := afterFlr_eq p k
    rw [eq]
    exact stay
  · rw [tq_afterFlr, if_neg other, tqs]

/-! ### One tile instruction that runs alone -/

theorem RunsOnly.of_decs {p d : Nat} {r : TileRun} {s t : State} (h : RunsOnly p d r s) (decs : t.decs = s.decs) : RunsOnly p d r t := by
  obtain ⟨⟨queue, runs⟩, own⟩ := h
  exact ⟨⟨queue, decs.trans runs⟩, own⟩

/-- By PSWAP it leaves a record with STATE 4, and no other byte of memory changes (R358). -/
theorem killPart_recorded {p d : Nat} {r : TileRun} {s : State} (only : RunsOnly p d r s) (job : r.job.Plain s) (plain : PlainMem s)
    (colls : s.colls = []) (zjobs : s.zjobs = []) (record : InHbm r.job.crec 32)
    (bare : (r.softDescs (r.job.who (unitCluster (d / 256) (d % 256))) s).descs = [])
    (chans : ∀ n < 16, (s.chan p n).st ≠ .running) :
    (killPart true p s).mem = s.mem.writeLE r.job.crec.toNat (completionWord 4 0 0 0 0 r.done) 32 ∧
      ((killPart true p s).dec d).running = [] := by
  obtain ⟨-, -, coherent, updates, -, settled⟩ := id plain
  have migs : (s.part p).migs = [] := Table.get_of_forall (P := fun q : Partition => q.migs = []) settled rfl p
  obtain ⟨tqs, begun⟩ := killLoops_eq p s
  obtain ⟨decs, tqs', msix, tiles, left⟩ := killTiles_recorded (s := killLoops p s) (only.of_decs (by rw [begun]))
    (by rw [begun]; exact job) (by rw [begun]; exact plain) (by rw [begun]; exact colls) (by rw [begun]; exact zjobs) record
    (softDescs_none bare _ _)
  obtain ⟨mem, held⟩ := killPart_of_tiles coherent updates ⟨tqs', msix, tiles⟩ chans colls zjobs migs
  refine ⟨?_, ?_⟩
  · rw [mem, begun]
  · rw [State.dec, held]
    exact left

/-- By a reset of the function it leaves nothing at all (R400). -/
theorem killPart_unrecorded {p d : Nat} {r : TileRun} {s : State} (hc : s.coherent = true) (hu : NoUpdates s) (only : RunsOnly p d r s)
    (colls : s.colls = []) (zjobs : s.zjobs = []) (bare : (r.softDescs (r.job.who (unitCluster (d / 256) (d % 256))) s).descs = [])
    (chans : ∀ n < 16, (s.chan p n).st ≠ .running) (migs : (s.part p).migs = []) :
    (killPart false p s).mem = s.mem ∧ ((killPart false p s).dec d).running = [] := by
  obtain ⟨tqs, begun⟩ := killLoops_eq p s
  obtain ⟨decs, tiles, left⟩ := killTiles_unrecorded (s := killLoops p s) (only.of_decs (by rw [begun])) (softDescs_none bare _ _)
  obtain ⟨mem, held⟩ := killPart_of_tiles hc hu (mem := s.mem) ⟨(killLoops p s).tqs, (killLoops p s).msix, tiles.trans (by rw [begun])⟩
    chans colls zjobs migs
  refine ⟨mem, ?_⟩
  rw [State.dec, held]
  exact left

theorem recordOf_lt (done : Nat) : recordOf 4 0 0 0 (done % 2 ^ 64) < 2 ^ (8 * 32) := by
  unfold recordOf
  have := Nat.mod_lt done (show 0 < 2 ^ 64 by decide)
  omega

/-- Settles O52, for both kinds of kill by one lemma on the stages they share. -/
theorem partitionKill : Obligations.PartitionKill := by
  unfold Obligations.PartitionKill
  intro p s hp hc hu hm
  extract_lets y others
  have copies := dropCopies_eq p s
  have shadow := shadow_dropCopies p s
  have reset := execFlrVf_inside hp s
  have same : (dropCopies p s).coherent = true ∧ NoUpdates (dropCopies p s) := by
    obtain ⟨_, _, eq⟩ := copies
    rw [eq]
    exact ⟨hc, hu⟩
  refine ⟨fun due => ?_, ?_, fun n hn => execFlrVf_outside hn s, ?_⟩
  · obtain ⟨gone, threads, ran⟩ := pswapRan_spec (killed_killPart hc hu true p)
    refine ⟨_, execPswapKill_due due, gone, threads, ran, fun idle => ?_⟩
    have stay := (killPart_of_enginesIdle hc hu idle true).1
    generalize killPart true p s = k at stay
    exact stay
  · obtain ⟨gone, plat, threads, queue, loops, dies⟩ := afterFlr_spec copies (killed_killPart same.1 same.2 false p)
    refine ⟨_, reset, gone, plat, threads, queue, loops, ?_, fun idle => ?_⟩
    · rw [State.die, dies]
      exact shadow
    · have idle' : (dropCopies p s).EnginesIdle p := by
        obtain ⟨_, _, eq⟩ := copies
        rw [eq]
        exact idle
      have ⟨stay, tqs⟩ := killPart_of_enginesIdle same.1 same.2 idle' false
      generalize killPart false p (dropCopies p s) = k at *
      obtain ⟨_, _, eq⟩ := copies
      rw [eq] at stay tqs
      exact afterFlr_of_enginesIdle stay tqs
  · intro d x r decs running own job plain record lost leaves bare chans colls zjobs
    have only : RunsOnly p d r s := ⟨⟨x.queue, by rw [decs, ← running]⟩, own⟩
    refine ⟨fun due => ⟨_, execPswapKill_due due, ?_⟩, _, reset, ?_⟩
    · obtain ⟨mem, left⟩ := killPart_recorded only job plain colls zjobs record bare chans
      generalize killPart true p s = k at *
      have stored : (pswapRan p k).mem = s.mem.writeLE r.job.crec.toNat (completionWord 4 0 0 0 0 r.done) 32 := mem
      refine ⟨left, ?_, fun a apart => ?_⟩
      · rw [stored, Mem.readLE_writeLE _ _ hm, completionWord_killed, Nat.mod_eq_of_lt (recordOf_lt r.done)]
      · rw [stored]
        exact Mem.read_writeLE_outside _ _ hm 32 (apart _ List.mem_cons_self)
    · obtain ⟨-, -, -, -, -, settled⟩ := plain
      have migs : (s.part p).migs = [] := Table.get_of_forall (P := fun q : Partition => q.migs = []) settled rfl p
      have killed : (killPart false p (dropCopies p s)).mem = s.mem ∧ ((killPart false p (dropCopies p s)).dec d).running = [] := by
        obtain ⟨_, _, eq⟩ := copies
        rw [eq] at same ⊢
        exact killPart_unrecorded same.1 same.2 (only.of_decs rfl) colls zjobs (softDescs_none bare _ _) chans migs
      generalize killPart false p (dropCopies p s) = k at *
      obtain ⟨mem, left⟩ := killed
      obtain ⟨_, _, eq⟩ := afterFlr_eq p k
      rw [eq]
      exact ⟨left, mem⟩

end Sys2Proof.Machine
end

section
/-! SUPPORT. What a thread's access and its acquires leave alone whatever update lines stand: the selected thread and the jobs of Zinnia
(spec/03 R57, R60, R65, R89). -/

namespace Sys2Proof.Machine

/-! ### What storage work leaves alone -/

/-- From `s` to `t` the selected thread stands as it did, and Zinnia has the same jobs. -/
structure SparesThread (s t : State) : Prop where
  th : t.th = s.th
  cur : t.cur = s.cur
  zjobs : t.zjobs = s.zjobs

theorem SparesThread.refl (s : State) : SparesThread s s := ⟨rfl, rfl, rfl⟩

theorem SparesThread.trans {s t u : State} (h : SparesThread s t) (g : SparesThread t u) : SparesThread s u :=
  ⟨g.th.trans h.th, g.cur.trans h.cur, g.zjobs.trans h.zjobs⟩

theorem SparesThread.foldl {α : Type} {f : State → α → State} (hf : ∀ s a, SparesThread s (f s a)) (l : List α) (s : State) :
    SparesThread s (l.foldl f s) := by
  induction l generalizing s with
  | nil => exact .refl s
  | cons a l ih => exact (hf s a).trans (ih (f s a))

theorem SparesThread.ite {c : Prop} [Decidable c] {s t u : State} (ht : SparesThread s t) (hu : SparesThread s u) :
    SparesThread s (if c then t else u) := by
  split
  · exact ht
  · exact hu

theorem SparesThread.canRelease {s t : State} (h : SparesThread s t) (free : CanRelease s) : CanRelease t := by
  unfold CanRelease
  rw [h.zjobs, h.cur]
  exact free

theorem SparesThread.readable {s t : State} (h : SparesThread s t) {r : BitVec 6} (hr : s.th.readable r = true) :
    t.th.readable r = true := by rw [h.th]; exact hr

theorem SparesThread.reads {s t : State} (h : SparesThread s t) {l : List (BitVec 6)} (hr : Reads s l) : Reads t l := by
  unfold Reads
  rw [h.th]
  exact hr

/-! ### Storage (R60, R89, R401) -/

theorem sparesThread_tick (s : State) : SparesThread s s.tick := ⟨rfl, rfl, rfl⟩

theorem sparesThread_wrMem (s : State) (pa v n : Nat) : SparesThread s (s.wrMem pa v n) := ⟨rfl, rfl, rfl⟩

theorem sparesThread_setFabric (s : State) (l : List Nat) : SparesThread s { s with fabric := l } := ⟨rfl, rfl, rfl⟩

theorem sparesThread_setPart (s : State) (p : Nat) (q : Partition) : SparesThread s (s.setPart p q) := ⟨rfl, rfl, rfl⟩

theorem sparesThread_sendOut (pa n : Nat) (s : State) : SparesThread s (sendOut pa n s) := .ite ⟨rfl, rfl, rfl⟩ (.refl s)

theorem sparesThread_wordHome (s : State) (u : Nat) (l : Late) : SparesThread s (s.wordHome u l) := by
  unfold State.wordHome
  extract_lets t
  have gone : SparesThread s t := ⟨rfl, rfl, rfl⟩
  exact .ite (gone.trans ⟨rfl, rfl, rfl⟩) (gone.trans (.foldl (fun s r => sparesThread_sendOut _ _ s) _ t))

theorem sparesThread_settle (s : State) (pa n : Nat) : SparesThread s (s.settle pa n) := by
  have homed := SparesThread.foldl (fun s (e : Nat × Late) => sparesThread_wordHome s e.1 e.2)
    (s.late.filter fun e => touchesWord pa n e.1) s
  exact .ite (.refl s) (homed.trans ⟨rfl, rfl, rfl⟩)

theorem sparesThread_spoilBuffer (l : List (Nat × Nat)) (s : State) : SparesThread s (spoilBuffer l s) := by
  refine .foldl (fun s r => (sparesThread_settle s r.1 r.2).trans (.foldl (fun s k => ?_) _ _)) l s
  exact (sparesThread_tick s).trans (sparesThread_wrMem s.tick _ _ _)

theorem sparesThread_spoilUnseen (pa n : Nat) (s : State) : SparesThread s (spoilUnseen pa n s) := by
  unfold spoilUnseen
  split
  · exact .refl s
  · exact .foldl (fun s _ => .foldl (fun s b => sparesThread_spoilBuffer b s) _ s) _ s

theorem sparesThread_putBytes (s : State) (pa n v : Nat) : SparesThread s (s.putBytes pa n v) := by
  unfold State.putBytes
  refine SparesThread.trans ?_ (sparesThread_spoilUnseen pa n _)
  exact ⟨rfl, rfl, rfl⟩

theorem sparesThread_putHome (s : State) (pa n v : Nat) : SparesThread s (putHome s pa n v) :=
  .ite (.refl s) (((sparesThread_settle s pa n).trans (sparesThread_putBytes _ pa n v)).trans (sparesThread_sendOut pa n _))

theorem sparesThread_putUnder (s : State) (u : Nat) (f : Word → Word) : SparesThread s (s.putUnder u f) := by
  unfold State.putUnder
  split
  · exact sparesThread_putHome s _ _ _
  · split
    · exact .refl s
    · exact (sparesThread_putBytes s _ _ _).trans ⟨rfl, rfl, rfl⟩

theorem sparesThread_logError (code addr : Nat) (part : Option Nat) (unit : Nat) (s : State) :
    SparesThread s (logError code addr part unit s) := by
  unfold logError
  dsimp only
  split <;> exact ⟨rfl, rfl, rfl⟩

/-! ### Lines of other devices (R52, R59) -/

theorem sparesThread_bringIn (s : State) (g : Nat) : SparesThread s (bringIn s g) := by
  unfold bringIn
  split
  · exact .refl s
  · exact ((sparesThread_tick s).trans (sparesThread_wrMem s.tick _ _ _)).trans (sparesThread_setFabric _ _)

theorem sparesThread_arriveBad (s : State) (g : Nat) : SparesThread s (arriveBad s g) := by
  rw [arriveBad_eq]
  exact ⟨rfl, rfl, rfl⟩

theorem sparesThread_fillGranule (s : State) (g : Nat) : SparesThread s (fillGranule s g) := by
  have brought := sparesThread_bringIn s g
  unfold fillGranule
  split
  · exact .refl s
  · exact .ite (brought.trans (sparesThread_arriveBad _ g)) brought

theorem sparesThread_freshen (pa n : Nat) (s : State) : SparesThread s (freshen pa n s) := by
  have settled := SparesThread.foldl (fun s g => sparesThread_settle s (32 * g) 32) (granulesOf pa n) s
  have dropped (t : State) : SparesThread t (dropGranules (granulesOf pa n) t) := ⟨rfl, rfl, rfl⟩
  exact .ite ((settled.trans (dropped _)).trans (.foldl sparesThread_fillGranule _ _)) (.refl s)

/-! ### Update lines (R64, R65) -/

theorem sparesThread_mergeLine (s : State) (u : UpdLine) : SparesThread s (mergeLine s u) := by
  refine .foldl (fun s e => ?_) _ s
  have fresh := sparesThread_freshen (u.line * 128 + e.1) u.fmt.bytes s
  dsimp only
  generalize freshen (u.line * 128 + e.1) u.fmt.bytes s = t at *
  obtain ⟨v, free, left⟩ := mergeElem (t.rdHome (u.line * 128 + e.1) u.fmt.bytes) t.free u.fmt e.2
  have put := fresh.trans (sparesThread_putHome t (u.line * 128 + e.1) u.fmt.bytes v)
  have counted : SparesThread s { putHome t (u.line * 128 + e.1) u.fmt.bytes v with free := free } := put.trans ⟨rfl, rfl, rfl⟩
  exact .ite (counted.trans (sparesThread_logError ..)) counted

theorem sparesThread_recallLine (s : State) (line : Nat) : SparesThread s (recallLine s line) := by
  unfold recallLine
  split
  · exact .refl s
  · refine SparesThread.trans ?_ (.foldl (fun s f => sparesThread_mergeLine s _) _ _)
    refine .foldl (fun s e => ?_) _ s
    exact ⟨rfl, rfl, rfl⟩

theorem sparesThread_recallRange (s : State) (pa n : Nat) : SparesThread s (recallRange s pa n) :=
  .foldl (fun s _ => sparesThread_recallLine s _) _ s

theorem sparesThread_recallWalk (va l table : Nat) (s : State) : SparesThread s (recallWalk va l table s) := by
  induction l generalizing table s with
  | zero => exact .refl s
  | succ l ih =>
    have recalled := sparesThread_recallRange s (table + va / 2 ^ (12 + 9 * l) % 512 * 8) 8
    exact .ite (recalled.trans (ih _ _)) recalled

theorem sparesThread_atHome (s : State) (pa n : Nat) : SparesThread s (s.atHome pa n).1 :=
  ((sparesThread_recallRange s pa n).trans (sparesThread_settle _ pa n)).trans (sparesThread_freshen pa n _)

/-! ### Acquires (R60, R80) -/

theorem sparesThread_leaveCopies (c u : Nat) (old : Word) (except : List Nat) (s : State) :
    SparesThread s (leaveCopies c u old except s) := by
  refine .foldl (fun s d => .ite (.refl s) (.ite ?_ ?_)) _ s
  · exact ⟨rfl, rfl, rfl⟩
  · exact ⟨rfl, rfl, rfl⟩

theorem sparesThread_giveUp (d : Nat) (gs : List Nat) (s : State) : SparesThread s (giveUp d gs s) :=
  ((SparesThread.foldl (fun s (e : Nat × Late) => sparesThread_wordHome s e.1 e.2) _ s).trans
    (.foldl (fun s u => sparesThread_leaveCopies d u _ [] s) _ _)).trans ⟨rfl, rfl, rfl⟩

theorem sparesThread_dropCopiesOf (cov : Nat → Bool) (d : Nat) (s : State) : SparesThread s (dropCopiesOf cov d s) := by
  unfold dropCopiesOf
  split
  · exact .refl s
  · exact ⟨rfl, rfl, rfl⟩

theorem sparesThread_dropIdleOf (cov : Nat → Bool) (d sc : Nat) (s : State) : SparesThread s (dropIdleOf cov d sc s) := by
  unfold dropIdleOf
  split
  · exact .refl s
  · exact .ite (.refl s) ((sparesThread_giveUp d _ s).trans ⟨rfl, rfl, rfl⟩)

theorem sparesThread_acquireLines (cov : Nat → Bool) (d sc : Nat) (s : State) : SparesThread s (acquireLines cov d sc s) := by
  rw [acquireLines_eq]
  exact .ite (.refl s) ((sparesThread_dropCopiesOf cov d s).trans (sparesThread_dropIdleOf cov d sc _))

/-! ### Where an access goes (R54 to R57) -/

/-- A part of a word that, where it answers, spares the selected thread. -/
def Spares {α : Type} (m : M α) : Prop := ∀ s t a, m s = .ok a t → SparesThread s t

theorem spares_pure {α : Type} (a : α) : Spares (pure a : M α) := fun s _ _ h => by
  cases h
  exact .refl s

theorem spares_throw {α : Type} (e : Stop) : Spares (throw e : M α) := fun _ _ _ h => nomatch h

theorem spares_get : Spares (get : M State) := fun s _ _ h => by
  cases h
  exact .refl s

theorem spares_modify {f : State → State} (hf : ∀ s, SparesThread s (f s)) : Spares (modify f : M Unit) := fun s _ _ h => by
  cases h
  exact hf s

theorem Spares.bind {α β : Type} {x : M α} {f : α → M β} (hx : Spares x) (hf : ∀ a, Spares (f a)) : Spares (x >>= f) := fun s t b h => by
  obtain ⟨a, u, first, rest⟩ := M.bind_ok_inv h
  exact (hx s u a first).trans (hf a u t b rest)

theorem Spares.ite {α : Type} {c : Prop} [Decidable c] {x y : M α} (hx : Spares x) (hy : Spares y) : Spares (if c then x else y) := by
  split
  · exact hx
  · exact hy

theorem spares_raiseIf (b : Bool) (c : Nat) (x : Word) : Spares (raiseIf b c x) := .ite (spares_throw _) (spares_pure ())

theorem spares_raiseFirst (l : List (Bool × Nat)) (x : Word) : Spares (raiseFirst l x) := by
  unfold raiseFirst
  split
  · exact spares_throw _
  · exact spares_pure ()

theorem spares_translate (w : Who) (need : Need) (ea : Word) : Spares (translate w need ea) := by
  have checked (e : TlbEntry) (b : Bool) (c : Nat) (x : Xlat) : Spares (do raiseIf b c ea; return x : M Xlat) :=
    (spares_raiseIf _ _ _).bind fun _ => spares_pure x
  unfold translate
  refine spares_get.bind fun s => .ite ?_ (.ite (spares_pure _) (.ite ?_ ?_))
  · exact (spares_raiseIf _ _ _).bind fun _ => .ite (spares_pure _) (spares_pure _)
  · exact .ite (spares_throw _) (.ite (spares_pure _) (spares_pure _))
  · cases tlbFind (s.part w.part) ea.toNat with
    | some e => exact (spares_pure e).bind fun e => checked e _ _ _
    | none =>
      cases walkFrom s ea.toNat 5 (bits (s.part w.part).ptroot.toNat 51 12 * 4096) with
      | fail c at_ => exact Spares.bind (spares_throw _) fun e => checked e _ _ _
      | miss l n => exact Spares.bind (spares_throw _) fun e => checked e _ _ _
      | leaf pte at_ l =>
        refine Spares.bind (spares_modify fun s => ?_) fun _ => (spares_pure _).bind fun e => checked e _ _ _
        exact SparesThread.trans (.ite (sparesThread_recallWalk _ _ _ s) (.refl s)) (sparesThread_setPart _ _ _)

theorem spares_needHeld (pa n : Nat) : Spares (needHeld pa n) := by
  unfold needHeld
  exact spares_get.bind fun s => .ite (spares_throw _) (spares_pure ())

theorem spares_holdForLoads (w : Who) (acc : Nat) (pl : Place) (n : Nat) : Spares (holdForLoads w acc pl n) := by
  unfold holdForLoads
  exact spares_get.bind fun s => .ite (spares_throw _) (.ite (spares_throw _) (spares_pure ()))

theorem spares_holdForZenc (w : Who) (pa n : Nat) : Spares (holdForZenc w pa n) := by
  unfold holdForZenc
  exact spares_get.bind fun s => .ite (spares_throw _) (spares_pure ())

theorem spares_setAccessed (w : Who) (need : Need) (x : Xlat) : Spares (setAccessed w need x) := by
  unfold setAccessed
  split
  · exact spares_pure ()
  · refine .ite (spares_modify fun s => ?_) (spares_pure ())
    dsimp only
    exact ((sparesThread_recallRange s _ _).trans (sparesThread_putUnder _ _ _)).trans (sparesThread_setPart _ _ _)

theorem spares_locateX (w : Who) (need : Need) (acc al : Nat) (ea : Word) (n : Nat) (x : Xlat) : Spares (locateX w need acc al ea n x) := by
  unfold locateX
  refine spares_get.bind fun s => ?_
  extract_lets pl viewWrite gone placed settled held found
  clear_value viewWrite gone pl
  have placed' (u : Unit) : Spares (placed u) := (spares_setAccessed w need x).bind fun _ => spares_pure _
  have settled' (u : Unit) : Spares (settled u) := by
    apply Spares.bind (spares_holdForZenc _ _ _)
    intro _
    split
    · exact .ite (Spares.bind (spares_modify fun s => sparesThread_settle s _ _) placed') (placed' ())
    · exact placed' ()
  have held' (u : Unit) : Spares (held u) := .ite ((spares_holdForLoads w acc pl n).bind settled') (settled' ())
  have found' (u : Unit) : Spares (found u) := by
    apply Spares.bind (spares_raiseFirst _ _)
    intro _
    split
    · exact (spares_needHeld _ _).bind held'
    · exact (spares_needHeld _ _).bind held'
    · exact held' ()
  split
  · exact (spares_raiseIf _ _ _).bind found'
  · exact found' ()

theorem spares_locate (w : Who) (need : Need) (acc al : Nat) (ea : Word) (n : Nat) : Spares (locate w need acc al ea n) :=
  (spares_translate w need ea).bind fun _ => spares_locateX _ _ _ _ _ _ _

/-- An access that lands spares the selected thread. -/
theorem Lands.spares {s s1 : State} {need : Need} {acc al n pa : Nat} {ea : Word} {via : Option Nat}
    (h : Lands s need acc al ea n pa via s1) : SparesThread s s1 := spares_locate _ _ _ _ _ _ _ _ _ h.1

end Sys2Proof.Machine
end

section
/-! SUPPORT. Reads and writes at the home of a line, with the acquires and releases of a guard (spec/03 R59, spec/04 R76, R81, R85, R89,
spec/07 R173 to R178, R182): what settles O11 and O12. -/

namespace Sys2Proof.Machine

/-! ### Acquires and releases (R76, R81, R89) -/

theorem M.run_acquireGuard (g : Word) (s : State) : acquireGuard g s = .ok () (s.acquiredGuard g) := rfl

theorem M.run_acquireDefault (sc : Nat) (s : State) : acquireDefault sc s = .ok () (s.acquiredDefault sc) := rfl

/-- A release waits for nothing where no ZENC of the thread runs (R284). -/
theorem M.run_releaseBy {s : State} (free : CanRelease s) (wb cov : Nat → Bool) (sc : Nat) :
    releaseBy wb cov sc s = .ok () (s.released wb cov sc) := by
  have none_ : (s.zjobs.any fun j => j.key == s.cur) = false := List.any_eq_false.mpr fun j hj hk => free j hj (beq_iff_eq.mp hk)
  simp only [releaseBy, M.run_bind, M.run_get, none_, Bool.false_eq_true, if_false, M.run_set, State.released]

theorem M.run_releaseGuard {s : State} (free : CanRelease s) (g : Word) : releaseGuard g s = .ok () (s.releasedGuard g) := by
  unfold releaseGuard
  rw [M.run_bind_ok (M.run_get s)]
  exact M.run_releaseBy free ..

theorem M.run_releaseDefault {s : State} (free : CanRelease s) (sc : Nat) : releaseDefault sc s = .ok () (s.releasedDefault sc) := by
  unfold releaseDefault
  rw [M.run_bind_ok (M.run_get s)]
  exact M.run_releaseBy free ..

/-- A read of a nonzero STATE is an observation of the collectives that end there; with none unobserved it is nothing. -/
theorem M.run_observe (ea : Word) (v : Nat) (s : State) : observe ea v s = .ok () (s.observed ea v) := by
  unfold observe State.observed
  rw [M.run_modify]
  congr 1
  split
  · next none_ =>
    split
    · rfl
    · rw [none_, List.filter_nil, ← none_]
  · rfl

/-! ### Operands checked at the access -/

theorem SparesThread.cleanS {s t : State} (h : SparesThread s t) {r : BitVec 6} (hr : s.th.readable r = true) : cleanS r t = .ok () t :=
  M.run_cleanS (h.readable hr)

theorem SparesThread.cleanEA {s t : State} (h : SparesThread s t) {f : Fields} (hr : Reads s (regsAB f)) : cleanEA f t = .ok () t :=
  M.run_cleanEA (h.reads hr)

/-- A check that finds nothing, and another after it. -/
theorem M.run_both {x y : M Unit} {s : State} (hx : x s = .ok () s) (hy : y s = .ok () s) : (do x; y : M Unit) s = .ok () s :=
  (M.run_bind_ok hx).trans hy

/-! ### Accesses at the home (R59, R85) -/

theorem Lands.checkWatermark {s s1 : State} {need : Need} {acc al n pa : Nat} {ea : Word} {via : Option Nat}
    (h : Lands s need acc al ea n pa via s1) : checkWatermark s.th.who (.cell pa via) n s1 = .ok () s1 := by
  have clear : watermarkStall s1 s.th.who (Place.cell pa via).pa n = none := h.2
  simp only [Machine.checkWatermark, M.run_bind, M.run_get, clear, M.run_pure]

theorem ReachesHome.readHome {s s1 : State} {need : Need} {acc al n pa : Nat} {ea : Word} {via : Option Nat}
    (h : ReachesHome s need acc al ea n pa via s1) : readHome acc ea n (.cell pa via) s1 = .ok (s1.atHome pa n).2 (s1.atHome pa n).1 := by
  have clean := h.2
  unfold State.atHome at clean ⊢
  simp only [Machine.readHome, M.run_bind, M.run_modify, M.run_get, clean, M.run_pure]

/-- The read of an ACQ or a WAIT. -/
theorem ReachesHome.loadHome {s s1 : State} {acc al n pa : Nat} {ea : Word} {via : Option Nat}
    (h : ReachesHome s .load acc al ea n pa via s1) {d : M Unit} (hd : d s1 = .ok () s1) :
    loadHome s.th.who acc al ea n d s = .ok (s1.atHome pa n).2 (s1.atHome pa n).1 := by
  unfold Machine.loadHome
  rw [M.run_bind_ok h.1.1, M.run_checked_clean hd, M.run_bind_ok h.1.checkWatermark, h.readHome]

/-- The write of a REL, after its release. -/
theorem Lands.storeHome {s s1 t : State} {acc al n pa : Nat} {ea : Word} {via : Option Nat} (h : Lands s .store acc al ea n pa via s1)
    {d rel : M Unit} (hd : d s1 = .ok () s1) (hr : rel s1 = .ok () t) (v : Nat) :
    storeHome s.th.who acc al ea n v rel d s = .ok () (physWrite t pa n v) := by
  unfold Machine.storeHome
  rw [M.run_bind_ok h.1, M.run_checked_clean hd, M.run_bind_ok h.checkWatermark, M.run_bind_ok hr]
  rfl

/-- The read of an atomic. -/
theorem ReachesHome.checkedRead {s s1 : State} {need : Need} {acc al n pa : Nat} {ea : Word} {via : Option Nat}
    (h : ReachesHome s need acc al ea n pa via s1) {d : M Unit} (hd : d s1 = .ok () s1) : checked d (do
      Machine.checkWatermark s.th.who (.cell pa via) n
      Machine.readHome acc ea n (.cell pa via)) s1 = .ok (s1.atHome pa n).2 (s1.atHome pa n).1 := by
  rw [M.run_checked_clean hd, M.run_bind_ok h.1.checkWatermark, h.readHome]

/-- An atomic that writes acquires after its read and releases before its write (R85). -/
theorem ReachesHome.atomicOp_writes {s s1 t u : State} {acc n pa v : Nat} {ea : Word} {via : Option Nat}
    (h : ReachesHome s .rmw acc n ea n pa via s1) {d acq rel : M Unit} (hd : d s1 = .ok () s1)
    (ha : acq (s1.atHome pa n).1 = .ok () t) (hr : rel t = .ok () u) {f : Nat → Option Nat} (hf : f (s1.atHome pa n).2 = some v) :
    atomicOp s.th.who acc ea n f acq rel d s = .ok (s1.atHome pa n).2 (physWrite u pa n v) := by
  unfold atomicOp
  rw [M.run_bind_ok h.1.1]
  dsimp only
  rw [M.run_bind_ok (h.checkedRead hd), M.run_bind_ok ha, hf]
  simp only [M.run_bind, hr, M.run_modify, M.run_pure]

/-- One that does not write releases nothing. -/
theorem ReachesHome.atomicOp_reads {s s1 t : State} {acc n pa : Nat} {ea : Word} {via : Option Nat}
    (h : ReachesHome s .rmw acc n ea n pa via s1) {d acq rel : M Unit} (hd : d s1 = .ok () s1)
    (ha : acq (s1.atHome pa n).1 = .ok () t) {f : Nat → Option Nat} (hf : f (s1.atHome pa n).2 = none) :
    atomicOp s.th.who acc ea n f acq rel d s = .ok (s1.atHome pa n).2 t := by
  unfold atomicOp
  rw [M.run_bind_ok h.1.1]
  dsimp only
  rw [M.run_bind_ok (h.checkedRead hd), M.run_bind_ok ha, hf]
  rfl

/-! ### Values (R148, R173) -/

theorem packElems_lt (w : Nat) (f : Nat → Nat) (n : Nat) : packElems w f n < 2 ^ (w * n) := by
  induction n with
  | zero => simp [packElems]
  | succ n ih =>
    have top : f n % 2 ^ w + 1 ≤ 2 ^ w := Nat.mod_lt _ (Nat.two_pow_pos w)
    calc packElems w f n + (f n % 2 ^ w) <<< (w * n)
        < 2 ^ (w * n) + f n % 2 ^ w * 2 ^ (w * n) := by rw [Nat.shiftLeft_eq]; omega
      _ = (f n % 2 ^ w + 1) * 2 ^ (w * n) := by ring
      _ ≤ 2 ^ w * 2 ^ (w * n) := Nat.mul_le_mul_right _ top
      _ = 2 ^ (w * (n + 1)) := by rw [← pow_add, Nat.mul_succ, Nat.add_comm]

theorem Mem.readLE_eq_packElems (m : Mem) (a n : Nat) : m.readLE a n = packElems 8 (fun k => (m.read (a + k)).toNat) n := by
  induction n with
  | zero => rfl
  | succ n ih => rw [Mem.readLE, packElems, ih, Nat.mod_eq_of_lt (BitVec.isLt _)]

theorem State.rdHome_lt (s : State) (pa n : Nat) : s.rdHome pa n < 2 ^ (8 * n) := by
  unfold State.rdHome State.rdMem
  split
  · split
    · rw [Mem.readLE_eq_packElems]
      exact packElems_lt ..
    · exact packElems_lt ..
  · exact packElems_lt ..

theorem sInt_eq_toInt (w x : Nat) : sInt w x = (BitVec.ofNat w x).toInt := by
  simp only [sInt, BitVec.toInt, BitVec.toNat_ofNat, Nat.cast_pow, Nat.cast_ofNat]

theorem opd_eq_intOf (w : Nat) (u : Bool) (x : Word) : opd w u x = intOf w u x := by
  cases u
  · rw [opd, intOf, if_neg Bool.false_ne_true, if_neg Bool.false_ne_true, sInt_eq_toInt, BitVec.ofNat_toNat]
  · rw [opd, intOf, if_pos rfl, if_pos rfl, uInt, BitVec.toNat_setWidth]

theorem mod_word_mod {w : Nat} (hw : w ≤ 64) (x : Nat) : x % 2 ^ 64 % 2 ^ w = x % 2 ^ w := Nat.mod_mod_of_dvd x (pow_dvd_pow 2 hw)

theorem setWidth_low {w : Nat} (hw : w ≤ 64) (b : Word) : (BitVec.ofNat 64 (b.toNat % 2 ^ w)).setWidth w = b.setWidth w :=
  BitVec.eq_of_toNat_eq (by simp only [BitVec.toNat_setWidth, BitVec.toNat_ofNat, mod_word_mod hw, Nat.mod_mod])

theorem intOf_low {w : Nat} (hw : w ≤ 64) (u : Bool) (b : Word) : intOf w u (BitVec.ofNat 64 (b.toNat % 2 ^ w)) = intOf w u b := by
  rw [intOf, setWidth_low hw, ← intOf]

/-- The old value as a word puts it in its register: the low bits, extended. -/
theorem extended_eq {w : Nat} (hw : w ≤ 64) (u : Bool) (x : Nat) : (if u then zxWord w x else sxWord w x) =
    if u then ((BitVec.ofNat 64 x).setWidth w).setWidth 64 else low w (BitVec.ofNat 64 x) := by
  have narrowed : (BitVec.ofNat 64 x).setWidth w = BitVec.ofNat w x :=
    BitVec.eq_of_toNat_eq (by simp only [BitVec.toNat_setWidth, BitVec.toNat_ofNat, mod_word_mod hw])
  cases u
  · rw [if_neg Bool.false_ne_true, if_neg Bool.false_ne_true, low, narrowed, sxWord, sInt_eq_toInt, BitVec.signExtend]
    refine BitVec.eq_of_toNat_eq ?_
    rw [toWord, wrap, BitVec.toNat_ofNat, BitVec.toNat_ofInt]
    omega
  · rw [if_pos rfl, if_pos rfl, narrowed, zxWord]
    exact BitVec.eq_of_toNat_eq (by simp only [BitVec.toNat_setWidth, BitVec.toNat_ofNat])

/-- The new value of an AMO is that of Table 8, where the old value has its width (R173). -/
theorem amoNew_eq_atomicValue {w old : Nat} (hw : w ≤ 64) (ho : old < 2 ^ w) (op : Nat) (u : Bool) (b : Word) :
    amoNew op w u old (b.toNat % 2 ^ w) = atomicValue op w u (BitVec.ofNat 64 old) b := by
  have kept : old % 2 ^ 64 = old := Nat.mod_eq_of_lt (ho.trans_le (Nat.pow_le_pow_right (by decide) hw))
  have own : old % 2 ^ w = old := Nat.mod_eq_of_lt ho
  have oldWord : ((BitVec.ofNat 64 old).setWidth w).toNat = old := by rw [BitVec.toNat_setWidth, BitVec.toNat_ofNat, kept, own]
  have newWord : (b.setWidth w).toNat = b.toNat % 2 ^ w := BitVec.toNat_setWidth ..
  unfold amoNew atomicValue
  simp only [opd_eq_intOf, intOf_low hw]
  split_ifs
  · rw [BitVec.toNat_setWidth, BitVec.toNat_add, BitVec.toNat_ofNat, kept, mod_word_mod hw, Nat.add_mod_mod]
  · rw [BitVec.toNat_setWidth, BitVec.toNat_and, BitVec.toNat_ofNat, kept, Nat.and_mod_two_pow, own]
  · rw [BitVec.toNat_setWidth, BitVec.toNat_or, BitVec.toNat_ofNat, kept, Nat.or_mod_two_pow, own]
  · rw [BitVec.toNat_setWidth, BitVec.toNat_xor, BitVec.toNat_ofNat, kept, Nat.xor_mod_two_pow, own]
  all_goals simp only [oldWord, newWord]

/-! ### AMO and CAS (R85, R173, R174) -/

theorem amoWidth_cases (f : Fields) : amoWidth f = 32 ∨ amoWidth f = 64 := by
  unfold amoWidth
  split
  · exact .inl rfl
  · exact .inr rfl

theorem amoWidth_le (f : Fields) : amoWidth f ≤ 64 := by rcases amoWidth_cases f with h | h <;> omega

theorem amoWidth_bytes (f : Fields) : 8 * (amoWidth f / 8) = amoWidth f := by rcases amoWidth_cases f with h | h <;> omega

/-- `.acq`, where the word has it, acquires the word's regions. -/
def State.acquiredIf (b : Bool) (g : Word) (s : State) : State := if b then s.acquiredGuard g else s
/-- `.rel`, where the word has it, releases them. -/
def State.releasedIf (b : Bool) (g : Word) (s : State) : State := if b then s.releasedGuard g else s

theorem M.run_acquiredIf (b : Bool) (g : Word) (s : State) : (if b then acquireGuard g else pure ()) s = .ok () (s.acquiredIf b g) := by
  cases b <;> rfl

theorem M.run_releasedIf {b : Bool} {s : State} (free : b = true → CanRelease s) (g : Word) :
    (if b then releaseGuard g else pure ()) s = .ok () (s.releasedIf b g) := by
  cases b with
  | false => rfl
  | true => exact M.run_releaseGuard (free rfl) g

theorem sparesThread_acquiredIf (b : Bool) (g : Word) (s : State) : SparesThread s (s.acquiredIf b g) :=
  .ite (sparesThread_acquireLines ..) (.refl s)

section
variable {f : Fields} {s s1 : State} {pa : Nat} {via : Option Nat}

/-- What an atomic has found at the home, acquired and, where it writes `v`, released and written. -/
def atomicRead (f : Fields) (s1 : State) (ea : Word) (pa : Nat) : State :=
  (s1.atHome pa (amoWidth f / 8)).1.acquiredIf (f.xm.getLsbD 0) ea
def atomicWrite (f : Fields) (s1 : State) (ea : Word) (pa v : Nat) : State :=
  physWrite ((atomicRead f s1 ea pa).releasedIf (f.xm.getLsbD 1) ea) pa (amoWidth f / 8) v

/-- The release of an atomic that lands waits for nothing. -/
theorem ReachesHome.run_releasedIf (free : f.xm.getLsbD 1 = true → CanRelease s)
    (h : ReachesHome s .rmw 2 (amoWidth f / 8) (s.th.getS f.a) (amoWidth f / 8) pa via s1) :
    (if f.xm.getLsbD 1 then releaseGuard (s.th.getS f.a) else pure ()) (atomicRead f s1 (s.th.getS f.a) pa) =
      .ok () ((atomicRead f s1 (s.th.getS f.a) pa).releasedIf (f.xm.getLsbD 1) (s.th.getS f.a)) :=
  M.run_releasedIf (fun rel => ((h.1.spares.trans (sparesThread_atHome s1 _ _)).trans (sparesThread_acquiredIf _ _ _)).canRelease (free rel)) _

theorem amo_spec (regs : Reads s [f.a, f.b]) (free : f.xm.getLsbD 1 = true → CanRelease s)
    (h : ReachesHome s .rmw 2 (amoWidth f / 8) (s.th.getS f.a) (amoWidth f / 8) pa via s1) :
    let old := (s1.atHome pa (amoWidth f / 8)).2
    exec (.amo f) s = doneWith s ((atomicWrite f s1 (s.th.getS f.a) pa
      (atomicValue f.var.toNat (amoWidth f) f.u (BitVec.ofNat 64 old) (s.th.getS f.b))).put f.d
        (if f.u then ((BitVec.ofNat 64 old).setWidth (amoWidth f)).setWidth 64 else low (amoWidth f) (BitVec.ofNat 64 old))) := by
  intro old
  obtain ⟨live, begun, readable⟩ := regs
  have ra := readable f.a (by simp)
  have rb := readable f.b (by simp)
  have size : old < 2 ^ amoWidth f := by
    have bound := (s1.atHome pa (amoWidth f / 8)).1.rdHome_lt pa (amoWidth f / 8)
    rwa [amoWidth_bytes] at bound
  have ran := ReachesHome.atomicOp_writes h (M.run_both (h.1.spares.cleanS ra) (h.1.spares.cleanS rb)) (M.run_acquiredIf ..) (ReachesHome.run_releasedIf free h)
    (f := fun o => some (amoNew f.var.toNat (amoWidth f) f.u o ((s.th.getS f.b).toNat % 2 ^ amoWidth f))) rfl
  rw [amoNew_eq_atomicValue (amoWidth_le f) size] at ran
  show execAmo f s = _
  unfold execAmo
  refine runWord_ok live ?_
  rw [M.run_bind_ok (M.run_getTh s), M.run_bind_ok (M.run_peekS begun ra), M.run_bind_ok (M.run_peekS begun rb)]
  refine (M.run_bind_ok ran).trans ?_
  rw [M.run_wrS, extended_eq (amoWidth_le f)]
  rfl

/-- What a CAS writes over `o`. -/
def casNew (old new o : Nat) : Option Nat := if o = old then some new else none

theorem cas_spec (regs : Reads s [f.a, f.b]) (regC : Reads s [f.c]) (free : f.xm.getLsbD 1 = true → CanRelease s)
    (h : ReachesHome s .rmw 2 (amoWidth f / 8) (s.th.getS f.a) (amoWidth f / 8) pa via s1) :
    let old := (s1.atHome pa (amoWidth f / 8)).2
    exec (.cas f) s = doneWith s ((if old = (s.th.getS f.b).toNat % 2 ^ amoWidth f
        then atomicWrite f s1 (s.th.getS f.a) pa ((s.th.getS f.c).toNat % 2 ^ amoWidth f)
        else atomicRead f s1 (s.th.getS f.a) pa).put f.d
      (if f.u then ((BitVec.ofNat 64 old).setWidth (amoWidth f)).setWidth 64 else low (amoWidth f) (BitVec.ofNat 64 old))) := by
  intro old
  obtain ⟨live, begun, readable⟩ := regs
  have ra := readable f.a (by simp)
  have rb := readable f.b (by simp)
  have rc := regC.2.2 f.c (by simp)
  have clean := M.run_both (h.1.spares.cleanS ra) (M.run_both (h.1.spares.cleanS rb) (h.1.spares.cleanS rc))
  have acquire := M.run_acquiredIf (f.xm.getLsbD 0) (s.th.getS f.a) (s1.atHome pa (amoWidth f / 8)).1
  show execCas f s = _
  unfold execCas
  refine runWord_ok live ?_
  rw [M.run_bind_ok (M.run_getTh s), M.run_bind_ok (M.run_peekS begun ra), M.run_bind_ok (M.run_peekS begun rb),
    M.run_bind_ok (M.run_peekS begun rc)]
  by_cases same : old = (s.th.getS f.b).toNat % 2 ^ amoWidth f
  · have ran := ReachesHome.atomicOp_writes h clean acquire (ReachesHome.run_releasedIf free h)
      (f := casNew ((s.th.getS f.b).toNat % 2 ^ amoWidth f) ((s.th.getS f.c).toNat % 2 ^ amoWidth f)) (if_pos same)
    refine (M.run_bind_ok ran).trans ?_
    rw [M.run_wrS, extended_eq (amoWidth_le f), if_pos same]
    rfl
  · have ran := ReachesHome.atomicOp_reads h clean acquire (rel := if f.xm.getLsbD 1 then releaseGuard (s.th.getS f.a) else pure ())
      (f := casNew ((s.th.getS f.b).toNat % 2 ^ amoWidth f) ((s.th.getS f.c).toNat % 2 ^ amoWidth f)) (if_neg same)
    refine (M.run_bind_ok ran).trans ?_
    rw [M.run_wrS, extended_eq (amoWidth_le f), if_neg same]
    rfl

/-! ### AMO in update mode (R65, R173) -/

/-- A sum of integers wraps at the element's width. -/
theorem mergeElem_int (old free n x : Nat) : mergeElem old free (.int n) [(x : Int)] = ((old + x) % 2 ^ (8 * n), free, false) := by
  have sum : wrap (8 * n) ((old : Int) + [(x : Int)].sum) = (old + x) % 2 ^ (8 * n) := by
    simp only [wrap, List.sum_cons, List.sum_nil, add_zero]
    norm_cast
  simp only [mergeElem, UpdFmt.fmt?, UpdFmt.bytes, sum]

theorem amoUpd_spec (regs : Reads s [f.a, f.b]) (h : Lands s .store 2 (amoWidth f / 8) (s.th.getS f.a) (amoWidth f / 8) pa via s1) :
    let x : Nat := (s.th.getS f.b).toNat % 2 ^ amoWidth f
    exec (.amoUpd f) s = doneWith s (if isHbm pa || isHost pa || isFabric pa then addUpdate s1 s.th.coreNo (.int (amoWidth f / 8)) pa x
      else addHome pa (amoWidth f / 8) (fun old free => ((old + x) % 2 ^ amoWidth f, free, false)) s1) := by
  intro x
  obtain ⟨live, begun, readable⟩ := regs
  have ra := readable f.a (by simp)
  have rb := readable f.b (by simp)
  have clean : (do cleanS f.a; cleanS f.b : M Unit) s1 = .ok () s1 := M.run_both (h.spares.cleanS ra) (h.spares.cleanS rb)
  have located : locate s.th.who .store accAtomic (UpdFmt.int (amoWidth f / 8)).bytes (s.th.getS f.a) (UpdFmt.int (amoWidth f / 8)).bytes s =
      .ok (.cell pa via) s1 := h.1
  have sum : (fun old free => mergeElem old free (.int (amoWidth f / 8)) [(x : Int)]) =
      fun old free => ((old + x) % 2 ^ amoWidth f, free, false) := by
    funext old free
    rw [mergeElem_int, amoWidth_bytes]
  show execAmoUpd f s = _
  unfold execAmoUpd
  refine runWord_ok live ?_
  rw [M.run_bind_ok (M.run_getTh s), M.run_bind_ok (M.run_peekS begun ra), M.run_bind_ok (M.run_peekS begun rb)]
  unfold updateAdd
  refine (M.run_bind_ok located).trans ((M.run_bind_ok clean).trans ((M.run_bind_ok h.checkWatermark).trans ?_))
  rw [M.run_modify, ← sum]
  rfl

end

/-- Settles O11: AMO and CAS by what an atomic reads, acquires, releases and writes at the home, and the update-mode AMO by where its add
goes. -/
theorem atomics : Obligations.Atomics := by
  unfold Obligations.Atomics
  intro f s s1 pa via w ea b r old res acquired written
  exact ⟨fun regs free h => ⟨amo_spec regs free h, fun regC => cas_spec regs regC free h⟩, fun regs h => amoUpd_spec regs h⟩

/-! ### ACQ, REL and WAIT (R76, R176, R182) -/

section
variable {f : Fields} {s s1 : State} {pa : Nat} {via : Option Nat}

theorem acq_spec (regs : Reads s (regsAB f)) (h : ReachesHome s .load 2 8 (s.addr f) 8 pa via s1) :
    let r := s1.atHome pa 8
    exec (.acq f) s = doneWith s (((r.1.acquiredGuard (s.addr f)).observed (s.addr f) r.2).put f.d (BitVec.ofNat 64 r.2)) := by
  intro r
  show execAcq f s = _
  unfold execAcq
  refine runWord_ok regs.1 ?_
  rw [M.run_bind_ok (M.run_getTh s), M.run_bind_ok (M.run_peekEA regs)]
  refine (M.run_bind_ok (h.loadHome (h.1.spares.cleanEA regs))).trans ?_
  rw [M.run_bind_ok (M.run_acquireGuard ..), M.run_bind_ok (M.run_observe ..), M.run_wrS]
  rfl

theorem rel_spec (regs : Reads s (f.d :: regsAB f)) (free : CanRelease s) (h : Lands s .store 2 8 (s.addr f) 8 pa via s1) :
    exec (.rel f) s = doneWith s (physWrite (s1.releasedGuard (s.addr f)) pa 8 (s.th.getS f.d).toNat) := by
  obtain ⟨live, begun, readable⟩ := regs
  have rd := readable f.d List.mem_cons_self
  have regs : Reads s (regsAB f) := ⟨live, begun, fun r hr => readable r (List.mem_cons_of_mem _ hr)⟩
  have clean := M.run_both (h.spares.cleanEA regs) (h.spares.cleanS rd)
  show execRel f s = _
  unfold execRel
  refine runWord_ok live ?_
  rw [M.run_bind_ok (M.run_getTh s), M.run_bind_ok (M.run_peekS begun rd), M.run_bind_ok (M.run_peekEA regs)]
  exact h.storeHome clean (M.run_releaseGuard (h.spares.canRelease free) _) _

/-- Where WAIT reads, and what it compares with: its address and zero in I-form, the registers A and B in R-form. -/
def State.waitAddr (s : State) (f : Fields) : Word := match f.imm with
  | some _ => s.addr f
  | none => s.th.getS f.a
def State.waitCmp (s : State) (f : Fields) : Word := match f.imm with
  | some _ => 0
  | none => s.th.getS f.b

/-- The condition of a WAIT. -/
def waitHolds (f : Fields) (x cmp : Word) : Prop := if f.var = 0 then x ≠ cmp else cmp.toNat ≤ x.toNat

theorem waitHolds_iff (f : Fields) (x cmp : Word) :
    (if f.var = 0 then x != cmp else !x.ult cmp) = true ↔ waitHolds f x cmp := by
  unfold waitHolds
  split
  · exact bne_iff_ne
  · simp [BitVec.ult]

/-- WAIT's two operands. -/
def waitOperands (f : Fields) (a : Word) : M (Word × Word) :=
  match f.imm with
  | some i => pure (a + immS i, (0 : Word))
  | none => do
    let b ← peekS f.b
    pure (a, b)

theorem M.run_waitOperands (regs : Reads s (regsAB f)) : waitOperands f (s.th.getS f.a) s = .ok (s.waitAddr f, s.waitCmp f) s := by
  have readB := M.run_peekB regs.right
  unfold waitOperands State.waitAddr State.waitCmp State.addr
  unfold peekB State.opndB at readB
  unfold State.opndB
  cases hf : f.imm with
  | some i => rfl
  | none =>
    rw [hf] at readB
    exact (M.run_bind_ok readB).trans rfl

/-- A word that waits for a write waits with its read standing where that drew a free value. -/
theorem M.run_awaitWrite (r : WaitReason) (s0 s : State) : (awaitWrite r s0 : M Unit) s =
    if s.free = s0.free then .error (.wait r) s else .error (.hold r) (unissue s) := by
  unfold awaitWrite
  rw [M.run_bind_ok (M.run_get s)]
  split <;> rfl

/-- What WAIT does with the word it read. -/
def waitEnd (f : Fields) (s : State) (o : Word × Word) (v : Nat) : M Unit :=
  if (if f.var = 0 then BitVec.ofNat 64 v != o.2 else !(BitVec.ofNat 64 v).ult o.2) then do
    acquireGuard o.1
    observe o.1 v
    wrS f.d (BitVec.ofNat 64 v)
  else awaitWrite (.word o.1) s

/-- WAIT in its parts. -/
def waitWord (f : Fields) (s : State) : M Unit := do
  let t ← getTh
  let a ← peekS f.a
  let o ← waitOperands f a
  let v ← loadHome t.who accAtomic 8 o.1 8 (cleanEA f)
  waitEnd f s o v

theorem execWait_eq (f : Fields) (s : State) : execWait f s = runWord (waitWord f s) s := by
  unfold execWait waitWord waitOperands waitEnd
  cases f.imm with
  | some i => rfl
  | none => simp only [bind_assoc, pure_bind]

theorem M.run_waitWord (regs : Reads s (regsAB f)) (h : ReachesHome s .load 2 8 (s.waitAddr f) 8 pa via s1) :
    waitWord f s s = waitEnd f s (s.waitAddr f, s.waitCmp f) (s1.atHome pa 8).2 (s1.atHome pa 8).1 := by
  unfold waitWord
  rw [M.run_bind_ok (M.run_getTh s), M.run_bind_ok (M.run_peekS regs.2.1 regs.left), M.run_bind_ok (M.run_waitOperands regs)]
  exact M.run_bind_ok (h.loadHome (h.1.spares.cleanEA regs))

/-- A WAIT whose condition holds does as ACQ. -/
theorem wait_spec_of_holds (regs : Reads s (regsAB f)) (h : ReachesHome s .load 2 8 (s.waitAddr f) 8 pa via s1)
    (holds : waitHolds f (BitVec.ofNat 64 (s1.atHome pa 8).2) (s.waitCmp f)) :
    let r := s1.atHome pa 8
    exec (.wait f) s = doneWith s
      (((r.1.acquiredGuard (s.waitAddr f)).observed (s.waitAddr f) r.2).put f.d (BitVec.ofNat 64 r.2)) := by
  intro r
  refine (execWait_eq f s).trans (runWord_ok regs.1 ((M.run_waitWord regs h).trans ?_))
  rw [waitEnd, if_pos ((waitHolds_iff ..).mpr holds), M.run_bind_ok (M.run_acquireGuard ..), M.run_bind_ok (M.run_observe ..), M.run_wrS]
  rfl

/-- One whose condition fails waits. -/
theorem wait_spec_of_fails (regs : Reads s (regsAB f)) (h : ReachesHome s .load 2 8 (s.waitAddr f) 8 pa via s1)
    (fails : ¬ waitHolds f (BitVec.ofNat 64 (s1.atHome pa 8).2) (s.waitCmp f)) :
    let r := s1.atHome pa 8
    exec (.wait f) s = .next ((if r.1.free = s.free then s else r.1).waits (.word (s.waitAddr f))) := by
  intro r
  have ran := M.run_waitWord regs h
  rw [waitEnd, if_neg (mt (waitHolds_iff ..).mp fails), M.run_awaitWrite] at ran
  refine (execWait_eq f s).trans ?_
  by_cases same : r.1.free = s.free
  · rw [if_pos same] at ran ⊢
    exact runWord_wait regs.1 ran
  · rw [if_neg same] at ran ⊢
    exact runWord_hold regs.1 ran

end

/-! ### FENCE, IFENCE, BIND and UNBIND (R75, R81, R94, R177, R178) -/

section
variable {s : State}

theorem fence_spec (f : Fields) (live : s.th.live = true) (free : CanRelease s) :
    exec (.fence f) s = doneWith s ((s.releasedDefault s.th.scope).acquiredDefault s.th.scope) := by
  show execFence f s = _
  unfold execFence
  refine runWord_ok live ?_
  rw [M.run_bind_ok (M.run_getTh s), M.run_bind_ok (M.run_releaseDefault free _), M.run_acquireDefault]

theorem ifence_spec (f : Fields) (live : s.th.live = true) :
    exec (.ifence f) s = doneWith s (s.setCore s.th.coreNo { s.core s.th.coreNo with icache := [] }) := by
  show execIfence f s = _
  unfold execIfence
  exact runWord_ok live (M.run_modify _ s)

/-- A region that overlaps none of the partition's bindings, is of whole lines and finds room is bound. -/
theorem bind_spec {f : Fields} (regs : Reads s [f.a, f.b, f.c]) :
    let p := s.part s.th.part
    let b := (s.th.getS f.b).toNat
    let c := (s.th.getS f.c).toNat
    b % 128 = 0 → c % 128 = 0 → 0 < c → c ≤ 2 ^ 47 → p.bindings.length < 4096 →
    (∀ r ∈ p.bindings, b + c ≤ r.2.1 ∨ r.2.1 + r.2.2 ≤ b) →
    exec (.bind f) s = doneWith s (s.setPart s.th.part { p with bindings := p.bindings ++ [((s.th.getS f.a).toNat, b, c)] }) := by
  intro p b c lines size some_ most room apart
  obtain ⟨live, begun, readable⟩ := regs
  have ra := readable f.a (by simp)
  have rb := readable f.b (by simp)
  have rc := readable f.c (by simp)
  have nonzero : s.th.getS f.c ≠ 0 := fun h => by
    have : c = 0 := congrArg BitVec.toNat h
    omega
  have shape : (b % 128 != 0 || c % 128 != 0 || s.th.getS f.c == 0 || decide (2 ^ 47 < c)) = false := by
    simp only [Bool.or_eq_false_iff, bne_eq_false_iff_eq, beq_eq_false_iff_ne, decide_eq_false_iff_not, Nat.not_lt]
    exact ⟨⟨⟨lines, size⟩, nonzero⟩, most⟩
  have clear : (p.bindings.any fun r => overlap b c r.2.1 r.2.2) = false := by
    refine List.any_eq_false.mpr fun r hr => ?_
    have := apart r hr
    simp only [overlap, Bool.and_eq_true, decide_eq_true_eq]
    omega
  have fits : decide (4096 ≤ p.bindings.length) = false := decide_eq_false (Nat.not_le.mpr room)
  show execBind f s = _
  unfold execBind
  refine runWord_ok live ?_
  rw [M.run_bind_ok (M.run_peekS begun ra), M.run_bind_ok (M.run_peekS begun rb), M.run_bind_ok (M.run_peekS begun rc),
    M.run_bind_ok (M.run_get s)]
  refine (M.run_bind_ok (M.run_raiseIf shape ..)).trans ((M.run_bind_ok (M.run_raiseIf clear ..)).trans ?_)
  refine (M.run_bind_ok (M.run_raiseIf fits ..)).trans ?_
  rw [M.run_bind_ok (M.run_cleanS ra), M.run_bind_ok (M.run_cleanS rb), M.run_bind_ok (M.run_cleanS rc)]
  rfl

/-- A base that is bound is removed. -/
theorem unbind_spec {f : Fields} (regs : Reads s [f.b]) :
    let p := s.part s.th.part
    let b := (s.th.getS f.b).toNat
    (∃ r ∈ p.bindings, r.2.1 = b) →
    exec (.unbind f) s = doneWith s (s.setPart s.th.part { p with bindings := p.bindings.filter fun r => r.2.1 != b }) := by
  intro p b bound
  obtain ⟨live, begun, readable⟩ := regs
  have rb := readable f.b (by simp)
  have found : (!(p.bindings.any fun r => r.2.1 == b)) = false := by simpa using bound
  show execUnbind f s = _
  unfold execUnbind
  refine runWord_ok live ?_
  rw [M.run_bind_ok (M.run_peekS begun rb), M.run_bind_ok (M.run_get s)]
  refine (M.run_bind_ok (M.run_raiseIf found ..)).trans ?_
  rw [M.run_bind_ok (M.run_cleanS rb)]
  rfl

end

/-- Settles O12, each word by what it reads and writes at the home, acquires and releases. -/
theorem guardsAndFences : Obligations.GuardsAndFences := by
  unfold Obligations.GuardsAndFences
  refine ⟨fun f s s1 pa via => ⟨acq_spec, rel_spec, fun regs h => ?_, fun live => fence_spec f live.1, fun live => ifence_spec f live.1⟩,
    fun f s => ⟨fun regs => bind_spec regs, fun regs => unbind_spec regs⟩⟩
  intro r x
  by_cases holds : waitHolds f x (s.waitCmp f)
  · exact (wait_spec_of_holds regs h holds).trans (if_pos holds).symm
  · exact (wait_spec_of_fails regs h holds).trans (if_neg holds).symm

end Sys2Proof.Machine
end

section
/-! SUPPORT. PSWAP halt, resume and save, and the end of an operation of PSWAP (spec/19 R352, R357, spec/24 R406). -/

namespace Sys2Proof.Machine

/-! ### Folds over numbers of units -/

/-- A change at each listed number, which may depend on the number and made again changes nothing more, has been made at the listed
numbers and no others. -/
theorem foldl_pointwise_at {α : Type} {f : State → Nat → State} {get : State → Nat → α} {g : Nat → α → α}
    (hf : ∀ s c d, get (f s c) d = if d = c then g c (get s d) else get s d) (idem : ∀ c x, g c (g c x) = g c x) (l : List Nat) (s : State)
    (d : Nat) : get (l.foldl f s) d = if d ∈ l then g d (get s d) else get s d := by
  have pairs := foldl_pointwise (f := f) (get := fun s d => (d, get s d)) (g := fun x => (x.1, g x.1 x.2))
    (fun s c d => by
      rw [hf]
      by_cases h : d = c
      · simp [h]
      · simp [h])
    (fun x => by rw [idem]) l s d
  have second := congrArg Prod.snd pairs
  rw [apply_ite Prod.snd] at second
  exact second

/-- What every listed step keeps, all of them keep. -/
theorem foldl_keeps {β α : Type} {f : State → β → State} {get : State → α} {l : List β} (hf : ∀ s, ∀ b ∈ l, get (f s b) = get s) (s : State) :
    get (l.foldl f s) = get s := by
  induction l generalizing s with
  | nil => rfl
  | cons b l ih => rw [List.foldl_cons, ih fun s b hb => hf s b (List.mem_cons_of_mem _ hb), hf s b List.mem_cons_self]

/-! ### STOP bits (R352) -/

/-- STOP of a core, and which of its bits a halt has set. -/
def Core.slots (k : Core) : BitVec 8 × BitVec 8 := (k.stop, k.haltSet)

/-- Each listed core has STOP, and the bits a halt has set, made from what it had. -/
def setSlots (g : BitVec 8 × BitVec 8 → BitVec 8 × BitVec 8) (l : List Nat) (s : State) : State :=
  l.foldl (fun s c => setStops c (g (s.core c).slots).1 (g (s.core c).slots).2 s) s

/-- What a halt and a resume make of them. -/
def haltSlots (x : BitVec 8 × BitVec 8) : BitVec 8 × BitVec 8 := (0xFF, x.2 ||| ~~~x.1)
def resumeSlots (x : BitVec 8 × BitVec 8) : BitVec 8 × BitVec 8 := (x.1 &&& ~~~x.2, 0)

/-- No bit counts as set by a halt where STOP is 0. -/
def maskSlots (x : BitVec 8 × BitVec 8) : BitVec 8 × BitVec 8 := (x.1, x.2 &&& x.1)

theorem core_setStops_other (s : State) {c d : Nat} (h : d ≠ c) (stop halt : BitVec 8) : (setStops c stop halt s).core d = s.core d :=
  State.core_setCore_other s _ h

theorem slots_setStops (s : State) (c d : Nat) (x : BitVec 8 × BitVec 8) :
    ((setStops c x.1 x.2 s).core d).slots = if d = c then maskSlots x else (s.core d).slots := by
  split
  · next h => rw [h, setStops, State.core_setCore_same]; rfl
  · next h => rw [core_setStops_other s h]

theorem slots_setSlots {g : BitVec 8 × BitVec 8 → BitVec 8 × BitVec 8} (idem : ∀ x, maskSlots (g (maskSlots (g x))) = maskSlots (g x))
    (l : List Nat) (s : State) (c : Nat) :
    ((setSlots g l s).core c).slots = if c ∈ l then maskSlots (g (s.core c).slots) else (s.core c).slots :=
  foldl_pointwise (get := fun s c => (s.core c).slots) (g := fun x => maskSlots (g x))
    (fun s c d => by
      rw [slots_setStops]
      by_cases h : d = c
      · simp [h]
      · simp [h]) idem l s c

theorem core_setSlots_other {l : List Nat} {c : Nat} (h : c ∉ l) (g : BitVec 8 × BitVec 8 → BitVec 8 × BitVec 8) (s : State) :
    (setSlots g l s).core c = s.core c :=
  foldl_keeps (get := fun s => s.core c) (fun s _ hd => core_setStops_other s (ne_of_mem_of_not_mem hd h).symm _ _) s

theorem setSlots_eq (g : BitVec 8 × BitVec 8 → BitVec 8 × BitVec 8) (l : List Nat) (s : State) :
    ∃ cores, setSlots g l s = { s with cores := cores } := coresOnly_foldl (fun _ _ => ⟨_, rfl⟩) l s

theorem maskSlots_haltSlots (x : BitVec 8 × BitVec 8) : maskSlots (haltSlots x) = haltSlots x := by
  have whole (y : BitVec 8) : y &&& 0xFF = y := BitVec.and_allOnes
  simp only [maskSlots, haltSlots, whole]

theorem haltSlots_haltSlots (x : BitVec 8 × BitVec 8) : haltSlots (haltSlots x) = haltSlots x := by
  have none_ (y : BitVec 8) : y ||| ~~~0xFF = y := BitVec.or_zero
  simp only [haltSlots, none_]

theorem maskSlots_resumeSlots (x : BitVec 8 × BitVec 8) : maskSlots (resumeSlots x) = resumeSlots x := by
  have none_ (y : BitVec 8) : 0 &&& y = 0 := BitVec.zero_and
  simp only [maskSlots, resumeSlots, none_]

theorem resumeSlots_resumeSlots (x : BitVec 8 × BitVec 8) : resumeSlots (resumeSlots x) = resumeSlots x := by
  have whole (y : BitVec 8) : y &&& ~~~0 = y := BitVec.and_allOnes
  simp only [resumeSlots, whole]

/-! ### Halt and resume (R357) -/

/-- The partition is halted or not, and its channels pause alike. -/
def Partition.paused (q : Partition) (b : Bool) : Partition := { q with halted := b, chans := q.chans.map fun c => { c with paused := b } }

theorem Partition.chan_paused (q : Partition) (b : Bool) {n : Nat} (h : n < 16) : (q.paused b).chan n = { q.chan n with paused := b } := by
  simp [Partition.chan, Partition.paused, Vector.getD, Array.getD, h]

theorem stopCores_eq_setSlots (p : Nat) (s : State) : stopCores p s = setSlots haltSlots (coresOf p) s := rfl

/-- A halt or a resume of a partition, but for a thermal stop. -/
def turnPart (g : BitVec 8 × BitVec 8 → BitVec 8 × BitVec 8) (b : Bool) (p : Nat) (s : State) : State :=
  let u := setSlots g (coresOf p) s
  u.setPart p ((u.part p).paused b)

theorem haltPart_eq_turnPart (p : Nat) (s : State) : haltPart p s = turnPart haltSlots true p s := rfl

theorem resumePart_eq_turnPart (p : Nat) (s : State) : resumePart p s = if s.plat.limit = 3 then s else turnPart resumeSlots false p s := rfl

/-- What they leave: only the partition's STOP bits, its channels and whether it is halted have changed. -/
structure Turned (g : BitVec 8 × BitVec 8 → BitVec 8 × BitVec 8) (b : Bool) (p : Nat) (s u : State) : Prop where
  frame : ∃ cores parts, u = { s with cores := cores, parts := parts }
  part : u.part p = (s.part p).paused b
  slots : ∀ c, c / 40 = p → (u.core c).slots = g (s.core c).slots
  others : ∀ c, c / 40 ≠ p → u.core c = s.core c

theorem turned_turnPart {g : BitVec 8 × BitVec 8 → BitVec 8 × BitVec 8} (masked : ∀ x, maskSlots (g x) = g x) (idem : ∀ x, g (g x) = g x)
    (b : Bool) (p : Nat) (s : State) : Turned g b p s (turnPart g b p s) := by
  have slots := slots_setSlots (g := g) (fun x => by simp only [masked, idem]) (coresOf p) s
  have others (c : Nat) (h : c / 40 ≠ p) := core_setSlots_other (fun hc => h (mem_coresOf.mp hc)) g s
  obtain ⟨cores, eq⟩ := setSlots_eq g (coresOf p) s
  unfold turnPart
  generalize setSlots g (coresOf p) s = u at *
  refine ⟨⟨cores, _, by rw [eq]; rfl⟩, ?_, fun c hc => ?_, others⟩
  · rw [State.part_setPart_same, eq]
    rfl
  · exact (slots c).trans ((if_pos (mem_coresOf.mpr hc)).trans (masked _))

theorem turned_haltPart (p : Nat) (s : State) : Turned haltSlots true p s (haltPart p s) :=
  turned_turnPart maskSlots_haltSlots haltSlots_haltSlots true p s

theorem turned_resumePart {s : State} (h : s.plat.limit ≠ 3) (p : Nat) : Turned resumeSlots false p s (resumePart p s) := by
  rw [resumePart_eq_turnPart, if_neg h]
  exact turned_turnPart maskSlots_resumeSlots resumeSlots_resumeSlots false p s

theorem Turned.chan {g : BitVec 8 × BitVec 8 → BitVec 8 × BitVec 8} {b : Bool} {p : Nat} {s u : State} (h : Turned g b p s u) {n : Nat}
    (hn : n < 16) : u.chan p n = { s.chan p n with paused := b } := by
  unfold State.chan
  rw [h.part, Partition.chan_paused _ b hn]

/-! ### Operations of PSWAP (R352) -/

theorem pswapRun_due {s : State} {op p : Nat} (due : s.Due op p) (f : State → State) : pswapRun op p f s = .next (pswapRan p (f s)) := by
  obtain ⟨inside, busy, ran, code, part⟩ := due
  have now : pswapDue op p s = true := by simp [pswapDue, Die.busy, inside, busy, ran, code, part]
  exact if_pos now

theorem die_pswapRan (p : Nat) (s : State) : (pswapRan p s).die (p / 8) = { s.die (p / 8) with ran := true } := Table.get_set_same ..

/-- A state in which an operation on partition `p` has had its effect, of whose dies nothing else has changed. -/
theorem die_pswapRan_of_dies {s u : State} (h : u.dies = s.dies) (p : Nat) :
    (pswapRan p u).die (p / 8) = { s.die (p / 8) with ran := true, shadow := (s.die (p / 8)).shadow } := by
  rw [die_pswapRan, State.die, h]
  rfl

theorem pswapHalt_spec {s : State} {p : Nat} (due : s.Due 1 p) : ∃ u : State, exec (.pswapHalt p) s = .next u ∧
    u.die (p / 8) = { s.die (p / 8) with ran := true, shadow := (s.die (p / 8)).shadow } ∧
    (u.mem = s.mem ∧ u.th = s.th ∧ u.parked = s.parked) ∧ Turned haltSlots true p s (haltPart p s) ∧ u = pswapRan p (haltPart p s) := by
  have turned := turned_haltPart p s
  obtain ⟨_, _, eq⟩ := turned.frame
  refine ⟨_, pswapRun_due due _, die_pswapRan_of_dies (by rw [eq]) p, ?_, turned, rfl⟩
  rw [eq]
  exact ⟨rfl, rfl, rfl⟩

theorem pswapResume_spec {s : State} {p : Nat} (due : s.Due 4 p) : ∃ u : State, exec (.pswapResume p) s = .next u ∧
    u.die (p / 8) = { s.die (p / 8) with ran := true, shadow := (s.die (p / 8)).shadow } ∧
    (u.mem = s.mem ∧ u.th = s.th ∧ u.parked = s.parked) ∧ u = pswapRan p (resumePart p s) := by
  refine ⟨_, pswapRun_due due _, ?_⟩
  by_cases hot : s.plat.limit = 3
  · have same : resumePart p s = s := if_pos hot
    rw [same]
    exact ⟨die_pswapRan_of_dies rfl p, ⟨rfl, rfl, rfl⟩, rfl⟩
  · obtain ⟨_, _, eq⟩ := (turned_resumePart hot p).frame
    refine ⟨die_pswapRan_of_dies (by rw [eq]) p, ?_, rfl⟩
    rw [eq]
    exact ⟨rfl, rfl, rfl⟩

/-! ### The end of an operation -/

theorem haltOver_iff {p : Nat} {s : State} : haltOver p s = true ↔ ∀ c, c / 40 = p → (s.core c).stopped = 0xFF := by
  simp only [haltOver, List.all_eq_true, mem_coresOf, beq_iff_eq]

theorem pswapOver_iff {die : Nat} {s : State} : pswapOver die s = true ↔
    (s.die die).pswap.getLsbD 15 = true ∧ (s.die die).ran = true ∧ (bits (s.die die).pswap.toNat 10 8 = 1 →
      ∀ c, c / 40 = die * 8 + bits (s.die die).pswap.toNat 2 0 → (s.core c).stopped = 0xFF) := by
  simp only [pswapOver, Die.busy, Bool.and_eq_true, Bool.or_eq_true, bne_iff_ne, haltOver_iff, and_assoc, imp_iff_not_or, ne_eq]

theorem pswapDone_spec {die : Nat} {s : State} (ended : pswapOver die s = true) : ∃ u : State, exec (.pswapDone die) s = .next u ∧
    u.mem = s.mem ∧ u.die die = { s.die die with pswap := (s.die die).pswap &&& ~~~0x8000, ran := false } ∧
    ∀ k, (s.thread k).live = true →
      u.thread k = if (s.thread k).wait = some .pswap then { s.thread k with wait := none } else s.thread k := by
  have done : exec (.pswapDone die) s = .next (wakeAll (· == .pswap) { s with
    dies := s.dies.set die { s.die die with pswap := (s.die die).pswap &&& ~~~0x8000, ran := false } }) := if_pos ended
  refine ⟨_, done, ?_⟩
  generalize hd : s.dies.set die { s.die die with pswap := (s.die die).pswap &&& ~~~0x8000, ran := false } = dies
  have woken := thread_wakeAll (· == .pswap) { s with dies := dies }
  obtain ⟨_, _, eq⟩ := wakeAll_eq (· == .pswap) { s with dies := dies }
  refine ⟨by rw [eq], ?_, fun k live => ?_⟩
  · rw [eq, State.die, ← hd]
    exact Table.get_set_same ..
  · rw [woken, ← Thread.woken_pswap]
    exact if_pos live

/-! ### Save (R357) -/

theorem partBusy_iff {p : Nat} {s : State} : partBusy p s = true ↔ ∃ k, s.LivesIn p k ∧ saveWaits s k ≠ none := by
  simp only [partBusy, List.any_eq_true, State.mem_threadsOf, Option.isSome_iff_ne_none, State.LivesIn]

theorem execPswapSave_busy {p : Nat} {s : State} (busy : ∃ k, s.LivesIn p k ∧ saveWaits s k ≠ none) : exec (.pswapSave p) s = .next s :=
  if_pos (partBusy_iff.mpr busy)

section
variable {p : Nat} {s : State} (idle : ¬ ∃ k, s.LivesIn p k ∧ saveWaits s k ≠ none) (due : s.Due 2 p) (hc : s.coherent = true)
  (hu : NoUpdates s)
include idle due

theorem execPswapSave_due : exec (.pswapSave p) s = .next (pswapRan p (savePart p s)) :=
  (if_neg (mt partBusy_iff.mp idle)).trans (pswapRun_due due _)

include hc hu

/-- A save with SPILL = 0 fills an empty shadow store that the context fits. -/
theorem pswapSave_spec_of_shadow (spill : (s.die (p / 8)).pswap.getLsbD 11 = false) : ∃ u : State, exec (.pswapSave p) s = .next u ∧
    (u.mem = s.mem ∧ u.th = s.th ∧ u.parked = s.parked) ∧
    u.die (p / 8) = { s.die (p / 8) with ran := true, shadow :=
      if (s.die (p / 8)).shadow = none ∧ usedBanks p s ≤ 140 then some (partCtx p s) else (s.die (p / 8)).shadow } := by
  refine ⟨_, execPswapSave_due idle due, ?_⟩
  unfold savePart
  rw [drainPart_of_coherent hc hu]
  dsimp only
  rw [if_neg (by rw [spill]; exact Bool.false_ne_true)]
  by_cases room : (s.die (p / 8)).shadow = none ∧ usedBanks p s ≤ 140
  · have fits : ¬ ((s.die (p / 8)).shadow.isSome || decide (140 < usedBanks p s)) = true := by simp [room]
    rw [if_neg fits, if_pos room]
    refine ⟨⟨rfl, rfl, rfl⟩, ?_⟩
    rw [die_pswapRan, State.die, Table.get_set_same]
  · have full : ((s.die (p / 8)).shadow.isSome || decide (140 < usedBanks p s)) = true := by
      rw [Bool.or_eq_true, decide_eq_true_eq, Option.isSome_iff_ne_none]
      by_contra h
      exact room ⟨by tauto, by omega⟩
    rw [if_pos full, if_neg room]
    exact ⟨⟨rfl, rfl, rfl⟩, die_pswapRan_of_dies rfl p⟩

/-- One with SPILL = 1 lays the context over storage at ADDR. -/
theorem pswapSave_spec_of_spill (spill : (s.die (p / 8)).pswap.getLsbD 11 = true)
    (inHbm : (s.die (p / 8)).pswap.toNat / 65536 * 65536 < 0x60_0000_0000) : ∃ u : State, exec (.pswapSave p) s = .next u ∧
    (u.mem = s.mem ∧ u.th = s.th ∧ u.parked = s.parked) ∧
    u.die (p / 8) = { s.die (p / 8) with ran := true, shadow := (s.die (p / 8)).shadow } ∧
    ∃ f, u.frames.find ((s.die (p / 8)).pswap.toNat / 65536 * 65536) = some f ∧ f.body = .part (partCtx p s) ∧ f.dirty = [] := by
  have hbm : isHbm ((s.die (p / 8)).pswap.toNat / 65536 * 65536) = true := decide_eq_true inHbm
  refine ⟨_, execPswapSave_due idle due, ?_⟩
  unfold savePart
  rw [drainPart_of_coherent hc hu]
  dsimp only
  rw [if_pos spill, if_pos hbm]
  exact ⟨⟨rfl, rfl, rfl⟩, die_pswapRan_of_dies rfl p, _, Table.find_set_same .., rfl, rfl⟩

end

end Sys2Proof.Machine
end

section
/-! SUPPORT. PSWAP restore: a context comes back into its partition (spec/03 R62, spec/04 R82, R94, spec/19 R356, R357, spec/24 R406); with
halt, resume and save, what settles O51. -/

namespace Sys2Proof.Machine

/-! ### Memory cells put back -/

/-- Leaving out the cells of some addresses keeps the canonical form. -/
theorem Mem.wfFrom_filter {lo : Nat} {m : Mem} (h : Mem.wfFrom lo m = true) (P : Nat → Bool) :
    Mem.wfFrom lo (m.filter fun e => P e.1) = true := by
  induction m generalizing lo with
  | nil => rfl
  | cons c m ih =>
    obtain ⟨i, v⟩ := c
    simp only [Mem.wfFrom, Bool.and_eq_true, decide_eq_true_eq] at h
    obtain ⟨⟨below, listed⟩, rest⟩ := h
    by_cases hp : P i = true
    · simp only [List.filter_cons, hp, if_true, Mem.wfFrom, Bool.and_eq_true, decide_eq_true_eq]
      exact ⟨⟨below, listed⟩, ih rest⟩
    · simp only [List.filter_cons, hp, if_false, Bool.false_eq_true]
      exact Mem.wfFrom_mono (ih rest) (by omega)

/-- The cells left read as before, the others as unlisted. -/
theorem Mem.read_filter {lo : Nat} {m : Mem} (h : Mem.wfFrom lo m = true) (P : Nat → Bool) (a : Nat) :
    Mem.read (m.filter fun e => P e.1) a = if P a then m.read a else unlisted := by
  induction m generalizing lo with
  | nil => simp [Mem.read]
  | cons c m ih =>
    obtain ⟨i, v⟩ := c
    simp only [Mem.wfFrom, Bool.and_eq_true, decide_eq_true_eq] at h
    obtain ⟨-, rest⟩ := h
    have after := ih rest
    have kept := Mem.wfFrom_filter rest P
    by_cases hp : P i = true
    · simp only [List.filter_cons, hp, if_true, Mem.read, after]
      by_cases ha : i = a
      · subst ha
        rw [if_pos rfl, if_pos hp, if_pos rfl]
      · simp only [ha, if_false]
        split_ifs <;> rfl
    · simp only [List.filter_cons, hp, if_false, Bool.false_eq_true, Mem.read, after]
      by_cases ha : i = a
      · subst ha
        rw [if_neg hp, if_neg hp]
      · simp only [ha, if_false]
        split_ifs with hpa hlt
        · exact Mem.read_below rest (by omega)
        · rfl
        · rfl

/-- Every cell of a canonical form from `lo` has an address from `lo`. -/
theorem Mem.le_of_wfFrom {lo : Nat} {m : Mem} (h : Mem.wfFrom lo m = true) : ∀ c ∈ m, lo ≤ c.1 := by
  induction m generalizing lo with
  | nil => exact fun _ hc => absurd hc List.not_mem_nil
  | cons c m ih =>
    simp only [Mem.wfFrom, Bool.and_eq_true, decide_eq_true_eq] at h
    obtain ⟨⟨below, -⟩, rest⟩ := h
    intro d hd
    rcases List.mem_cons.mp hd with rfl | hd
    · exact below
    · have := ih rest d hd
      omega

/-- Cells in canonical form, written one after the other, read as they stand; other addresses as before. -/
theorem Mem.read_foldl_write {lo : Nat} {l m : Mem} (hl : Mem.wfFrom lo l = true) (hm : Memory.wf m = true) (a : Nat) :
    Mem.read (l.foldl (fun m c => Mem.write m c.1 c.2) m) a = if a ∈ l.map Prod.fst then l.read a else m.read a := by
  induction l generalizing lo m with
  | nil => rfl
  | cons c l ih =>
    obtain ⟨i, v⟩ := c
    simp only [Mem.wfFrom, Bool.and_eq_true, decide_eq_true_eq] at hl
    obtain ⟨-, rest⟩ := hl
    have above : ∀ c ∈ l, i < c.1 := Mem.le_of_wfFrom rest
    rw [List.foldl_cons, ih rest (Mem.write_wf i v hm)]
    by_cases ha : a = i
    · have absent : a ∉ l.map Prod.fst := fun h => by
        obtain ⟨c, hc, eq⟩ := List.mem_map.mp h
        have := above c hc
        omega
      rw [if_neg absent, ha, Mem.read_write_same i v hm]
      simp [Mem.read]
    · rw [Mem.read_write_other v hm ha]
      by_cases listed : a ∈ l.map Prod.fst
      · obtain ⟨c, hc, eq⟩ := List.mem_map.mp listed
        have := above c hc
        have h1 : ¬ i = a := by omega
        have h2 : ¬ a < i := by omega
        simp [listed, Mem.read, h1, h2]
      · simp [listed, ha]

/-! ### What a table keeps by key -/

theorem Table.get_keysIn {α : Type} (t : Table α) {lo hi k : Nat} (h : lo ≤ k ∧ k < hi) (d : α) :
    Table.get (keysIn lo hi t) k d = t.get k d := by
  have kept := Table.find_filter t (fun i => decide (lo ≤ i) && decide (i < hi)) k
  rw [if_pos (by simp [h])] at kept
  exact congrArg (Option.getD · d) kept

/-- The cells of a range put in place of those that stood there. -/
def reloadMem (lo hi : Nat) (old new : Mem) : Mem := (keysIn lo hi old).foldl (fun m c => Mem.write m c.1 c.2) (dropKeys lo hi new)

theorem Mem.read_reloadMem {old new : Mem} (ho : Memory.wf old = true) (hn : Memory.wf new = true) (lo hi a : Nat) :
    (reloadMem lo hi old new).read a = if lo ≤ a ∧ a < hi then old.read a else new.read a := by
  have keeps (P : Nat → Bool) {m : Mem} (h : Memory.wf m = true) := Mem.wfFrom_filter h P
  have reads (P : Nat → Bool) {m : Mem} (h : Memory.wf m = true) := Mem.read_filter h P a
  have inside : (decide (lo ≤ a) && decide (a < hi)) = decide (lo ≤ a ∧ a < hi) := by rw [Bool.decide_and]
  have put : (reloadMem lo hi old new).read a =
      if a ∈ (keysIn lo hi old).map Prod.fst then Mem.read (keysIn lo hi old) a else Mem.read (dropKeys lo hi new) a :=
    Mem.read_foldl_write (keeps (fun i => decide (lo ≤ i) && decide (i < hi)) ho) (keeps (fun i => !(decide (lo ≤ i) && decide (i < hi))) hn) a
  have oldRead : Mem.read (keysIn lo hi old) a = if lo ≤ a ∧ a < hi then old.read a else unlisted := by
    rw [keysIn, reads (fun i => decide (lo ≤ i) && decide (i < hi)) ho, inside]
    simp only [decide_eq_true_eq]
  have newRead : Mem.read (dropKeys lo hi new) a = if lo ≤ a ∧ a < hi then unlisted else new.read a := by
    rw [dropKeys, reads (fun i => !(decide (lo ≤ i) && decide (i < hi))) hn, inside]
    by_cases h : lo ≤ a ∧ a < hi <;> simp [h]
  rw [put, oldRead, newRead]
  split_ifs with listed h h
  · rfl
  · obtain ⟨c, hc, eq⟩ := List.mem_map.mp listed
    have := (List.mem_filter.mp hc).2
    simp only [Bool.and_eq_true, decide_eq_true_eq, eq] at this
    exact absurd this h
  · refine (Mem.read_of_unlisted fun c hc eq => listed (List.mem_map.mpr ⟨c, ?_, eq⟩)).symm
    exact List.mem_filter.mpr ⟨hc, by simp [eq, h]⟩
  · rfl

/-! ### The stages of a restore -/

/-- A thread of the context that lives still comes back as the same one. -/
def PartCtx.holds (x : PartCtx) (t : Thread) : Bool := (x.threads.find (threadKey x.part t.entry)).any fun y => y.tid == t.tid

/-- A saved thread as it comes back among live ones: its prefetches that completed since are complete (R356). -/
def broughtBack (live : List (Nat × Thread)) (e : Nat × Thread) : Thread :=
  match live.find? fun o => o.1 == e.1 && o.2.tid == e.2.tid with
  | some o => { e.2 with prefs := e.2.prefs.filter fun r => o.2.prefs.any fun y => y.id == r.id }
  | none => e.2

/-- The partition's live threads with their keys. -/
def State.listed (s : State) (p : Nat) : List (Nat × Thread) := (s.threadsOf p).map fun k => (k, s.thread k)

def loadThreads (live saved : List (Nat × Thread)) (s : State) : State := saved.foldl (fun s e => s.setThread e.1 (broughtBack live e)) s

/-- A saved core and cluster come back with what no context holds (R94). -/
def Core.reloaded (x k : Core) : Core := { x with feat := k.feat, inService := k.inService, icache := [] }
def Cluster.reloaded (x k : Cluster) : Cluster := { x with ccyc := k.ccyc, stale := [] }

def loadCores (x : PartCtx) (s : State) : State :=
  (coresOf x.part).foldl (fun s c => s.setCore c ((x.cores.get c Core.reset).reloaded (s.core c))) s

def loadClusters (x : PartCtx) (s : State) : State :=
  (clustersOf x.part).foldl (fun s c => s.setCluster c ((x.clusters.get c Cluster.reset).reloaded (s.cluster c))) s

def loadPart (x : PartCtx) (s : State) : State :=
  s.setPart x.part { s.part x.part with
    queues := x.queues, chans := x.chans, halted := x.halted
    prefQ := (x.threads.map Prod.fst).filter fun k => !(s.thread k).prefs.isEmpty }

def loadDecs (decs : List (Nat × Decomposer)) (s : State) : State := decs.foldl (fun s e => s.setDec e.1 e.2) s

def loadStorage (x : PartCtx) (s : State) : State :=
  let lo := scratchLo x.part
  let hi := scratchLo (x.part + 1)
  { s with
    mem := x.mem.foldl (fun m c => Mem.write m c.1 c.2) (dropKeys lo hi s.mem)
    poison := putKeys (lo / 32) (hi / 32) s.poison x.poison
    frames := putKeys lo hi s.frames (x.unspec.map fun f => (f.1, Frame.mk .rest f.2.1 f.2.2.1 f.2.2.2)) }

/-- A restore but for a thermal stop. -/
def reload (x : PartCtx) (s : State) : State :=
  loadStorage x (loadDecs x.decs (loadPart x (loadClusters x (loadCores x
    (loadThreads (s.listed x.part) x.threads (dropThreads x.holds x.part s))))))

theorem loadCtx_eq_reload (x : PartCtx) (s : State) :
    loadCtx x s = if (reload x s).plat.limit = 3 then haltPart x.part (reload x s) else reload x s := rfl

/-! ### Threads that go and come back -/

theorem thread_dropThreads_of_kept (kept : Thread → Bool) (p : Nat) (s : State) (k : Nat) :
    (dropThreads kept p s).thread k = if k ∈ s.threadsOf p then Thread.zero else s.thread k := by
  unfold dropThreads
  extract_lets t
  refine foldl_pointwise (f := fun s k => (if kept (s.thread k) then s else countUse p (s.thread k).entry s).dropThread k)
    (get := State.thread) (g := fun _ => Thread.zero) (fun s c d => ?_) (fun _ => rfl) (t.threadsOf p) t k
  rw [State.thread_dropThread]
  split_ifs <;> rfl

/-- Only threads, what was chosen to issue, and reuse counts change where threads go. -/
theorem dropThreads_frame (kept : Thread → Bool) (p : Nat) (s : State) : ∃ chosen th parked parts,
    dropThreads kept p s = { s with chosen := chosen, th := th, parked := parked, parts := parts } := by
  have drop (s : State) (k : Nat) : ∃ th parked parts,
      (if kept (s.thread k) then s else countUse p (s.thread k).entry s).dropThread k = { s with th := th, parked := parked, parts := parts } := by
    unfold State.dropThread
    split_ifs <;> exact ⟨_, _, _, rfl⟩
  have fold (l : List Nat) (s : State) : ∃ th parked parts,
      l.foldl (fun s k => (if kept (s.thread k) then s else countUse p (s.thread k).entry s).dropThread k) s =
        { s with th := th, parked := parked, parts := parts } := by
    induction l generalizing s with
    | nil => exact ⟨_, _, _, rfl⟩
    | cons k l ih =>
      obtain ⟨_, _, _, first⟩ := drop s k
      obtain ⟨_, _, _, rest⟩ := ih ((if kept (s.thread k) then s else countUse p (s.thread k).entry s).dropThread k)
      rw [List.foldl_cons, rest, first]
      exact ⟨_, _, _, rfl⟩
  unfold dropThreads
  extract_lets t
  obtain ⟨th, parked, parts, eq⟩ := fold (t.threadsOf p) t
  exact ⟨t.chosen, th, parked, parts, eq⟩

theorem ptroot_dropThreads (kept : Thread → Bool) (p : Nat) (s : State) :
    ((dropThreads kept p s).part p).ptroot = (s.part p).ptroot := by
  have counted (s : State) (e : Nat) : ((countUse p e s).part p).ptroot = (s.part p).ptroot := by
    rw [countUse, State.part_setPart_same]
  have dropped (s : State) (k : Nat) : (s.dropThread k).part p = s.part p := by
    unfold State.dropThread
    split_ifs <;> rfl
  unfold dropThreads
  extract_lets t
  refine foldl_keeps (get := fun s => (s.part p).ptroot) (fun s k _ => ?_) t
  dsimp only
  rw [dropped]
  split_ifs
  · rfl
  · exact counted s _

/-- A live thread of the partition with the key and the name of the saved one is that thread. -/
theorem broughtBack_listed (s : State) (p k : Nat) (t : Thread) : broughtBack (s.listed p) (k, t) =
    if (s.thread k).live = true ∧ (s.thread k).part = p ∧ (s.thread k).tid = t.tid then
      { t with prefs := t.prefs.filter fun r => (s.thread k).prefs.any fun y => y.id == r.id } else t := by
  unfold broughtBack
  split
  · next o found =>
    have named := List.find?_some found
    obtain ⟨j, hj, rfl⟩ := List.mem_map.mp (List.mem_of_find?_eq_some found)
    simp only [Bool.and_eq_true, beq_iff_eq] at named
    obtain ⟨rfl, tid⟩ := named
    obtain ⟨live, part⟩ := State.mem_threadsOf.mp hj
    rw [if_pos ⟨live, part, tid⟩]
  · next absent =>
    refine (if_neg fun ⟨live, part, tid⟩ => ?_).symm
    have none_ := List.find?_eq_none.mp absent (k, s.thread k) (List.mem_map.mpr ⟨k, State.mem_threadsOf.mpr ⟨live, part⟩, rfl⟩)
    simp [tid] at none_

theorem thread_loadThreads (live : List (Nat × Thread)) (p : Nat) (s0 s : State) (k : Nat) :
    (loadThreads live (s0.listed p) s).thread k = if k ∈ s0.threadsOf p then broughtBack live (k, s0.thread k) else s.thread k := by
  unfold loadThreads State.listed
  rw [List.foldl_map]
  exact foldl_pointwise_at (g := fun k _ => broughtBack live (k, s0.thread k)) (get := State.thread)
    (fun s c d => (State.thread_setThread s c d _).trans (by split_ifs <;> simp [*])) (fun _ _ => rfl) _ s k

theorem loadThreads_frame (live saved : List (Nat × Thread)) (s : State) : ∃ th parked,
    loadThreads live saved s = { s with th := th, parked := parked } := by
  have set (s : State) (k : Nat) (t : Thread) : ∃ th parked, s.setThread k t = { s with th := th, parked := parked } := by
    unfold State.setThread
    split_ifs <;> exact ⟨_, _, rfl⟩
  unfold loadThreads
  induction saved generalizing s with
  | nil => exact ⟨_, _, rfl⟩
  | cons e l ih =>
    obtain ⟨_, _, first⟩ := set s e.1 (broughtBack live e)
    obtain ⟨_, _, rest⟩ := ih (s.setThread e.1 (broughtBack live e))
    rw [List.foldl_cons, rest, first]
    exact ⟨_, _, rfl⟩

/-! ### Units that come back -/

theorem core_loadCores (x : PartCtx) (s : State) {c : Nat} (h : c / 40 = x.part) :
    (loadCores x s).core c = (x.cores.get c Core.reset).reloaded (s.core c) :=
  (foldl_pointwise_at (get := State.core) (g := fun c k => (x.cores.get c Core.reset).reloaded k)
    (fun s c d => (State.core_setCore s c d _).trans (by split_ifs <;> simp [*])) (fun _ _ => rfl) _ s c).trans
    (if_pos (mem_coresOf.mpr h))

theorem loadCores_frame (x : PartCtx) (s : State) : ∃ cores, loadCores x s = { s with cores := cores } :=
  coresOnly_foldl (fun _ _ => ⟨_, rfl⟩) _ s

theorem cluster_loadClusters (x : PartCtx) (s : State) {c : Nat} (h : c / 10 = x.part) :
    (loadClusters x s).cluster c = (x.clusters.get c Cluster.reset).reloaded (s.cluster c) :=
  (foldl_pointwise_at (get := State.cluster) (g := fun c k => (x.clusters.get c Cluster.reset).reloaded k)
    (fun s c d => (State.cluster_setCluster s c d _).trans (by split_ifs <;> simp [*])) (fun _ _ => rfl) _ s c).trans
    (if_pos (mem_clustersOf.mpr h))

theorem loadClusters_frame (x : PartCtx) (s : State) : ∃ clusters, loadClusters x s = { s with clusters := clusters } :=
  clustersOnly_foldl (fun _ _ => ⟨_, rfl⟩) _ s

theorem State.dec_setDec (s : State) (d e : Nat) (x : Decomposer) : (s.setDec d x).dec e = if e = d then x else s.dec e := by
  by_cases h : e = d
  · rw [h, if_pos rfl]; exact Table.get_set_same ..
  · rw [if_neg h]; exact Table.get_set_other _ _ _ h

theorem dec_loadDecs (s0 s : State) {l : List Nat} {e : Nat} (h : e ∈ l) : (loadDecs (l.map fun d => (d, s0.dec d)) s).dec e = s0.dec e := by
  unfold loadDecs
  rw [List.foldl_map]
  exact (foldl_pointwise_at (get := State.dec) (g := fun d _ => s0.dec d)
    (fun s c d => (State.dec_setDec s c d _).trans (by split_ifs <;> simp [*])) (fun _ _ => rfl) l s e).trans (if_pos h)

theorem loadDecs_frame (l : List (Nat × Decomposer)) (s : State) : ∃ decs, loadDecs l s = { s with decs := decs } := by
  unfold loadDecs
  induction l generalizing s with
  | nil => exact ⟨_, rfl⟩
  | cons e l ih =>
    obtain ⟨_, rest⟩ := ih (s.setDec e.1 e.2)
    rw [List.foldl_cons, rest]
    exact ⟨_, rfl⟩

theorem part_loadPart (x : PartCtx) (s : State) : (loadPart x s).part x.part = { s.part x.part with
    queues := x.queues, chans := x.chans, halted := x.halted
    prefQ := (x.threads.map Prod.fst).filter fun k => !(s.thread k).prefs.isEmpty } := State.part_setPart_same ..

/-! ### The whole restore -/

/-- What stands in `u` once partition `p`'s context in `s0` has come back in `s`, halted or not. -/
structure CameBack (p : Nat) (s0 s u : State) : Prop where
  plat : u.plat = s.plat
  dies : u.dies = s.dies
  thread : ∀ k, u.thread k = if k ∈ s0.threadsOf p then broughtBack (s.listed p) (k, s0.thread k) else
    if k ∈ s.threadsOf p then Thread.zero else s.thread k
  queues : (u.part p).queues = (s0.part p).queues
  ptroot : (u.part p).ptroot = (s.part p).ptroot
  cluster : ∀ c, c / 10 = p → u.cluster c = (s0.cluster c).reloaded (s.cluster c)
  dec : ∀ e ∈ decsOf p, u.dec e = s0.dec e
  mem : u.mem = reloadMem (scratchLo p) (scratchLo (p + 1)) s0.mem s.mem

/-- It has come back as it was saved: running or halted. -/
structure Reloaded (p : Nat) (s0 s u : State) : Prop extends CameBack p s0 s u where
  chans : (u.part p).chans = (s0.part p).chans
  halted : (u.part p).halted = (s0.part p).halted
  core : ∀ c, c / 40 = p → u.core c = (s0.core c).reloaded (s.core c)

/-- A halt leaves what has come back. -/
theorem CameBack.of_turned {p : Nat} {s0 s v u : State} (h : CameBack p s0 s v) (halt : Turned haltSlots true p v u) : CameBack p s0 s u := by
  obtain ⟨_, _, eq⟩ := halt.frame
  have part := halt.part
  subst eq
  exact { h with
    queues := (congrArg Partition.queues part :).trans h.queues
    ptroot := (congrArg Partition.ptroot part :).trans h.ptroot }

theorem partCtx_core {p c : Nat} (s : State) (h : c / 40 = p) : (partCtx p s).cores.get c Core.reset = s.core c :=
  Table.get_keysIn s.cores (by omega) Core.reset

theorem partCtx_cluster {p c : Nat} (s : State) (h : c / 10 = p) : (partCtx p s).clusters.get c Cluster.reset = s.cluster c :=
  Table.get_keysIn s.clusters (by omega) Cluster.reset

theorem reloaded_reload (p : Nat) (s0 s : State) : Reloaded p s0 s (reload (partCtx p s0) s) := by
  have gone := thread_dropThreads_of_kept (partCtx p s0).holds p s
  have root := ptroot_dropThreads (partCtx p s0).holds p s
  obtain ⟨_, _, _, _, eq⟩ := dropThreads_frame (partCtx p s0).holds p s
  have back := thread_loadThreads (s.listed p) p s0 (dropThreads (partCtx p s0).holds p s)
  obtain ⟨_, _, eq'⟩ := loadThreads_frame (s.listed p) (s0.listed p) (dropThreads (partCtx p s0).holds p s)
  change Reloaded p s0 s (loadStorage (partCtx p s0) (loadDecs ((decsOf p).map fun d => (d, s0.dec d)) (loadPart (partCtx p s0)
    (loadClusters (partCtx p s0) (loadCores (partCtx p s0) (loadThreads (s.listed p) (s0.listed p) (dropThreads (partCtx p s0).holds p s)))))))
  generalize dropThreads (partCtx p s0).holds p s = dropped at *
  generalize loadThreads (s.listed p) (s0.listed p) dropped = b at *
  have cores (c : Nat) (h : c / 40 = p) := core_loadCores (partCtx p s0) b (c := c) h
  obtain ⟨_, eqCores⟩ := loadCores_frame (partCtx p s0) b
  generalize loadCores (partCtx p s0) b = withCores at *
  have clusters (c : Nat) (h : c / 10 = p) := cluster_loadClusters (partCtx p s0) withCores (c := c) h
  obtain ⟨_, eqClusters⟩ := loadClusters_frame (partCtx p s0) withCores
  generalize loadClusters (partCtx p s0) withCores = withClusters at *
  have decs (e : Nat) (h : e ∈ decsOf p) := dec_loadDecs s0 (loadPart (partCtx p s0) withClusters) h
  obtain ⟨_, eqDecs⟩ := loadDecs_frame ((decsOf p).map fun d => (d, s0.dec d)) (loadPart (partCtx p s0) withClusters)
  generalize loadDecs ((decsOf p).map fun d => (d, s0.dec d)) (loadPart (partCtx p s0) withClusters) = withDecs at *
  have part := part_loadPart (partCtx p s0) withClusters
  subst eqDecs eqClusters eqCores
  have kept : (State.part b p).ptroot = (s.part p).ptroot := (congrArg (fun u => (State.part u p).ptroot) eq').trans root
  exact {
    plat := by rw [eq', eq]; rfl
    dies := by rw [eq', eq]; rfl
    thread := fun k => (back k).trans (by rw [gone])
    queues := (congrArg Partition.queues part :)
    ptroot := (congrArg Partition.ptroot part :).trans kept
    chans := (congrArg Partition.chans part :)
    halted := (congrArg Partition.halted part :)
    core := fun c h => by
      refine (cores c h).trans ?_
      rw [eq', eq]
      exact congrArg (Core.reloaded · _) (partCtx_core s0 h)
    cluster := fun c h => by
      refine (clusters c h).trans ?_
      rw [eq', eq]
      exact congrArg (Cluster.reloaded · _) (partCtx_cluster s0 h)
    dec := decs
    mem := by rw [eq', eq]; rfl }

/-- After a thermal stop what has come back is halted (R406). -/
theorem turned_loadCtx {p : Nat} {s0 s : State} (hot : s.plat.limit = 3) :
    Turned haltSlots true p (reload (partCtx p s0) s) (loadCtx (partCtx p s0) s) := by
  rw [loadCtx_eq_reload, (reloaded_reload p s0 s).plat, if_pos hot]
  exact turned_haltPart p _

theorem reloaded_loadCtx {p : Nat} {s0 s : State} (cool : s.plat.limit ≠ 3) : Reloaded p s0 s (loadCtx (partCtx p s0) s) := by
  rw [loadCtx_eq_reload, (reloaded_reload p s0 s).plat, if_neg cool]
  exact reloaded_reload p s0 s

theorem cameBack_loadCtx (p : Nat) (s0 s : State) : CameBack p s0 s (loadCtx (partCtx p s0) s) := by
  by_cases hot : s.plat.limit = 3
  · exact (reloaded_reload p s0 s).toCameBack.of_turned (turned_loadCtx hot)
  · exact (reloaded_loadCtx hot).toCameBack

/-! ### Restore as an operation of PSWAP (R357) -/

/-- The die's shadow store is empty. -/
def State.unshadowed (s : State) (d : Nat) : State := { s with dies := s.dies.set d { s.die d with shadow := none } }

theorem restorePart_of_shadow {p : Nat} {s : State} {x : PartCtx} (spill : (s.die (p / 8)).pswap.getLsbD 11 = false)
    (held : (s.die (p / 8)).shadow = some x) (own : x.part = p) : restorePart p s = loadCtx x (s.unshadowed (p / 8)) := by
  unfold restorePart
  simp only [spill, held, own, if_true, Bool.false_eq_true, if_false]
  rfl

theorem restorePart_of_no_context {p : Nat} {s : State} (spill : (s.die (p / 8)).pswap.getLsbD 11 = false)
    (other : ∀ x, (s.die (p / 8)).shadow = some x → x.part ≠ p) : restorePart p s = s := by
  unfold restorePart
  simp only [spill, Bool.false_eq_true, if_false]
  split
  · next x held => rw [if_neg (other x held)]
  · rfl

theorem pswapRestore_spec_of_no_context {p : Nat} {s : State} (due : s.Due 3 p) (spill : (s.die (p / 8)).pswap.getLsbD 11 = false)
    (other : ∀ x, (s.die (p / 8)).shadow = some x → x.part ≠ p) : ∃ u : State, exec (.pswapRestore p) s = .next u ∧
      (u.mem = s.mem ∧ u.th = s.th ∧ u.parked = s.parked) ∧
      u.die (p / 8) = { s.die (p / 8) with ran := true, shadow := (s.die (p / 8)).shadow } := by
  refine ⟨_, pswapRun_due due _, ?_⟩
  rw [restorePart_of_no_context spill other]
  exact ⟨⟨rfl, rfl, rfl⟩, die_pswapRan_of_dies rfl p⟩

theorem execPswapRestore_of_held {p : Nat} {s : State} (due : s.Due 3 p) (spill : (s.die (p / 8)).pswap.getLsbD 11 = false) (s0 : State)
    (held : (s.die (p / 8)).shadow = some (partCtx p s0)) :
    exec (.pswapRestore p) s = .next (pswapRan p (loadCtx (partCtx p s0) (s.unshadowed (p / 8)))) := by
  rw [← restorePart_of_shadow spill held rfl]
  exact pswapRun_due due _

/-- A restore of a context the shadow store holds empties the store. -/
theorem CameBack.die {p : Nat} {s0 s u : State} (h : CameBack p s0 (s.unshadowed (p / 8)) u) :
    (pswapRan p u).die (p / 8) = { s.die (p / 8) with ran := true, shadow := none } := by
  rw [die_pswapRan_of_dies h.dies, State.unshadowed, State.die, Table.get_set_same]

theorem CameBack.thread_back {p k : Nat} {s0 s u : State} (h : CameBack p s0 s u) (lives : s0.LivesIn p k) : u.thread k =
    if (s.thread k).live = true ∧ (s.thread k).part = p ∧ (s.thread k).tid = (s0.thread k).tid then
      { s0.thread k with prefs := (s0.thread k).prefs.filter fun r => (s.thread k).prefs.any fun y => y.id == r.id } else s0.thread k := by
  rw [h.thread, if_pos (State.mem_threadsOf.mpr lives), broughtBack_listed]

theorem CameBack.thread_gone {p k : Nat} {s0 s u : State} (h : CameBack p s0 s u) (lives : s.LivesIn p k) (gone : ¬ s0.LivesIn p k) :
    (u.thread k).live = false := by
  rw [h.thread, if_neg (mt State.mem_threadsOf.mp gone), if_pos (State.mem_threadsOf.mpr lives)]
  rfl

/-- After a thermal stop the partition is halted, every slot of its cores stopped. -/
theorem halted_loadCtx {p : Nat} {s0 s : State} (hot : s.plat.limit = 3) :
    ((loadCtx (partCtx p s0) s).part p).halted = true ∧ ∀ c, c / 40 = p → ((loadCtx (partCtx p s0) s).core c).stop = 0xFF := by
  have turned : Turned haltSlots true p _ _ := turned_loadCtx (s0 := s0) hot
  exact ⟨(congrArg Partition.halted turned.part :), fun c h => (congrArg Prod.fst (turned.slots c h) :)⟩

/-- What a halt and a resume make of channels and STOP bits still stands when the operation has had its effect. -/
theorem Turned.ran {g : BitVec 8 × BitVec 8 → BitVec 8 × BitVec 8} {b : Bool} {p : Nat} {s u : State} (h : Turned g b p s u) :
    (∀ n < 16, (pswapRan p u).chan p n = { s.chan p n with paused := b }) ∧ ((pswapRan p u).part p).halted = b ∧
      ∀ c, (c / 40 = p → ((pswapRan p u).core c).stop = (g (s.core c).slots).1 ∧ ((pswapRan p u).core c).haltSet = (g (s.core c).slots).2) ∧
        (c / 40 ≠ p → (pswapRan p u).core c = s.core c) :=
  ⟨fun _ hn => h.chan hn, (congrArg Partition.halted h.part :), fun c => ⟨fun hc => Prod.ext_iff.mp (h.slots c hc), h.others c⟩⟩

/-! ### The obligation -/

/-- Settles O51: halts and resumes by what they make of STOP bits, saves by what storage work keeps, and the restore stage by stage. -/
theorem partitionSwap : Obligations.PartitionSwap := by
  unfold Obligations.PartitionSwap
  intro p s
  refine ⟨fun due => ?_, fun due => ?_, ⟨execPswapSave_busy, fun idle due hc hu =>
    ⟨pswapSave_spec_of_shadow idle due hc hu, pswapSave_spec_of_spill idle due hc hu⟩⟩, fun due spill ok => ⟨?_, fun s0 ok0 held => ?_⟩,
    fun die => ⟨fun running => ?_, fun done => ?_⟩⟩
  · obtain ⟨u, run, dies, rest, turned, rfl⟩ := pswapHalt_spec due
    exact ⟨_, run, dies, rest, turned.ran⟩
  · obtain ⟨u, run, dies, rest, rfl⟩ := pswapResume_spec due
    refine ⟨_, run, dies, rest, fun hot => ?_, fun cool => ?_⟩
    · rw [resumePart_eq_turnPart, if_pos hot]
      exact ⟨rfl, fun _ => rfl⟩
    · exact (turned_resumePart cool p).ran
  · exact pswapRestore_spec_of_no_context due spill
  · have run := execPswapRestore_of_held due spill s0 held
    have back := cameBack_loadCtx p s0 (s.unshadowed (p / 8))
    have cool := @reloaded_loadCtx p s0 (s.unshadowed (p / 8))
    have hot := @halted_loadCtx p s0 (s.unshadowed (p / 8))
    generalize loadCtx (partCtx p s0) (s.unshadowed (p / 8)) = u at run back cool hot
    refine ⟨_, run, back.die, fun k lives => back.thread_back lives, fun k lives gone => back.thread_gone lives gone, back.queues,
      back.ptroot, fun c h => ⟨fun h3 => (cool h3).core c h, fun h3 => (hot h3).2 c h⟩,
      fun h3 => ⟨(cool h3).chans, (cool h3).halted⟩, fun h3 => (hot h3).1, back.cluster, back.dec, fun a => ?_⟩
    exact (congrArg (Mem.read · a) back.mem).trans (Mem.read_reloadMem ok0 ok _ _ a)
  · exact if_neg (mt pswapOver_iff.mp running)
  · exact pswapDone_spec (pswapOver_iff.mpr done)

end Sys2Proof.Machine
end

section
/-! SUPPORT. Collectives: what settles O49 (spec/12 R308, R309). -/

namespace Sys2Proof.Machine

/-! ### A broadcast whose ROOT names no rank

COLL refuses a broadcast with ROOT ≥ NP (R308), but the clause on COLLECTIVE_COMPLETE speaks of every collective that has met, and asks
RANK < NP alone. With one member, ROOT 5 and a remote participant of rank 5 that sends 7, the clause has 7 broadcast; the model gathers
what the ranks below NP send, and broadcasts 0. -/

/-- A collective record: one element of format 1 (8 bits), KIND 3 (broadcast), RANK 0, NP 1 and ROOT 5; SBUF, RBUF and STAT stand apart. -/
def strayRecord : BitVec 512 :=
  0x10000#512 <<< 64 ||| 0x20000#512 <<< 128 ||| 1#512 <<< 192 ||| 1#512 <<< 224 ||| 3#512 <<< 235 ||| 5#512 <<< 320 ||| 0x7000#512 <<< 384

/-- Its participant on this device. -/
def strayParty : Party := ⟨0, 0, false, strayRecord, [], [], false, false⟩

/-- The collective once it has met, with a participant elsewhere that has the rank ROOT names. -/
def strayColl : Coll := ⟨0, [0x80], [strayParty], [⟨5, 1, 0, 3, 1, 5, [7]⟩], true, false⟩

/-- A card with nothing but that collective. -/
def strayState : State := { State.reset with colls := [strayColl] }

/-- The byte of RBUF in what an outcome leaves. -/
def strayByte (o : Out) : Option Nat := match o with
  | .next u => some (u.mem.readLE 0x20000 1)
  | _ => none

theorem strayParty_rbuf : strayParty.rbuf = 0x20000 := by decide +kernel

theorem strayParty_esize : strayParty.esize = 1 := by decide +kernel

theorem strayParty_plain : strayParty.Plain strayState := by
  unfold Party.Plain InHbm
  decide +kernel

theorem strayState_plainMem : PlainMem strayState := by
  unfold PlainMem NoUpdates
  decide +kernel

/-- The model broadcasts 0: no rank below NP is ROOT. -/
theorem strayByte_collectiveComplete : strayByte (exec (.collectiveComplete 0) strayState) = some 0 := by decide +kernel

/-- Refutes O49: its clause on COLLECTIVE_COMPLETE has a broadcast whose ROOT is no rank below NP give what a participant of that rank sends. -/
theorem not_collectives : ¬ Obligations.Collectives := by
  unfold Obligations.Collectives
  intro h
  obtain ⟨-, ends⟩ := h
  have only : ∀ p ∈ strayColl.parties, p = strayParty := fun p hp => List.mem_singleton.mp hp
  obtain ⟨-, complete, -⟩ := ends 0 strayColl strayState rfl (fun p hp => only p hp ▸ strayParty_plain) strayState_plainMem rfl
  obtain ⟨u, run, -, -, received⟩ := complete rfl rfl
    (fun p hp => by
      rw [only p hp]
      unfold RunInHbm
      decide +kernel)
    (fun p hp q hq => by rw [only p hp, only q hq])
    (List.pairwise_singleton _ _)
    (by decide +kernel)
  have seven : u.mem.readLE 0x20000 1 = 7 := by
    have got := received strayParty List.mem_cons_self 0 (by decide +kernel)
    rw [strayParty_rbuf, strayParty_esize, Nat.zero_mul, Nat.add_zero] at got
    exact got.trans (by decide +kernel)
  have zero := strayByte_collectiveComplete
  rw [run] at zero
  have zero : u.mem.readLE 0x20000 1 = 0 := Option.some.inj zero
  omega

end Sys2Proof.Machine
end

section
/-! SUPPORT. Rounding under the five modes (spec/05 R100): what settles O7. -/

namespace Sys2Proof.Machine

/-- Whether R100 takes the larger of the two neighbouring multiples, where a magnitude lost its low bits `rem`, `n` is what is left of it
and `half` lies midway between the two. -/
def roundsUp (rm : RM) (neg : Bool) (n rem half : Nat) : Bool :=
  match rm with
  | .rne => decide (half < rem) || decide (rem = half) && n % 2 == 1
  | .rna => decide (half ≤ rem)
  | .rtz => false
  | .rdn => neg && decide (rem ≠ 0)
  | .rup => !neg && decide (rem ≠ 0)

/-- A magnitude of which bits are dropped rounds to the multiple below it or to the next one. -/
theorem roundMag_of_dropped (rm : RM) (neg : Bool) (m k : Nat) (e : Int) (dropped : 0 < k) :
    (roundMag rm neg m e false (e + k)).1 = m / 2 ^ k + b2n (roundsUp rm neg (m / 2 ^ k) (m % 2 ^ k) (2 ^ (k - 1))) := by
  have above : ¬ e + (k : Int) ≤ e := by omega
  have bits : (e + (k : Int) - e).toNat = k := by omega
  have add (b : Bool) (n : Nat) : (if b = true then n + 1 else n) = n + b2n b := by cases b <;> rfl
  rw [roundMag, if_neg above]
  simp only [bits, Nat.shiftRight_eq_div_pow, add, Bool.or_false, Bool.false_or]
  cases rm <;> rfl

/-- The rounded multiple of `2 ^ k`, and what it falls short of the magnitude: the bits dropped, or these less `2 ^ k`. -/
theorem roundMag_neighbours (rm : RM) (neg : Bool) (m k : Nat) (e : Int) (dropped : 0 < k) :
    let n : Int := (roundMag rm neg m e false (e + k)).1
    let up := roundsUp rm neg (m / 2 ^ k) (m % 2 ^ k) (2 ^ (k - 1))
    (up = false ∧ n = (m / 2 ^ k : Nat) ∧ m - n * 2 ^ k = (m % 2 ^ k : Nat)) ∨
      (up = true ∧ n = (m / 2 ^ k : Nat) + 1 ∧ m - n * 2 ^ k = (m % 2 ^ k : Nat) - 2 ^ k) := by
  intro n up
  have nearest : n = (m / 2 ^ k + b2n up : Nat) := congrArg _ (roundMag_of_dropped rm neg m k e dropped)
  have whole : (2 : Int) ^ k * (m / 2 ^ k : Nat) + (m % 2 ^ k : Nat) = m := by exact_mod_cast Nat.div_add_mod m (2 ^ k)
  rcases up with _ | _
  · have low : n = (m / 2 ^ k : Nat) := nearest
    exact .inl ⟨rfl, low, by rw [low]; linarith⟩
  · have high : n = (m / 2 ^ k : Nat) + 1 := nearest
    exact .inr ⟨rfl, high, by rw [high]; linarith⟩

/-- Settles O7, each mode by when it takes the larger neighbour. -/
theorem roundingModes : Obligations.RoundingModes := by
  intro neg m k e dropped n off
  have neighbours (rm : RM) := roundMag_neighbours rm neg m k e dropped
  have double : (2 : Int) ^ k = 2 * (2 ^ (k - 1) : Nat) := by
    rw [Nat.cast_pow, Nat.cast_ofNat, ← pow_succ', Nat.sub_add_cancel dropped]
  have below : ((m % 2 ^ k : Nat) : Int) < 2 ^ k := by exact_mod_cast Nat.mod_lt m (Nat.two_pow_pos k)
  change ∀ rm, (_ ∧ n rm = _ ∧ off rm = _) ∨ (_ ∧ n rm = _ ∧ off rm = _) at neighbours
  rw [double] at below neighbours ⊢
  generalize m % 2 ^ k = rem at below neighbours
  generalize m / 2 ^ k = quot at neighbours
  generalize 2 ^ (k - 1) = half at below neighbours
  simp only [Int.abs_eq_natAbs]
  refine ⟨?_, ?_, ?_, ?_, ?_⟩
  · obtain ⟨up, hn, ho⟩ | ⟨up, hn, ho⟩ := neighbours .rne <;> simp [roundsUp] at up <;> omega
  · obtain ⟨-, -, ho⟩ | ⟨⟨⟩, -⟩ := neighbours .rtz
    omega
  · obtain ⟨up, hn, ho⟩ | ⟨up, hn, ho⟩ := neighbours .rna <;> simp [roundsUp] at up <;> omega
  · cases neg <;> obtain ⟨up, hn, ho⟩ | ⟨up, hn, ho⟩ := neighbours .rdn <;> simp [roundsUp] at up ⊢ <;> omega
  · cases neg <;> obtain ⟨up, hn, ho⟩ | ⟨up, hn, ho⟩ := neighbours .rup <;> simp [roundsUp] at up ⊢ <;> omega

end Sys2Proof.Machine
end

section
/-! SUPPORT. What every vector word that runs whole does: the checks it passes at issue, the elements it does, and its element loop (spec/06
R124, R126, spec/08 R194, R225, spec/19 R348, R349). -/

namespace Sys2Proof.Machine

/-! ### The configuration of a ready word -/

theorem vcOf_sew {s : State} (begun : s.th.AsBegun) : (vcOf s).sew = s.th.sew := by
  show 8 * 2 ^ Thread.sewCode { s.th with vcfg := s.th.begins.vcfg } = _
  rw [begun]
  rfl

theorem vcOf_regs {s : State} (begun : s.th.AsBegun) : (vcOf s).regs = s.gregs := by
  show 2 ^ Thread.grp { s.th with vcfg := s.th.begins.vcfg } = _
  rw [begun]
  rfl

/-- Registers of `r` bytes hold elements of `w` bits without a gap. -/
structure WidthOk (r w : Nat) : Prop where
  pos : 0 < r
  le : r ≤ 1024
  bytes : w % 8 = 0
  dvd : w / 8 ∣ r

theorem WidthOk.fits {r w : Nat} (h : WidthOk r w) (i : Nat) : i * (w / 8) % r + w / 8 ≤ r := by
  obtain ⟨c, rfl⟩ := h.dvd
  have pos := h.pos
  have below : i % c < c := Nat.mod_lt _ (Nat.pos_of_mul_pos_left pos)
  calc i * (w / 8) % (w / 8 * c) + w / 8 = w / 8 * (i % c) + w / 8 := by rw [Nat.mul_comm i, Nat.mul_mod_mul_left]
    _ = w / 8 * (i % c + 1) := by ring
    _ ≤ w / 8 * c := Nat.mul_le_mul_left _ below

theorem WidthOk.elem_pos {r w : Nat} (h : WidthOk r w) : 0 < w / 8 := by
  obtain ⟨c, rfl⟩ := h.dvd
  exact Nat.pos_of_mul_pos_right h.pos

theorem Thread.sew_mem (t : Thread) : t.sew ∈ [8, 16, 32, 64] := by
  have code : t.sewCode < 4 := Nat.mod_lt _ (by decide)
  unfold Thread.sew
  interval_cases t.sewCode <;> decide

theorem Thread.sew_le (t : Thread) : t.sew ≤ 64 := by
  have width := t.sew_mem
  simp only [List.mem_cons, List.not_mem_nil, or_false] at width
  omega

/-- A register has 128, 256, 512 or 1,024 bytes, and SEW is 8, 16, 32 or 64 (R190, R192). -/
theorem widthOk_sew (s : State) : WidthOk s.rbytes s.th.sew := by
  have bytes : s.rbytes ∈ [128, 256, 512, 1024] := by
    show 16 * threadLanes s _ ∈ _
    generalize ({ s.th with vcfg := s.th.begins.vcfg } : Thread) = t
    unfold threadLanes lanesOf Core.lpc
    cases t.isL <;> cases (s.core t.coreNo).full <;> decide
  have width := s.th.sew_mem
  simp only [List.mem_cons, List.not_mem_nil, or_false] at bytes width
  rcases bytes with h | h | h | h <;> rcases width with h' | h' | h' | h' <;> rw [h, h'] <;> constructor <;> decide

/-- Elements below VL lie within the group (R192). -/
theorem State.inGroup {s : State} (begun : s.th.AsBegun) {i : Nat} (h : i < s.vl) :
    i * (s.th.sew / 8) < s.gregs * s.rbytes := by
  have most : s.vl ≤ s.rbytes * s.gregs / (s.th.sew / 8) := by
    rw [← vcOf_regs begun, ← vcOf_sew begun]
    exact Nat.min_le_right _ _
  calc i * (s.th.sew / 8) < (i + 1) * (s.th.sew / 8) := Nat.mul_lt_mul_of_pos_right i.lt_succ_self (widthOk_sew s).elem_pos
    _ ≤ s.rbytes * s.gregs / (s.th.sew / 8) * (s.th.sew / 8) := Nat.mul_le_mul_right _ (h.trans_le most)
    _ ≤ s.rbytes * s.gregs := Nat.div_mul_le_self ..
    _ = s.gregs * s.rbytes := Nat.mul_comm ..

/-! ### Groups that are at rest -/

/-- Nothing damages the vector registers, and nothing under way has yet to fill them. -/
def Thread.AtRest (t : Thread) : Prop := t.vpoison = [] ∧ t.vldas = [] ∧ ∀ l ∈ t.loads, l.vec = none

theorem M.run_rdV {s : State} (rest : s.th.AtRest) (v : VC) (reg w i : Nat) : rdV v reg w i s = .ok (s.th.vget v.r reg w i) s := by
  obtain ⟨unmarked, noVlda, noLoad⟩ := rest
  have loaded : s.th.unloaded v.r reg w i = false := by
    refine List.any_eq_false.mpr fun l hl => ?_
    rw [noLoad l hl]
    exact Bool.false_ne_true
  have filled : s.th.unfilled v.r reg w i = false := by rw [Thread.unfilled, noVlda]; rfl
  have peek : peekV v reg w i s = .ok (s.th.vget v.r reg w i) s := by
    unfold peekV
    rw [M.run_bind_ok (M.run_getTh s), noVlda]
    cases s.th.loads with
    | nil => rfl
    | cons l ls =>
      simp only [filled, loaded, Bool.false_eq_true, if_false]
      rfl
  have clean : cleanV v reg w i s = .ok () s := by
    unfold cleanV
    rw [M.run_bind_ok (M.run_getTh s), unmarked]
    rfl
  unfold rdV
  rw [M.run_bind_ok peek, M.run_bind_ok clean, M.run_pure]

theorem M.run_needGroups {s : State} (rest : s.th.AtRest) (l : List (Nat × Nat)) : needGroups l s = .ok () s := by
  obtain ⟨-, noVlda, noLoad⟩ := rest
  unfold needGroups
  rw [M.run_bind_ok (M.run_getTh s), noVlda]
  cases loads : s.th.loads with
  | nil => rfl
  | cons x xs =>
    rw [loads] at noLoad
    simp only [List.any_nil, Bool.false_eq_true, if_false]
    rw [if_neg]
    · rfl
    · rw [Bool.not_eq_true, List.any_eq_false]
      intro y hy
      rw [noLoad y hy]
      exact Bool.false_ne_true

/-! ### What a ready word passes at issue -/

theorem GroupOk.grpBad {r : BitVec 6} {n : Nat} (h : GroupOk r n) : ∀ x ∈ Machine.grpBad r n, x.1 = false := by
  obtain ⟨aligned, inside⟩ := h
  unfold Machine.grpBad
  simp [aligned, inside]

theorem VecReady.live {s : State} {f : Fields} (h : VecReady s f) : s.th.live = true := h.1
theorem VecReady.begun {s : State} {f : Fields} (h : VecReady s f) : s.th.AsBegun := h.2.1

theorem VecReady.atRest {s : State} {f : Fields} (h : VecReady s f) : s.th.AtRest := by
  obtain ⟨-, -, -, unmarked, noVlda, noLoad, -⟩ := h
  exact ⟨unmarked, noVlda, noLoad⟩

theorem VecReady.whole {s : State} {f : Fields} (h : VecReady s f) : (vcOf s).step = false := by
  obtain ⟨-, -, -, -, -, -, whole, -⟩ := h
  exact whole

theorem VecReady.run_checkList {s : State} {f : Fields} (h : VecReady s f) : checkList f s = .ok () s := by
  obtain ⟨-, -, -, -, -, -, -, -, list⟩ := h
  unfold checkList
  rw [M.run_bind_ok (M.run_getTh s)]
  split
  · rename_i lm
    obtain ⟨sorted, unsigned, key, length⟩ := list lm
    exact M.run_raiseIf (by simp [sorted, unsigned, key, length]) ..
  · rfl

theorem VecReady.run_vIssue {s : State} {f : Fields} (h : VecReady s f) (v : VC) {feats bad : List (Bool × Nat)}
    (has : ∀ x ∈ feats, (x.1 && !featHas s x.2) = false) (good : ∀ x ∈ bad, x.1 = false) (groups : List (Nat × Nat)) :
    vIssue v f feats bad groups [] s = .ok () s := by
  have here : s.th.vectorHere = true := h.2.2.1
  have feat : ∀ x ∈ feats.map (fun x => (x.1 && !featHas s x.2, 0x020 + x.2)), x.1 = false := by
    intro x hx
    obtain ⟨y, hy, rfl⟩ := List.mem_map.mp hx
    exact has y hy
  have vector : needVector s = .ok () s := by
    unfold needVector
    rw [M.run_bind_ok (M.run_getTh s), here]
    rfl
  unfold vIssue
  rw [M.run_bind_ok (M.run_get s), M.run_bind_ok (M.run_raiseFirst feat 0 s), M.run_bind_ok (M.run_fabFirst (eas := []) (by simp) s),
    M.run_bind_ok vector, M.run_bind_ok (M.run_raiseFirst good _ s), M.run_bind_ok h.run_checkList, M.run_needGroups h.atRest]

/-! ### The elements a word does -/

theorem M.run_mapM {α β : Type} {g : α → M β} {x : α → β} {s : State} {l : List α} (h : ∀ a ∈ l, g a s = .ok (x a) s) :
    l.mapM g s = .ok (l.map x) s := by
  induction l with
  | nil => rfl
  | cons a l ih =>
    rw [List.mapM_cons, M.run_bind_ok (h a List.mem_cons_self), M.run_bind_ok (ih fun b hb => h b (List.mem_cons_of_mem _ hb))]
    rfl

theorem M.run_activeList {s : State} (rest : s.th.AtRest) (f : Fields) : activeList (vcOf s) f s = .ok (s.actives f) s := by
  unfold activeList
  rw [M.run_bind_ok (M.run_getTh s)]
  have below : ∀ i ∈ List.range s.vl, (decide (i < s.vl)) = true := fun i hi => decide_eq_true (List.mem_range.mp hi)
  have enabled : s.th.enabledList (vcOf s).vl f.m f.mn = (List.range s.vl).filter (s.th.enabled f.m f.mn) := rfl
  rw [enabled]
  cases lm : f.lm with
  | true =>
    dsimp only
    rw [if_pos rfl, M.run_bind_ok (M.run_mapM fun i _ => M.run_rdV rest (vcOf s) f.c.toNat 32 i), M.run_pure, List.filter_filter]
    refine congrArg (EStateM.Result.ok · s) (List.filter_congr fun i hi => ?_)
    simp only [State.active, below i hi, lm, Bool.true_and, Bool.not_true, Bool.false_or, List.contains_eq_any_beq, List.any_map]
    rw [Bool.and_comm]
    congr 2
    funext k
    exact Bool.beq_comm
  | false =>
    dsimp only
    rw [if_neg Bool.false_ne_true, M.run_pure]
    refine congrArg (EStateM.Result.ok · s) (List.filter_congr fun i hi => ?_)
    simp only [State.active, below i hi, lm, Bool.true_and, Bool.not_false, Bool.true_or, Bool.and_true]

theorem State.todo_actives (s : State) (f : Fields) (w : Nat) : (vcOf s).todo s.th w (s.actives f) = s.todos f w := by
  unfold VC.todo State.actives State.todos
  rw [List.filter_filter]
  refine List.filter_congr fun i _ => ?_
  rw [State.todo, State.ahead, Bool.and_comm]

theorem M.run_activeTodo {s : State} (rest : s.th.AtRest) (f : Fields) :
    activeTodo (vcOf s) f s = .ok (s.todos f (vcOf s).sew) s := by
  unfold activeTodo
  rw [M.run_bind_ok (M.run_activeList rest f), M.run_bind_ok (M.run_getTh s), M.run_pure, State.todo_actives]

theorem State.mem_todos {s : State} {f : Fields} {w i : Nat} : i ∈ s.todos f w ↔ s.todo f w i = true := by
  rw [State.todos, List.mem_filter, List.mem_range, and_iff_right_iff_imp]
  simp only [State.todo, State.active, Bool.and_eq_true, decide_eq_true_eq]
  rintro ⟨⟨⟨below, -⟩, -⟩, -⟩
  exact below

theorem State.lt_of_mem_todos {s : State} {f : Fields} {w i : Nat} (h : i ∈ s.todos f w) : i < s.vl :=
  List.mem_range.mp (List.mem_filter.mp h).1

theorem State.nodup_todos (s : State) (f : Fields) (w : Nat) : (s.todos f w).Nodup := List.nodup_range.filter _

/-- What of a filtered range lies before one of its members. -/
theorem filter_range_before {n i : Nat} {p : Nat → Bool} {done rest : List Nat} (h : (List.range n).filter p = done ++ i :: rest) :
    (List.range i).filter p = done := by
  have mem : i ∈ (List.range n).filter p := h ▸ List.mem_append_right _ List.mem_cons_self
  obtain ⟨below, holds⟩ := List.mem_filter.mp mem
  have split : List.range n = List.range i ++ i :: (List.range (n - i - 1)).map (i + 1 + ·) := by
    have : n = i + 1 + (n - i - 1) := by have := List.mem_range.mp below; omega
    conv_lhs => rw [this, List.range_add, List.range_succ, List.append_assoc]
    rfl
  have once := List.nodup_range (n := n) |>.filter p
  rw [h] at once
  rw [split, List.filter_append, List.filter_cons_of_pos holds] at h
  have distinct := List.nodup_middle.mp once
  exact ((List.append_cons_inj_of_notMem
    (fun hi => absurd (List.mem_range.mp (List.mem_filter.mp hi).1) (lt_irrefl i))
    (fun hi => by
      obtain ⟨k, -, hk⟩ := List.mem_map.mp (List.mem_filter.mp hi).1
      omega)).mp h).1

/-! ### Element loops -/

/-- A scalar operand that is in order needs no care before the first element. -/
theorem M.run_cleanFirst {clean : M Unit} {s : State} (h : clean s = .ok () s) (first : Option (M Unit)) :
    cleanFirst clean first s = .ok () s := by
  have h' : clean.run s = .ok () s := h
  unfold cleanFirst
  rw [M.run_bind_ok (M.run_get s), h']
  rfl

/-- Elements that each keep an invariant of what is done run to the end of their list. -/
theorem M.run_runElems {mark : Nat → Thread → Thread} {vp tp : Bool} {body : Nat → M Unit} {inv : List Nat → State → Prop} (l : List Nat)
    (step : ∀ done i rest u, l = done ++ i :: rest → inv done u → ∃ u', body i u = .ok () u' ∧ inv (done ++ [i]) u')
    (first : Bool) {s : State} (start : inv [] s) : ∃ t, runElems mark vp tp body first l s = .ok () t ∧ inv l t := by
  suffices on : ∀ (rest done : List Nat) (first : Bool) (u : State), l = done ++ rest → inv done u →
      ∃ t, runElems mark vp tp body first rest u = .ok () t ∧ inv l t from on l [] first s rfl start
  intro rest
  induction rest with
  | nil =>
    intro done first u all here
    rw [List.append_nil] at all
    exact ⟨u, rfl, all ▸ here⟩
  | cons i rest ih =>
    intro done first u all here
    obtain ⟨u', run, next⟩ := step done i rest u all here
    obtain ⟨t, more, final⟩ := ih (done ++ [i]) false u' (by rw [all, List.append_assoc, List.singleton_append]) next
    refine ⟨t, ?_, final⟩
    have run' : (body i).run u = .ok () u' := run
    unfold runElems
    rw [M.run_bind_ok (M.run_get u), run']
    exact (M.run_bind_ok (M.run_set u' u)).trans more

/-- The marks of a loop go, and its progress is made zero, where nothing was damaged. -/
theorem Thread.finishV_mark {t : Thread} (unmarked : t.vpoison = []) (v : VC) (dst : List (Nat × Nat)) (done : List Nat) (e : Nat) :
    (v.mark dst done e t).finishV = t.finishV := by
  have still (dst : List (Nat × Nat)) (t : Thread) (h : t.vpoison = []) :
      dst.foldl (fun t d => t.clearMarks v.r d.1 d.2 done) t = t := by
    induction dst with
    | nil => rfl
    | cons d dst ih =>
      have one : t.clearMarks v.r d.1 d.2 done = t := by unfold Thread.clearMarks; rw [h]
      rw [List.foldl_cons, one, ih]
  unfold VC.mark
  rw [still dst (t.progress v e) unmarked]
  rfl

/-- A loop that no stop and no element step cuts runs through the elements its word has still to do, and ends its progress (R349). -/
theorem M.run_vloop {v : VC} {w vl : Nat} {dst : List (Nat × Nat)} {act : List Nat} {body : Nat → M Unit} {clean : M Unit}
    {inv : List Nat → State → Prop} {s : State} (whole : v.step = false) (cleaned : clean s = .ok () s)
    (step : ∀ done i rest u, v.todo s.th w act = done ++ i :: rest → inv done u → ∃ u', body i u = .ok () u' ∧ inv (done ++ [i]) u')
    (start : inv [] s) (unmarked : ∀ done u, inv done u → u.th.vpoison = []) :
    ∃ t, vloop v w vl dst act body clean s = .ok () { t with th := t.th.finishV } ∧ inv (v.todo s.th w act) t := by
  have plan : v.plan s.th w vl act = (v.todo s.th w act, none) := by
    unfold VC.plan
    rw [whole]
    rfl
  obtain ⟨t, run, final⟩ := M.run_runElems (mark := fun e => v.mark dst ((v.todo s.th w act).filter (decide <| · < e)) e) (vp := true)
    (tp := false) (v.todo s.th w act) step true start
  refine ⟨t, ?_, final⟩
  unfold vloop
  rw [M.run_bind_ok (M.run_getTh s), plan]
  dsimp only
  rw [M.run_bind_ok (M.run_cleanFirst cleaned _), M.run_bind_ok run]
  have last : v.loopEnd dst (v.todo s.th w act) none t = .ok () { t with th := (v.mark dst (v.todo s.th w act) 0 t.th).finishV } := rfl
  rw [last, Thread.finishV_mark (unmarked _ _ final)]

/-! ### Elements of a group -/

/-- The bits beside a field that was replaced. -/
theorem field_beside_replaced {n w sh sh' : Nat} (apart : sh' + w ≤ sh ∨ sh + w ≤ sh') (old : BitVec n) (x : Nat) :
    ((old &&& ~~~(BitVec.ofNat n (2 ^ w - 1) <<< sh)) ||| ((BitVec.ofNat n x <<< sh) &&& (BitVec.ofNat n (2 ^ w - 1) <<< sh))).toNat >>> sh' % 2 ^ w
      = old.toNat >>> sh' % 2 ^ w := by
  refine Nat.eq_of_testBit_eq fun i => ?_
  simp only [Nat.testBit_mod_two_pow, Nat.testBit_shiftRight, BitVec.testBit_toNat]
  by_cases low : i < w
  · have outside : (BitVec.ofNat n (2 ^ w - 1) <<< sh).getLsbD (sh' + i) = false := by
      rw [BitVec.getLsbD_shiftLeft, BitVec.getLsbD_ofNat, Nat.testBit_two_pow_sub_one]
      by_cases under : sh' + i < sh
      · simp [under]
      · have : ¬ sh' + i - sh < w := by omega
        simp [this]
    by_cases inside : sh' + i < n
    · simp only [BitVec.getLsbD_or, BitVec.getLsbD_and, BitVec.getLsbD_not, outside, decide_eq_true inside, Bool.not_false, Bool.and_true,
        Bool.and_false, Bool.or_false]
    · simp [BitVec.getLsbD_of_ge _ _ (Nat.le_of_not_lt inside)]
  · simp [low]

/-- Elements of one register lie apart. -/
theorem WidthOk.apart {r w i j : Nat} (h : WidthOk r w) (ne : j ≠ i) (same : j * (w / 8) / r = i * (w / 8) / r) :
    8 * (j * (w / 8) % r) + w ≤ 8 * (i * (w / 8) % r) ∨ 8 * (i * (w / 8) % r) + w ≤ 8 * (j * (w / 8) % r) := by
  have bytes := h.bytes
  have hi := Nat.div_add_mod (i * (w / 8)) r
  have hj := Nat.div_add_mod (j * (w / 8)) r
  rw [same] at hj
  rcases Nat.lt_or_gt_of_ne ne with less | more
  · have : j * (w / 8) + w / 8 ≤ i * (w / 8) := by rw [← Nat.succ_mul]; exact Nat.mul_le_mul_right _ less
    omega
  · have : i * (w / 8) + w / 8 ≤ j * (w / 8) := by rw [← Nat.succ_mul]; exact Nat.mul_le_mul_right _ more
    omega

theorem Thread.vreg_setVreg_ne (t : Thread) {n k : Nat} (ne : k ≠ n) (x : BitVec 8192) : (t.setVreg n x).vreg k = t.vreg k := by
  unfold Thread.setVreg Thread.vreg
  split
  · rename_i inside
    exact (vector_getD_set t.v inside k x 0).trans (if_neg ne)
  · rfl

/-- The register of a group that holds an element. -/
theorem register_lt {r w n i : Nat} (here : i * (w / 8) < n * r) : i * (w / 8) / r < n :=
  Nat.div_lt_of_lt_mul (Nat.mul_comm n r ▸ here)

theorem Thread.vput_eq (t : Thread) (r reg w i x : Nat) : t.vput r reg w i x = { t with v := (t.vput r reg w i x).v } := by
  simp only [Thread.vput, Thread.setVreg]
  split <;> rfl

/-- Writing an element leaves the others of its group. -/
theorem Thread.vget_vput_ne {r reg w i j : Nat} (h : WidthOk r w) (t : Thread) (x : Nat) (ne : j ≠ i) :
    (t.vput r reg w i x).vget r reg w j = t.vget r reg w j := by
  by_cases same : j * (w / 8) / r = i * (w / 8) / r
  · simp only [Thread.vget, Thread.vput, Thread.setVreg, Thread.vreg, same]
    split
    · rename_i inside
      rw [vector_getD_set _ inside, if_pos rfl]
      exact field_beside_replaced (h.apart ne same) _ x
    · rfl
  · simp only [Thread.vget, Thread.vput]
    rw [Thread.vreg_setVreg_ne t (by omega)]

/-- The thread `t` comes of `u` by the elements `done` of the group of `n` registers at `reg`, done in this order: each wrote `val` and
raised `fl`, and `sat` says whether it was clamped. -/
structure Thread.Wrote (r reg w n : Nat) (val : Nat → Nat) (sat : Nat → Bool) (fl : Nat → Flags) (done : List Nat) (u t : Thread) :
    Prop where
  elements : ∀ i, i * (w / 8) < n * r → t.vget r reg w i = if i ∈ done then val i % 2 ^ w else u.vget r reg w i
  others : ∀ k, k < reg ∨ reg + n ≤ k → t.vreg k = u.vreg k
  vxsat : t.vxsat = if done.any sat then u.vxsat ||| 1 else u.vxsat
  fflags : t.fflags = u.fflags ||| (done.foldl (fun x i => x ||| fl i) 0).setWidth 64
  rest : t = { u with v := t.v, vxsat := t.vxsat, fflags := t.fflags }

/-- VXSAT and FFLAGS after one element. -/
def Thread.tally (t : Thread) (sat : Bool) (fl : Flags) : Thread :=
  { t with vxsat := if sat then t.vxsat ||| 1 else t.vxsat, fflags := t.fflags ||| fl.setWidth 64 }

section
variable {r reg w n : Nat} {val : Nat → Nat} {sat : Nat → Bool} {fl : Nat → Flags} {done : List Nat} {u t : Thread}

theorem Thread.Wrote.none (u : Thread) : u.Wrote r reg w n val sat fl [] u where
  elements _ _ := rfl
  others _ _ := rfl
  vxsat := rfl
  fflags := by simp
  rest := rfl

/-- One element more. -/
theorem Thread.Wrote.snoc (h : u.Wrote r reg w n val sat fl done t) (width : WidthOk r w) (inside : reg + n ≤ 32) {i : Nat}
    (here : i * (w / 8) < n * r) : u.Wrote r reg w n val sat fl (done ++ [i]) ((t.tally (sat i) (fl i)).vput r reg w i (val i)) where
  elements j hj := by
    by_cases same : j = i
    · subst same
      have place : reg + j * (w / 8) / r < 32 := by
        have := register_lt hj
        omega
      have fits : 8 * (j * (w / 8) % r) + w ≤ 8192 := by
        have := width.fits j
        have := width.le
        have := width.bytes
        omega
      rw [Thread.vget_vput_same _ _ place fits, if_pos (by simp)]
    · have old : (t.tally (sat i) (fl i)).vget r reg w j = t.vget r reg w j := rfl
      rw [Thread.vget_vput_ne width _ _ same, old, h.elements j hj]
      simp [same]
  others k hk := by
    have register := register_lt here
    have place : k ≠ reg + i * (w / 8) / r := by
      generalize i * (w / 8) / r = q at register
      omega
    exact (Thread.vreg_setVreg_ne _ place _).trans (h.others k hk)
  vxsat := by
    rw [Thread.vput_eq]
    show (if sat i then t.vxsat ||| 1 else t.vxsat) = _
    rw [h.vxsat, List.any_append, List.any_cons, List.any_nil, Bool.or_false]
    cases done.any sat <;> cases sat i <;> simp [BitVec.or_assoc]
  fflags := by
    rw [Thread.vput_eq]
    show t.fflags ||| (fl i).setWidth 64 = _
    rw [h.fflags, List.foldl_append, List.foldl_cons, List.foldl_nil, BitVec.setWidth_or, BitVec.or_assoc]
  rest := by
    rw [Thread.vput_eq, Thread.tally, h.rest]

/-- What is not in the group's elements may change alongside: the running value of a scan. -/
theorem Thread.Wrote.scan (h : u.Wrote r reg w n val sat fl done t) (c : Option Scan) :
    { u with scan := c }.Wrote r reg w n val sat fl done { t with scan := c } where
  elements := h.elements
  others := h.others
  vxsat := h.vxsat
  fflags := h.fflags
  rest := by
    conv_lhs => rw [h.rest]

/-- A source group that is the destination or apart from it still holds the elements not yet done. -/
theorem Thread.Wrote.source {d a : BitVec 6} (h : u.Wrote r d.toNat w n val sat fl done t) (ha : GroupOk a n) (hd : GroupOk d n) {i : Nat}
    (here : i * (w / 8) < n * r) (fresh : i ∉ done) : t.vget r a.toNat w i = u.vget r a.toNat w i := by
  obtain ⟨alignedA, -⟩ := ha
  obtain ⟨alignedD, -⟩ := hd
  by_cases same : a.toNat = d.toNat
  · rw [same, h.elements i here, if_neg fresh]
  · have register := register_lt here
    have apart : a.toNat + n ≤ d.toNat ∨ d.toNat + n ≤ a.toNat := by
      obtain ⟨p, hp⟩ := Nat.dvd_of_mod_eq_zero alignedA
      obtain ⟨q, hq⟩ := Nat.dvd_of_mod_eq_zero alignedD
      rw [hp, hq] at same ⊢
      rw [← Nat.mul_succ, ← Nat.mul_succ]
      rcases Nat.lt_or_gt_of_ne (fun e : p = q => same (by rw [e])) with less | more
      · exact .inl (Nat.mul_le_mul_left n less)
      · exact .inr (Nat.mul_le_mul_left n more)
    have beside : a.toNat + i * (w / 8) / r < d.toNat ∨ d.toNat + n ≤ a.toNat + i * (w / 8) / r := by
      generalize i * (w / 8) / r = q at register
      omega
    simp only [Thread.vget, h.others _ beside]

end

/-! ### Sort states of a group (R227) -/

theorem Thread.sortOf_setSortRaw (t : Thread) {n : Nat} (inside : n < 32) (x : BitVec 21) (k : Nat) :
    (t.setSortRaw n x).sortOf k = if k = n then x else t.sortOf k := by
  unfold Thread.setSortRaw Thread.sortOf
  rw [dif_pos inside]
  exact vector_getD_set t.sort inside k x 0

theorem Thread.sortOf_clearSort (t : Thread) {reg n : Nat} (inside : reg + n ≤ 32) (pos : 0 < n) (k : Nat) :
    (t.clearSort reg n).sortOf k =
      if reg ≤ k ∧ k < reg + n then 0 else if k + 1 = reg then t.sortOf k &&& ~~~64 else t.sortOf k := by
  have cleared (k : Nat) : ∀ c ≤ n, ((List.range c).foldl (fun t k => t.setSortRaw (reg + k) 0) t).sortOf k =
      if reg ≤ k ∧ k < reg + c then 0 else t.sortOf k := by
    intro c
    induction c with
    | zero => intro _; rw [if_neg (by omega)]; rfl
    | succ c ih =>
      intro hc
      rw [List.range_succ, List.foldl_append, List.foldl_cons, List.foldl_nil, Thread.sortOf_setSortRaw _ (by omega), ih (by omega)]
      by_cases last : k = reg + c
      · rw [if_pos last, if_pos (by omega)]
      · rw [if_neg last]
        exact if_congr (by omega) rfl rfl
  unfold Thread.clearSort
  by_cases zero : reg = 0
  · rw [if_pos zero, cleared k n le_rfl, if_neg (c := k + 1 = reg) (by omega)]
  · rw [if_neg zero, Thread.clearP, Thread.sortOf_setSortRaw _ (by omega), cleared k n le_rfl, cleared (reg - 1) n le_rfl]
    by_cases before : k = reg - 1
    · rw [if_pos before, if_neg (by omega), if_neg (by omega), if_pos (by omega), before]
    · rw [if_neg before, if_neg (c := k + 1 = reg) (by omega)]

theorem Thread.clearSort_eq (t : Thread) (reg n : Nat) : t.clearSort reg n = { t with sort := (t.clearSort reg n).sort } := by
  have raw (t : Thread) (k : Nat) (x : BitVec 21) : ∃ y, t.setSortRaw k x = { t with sort := y } := by
    unfold Thread.setSortRaw
    split
    · exact ⟨_, rfl⟩
    · exact ⟨t.sort, rfl⟩
  have cleared (l : List Nat) : ∀ t : Thread, ∃ y, l.foldl (fun t k => t.setSortRaw (reg + k) 0) t = { t with sort := y } := by
    induction l with
    | nil => exact fun t => ⟨t.sort, rfl⟩
    | cons k l ih =>
      intro t
      obtain ⟨y, hy⟩ := raw t (reg + k) 0
      obtain ⟨z, hz⟩ := ih (t.setSortRaw (reg + k) 0)
      exact ⟨z, by rw [List.foldl_cons, hz, hy]⟩
  obtain ⟨y, hy⟩ := cleared (List.range n) t
  unfold Thread.clearSort
  split
  · rw [hy]
  · obtain ⟨z, hz⟩ := raw { t with sort := y } (reg - 1) (({ t with sort := y } : Thread).sortOf (reg - 1) &&& ~~~64)
    simp only [hy, Thread.clearP, hz]

/-! ### What an element loop leaves -/

theorem satAfter_todos (s : State) (f : Fields) (w : Nat) (sat : Nat → Bool) :
    satAfter s (s.todo f w) sat = if (s.todos f w).any sat then s.th.vxsat ||| 1 else s.th.vxsat := by
  rw [satAfter, State.todos, List.any_filter]

theorem flagsAfter_todos (s : State) (f : Fields) (w : Nat) (fl : Nat → Flags) :
    flagsAfter s (s.todo f w) fl = s.th.fflags ||| ((s.todos f w).foldl (fun x i => x ||| fl i) 0).setWidth 64 := by
  rw [flagsAfter, State.todos, List.foldl_filter]

/-- A thread that differs from `s`'s in the sort states a write to its destination group clears, and in elements of that group, is what
`Elements` says of a word that has finished. -/
theorem elements_of_wrote {s : State} {f : Fields} {w n : Nat} {val : Nat → Nat} {sat doing : Nat → Bool} {fl : Nat → Flags} {l : List Nat}
    {u t : Thread} (hd : GroupOk f.d n) (pos : 0 < n) (sort : ∀ k, u.sortOf k = (s.th.clearSort f.d.toNat n).sortOf k)
    (plain : u = { s.th with sort := u.sort }) (wrote : u.Wrote s.rbytes f.d.toNat w n val sat fl l t)
    (all : ∀ i, i ∈ l ↔ doing i = true) : Elements s f w n s.th.finishV doing val { s with th := t.finishV } := by
  have sorts : t.sort = u.sort := by rw [wrote.rest]
  have regs : u.v = s.th.v := by rw [plain]
  have same : t = { s.th with v := t.v, sort := t.sort, vxsat := t.vxsat, fflags := t.fflags } := by
    rw [sorts]
    exact wrote.rest.trans (by rw [plain])
  have bytes : State.rbytes { s with th := t.finishV } = s.rbytes := by rw [same]; rfl
  refine ⟨fun i hi => ?_, fun k _ => ?_, fun k hk => ?_, ?_⟩
  · have old : u.vget s.rbytes f.d.toNat w i = s.elt f.d w i := by
      simp only [State.elt, Thread.vget, Thread.vreg, regs]
    calc State.elt { s with th := t.finishV } f.d w i = t.vget s.rbytes f.d.toNat w i := by rw [State.elt, bytes]; rfl
      _ = if i ∈ l then val i % 2 ^ w else s.elt f.d w i := by rw [wrote.elements i hi, old]
      _ = if doing i then val i % 2 ^ w else s.elt f.d w i := if_congr (all i) rfl rfl
  · calc t.finishV.sortOf k = u.sortOf k := congrArg (Vector.getD · k 0) sorts
      _ = _ := by rw [sort k, Thread.sortOf_clearSort s.th hd.2 pos k]
  · calc t.finishV.vreg k = u.vreg k := wrote.others k hk
      _ = s.th.vreg k := congrArg (Vector.getD · k 0) regs
  · conv_lhs => rw [same]
    rfl

end Sys2Proof.Machine
end

section
/-! SUPPORT. Reductions and scans (spec/05 R114, R115, spec/08 R215, R216): what settles O17. -/

namespace Sys2Proof.Machine

/-! ### Trees over an associative operation (R114) -/

section
variable {α : Type} {g : α → α → α}

theorem treeLevel_foldl (assoc : ∀ x y z, g (g x y) z = g x (g y z)) (l : List (Option α)) (s : α) :
    (treeLevel g l).reduceOption.foldl g s = l.reduceOption.foldl g s := by
  fun_induction treeLevel g l generalizing s with
  | case1 x y l ih => simp only [List.reduceOption_cons_of_some, List.foldl_cons, ih, assoc]
  | case2 x l ih => simp only [List.reduceOption_cons_of_some, List.reduceOption_cons_of_none, List.foldl_cons, ih]
  | case3 y l ih => simp only [List.reduceOption_cons_of_some, List.reduceOption_cons_of_none, List.foldl_cons, ih]
  | case4 l ih => simp only [List.reduceOption_cons_of_none, ih]
  | case5 l => rfl

theorem length_treeLevel (g : α → α → α) (l : List (Option α)) : (treeLevel g l).length = (l.length + 1) / 2 := by
  fun_induction treeLevel g l with
  | case1 | case2 | case3 | case4 => simp only [List.length_cons]; omega
  | case5 l h1 h2 h3 h4 =>
    match l, h1, h2, h3, h4 with
    | [], _, _, _, _ => simp
    | [_], _, _, _, _ => simp
    | some x :: some y :: l, h, _, _, _ => exact (h x y l rfl).elim
    | some x :: none :: l, _, h, _, _ => exact (h x l rfl).elim
    | none :: some y :: l, _, _, h, _ => exact (h y l rfl).elim
    | none :: none :: l, _, _, _, h => exact (h l rfl).elim

/-- With enough levels the root joins all leaves present, in their order. -/
theorem treeRoot_foldl (assoc : ∀ x y z, g (g x y) z = g x (g y z)) (s : α) :
    ∀ (n : Nat) (l : List (Option α)), l.length ≤ 2 ^ n → (treeRoot g n l).elim s (g s) = l.reduceOption.foldl g s
  | 0, [], _ => rfl
  | 0, [none], _ => rfl
  | 0, [some _], _ => rfl
  | 0, _ :: _ :: _, h => by simp at h
  | n + 1, l, h => by
    have half : (treeLevel g l).length ≤ 2 ^ n := by
      rw [length_treeLevel]
      rw [Nat.pow_succ] at h
      omega
    rw [treeRoot, treeRoot_foldl assoc s n _ half, treeLevel_foldl assoc]

end

theorem le_pow2AtLeast (n : Nat) : n ≤ pow2AtLeast n := by
  unfold pow2AtLeast
  split
  · assumption
  · have := Nat.lt_log2_self (n := n - 1)
    omega

theorem two_pow_log2_pow2AtLeast (n : Nat) : 2 ^ Nat.log2 (pow2AtLeast n) = pow2AtLeast n := by
  unfold pow2AtLeast
  split
  · rfl
  · rw [Nat.log2_two_pow]

/-- The tree of an associative operation joins the leaves to the seed one after another. -/
theorem treeSum_foldl {α : Type} {g : α → α → α} (assoc : ∀ x y z, g (g x y) z = g x (g y z)) (vl : Nat) (leaf : Nat → Option α)
    (seed : α) : treeSum g vl leaf seed = ((List.range vl).filterMap leaf).foldl g seed := by
  have leaves : ((List.range (pow2AtLeast vl)).map fun i => if i < vl then leaf i else none).reduceOption = (List.range vl).filterMap leaf := by
    obtain ⟨more, hm⟩ := Nat.exists_eq_add_of_le (le_pow2AtLeast vl)
    rw [hm, List.reduceOption, List.filterMap_map, List.range_add, List.filterMap_append, List.filterMap_map]
    have beyond : (List.range more).filterMap ((id ∘ fun i => if i < vl then leaf i else none) ∘ (vl + ·)) = [] := by
      rw [List.filterMap_eq_nil_iff]
      intro i _
      simp
    rw [beyond, List.append_nil]
    refine List.filterMap_congr fun i hi => ?_
    simp only [Function.comp_apply, id, List.mem_range.mp hi, if_true]
  have root := treeRoot_foldl assoc seed (Nat.log2 (pow2AtLeast vl)) ((List.range (pow2AtLeast vl)).map fun i => if i < vl then leaf i else none)
    (by rw [List.length_map, List.length_range, two_pow_log2_pow2AtLeast])
  rw [leaves] at root
  rw [← root, treeSum]
  split <;> rename_i h <;> rw [h] <;> rfl

/-! ### The integer operations (R215) -/

theorem pattern_eq_wrap (w : Nat) (x : Int) : pattern w x = wrap w x := by
  rw [pattern, BitVec.toNat_ofInt]
  rfl

theorem wrap_lt (w : Nat) (x : Int) : wrap w x < 2 ^ w := pattern_eq_wrap w x ▸ BitVec.isLt _

theorem wrap_sInt {w x : Nat} (h : x < 2 ^ w) : wrap w (sInt w x) = x := by
  rw [← pattern_eq_wrap, pattern, sInt_eq_toInt, BitVec.ofInt_toInt, BitVec.toNat_ofNat, Nat.mod_eq_of_lt h]

theorem patInt_eq_opv (w : Nat) (u : Bool) (x : Nat) : patInt w u x = opv w u x := by
  cases u
  · exact (sInt_eq_toInt w x).symm
  · rfl

/-- An operation on 64-bit patterns, read as an operation on the integers they stand for, stays associative. -/
theorem sInt_wrap_assoc {h : Nat → Nat → Nat} (closed : ∀ a b, a < 2 ^ 64 → b < 2 ^ 64 → h a b < 2 ^ 64)
    (assoc : ∀ a b c, h (h a b) c = h a (h b c)) (x y z : Int) :
    sInt 64 (h (wrap 64 (sInt 64 (h (wrap 64 x) (wrap 64 y)))) (wrap 64 z)) =
      sInt 64 (h (wrap 64 x) (wrap 64 (sInt 64 (h (wrap 64 y) (wrap 64 z))))) := by
  rw [wrap_sInt (closed _ _ (wrap_lt 64 x) (wrap_lt 64 y)), wrap_sInt (closed _ _ (wrap_lt 64 y) (wrap_lt 64 z)), assoc]

theorem redInt_assoc (op : Nat) (x y z : Int) : redInt op (redInt op x y) z = redInt op x (redInt op y z) := by
  by_cases sum : op = 0
  · simp only [redInt, if_pos sum, Int.add_assoc]
  by_cases least : op = 1
  · simp only [redInt, if_neg sum, if_pos least]
    omega
  by_cases greatest : op = 2
  · simp only [redInt, if_neg sum, if_neg least, if_pos greatest]
    omega
  by_cases conj : op = 3
  · simp only [redInt, if_neg sum, if_neg least, if_neg greatest, if_pos conj]
    exact sInt_wrap_assoc (fun a b _ hb => Nat.and_lt_two_pow a hb) Nat.and_assoc x y z
  by_cases disj : op = 4
  · simp only [redInt, if_neg sum, if_neg least, if_neg greatest, if_neg conj, if_pos disj]
    exact sInt_wrap_assoc (fun _ _ => Nat.or_lt_two_pow) Nat.or_assoc x y z
  · simp only [redInt, if_neg sum, if_neg least, if_neg greatest, if_neg conj, if_neg disj]
    exact sInt_wrap_assoc (fun _ _ => Nat.xor_lt_two_pow) Nat.xor_assoc x y z

/-- Clamped once with SAT, or modulo 2^w (R95, R96). -/
theorem narrow_eq (w : Nat) (sat u : Bool) (x : Int) :
    narrow w sat u x = (pattern w (fitInt w sat u x), clamped w sat u x) := by
  have lo : loBound w u = leastInt w u := by cases u <;> simp [loBound, leastInt]
  have hi : hiBound w u = greatestInt w u := by cases u <;> simp [hiBound, greatestInt]
  have order : leastInt w u ≤ greatestInt w u := by
    have whole : (0 : Int) < 2 ^ w := by positivity
    have half : (0 : Int) < 2 ^ (w - 1) := by positivity
    cases u <;> simp only [leastInt, greatestInt, if_true, Bool.false_eq_true, if_false] <;> omega
  unfold narrow fitInt clamped clampTo
  rw [pattern_eq_wrap, lo, hi]
  cases sat with
  | false => rfl
  | true =>
    simp only [if_true, Bool.true_and]
    by_cases below : x < leastInt w u
    · rw [if_pos below, min_eq_right (below.le.trans order), max_eq_left below.le, decide_eq_true below, Bool.true_or]
    · rw [if_neg below, decide_eq_false below, Bool.false_or]
      by_cases above : greatestInt w u < x
      · rw [if_pos above, min_eq_left above.le, max_eq_right order, decide_eq_true above]
      · rw [if_neg above, min_eq_right (not_lt.mp above), max_eq_right (not_lt.mp below), decide_eq_false above]

/-! ### Flags that do not trap (R102) -/

theorem trapDetail_none {en fl : Flags} (h : en &&& fl = 0) : trapDetail en fl = none := by
  unfold trapDetail
  rw [h]
  rfl

theorem M.run_vfFlags {fl : Flags} {s : State} (h : s.th.enables &&& fl = 0) (i : Nat) : vfFlags i fl s = .ok () (s.flags fl) := by
  have same : (s.flags fl).th.enables = s.th.enables := rfl
  unfold vfFlags
  rw [M.run_bind_ok (M.run_addFlags fl s)]
  show (getTh >>= _) (s.flags fl) = _
  rw [M.run_bind_ok (M.run_getTh _), same, trapDetail_none h]
  rfl

/-! ### VRED (R114, R215) -/

theorem FloatReady.vfFeat {s : State} {f : Fields} (h : FloatReady s f) (begun : s.th.AsBegun) :
    ∀ x ∈ Machine.vfFeat (vcOf s) (bfOf f), (x.1 && !featHas s x.2) = false := by
  intro x hx
  obtain rfl := List.mem_singleton.mp hx
  unfold FloatReady at h
  rw [vcOf_sew begun, bfOf]
  split at h
  · rename_i bf
    simp only [bf, Bool.not_true, Bool.and_false, Bool.false_and]
  · by_cases double : s.th.sew = 64
    · simp only [h.2 double, Bool.not_true, Bool.and_false]
    · simp only [beq_eq_false_iff_ne.mpr double, Bool.false_and]

theorem FloatReady.vfBad {s : State} {f : Fields} (h : FloatReady s f) (begun : s.th.AsBegun) :
    ∀ x ∈ Machine.vfBad (vcOf s) (bfOf f), x.1 = false := by
  unfold FloatReady at h
  unfold Machine.vfBad
  rw [vcOf_sew begun, bfOf]
  split at h
  · rename_i bf
    rw [bf, h]
    decide
  · rename_i bf
    rw [eq_false_of_ne_true bf]
    simp [h.1]

/-- VRED and VSCAN pass their checks: a floating-point one where SEW has a format and the core its unit (R197). -/
theorem VecReady.run_redIssue {s : State} {f : Fields} (h : VecReady s f) (ha : GroupOk f.a s.gregs) {dst : Bool}
    (hd : dst = true → GroupOk f.d s.gregs) (fp : f.var.getLsbD 3 = true → FloatReady s f) : redIssue (vcOf s) f dst s = .ok () s := by
  refine h.run_vIssue (vcOf s) ?_ ?_ _
  · split
    · rename_i float
      exact (fp float).vfFeat h.begun
    · exact fun _ hx => absurd hx List.not_mem_nil
  · rw [vcOf_regs h.begun]
    refine List.forall_mem_append.mpr ⟨List.forall_mem_append.mpr ⟨?_, ?_⟩, ha.grpBad⟩
    · split
      · rename_i float
        exact (fp float).vfBad h.begun
      · exact fun _ hx => absurd hx List.not_mem_nil
    · split
      · rename_i writes
        exact (hd writes).grpBad
      · exact fun _ hx => absurd hx List.not_mem_nil

/-- The leaves of the tree are the elements the word has to do (R114). -/
theorem find_todos (s : State) (f : Fields) (w : Nat) (x : Nat → Nat) (i : Nat) :
    (((s.todos f w).map fun i => (i, x i)).find? fun p => p.1 == i).map Prod.snd = if s.todo f w i then some (x i) else none := by
  rw [List.find?_map]
  cases doing : s.todo f w i with
  | true =>
    have found : (s.todos f w).find? ((fun p : Nat × Nat => p.1 == i) ∘ fun i => (i, x i)) = some i := by
      cases h : (s.todos f w).find? ((fun p : Nat × Nat => p.1 == i) ∘ fun i => (i, x i)) with
      | none => exact absurd (List.find?_eq_none.mp h i (State.mem_todos.mpr doing)) (by simp)
      | some j =>
        have hit := List.find?_some h
        exact congrArg some (beq_iff_eq.mp hit)
    rw [found]
    rfl
  | false =>
    have missing : (s.todos f w).find? ((fun p : Nat × Nat => p.1 == i) ∘ fun i => (i, x i)) = none := by
      refine List.find?_eq_none.mpr fun j hj hit => ?_
      rw [← beq_iff_eq.mp hit, State.mem_todos.mp hj] at doing
      exact absurd doing (by decide)
    rw [missing]
    rfl

/-- The exact result of an integer VRED: the seed and the elements, in any order (R114). -/
def State.redSum (s : State) (f : Fields) : Int :=
  (s.todos f s.th.sew).foldl (fun x i => redInt f.var.toNat x (patInt s.th.sew f.u (s.elt f.a s.th.sew i)))
    (patInt s.th.sew f.u ((s.th.getS f.b).toNat % 2 ^ s.th.sew))

/-- What an integer VRED puts in D. -/
def State.redWord (s : State) (f : Fields) : Word :=
  let y := pattern s.th.sew (fitInt s.th.sew f.sat f.u (s.redSum f))
  if f.u then BitVec.ofNat 64 y else low s.th.sew (BitVec.ofNat 64 y)

/-- The result and the flags of a floating-point VRED: the tree of R114. -/
def State.redTree (s : State) (f : Fields) : Nat × Flags :=
  let w := s.th.sew
  let round := redFp (vfFmt w (f.var.getLsbD 2)) (s.th.rm f.rnd) (f.var.toNat % 4)
  treeSum (fun x y : Nat × Flags => ((round x.1 y.1).1, (round x.1 y.1).2 ||| x.2 ||| y.2)) s.vl
    (fun i => if s.todo f w i then some (s.elt f.a w i, 0) else none) ((s.th.getS f.b).toNat % 2 ^ w, 0)

section
variable {s : State} {f : Fields}

theorem vredInt_todos : vredInt s.th.sew f.var.toNat f.sat f.u s.vl
    (fun i => if s.todo f s.th.sew i then some (s.elt f.a s.th.sew i) else none) ((s.th.getS f.b).toNat % 2 ^ s.th.sew) =
      (pattern s.th.sew (fitInt s.th.sew f.sat f.u (s.redSum f)), clamped s.th.sew f.sat f.u (s.redSum f)) := by
  have leaves : (List.range s.vl).filterMap (fun i => (if s.todo f s.th.sew i then some (s.elt f.a s.th.sew i) else none).map
      (opv s.th.sew f.u)) = (s.todos f s.th.sew).map fun i => patInt s.th.sew f.u (s.elt f.a s.th.sew i) := by
    rw [State.todos, ← List.filterMap_eq_map, List.filterMap_filter]
    refine List.filterMap_congr fun i _ => ?_
    cases s.todo f s.th.sew i
    · rfl
    · exact congrArg some (patInt_eq_opv ..).symm
  have sum : treeSum (redInt f.var.toNat) s.vl (fun i => (if s.todo f s.th.sew i then some (s.elt f.a s.th.sew i) else none).map
      (opv s.th.sew f.u)) (opv s.th.sew f.u ((s.th.getS f.b).toNat % 2 ^ s.th.sew)) = s.redSum f := by
    rw [treeSum_foldl (redInt_assoc _), leaves, List.foldl_map, ← patInt_eq_opv]
    rfl
  rw [vredInt, sum, narrow_eq]

theorem redWord_eq : (if f.u then zxWord s.th.sew (pattern s.th.sew (fitInt s.th.sew f.sat f.u (s.redSum f)))
    else sxWord s.th.sew (pattern s.th.sew (fitInt s.th.sew f.sat f.u (s.redSum f)))) = s.redWord f := by
  unfold State.redWord
  cases f.u
  · exact extended_eq s.th.sew_le false _
  · exact congrArg (BitVec.ofNat 64) (Nat.mod_eq_of_lt (BitVec.isLt _))

/-- A VRED of integers, or of floating-point values none of whose flags traps, runs to its end. -/
theorem exec_vred (h : VecReady s f) (ha : GroupOk f.a s.gregs) (hb : Reads s [f.b])
    (fp : f.var.getLsbD 3 = true → FloatReady s f ∧ s.th.enables &&& (s.redTree f).2 = 0) :
    exec (.vred f) s = doneWith s (if f.var.getLsbD 3 then ((s.flags (s.redTree f).2).put f.d (BitVec.ofNat 64 (s.redTree f).1)).finish
      else ((s.satBit (clamped s.th.sew f.sat f.u (s.redSum f))).put f.d (s.redWord f)).finish) := by
  obtain ⟨-, begun, readable⟩ := hb
  have readable := readable f.b List.mem_cons_self
  have elements : ∀ i ∈ s.todos f (vcOf s).sew, (do
      let x ← rdV (vcOf s) f.a.toNat (vcOf s).sew i
      return (i, x)) s = .ok (i, s.elt f.a (vcOf s).sew i) s := fun i _ => M.run_bind_ok (M.run_rdV h.atRest ..)
  refine runWord_ok h.live ?_
  rw [M.run_bind_ok (M.run_get s)]
  dsimp only
  rw [M.run_bind_ok (h.run_redIssue ha (fun h => Bool.noConfusion h) fun float => (fp float).1),
    M.run_bind_ok (M.run_peekS begun readable), M.run_bind_ok (M.run_activeTodo h.atRest f),
    M.run_bind_ok (M.run_cleanFirst (M.run_cleanS readable) _), M.run_bind_ok (M.run_mapM elements)]
  simp only [find_todos, vcOf_sew begun]
  split
  · rename_i float
    have tree : treeSum (fun x y : Nat × Flags => ((redFp (vfFmt s.th.sew (bfOf f)) (s.th.rm f.rnd) (f.var.toNat % 4) x.1 y.1).1,
        (redFp (vfFmt s.th.sew (bfOf f)) (s.th.rm f.rnd) (f.var.toNat % 4) x.1 y.1).2 ||| x.2 ||| y.2)) (vcOf s).vl
        (fun i => (if s.todo f s.th.sew i then some (s.elt f.a s.th.sew i) else none).map fun x => (x, (0 : Flags)))
        ((s.th.getS f.b).toNat % 2 ^ s.th.sew, 0) = s.redTree f := by
      unfold State.redTree
      congr 1
      funext i
      cases s.todo f s.th.sew i <;> rfl
    rw [M.run_bind_ok (M.run_getTh s), tree, M.run_bind_ok (M.run_addFlags _ s), trapDetail_none (fp float).2]
    rfl
  · have sum : vredInt s.th.sew f.var.toNat f.sat f.u (vcOf s).vl _ _ = _ := vredInt_todos (s := s) (f := f)
    rw [sum, M.run_bind_ok (M.run_setSat _ s), redWord_eq]
    cases clamped s.th.sew f.sat f.u (s.redSum f) <;> rfl
end

/-! ### VSCAN (R115, R216) -/

/-- What a scan makes of one element, from its running value and the element: the next running value, what is written, whether that was
clamped, and the flags. -/
structure ScanOp where
  next : Int → Nat → Int
  val : Int → Nat → Nat
  sat : Int → Nat → Bool
  fl : Int → Nat → Flags

/-- The integer scans: the running value stays exact (R216). -/
def scanInt (f : Fields) (w : Nat) : ScanOp :=
  let out (c : Int) (x : Nat) : Int := if f.xm.getLsbD 0 then c else redInt f.var.toNat c (patInt w f.u x)
  { next c x := redInt f.var.toNat c (patInt w f.u x)
    val c x := pattern w (fitInt w f.sat f.u (out c x))
    sat c x := clamped w f.sat f.u (out c x)
    fl _ _ := 0 }

/-- The floating-point scans, rounded at each element. -/
def scanFloat (f : Fields) (w : Nat) (rm : RM) : ScanOp :=
  let round (c : Int) (x : Nat) : FRes := redFp (vfFmt w (f.var.getLsbD 2)) rm (f.var.toNat % 4) c.toNat x
  { next c x := ((round c x).1 : Int)
    val c x := if f.xm.getLsbD 0 then c.toNat else (round c x).1
    sat _ _ := false
    fl c x := (round c x).2 }

section
variable (s : State) (f : Fields)

def State.scanOp : ScanOp := if f.var.getLsbD 3 then scanFloat f s.th.sew (s.th.rm f.rnd) else scanInt f s.th.sew

/-- The running value a scan starts with: its seed. -/
def State.scanSeed : Int :=
  let seed := (s.th.getS f.b).toNat % 2 ^ s.th.sew
  if f.var.getLsbD 3 then seed else patInt s.th.sew f.u seed

/-- The running value after elements. -/
def State.scanAfter (l : List Nat) : Int := l.foldl (fun c i => (s.scanOp f).next c (s.elt f.a s.th.sew i)) (s.scanSeed f)

/-- The running value before element `i`. -/
def State.scanBefore (i : Nat) : Int := s.scanAfter f ((List.range i).filter (s.todo f s.th.sew))

/-- The thread of a scan whose running value is `c`, before it has written elements. -/
def State.scanThread (c : Int) : Thread := { s.th.clearSort f.d.toNat s.gregs with scan := some ⟨c, []⟩ }

/-- What a scan writes to element `i`, whether it was clamped, and its flags. -/
def State.scanVal (i : Nat) : Nat := (s.scanOp f).val (s.scanBefore f i) (s.elt f.a s.th.sew i)
def State.scanSat (i : Nat) : Bool := (s.scanOp f).sat (s.scanBefore f i) (s.elt f.a s.th.sew i)
def State.scanFl (i : Nat) : Flags := (s.scanOp f).fl (s.scanBefore f i) (s.elt f.a s.th.sew i)

/-- The thread `t` of a scan that has done the elements `done`. -/
def State.Scanned (done : List Nat) (t : Thread) : Prop :=
  (s.scanThread f (s.scanAfter f done)).Wrote s.rbytes f.d.toNat s.th.sew s.gregs (s.scanVal f) (s.scanSat f) (s.scanFl f) done t

end

section
variable {s : State} {f : Fields}

theorem State.scanThread_eq (s : State) (f : Fields) (c : Int) :
    s.scanThread f c = { s.th with sort := (s.scanThread f c).sort, scan := some ⟨c, []⟩ } := by
  unfold State.scanThread
  conv_lhs => rw [Thread.clearSort_eq]

/-- What a scan keeps of its thread. -/
theorem State.Scanned.keeps {done : List Nat} {t : Thread} (h : s.Scanned f done t) :
    (s.th.AtRest → t.AtRest) ∧ t.enables = s.th.enables ∧ t.scan = some ⟨s.scanAfter f done, []⟩ := by
  rw [h.rest, State.scanThread_eq]
  exact ⟨id, rfl, rfl⟩

theorem Thread.vput_scan (t : Thread) (r reg w i x : Nat) (c : Option Scan) :
    ({ t with scan := c } : Thread).vput r reg w i x = { t.vput r reg w i x with scan := c } := by
  simp only [Thread.vput, Thread.setVreg, Thread.vreg]
  split <;> rfl

/-- The thread after one element of a scan. -/
def Thread.scanElem (o : ScanOp) (r reg w i : Nat) (c : Int) (x : Nat) (t : Thread) : Thread :=
  { t.tally (o.sat c x) (o.fl c x) with scan := some ⟨o.next c x, []⟩ }.vput r reg w i (o.val c x)

theorem State.Scanned.snoc {done rest : List Nat} {t : Thread} {i : Nat} (h : s.Scanned f done t) (begun : s.th.AsBegun)
    (hd : GroupOk f.d s.gregs) (all : s.todos f s.th.sew = done ++ i :: rest) :
    s.Scanned f (done ++ [i])
      (t.scanElem (s.scanOp f) s.rbytes f.d.toNat s.th.sew i (s.scanAfter f done) (s.elt f.a s.th.sew i)) := by
  have mem : i ∈ s.todos f s.th.sew := all ▸ List.mem_append_right _ List.mem_cons_self
  have before : s.scanBefore f i = s.scanAfter f done := congrArg (s.scanAfter f) (filter_range_before all)
  have after : s.scanAfter f (done ++ [i]) = (s.scanOp f).next (s.scanAfter f done) (s.elt f.a s.th.sew i) := by
    rw [State.scanAfter, List.foldl_append]
    rfl
  have inside := s.inGroup begun (State.lt_of_mem_todos mem)
  have next := (Thread.Wrote.snoc h (widthOk_sew s) hd.2 inside).scan (some ⟨s.scanAfter f (done ++ [i]), []⟩)
  rw [State.scanVal, State.scanSat, State.scanFl, before, after] at next
  unfold State.Scanned Thread.scanElem
  rw [Thread.vput_scan, after]
  exact next

/-- The body of a scan's loop does to each element, where no flag traps, what its operation says. -/
def State.ScanStep (s : State) (f : Fields) (body : Nat → M Unit) : Prop :=
  ∀ i u c, u.th.AtRest → u.th.scan = some ⟨c, []⟩ →
    let x := u.th.vget s.rbytes f.a.toNat s.th.sew i
    u.th.enables &&& (s.scanOp f).fl c x = 0 →
      body i u = .ok () { u with th := u.th.scanElem (s.scanOp f) s.rbytes f.d.toNat s.th.sew i c x }

/-- The state of a scan that has done the elements `done`. -/
def State.ScanAt (s : State) (f : Fields) (done : List Nat) (x : State) : Prop :=
  x = { s.tick with th := x.th } ∧ s.Scanned f done x.th

theorem State.ScanStep.keeps {body : Nat → M Unit} (step : s.ScanStep f body) (h : VecReady s f) (ha : GroupOk f.a s.gregs)
    (hd : GroupOk f.d s.gregs) (quiet : NoFlagTrap s (s.todo f s.th.sew) (s.scanFl f)) {done rest : List Nat} {i : Nat} {x : State}
    (all : s.todos f s.th.sew = done ++ i :: rest) (here : s.ScanAt f done x) :
    ∃ x', body i x = .ok () x' ∧ s.ScanAt f (done ++ [i]) x' := by
  obtain ⟨same, scanned⟩ := here
  obtain ⟨calm, enables, running⟩ := scanned.keeps
  have mem : i ∈ s.todos f s.th.sew := all ▸ List.mem_append_right _ List.mem_cons_self
  have below := State.lt_of_mem_todos mem
  have fresh : i ∉ done := fun hi => List.disjoint_of_nodup_append (all ▸ s.nodup_todos f s.th.sew) hi List.mem_cons_self
  have source : x.th.vget s.rbytes f.a.toNat s.th.sew i = s.elt f.a s.th.sew i := by
    rw [Thread.Wrote.source scanned ha hd (s.inGroup h.begun below) fresh, State.scanThread_eq]
    rfl
  have before : s.scanBefore f i = s.scanAfter f done := congrArg (s.scanAfter f) (filter_range_before all)
  have flags := quiet i below (State.mem_todos.mp mem)
  rw [State.scanFl, before] at flags
  have run := step i x (s.scanAfter f done) (calm h.atRest) running (by rw [source, enables]; exact flags)
  rw [source] at run
  exact ⟨_, run, by conv_lhs => rw [same], scanned.snoc h.begun hd all⟩

/-- The element loop of a scan, none of whose flags traps. -/
theorem scan_vloop (h : VecReady s f) (ha : GroupOk f.a s.gregs) (hd : GroupOk f.d s.gregs) {dst : List (Nat × Nat)} {body : Nat → M Unit}
    {clean : M Unit} {u : State} (start : u = { s.tick with th := s.scanThread f (s.scanSeed f) }) (cleaned : clean u = .ok () u)
    (quiet : NoFlagTrap s (s.todo f s.th.sew) (s.scanFl f)) (step : s.ScanStep f body) :
    ∃ t, vloop (vcOf s) s.th.sew s.vl dst (s.actives f) body clean u = .ok () { s.tick with th := t.finishV } ∧
      s.Scanned f (s.todos f s.th.sew) t := by
  have todos : (vcOf s).todo u.th s.th.sew (s.actives f) = s.todos f s.th.sew := by
    rw [← State.todo_actives, start, State.scanThread_eq]
    rfl
  obtain ⟨t, run, same, final⟩ := M.run_vloop (vl := s.vl) (dst := dst) (inv := s.ScanAt f) h.whole cleaned
    (fun done i rest x all here => step.keeps h ha hd quiet (todos ▸ all) here)
    ⟨start ▸ rfl, start ▸ Thread.Wrote.none _⟩ fun done x here => (here.2.keeps.1 h.atRest).1
  rw [todos] at final
  refine ⟨t.th, ?_, final⟩
  rw [run]
  conv_lhs => rw [same]

theorem M.run_tryCatch_ok {α : Type} {m : M α} {s t : State} {a : α} (h : m s = .ok a t) (handler : Stop → M α) :
    tryCatch m handler s = .ok a t := by
  show EStateM.tryCatch m handler s = _
  simp only [EStateM.tryCatch, h]

/-- A scan's loop and the end of its running value. -/
theorem scan_end (h : VecReady s f) (ha : GroupOk f.a s.gregs) (hd : GroupOk f.d s.gregs) {dst : List (Nat × Nat)} {body : Nat → M Unit}
    {clean : M Unit} {u : State} (start : u = { s.tick with th := s.scanThread f (s.scanSeed f) }) (cleaned : clean u = .ok () u)
    (quiet : NoFlagTrap s (s.todo f s.th.sew) (s.scanFl f)) (handler : Stop → M Unit) (step : s.ScanStep f body) :
    ∃ t, (do
      tryCatch (vloop (vcOf s) s.th.sew s.vl dst (s.actives f) body clean) handler
      modTh fun t => { t with scan := none } : M Unit) u = .ok () { s.tick with th := { Thread.finishV t with scan := none } } ∧
        s.Scanned f (s.todos f s.th.sew) t := by
  obtain ⟨t, run, scanned⟩ := scan_vloop (dst := dst) h ha hd start cleaned quiet step
  exact ⟨t, M.run_bind_ok (M.run_tryCatch_ok run handler), scanned⟩

theorem M.run_setSat_tally (b : Bool) (s : State) : setSat b s = .ok () { s with th := s.th.tally b 0 } := by
  cases b <;> simp [M.run_setSat, Thread.tally]

theorem runWord_ok_of_exists {α : Type} {m : M Unit} {s : State} {g : α → State} {p : α → Prop} (live : s.th.live = true)
    (h : ∃ a, m s = .ok () (g a) ∧ p a) : ∃ a, runWord m s = doneWith s (g a) ∧ p a := by
  obtain ⟨a, run, holds⟩ := h
  exact ⟨a, runWord_ok live run, holds⟩

/-- A scan that begins, and none of whose flags traps, runs to its end. -/
theorem exec_vscan (h : VecReady s f) (ha : GroupOk f.a s.gregs) (hb : Reads s [f.b]) (hd : GroupOk f.d s.gregs)
    (fp : f.var.getLsbD 3 = true → FloatReady s f) (begins : s.th.resumesV = false)
    (quiet : NoFlagTrap s (s.todo f s.th.sew) (s.scanFl f)) :
    ∃ t, exec (.vscan f) s = doneWith s { s.tick with th := { t.finishV with scan := none } } ∧ s.Scanned f (s.todos f s.th.sew) t := by
  obtain ⟨-, begun, readable⟩ := hb
  have readable := readable f.b List.mem_cons_self
  refine runWord_ok_of_exists h.live ?_
  rw [M.run_bind_ok (M.run_get s)]
  dsimp only
  rw [M.run_bind_ok (h.run_redIssue ha (fun _ => hd) fp), M.run_bind_ok (M.run_peekS begun readable),
    M.run_bind_ok (M.run_activeList h.atRest f), M.run_bind_ok (M.run_getTh s), M.run_bind_ok M.run_freshIndex,
    M.run_bind_ok (M.run_modTh _ _)]
  simp only [begins, Bool.false_eq_true, if_false, vcOf_sew begun, vcOf_regs begun]
  refine scan_end h ha hd ?_ ?_ quiet _ ?_
  · simp only [State.scanThread, State.scanSeed, patInt_eq_opv]
    rfl
  · refine M.run_cleanS ?_
    rw [Thread.clearSort_eq]
    exact readable
  · intro i u c rest scan x flags
    dsimp only
    rw [M.run_bind_ok (M.run_rdV rest ..), M.run_bind_ok (a := c) (s' := u) (by rw [M.run_bind_ok (M.run_getTh u), scan]; rfl)]
    unfold State.scanOp at flags ⊢
    split at flags <;> rename_i float
    · rw [if_pos float, if_pos float]
      exact M.run_bind_ok (M.run_vfFlags flags i)
    · rw [if_neg float, if_neg float, narrow_eq, ← patInt_eq_opv]
      exact M.run_bind_ok (M.run_setSat_tally _ u)

/-- What a scan leaves, by what it writes to each element, clamps and raises. -/
theorem vscan_runs (h : VecReady s f) (ha : GroupOk f.a s.gregs) (hb : Reads s [f.b]) (hd : GroupOk f.d s.gregs)
    (fp : f.var.getLsbD 3 = true → FloatReady s f) (begins : s.th.resumesV = false) {val : Nat → Nat} {sat : Nat → Bool}
    {fl : Nat → Flags} (vals : s.scanVal f = val) (sats : s.scanSat f = sat) (fls : s.scanFl f = fl)
    (quiet : NoFlagTrap s (s.todo f s.th.sew) fl) :
    let s1 : State := { s with free := s.free + 1, th := { s.th with scan := none } }
    ∃ t : State, exec (.vscan f) s = doneWith s t ∧ Elements s1 f s.th.sew s.gregs s1.th.finishV (s.todo f s.th.sew) val t ∧
      t.th.vxsat = satAfter s (s.todo f s.th.sew) sat ∧ t.th.fflags = flagsAfter s (s.todo f s.th.sew) fl := by
  subst vals sats fls
  intro s1
  obtain ⟨t, run, scanned⟩ := exec_vscan h ha hb hd fp begins quiet
  have pos : 0 < s.gregs := Nat.two_pow_pos _
  have start : s.scanThread f (s.scanAfter f (s.todos f s.th.sew)) = { s.th with
      sort := (s.th.clearSort f.d.toNat s.gregs).sort, scan := some ⟨s.scanAfter f (s.todos f s.th.sew), []⟩ } := s.scanThread_eq f _
  have sort (k : Nat) : Thread.sortOf { s.scanThread f (s.scanAfter f (s.todos f s.th.sew)) with scan := none } k =
      (s1.th.clearSort f.d.toNat s.gregs).sortOf k := by
    rw [Thread.sortOf_clearSort s1.th hd.2 pos]
    exact Thread.sortOf_clearSort s.th hd.2 pos k
  refine ⟨_, run, ?_, ?_, ?_⟩
  · exact elements_of_wrote (s := s1) (t := { t with scan := none }) hd pos sort (by rw [start]) (Thread.Wrote.scan scanned none)
      fun i => State.mem_todos
  · rw [satAfter_todos]
    refine scanned.vxsat.trans ?_
    rw [start]
  · rw [flagsAfter_todos]
    refine scanned.fflags.trans ?_
    rw [start]

theorem State.scanBefore_float (float : f.var.getLsbD 3 = true) (i : Nat) :
    s.scanBefore f i = (((List.range i).filter (s.todo f s.th.sew)).foldl (fun x j =>
      (redFp (vfFmt s.th.sew (f.var.getLsbD 2)) (s.th.rm f.rnd) (f.var.toNat % 4) x (s.elt f.a s.th.sew j)).1)
      ((s.th.getS f.b).toNat % 2 ^ s.th.sew) : Nat) := by
  unfold State.scanBefore State.scanAfter State.scanSeed State.scanOp
  rw [if_pos float, if_pos float]
  exact List.foldl_hom (fun x : Nat => (x : Int)) fun _ _ => rfl

theorem State.scanBefore_int (int : f.var.getLsbD 3 = false) (i : Nat) :
    s.scanBefore f i = ((List.range i).filter (s.todo f s.th.sew)).foldl (fun x j =>
      redInt f.var.toNat x (patInt s.th.sew f.u (s.elt f.a s.th.sew j))) (patInt s.th.sew f.u ((s.th.getS f.b).toNat % 2 ^ s.th.sew)) := by
  have notFloat : ¬ f.var.getLsbD 3 = true := by rw [int]; exact Bool.false_ne_true
  unfold State.scanBefore State.scanAfter State.scanSeed State.scanOp
  rw [if_neg notFloat, if_neg notFloat]
  rfl

end

/-- Settles O17: VRED by its tree, which for integers is the fold in any order, and VSCAN by its running value at each element. -/
theorem reductionsAndScans : Obligations.ReductionsAndScans := by
  intro f s h ha hb w op seed a m rm before s1 scan
  refine ⟨fun int => ?_, fun float ready => ?_⟩
  · have notFloat : ¬ f.var.getLsbD 3 = true := by rw [int]; exact Bool.false_ne_true
    have kind : s.scanOp f = scanInt f w := if_neg notFloat
    refine ⟨(exec_vred h ha hb fun fp => absurd fp notFloat).trans (by rw [if_neg notFloat]; rfl), fun hd begins => ?_⟩
    refine vscan_runs h ha hb hd (fun fp => absurd fp notFloat) begins ?_ ?_ ?_
    · funext i
      rw [State.scanVal, kind, State.scanBefore_int int]
      rfl
    · funext i
      rw [State.scanSat, kind, State.scanBefore_int int]
      rfl
    · funext i
      rw [State.scanFl, kind]
      rfl
  · have kind : s.scanOp f = scanFloat f w rm := if_pos float
    refine ⟨fun quiet => (exec_vred h ha hb fun _ => ⟨ready, quiet⟩).trans (by rw [if_pos float]; rfl), fun hd begins => ?_⟩
    refine vscan_runs h ha hb hd (fun _ => ready) begins ?_ ?_ ?_
    · funext i
      rw [State.scanVal, kind, State.scanBefore_float float]
      rfl
    · funext i
      rw [State.scanSat, kind]
      rfl
    · funext i
      rw [State.scanFl, kind, State.scanBefore_float float]
      rfl

end Sys2Proof.Machine
end

section
/-! SUPPORT. The bit fields of a word laid side by side: cutting a word up and putting fields together undo each other, for R-form and
I-form words, paired words and tile instructions (spec/06 R119, R120, R127, R132). -/

namespace Sys2Proof

open Machine (b2n)

/-! ### Fields laid side by side -/

/-- The number whose fields, from bit `lo` up, have the widths and hold the values of a list. -/
def joinBits : Nat → List (Nat × Nat) → Nat
  | _, [] => 0
  | lo, (w, v) :: l => joinBits (lo + w) l + v * 2 ^ lo

/-- The fields of these widths of a number, from bit `lo` up, with their widths. -/
def cutBits (x : Nat) : Nat → List Nat → List (Nat × Nat)
  | _, [] => []
  | lo, w :: ws => (w, x / 2 ^ lo % 2 ^ w) :: cutBits x (lo + w) ws

/-- Every value fits its width. -/
def Fit (l : List (Nat × Nat)) : Prop := ∀ p ∈ l, p.2 < 2 ^ p.1

theorem fit_cons {w v : Nat} {l : List (Nat × Nat)} : Fit ((w, v) :: l) ↔ v < 2 ^ w ∧ Fit l := List.forall_mem_cons

theorem cutBits_append (x : Nat) (ws vs : List Nat) (lo : Nat) :
    cutBits x lo (ws ++ vs) = cutBits x lo ws ++ cutBits x (lo + ws.sum) vs := by
  induction ws generalizing lo with
  | nil => simp [cutBits]
  | cons w ws ih => simp [cutBits, ih, Nat.add_assoc]

theorem joinBits_cutBits (x : Nat) (ws : List Nat) (lo : Nat) :
    joinBits lo (cutBits x lo ws) + x % 2 ^ lo = x % 2 ^ (lo + ws.sum) := by
  induction ws generalizing lo with
  | nil => simp [cutBits, joinBits]
  | cons w ws ih =>
    have split : x / 2 ^ lo % 2 ^ w * 2 ^ lo + x % 2 ^ lo = x % 2 ^ (lo + w) := by
      rw [Nat.pow_add, Nat.mod_mul, Nat.mul_comm, Nat.add_comm]
    rw [cutBits, joinBits, Nat.add_assoc, split, ih, List.sum_cons, Nat.add_assoc]

/-- Fields that leave out no bit make up the whole number again. -/
theorem joinBits_cutBits_zero {x : Nat} {ws : List Nat} (h : x < 2 ^ ws.sum) : joinBits 0 (cutBits x 0 ws) = x := by
  have := joinBits_cutBits x ws 0
  rwa [Nat.pow_zero, Nat.mod_one, Nat.add_zero, Nat.zero_add, Nat.mod_eq_of_lt h] at this

theorem two_pow_dvd_joinBits (l : List (Nat × Nat)) (lo : Nat) : 2 ^ lo ∣ joinBits lo l := by
  induction l generalizing lo with
  | nil => exact dvd_zero _
  | cons p l ih => exact dvd_add ((pow_dvd_pow 2 (Nat.le_add_right _ _)).trans (ih _)) (dvd_mul_left _ _)

theorem mul_two_pow_add_lt {v w r lo : Nat} (hv : v < 2 ^ w) (hr : r < 2 ^ lo) : v * 2 ^ lo + r < 2 ^ (lo + w) := by
  calc v * 2 ^ lo + r < (v + 1) * 2 ^ lo := by rw [Nat.succ_mul]; omega
    _ ≤ 2 ^ w * 2 ^ lo := Nat.mul_le_mul_right _ hv
    _ = 2 ^ (lo + w) := by rw [Nat.add_comm, Nat.pow_add]

theorem joinBits_add_lt {l : List (Nat × Nat)} (h : Fit l) {lo r : Nat} (hr : r < 2 ^ lo) :
    joinBits lo l + r < 2 ^ (lo + (l.map Prod.fst).sum) := by
  induction l generalizing lo r with
  | nil => simpa [joinBits] using hr
  | cons p l ih =>
    obtain ⟨hv, hl⟩ := fit_cons.mp h
    rw [joinBits, Nat.add_assoc, List.map_cons, List.sum_cons, ← Nat.add_assoc lo]
    exact ih hl (mul_two_pow_add_lt hv hr)

/-- Cutting up what fields make up gives the fields, whatever stands in the bits below them. -/
theorem cutBits_joinBits {l : List (Nat × Nat)} (h : Fit l) {lo r : Nat} (hr : r < 2 ^ lo) :
    cutBits (joinBits lo l + r) lo (l.map Prod.fst) = l := by
  induction l generalizing lo r with
  | nil => rfl
  | cons p l ih =>
    obtain ⟨w, v⟩ := p
    obtain ⟨hv, hl⟩ := fit_cons.mp h
    obtain ⟨k, hk⟩ := two_pow_dvd_joinBits l (lo + w)
    have field : (joinBits (lo + w) l + v * 2 ^ lo + r) / 2 ^ lo % 2 ^ w = v := by
      have : joinBits (lo + w) l + v * 2 ^ lo + r = r + 2 ^ lo * (v + 2 ^ w * k) := by rw [hk, Nat.pow_add]; ring
      rw [this, Nat.add_mul_div_left _ _ (Nat.two_pow_pos lo), Nat.div_eq_of_lt hr, Nat.zero_add, Nat.add_mul_mod_self_left,
        Nat.mod_eq_of_lt hv]
    rw [joinBits, List.map_cons, cutBits, field, Nat.add_assoc, ih hl (mul_two_pow_add_lt hv hr)]

theorem cutBits_joinBits_zero {l : List (Nat × Nat)} (h : Fit l) : cutBits (joinBits 0 l) 0 (l.map Prod.fst) = l :=
  cutBits_joinBits h (r := 0) Nat.one_pos

theorem joinBits_lt {l : List (Nat × Nat)} (h : Fit l) {n : Nat} (hn : (l.map Prod.fst).sum = n) : joinBits 0 l < 2 ^ n := by
  have := joinBits_add_lt h (lo := 0) (r := 0) Nat.one_pos
  rwa [Nat.zero_add, hn] at this

/-- Fields of 64 bits can be read back from the word they make up. -/
theorem cutBits_toNat_ofNat {l : List (Nat × Nat)} (h : Fit l) (h64 : (l.map Prod.fst).sum = 64) :
    cutBits (BitVec.ofNat 64 (joinBits 0 l)).toNat 0 (l.map Prod.fst) = l := by
  rw [BitVec.toNat_ofNat, Nat.mod_eq_of_lt (joinBits_lt h h64), cutBits_joinBits_zero h]

/-- A word of kind `k` (R118) whose other 62 bits are these fields has that kind, and the fields can be read back from it. -/
theorem cutBits_of_kind {l : List (Nat × Nat)} {k : Nat} (h : Fit l) (hk : k < 4) (h62 : (l.map Prod.fst).sum = 62) :
    (BitVec.ofNat 64 (joinBits 0 (l ++ [(2, k)]))).toNat / 2 ^ 62 = k ∧
      cutBits (BitVec.ofNat 64 (joinBits 0 (l ++ [(2, k)]))).toNat 0 (l.map Prod.fst) = l := by
  have fits : Fit (l ++ [(2, k)]) := by simpa [Fit, or_imp, forall_and, hk] using h
  have cut := cutBits_toNat_ofNat fits (by simp [h62])
  generalize BitVec.ofNat 64 (joinBits 0 (l ++ [(2, k)])) = x at cut ⊢
  rw [List.map_append, cutBits_append] at cut
  obtain ⟨low, top⟩ := List.append_inj' cut rfl
  have last : x.toNat / 2 ^ 62 % 2 ^ 2 = k := by simpa [cutBits, h62] using top
  have := x.isLt
  exact ⟨by omega, low⟩

/-- A word of kind `k` is made up again from its other 62 bits. -/
theorem joinBits_cutBits_kind {x k : Nat} {ws : List Nat} (hx : x < 2 ^ 64) (hk : x / 2 ^ 62 = k) (h62 : ws.sum = 62) :
    joinBits 0 (cutBits x 0 ws ++ [(2, k)]) = x := by
  have top : cutBits x 0 (ws ++ [2]) = cutBits x 0 ws ++ [(2, k)] := by
    have : x / 2 ^ 62 % 4 = k := by omega
    simpa [cutBits_append, cutBits, h62] using this
  rw [← top]
  exact joinBits_cutBits_zero (by simpa [h62] using hx)

/-! ### Single bits -/

theorem b2n_lt_two (b : Bool) : b2n b < 2 := by cases b <;> decide

@[simp] theorem b2n_inj {a b : Bool} : b2n a = b2n b ↔ a = b := by cases a <;> cases b <;> decide

theorem b2n_testBit (x n : Nat) : b2n (x.testBit n) = x / 2 ^ n % 2 := by
  rw [Nat.testBit_eq_decide_div_mod_eq]
  obtain h | h := Nat.mod_two_eq_zero_or_one (x / 2 ^ n) <;> rw [h] <;> rfl

/-! ### R-form and I-form words (R119, R120) -/

/-- The fields of an R-form word below its kind, from bit 0 up (R119 Table 2, R125 Table 5). -/
def layoutR (op fh : Nat) (f : Fields) : List (Nat × Nat) :=
  [(6, f.xm.toNat), (3, f.seg.toNat), (1, b2n f.p), (1, b2n f.u), (1, b2n f.sat), (3, f.rnd.toNat), (1, b2n f.lm), (4, f.var.toNat),
    (4, fh), (1, b2n f.mn), (3, f.m.toNat), (1, b2n f.cc), (1, b2n f.cb), (1, b2n f.ca), (6, f.c.toNat), (6, f.b.toNat), (6, f.a.toNat),
    (6, f.d.toNat), (7, op)]

/-- The fields of an I-form word with immediate `i` below its kind, from bit 0 up (R120 Table 3). -/
def layoutI (op fh : Nat) (f : Fields) (i : BitVec 32) : List (Nat × Nat) :=
  [(32, i.toNat), (4, f.var.toNat), (4, fh), (3, f.m.toNat), (6, f.a.toNat), (6, f.d.toNat), (7, op)]

theorem packFields_eq_joinR {op fh : Nat} {f : Fields} (h : f.imm = none) :
    packFields op fh f = joinBits 0 (layoutR op fh f ++ [(2, 0)]) := by
  simp [packFields, h, layoutR, joinBits]

theorem packFields_eq_joinI {op fh : Nat} {f : Fields} {i : BitVec 32} (h : f.imm = some i) :
    packFields op fh f = joinBits 0 (layoutI op fh f i ++ [(2, 1)]) := by
  simp [packFields, h, layoutI, joinBits]

theorem layoutR_fit {op fh : Nat} (f : Fields) (hop : op < 128) (hfh : fh < 16) : Fit (layoutR op fh f) := by
  simp only [layoutR, fit_cons, pow_one, b2n_lt_two, true_and]
  exact ⟨f.xm.isLt, f.seg.isLt, f.rnd.isLt, f.var.isLt, hfh, f.m.isLt, f.c.isLt, f.b.isLt, f.a.isLt, f.d.isLt, hop, nofun⟩

theorem layoutI_fit {op fh : Nat} (f : Fields) (i : BitVec 32) (hop : op < 128) (hfh : fh < 16) : Fit (layoutI op fh f i) := by
  simp only [layoutI, fit_cons]
  exact ⟨i.isLt, f.var.isLt, hfh, f.m.isLt, f.a.isLt, f.d.isLt, hop, nofun⟩

/-- Cutting an R-form word up gives its OP, its FN[7:4] and the fields the decoder reads. -/
theorem cutBits_wordR (x : Nat) :
    cutBits x 0 [6, 3, 1, 1, 1, 3, 1, 4, 4, 1, 3, 1, 1, 1, 6, 6, 6, 6, 7] =
      layoutR (x / 2 ^ 55 % 128) (x / 2 ^ 20 % 16) (unpackR x) := by
  simp only [layoutR, cutBits, unpackR, b2n_testBit, BitVec.toNat_ofNat, Nat.zero_add, Nat.reduceAdd, pow_zero, Nat.div_one]
  rfl

/-- Cutting an I-form word up gives its OP, its FN[7:4] and the fields the decoder reads. -/
theorem cutBits_wordI (x : Nat) :
    cutBits x 0 [32, 4, 4, 3, 6, 6, 7] = layoutI (x / 2 ^ 55 % 128) (x / 2 ^ 36 % 16) (unpackI x) (BitVec.ofNat 32 x) := by
  simp only [layoutI, cutBits, unpackI, BitVec.toNat_ofNat, Nat.zero_add, Nat.reduceAdd, pow_zero, Nat.div_one]
  rfl

theorem layoutR_inj {op fh op' fh' : Nat} {f f' : Fields} (h : layoutR op fh f = layoutR op' fh' f') (himm : f.imm = f'.imm) :
    op = op' ∧ fh = fh' ∧ f = f' := by
  cases f
  cases f'
  simp only [layoutR, List.cons.injEq, Prod.mk.injEq, true_and, and_true, BitVec.toNat_inj, b2n_inj] at h himm
  simp only [Fields.mk.injEq]
  tauto

/-- An I-form word has D, A, MASK, FN and its immediate, and nothing else (R122). -/
theorem Fields.eq_of_formOk {f : Fields} {i : BitVec 32} (h : f.formOk = true) (hi : f.imm = some i) :
    f = { unpackI 0 with d := f.d, a := f.a, m := f.m, var := f.var, imm := some i } := by
  obtain ⟨d, a, b, c, ca, cb, cc, m, mn, var, lm, rnd, sat, u, p, seg, xm, imm⟩ := f
  obtain rfl : imm = some i := hi
  simp only [Fields.formOk, Option.isNone_some, Bool.false_or, Bool.and_eq_true, Bool.not_eq_true', beq_iff_eq] at h
  simp only [Fields.mk.injEq, unpackI, true_and, and_true]
  tauto

theorem formOk_unpackR (x : Nat) : (unpackR x).formOk = true := rfl

theorem formOk_unpackI (x : Nat) : (unpackI x).formOk = true := rfl

theorem layoutI_inj {op fh op' fh' : Nat} {f f' : Fields} {i i' : BitVec 32} (h : layoutI op fh f i = layoutI op' fh' f' i')
    (hf : f.formOk = true) (hi : f.imm = some i) (hf' : f'.formOk = true) (hi' : f'.imm = some i') :
    op = op' ∧ fh = fh' ∧ f = f' := by
  simp only [layoutI, List.cons.injEq, Prod.mk.injEq, true_and, and_true, BitVec.toNat_inj] at h
  obtain ⟨imm, var, fn, m, a, d, o⟩ := h
  refine ⟨o, fn, ?_⟩
  rw [Fields.eq_of_formOk hf hi, Fields.eq_of_formOk hf' hi', imm, var, m, a, d]

theorem packFields_unpackR {x : Nat} (hx : x < 2 ^ 64) (h : x / 2 ^ 62 = 0) :
    packFields (x / 2 ^ 55 % 128) (x / 2 ^ 20 % 16) (unpackR x) = x := by
  rw [packFields_eq_joinR rfl, ← cutBits_wordR]
  exact joinBits_cutBits_kind hx h rfl

theorem packFields_unpackI {x : Nat} (hx : x < 2 ^ 64) (h : x / 2 ^ 62 = 1) :
    packFields (x / 2 ^ 55 % 128) (x / 2 ^ 36 % 16) (unpackI x) = x := by
  rw [packFields_eq_joinI rfl, ← cutBits_wordI]
  exact joinBits_cutBits_kind hx h rfl

theorem decodeWord_packR {op fh : Nat} {f : Fields} (hop : op < 128) (hfh : fh < 16) (h : f.imm = none) :
    decodeWord (BitVec.ofNat 64 (packFields op fh f)) = decodeFields op fh f := by
  rw [packFields_eq_joinR h]
  obtain ⟨kind, cut⟩ := cutBits_of_kind (k := 0) (layoutR_fit f hop hfh) (by decide) (by simp [layoutR])
  generalize BitVec.ofNat 64 (joinBits 0 (layoutR op fh f ++ [(2, 0)])) = x at kind cut ⊢
  obtain ⟨ho, hf, hu⟩ := layoutR_inj ((cutBits_wordR _).symm.trans cut) h.symm
  simp only [decodeWord, kind, ho, hf, hu]

theorem decodeWord_packI {op fh : Nat} {f : Fields} {i : BitVec 32} (hop : op < 128) (hfh : fh < 16) (h : f.imm = some i)
    (ok : f.formOk = true) : decodeWord (BitVec.ofNat 64 (packFields op fh f)) = decodeFields op fh f := by
  rw [packFields_eq_joinI h]
  obtain ⟨kind, cut⟩ := cutBits_of_kind (k := 1) (layoutI_fit f i hop hfh) (by decide) (by simp [layoutI])
  generalize BitVec.ofNat 64 (joinBits 0 (layoutI op fh f i ++ [(2, 1)])) = x at kind cut ⊢
  obtain ⟨ho, hf, hu⟩ := layoutI_inj ((cutBits_wordI _).symm.trans cut) (formOk_unpackI _) rfl ok h
  simp only [decodeWord, kind, ho, hf, hu]

/-- The decoder looks a packed word up under the very OP, FN[7:4] and fields it was packed from. -/
theorem decodeWord_packFields {op fh : Nat} {f : Fields} (hop : op < 128) (hfh : fh < 16) (ok : f.formOk = true) :
    decodeWord (BitVec.ofNat 64 (packFields op fh f)) = decodeFields op fh f := by
  cases h : f.imm with
  | none => exact decodeWord_packR hop hfh h
  | some i => exact decodeWord_packI hop hfh h ok

/-! ### Paired words (R127) -/

/-- The fields of a half, from bit 0 up (R127 Table 6). -/
def layoutHalf (h : Half) : List (Nat × Nat) := [(14, h.imm.toNat), (1, b2n h.ca), (5, h.a.toNat), (5, h.d.toNat), (6, h.hop.toNat)]

theorem packHalf_eq_join (h : Half) : packHalf h = joinBits 0 (layoutHalf h) := by
  simp [packHalf, layoutHalf, joinBits]

theorem layoutHalf_fit (h : Half) : Fit (layoutHalf h) := by
  simp only [layoutHalf, fit_cons, pow_one, b2n_lt_two, true_and]
  exact ⟨h.imm.isLt, h.a.isLt, h.d.isLt, h.hop.isLt, nofun⟩

theorem cutBits_half (x : Nat) : cutBits x 0 [14, 1, 5, 5, 6] = layoutHalf (unpackHalf x) := by
  simp only [layoutHalf, cutBits, unpackHalf, b2n_testBit, BitVec.toNat_ofNat, Nat.zero_add, Nat.reduceAdd, pow_zero, Nat.div_one]
  rfl

theorem layoutHalf_inj {h h' : Half} (e : layoutHalf h = layoutHalf h') : h = h' := by
  cases h
  cases h'
  simp only [layoutHalf, List.cons.injEq, Prod.mk.injEq, true_and, and_true, BitVec.toNat_inj, b2n_inj] at e
  simp only [Half.mk.injEq]
  tauto

theorem packHalf_lt (h : Half) : packHalf h < 2 ^ 31 := by
  rw [packHalf_eq_join]
  exact joinBits_lt (layoutHalf_fit h) rfl

theorem unpackHalf_packHalf (h : Half) : unpackHalf (packHalf h) = h := by
  refine layoutHalf_inj ?_
  rw [← cutBits_half, packHalf_eq_join]
  exact cutBits_joinBits_zero (layoutHalf_fit h)

theorem packHalf_unpackHalf {x : Nat} (hx : x < 2 ^ 31) : packHalf (unpackHalf x) = x := by
  rw [packHalf_eq_join, ← cutBits_half]
  exact joinBits_cutBits_zero hx

/-- The decoder checks the very halves a paired word was packed from. -/
theorem decodeWord_packPair {h0 h1 : Half} (c0 : h0.check false = none) (c1 : h1.check true = none) :
    decodeWord (BitVec.ofNat 64 (2 ^ 63 + packHalf h0 * 2 ^ 31 + packHalf h1)) = .ok (.pairedWord h0 h1) := by
  have l0 := packHalf_lt h0
  have l1 := packHalf_lt h1
  have val : (BitVec.ofNat 64 (2 ^ 63 + packHalf h0 * 2 ^ 31 + packHalf h1)).toNat = 2 ^ 63 + packHalf h0 * 2 ^ 31 + packHalf h1 := by
    rw [BitVec.toNat_ofNat]
    omega
  have kind : (2 ^ 63 + packHalf h0 * 2 ^ 31 + packHalf h1) / 2 ^ 62 = 2 := by omega
  have low : (2 ^ 63 + packHalf h0 * 2 ^ 31 + packHalf h1) % 2 ^ 31 = packHalf h1 := by omega
  have high : (2 ^ 63 + packHalf h0 * 2 ^ 31 + packHalf h1) / 2 ^ 31 % 2 ^ 31 = packHalf h0 := by omega
  simp only [decodeWord, val, kind, low, high, unpackHalf_packHalf, c0, c1]

theorem packPair_unpack {x : Nat} (h : x / 2 ^ 62 = 2) :
    2 ^ 63 + packHalf (unpackHalf (x / 2 ^ 31 % 2 ^ 31)) * 2 ^ 31 + packHalf (unpackHalf (x % 2 ^ 31)) = x := by
  rw [packHalf_unpackHalf (Nat.mod_lt _ (by decide)), packHalf_unpackHalf (Nat.mod_lt _ (by decide))]
  omega

/-! ### Tile instructions (R132) -/

/-- The fields of word 0 of a tile instruction, from bit 0 up, with bits 51 to 48 (R132 Table 10). -/
def layoutTile (top z : Nat) (t : TileWord) : List (Nat × Nat) :=
  [(48, t.crec.toNat), (4, z), (1, b2n t.fp), (3, t.lvl.toNat), (8, top)]

theorem packTile_eq_join (top : Nat) (t : TileWord) : packTile top t = joinBits 0 (layoutTile top 0 t) := by
  simp [packTile, layoutTile, joinBits]

theorem layoutTile_fit {top : Nat} (t : TileWord) (h : top < 256) : Fit (layoutTile top 0 t) := by
  simp only [layoutTile, fit_cons, pow_one, b2n_lt_two, true_and]
  exact ⟨t.crec.isLt, by decide, t.lvl.isLt, h, nofun⟩

theorem cutBits_tile (w0 w1 w2 w3 : Word) :
    cutBits w0.toNat 0 [48, 4, 1, 3, 8] = layoutTile (w0.toNat / 2 ^ 56) (w0.toNat / 2 ^ 48 % 16) (unpackTile w0 w1 w2 w3) := by
  have top : w0.toNat / 2 ^ 56 % 2 ^ 8 = w0.toNat / 2 ^ 56 := Nat.mod_eq_of_lt (by have := w0.isLt; omega)
  simp only [layoutTile, cutBits, unpackTile, b2n_testBit, BitVec.toNat_ofNat, Nat.zero_add, Nat.reduceAdd, pow_zero, Nat.div_one, top]
  rfl

theorem layoutTile_inj {top z top' z' : Nat} {t t' : TileWord} (h : layoutTile top z t = layoutTile top' z' t')
    (h1 : t.w1 = t'.w1) (h2 : t.w2 = t'.w2) (h3 : t.w3 = t'.w3) : top = top' ∧ z = z' ∧ t = t' := by
  cases t
  cases t'
  simp only [layoutTile, List.cons.injEq, Prod.mk.injEq, true_and, and_true, BitVec.toNat_inj, b2n_inj] at h h1 h2 h3
  simp only [TileWord.mk.injEq]
  tauto

theorem cutBits_packTile {top : Nat} (t : TileWord) (h : top < 256) :
    cutBits (BitVec.ofNat 64 (packTile top t)).toNat 0 [48, 4, 1, 3, 8] = layoutTile top 0 t := by
  rw [packTile_eq_join]
  exact cutBits_toNat_ofNat (layoutTile_fit t h) (by simp [layoutTile])

theorem unpackTile_of_cut {top : Nat} {t : TileWord} {w0 : Word} (cut : cutBits w0.toNat 0 [48, 4, 1, 3, 8] = layoutTile top 0 t) :
    w0.toNat / 2 ^ 56 = top ∧ w0.toNat / 2 ^ 48 % 16 = 0 ∧ unpackTile w0 t.w1 t.w2 t.w3 = t :=
  layoutTile_inj ((cutBits_tile w0 t.w1 t.w2 t.w3).symm.trans cut) rfl rfl rfl

theorem decodeTile_of_check {top : Nat} {t : TileWord} {w0 w1 w2 w3 : Word} {mk : TileWord → Instr} (ht : w0.toNat / 2 ^ 56 = top)
    (hz : w0.toNat / 2 ^ 48 % 16 = 0) (hu : unpackTile w0 w1 w2 w3 = t) (hm : tileInstr top = some mk) (hc : t.check top = none) :
    decodeTile w0 w1 w2 w3 = .ok (mk t) := by
  subst ht hu
  simp only [decodeTile, hm, hz, hc, ne_eq, not_true_eq_false, if_false]

/-- What lets a tile instruction decode. -/
theorem decodeTile_ok_inv {w0 w1 w2 w3 : Word} {i : Instr} (h : decodeTile w0 w1 w2 w3 = .ok i) :
    ∃ mk, tileInstr (w0.toNat / 2 ^ 56) = some mk ∧ w0.toNat / 2 ^ 48 % 16 = 0 ∧
      (unpackTile w0 w1 w2 w3).check (w0.toNat / 2 ^ 56) = none ∧ mk (unpackTile w0 w1 w2 w3) = i := by
  unfold decodeTile at h
  dsimp only at h
  split at h
  case h_1 => cases h
  case h_2 mk hm =>
    split at h
    case isTrue => cases h
    case isFalse hz =>
      split at h
      case h_1 => cases h
      case h_2 hc => exact ⟨mk, hm, not_not.mp hz, hc, Except.ok.inj h⟩

theorem decodeTile_packTile {top : Nat} {t : TileWord} {mk : TileWord → Instr} (h : top < 256) (hm : tileInstr top = some mk)
    (hc : t.check top = none) : decodeTile (BitVec.ofNat 64 (packTile top t)) t.w1 t.w2 t.w3 = .ok (mk t) := by
  obtain ⟨ht, hz, hu⟩ := unpackTile_of_cut (cutBits_packTile t h)
  exact decodeTile_of_check ht hz hu hm hc

theorem packTile_unpackTile {w0 : Word} (w1 w2 w3 : Word) (hz : w0.toNat / 2 ^ 48 % 16 = 0) :
    packTile (w0.toNat / 2 ^ 56) (unpackTile w0 w1 w2 w3) = w0.toNat := by
  have cut := cutBits_tile w0 w1 w2 w3
  rw [hz] at cut
  rw [packTile_eq_join, ← cut]
  exact joinBits_cutBits_zero w0.isLt

end Sys2Proof
end

section
/-! SUPPORT. The opcode map names each instruction once, and the encoder and decoder undo each other (spec/06 R131, R133): what settles O1,
O2 and O3. -/

namespace Sys2Proof

/-! ### The opcode map (R131, R133) -/

/-- A row's OP and FN[7:4] fit their fields, and what it builds is a word of this very OP, FN[7:4] and fields. -/
def OpRow.Sound (r : OpRow) : Prop := r.op < 128 ∧ r.fh < 16 ∧ ∀ f, (r.build f).row = some (r.op, r.fh, f)

theorem row_ite {c : Prop} [Decidable c] {i j : Instr} {p : Option (Nat × Nat × Fields)} (hi : i.row = p) (hj : j.row = p) :
    (if c then i else j).row = p := by
  split
  · exact hi
  · exact hj

theorem rowsInt_sound : ∀ r ∈ rowsInt, r.Sound := by
  unfold rowsInt
  repeat refine List.forall_mem_cons.mpr ⟨⟨by decide, by decide, fun _ => rfl⟩, ?_⟩
  exact List.forall_mem_nil _

theorem rowsFp_sound : ∀ r ∈ rowsFp, r.Sound := by
  unfold rowsFp
  repeat refine List.forall_mem_cons.mpr ⟨⟨by decide, by decide, fun _ => rfl⟩, ?_⟩
  exact List.forall_mem_nil _

theorem rowsSys_sound : ∀ r ∈ rowsSys, r.Sound := by
  unfold rowsSys
  repeat refine List.forall_mem_cons.mpr ⟨⟨by decide, by decide, fun _ => rfl⟩, ?_⟩
  refine List.forall_mem_cons.mpr ⟨⟨by decide, by decide, fun _ => row_ite rfl rfl⟩, ?_⟩
  repeat refine List.forall_mem_cons.mpr ⟨⟨by decide, by decide, fun _ => rfl⟩, ?_⟩
  refine List.forall_mem_cons.mpr ⟨⟨by decide, by decide, fun _ => row_ite rfl (row_ite rfl rfl)⟩, ?_⟩
  repeat refine List.forall_mem_cons.mpr ⟨⟨by decide, by decide, fun _ => rfl⟩, ?_⟩
  exact List.forall_mem_nil _

theorem rowsVInt_sound : ∀ r ∈ rowsVInt, r.Sound := by
  unfold rowsVInt
  refine List.forall_mem_cons.mpr ⟨⟨by decide, by decide, fun _ => row_ite rfl rfl⟩, ?_⟩
  repeat refine List.forall_mem_cons.mpr ⟨⟨by decide, by decide, fun _ => rfl⟩, ?_⟩
  exact List.forall_mem_nil _

theorem rowsVFp_sound : ∀ r ∈ rowsVFp, r.Sound := by
  unfold rowsVFp
  repeat refine List.forall_mem_cons.mpr ⟨⟨by decide, by decide, fun _ => rfl⟩, ?_⟩
  refine List.forall_mem_cons.mpr ⟨⟨by decide, by decide, fun _ => row_ite rfl rfl⟩, ?_⟩
  exact List.forall_mem_nil _

theorem rowsSort_sound : ∀ r ∈ rowsSort, r.Sound := by
  unfold rowsSort
  repeat refine List.forall_mem_cons.mpr ⟨⟨by decide, by decide, fun _ => rfl⟩, ?_⟩
  exact List.forall_mem_nil _

theorem rowsVMem_sound : ∀ r ∈ rowsVMem, r.Sound := by
  unfold rowsVMem
  repeat refine List.forall_mem_cons.mpr ⟨⟨by decide, by decide, fun _ => rfl⟩, ?_⟩
  refine List.forall_mem_cons.mpr ⟨⟨by decide, by decide, fun _ => row_ite rfl rfl⟩, ?_⟩
  repeat refine List.forall_mem_cons.mpr ⟨⟨by decide, by decide, fun _ => rfl⟩, ?_⟩
  exact List.forall_mem_nil _

theorem rowsEngine_sound : ∀ r ∈ rowsEngine, r.Sound := by
  unfold rowsEngine
  repeat refine List.forall_mem_cons.mpr ⟨⟨by decide, by decide, fun _ => rfl⟩, ?_⟩
  exact List.forall_mem_nil _

theorem opRows_sound : ∀ r ∈ opRows, r.Sound := by
  simp only [opRows, List.forall_mem_append]
  exact ⟨⟨⟨⟨⟨⟨⟨rowsInt_sound, rowsFp_sound⟩, rowsSys_sound⟩, rowsVInt_sound⟩, rowsVFp_sound⟩, rowsSort_sound⟩, rowsVMem_sound⟩, rowsEngine_sound⟩

/-- The row found for an OP and FN[7:4] stands in the map, and is theirs. -/
theorem findRow_some {op fh : Nat} {r : OpRow} (h : findRow op fh = some r) : r ∈ opRows ∧ r.op = op ∧ r.fh = fh := by
  have found := List.find?_some h
  simp only [Bool.and_eq_true, beq_iff_eq] at found
  exact ⟨List.mem_of_find?_eq_some h, found⟩

theorem row_build {op fh : Nat} {r : OpRow} (h : findRow op fh = some r) (f : Fields) : (r.build f).row = some (op, fh, f) := by
  obtain ⟨mem, rfl, rfl⟩ := findRow_some h
  exact (opRows_sound r mem).2.2 f

theorem findRow_lt {op fh : Nat} {r : OpRow} (h : findRow op fh = some r) : op < 128 ∧ fh < 16 := by
  obtain ⟨mem, rfl, rfl⟩ := findRow_some h
  obtain ⟨hop, hfh, -⟩ := opRows_sound r mem
  exact ⟨hop, hfh⟩

/-- Fields decode where the map has a row for them and its check passes. -/
theorem decodeFields_ok_iff {op fh : Nat} {f : Fields} {i : Instr} :
    decodeFields op fh f = .ok i ↔ ∃ r, findRow op fh = some r ∧ (r.shape f).check f = none ∧ r.build f = i := by
  unfold decodeFields
  cases h : findRow op fh with
  | none => split <;> simp
  | some r =>
    obtain ⟨mem, hop, -⟩ := findRow_some h
    have : opRows.any (fun r => r.op == op) = true := List.any_eq_true.mpr ⟨r, mem, beq_iff_eq.mpr hop⟩
    rw [if_pos this]
    cases hc : (r.shape f).check f <;> simp [hc]

/-- TOP and the constructor of a tile instruction name each other, and no tile instruction is a word. -/
theorem tileInstr_some {top : Nat} {mk : TileWord → Instr} (h : tileInstr top = some mk) (t : TileWord) :
    (mk t).row = none ∧ (mk t).tileRow = some (top, t) := by
  unfold tileInstr at h
  split at h <;> cases h <;> exact ⟨rfl, rfl⟩

theorem tileInstr_of_tileRow {i : Instr} {top : Nat} {t : TileWord} (h : i.tileRow = some (top, t)) :
    top < 256 ∧ ∃ mk, tileInstr top = some mk ∧ mk t = i := by
  unfold Instr.tileRow at h
  split at h <;> cases h <;> exact ⟨by decide, _, rfl, rfl⟩

/-! ### Well-formed instructions and their words (R362) -/

section
variable {i : Instr} {op fh top : Nat} {f : Fields} {t : TileWord} {r : OpRow} {h0 h1 : Half}

theorem wf_word_iff (row : i.row = some (op, fh, f)) :
    i.wf = true ↔ f.formOk = true ∧ ∃ r, findRow op fh = some r ∧ (r.shape f).check f = none ∧ r.build f = i := by
  unfold Instr.wf
  rw [row]
  cases hr : findRow op fh <;> simp [hr, and_assoc]

theorem wf_tile_iff (row : i.row = none) (tile : i.tileRow = some (top, t)) : i.wf = true ↔ t.check top = none := by
  unfold Instr.wf
  rw [row, tile]
  exact beq_iff_eq

theorem wf_pair_iff : (Instr.pairedWord h0 h1).wf = true ↔ h0.check false = none ∧ h1.check true = none := by
  show (h0.check false == none && h1.check true == none) = true ↔ _
  rw [Bool.and_eq_true, beq_iff_eq, beq_iff_eq]

theorem pair_of_wf (row : i.row = none) (tile : i.tileRow = none) (h : i.wf = true) : ∃ h0 h1, i = .pairedWord h0 h1 := by
  unfold Instr.wf at h
  rw [row, tile] at h
  split at h
  case h_3 => exact ⟨_, _, rfl⟩
  all_goals contradiction

theorem encode_word (row : i.row = some (op, fh, f)) : encode i = [BitVec.ofNat 64 (packFields op fh f)] := by
  unfold encode
  rw [row]

theorem encode_tile (row : i.row = none) (tile : i.tileRow = some (top, t)) :
    encode i = [BitVec.ofNat 64 (packTile top t), t.w1, t.w2, t.w3] := by
  unfold encode
  rw [row, tile]

theorem encode_pair : encode (.pairedWord h0 h1) = [BitVec.ofNat 64 (2 ^ 63 + packHalf h0 * 2 ^ 31 + packHalf h1)] := rfl

end

/-! ### Decoding and encoding -/

/-- Settles O2: by the row, the TOP or the halves an instruction has. -/
theorem decodeOfEncode : Obligations.DecodeOfEncode := by
  intro i h
  cases row : i.row with
  | some p =>
    obtain ⟨op, fh, f⟩ := p
    obtain ⟨ok, found⟩ := (wf_word_iff row).mp h
    obtain ⟨r, hr, -, -⟩ := id found
    obtain ⟨hop, hfh⟩ := findRow_lt hr
    rw [encode_word row, decodeWords, decodeWord_packFields hop hfh ok]
    exact decodeFields_ok_iff.mpr found
  | none =>
    cases tile : i.tileRow with
    | some p =>
      obtain ⟨top, t⟩ := p
      obtain ⟨ht, mk, hm, rfl⟩ := tileInstr_of_tileRow tile
      rw [encode_tile row tile, decodeWords]
      exact decodeTile_packTile ht hm ((wf_tile_iff row tile).mp h)
    | none =>
      obtain ⟨h0, h1, rfl⟩ := pair_of_wf row tile h
      obtain ⟨c0, c1⟩ := wf_pair_iff.mp h
      rw [encode_pair, decodeWords]
      exact decodeWord_packPair c0 c1

theorem wf_and_encode_of_fields {op fh : Nat} {f : Fields} {i : Instr} {w : Word} (h : decodeFields op fh f = .ok i)
    (ok : f.formOk = true) (pack : packFields op fh f = w.toNat) : i.wf = true ∧ encode i = [w] := by
  obtain ⟨r, hr, hc, rfl⟩ := decodeFields_ok_iff.mp h
  have row := row_build hr f
  refine ⟨(wf_word_iff row).mpr ⟨ok, r, hr, hc, rfl⟩, ?_⟩
  rw [encode_word row, pack, BitVec.ofNat_toNat, BitVec.setWidth_eq]

theorem wf_and_encode_of_decodeWord {w : Word} {i : Instr} (h : decodeWord w = .ok i) : i.wf = true ∧ encode i = [w] := by
  have hx := w.isLt
  unfold decodeWord at h
  dsimp only at h
  split at h
  case h_1 kind => exact wf_and_encode_of_fields h (formOk_unpackR _) (packFields_unpackR hx kind)
  case h_2 kind => exact wf_and_encode_of_fields h (formOk_unpackI _) (packFields_unpackI hx kind)
  case h_3 kind =>
    split at h
    case h_3 c0 c1 =>
      obtain rfl := Except.ok.inj h
      refine ⟨wf_pair_iff.mpr ⟨c0, c1⟩, ?_⟩
      rw [encode_pair, packPair_unpack kind, BitVec.ofNat_toNat, BitVec.setWidth_eq]
    all_goals cases h
  case h_4 => cases h

theorem wf_and_encode_of_decodeTile {w0 w1 w2 w3 : Word} {i : Instr} (h : decodeTile w0 w1 w2 w3 = .ok i) :
    i.wf = true ∧ encode i = [w0, w1, w2, w3] := by
  obtain ⟨mk, hm, hz, hc, rfl⟩ := decodeTile_ok_inv h
  obtain ⟨row, tile⟩ := tileInstr_some hm (unpackTile w0 w1 w2 w3)
  refine ⟨(wf_tile_iff row tile).mpr hc, ?_⟩
  rw [encode_tile row tile, packTile_unpackTile w1 w2 w3 hz, BitVec.ofNat_toNat, BitVec.setWidth_eq]
  rfl

/-- Settles O3: for each kind of word, by what lets it decode. -/
theorem encodeOfDecode : Obligations.EncodeOfDecode :=
  ⟨fun _ _ => wf_and_encode_of_decodeWord, fun _ _ _ _ _ => wf_and_encode_of_decodeTile⟩

/-! ### Words written out -/

theorem decodeWord_of_encode {i : Instr} {w : Word} (h : i.wf = true ∧ encode i = [w]) : decodeWord w = .ok i := by
  have := decodeOfEncode i h.1
  rwa [h.2] at this

theorem decodeTile_of_encode {i : Instr} {w0 w1 w2 w3 : Word} (h : i.wf = true ∧ encode i = [w0, w1, w2, w3]) :
    decodeTile w0 w1 w2 w3 = .ok i := by
  have := decodeOfEncode i h.1
  rwa [h.2] at this

/-- Settles O1: each word written out is the encoding of its instruction; the reserved kind and opcodes are looked up. -/
theorem decodesWrittenWords : Obligations.DecodesWrittenWords := by
  obtain ⟨reservedKind, reservedOp, -⟩ := Tests.test_decode_reserved
  exact ⟨decodeWord_of_encode (by decide +kernel), decodeWord_of_encode (by decide +kernel), decodeWord_of_encode (by decide +kernel),
    decodeWord_of_encode (by decide +kernel), decodeWord_of_encode (by decide +kernel), decodeWord_of_encode (by decide +kernel),
    decodeTile_of_encode (by decide +kernel), reservedKind, reservedOp, by decide +kernel⟩

end Sys2Proof
end

section
/-! SUPPORT. The scalar register words as they run: operands are read, one register is written, and the pc moves (spec/07 R148, R150 to R160):
what settles O6. -/

namespace Sys2Proof.Machine

/-! ### Reading operands and writing D -/

theorem Reads.mono {s : State} {l l' : List (BitVec 6)} (h : Reads s l) (sub : ∀ r ∈ l', r ∈ l) : Reads s l' :=
  ⟨h.1, h.2.1, fun r hr => h.2.2 r (sub r hr)⟩

theorem Reads.run_rdS {s : State} {l : List (BitVec 6)} {r : BitVec 6} (h : Reads s l) (hr : r ∈ l) : rdS r s = .ok (s.th.getS r) s :=
  M.run_rdS h.2.1 (h.2.2 r hr)

theorem M.run_opB {f : Fields} {s : State} (h : Reads s (regsB f)) : opB f s = .ok (s.opndB f) s := by
  unfold State.opndB
  cases hf : f.imm with
  | some i => exact M.run_opB_imm hf s
  | none => exact M.run_opB_reg hf h.2.1 (h.2.2 f.b (by simp [regsB, hf]))

section
variable {f : Fields} {s : State}

/-- A word that writes D with a value of a alone. -/
theorem M.run_unaryOp (h : Reads s [f.a]) (g : Word → Word) : unaryOp f g s = .ok () (s.put f.d (g (s.th.getS f.a))) :=
  M.run_bind_ok (h.run_rdS List.mem_cons_self)

/-- A word that writes D with a value of a and b. -/
theorem M.run_binaryOp (h : Reads s (regsAB f)) (g : Word → Word → Word) :
    (do let a ← rdS f.a; let b ← opB f; wrS f.d (g a b) : M Unit) s = .ok () (s.put f.d (g (s.th.getS f.a) (s.opndB f))) := by
  rw [M.run_bind_ok (M.run_rdS h.2.1 h.left), M.run_bind_ok (M.run_opB h.right)]
  rfl

theorem M.run_setSat_satBit (b : Bool) (s : State) : setSat b s = .ok () (s.satBit b) := by cases b <;> rfl

theorem M.run_intOp (h : Reads s (regsAB f)) (g : Int → Int → Int) :
    let r := intResult g f.w f.sat f.u (s.th.getS f.a) (s.opndB f)
    intOp f g s = .ok () ((s.satBit r.2).put f.d r.1) := by
  intro r
  unfold intOp
  rw [M.run_bind_ok (M.run_rdS h.2.1 h.left), M.run_bind_ok (M.run_opB h.right), M.run_bind_ok (M.run_setSat_satBit r.2 s)]
  rfl

theorem intResult_modulo (g : Int → Int → Int) (w : Nat) (u : Bool) (a b : Word) :
    intResult g w false u a b = (putWord w (g (opd w u a) (opd w u b)), false) := rfl

end

/-! ### The words that take other operands -/

section
variable {f : Fields} {s : State}

theorem M.run_opV (h : Reads s (regsA f)) : opV f s = .ok (f.imm.getD ((s.th.getS f.a).setWidth 32)) s := by
  unfold opV
  unfold regsA at h
  cases hf : f.imm with
  | some i => rfl
  | none =>
    rw [hf] at h
    exact M.run_bind_ok (h.run_rdS List.mem_cons_self)

theorem exec_mulh (h : Reads s [f.a, f.b]) :
    exec (.mulh f) s = doneWith s (s.put f.d (mulhResult f.w f.u (s.th.getS f.a) (s.th.getS f.b))) :=
  runWord_ok h.1 (by rw [M.run_bind_ok (h.run_rdS (by simp)), M.run_bind_ok (h.run_rdS (by simp))]; rfl)

theorem exec_bfi (h : Reads s (f.d :: regsAB f)) :
    exec (.bfi f) s = doneWith s (s.put f.d (bfiResult (s.th.getS f.d) (s.th.getS f.a) (s.opndB f))) := by
  have hAB : Reads s (regsAB f) := h.mono fun _ => List.mem_cons_of_mem _
  refine runWord_ok h.1 ?_
  rw [M.run_bind_ok (h.run_rdS List.mem_cons_self), M.run_bind_ok (M.run_rdS h.2.1 hAB.left), M.run_bind_ok (M.run_opB hAB.right)]
  rfl

theorem exec_li (h : Reads s (regsA f)) :
    exec (.li f) s = doneWith s (s.put f.d ((f.imm.getD ((s.th.getS f.a).setWidth 32)).signExtend 64)) :=
  runWord_ok h.1 (M.run_bind_ok (M.run_opV h))

theorem exec_lih (h : Reads s (f.d :: regsA f)) :
    exec (.lih f) s = doneWith s (s.put f.d (f.imm.getD ((s.th.getS f.a).setWidth 32) ++ (s.th.getS f.d).setWidth 32)) := by
  refine runWord_ok h.1 ?_
  rw [M.run_bind_ok (h.run_rdS List.mem_cons_self), M.run_bind_ok (M.run_opV (h.mono fun _ => List.mem_cons_of_mem _))]
  rfl

theorem exec_sel (h : Reads s [f.a, f.b, f.c]) :
    exec (.sel f) s = doneWith s (s.put f.d (if s.th.getS f.c = 0 then s.th.getS f.b else s.th.getS f.a)) :=
  runWord_ok h.1 (by
    rw [M.run_bind_ok (h.run_rdS (by simp)), M.run_bind_ok (h.run_rdS (by simp)), M.run_bind_ok (h.run_rdS (by simp))]
    rfl)

theorem regsA_subset (f : Fields) : ∀ r ∈ regsA f, r ∈ [f.a] := by
  unfold regsA
  cases f.imm <;> simp

theorem regsAB_subset (f : Fields) : ∀ r ∈ regsAB f, r ∈ [f.a, f.b] := by
  unfold regsAB
  cases f.imm <;> simp

end

/-! ### What a register word leaves -/

/-- The word ends with D written and nothing else done. -/
def Puts (i : Instr) (d : BitVec 6) (s : State) : Prop := ∃ v, exec i s = doneWith s (s.put d v)

/-- Most of these words write a value of a, or of a and b; MULH, BFI, LI, LIH and SEL name what they take themselves. -/
theorem registerWords_put {f : Fields} {s : State} (h : Reads s [f.a, f.b, f.c, f.d]) :
    ∀ i ∈ [Instr.and f, .or f, .xor f, .mulh f, .shl f, .shr f, .sra f, .slt f, .seq f, .clz f, .popc f, .ext f, .bfx f, .bfi f,
      .mov f, .li f, .lih f, .lea f, .sel f], Puts i f.d s := by
  have hA : Reads s [f.a] := h.mono (by simp)
  have hD : Reads s [f.d, f.a, f.b] := h.mono (by simp)
  have hAB : Reads s (regsAB f) := hD.mono fun r hr => List.mem_cons_of_mem _ (regsAB_subset f r hr)
  have hLi : Reads s (regsA f) := hA.mono (regsA_subset f)
  have hDAB : Reads s (f.d :: regsAB f) := hD.mono (List.cons_subset_cons _ (regsAB_subset f))
  have hLih : Reads s (f.d :: regsA f) := hD.mono fun r hr => by have := regsA_subset f r; simp at hr this ⊢; tauto
  have unary (i : Instr) (g : Word → Word) (hi : exec i s = runWord (unaryOp f g) s) : Puts i f.d s :=
    ⟨_, hi.trans (runWord_ok h.1 (M.run_unaryOp hA g))⟩
  have binary (i : Instr) (g : Word → Word → Word)
      (hi : exec i s = runWord (do let a ← rdS f.a; let b ← opB f; wrS f.d (g a b)) s) : Puts i f.d s :=
    ⟨_, hi.trans (runWord_ok h.1 (M.run_binaryOp hAB g))⟩
  simp only [List.forall_mem_cons]
  exact ⟨binary _ _ rfl, binary _ _ rfl, binary _ _ rfl, ⟨_, exec_mulh (h.mono (by simp))⟩, binary _ _ rfl, binary _ _ rfl,
    binary _ _ rfl, binary _ _ rfl, binary _ _ rfl, unary _ _ rfl, unary _ _ rfl, unary _ _ rfl, binary _ _ rfl, ⟨_, exec_bfi hDAB⟩,
    unary _ _ rfl, ⟨_, exec_li hLi⟩, ⟨_, exec_lih hLih⟩, binary _ _ rfl, ⟨_, exec_sel (h.mono (by simp))⟩, List.forall_mem_nil _⟩

/-- ADD, SUB, MUL, MIN and MAX set VXSAT.SAT where they clamp (R96), which needs SAT = 1, and write D. -/
def PutsSat (i : Instr) (f : Fields) (s : State) : Prop :=
  ∃ b v, exec i s = doneWith s ((s.satBit b).put f.d v) ∧ (f.sat = false → b = false)

theorem clampingWords_put {f : Fields} {s : State} (h : Reads s (regsAB f)) :
    ∀ i ∈ [Instr.add f, .sub f, .mul f, .min f, .max f], PutsSat i f s := by
  have runs (i : Instr) (g : Int → Int → Int) (hi : exec i s = runWord (intOp f g) s) : PutsSat i f s := by
    refine ⟨_, _, hi.trans (runWord_ok h.1 (M.run_intOp h g)), fun sat => ?_⟩
    rw [sat, intResult_modulo]
  simp only [List.forall_mem_cons]
  exact ⟨runs _ _ rfl, runs _ _ rfl, runs _ _ rfl, runs _ _ rfl, runs _ _ rfl, List.forall_mem_nil _⟩

theorem Thread.getS_setS_ne {r q : BitVec 6} (h : q ≠ r) (t : Thread) (v : Word) : (t.setS r v).getS q = t.getS q := by
  by_cases hr : r = 0
  · unfold Thread.setS
    rw [if_pos hr]
  · rw [Thread.getS_setS hr, if_neg h]

theorem State.satBit_eq (s : State) (b : Bool) : s.satBit b = { s with th := { s.th with vxsat := (s.satBit b).th.vxsat } } := by
  cases b <;> rfl

/-- A word that completes outside a word step with D written differs from `u` in D and the pc. -/
theorem onlyReg_of_done {s u t : State} {d : BitVec 6} {v : Word} (step : NoWordStep s) (h : doneWith s (u.put d v) = .next t) :
    OnlyReg d u.th t.th ∧ t = { u with th := t.th, chosen := .none } := by
  unfold doneWith at h
  rw [complete_plain step] at h
  obtain rfl := Host.Outcome.next.inj h
  refine ⟨⟨fun r hr => Thread.getS_setS_ne hr u.th v, ?_⟩, rfl⟩
  unfold State.doneAt State.put Thread.setS
  split <;> rfl

/-- Settles O6: the frame of a word that ends in a write to D, for each of the register words. -/
theorem registerWordsFrame : Obligations.RegisterWordsFrame := by
  refine ⟨fun f s t h step => ⟨fun i hi run => ?_, fun i hi run => ?_⟩, fun _ => rfl, fun _ _ => rfl, fun f s h hd sat => ?_⟩
  · obtain ⟨v, done⟩ := registerWords_put h i hi
    exact onlyReg_of_done step (done.symm.trans run)
  · have hAB : Reads s (regsAB f) := (h.mono (by simp) : Reads s [f.a, f.b]).mono (regsAB_subset f)
    obtain ⟨b, v, done, modulo⟩ := clampingWords_put hAB i hi
    obtain ⟨reg, rest⟩ := onlyReg_of_done step (done.symm.trans run)
    have sat : t.th.vxsat = (s.satBit b).th.vxsat := by rw [reg.2]
    have th : (s.satBit b).th = { s.th with vxsat := t.th.vxsat } := by
      rw [sat]
      exact congrArg State.th (s.satBit_eq b)
    refine ⟨th ▸ reg, rest.trans (by rw [s.satBit_eq b]), fun off => ?_⟩
    rw [sat, modulo off]
    rfl
  · have add := runWord_ok h.1 (M.run_intOp h fun x y => x + y)
    have xor : exec (.xor f) s = doneWith s (s.put f.d _) := runWord_ok h.1 (M.run_binaryOp h _)
    rw [sat, hd, intResult_modulo] at add
    rw [hd] at xor
    exact ⟨add, xor⟩

end Sys2Proof.Machine
end

section
/-! SUPPORT. Scalar accesses of a thread to HBM where only its own cluster holds stores the homes do not (spec/03 R59, R60): what a word sees
of the store of the slot before it. -/

namespace Sys2Proof.Machine

/-! ### Where a thread sees its own stores -/

/-- Accesses of the selected thread to HBM are plain, and of what has not reached its home its own cluster holds the newest value. -/
structure OwnView (s : State) : Prop where
  level : s.th.level ≠ .user
  untranslated : (s.part s.th.part).ptroot.getLsbD 0 = false
  vldas : s.th.vldas = []
  zjobs : s.zjobs = []
  poison : s.poison = []
  frames : s.frames = []
  updates : NoUpdates s
  idle : ∀ w pa n, watermarkStall s w pa n = none
  stale : (s.cluster s.th.clusterNo).stale = []
  unseen : s.unseen = []
  own : ∀ u l, s.late.find u = some l → l.by_ = [s.th.clusterNo]

theorem Quiet.ownView {s : State} (h : Quiet s) : OwnView s := by
  obtain ⟨level, untranslated, vldas, zjobs, poison, -, updates, unseen, -⟩ := id h.1
  exact { level, untranslated, vldas, zjobs, poison, updates, unseen, frames := h.2, idle := h.1.watermarkStall, stale := h.1.stale_nil _,
          own := by rw [h.1.late_nil]; nofun }

/-- The selected thread may change in what its accesses do not depend on. -/
theorem OwnView.thread {s : State} (h : OwnView s) {t : Thread} (level : t.level = s.th.level) (part : t.part = s.th.part)
    (vldas : t.vldas = s.th.vldas) (pos : t.pos = s.th.pos) : OwnView { s with th := t } := by
  have cluster : t.clusterNo = s.th.clusterNo := by unfold Thread.clusterNo; rw [part, pos]
  obtain ⟨h1, h2, h3, h4, h5, h6, h7, h8, h9, unseen, own⟩ := h
  exact ⟨by rwa [← level] at h1, by rwa [← part] at h2, vldas.trans h3, h4, h5, h6, h7, h8, by rwa [← cluster] at h9, unseen,
    by rwa [← cluster] at own⟩

theorem OwnView.put {s : State} (h : OwnView s) (d : BitVec 6) (v : Word) : OwnView (s.put d v) :=
  h.thread (by simp) (by simp) (by simp) (by simp)

theorem OwnView.unresumed {s : State} (h : OwnView s) : OwnView { s with th := { s.th with resume := none } } := h.thread rfl rfl rfl rfl

/-! ### What it reads -/

theorem OwnView.rdVia {s : State} (h : OwnView s) (pa n : Nat) : s.rdVia (some s.th.clusterNo) pa n = s.mem.readLE pa n := by
  have seen (a : Nat) : s.seenByte s.th.clusterNo a = (s.mem.read a).toNat := by
    have byte : s.byteAt a = (s.mem.read a).toNat := by unfold State.byteAt; rw [h.frames]; rfl
    have stale : (s.clusters.get s.th.clusterNo Cluster.reset).stale = [] := h.stale
    unfold State.seenByte
    rw [stale]
    cases found : s.late.find (a / 8) with
    | none => exact byte
    | some l =>
      show (if l.by_.contains s.th.clusterNo = true then s.byteAt a else _) = _
      rw [if_pos (by rw [h.own _ l found]; exact List.contains_iff_mem.mpr (List.mem_singleton_self _)), byte]
  have plain : s.rdMem pa n = s.mem.readLE pa n := by unfold State.rdMem; rw [h.frames]
  have pieces : packElems 8 (fun i => s.seenByte s.th.clusterNo (pa + i)) n = s.mem.readLE pa n := by
    simp only [seen, Mem.readLE_eq_packElems]
  unfold State.rdVia
  dsimp only
  split
  · exact plain
  · exact pieces

/-! ### What a store leaves -/

/-- A word no other cluster holds is marked dirty. -/
theorem holdDirty_of_own {s : State} {c u : Nat} (own : ∀ l, s.late.find u = some l → l.by_ = [c]) (pa n : Nat) :
    ∃ home mask, holdDirty c pa n s u = { s with
      late := s.late.set u ⟨home, mask, [c]⟩
      clusters := s.clusters.map fun e => if e.1 = c then (c, { e.2 with stale := e.2.stale.erase u }) else e } := by
  unfold holdDirty
  cases found : s.late.find u with
  | none => exact ⟨_, _, rfl⟩
  | some l =>
    have others : l.by_.filter (· != c) = [] := by rw [own l found, List.filter_cons_of_neg (by simp), List.filter_nil]
    simp only [Option.getD_some, others, List.foldl_nil]
    exact ⟨_, _, rfl⟩

/-- It is, whatever thread is selected. -/
theorem holdDirty_thread {s : State} {c u : Nat} (own : ∀ l, s.late.find u = some l → l.by_ = [c]) (pa n : Nat) (t : Thread) :
    holdDirty c pa n { s with th := t } u = { holdDirty c pa n s u with th := t } := by
  unfold holdDirty
  cases found : s.late.find u with
  | none => rfl
  | some l =>
    have others : l.by_.filter (· != c) = [] := by rw [own l found, List.filter_cons_of_neg (by simp), List.filter_nil]
    simp only [Option.getD_some, others]
    rfl

theorem Still.clusters_erase {s : State} (h : Still s) (c u : Nat) :
    (s.clusters.map fun e => if e.1 = c then (c, { e.2 with stale := e.2.stale.erase u }) else e) = s.clusters := by
  obtain ⟨-, -, -, -, -, coherent, -⟩ := h
  simp only [State.coherent, Bool.and_eq_true, List.all_eq_true, List.isEmpty_iff] at coherent
  refine (List.map_congr_left fun e he => ?_).trans (List.map_id _)
  split
  next hc =>
    have none := coherent.2 e he
    obtain ⟨k, ⟨ccyc, banks, acc, accPoison, stale⟩⟩ := e
    obtain rfl : stale = [] := none
    obtain rfl : k = c := hc
    rfl
  next => rfl

theorem State.putBytes_late {s : State} (h : s.unseen = []) (late : Table Late) (pa n v : Nat) :
    ({ s with late := late } : State).putBytes pa n v = { s.putBytes pa n v with late := late } := by
  unfold State.putBytes
  rw [spoilUnseen_of_none (by exact h), spoilUnseen_of_none (by exact h)]
  rfl

theorem State.putBytes_thread {s : State} (h : s.unseen = []) (t : Thread) (pa n v : Nat) :
    ({ s with th := t } : State).putBytes pa n v = { s.putBytes pa n v with th := t } := by
  unfold State.putBytes
  rw [spoilUnseen_of_none (by exact h), spoilUnseen_of_none (by exact h)]
  rfl

/-- A store of an aligned word of HBM marks its word dirty and writes its bytes. -/
theorem State.store_word {s : State} (updates : NoUpdates s) {ea : Word} (he : InHbm ea 8) (v : Nat) :
    s.store ea 8 v = (holdDirty s.th.clusterNo ea.toNat 8 s (ea.toNat / 8)).putBytes ea.toNat 8 v := by
  obtain ⟨aligned, low⟩ := he
  have host : isHost ea.toNat = false := isHost_of_le_hbmEnd (Nat.le_of_add_right_le low)
  have words : (ea.toNat + 8 + 7) / 8 - ea.toNat / 8 = 1 := by omega
  unfold State.store dirtyWrite
  rw [host, Bool.and_false, if_neg Bool.false_ne_true]
  dsimp only
  rw [recallRange_of_noUpdates updates, words]
  rfl

/-- A store on a quiet machine: its word is dirty in the thread's cluster (R59). -/
theorem Quiet.store_eq {s : State} (h : Quiet s) {ea : Word} (he : InHbm ea 8) (v : Nat) : ∃ home mask, s.store ea 8 v = { s with
    mem := s.mem.writeLE ea.toNat v 8
    colls := s.colls.map (Coll.written ea.toNat 8)
    late := [(ea.toNat / 8, ⟨home, mask, [s.th.clusterNo]⟩)] } := by
  obtain ⟨home, mask, held⟩ := holdDirty_of_own (h.ownView.own (ea.toNat / 8)) ea.toNat 8
  refine ⟨home, mask, ?_⟩
  rw [h.1.clusters_erase, h.1.late_nil] at held
  rw [State.store_word h.ownView.updates he]
  rw [held]
  exact (State.putBytes_late h.ownView.unseen _ ea.toNat 8 v).trans (by rw [State.putBytes_of_plain h.plainMem]; rfl)

/-- What a store of 8 bytes does hangs on the thread's cluster and on nothing else of the thread. -/
theorem OwnView.store_thread {s : State} (h : OwnView s) {ea : Word} (he : InHbm ea 8) (v : Nat) {t : Thread}
    (cluster : t.clusterNo = s.th.clusterNo) : ({ s with th := t } : State).store ea 8 v = { s.store ea 8 v with th := t } := by
  obtain ⟨home, mask, held⟩ := holdDirty_of_own (h.own (ea.toNat / 8)) ea.toNat 8
  have unseen : (holdDirty s.th.clusterNo ea.toNat 8 s (ea.toNat / 8)).unseen = [] := by
    rw [held]
    exact h.unseen
  have written := State.store_word (s := { s with th := t }) (by exact h.updates) he v
  rw [cluster, holdDirty_thread (h.own _), State.putBytes_thread unseen, ← State.store_word h.updates he] at written
  exact written

theorem Quiet.ownView_store {s : State} (h : Quiet s) {ea : Word} (he : InHbm ea 8) (v : Nat) : OwnView (s.store ea 8 v) := by
  obtain ⟨home, mask, eq⟩ := h.store_eq he v
  rw [eq]
  obtain ⟨h1, h2, h3, h4, h5, h6, h7, h8, h9, unseen, -⟩ := h.ownView
  refine ⟨h1, h2, h3, h4, h5, h6, h7, h8, h9, unseen, fun u l found => ?_⟩
  by_cases hu : ea.toNat / 8 = u
  · obtain rfl : (⟨home, mask, [s.th.clusterNo]⟩ : Late) = l := Option.some.inj ((if_pos hu).symm.trans found)
    rfl
  · exact absurd ((if_neg hu).symm.trans found) nofun

/-! ### Where an access of 8 bytes lands (R50, R54, R74) -/

theorem OwnView.translate {s : State} (h : OwnView s) {ea : Word} (low : ea.toNat < hbmEnd) (need : Need) :
    translate s.th.who need ea s = .ok ⟨ea.toNat, 0, false, none⟩ s := by
  have user : s.th.who.user = false := decide_eq_false h.level
  have root : (s.part s.th.who.part).ptroot.getLsbD 0 = false := h.untranslated
  have phys : s.th.who.phys = false := rfl
  unfold hbmEnd at low
  have near : ¬ ea.toNat ≥ 2 ^ 63 := by omega
  have above : (bits ea.toNat 62 57 != 0) = false := by
    simp only [bits, Nat.shiftRight_eq_div_pow, bne_eq_false_iff_eq]
    omega
  have beyond : (bits ea.toNat 56 52 != 0) = false := by
    simp only [bits, Nat.shiftRight_eq_div_pow, bne_eq_false_iff_eq]
    omega
  unfold Machine.translate
  simp only [M.run_bind, M.run_get, near, above, beyond, user, root, phys, Bool.not_false, Bool.or_true, if_true, if_false,
    Bool.false_eq_true, M.run_pure]

/-- An access of 8 bytes to HBM lands there by way of the thread's cluster, or is refused for its alignment alone. -/
theorem OwnView.locate {s : State} (h : OwnView s) {ea : Word} (low : ea.toNat < hbmEnd) (need : Need) (acc : Nat) :
    locate s.th.who need acc 8 ea 8 s =
      if ea.toNat % 8 = 0 then .ok (.cell ea.toNat (some s.th.clusterNo)) s
      else .error (.cause { code := 0x080 + acc, xval := ea }) s := by
  have near : isFabric ea.toNat = false := isFabric_of_le_hbmEnd low.le
  have place : placeOf s s.th.who ea.toNat = .cell ea.toNat (some s.th.clusterNo) := by
    have hbm : isHbm ea.toNat = true := decide_eq_true low
    simp only [placeOf, hbm, Bool.true_or, if_true]
    rfl
  have window : windowCluster s.th.who ea.toNat = none := by
    unfold hbmEnd at low
    have h1 : ¬ windowBase ≤ ea.toNat := by unfold windowBase; omega
    have h2 : ¬ aliasBase ≤ ea.toNat := by unfold aliasBase; omega
    simp [windowCluster, h1, h2]
  have cache : (⟨ea.toNat, 0, false, none⟩ : Xlat).cacheable = true := rfl
  unfold Machine.locate locateX
  simp only [M.run_bind_ok (h.translate low need), M.run_bind, M.run_get, window, cache, if_true, place]
  by_cases aligned : ea.toNat % 8 = 0
  · rw [if_pos aligned, M.run_raiseFirst (by simp [aligned])]
    simp only [M.run_needHeld near]
    split
    · simp only [M.run_bind, M.run_holdForLoads_cell h.vldas, M.run_holdForZenc h.zjobs]
      rfl
    · simp only [M.run_bind, M.run_holdForZenc h.zjobs]
      rfl
  · have off : (ea.toNat % 8 != 0) = true := bne_iff_ne.mpr aligned
    rw [if_neg aligned, off]
    rfl

theorem OwnView.run_checkWatermark {s : State} (h : OwnView s) (w : Who) (pl : Place) (n : Nat) : checkWatermark w pl n s = .ok () s := by
  simp only [checkWatermark, M.run_bind, M.run_get, h.idle, M.run_pure]

theorem OwnView.loadPlace {s : State} (h : OwnView s) {ea : Word} (low : ea.toNat < hbmEnd) (acc n : Nat) :
    loadPlace acc ea n (.cell ea.toNat (some s.th.clusterNo)) s = .ok (s.bytes ea n) s := by
  have clean : poisonAt s ea.toNat n = none := by
    simp only [poisonAt, isHost_of_le_hbmEnd low.le, Bool.and_false, Bool.false_eq_true, if_false, h.poison]
  simp only [Machine.loadPlace, checkPoison, M.run_bind, M.run_get, clean, M.run_pure, readVia, recallRange_of_noUpdates h.updates,
    h.rdVia, M.run_set]
  rfl

/-- A 64-bit load into a register (R170). -/
theorem OwnView.loadReg {s : State} (h : OwnView s) {ea : Word} (he : InHbm ea 8) (d : BitVec 6) (zx : Bool) {clean : M Unit}
    (passes : clean s = .ok () s) : loadReg d 64 zx ea clean s = .ok () (s.put d (BitVec.ofNat 64 (s.bytes ea 8))) := by
  have low : ea.toNat < hbmEnd := Nat.lt_of_lt_of_le (Nat.lt_add_of_pos_right (by decide)) he.2
  have lands := (h.locate low .load accLoad).trans (if_pos he.1)
  unfold Machine.loadReg
  rw [M.run_bind_ok (M.run_getTh s), M.run_bind_ok lands, M.run_checked_clean passes, M.run_bind_ok (h.run_checkWatermark ..)]
  have plain : fifoShort accLoad ea (64 / 8) (.cell ea.toNat (some s.th.clusterNo)) s = .ok none s := rfl
  rw [M.run_bind_ok plain]
  dsimp only
  rw [M.run_bind_ok (h.loadPlace low accLoad (64 / 8)), loadResult_word]
  rfl

/-- A 64-bit store (R171). -/
theorem OwnView.run_store {s : State} (h : OwnView s) {ea : Word} (he : InHbm ea 8) (v : Nat) {clean : M Unit}
    (passes : clean s = .ok () s) : store s.th.who accStore 8 ea 8 v clean s = .ok () (s.store ea 8 v) := by
  have low : ea.toNat < hbmEnd := Nat.lt_of_lt_of_le (Nat.lt_add_of_pos_right (by decide)) he.2
  have lands := (h.locate low .store accStore).trans (if_pos he.1)
  unfold Machine.store
  rw [M.run_bind_ok lands, M.run_checked_clean passes, M.run_bind_ok (h.run_checkWatermark ..)]
  rfl

end Sys2Proof.Machine
end

section
/-! SUPPORT. The halves of a paired word as they run (spec/06 R128, R130 Table 7). -/

namespace Sys2Proof.Machine

/-! ### Results of 64 bits (R95, R150, R153) -/

theorem sxWord_word (e : Word) : sxWord 64 e.toNat = e := loadResult_word false e

theorem putWord_word (x : Int) : putWord 64 x = BitVec.ofInt 64 x := by
  unfold putWord
  rw [← pattern_eq_wrap, pattern, sxWord_word]

theorem opd_word (x : Word) : opd 64 false x = x.toInt := by
  rw [opd_eq_intOf, intOf, if_neg Bool.false_ne_true, BitVec.setWidth_eq]

theorem intResult_word (g : Int → Int → Int) (a b : Word) : intResult g 64 false false a b = (BitVec.ofInt 64 (g a.toInt b.toInt), false) := by
  rw [intResult_modulo, putWord_word, opd_word, opd_word]

theorem ofInt_add_toInt (a b : Word) : BitVec.ofInt 64 (a.toInt + b.toInt) = a + b := by
  rw [BitVec.ofInt_add, BitVec.ofInt_toInt, BitVec.ofInt_toInt]

theorem ofInt_mul_toInt (a b : Word) : BitVec.ofInt 64 (a.toInt * b.toInt) = a * b := by
  rw [BitVec.ofInt_mul, BitVec.ofInt_toInt, BitVec.ofInt_toInt]

theorem ofInt_sub_toInt (a b : Word) : BitVec.ofInt 64 (a.toInt - b.toInt) = a - b :=
  BitVec.eq_of_toInt_eq (by rw [BitVec.toInt_ofInt, BitVec.toInt_sub])

theorem ofInt_ite_toInt (c : Prop) [Decidable c] (a b : Word) :
    BitVec.ofInt 64 (if c then a.toInt else b.toInt) = if c then a else b := by
  split <;> exact BitVec.ofInt_toInt

theorem shlResult_word (a b : Word) : shlResult 64 a b = a <<< (b.toNat % 64) := by
  unfold shlResult shiftAmount
  rw [putWord_word, opd_word, BitVec.ofInt_mul, BitVec.ofInt_toInt, BitVec.ofInt_natCast, BitVec.shiftLeft_eq_mul_twoPow]
  congr 1
  exact BitVec.eq_of_toNat_eq (by rw [BitVec.toNat_twoPow, BitVec.toNat_ofNat])

theorem shrResult_word (a b : Word) : shrResult 64 a b = a >>> (b.toNat % 64) := by
  unfold shrResult shiftAmount uInt
  rw [putWord_word, Nat.mod_eq_of_lt a.isLt, ← Int.natCast_ediv, BitVec.ofInt_natCast]
  refine BitVec.eq_of_toNat_eq ?_
  rw [BitVec.toNat_ushiftRight, Nat.shiftRight_eq_div_pow, BitVec.toNat_ofNat]
  exact Nat.mod_eq_of_lt ((Nat.div_le_self _ _).trans_lt a.isLt)

theorem sraResult_word (a b : Word) : sraResult 64 a b = a.sshiftRight (b.toNat % 64) := by
  unfold sraResult shiftAmount
  rw [putWord_word, sInt_eq_toInt, BitVec.ofNat_toNat, BitVec.setWidth_eq, ← Int.shiftRight_eq_div_pow, ← BitVec.toInt_sshiftRight,
    BitVec.ofInt_toInt]

/-! ### The fields of a half (R128, R130) -/

theorem slotReg_eq_bankReg : slotReg = bankReg := by
  funext slot1 x
  cases slot1 <;> revert x <;> decide

/-- The immediates of a half, extended. -/
theorem immS_signExtend (x : BitVec 14) : immS (x.signExtend 32) = x.signExtend 64 := by
  refine BitVec.eq_of_toInt_eq ?_
  unfold immS
  rw [BitVec.toInt_signExtend_of_le (by decide), BitVec.toInt_signExtend_of_le (by decide), BitVec.toInt_signExtend_of_le (by decide)]

theorem immS_setWidth (x : BitVec 14) : (immS (x.setWidth 32)).toNat = x.toNat := by
  have short : (x.setWidth 32).toNat = x.toNat := by
    rw [BitVec.toNat_setWidth]
    exact Nat.mod_eq_of_lt (x.isLt.trans (by decide))
  have positive : (x.setWidth 32).msb = false := by
    rw [BitVec.msb_eq_decide, short]
    exact decide_eq_false (by have := x.isLt; omega)
  unfold immS
  rw [BitVec.signExtend_eq_setWidth_of_msb_false positive, BitVec.toNat_setWidth, short]
  exact Nat.mod_eq_of_lt (x.isLt.trans (by decide))

section
variable {s : State} {slot1 : Bool} {h : Half}

theorem halfFields_w (slot1 : Bool) (h : Half) (withA : Bool) (imm : Option (BitVec 32)) : (halfFields slot1 h withA imm).w = 64 := by
  simp [Fields.w, halfFields, Fields.zero]

theorem mem_of_lookup {α : Type} {l : List (Nat × α)} {k : Nat} {x : α} (found : l.lookup k = some x) : (k, x) ∈ l := by
  obtain ⟨l1, l2, rfl, -⟩ := List.lookup_eq_some_iff.mp found
  exact List.mem_append_right _ List.mem_cons_self

/-- A two-operand half at 64 bits, without saturation. -/
theorem M.run_intOp_word {f : Fields} (reads : Reads s (regsAB f)) (w : f.w = 64) (sat : f.sat = false) (u : f.u = false)
    (g : Int → Int → Int) : intOp f g s = .ok () (s.put f.d (BitVec.ofInt 64 (g (s.th.getS f.a).toInt (s.opndB f).toInt))) := by
  rw [M.run_intOp reads g, w, sat, u, intResult_word]
  rfl

theorem M.run_bitOp_word {f : Fields} (reads : Reads s (regsAB f)) (w : f.w = 64) (g : Nat → Nat → Nat) {e : Word}
    (he : e.toNat = g (s.th.getS f.a).toNat (s.opndB f).toNat) : bitOp f g s = .ok () (s.put f.d e) := by
  refine (M.run_binaryOp reads _).trans ?_
  rw [w, Nat.mod_eq_of_lt (BitVec.isLt _), Nat.mod_eq_of_lt (BitVec.isLt _), ← he, sxWord_word]

theorem M.run_shiftOp_word {f : Fields} (reads : Reads s (regsAB f)) (w : f.w = 64) (g : Nat → Word → Word → Word) :
    shiftOp f g s = .ok () (s.put f.d (g 64 (s.th.getS f.a) (s.opndB f))) := by
  rw [← w]
  exact M.run_binaryOp reads _

/-- A scalar half that writes D (R130 Table 7). -/
theorem halfM_put {v : Word} (reads : Reads s [slotReg slot1 h.d, slotReg slot1 h.a]) (hv : s.halfValue slot1 h = some v) :
    halfM slot1 h s = .ok () (s.put (slotReg slot1 h.d) v) := by
  unfold State.halfValue at hv
  rw [slotReg_eq_bankReg] at *
  have hD : Reads s (regsAB (halfFields slot1 h false (some (h.imm.signExtend 32)))) := reads.mono (by simp [regsAB, halfFields])
  have hZ : Reads s (regsAB (halfFields slot1 h false (some (h.imm.setWidth 32)))) := reads.mono (by simp [regsAB, halfFields])
  have hA : Reads s [(halfFields slot1 h true none).a] := reads.mono (by simp [halfFields])
  have amount : (s.opndB (halfFields slot1 h false (some (h.imm.setWidth 32)))).toNat = h.imm.toNat := immS_setWidth h.imm
  have added : s.opndB (halfFields slot1 h false (some (h.imm.signExtend 32))) = h.imm.signExtend 64 := immS_signExtend h.imm
  have mem := mem_of_lookup hv
  simp only [List.mem_cons, List.not_mem_nil, or_false, Prod.mk.injEq] at mem
  have two (g : Int → Int → Int) := M.run_intOp_word (f := halfFields slot1 h false none) reads (halfFields_w ..) rfl rfl g
  have bits (g : Nat → Nat → Nat) (e : Word) := M.run_bitOp_word (f := halfFields slot1 h false none) (e := e) reads (halfFields_w ..) g
  have shift (g : Nat → Word → Word → Word) := M.run_shiftOp_word hZ (halfFields_w ..) g
  rcases mem with ⟨hop, rfl⟩ | ⟨hop, rfl⟩ | ⟨hop, rfl⟩ | ⟨hop, rfl⟩ | ⟨hop, rfl⟩ | ⟨hop, rfl⟩ | ⟨hop, rfl⟩ | ⟨hop, rfl⟩ | ⟨hop, rfl⟩ |
    ⟨hop, rfl⟩ | ⟨hop, rfl⟩ | ⟨hop, rfl⟩ | ⟨hop, rfl⟩ | ⟨hop, rfl⟩
  all_goals
    unfold halfM
    rw [hop]
  · exact (two _).trans (by rw [ofInt_add_toInt]; rfl)
  · refine (M.run_intOp_word hD (halfFields_w ..) rfl rfl _).trans ?_
    rw [ofInt_add_toInt, added]
    rfl
  · exact (two _).trans (by rw [ofInt_sub_toInt]; rfl)
  · exact bits _ _ (BitVec.toNat_and ..)
  · exact bits _ _ (BitVec.toNat_or ..)
  · exact bits _ _ (BitVec.toNat_xor ..)
  · exact (shift shlResult).trans (by rw [shlResult_word, amount]; rfl)
  · exact (shift shrResult).trans (by rw [shrResult_word, amount]; rfl)
  · exact (shift sraResult).trans (by rw [sraResult_word, amount]; rfl)
  · exact (two _).trans (by rw [ofInt_ite_toInt]; rfl)
  · exact (two _).trans (by rw [ofInt_ite_toInt]; rfl)
  · exact M.run_unaryOp hA id
  · rfl
  · exact (two _).trans (by rw [ofInt_mul_toInt]; rfl)

/-! ### Halves that access memory -/

theorem halfM_load (hop : h.hop = 14) : halfM slot1 h = halfMem slot1 h false := by
  unfold halfM
  rw [hop]
  rfl

theorem halfM_store (hop : h.hop = 15) : halfM slot1 h = halfMem slot1 h true := by
  unfold halfM
  rw [hop]
  rfl

theorem halfM_nop (hop : h.hop = 0) : halfM slot1 h = pure () := by
  unfold halfM
  rw [hop]
  rfl

/-- A half's LD once its address is read. -/
theorem run_halfLoad (reads : Reads s [slotReg slot1 h.d, slotReg slot1 h.a]) : halfMem slot1 h false s =
    loadReg (slotReg slot1 h.d) 64 false (s.halfAddr slot1 h) (cleanS (slotReg slot1 h.a)) s := by
  obtain ⟨-, begun, readable⟩ := reads
  unfold halfMem
  rw [← slotReg_eq_bankReg, M.run_bind_ok (M.run_peekS begun (readable (slotReg slot1 h.a) (by simp)))]
  rfl

/-- A half's ST once its address and value are read. -/
theorem run_halfStore (reads : Reads s [slotReg slot1 h.d, slotReg slot1 h.a]) : halfMem slot1 h true s =
    store s.th.who accStore 8 (s.halfAddr slot1 h) 8 (s.th.getS (slotReg slot1 h.d)).toNat
      (do cleanS (slotReg slot1 h.a); cleanS (slotReg slot1 h.d)) s := by
  obtain ⟨-, begun, readable⟩ := reads
  unfold halfMem
  rw [← slotReg_eq_bankReg, M.run_bind_ok (M.run_peekS begun (readable (slotReg slot1 h.a) (by simp)))]
  exact (M.run_bind_ok (M.run_peekS begun (readable (slotReg slot1 h.d) (by simp)))).trans (M.run_bind_ok (M.run_getTh s))

theorem HalfRuns.live {t : State} (runs : HalfRuns s slot1 h t) : s.th.live = true := by
  obtain ⟨⟨live, -, -⟩, -⟩ := runs
  exact live

/-- A scalar half runs as Table 7 says. -/
theorem HalfRuns.run {t : State} (view : OwnView s) (runs : HalfRuns s slot1 h t) : halfM slot1 h s = .ok () t := by
  obtain ⟨reads, ⟨hop, rfl⟩ | ⟨v, hv, rfl⟩ | ⟨he, ⟨hop, rfl⟩ | ⟨hop, rfl⟩⟩⟩ := runs
  · rw [halfM_nop hop]
    rfl
  · exact halfM_put reads hv
  · rw [halfM_load hop, run_halfLoad reads]
    exact view.loadReg he _ false (M.run_cleanS (reads.2.2 _ (by simp)))
  · rw [halfM_store hop, run_halfStore reads]
    refine view.run_store he _ ?_
    rw [M.run_bind_ok (M.run_cleanS (reads.2.2 _ (by simp))), M.run_cleanS (reads.2.2 _ (by simp))]

/-- A half that accesses memory off alignment raises its class-0x4 cause, with nothing changed. -/
theorem halfM_misaligned (view : OwnView s) (hop : h.hop = 14 ∨ h.hop = 15) (reads : Reads s [slotReg slot1 h.d, slotReg slot1 h.a])
    (off : (s.halfAddr slot1 h).toNat % 8 ≠ 0) (low : (s.halfAddr slot1 h).toNat < hbmEnd) :
    halfM slot1 h s = .error (.cause { code := if h.hop = 14 then 0x080 else 0x081, xval := s.halfAddr slot1 h }) s := by
  have refused (need : Need) (acc : Nat) := (view.locate low need acc).trans (if_neg off)
  rcases hop with hop | hop
  · rw [halfM_load hop, run_halfLoad reads, hop]
    unfold loadReg
    rw [M.run_bind_ok (M.run_getTh s), M.run_bind_error (refused .load accLoad)]
    rfl
  · rw [halfM_store hop, run_halfStore reads, hop]
    unfold store
    rw [M.run_bind_error (refused .store accStore)]
    rfl

theorem halfRange_scalar (u : State) (scalar : h.hop.toNat < 32) : halfRange u h = false := by
  have other (k : BitVec 6) (hk : 32 ≤ k.toNat) : (h.hop == k) = false := beq_eq_false_iff_ne.mpr (by rintro rfl; omega)
  unfold halfRange
  rw [other 41 (by decide), other 42 (by decide)]
  rfl

/-- A scalar half has no shift amount for the check before both slots. -/
theorem HalfRuns.inRange {t : State} (runs : HalfRuns s slot1 h t) (u : State) : halfRange u h = false := by
  have scalar : h.hop.toNat < 32 := by
    obtain ⟨-, ⟨hop, -⟩ | ⟨v, hv, -⟩ | ⟨-, ⟨hop, -⟩ | ⟨hop, -⟩⟩⟩ := runs
    · rw [hop]; decide
    · have mem := mem_of_lookup hv
      simp only [List.mem_cons, List.not_mem_nil, or_false, Prod.mk.injEq] at mem
      omega
    · rw [hop]; decide
    · rw [hop]; decide
  exact halfRange_scalar u scalar

/-! ### What the second slot finds -/

theorem HalfRuns.ownView {t : State} (quiet : Quiet s) (runs : HalfRuns s slot1 h t) : OwnView t := by
  obtain ⟨-, ⟨-, rfl⟩ | ⟨v, -, rfl⟩ | ⟨he, ⟨-, rfl⟩ | ⟨-, rfl⟩⟩⟩ := runs
  · exact quiet.ownView
  · exact quiet.ownView.put _ v
  · exact quiet.ownView.put _ _
  · exact quiet.ownView_store he _

/-- `s` with slot 0 of its word no longer on record as done (R351). -/
def State.unresumed (s : State) : State := { s with th := { s.th with resume := none } }

theorem Reads.unresumed {l : List (BitVec 6)} (reads : Reads s l) : Reads s.unresumed l :=
  ⟨reads.1, Thread.asBegun_of_fresh rfl, reads.2.2⟩

theorem State.unresumed_put (s : State) (d : BitVec 6) (v : Word) : (s.put d v).unresumed = s.unresumed.put d v := by
  unfold State.unresumed State.put Thread.setS
  split <;> rfl

theorem OwnView.store_th (view : OwnView s) {ea : Word} (he : InHbm ea 8) (v : Nat) : (s.store ea 8 v).th = s.th := by
  have same := view.store_thread he v (t := s.th) rfl
  exact (congrArg State.th same :)

theorem OwnView.unresumed_store (view : OwnView s) {ea : Word} (he : InHbm ea 8) (v : Nat) :
    (s.store ea 8 v).unresumed = s.unresumed.store ea 8 v := by
  have stored := view.store_thread he v (t := s.unresumed.th) rfl
  show { s.store ea 8 v with th := { (s.store ea 8 v).th with resume := none } } = _
  rw [view.store_th he v]
  exact stored.symm

/-- Nothing a scalar half does hangs on the record. -/
theorem HalfRuns.unresumed {t : State} (view : OwnView s) (runs : HalfRuns s slot1 h t) : HalfRuns s.unresumed slot1 h t.unresumed := by
  obtain ⟨reads, ⟨hop, rfl⟩ | ⟨v, hv, rfl⟩ | ⟨he, ⟨hop, rfl⟩ | ⟨hop, rfl⟩⟩⟩ := runs
  · exact ⟨reads.unresumed, .inl ⟨hop, rfl⟩⟩
  · exact ⟨reads.unresumed, .inr (.inl ⟨v, hv, s.unresumed_put _ v⟩)⟩
  · refine ⟨reads.unresumed, .inr (.inr ⟨he, .inl ⟨hop, ?_⟩⟩)⟩
    rw [State.unresumed_put]
    rfl
  · exact ⟨reads.unresumed, .inr (.inr ⟨he, .inr ⟨hop, view.unresumed_store he _⟩⟩)⟩

end

end Sys2Proof.Machine
end

section
/-! SUPPORT. The vector halves of a paired word against their full instructions (spec/06 R130 Table 7, spec/20 R364, R367), and what a
vector word that waits part way leaves on record (spec/19 R348, R351). -/

namespace Sys2Proof.Machine

/-! ### The check before a vector half is the one its full instruction makes -/

theorem raiseFirst_congr {l l' : List (Bool × Nat)} (h : firstCause l = firstCause l') (x : Word) : raiseFirst l x = raiseFirst l' x := by
  unfold raiseFirst
  rw [h]

/-- A step before others that passes where it is taken. -/
theorem M.run_optional {c : Prop} [Decidable c] {x : M PUnit} {f : PUnit → M Unit} {s : State} (h : c → x s = .ok () s) :
    (if c then x >>= f else f ()) s = f () s := by
  split
  next hc => exact M.run_bind_ok (h hc)
  next => rfl

theorem grpBad_one (r : BitVec 6) : grpBad r 1 = [(false, 0x0E2), (decide (32 ≤ r.toNat), 0x0E3)] := by
  unfold grpBad
  rw [Nat.mod_one]
  simp only [bne_self_eq_false, Nat.lt_add_one_iff]

/-- The vector halves that read A as a register, those that slide and those of floating point, by hop (R130 Table 7, R367). -/
def hopReadsA (k : Nat) : Bool := !(k == 45 || k == 46 || k == 41 || k == 42 || k == 47)
def hopSlides (k : Nat) : Bool := k == 45 || k == 46
def hopIsFp (k : Nat) : Bool := k == 43 || k == 44 || k == 48 || k == 49

/-- The conditions of a vector half: its registers, and a slide over itself. -/
def halfBad (slot1 : Bool) (h : Half) (readsA slides : Bool) : List (Bool × Nat) :=
  grpBad (slotReg slot1 h.d) 1 ++ (if readsA then grpBad (slotReg slot1 h.a) 1 else []) ++ [(slides, 0x0E4)]

/-- A condition that does not hold counts for nothing. -/
theorem firstCause_append_false (l : List (Bool × Nat)) (c : Nat) : firstCause (l ++ [(false, c)]) = firstCause l := by
  induction l with
  | nil => rfl
  | cons x l ih => simp only [List.cons_append, firstCause, ih]

section
variable {s : State} {slot1 : Bool} {h : Half}

theorem M.run_needVector (here : s.th.vectorHere = true) : needVector s = .ok () s := by
  unfold needVector
  rw [M.run_bind_ok (M.run_getTh s), here]
  rfl

theorem HalfVecOk.live (ok : HalfVecOk s h) : s.th.live = true := by
  obtain ⟨live, -⟩ := ok
  exact live

theorem HalfVecOk.here (ok : HalfVecOk s h) : s.th.vectorHere = true := by
  obtain ⟨-, -, here, -⟩ := ok
  exact here

theorem HalfVecOk.sew (ok : HalfVecOk s h) : (vcOf s).sew = s.th.sew := by
  obtain ⟨-, begun, -⟩ := ok
  exact vcOf_sew begun

/-- The shift amount of a vector half is below SEW. -/
theorem HalfVecOk.below (ok : HalfVecOk s h) (shifts : h.hop.toNat = 41 ∨ h.hop.toNat = 42) : h.imm.toNat < (vcOf s).sew := by
  rw [ok.sew]
  obtain ⟨-, -, -, -, below, -⟩ := ok
  exact below (shifts.imp BitVec.eq_of_toNat_eq BitVec.eq_of_toNat_eq)

theorem HalfVecOk.group (ok : HalfVecOk s h) : (vcOf s).grp = 0 := by
  obtain ⟨-, begun, -, group, -⟩ := ok
  show Thread.grp { s.th with vcfg := s.th.begins.vcfg } = 0
  rw [begun]
  exact group

theorem HalfVecOk.regs (ok : HalfVecOk s h) : (vcOf s).regs = 1 := by
  unfold VC.regs
  rw [ok.group, pow_zero]

/-- The SEW of a floating-point half is one its core has. -/
theorem HalfVecOk.width (ok : HalfVecOk s h) (fp : hopIsFp h.hop.toNat = true) :
    (vcOf s).sew ≠ 8 ∧ ((vcOf s).sew = 64 → featHas s 0 = true) := by
  have named : h.hop = 43 ∨ h.hop = 44 ∨ h.hop = 48 ∨ h.hop = 49 := by
    revert fp
    generalize h.hop = k
    revert k
    decide
  rw [ok.sew]
  obtain ⟨-, -, -, -, -, width⟩ := ok
  exact width named

theorem HalfVecOk.run_halfVecCheck (ok : HalfVecOk s h) : halfVecCheck slot1 h s =
    raiseFirst (halfBad slot1 h (hopReadsA h.hop.toNat) (hopSlides h.hop.toNat)) (vcOf s).vcfg s := by
  have width : (hopIsFp h.hop.toNat && (vcOf s).sew == 8) = false := by
    cases fp : hopIsFp h.hop.toNat with
    | false => rfl
    | true => exact beq_eq_false_iff_ne.mpr (ok.width fp).1
  have feat : (hopIsFp h.hop.toNat && (vcOf s).sew == 64) = true → needFeat 0 s = .ok () s := fun wide => by
    obtain ⟨fp, wide⟩ := Bool.and_eq_true_iff.mp wide
    unfold needFeat
    rw [M.run_bind_ok (M.run_get s), (ok.width fp).2 (beq_iff_eq.mp wide)]
    rfl
  have none (l : List (Bool × Nat)) (x : Bool × Nat) : firstCause (l ++ [x, (false, 0x0EF)]) = firstCause (l ++ [x]) := by
    rw [show l ++ [x, (false, 0x0EF)] = (l ++ [x]) ++ [(false, 0x0EF)] by simp, firstCause_append_false]
  unfold hopIsFp at width feat
  unfold halfVecCheck
  rw [M.run_bind_ok (M.run_get s)]
  dsimp only
  rw [width, ok.group, ok.regs, ← slotReg_eq_bankReg, M.run_optional feat, M.run_bind_ok (M.run_needVector ok.here)]
  exact congrFun (raiseFirst_congr (none _ _) _) s

/-! ### What a vector word's own conditions refuse -/

/-- Where one of the conditions `bad` holds, `m` raises the cause of the first and nothing else happens. -/
def Refuses (m : M Unit) (bad : List (Bool × Nat)) (s : State) : Prop :=
  ∀ e t, raiseFirst bad (vcOf s).vcfg s = .error e t → m s = .error e t

/-- A check made twice is made once. -/
theorem Refuses.absorbs {m check : M Unit} {bad : List (Bool × Nat)} (refuses : Refuses m bad s)
    (same : check s = raiseFirst bad (vcOf s).vcfg s) : (do check; m) s = m s := by
  have checked : raiseFirst bad (vcOf s).vcfg s = .ok () s ∨ ∃ e, raiseFirst bad (vcOf s).vcfg s = .error e s := by
    unfold raiseFirst
    cases firstCause bad with
    | none => exact .inl rfl
    | some c => exact .inr ⟨_, rfl⟩
  rcases checked with passes | ⟨e, stops⟩
  · exact M.run_bind_ok (same.trans passes)
  · exact (M.run_bind_error (same.trans stops)).trans (refuses e s stops).symm

theorem vIssue_refused {f : Fields} {feats bad : List (Bool × Nat)} {e : Stop} {t : State} (here : s.th.vectorHere = true)
    (has : ∀ x ∈ feats, (x.1 && !featHas s x.2) = false) (refused : raiseFirst bad (vcOf s).vcfg s = .error e t)
    (groups : List (Nat × Nat)) : vIssue (vcOf s) f feats bad groups [] s = .error e t := by
  have feat : ∀ x ∈ feats.map (fun x => (x.1 && !featHas s x.2, 0x020 + x.2)), x.1 = false := by
    intro x hx
    obtain ⟨y, hy, rfl⟩ := List.mem_map.mp hx
    exact has y hy
  unfold vIssue
  rw [M.run_bind_ok (M.run_get s), M.run_bind_ok (M.run_raiseFirst feat 0 s), M.run_bind_ok (M.run_fabFirst (eas := []) (by simp) s),
    M.run_bind_ok (M.run_needVector here), M.run_bind_error refused]

theorem refuses_vElem2 (here : s.th.vectorHere = true) (f : Fields) (useA useB : Bool) (bad : List (Bool × Nat)) (src2 : VC → M Src2)
    (fn : VC → Nat → Nat → Nat × Bool) : Refuses (vElem2 f useA useB bad src2 fn)
      (bad ++ grpBad f.d (vcOf s).regs ++ (if useA then grpBad f.a (vcOf s).regs else []) ++
        (if useB then src2Bad f (vcOf s).regs else [])) s := fun e t refused => by
  unfold vElem2
  rw [M.run_bind_ok (M.run_get s)]
  exact M.run_bind_error (vIssue_refused here (List.forall_mem_nil _) refused _)

theorem refuses_vshiftM (here : s.th.vectorHere = true) (f : Fields) (fn : VC → Nat → Nat → Nat × Bool) : Refuses (vshiftM f fn)
    (shBad (vcOf s) f ++ grpBad f.d (vcOf s).regs ++ grpBad f.a (vcOf s).regs ++ src2Bad f (vcOf s).regs) s := fun e t refused => by
  unfold vshiftM
  rw [M.run_bind_ok (M.run_get s)]
  exact refuses_vElem2 here f true true _ _ fn e t refused

theorem refuses_vfElem (here : s.th.vectorHere = true) (f : Fields) (has : (vcOf s).sew = 64 → featHas s 0 = true)
    (fn : Fmt → RM → Nat → Nat → FRes) : Refuses (vfElem f true [] fn)
      (vfBad (vcOf s) (bfOf f) ++ grpBad f.d (vcOf s).regs ++ grpBad f.a (vcOf s).regs ++ src2Bad f (vcOf s).regs) s :=
    fun e t refused => by
  unfold vfElem
  rw [M.run_bind_ok (M.run_get s)]
  refine M.run_bind_error (vIssue_refused here (fun x hx => ?_) refused _)
  obtain rfl := List.mem_singleton.mp hx
  cases wide : (vcOf s).sew == 64
  · rfl
  · simp [has (beq_iff_eq.mp wide)]

theorem refuses_slideM (here : s.th.vectorHere = true) (f : Fields) (up : Bool) (imm : f.imm.isNone = false) : Refuses (slideM f up)
    (grpBad f.d (vcOf s).regs ++ grpBad f.a (vcOf s).regs ++ [(grpHit f.d.toNat (vcOf s).regs f.a.toNat (vcOf s).regs, 0x0E4)]) s :=
    fun e t refused => by
  unfold slideM
  rw [M.run_bind_ok (M.run_get s)]
  refine M.run_bind_error (vIssue_refused here (List.forall_mem_nil _) ?_ _)
  rw [imm]
  simpa using refused

end

end Sys2Proof.Machine
end

section
/-! SUPPORT. What a vector word that waits part way leaves on record of its slot (spec/19 R348, R351). -/

namespace Sys2Proof.Machine

/-! ### Outcomes that keep the slot on record -/

/-- A stop that is no end without a next word, and that leaves slot `b` on record where the word waits part way. -/
def Stop.HoldsSlot (b : Bool) (t : State) : Stop → Prop
  | .hold _ => t.th.resumeSlot1 = b
  | .gone => False
  | .cause _ | .wait _ => True

/-- A word that waits part way keeps the slot on record. -/
def EndsInSlot {α : Type} (m : M α) : Prop := ∀ s,
  match m s with
  | .ok _ _ => True
  | .error e t => e.HoldsSlot s.th.resumeSlot1 t

/-- So does a part of one, and what comes after it finds that slot on record too. -/
def StaysInSlot {α : Type} (m : M α) : Prop := ∀ s,
  match m s with
  | .ok _ t => t.th.resumeSlot1 = s.th.resumeSlot1
  | .error e t => e.HoldsSlot s.th.resumeSlot1 t

variable {α β : Type}

theorem StaysInSlot.ends {m : M α} (h : StaysInSlot m) : EndsInSlot m := fun s => by
  have kept := h s
  split
  next => trivial
  next hm => rwa [hm] at kept

theorem StaysInSlot.bind {x : M α} {f : α → M β} (hx : StaysInSlot x) (hf : ∀ a, StaysInSlot (f a)) : StaysInSlot (x >>= f) := fun s => by
  have first := hx s
  rw [M.run_bind]
  cases hm : x s with
  | ok a t =>
    rw [hm] at first
    exact first ▸ hf a t
  | error e t => rwa [hm] at first

theorem StaysInSlot.bind_ends {x : M α} {f : α → M β} (hx : StaysInSlot x) (hf : ∀ a, EndsInSlot (f a)) : EndsInSlot (x >>= f) := fun s => by
  have first := hx s
  rw [M.run_bind]
  cases hm : x s with
  | ok a t =>
    rw [hm] at first
    exact first ▸ hf a t
  | error e t => rwa [hm] at first

theorem StaysInSlot.ite {c : Prop} [Decidable c] {x y : M α} (hx : StaysInSlot x) (hy : StaysInSlot y) : StaysInSlot (if c then x else y) := by
  split
  · exact hx
  · exact hy

theorem staysInSlot_pure (a : α) : StaysInSlot (pure a : M α) := fun _ => rfl
theorem staysInSlot_get : StaysInSlot (get : M State) := fun _ => rfl
theorem staysInSlot_getTh : StaysInSlot getTh := fun _ => rfl
theorem staysInSlot_wait (r : WaitReason) : StaysInSlot (throw (.wait r) : M α) := fun _ => trivial
theorem staysInSlot_cause (c : Cause) : StaysInSlot (throw (.cause c) : M α) := fun _ => trivial
theorem staysInSlot_modTh {f : Thread → Thread} (h : ∀ t, (f t).resume = t.resume) : StaysInSlot (modTh f) := fun s =>
  show (f s.th).resumeSlot1 = s.th.resumeSlot1 by rw [Thread.resumeSlot1, h]; rfl

theorem staysInSlot_raiseIf (b : Bool) (c : Nat) (x : Word) : StaysInSlot (raiseIf b c x) :=
  .ite (staysInSlot_cause _) (staysInSlot_pure ())

theorem staysInSlot_raiseFirst (l : List (Bool × Nat)) (x : Word) : StaysInSlot (raiseFirst l x) := by
  unfold raiseFirst
  split
  · exact staysInSlot_cause _
  · exact staysInSlot_pure ()

/-! ### Checks at issue and operands -/

theorem staysInSlot_fabFirst_nil : StaysInSlot (fabFirst []) := fun s => by
  rw [M.run_fabFirst (List.forall_mem_nil _)]

theorem staysInSlot_needVector : StaysInSlot needVector := staysInSlot_getTh.bind fun _ => staysInSlot_raiseIf _ _ _

theorem staysInSlot_needGroups (l : List (Nat × Nat)) : StaysInSlot (needGroups l) := by
  unfold needGroups
  refine staysInSlot_getTh.bind fun t => ?_
  split
  · exact staysInSlot_pure ()
  · have waits (c : Prop) [Decidable c] (r : WaitReason) : StaysInSlot (if c then throw (.wait r) else pure () : M Unit) :=
      .ite (staysInSlot_wait r) (staysInSlot_pure ())
    exact .ite ((staysInSlot_wait _).bind fun _ => waits _ _) (waits _ _)

theorem staysInSlot_checkList {f : Fields} (plain : f.lm = false) : StaysInSlot (checkList f) := by
  unfold checkList
  rw [plain]
  exact staysInSlot_getTh.bind fun _ => staysInSlot_pure ()

theorem staysInSlot_vIssue (v : VC) {f : Fields} (plain : f.lm = false) (feats bad : List (Bool × Nat)) (groups : List (Nat × Nat)) :
    StaysInSlot (vIssue v f feats bad groups []) := by
  unfold vIssue
  exact staysInSlot_get.bind fun _ => (staysInSlot_raiseFirst _ _).bind fun _ => staysInSlot_fabFirst_nil.bind fun _ =>
    staysInSlot_needVector.bind fun _ => (staysInSlot_raiseFirst _ _).bind fun _ => (staysInSlot_checkList plain).bind fun _ =>
      staysInSlot_needGroups groups

theorem staysInSlot_activeList (v : VC) {f : Fields} (plain : f.lm = false) : StaysInSlot (activeList v f) := by
  unfold activeList
  rw [plain]
  exact staysInSlot_getTh.bind fun _ => staysInSlot_pure _

theorem staysInSlot_peekV (v : VC) (reg w i : Nat) : StaysInSlot (peekV v reg w i) := by
  unfold peekV
  refine staysInSlot_getTh.bind fun t => ?_
  split
  · exact staysInSlot_pure _
  · have value (u : PUnit) : StaysInSlot (pure (t.vget v.r reg w i) : M Nat) := staysInSlot_pure _
    have loaded : StaysInSlot (if t.unloaded v.r reg w i then throw (.wait .load) >>= fun u => pure (t.vget v.r reg w i)
        else pure (t.vget v.r reg w i) : M Nat) := .ite ((staysInSlot_wait _).bind value) (staysInSlot_pure _)
    exact .ite ((staysInSlot_wait _).bind fun _ => loaded) loaded

theorem staysInSlot_cleanV (v : VC) (reg w i : Nat) : StaysInSlot (cleanV v reg w i) := by
  unfold cleanV
  refine staysInSlot_getTh.bind fun t => ?_
  split
  · exact staysInSlot_pure ()
  · split
    · exact staysInSlot_cause _
    · exact staysInSlot_pure ()

theorem staysInSlot_rdV (v : VC) (reg w i : Nat) : StaysInSlot (rdV v reg w i) :=
  (staysInSlot_peekV v reg w i).bind fun _ => (staysInSlot_cleanV v reg w i).bind fun _ => staysInSlot_pure _

theorem staysInSlot_wrV (v : VC) (reg w i x : Nat) : StaysInSlot (wrV v reg w i x) := staysInSlot_modTh fun t => t.setVreg_resume _ _

theorem staysInSlot_setSat (b : Bool) : StaysInSlot (setSat b) := staysInSlot_modTh fun t => by cases b <;> rfl

theorem staysInSlot_vfFlags (i : Nat) (fl : Flags) : StaysInSlot (vfFlags i fl) := by
  unfold vfFlags addFlags
  refine .bind (staysInSlot_modTh (fun _ => by rfl)) fun _ => staysInSlot_getTh.bind fun t => ?_
  split
  · exact staysInSlot_cause _
  · exact staysInSlot_pure ()

theorem staysInSlot_src2At (v : VC) (w : Nat) (b : Src2) (i : Nat) : StaysInSlot (b.at_ v w i) := by
  cases b with
  | vec r => exact staysInSlot_rdV v r w i
  | all x => exact staysInSlot_pure x

theorem staysInSlot_clearSort (reg n : Nat) : StaysInSlot (modTh fun t => t.clearSort reg n) :=
  staysInSlot_modTh fun t => by rw [Thread.clearSort_eq]

/-! ### The element loop -/

theorem Thread.clearMarks_resume (t : Thread) (r reg w : Nat) (l : List Nat) : (t.clearMarks r reg w l).resume = t.resume := by
  rw [Thread.clearMarks_eq]

theorem VC.mark_resume (v : VC) (dst : List (Nat × Nat)) (done : List Nat) (e : Nat) (t : Thread) : (v.mark dst done e t).resume = t.resume := by
  have cleared (l : List (Nat × Nat)) : ∀ t : Thread, (l.foldl (fun t d => t.clearMarks v.r d.1 d.2 done) t).resume = t.resume := by
    induction l with
    | nil => exact fun t => rfl
    | cons d l ih => exact fun t => (ih _).trans (t.clearMarks_resume v.r d.1 d.2 done)
  exact cleared dst _

theorem staysInSlot_runElems {mark : Nat → Thread → Thread} {body : Nat → M Unit} (marks : ∀ i t, (mark i t).resume = t.resume)
    (works : ∀ i, StaysInSlot (body i)) (vp tp : Bool) (l : List Nat) (first : Bool) : StaysInSlot (runElems mark vp tp body first l) := by
  induction l generalizing first with
  | nil => exact staysInSlot_pure ()
  | cons i l ih =>
    intro s
    have done := works i s
    unfold runElems
    rw [M.run_bind_ok (M.run_get s)]
    rw [show (body i).run s = body i s from rfl]
    cases hb : body i s with
    | ok a t =>
      rw [hb] at done
      exact done ▸ ih false t
    | error e t =>
      rw [hb] at done
      cases e with
      | cause c => trivial
      | wait r =>
        dsimp only
        cases !first && (r == .vlda || r == .load)
        · trivial
        · show Thread.resumeSlot1 (mark i s.th) = _
          rw [Thread.resumeSlot1, marks]
          rfl
      | hold r => exact done
      | gone => exact done

theorem endsInSlot_loopEnd (v : VC) (dst : List (Nat × Nat)) (todo : List Nat) (bound : Option Nat) : EndsInSlot (v.loopEnd dst todo bound) := by
  cases bound with
  | some b => exact fun s => trivial
  | none => exact fun s => trivial

theorem endsInSlot_vloop {body : Nat → M Unit} (works : ∀ i, StaysInSlot (body i)) (v : VC) (w vl : Nat) (dst : List (Nat × Nat))
    (act : List Nat) : EndsInSlot (vloop v w vl dst act body (pure ())) := by
  unfold vloop
  refine staysInSlot_getTh.bind_ends fun t => ?_
  have clean (first : Option (M Unit)) : StaysInSlot (cleanFirst (pure ()) first) := fun s => rfl
  exact (clean _).bind_ends fun _ => (staysInSlot_runElems (fun _ _ => VC.mark_resume ..) works true false _ true).bind_ends fun _ =>
    endsInSlot_loopEnd _ _ _ _

theorem endsInSlot_vElem2 {f : Fields} (plain : f.lm = false) (unread : src2Clean f = pure ()) {src2 : VC → M Src2}
    (second : ∀ v, StaysInSlot (src2 v)) (useA useB : Bool) (bad : List (Bool × Nat)) (fn : VC → Nat → Nat → Nat × Bool) :
    EndsInSlot (vElem2 f useA useB bad src2 fn) := by
  unfold vElem2
  rw [unread]
  refine staysInSlot_get.bind_ends fun s => (staysInSlot_vIssue _ plain _ _ _).bind_ends fun _ => (second _).bind_ends fun b2 =>
    (staysInSlot_activeList _ plain).bind_ends fun act => (staysInSlot_clearSort _ _).bind_ends fun _ => endsInSlot_vloop (fun i => ?_) _ _ _ _ _
  have element (a : Nat) := (staysInSlot_src2At (vcOf s) (vcOf s).sew b2 i).bind fun b =>
    (staysInSlot_setSat (fn (vcOf s) a b).2).bind fun _ => staysInSlot_wrV (vcOf s) f.d.toNat (vcOf s).sew i (fn (vcOf s) a b).1
  exact .ite ((staysInSlot_rdV _ _ _ _).bind element) ((staysInSlot_pure 0).bind element)

theorem endsInSlot_vfElem {f : Fields} (plain : f.lm = false) (unread : src2Clean f = pure ()) (second : ∀ v, StaysInSlot (src2Of v f))
    (feats : List (Bool × Nat)) (fn : Fmt → RM → Nat → Nat → FRes) : EndsInSlot (vfElem f true feats fn) := by
  unfold vfElem
  rw [unread, ite_self]
  refine staysInSlot_get.bind_ends fun s => (staysInSlot_vIssue _ plain _ _ _).bind_ends fun _ => (second _).bind_ends fun b2 =>
    (staysInSlot_activeList _ plain).bind_ends fun act => staysInSlot_getTh.bind_ends fun t =>
      (staysInSlot_clearSort _ _).bind_ends fun _ => endsInSlot_vloop (fun i => ?_) _ _ _ _ _
  exact (staysInSlot_rdV _ _ _ _).bind fun a => (staysInSlot_src2At _ _ _ _).bind fun b => (staysInSlot_vfFlags _ _).bind fun _ => staysInSlot_wrV _ _ _ _ _

end Sys2Proof.Machine
end

section
/-! SUPPORT. The vector halves run as their full instructions (spec/06 R130 Table 7). -/

namespace Sys2Proof.Machine

section
variable {s : State} {slot1 : Bool} {h : Half}

/-! ### The fields of the full instruction of a vector half -/

def fullFields (slot1 : Bool) (h : Half) (a b : BitVec 6) (imm : Option (BitVec 32)) : Fields :=
  { Fields.zero with ca := h.ca, cb := h.ca, d := slotReg slot1 h.d, a := a, b := b, imm := imm }

variable {a b : BitVec 6} {i : Instr} {imm : Option (BitVec 32)}

theorem fullFields_lm : (fullFields slot1 h a b imm).lm = false := rfl

/-- Its variant bits are 0: Src2 is a vector, BF = 0. -/
theorem fullFields_var (k : Nat) : (fullFields slot1 h a b imm).var.getLsbD k = false := BitVec.getLsbD_zero

theorem src2Clean_fullFields : src2Clean (fullFields slot1 h a b imm) = pure () := by
  unfold src2Clean
  rw [fullFields_var, Bool.and_false]
  rfl

theorem src2Bad_fullFields_none (n : Nat) : src2Bad (fullFields slot1 h a b none) n = grpBad b n := by
  unfold src2Bad
  rw [fullFields_var]
  rfl

theorem src2Bad_fullFields_some (x : BitVec 32) (n : Nat) : src2Bad (fullFields slot1 h a b (some x)) n = [] := rfl

theorem staysInSlot_src2Of_full (v : VC) : StaysInSlot (src2Of v (fullFields slot1 h a b imm)) := by
  cases imm with
  | none =>
    have vector : src2Of v (fullFields slot1 h a b none) = pure (.vec b.toNat) := by
      unfold src2Of
      rw [fullFields_var]
      rfl
    exact vector ▸ staysInSlot_pure _
  | some x => exact staysInSlot_pure (Src2.all ((immS x).toNat % 2 ^ v.sew))

theorem staysInSlot_src2Z_full (x : BitVec 32) (v : VC) : StaysInSlot (src2Z (fullFields slot1 h a b (some x)) v) :=
  staysInSlot_pure (Src2.all (x.toNat % 2 ^ v.sew))

theorem halfFields_two : halfFields slot1 h false none = fullFields slot1 h (slotReg slot1 h.d) (slotReg slot1 h.a) none := by
  unfold fullFields
  rw [slotReg_eq_bankReg]
  rfl

theorem halfFields_immediate (x : BitVec 32) : halfFields slot1 h false (some x) = fullFields slot1 h (slotReg slot1 h.d) 0 (some x) := by
  unfold fullFields
  rw [slotReg_eq_bankReg]
  rfl

theorem halfFields_one : halfFields slot1 h true none = fullFields slot1 h (slotReg slot1 h.a) 0 none := by
  unfold fullFields
  rw [slotReg_eq_bankReg]
  rfl

/-! ### Conditions that a half and its full instruction share -/

theorem firstCause_two (a d : BitVec 6) : firstCause (grpBad d 1 ++ grpBad a 1 ++ [(false, 0x0E4)]) =
    firstCause (grpBad d 1 ++ grpBad d 1 ++ grpBad a 1) := by
  simp only [grpBad_one]
  generalize decide (32 ≤ d.toNat) = x, decide (32 ≤ a.toNat) = y
  revert x y
  decide

theorem firstCause_one (a d : BitVec 6) : firstCause (grpBad d 1 ++ grpBad a 1 ++ [(false, 0x0E4)]) =
    firstCause (grpBad d 1 ++ grpBad a 1 ++ []) := by
  simp only [grpBad_one]
  generalize decide (32 ≤ d.toNat) = x, decide (32 ≤ a.toNat) = y
  revert x y
  decide

theorem firstCause_none (d : BitVec 6) (slide : Bool) :
    firstCause (grpBad d 1 ++ [] ++ [(slide, 0x0E4)]) = firstCause (grpBad d 1 ++ grpBad d 1 ++ [(slide, 0x0E4)]) := by
  simp only [grpBad_one]
  generalize decide (32 ≤ d.toNat) = x
  revert x slide
  decide

/-- A half runs in state `s` as the word `m` runs, which keeps the slot on record where it waits part way. -/
structure RunsAs (s : State) (slot1 : Bool) (h : Half) (m : M Unit) : Prop where
  same : halfM slot1 h s = m s
  stops : ∀ {e t}, m s = .error e t → e.HoldsSlot s.th.resumeSlot1 t

theorem EndsInSlot.stops {α : Type} {m : M α} (ends : EndsInSlot m) {e : Stop} {t : State} (hm : m s = .error e t) :
    e.HoldsSlot s.th.resumeSlot1 t := by
  have held := ends s
  rwa [hm] at held

/-- The half's check comes before the word's own, whose first condition is the same. -/
theorem RunsAs.of_check {m : M Unit} {bad : List (Bool × Nat)} {k : Nat} {readsA slides : Bool} (ok : HalfVecOk s h)
    (hop : h.hop.toNat = k) (kind : (hopReadsA k, hopSlides k) = (readsA, slides))
    (body : halfM slot1 h = do halfVecCheck slot1 h; m) (refuses : Refuses m bad s)
    (first : firstCause (halfBad slot1 h readsA slides) = firstCause bad) (stops : ∀ {e t}, m s = .error e t → e.HoldsSlot s.th.resumeSlot1 t) :
    RunsAs s slot1 h m where
  same := by
    subst hop
    obtain ⟨rfl, rfl⟩ := Prod.mk.inj kind
    rw [body]
    exact refuses.absorbs (ok.run_halfVecCheck.trans (congrFun (raiseFirst_congr first _) s))
  stops := stops

/-! ### Element-wise words, shifts, floating point and slides -/

theorem RunsAs.elements {k : Nat} {readsA useB : Bool} {src2 : VC → M Src2} {fn : VC → Nat → Nat → Nat × Bool} (ok : HalfVecOk s h)
    (hop : h.hop.toNat = k) (kind : (hopReadsA k, hopSlides k) = (readsA, false))
    (body : halfM slot1 h = do halfVecCheck slot1 h; vElem2 (fullFields slot1 h a b imm) true useB [] src2 fn)
    (second : ∀ v, StaysInSlot (src2 v))
    (first : firstCause (halfBad slot1 h readsA false) = firstCause (grpBad (slotReg slot1 h.d) 1 ++ grpBad a 1 ++
      if useB then src2Bad (fullFields slot1 h a b imm) 1 else [])) :
    RunsAs s slot1 h (vElem2 (fullFields slot1 h a b imm) true useB [] src2 fn) := by
  have refuses := refuses_vElem2 ok.here (fullFields slot1 h a b imm) true useB [] src2 fn
  rw [ok.regs] at refuses
  exact .of_check ok hop kind body refuses first (endsInSlot_vElem2 fullFields_lm src2Clean_fullFields second _ _ _ _).stops

/-- A shift of D by an immediate below SEW. -/
theorem RunsAs.shift {k : Nat} {m : Fields → M Unit} (shape : ∃ fn : Fields → VC → Nat → Nat → Nat × Bool, ∀ f, m f = vshiftM f (fn f))
    (ok : HalfVecOk s h) (hop : h.hop.toNat = k) (kind : (hopReadsA k, hopSlides k) = (false, false))
    (shifts : k = 41 ∨ k = 42)
    (body : halfM slot1 h = do halfVecCheck slot1 h; m (halfFields slot1 h false (some (h.imm.setWidth 32)))) :
    RunsAs s slot1 h (m (fullFields slot1 h (slotReg slot1 h.d) 0 (some (h.imm.setWidth 32)))) := by
  obtain ⟨fn, shape⟩ := shape
  rw [halfFields_immediate, shape] at body
  rw [shape]
  generalize fn (fullFields slot1 h (slotReg slot1 h.d) 0 (some (h.imm.setWidth 32))) = fn at body ⊢
  have amount : shBad (vcOf s) (fullFields slot1 h (slotReg slot1 h.d) 0 (some (h.imm.setWidth 32))) = [(false, 0x0EE)] := by
    have short : (h.imm.setWidth 32).toNat = h.imm.toNat := by
      rw [BitVec.toNat_setWidth]
      exact Nat.mod_eq_of_lt (h.imm.isLt.trans (by decide))
    show [(decide ((vcOf s).sew ≤ (h.imm.setWidth 32).toNat), 0x0EE)] = _
    rw [short, decide_eq_false (Nat.not_le.mpr (ok.below (hop ▸ shifts)))]
  have refuses := refuses_vshiftM ok.here (fullFields slot1 h (slotReg slot1 h.d) 0 (some (h.imm.setWidth 32))) fn
  rw [ok.regs, amount, src2Bad_fullFields_some] at refuses
  have ends : EndsInSlot (vshiftM (fullFields slot1 h (slotReg slot1 h.d) 0 (some (h.imm.setWidth 32))) fn) :=
    staysInSlot_get.bind_ends fun s => endsInSlot_vElem2 fullFields_lm src2Clean_fullFields (staysInSlot_src2Z_full _) _ _ _ _
  refine .of_check ok hop kind body refuses ?_ ends.stops
  rw [List.append_nil]
  exact (firstCause_none _ false).trans (firstCause_append_false _ _)

/-- Floating point on D and A, at a SEW the core has. -/
theorem RunsAs.float {k : Nat} {m : Fields → M Unit} (shape : ∃ fn : Fmt → RM → Nat → Nat → FRes, ∀ f, m f = vfElem f true [] fn)
    (ok : HalfVecOk s h) (hop : h.hop.toNat = k) (kind : (hopReadsA k, hopSlides k) = (true, false))
    (fp : hopIsFp k = true)
    (body : halfM slot1 h = do halfVecCheck slot1 h; m (halfFields slot1 h false none)) :
    RunsAs s slot1 h (m (fullFields slot1 h (slotReg slot1 h.d) (slotReg slot1 h.a) none)) := by
  obtain ⟨fn, shape⟩ := shape
  rw [halfFields_two, shape] at body
  rw [shape]
  obtain ⟨narrow, wide⟩ := ok.width (hop ▸ fp)
  have format : vfBad (vcOf s) false = [(false, 0x0E0), (false, 0x0ED)] := by simp [vfBad, narrow]
  have refuses := refuses_vfElem ok.here (fullFields slot1 h (slotReg slot1 h.d) (slotReg slot1 h.a) none) wide fn
  rw [ok.regs, bfOf, fullFields_var, format, src2Bad_fullFields_none] at refuses
  exact .of_check ok hop kind body refuses (firstCause_two _ _)
    (endsInSlot_vfElem fullFields_lm src2Clean_fullFields staysInSlot_src2Of_full _ _).stops

/-- A slide of D over itself is refused. -/
theorem RunsAs.slide {k : Nat} {up : Bool} (ok : HalfVecOk s h)
    (hop : h.hop.toNat = k) (kind : (hopReadsA k, hopSlides k) = (false, true))
    (body : halfM slot1 h = do halfVecCheck slot1 h; slideM (halfFields slot1 h false (some (h.imm.setWidth 32))) up) :
    RunsAs s slot1 h (slideM (fullFields slot1 h (slotReg slot1 h.d) 0 (some (h.imm.setWidth 32))) up) := by
  rw [halfFields_immediate] at body
  have itself : grpHit (slotReg slot1 h.d).toNat 1 (slotReg slot1 h.d).toNat 1 = true := by simp [grpHit]
  have refuses := refuses_slideM ok.here (fullFields slot1 h (slotReg slot1 h.d) 0 (some (h.imm.setWidth 32))) up rfl
  rw [ok.regs] at refuses
  have refuses : Refuses _ (grpBad (slotReg slot1 h.d) 1 ++ grpBad (slotReg slot1 h.d) 1 ++ [(true, 0x0E4)]) s := itself ▸ refuses
  refine .of_check ok hop kind body refuses (firstCause_none _ true) fun {e t} hm => ?_
  have raised : ∃ c, raiseFirst (grpBad (slotReg slot1 h.d) 1 ++ grpBad (slotReg slot1 h.d) 1 ++ [(true, 0x0E4)]) (vcOf s).vcfg s =
      .error (.cause c) s := by
    rw [grpBad_one]
    cases decide (32 ≤ (slotReg slot1 h.d).toNat) with
    | false => exact ⟨_, rfl⟩
    | true => exact ⟨_, rfl⟩
  obtain ⟨c, hc⟩ := raised
  obtain ⟨rfl, rfl⟩ : .cause c = e ∧ s = t := by simpa using (refuses _ _ hc).symm.trans hm
  trivial

/-! ### Table 7 -/

/-- A word of two sources that is element-wise on integers. -/
def ElementWise (m : Fields → M Unit) : Prop :=
  ∃ fn : Fields → VC → Nat → Nat → Nat × Bool, ∀ f, m f = vElem2 f true true [] (src2Of · f) (fn f)

theorem elementWise_vArith (g : Int → Int → Int) : ElementWise (vArith · g) := ⟨_, fun _ => rfl⟩
theorem elementWise_vBits (g : Nat → Nat → Nat) : ElementWise (vBits · g) := ⟨_, fun _ => rfl⟩

/-- A half of two sources, D and A, runs as the element-wise word `m`. -/
theorem RunsAs.two {k : Nat} {m : Fields → M Unit} (shape : ElementWise m) (ok : HalfVecOk s h) (hop : h.hop.toNat = k)
    (kind : (hopReadsA k, hopSlides k) = (true, false))
    (body : halfM slot1 h = do halfVecCheck slot1 h; m (halfFields slot1 h false none)) :
    RunsAs s slot1 h (m (fullFields slot1 h (slotReg slot1 h.d) (slotReg slot1 h.a) none)) := by
  obtain ⟨fn, shape⟩ := shape
  rw [halfFields_two, shape] at body
  rw [shape]
  refine .elements ok hop kind body staysInSlot_src2Of_full ?_
  rw [if_pos rfl, src2Bad_fullFields_none]
  exact firstCause_two _ _

/-- A half of D and an immediate runs so too. -/
theorem RunsAs.immediate {k : Nat} {m : Fields → M Unit} (shape : ElementWise m) (ok : HalfVecOk s h) (hop : h.hop.toNat = k)
    (kind : (hopReadsA k, hopSlides k) = (false, false)) {x : BitVec 32}
    (body : halfM slot1 h = do halfVecCheck slot1 h; m (halfFields slot1 h false (some x))) :
    RunsAs s slot1 h (m (fullFields slot1 h (slotReg slot1 h.d) 0 (some x))) := by
  obtain ⟨fn, shape⟩ := shape
  rw [halfFields_immediate, shape] at body
  rw [shape]
  refine .elements ok hop kind body staysInSlot_src2Of_full ?_
  rw [if_pos rfl, src2Bad_fullFields_some, List.append_nil]
  exact (firstCause_none _ false).trans (firstCause_append_false _ _)

/-- A word of one source does not look at b. -/
theorem vElem2_one (b' : BitVec 6) (fn : VC → Nat → Nat → Nat × Bool) :
    vElem2 (fullFields slot1 h a b none) true false [] (fun _ => pure (.all 0)) fn =
    vElem2 (fullFields slot1 h a b' none) true false [] (fun _ => pure (.all 0)) fn := by
  unfold vElem2
  rw [src2Clean_fullFields, src2Clean_fullFields]
  rfl

theorem vmvM_vector : vmvM (fullFields slot1 h a b none) =
    vElem2 (fullFields slot1 h a b none) true false [] (fun _ => pure (.all 0)) fun _ x _ => (x, false) := by
  unfold vmvM
  rw [fullFields_var]
  rfl

theorem vabsM_vector : vabsM (fullFields slot1 h a b none) =
    vElem2 (fullFields slot1 h a b none) true false [] (fun _ => pure (.all 0)) fun v x _ =>
      narrow v.sew false false ((sInt v.sew x).natAbs : Int) :=
  rfl

/-- A half of one source, A. -/
theorem RunsAs.one {k : Nat} {m : Fields → M Unit} {fn : VC → Nat → Nat → Nat × Bool}
    (shape : ∀ b, m (fullFields slot1 h (slotReg slot1 h.a) b none) =
      vElem2 (fullFields slot1 h (slotReg slot1 h.a) b none) true false [] (fun _ => pure (.all 0)) fn)
    (ok : HalfVecOk s h) (hop : h.hop.toNat = k)
    (kind : (hopReadsA k, hopSlides k) = (true, false))
    (body : halfM slot1 h = do halfVecCheck slot1 h; m (halfFields slot1 h true none)) :
    RunsAs s slot1 h (m (fullFields slot1 h (slotReg slot1 h.a) (slotReg slot1 h.a) none)) := by
  rw [halfFields_one, shape, vElem2_one (slotReg slot1 h.a)] at body
  rw [shape]
  exact .elements ok hop kind body (fun _ => staysInSlot_pure _) (firstCause_one _ _)

/-- A vector half runs as the full instruction it stands for. -/
theorem RunsAs.full (ok : HalfVecOk s h) (found : fullOf slot1 h = some i) :
    ∃ m, exec i s = runWord m s ∧ RunsAs s slot1 h m := by
  have mem := mem_of_lookup found
  simp only [List.mem_cons, List.not_mem_nil, or_false, Prod.mk.injEq] at mem
  rcases mem with ⟨hop, rfl⟩ | ⟨hop, rfl⟩ | ⟨hop, rfl⟩ | ⟨hop, rfl⟩ | ⟨hop, rfl⟩ | ⟨hop, rfl⟩ | ⟨hop, rfl⟩ | ⟨hop, rfl⟩ | ⟨hop, rfl⟩ |
    ⟨hop, rfl⟩ | ⟨hop, rfl⟩ | ⟨hop, rfl⟩ | ⟨hop, rfl⟩ | ⟨hop, rfl⟩ | ⟨hop, rfl⟩ | ⟨hop, rfl⟩ | ⟨hop, rfl⟩ | ⟨hop, rfl⟩ | ⟨hop, rfl⟩
  · exact ⟨_, by rfl, .two (m := vaddM) (elementWise_vArith _) ok hop rfl (by unfold halfM; rw [hop]; rfl)⟩
  · exact ⟨_, by rfl, .two (m := vsubM) (elementWise_vArith _) ok hop rfl (by unfold halfM; rw [hop]; rfl)⟩
  · exact ⟨_, by rfl, .two (m := vmulM) (elementWise_vArith _) ok hop rfl (by unfold halfM; rw [hop]; rfl)⟩
  · exact ⟨_, by rfl, .two (m := vminM) (elementWise_vArith _) ok hop rfl (by unfold halfM; rw [hop]; rfl)⟩
  · exact ⟨_, by rfl, .two (m := vmaxM) (elementWise_vArith _) ok hop rfl (by unfold halfM; rw [hop]; rfl)⟩
  · exact ⟨_, by rfl, .two (m := vandM) (elementWise_vBits _) ok hop rfl (by unfold halfM; rw [hop]; rfl)⟩
  · exact ⟨_, by rfl, .two (m := vorM) (elementWise_vBits _) ok hop rfl (by unfold halfM; rw [hop]; rfl)⟩
  · exact ⟨_, by rfl, .two (m := vxorM) (elementWise_vBits _) ok hop rfl (by unfold halfM; rw [hop]; rfl)⟩
  · exact ⟨_, by rfl, .one (m := vmvM) (fun _ => vmvM_vector) ok hop rfl (by unfold halfM; rw [hop]; rfl)⟩
  · exact ⟨_, by rfl, .shift (m := vshlM) ⟨_, fun _ => rfl⟩ ok hop rfl (.inl rfl) (by unfold halfM; rw [hop]; rfl)⟩
  · exact ⟨_, by rfl, .shift (m := vshrM) ⟨_, fun _ => rfl⟩ ok hop rfl (.inr rfl) (by unfold halfM; rw [hop]; rfl)⟩
  · exact ⟨_, by rfl, .float (m := vfaddM) ⟨_, fun _ => rfl⟩ ok hop rfl rfl (by unfold halfM; rw [hop]; rfl)⟩
  · exact ⟨_, by rfl, .float (m := vfmulM) ⟨_, fun _ => rfl⟩ ok hop rfl rfl (by unfold halfM; rw [hop]; rfl)⟩
  · exact ⟨_, by rfl, .slide (up := true) ok hop rfl (by unfold halfM; rw [hop]; rfl)⟩
  · exact ⟨_, by rfl, .slide (up := false) ok hop rfl (by unfold halfM; rw [hop]; rfl)⟩
  · exact ⟨_, by rfl, .immediate (m := vaddM) (elementWise_vArith _) ok hop rfl (by unfold halfM; rw [hop]; rfl)⟩
  · exact ⟨_, by rfl, .float (m := vfminM) ⟨_, fun _ => rfl⟩ ok hop rfl rfl (by unfold halfM; rw [hop]; rfl)⟩
  · exact ⟨_, by rfl, .float (m := vfmaxM) ⟨_, fun _ => rfl⟩ ok hop rfl rfl (by unfold halfM; rw [hop]; rfl)⟩
  · exact ⟨_, by rfl, .one (m := vabsM) (fun _ => vabsM_vector) ok hop rfl (by unfold halfM; rw [hop]; rfl)⟩

end

end Sys2Proof.Machine
end

section
/-! SUPPORT. Paired words (spec/06 R127 to R130, spec/20 R348). -/

namespace Sys2Proof.Machine

section
variable {s : State} {i : Instr} {h0 h1 : Half}

/-- What a slot that waits part way leaves on record is what the pair puts there. -/
theorem Thread.resume_of_slot {t : Thread} {b : Bool} (h : t.resumeSlot1 = b) : (t.resume.map fun x => { x with slot1 := b }) = t.resume := by
  subst h
  unfold Thread.resumeSlot1
  cases t.resume with
  | none => rfl
  | some x => rfl

/-- How a word stops that keeps its slot on record: as a slot of a pair does. -/
theorem runWord_error {m : M Unit} {e : Stop} {t : State} {b : Bool} (live : s.th.live = true) (hm : m s = .error e t)
    (held : e.HoldsSlot s.th.resumeSlot1 t) (slot : s.th.resumeSlot1 = b) : runWord m s =
      match e with
      | .cause c => .next (endWord c b s (if c.keep then t else keepTlb s t))
      | .wait r => .next (waitFor r s)
      | .hold r => .next { t with
          th := { t.th with wait := some r, resume := t.th.resume.map fun x => { x with slot1 := b } }
          chosen := .none }
      | .gone => .next t := by
  subst slot
  cases e with
  | cause c => simp [runWord, runTo, live, M.run_bind, hm]
  | wait r => exact runWord_wait live hm
  | hold r =>
    dsimp only
    rw [Thread.resume_of_slot held]
    exact runWord_hold live hm
  | gone => exact held.elim

/-! ### A half alone, and a half resumed -/

theorem runPaired_first {m : M Unit} (runs : RunsAs s false h0 m) (live : s.th.live = true) (range0 : halfRange s h0 = false)
    (resumed : s.th.resumeSlot1 = false) (uncut : s.chosen ≠ .cut) : runPaired i h0 ⟨0, 0, 0, false, 0⟩ s = runWord m s := by
  have range1 : halfRange s ⟨0, 0, 0, false, 0⟩ = false := halfRange_scalar s (by decide)
  have uncut : (s.chosen == .cut) = false := beq_eq_false_iff_ne.mpr uncut
  unfold runPaired
  rw [if_pos live]
  dsimp only
  rw [range0, range1, resumed, if_neg (by decide), if_neg (by decide), show (halfM false h0).run s = m s from runs.same, uncut]
  cases hm : m s with
  | ok a t => exact (runWord_ok live hm).symm
  | error e t =>
    refine Eq.trans ?_ (runWord_error live hm (runs.stops hm) resumed).symm
    cases e with
    | cause c => rfl
    | wait r => rfl
    | hold r => rfl
    | gone => rfl

theorem runPaired_second {m : M Unit} (runs : RunsAs s true h1 m) (live : s.th.live = true) (range0 : halfRange s h0 = false)
    (range1 : halfRange s h1 = false) (resumed : s.th.resumeSlot1 = true) : runPaired i h0 h1 s = runWord m s := by
  unfold runPaired
  rw [if_pos live]
  dsimp only
  rw [range0, range1, resumed, if_neg (by decide), if_pos rfl, show (halfM true h1).run s = m s from runs.same]
  cases hm : m s with
  | ok a t => exact (runWord_ok live hm).symm
  | error e t =>
    refine Eq.trans ?_ (runWord_error live hm (runs.stops hm) resumed).symm
    cases e with
    | cause c => rfl
    | wait r => rfl
    | hold r => rfl
    | gone => rfl

theorem HalfVecOk.inRange {h : Half} (ok : HalfVecOk s h) : halfRange s h = false := by
  unfold halfRange
  cases shifts : h.hop == 41 || h.hop == 42 with
  | false => rfl
  | true =>
    have named : h.hop = 41 ∨ h.hop = 42 := by simpa using shifts
    exact decide_eq_false (Nat.not_le.mpr (ok.below (named.imp (congrArg BitVec.toNat) (congrArg BitVec.toNat))))

/-! ### Scalar halves -/

theorem runPaired_resumed {u : State} (live : s.th.live = true) (range0 : halfRange s h0 = false) (range1 : halfRange s h1 = false)
    (resumed : s.th.resumeSlot1 = true) (second : halfM true h1 s = .ok () u) : runPaired i h0 h1 s = doneWith s u :=
  (runPaired_second ⟨rfl, fun stopped => nomatch second.symm.trans stopped⟩ live range0 range1 resumed).trans (runWord_ok live second)

/-- After slot 0 the pair goes on with slot 1, or stops between the two. -/
theorem runPaired_of_first {t : State} (live : s.th.live = true) (range0 : halfRange s h0 = false) (range1 : halfRange s h1 = false)
    (resumed : s.th.resumeSlot1 = false) (first : halfM false h0 s = .ok () t) : runPaired i h0 h1 s =
      if s.chosen == .cut && Config.freeBool s.free then .next { t with th := t.th.noteStop true false false, chosen := .none }
      else match halfM true h1 t.unresumed with
        | .ok _ u => doneWith s u
        | .error (.cause c) u => .next (endWord c true s (if c.keep then u else keepTlb t.unresumed u))
        | .error (.wait r) _ => .next (waitFor r s)
        | .error (.hold r) u => .next { u with
            th := { u.th with wait := some r, resume := u.th.resume.map fun x => { x with slot1 := true } }, chosen := .none }
        | .error .gone u => .next u := by
  unfold runPaired
  rw [if_pos live]
  dsimp only
  rw [range0, range1, resumed, if_neg (by decide), if_neg (by decide), show (halfM false h0).run s = .ok () t from first]
  rfl

/-- Slot 0 and then slot 1. -/
theorem runPaired_of_both {t u : State} (live : s.th.live = true) (range0 : halfRange s h0 = false) (range1 : halfRange s h1 = false)
    (resumed : s.th.resumeSlot1 = false) (first : halfM false h0 s = .ok () t) (second : halfM true h1 t.unresumed = .ok () u.unresumed) :
    runPaired i h0 h1 s =
      if s.chosen == .cut && Config.freeBool s.free then .next { t with th := t.th.noteStop true false false, chosen := .none }
      else doneWith s u := by
  rw [runPaired_of_first live range0 range1 resumed first, second]
  rfl

/-- A cause of slot 1 that cuts nothing short leaves what slot 0 did. -/
theorem runPaired_of_trap {t : State} {c : Cause} (live : s.th.live = true) (range0 : halfRange s h0 = false)
    (range1 : halfRange s h1 = false) (resumed : s.th.resumeSlot1 = false) (uncut : s.chosen ≠ .cut) (first : halfM false h0 s = .ok () t)
    (second : halfM true h1 t.unresumed = .error (.cause c) t.unresumed) (trap : c.code ≠ 0x1C3) (hv : c.vpart = false)
    (ht : c.tpart = false) : runPaired i h0 h1 s = .next { deliver c true t.unresumed with chosen := .none } := by
  have uncut : (s.chosen == .cut) = false := beq_eq_false_iff_ne.mpr uncut
  rw [runPaired_of_first live range0 range1 resumed first, uncut, second, Bool.false_and, if_neg Bool.false_ne_true]
  dsimp only
  rw [keepTlb_self, ite_self, endWord_trap trap hv ht]

end

/-- Settles O29: a scalar half runs as Table 7 says in what slot 0 left; a vector half raises first what its full instruction raises, and
else is that instruction, which keeps its slot on record where it waits part way. -/
theorem pairedWords : Obligations.PairedWords := by
  unfold Obligations.PairedWords
  intro h0 h1 s nop
  refine ⟨?_, ?_, ?_, ?_, ?_⟩
  · intro t u quiet resumed first second whole
    have view := first.ownView quiet
    have both := runPaired_of_both (i := .pairedWord h0 h1) first.live (first.inRange s) (second.inRange s) resumed (first.run quiet.ownView)
      ((second.unresumed view).run view.unresumed)
    split
    next cut =>
      cases stops : Config.freeBool s.free with
      | true => exact .inr (both.trans (if_pos (by rw [cut, stops]; rfl)))
      | false => exact .inl (both.trans (if_neg (by rw [stops, Bool.and_false]; exact Bool.false_ne_true)))
    next uncut => exact both.trans (if_neg (by rw [beq_eq_false_iff_ne.mpr uncut]; exact Bool.false_ne_true))
  · intro u quiet resumed second range0
    exact runPaired_resumed second.live range0 (second.inRange s) resumed (second.run quiet.ownView)
  · intro t quiet resumed uncut first hop reads ea off low t'
    have view := first.ownView quiet
    have scalar : h1.hop.toNat < 32 := by rcases hop with hop | hop <;> rw [hop] <;> decide
    have code : (if h1.hop = 14 then 0x080 else 0x081) ≠ 0x1C3 := by split <;> decide
    exact runPaired_of_trap first.live (first.inRange s) (halfRange_scalar s scalar) resumed uncut (first.run quiet.ownView)
      (halfM_misaligned view.unresumed hop reads.unresumed off low) code rfl rfl
  · intro i found ok resumed uncut
    obtain ⟨m, full, runs⟩ := RunsAs.full ok found
    exact (runPaired_first runs ok.live ok.inRange resumed uncut).trans full.symm
  · intro i found ok resumed range0
    obtain ⟨m, full, runs⟩ := RunsAs.full ok found
    exact (runPaired_second runs ok.live range0 ok.inRange resumed).trans full.symm

end Sys2Proof.Machine
end

section
/-! SUPPORT. Values of the scalar integer words at their width, and how a scalar word ends in a trap (spec/07 R148 to R152, spec/19 R350): what
settles O4. -/

namespace Sys2Proof.Machine

/-! ### Words that raise a cause -/

section
variable {s : State} {code : Nat} {xval : Word}

theorem runTo_traps {m : M Word} (live : s.th.live = true) (other : code ≠ 0x1C3)
    (h : m s = .error (.cause { code := code, xval := xval }) s) : runTo m s = trapsWith s code xval := by
  rw [runTo_cause live other rfl rfl h, if_neg Bool.false_ne_true, keepTlb_self]
  rfl

theorem runWord_traps {m : M Unit} (live : s.th.live = true) (other : code ≠ 0x1C3)
    (h : m s = .error (.cause { code := code, xval := xval }) s) : runWord m s = trapsWith s code xval :=
  runTo_traps live other (M.run_bind_error h)

end

/-! ### Widths and values (R95, R148, R149) -/

theorem width_cases (f : Fields) : f.w = 32 ∨ f.w = 64 := by
  unfold Fields.w
  split
  · exact .inl rfl
  · exact .inr rfl

theorem width_le (f : Fields) : f.w ≤ 64 := by rcases width_cases f with h | h <;> omega

theorem sxWord_eq_low {w : Nat} (hw : w ≤ 64) (x : Nat) : sxWord w x = low w (BitVec.ofNat 64 x) := extended_eq hw false x

theorem setWidth_ofInt {w : Nat} (hw : w ≤ 64) (x : Int) : (BitVec.ofInt 64 x).setWidth w = BitVec.ofInt w x := by
  have dvd : ((2 ^ w : Nat) : Int) ∣ ((2 ^ 64 : Nat) : Int) := Int.natCast_dvd_natCast.mpr (pow_dvd_pow 2 hw)
  refine BitVec.eq_of_toNat_eq ?_
  rw [BitVec.toNat_setWidth, BitVec.toNat_ofInt, BitVec.toNat_ofInt]
  zify
  rw [Int.toNat_of_nonneg (Int.emod_nonneg _ (by positivity)), Int.toNat_of_nonneg (Int.emod_nonneg _ (by positivity))]
  exact_mod_cast Int.emod_emod_of_dvd x dvd

/-- Put(x) of R148. -/
theorem putWord_eq_low {w : Nat} (hw : w ≤ 64) (x : Int) : putWord w x = low w (BitVec.ofInt 64 x) := by
  rw [putWord, ← pattern_eq_wrap, pattern, sxWord_eq_low hw, low, low, setWidth_ofInt hw, BitVec.ofNat_toNat,
    BitVec.setWidth_setWidth_of_le _ hw, BitVec.setWidth_eq]

theorem intResult_eq {w : Nat} (hw : w ≤ 64) (g : Int → Int → Int) (sat u : Bool) (a b : Word) :
    let x := g (intOf w u a) (intOf w u b)
    intResult g w sat u a b = (low w (BitVec.ofInt 64 (fitInt w sat u x)), clamped w sat u x) := by
  have narrowed : intResult g w sat u a b = (sxWord w (narrow w sat u (g (opd w u a) (opd w u b))).1,
      (narrow w sat u (g (opd w u a) (opd w u b))).2) := by cases sat <;> rfl
  intro x
  rw [narrowed, narrow_eq, opd_eq_intOf, opd_eq_intOf, pattern_eq_wrap]
  exact congrArg (·, _) (putWord_eq_low hw _)

/-! ### Quotients and remainders (R152) -/

theorem intOf_bounds (w : Nat) (u : Bool) (x : Word) : leastInt w u ≤ intOf w u x ∧ intOf w u x ≤ greatestInt w u := by
  cases u
  · simp only [leastInt, greatestInt, intOf, Bool.false_eq_true, if_false]
    exact ⟨BitVec.le_toInt _, Int.le_sub_one_of_lt (BitVec.toInt_lt)⟩
  · simp only [leastInt, greatestInt, intOf, if_true]
    have := (x.setWidth w).isLt
    zify at this
    omega

/-- A quotient is never below the range of its operands, and above it only where both are signed. -/
theorem tdiv_bounds (w : Nat) (u : Bool) (a b : Word) :
    leastInt w u ≤ (intOf w u a).tdiv (intOf w u b) ∧ (u = true → (intOf w u a).tdiv (intOf w u b) ≤ greatestInt w u) := by
  have shrinks : ((intOf w u a).tdiv (intOf w u b)).natAbs ≤ (intOf w u a).natAbs := by
    rw [Int.natAbs_tdiv]
    exact Nat.div_le_self ..
  obtain ⟨least, greatest⟩ := intOf_bounds w u a
  cases u
  · refine ⟨?_, nofun⟩
    simp only [leastInt, greatestInt, Bool.false_eq_true, if_false] at *
    omega
  · have positive (x : Word) : 0 ≤ intOf w true x := (intOf_bounds w true x).1
    have := Int.tdiv_nonneg (positive a) (positive b)
    simp only [leastInt, greatestInt, if_true] at *
    omega

theorem fitInt_of_least {w : Nat} {u : Bool} {x : Int} (least : leastInt w u ≤ x) :
    fitInt w true u x = min (greatestInt w u) x ∧ clamped w true u x = decide (greatestInt w u < x) := by
  obtain ⟨least', greatest⟩ := intOf_bounds w u 0
  refine ⟨?_, ?_⟩
  · rw [fitInt, if_pos rfl, max_eq_right]
    exact le_min (least'.trans greatest) least
  · rw [clamped, decide_eq_false (not_lt.mpr least), Bool.false_or, Bool.true_and]

theorem divResult_eq {w : Nat} (hw : w ≤ 64) (sat u : Bool) (a b : Word) :
    let q := (intOf w u a).tdiv (intOf w u b)
    divResult w sat u a b = (low w (BitVec.ofInt 64 (fitInt w sat u q)), clamped w sat u q) := by
  have hi : hiBound w false = greatestInt w false := by simp [hiBound, greatestInt]
  obtain ⟨least, greatest⟩ := tdiv_bounds w u a b
  simp only [divResult, opd_eq_intOf, putWord_eq_low hw, hi]
  generalize (intOf w u a).tdiv (intOf w u b) = q at least greatest ⊢
  cases sat with
  | false => rfl
  | true =>
    obtain ⟨fit, clamp⟩ := fitInt_of_least least
    rw [fit, clamp, Bool.true_and]
    cases u with
    | true => rw [if_neg (by simp), min_eq_right (greatest rfl), decide_eq_false (not_lt.mpr (greatest rfl))]
    | false =>
      by_cases above : greatestInt w false < q
      · rw [if_pos (by simpa using above), min_eq_left above.le, decide_eq_true above]
      · rw [if_neg (by simpa using above), min_eq_right (not_lt.mp above), decide_eq_false above]

theorem remResult_eq {w : Nat} (hw : w ≤ 64) (u : Bool) (a b : Word) :
    remResult w u a b = low w (BitVec.ofInt 64 ((intOf w u a).tmod (intOf w u b))) := by
  rw [remResult, opd_eq_intOf, opd_eq_intOf, putWord_eq_low hw, Int.tmod_def, mul_comm]

theorem intOf_eq_zero {w : Nat} (u : Bool) {x : Word} (h : x.setWidth w = 0) : intOf w u x = 0 := by
  rw [intOf, h]
  cases u <;> simp

theorem exec_div {f : Fields} {s : State} (h : Reads s [f.a, f.b]) (nonzero : intOf f.w f.u (s.th.getS f.b) ≠ 0) :
    let r := divResult f.w f.sat f.u (s.th.getS f.a) (s.th.getS f.b)
    exec (.div f) s = doneWith s ((s.satBit r.2).put f.d r.1) := by
  intro r
  refine runWord_ok h.1 ?_
  rw [M.run_bind_ok (h.run_rdS (by simp)), M.run_bind_ok (h.run_rdS (by simp)), opd_eq_intOf, beq_eq_false_iff_ne.mpr nonzero,
    M.run_bind_ok (M.run_raiseIf_false ..), M.run_bind_ok (M.run_setSat_satBit r.2 s)]
  rfl

theorem exec_rem {f : Fields} {s : State} (h : Reads s [f.a, f.b]) (nonzero : intOf f.w f.u (s.th.getS f.b) ≠ 0) :
    exec (.rem f) s = doneWith s (s.put f.d (remResult f.w f.u (s.th.getS f.a) (s.th.getS f.b))) := by
  refine runWord_ok h.1 ?_
  rw [M.run_bind_ok (h.run_rdS (by simp)), M.run_bind_ok (h.run_rdS (by simp)), opd_eq_intOf, beq_eq_false_iff_ne.mpr nonzero,
    M.run_bind_ok (M.run_raiseIf_false ..)]
  rfl

/-- A word that refuses a divisor of zero before it does anything else. -/
theorem refuses_zero_divisor {f : Fields} {s : State} (h : Reads s [f.a, f.b]) (zero : intOf f.w f.u (s.th.getS f.b) = 0) {code : Nat}
    (other : code ≠ 0x1C3) (m : Word → Word → M Unit) :
    runWord (do
      let a ← rdS f.a
      let b ← rdS f.b
      raiseIf (opd f.w f.u b == 0) code
      m a b) s = trapsWith s code 0 := by
  refine runWord_traps h.1 other ?_
  rw [M.run_bind_ok (h.run_rdS (by simp)), M.run_bind_ok (h.run_rdS (by simp)), opd_eq_intOf, beq_iff_eq.mpr zero]
  exact M.run_bind_error (M.run_raiseIf_true ..)

/-- Settles O4: each word's result is the exact one, clamped or reduced; a divisor of zero is refused before anything is written. -/
theorem integerArithmetic : Obligations.IntegerArithmetic := by
  refine ⟨fun f s h => ?_, fun f s h => ⟨?_, fun nonzero => ?_, fun nonzero => ?_⟩, fun f s h zero => ?_⟩
  · have runs (i : Instr) (g : Int → Int → Int) (hi : exec i s = runWord (intOp f g) s) : exec i s =
        doneWith s ((s.satBit (clamped f.w f.sat f.u (g (intOf f.w f.u (s.th.getS f.a)) (intOf f.w f.u (s.opndB f))))).put f.d
          (low f.w (BitVec.ofInt 64 (fitInt f.w f.sat f.u (g (intOf f.w f.u (s.th.getS f.a)) (intOf f.w f.u (s.opndB f))))))) := by
      rw [hi, runWord_ok h.1 (M.run_intOp h g), intResult_eq (width_le f)]
      rfl
    refine ⟨runs _ _ rfl, runs _ _ rfl, runs _ _ rfl, ?_, ?_⟩
    · simpa only [← min_def] using runs (.min f) _ rfl
    · simpa only [← max_def] using runs (.max f) _ rfl
  · rw [exec_mulh h, mulhResult, opd_eq_intOf, opd_eq_intOf, putWord_eq_low (width_le f)]
    push_cast
    rfl
  · rw [exec_div h nonzero, divResult_eq (width_le f)]
  · rw [exec_rem h nonzero, remResult_eq (width_le f)]
  · have zero := intOf_eq_zero f.u zero
    exact ⟨refuses_zero_divisor h zero (by decide) _, refuses_zero_divisor h zero (by decide) _⟩

end Sys2Proof.Machine
end

section
/-! SUPPORT. The values of logic, shifts, compares, counts and bit fields at their width (spec/07 R150, R153 to R160): what settles O5. -/

namespace Sys2Proof.Machine

section
variable {w : Nat} (hw : w ≤ 64) (a b : Word)

/-! ### Logic and shifts (R150, R153) -/

/-- Words that agree in their low w bits are put alike. -/
theorem low_congr {a b : Word} (h : a.setWidth w = b.setWidth w) : low w a = low w b := by rw [low, h, low]

include hw

/-- An operation that works bit by bit gives the same low bits on the low bits of its operands. -/
theorem bitOp_eq_low {g : Nat → Nat → Nat} {c : Word} (value : c.toNat = g a.toNat b.toNat)
    (bitwise : g a.toNat b.toNat % 2 ^ w = g (a.toNat % 2 ^ w) (b.toNat % 2 ^ w)) :
    sxWord w (g (a.toNat % 2 ^ w) (b.toNat % 2 ^ w)) = low w c := by
  rw [← bitwise, ← value, sxWord_eq_low hw]
  exact low_congr (setWidth_low hw c)

theorem shlResult_eq : shlResult w a b = low w (a <<< (b.toNat % w)) := by
  have power : BitVec.ofInt w ((2 ^ (b.toNat % w) : Nat) : Int) = BitVec.twoPow w (b.toNat % w) :=
    BitVec.eq_of_toNat_eq (by rw [BitVec.ofInt_natCast, BitVec.toNat_ofNat, BitVec.toNat_twoPow])
  unfold shlResult shiftAmount
  rw [putWord_eq_low hw, opd_eq_intOf, intOf, if_neg Bool.false_ne_true]
  refine low_congr ?_
  rw [setWidth_ofInt hw, BitVec.ofInt_mul, BitVec.ofInt_toInt, power, ← BitVec.shiftLeft_eq_mul_twoPow,
    BitVec.setWidth_shiftLeft_of_le hw]

theorem shrResult_eq : shrResult w a b = low w ((a.setWidth w >>> (b.toNat % w)).setWidth 64) := by
  unfold shrResult shiftAmount
  rw [putWord_eq_low hw, uInt, ← Int.natCast_ediv, BitVec.ofInt_natCast]
  congr 1
  refine BitVec.eq_of_toNat_eq ?_
  rw [BitVec.toNat_ofNat, BitVec.toNat_setWidth, BitVec.toNat_ushiftRight, BitVec.toNat_setWidth, Nat.shiftRight_eq_div_pow]

theorem sraResult_eq : sraResult w a b = low w ((low w a).sshiftRight (b.toNat % w)) := by
  have extended : (low w a).toInt = sInt w a.toNat := by
    rw [low, BitVec.toInt_signExtend_of_le hw, sInt_eq_toInt, BitVec.ofNat_toNat]
  unfold sraResult shiftAmount
  rw [putWord_eq_low hw, ← extended, ← Int.shiftRight_eq_div_pow, ← BitVec.toInt_sshiftRight, BitVec.ofInt_toInt]

/-! ### Counts and extensions (R155, R156) -/

theorem extResult_eq (zx : Bool) : extResult w zx a = if zx then (a.setWidth w).setWidth 64 else low w a := by
  rw [extResult, extended_eq hw, BitVec.ofNat_toNat, BitVec.setWidth_eq]

omit hw

theorem popcount_eq_length (x : Nat) : ∀ n, popcount n x = ((List.range n).filter fun i => x.testBit i).length
  | 0 => rfl
  | n + 1 => by
    rw [popcount, popcount_eq_length x n, List.range_succ, List.filter_append, List.length_append, Nat.add_comm]
    cases h : x.testBit n <;> simp [h]

/-- The leading zeros of x are what its bits leave of the width. -/
theorem clz_eq_sub_bitLen (pos : 0 < w) (x : BitVec w) : x.clz.toNat = w - bitLen x.toNat := by
  have width : (w : BitVec w).toNat = w := by
    rw [BitVec.natCast_eq_ofNat, BitVec.toNat_ofNat, Nat.mod_eq_of_lt Nat.lt_two_pow_self]
  by_cases zero : x = 0
  · subst zero
    have all : (0 : BitVec w).clz = (w : BitVec w) := BitVec.clz_eq_iff_eq_zero.mpr rfl
    rw [all, width]
    rfl
  · have some_ : x.clz.toNat < w := by
      have := BitVec.lt_def.mp (BitVec.clz_lt_iff_ne_zero.mpr zero)
      rwa [width] at this
    have value : x.toNat ≠ 0 := fun h => zero (BitVec.eq_of_toNat_eq h)
    have most := BitVec.two_pow_sub_clz_le_toNat_of_ne_zero pos zero
    have fewer := BitVec.toNat_lt_two_pow_sub_clz (x := x)
    have log : x.toNat.log2 = w - 1 - x.clz.toNat :=
      (Nat.log2_eq_iff value).mpr ⟨most, by rwa [show w - 1 - x.clz.toNat + 1 = w - x.clz.toNat by omega]⟩
    rw [bitLen, if_neg value, log]
    omega

theorem clzResult_eq (pos : 0 < w) : clzResult w a = BitVec.ofNat 64 (a.setWidth w).clz.toNat := by
  rw [clzResult, clz_eq_sub_bitLen pos, BitVec.toNat_setWidth]

end

/-! ### Compares (R154) -/

theorem sltResult_eq (w : Nat) (u le : Bool) (a b : Word) : sltResult w u le a b =
    if intOf w u a < intOf w u b ∨ (le = true ∧ intOf w u a = intOf w u b) then 1 else 0 := by
  rw [sltResult, opd_eq_intOf, opd_eq_intOf]

theorem seqResult_eq (w : Nat) (ne : Bool) (a b : Word) :
    seqResult w ne a b = if (a.setWidth w = b.setWidth w) = (ne = false) then 1 else 0 := by
  have same : a.setWidth w = b.setWidth w ↔ a.toNat % 2 ^ w = b.toNat % 2 ^ w := by
    rw [← BitVec.toNat_inj, BitVec.toNat_setWidth, BitVec.toNat_setWidth]
  unfold seqResult
  refine if_congr ?_ rfl rfl
  rw [same]
  cases ne <;> simp

/-! ### Bit fields (R157) -/

/-- The field b names: its position, and its length, at most 64. -/
theorem field_eq (b : Word) : bits b.toNat 5 0 = (b.extractLsb 5 0).toNat ∧ bits b.toNat 12 6 = (b.extractLsb 12 6).toNat := by
  simp [bits]

theorem getLsbD_bfxResult (a b : Word) (i : Nat) (hi : i < 64) :
    let pos := (b.extractLsb 5 0).toNat
    let len := min (b.extractLsb 12 6).toNat 64
    (bfxResult a b).getLsbD i = if i < len then a.getLsbD (pos + i)
      else !b.getLsbD 13 && decide (0 < len) && a.getLsbD (pos + len - 1) := by
  intro pos len
  have most : len ≤ 64 := min_le_right _ _
  have field (j : Nat) (hj : j < len) : ((a.toNat >>> pos) % 2 ^ len).testBit j = a.getLsbD (pos + j) := by
    rw [Nat.testBit_mod_two_pow, decide_eq_true hj, Bool.true_and, Nat.testBit_shiftRight, BitVec.testBit_toNat]
  have outside (j : Nat) (hj : ¬ j < len) : ((a.toNat >>> pos) % 2 ^ len).testBit j = false := by
    rw [Nat.testBit_mod_two_pow, decide_eq_false hj, Bool.false_and]
  unfold bfxResult
  rw [(field_eq b).1, (field_eq b).2]
  dsimp only
  by_cases empty : len = 0
  · rw [if_pos empty, if_neg (by omega), decide_eq_false (by omega), Bool.and_false, Bool.false_and]
    exact BitVec.getLsbD_zero
  rw [if_neg empty, decide_eq_true (Nat.pos_of_ne_zero empty), Bool.and_true]
  cases zx : b.getLsbD 13 with
  | true =>
    rw [if_pos rfl, BitVec.getLsbD_ofNat, decide_eq_true hi, Bool.true_and, Bool.not_true, Bool.false_and]
    split
    · exact field i ‹_›
    · exact outside i ‹_›
  | false =>
    rw [if_neg Bool.false_ne_true, sxWord_eq_low most, low, BitVec.getLsbD_signExtend, decide_eq_true hi, Bool.true_and, Bool.not_false,
      Bool.true_and]
    split
    · rw [BitVec.getLsbD_setWidth, BitVec.getLsbD_ofNat, decide_eq_true ‹i < len›, decide_eq_true hi, Bool.true_and, Bool.true_and, field i ‹_›]
    · rw [BitVec.msb_setWidth, decide_eq_true (Nat.pos_of_ne_zero empty), Bool.true_and, BitVec.getLsbD_ofNat, decide_eq_true (by omega),
        Bool.true_and, field _ (by omega), Nat.add_sub_assoc (Nat.pos_of_ne_zero empty)]

theorem getLsbD_bfiResult (d a b : Word) (i : Nat) (hi : i < 64) :
    let pos := (b.extractLsb 5 0).toNat
    let len := min (b.extractLsb 12 6).toNat 64
    (bfiResult d a b).getLsbD i = if pos ≤ i ∧ i < pos + len then a.getLsbD (i - pos) else d.getLsbD i := by
  intro pos len
  have mask : (BitVec.ofNat 64 ((2 ^ len - 1) * 2 ^ pos)).getLsbD i = decide (pos ≤ i ∧ i < pos + len) := by
    rw [BitVec.getLsbD_ofNat, decide_eq_true hi, Bool.true_and, Nat.testBit_mul_two_pow, Nat.testBit_two_pow_sub_one, ← Bool.decide_and]
    exact decide_eq_decide.mpr (by omega)
  have source : (BitVec.ofNat 64 (a.toNat * 2 ^ pos)).getLsbD i = (decide (pos ≤ i) && a.getLsbD (i - pos)) := by
    rw [BitVec.getLsbD_ofNat, decide_eq_true hi, Bool.true_and, Nat.testBit_mul_two_pow, BitVec.testBit_toNat]
  unfold bfiResult
  rw [(field_eq b).1, (field_eq b).2]
  dsimp only
  rw [BitVec.getLsbD_or, BitVec.getLsbD_and, BitVec.getLsbD_and, BitVec.getLsbD_not, mask, source, decide_eq_true hi]
  split
  next inside => simp [inside]
  next outside => simp only [decide_eq_false outside, Bool.and_false, Bool.or_false, Bool.not_false, Bool.and_true]

/-! ### The words -/

/-- What LEA puts (R159): b is scaled in R-form alone. -/
def leaValue (f : Fields) (a b : Word) : Word := a + b * BitVec.ofNat 64 (2 ^ (if f.imm.isSome then 0 else f.var.toNat))

theorem leaValue_eq (f : Fields) (a b : Word) : leaValue f a b = if f.imm.isSome then a + b else a + b <<< f.var.toNat := by
  have scale (k : Nat) : b * BitVec.ofNat 64 (2 ^ k) = b <<< k := by
    rw [BitVec.shiftLeft_eq_mul_twoPow]
    exact congrArg (b * ·) (BitVec.eq_of_toNat_eq (by rw [BitVec.toNat_ofNat, BitVec.toNat_twoPow]))
  unfold leaValue
  split
  · rw [scale, BitVec.shiftLeft_zero]
  · rw [scale]

theorem exec_lea {f : Fields} {s : State} (h : Reads s (regsAB f)) :
    exec (.lea f) s = doneWith s (s.put f.d (leaValue f (s.th.getS f.a) (s.opndB f))) :=
  runWord_ok h.1 (M.run_binaryOp h (leaValue f))

theorem widthOf_le (code : Nat) : widthOf code ≤ 64 := by
  unfold widthOf
  split_ifs <;> decide

/-- Settles O5: each word puts the value of its rule. -/
theorem logicShiftsMoves : Obligations.LogicShiftsMoves := by
  refine ⟨fun f s h => ?_, fun f s => ⟨fun h => ?_, exec_li, exec_lih, fun h => ?_, exec_sel, fun h => ?_, fun h => ?_⟩⟩
  · have hw := width_le f
    have hA : Reads s [f.a] := h.mono (by simp [regsAB_eq])
    have binary {i : Instr} (g : Word → Word → Word) (hi : exec i s = runWord (do let a ← rdS f.a; let b ← opB f; wrS f.d (g a b)) s) :
        exec i s = doneWith s (s.put f.d (g (s.th.getS f.a) (s.opndB f))) := hi.trans (runWord_ok h.1 (M.run_binaryOp h g))
    have unary {i : Instr} (g : Word → Word) (hi : exec i s = runWord (unaryOp f g) s) :
        exec i s = doneWith s (s.put f.d (g (s.th.getS f.a))) := hi.trans (runWord_ok h.1 (M.run_unaryOp hA g))
    refine ⟨?_, ?_, ?_, ?_, ?_, ?_, ?_, ?_, ?_, ?_, ?_⟩
    · rw [binary _ rfl, bitOp_eq_low hw _ _ (BitVec.toNat_and ..) Nat.and_mod_two_pow]
    · rw [binary _ rfl, bitOp_eq_low hw _ _ (BitVec.toNat_or ..) Nat.or_mod_two_pow]
    · rw [binary _ rfl, bitOp_eq_low hw _ _ (BitVec.toNat_xor ..) Nat.xor_mod_two_pow]
    · rw [binary _ rfl, shlResult_eq hw]
    · rw [binary _ rfl, shrResult_eq hw]
    · rw [binary _ rfl, sraResult_eq hw]
    · rw [binary _ rfl, sltResult_eq]
    · rw [binary _ rfl, seqResult_eq]
    · rw [unary _ rfl, clzResult_eq _ (by rcases width_cases f with e | e <;> omega)]
    · rw [unary _ rfl, popcResult, popcount_eq_length]
      rfl
    · rw [unary _ rfl, extResult_eq (widthOf_le _)]
  · exact runWord_ok h.1 (M.run_unaryOp h id)
  · rw [exec_lea h, leaValue_eq]
  · exact ⟨_, runWord_ok h.1 (M.run_binaryOp h bfxResult), getLsbD_bfxResult _ _⟩
  · exact ⟨_, exec_bfi h, getLsbD_bfiResult _ _ _⟩

end Sys2Proof.Machine
end

section
/-! SUPPORT. Branches, jumps, calls and loops (spec/07 R166 to R169): what settles O9. -/

namespace Sys2Proof.Machine

section
variable {f : Fields} {s : State}

/-- The target of BR, BRC, CALL and LOOP (R167). -/
def State.relTarget (s : State) (f : Fields) : Word := match f.imm with
  | some i => s.th.pc + i.signExtend 64 * 8
  | none => s.th.pc + s.th.getS f.b

theorem M.run_relTarget (h : Reads s (regsB f)) : relTarget f s = .ok (s.relTarget f) s := by
  unfold Machine.relTarget State.relTarget
  unfold regsB at h
  rw [M.run_bind_ok (M.run_getTh s)]
  cases hf : f.imm with
  | some i => rfl
  | none =>
    rw [hf] at h
    exact M.run_bind_ok (M.run_peekS h.2.1 (h.2.2 f.b List.mem_cons_self))

theorem M.run_cleanTarget (h : Reads s (regsB f)) : cleanTarget f s = .ok () s := by
  unfold cleanTarget
  unfold regsB at h
  cases hf : f.imm with
  | some i => rfl
  | none =>
    rw [hf] at h
    exact M.run_cleanS (h.2.2 f.b List.mem_cons_self)

theorem M.run_nextPc (s : State) : nextPc s = .ok (s.th.pc + 8) s := rfl

theorem Reads.run_peekS {l : List (BitVec 6)} {r : BitVec 6} (h : Reads s l) (hr : r ∈ l) : peekS r s = .ok (s.th.getS r) s :=
  M.run_peekS h.2.1 (h.2.2 r hr)

theorem Reads.run_cleanS {l : List (BitVec 6)} {r : BitVec 6} (h : Reads s l) (hr : r ∈ l) : cleanS r s = .ok () s :=
  M.run_cleanS (h.2.2 r hr)

/-- A word that checks its target before it does anything goes on where it says, or raises 0x083 with nothing done (R166). -/
theorem runTo_target {m rest : M Word} {target npc : Word} {t : State} (live : s.th.live = true)
    (checks : m s = (do checkTarget target; rest) s) (goes : rest s = .ok npc t) :
    runTo m s = if target.toNat % 8 = 0 then .next (complete s npc t) else trapsWith s 0x083 target := by
  split
  next aligned =>
    have passes : checkTarget target s = .ok () s := M.run_raiseIf (by simpa using aligned) ..
    exact runTo_ok live (checks.trans ((M.run_bind_ok passes).trans goes))
  next misaligned =>
    refine runTo_traps live (by decide) (checks.trans (M.run_bind_error ?_))
    rw [checkTarget, bne_iff_ne.mpr misaligned, M.run_raiseIf_true]

theorem brcTaken_eq (c : Nat) (d a : Word) : brcTaken c d a = if c = 0 then d == a else if c = 1 then d != a
    else if c = 2 then decide (d.toInt < a.toInt) else if c = 3 then decide (a.toInt ≤ d.toInt)
    else if c = 4 then decide (d.toNat < a.toNat) else decide (a.toNat ≤ d.toNat) := by
  have signed : (!d.slt a) = decide (a.toInt ≤ d.toInt) := by
    rw [BitVec.slt, ← decide_not]
    exact decide_eq_decide.mpr not_lt
  have unsigned : (!d.ult a) = decide (a.toNat ≤ d.toNat) := by
    rw [BitVec.ult, ← decide_not]
    exact decide_eq_decide.mpr not_lt
  rw [brcTaken, signed, unsigned]
  rfl

end

/-- Settles O9: each word reads its operands, checks its target, and then goes on. -/
theorem branches : Obligations.Branches := by
  intro f s pc rel abs d a c taken goes
  refine ⟨fun h => ⟨?_, ?_⟩, fun h => ?_, fun h => ?_, fun h => ⟨?_, ?_⟩⟩
  · exact runTo_target h.1 (M.run_bind_ok (M.run_relTarget h)) (M.run_bind_ok (M.run_cleanTarget h))
  · exact runTo_target h.1 (M.run_bind_ok (M.run_relTarget h))
      ((M.run_bind_ok (M.run_cleanTarget h)).trans (M.run_bind_ok (M.run_nextPc s)))
  · have hB : Reads s (regsB f) := h.mono fun r hr => List.mem_cons_of_mem _ (List.mem_cons_of_mem _ hr)
    have hd : f.d ∈ f.d :: f.a :: regsB f := List.mem_cons_self
    have ha : f.a ∈ f.d :: f.a :: regsB f := List.mem_cons_of_mem _ List.mem_cons_self
    refine runTo_target h.1
      ((M.run_bind_ok (h.run_peekS hd)).trans ((M.run_bind_ok (h.run_peekS ha)).trans (M.run_bind_ok (M.run_relTarget hB)))) ?_
    rw [M.run_bind_ok (h.run_cleanS hd), M.run_bind_ok (h.run_cleanS ha), M.run_bind_ok (M.run_cleanTarget hB),
      M.run_bind_ok (M.run_nextPc s), brcTaken_eq]
    rfl
  · have hB : Reads s (regsB f) := h.mono fun _ => List.mem_cons_of_mem _
    refine runTo_target h.1 ((M.run_bind_ok (h.run_peekS List.mem_cons_self)).trans (M.run_bind_ok (M.run_relTarget hB))) ?_
    rw [M.run_bind_ok (h.run_cleanS List.mem_cons_self), M.run_bind_ok (M.run_cleanTarget hB), M.run_bind_ok (M.run_nextPc s)]
    rfl
  · exact runTo_target h.1 (M.run_bind_ok (M.run_peekEA h)) (M.run_bind_ok (M.run_cleanEA h))
  · exact runTo_target h.1 (M.run_bind_ok (M.run_peekEA h))
      ((M.run_bind_ok (M.run_cleanEA h)).trans (M.run_bind_ok (M.run_nextPc s)))

end Sys2Proof.Machine
end

section
/-! SUPPORT. What settles O8: a scalar floating-point word whose enabled flag traps while an MMA of the thread runs leaves its trap to be taken
(spec/05 R102, spec/19 R348), and the trap that waits says on record that the flags stand, which the statement leaves out. -/

namespace Sys2Proof.Machine

theorem M.run_fpFlags_traps {fl : Flags} {d : Nat} {s : State} (enabled : trapDetail s.th.enables fl = some d) :
    fpFlags fl s = .error (.cause { code := 0x100 + d, keep := true }) (s.flags fl) := by
  have same : (s.flags fl).th.enables = s.th.enables := rfl
  unfold fpFlags
  rw [M.run_bind_ok (M.run_addFlags fl s)]
  show (getTh >>= _) (s.flags fl) = _
  rw [M.run_bind_ok (M.run_getTh _), same, enabled]
  rfl

/-- A quotient whose NV traps: the flags stand, and so says the cause (R102, R360). -/
theorem fdiv_traps {f : Fields} {s : State} (h : Reads s [f.a, f.b])
    (enabled : let m := fpFmt f.var.toNat
      trapDetail s.th.enables (m.div (s.th.rm f.rnd) (fpArg m (s.th.getS f.a)) (fpArg m (s.th.getS f.b))).2 = some 0) :
    let m := fpFmt f.var.toNat
    exec (.fdiv f) s = .next { deliver { code := 0x100, keep := true } s.th.resumeSlot1
      (s.flags (m.div (s.th.rm f.rnd) (fpArg m (s.th.getS f.a)) (fpArg m (s.th.getS f.b))).2) with chosen := .none } := by
  intro m
  refine (runWord_cause h.1 (by decide) rfl rfl ?_).trans rfl
  rw [fpOp2, M.run_bind_ok (M.run_getTh s), M.run_bind_ok (h.run_rdS (by simp)), M.run_bind_ok (h.run_rdS (by simp))]
  exact M.run_bind_error (M.run_fpFlags_traps enabled)

/-- A thread with ENV set in FRM and an MMA under way. -/
def dividesByZero : State := { State.reset with th := { bootThread with frm := 0x1000, mmaRun := [(0, false)] } }

/-- Whether the trap that waits says that the state the word left stands. -/
def waitingKeep (o : Out) : Option Bool := match o with
  | .next t => t.th.trap.map fun p => p.cause.keep
  | _ => none

theorem waitingKeep_later {c : Cause} {slot1 : Bool} {s : State} (other : c.code / 32 ≠ 5) (finishing : s.finishing = true) :
    waitingKeep (.next { deliver c slot1 s with chosen := .none }) = some c.keep := by
  rw [deliver_later other finishing]
  rfl

/-- Refutes O8: 0 ÷ 0 with ENV set while an MMA runs leaves a trap to take whose record says that the flags stand. -/
theorem not_scalarFloat : ¬ Obligations.ScalarFloat := by
  unfold Obligations.ScalarFloat
  intro h
  have reads : Reads dividesByZero [0, 0] := by unfold Reads; decide +kernel
  obtain ⟨two, -, -⟩ := h (unpackR 0) dividesByZero
  obtain ⟨-, -, -, ⟨-, quotient⟩, -⟩ := two reads
  have stated := quotient 0 (by decide) (by decide +kernel) nofun
  have runs := fdiv_traps (f := unpackR 0) reads (by decide +kernel)
  have kept := congrArg waitingKeep (runs.symm.trans stated)
  rw [waitingKeep_later (by decide) (by decide +kernel)] at kept
  unfold trapsWith at kept
  rw [waitingKeep_later (by decide) (by decide +kernel)] at kept
  exact absurd kept (by decide)

end Sys2Proof.Machine
end

section
/-! SUPPORT. Taking an exception, returning from one, and the step cause (spec/19 R345 to R351, R359, spec/21 R372): what settles O40. -/

namespace Sys2Proof.Machine

/-! ### Values of the trap registers (R346, R350) -/

theorem ofNat_div_eight (x : Word) : BitVec.ofNat 64 (x.toNat / 8 * 8) = x &&& ~~~7 := by
  have mask : (~~~7 : Word) = BitVec.ofNat 64 (2 ^ 61 - 1) <<< 3 := by decide
  refine BitVec.eq_of_getLsbD_eq fun i hi => ?_
  rw [mask, BitVec.getLsbD_and, BitVec.getLsbD_shiftLeft, BitVec.getLsbD_ofNat, BitVec.getLsbD_ofNat, Nat.testBit_two_pow_sub_one,
    show x.toNat / 8 * 8 = x.toNat / 2 ^ 3 * 2 ^ 3 from rfl, Nat.testBit_mul_two_pow, Nat.testBit_div_two_pow, BitVec.testBit_toNat]
  by_cases low : i < 3
  · simp [low, Nat.not_le.mpr low]
  · have : i - 3 < 61 := by omega
    have top : i - 3 < 64 := by omega
    simp [low, Nat.le_of_not_lt low, hi, this, top]

/-- What XSTAT says after an exception is taken. -/
theorem xstatOf_fields (slot vpart tpart inh : Bool) (l : Level) (wlvl : Nat) :
    let x := xstatOf slot vpart tpart inh l wlvl
    x.getLsbD 0 = slot ∧ x.getLsbD 1 = vpart ∧ x.getLsbD 2 = tpart ∧ x.getLsbD 3 = inh := by
  intro x
  have bit (k : Nat) (hk : k < 64) : b2n (x.getLsbD k) =
      (b2n slot + 2 * b2n vpart + 4 * b2n tpart + 8 * b2n inh + 16 * l.code + 64 * (wlvl % 8)) / 2 ^ k % 2 := by
    rw [← b2n_testBit]
    exact congrArg b2n ((BitVec.getLsbD_ofNat ..).trans (by rw [decide_eq_true hk, Bool.true_and]))
  have h0 := b2n_lt_two slot
  have h1 := b2n_lt_two vpart
  have h2 := b2n_lt_two tpart
  have h3 := b2n_lt_two inh
  refine ⟨b2n_inj.mp ?_, b2n_inj.mp ?_, b2n_inj.mp ?_, b2n_inj.mp ?_⟩ <;> rw [bit _ (by decide)] <;> omega

/-! ### Taking an exception (R350) -/

/-- A thread that can take an exception: a user, or a supervisor in no handler. -/
def Thread.CanTrap (t : Thread) : Prop := t.level = .user ∨ t.level = .supervisor ∧ t.inh = false

/-- The thread once it has taken an exception. -/
def Thread.trapped (t : Thread) (c : Cause) (slot1 : Bool) (xvec : Word) : Thread := { t with
  xcause := BitVec.ofNat 64 (c.code % 512)
  xpc := t.pc &&& ~~~7
  xval := c.xval
  xstat := xstatOf slot1 c.vpart c.tpart true t.level c.wlvl
  level := .supervisor
  pc := xvec &&& ~~~7
  resume := none }

section
variable {c : Cause} {slot1 : Bool} {s : State}

theorem takeTrap_taken (h : s.th.CanTrap) :
    takeTrap c s.th.pc slot1 s = { s with th := s.th.trapped c slot1 (s.part s.th.part).xvec } := by
  rcases h with user | ⟨supervisor, free⟩
  · simp only [takeTrap, Thread.trapped, ofNat_div_eight, user]
    rfl
  · simp only [takeTrap, Thread.trapped, ofNat_div_eight, supervisor, free]
    rfl

theorem takeTrap_double (supervisor : s.th.level = .supervisor) (inh : s.th.inh = true) (xpc : Word) :
    takeTrap c xpc slot1 s = { stopSlot s with monitor := s.monitor ++ [⟨0x1C1, c.code, s.cur⟩] } := by
  simp only [takeTrap, supervisor, inh]
  rfl

theorem takeTrap_monitor (monitor : s.th.level = .monitor) (xpc : Word) :
    takeTrap c xpc slot1 s = { stopSlot s with monitor := s.monitor ++ [⟨c.code, c.code, s.cur⟩] } := by
  simp only [takeTrap, monitor]

theorem takeTrap_log (log : ErrLog) :
    takeTrap c s.th.pc slot1 { s with log := log } = { takeTrap c s.th.pc slot1 s with log := log } := by
  let u : State := { s with log := log }
  cases level : s.th.level with
  | user => rw [takeTrap_taken (s := s) (.inl level)]; exact takeTrap_taken (s := u) (.inl level)
  | monitor => rw [takeTrap_monitor (s := s) level]; exact takeTrap_monitor (s := u) level _
  | supervisor =>
    cases inh : s.th.inh with
    | false => rw [takeTrap_taken (s := s) (.inr ⟨level, inh⟩)]; exact takeTrap_taken (s := u) (.inr ⟨level, inh⟩)
    | true => rw [takeTrap_double (s := s) level inh]; exact takeTrap_double (s := u) level inh _

theorem logError_eq (code addr : Nat) (part : Option Nat) (unit : Nat) (s : State) :
    logError code addr part unit s = { s with log := (logError code addr part unit s).log } := by
  unfold logError
  dsimp only
  split <;> rfl

/-- The trap as it is delivered, but for what is logged of it. -/
def delivered (c : Cause) (slot1 : Bool) (s : State) : State :=
  if s.finishing then { s with th := { s.th with trap := some ⟨c, slot1⟩ } } else takeTrap c s.th.pc slot1 s

theorem deliver_eq_delivered (c : Cause) (slot1 : Bool) (s : State) :
    ∃ log : ErrLog, (c.code / 32 ≠ 5 → log = s.log) ∧ deliver c slot1 s = { delivered c slot1 s with log := log } := by
  have relogged (log : ErrLog) : delivered c slot1 { s with log := log } = { delivered c slot1 s with log := log } := by
    unfold delivered
    have same : State.finishing { s with log := log } = s.finishing := rfl
    rw [same]
    split
    · rfl
    · exact takeTrap_log (s := s) log
  by_cases poison : c.code / 32 = 5
  · refine ⟨(logError c.code c.pa (some s.th.part) s.th.loc.toNat s).log, fun other => absurd poison other, ?_⟩
    rw [← relogged, ← logError_eq]
    unfold deliver
    rw [if_pos poison]
    rfl
  · refine ⟨s.log, fun _ => rfl, (?_ : _ = delivered c slot1 { s with log := s.log }).trans (relogged _)⟩
    unfold deliver
    rw [if_neg poison]
    rfl

end

/-! ### The trap that waited, and the step cause (R348, R359) -/

theorem State.select_cur (s : State) : s.select s.cur = s := if_pos rfl

theorem runMove_trap {s : State} {p : Pending} (waits : s.th.trap = some p) (idle : s.finishing = false) (can : s.th.CanTrap) :
    runMove (.trap s.cur) s = { s with th := { s.th with trap := none }.trapped p.cause p.slot1 (s.part s.th.part).xvec } := by
  have taken : takePending s = { s with th := { s.th with trap := none }.trapped p.cause p.slot1 (s.part s.th.part).xvec } := by
    unfold takePending
    rw [waits, idle]
    exact takeTrap_taken (s := { s with th := { s.th with trap := none } }) can
  change (takePending (s.select s.cur)).select s.cur = _
  rw [s.select_cur, taken]
  exact if_pos rfl

/-- A completed word with DBG.WSTEP on and no handler running raises 0x1C4 (R359). -/
theorem complete_stepped {s u : State} (npc : Word) (idle : u.finishing = false) (step : s.th.dbg.getLsbD 1 = true) (before : s.th.inh = false)
    (after : u.th.inh = false) (level : u.th.level ≠ .monitor) :
    (complete s npc u).th = { u.th with pc := npc, resume := none, wait := none, begun := u.th.begun.erase s.th.pc.toNat }.trapped
      { code := 0x1C4 } false (u.part u.th.part).xvec := by
  let v : State := { u.doneAt npc with th := { (u.doneAt npc).th with begun := u.th.begun.erase s.th.pc.toNat } }
  have can : v.th.CanTrap := by
    cases h : u.th.level with
    | user => exact .inl h
    | supervisor => exact .inr ⟨h, after⟩
    | monitor => exact absurd h level
  have raised : complete s npc u = deliver { code := 0x1C4 } false v := by
    refine if_pos ?_
    rw [step, before]
    exact congrArg not after
  rw [raised, deliver_now (s := v) (by decide) idle, takeTrap_taken can]
  rfl

/-! ### The words (R185 to R187, R351) -/

section
variable {f : Fields} {s : State}

theorem exec_trap_imm {i : BitVec 32} (live : s.th.live = true) (hf : f.imm = some i) :
    exec (.trap f) s = trapsWith s (0x1E0 + i.toNat % 32) 0 := by
  refine runWord_traps live (by omega) ?_
  rw [hf]
  rw [show i.toNat = (immZ i).toNat from (BitVec.toNat_setWidth_of_le (by decide)).symm]
  rfl

theorem exec_trap_reg (h : Reads s [f.a]) (hf : f.imm = none) : exec (.trap f) s = trapsWith s (0x1E0 + (s.th.getS f.a).toNat % 32) 0 := by
  refine runWord_traps h.1 (by omega) ?_
  rw [hf]
  exact M.run_bind_ok (h.run_rdS List.mem_cons_self)

theorem exec_brk_imm {i : BitVec 32} (live : s.th.live = true) (hf : f.imm = some i) :
    exec (.brk f) s = trapsWith s 0x1C2 (i.setWidth 64) := by
  refine runWord_traps live (by decide) ?_
  rw [hf]
  rfl

theorem exec_brk_reg (h : Reads s [f.a]) (hf : f.imm = none) : exec (.brk f) s = trapsWith s 0x1C2 (s.th.getS f.a &&& 0xFFFF) := by
  refine runWord_traps h.1 (by decide) ?_
  rw [hf]
  exact M.run_bind_ok (h.run_rdS List.mem_cons_self)

theorem exec_xret_user (live : s.th.live = true) (user : s.th.level = .user) : exec (.xret f) s = trapsWith s 0x031 0 := by
  refine runWord_traps live (by decide) ?_
  rw [M.run_bind_ok (M.run_getTh s), user]
  exact M.run_bind_error (M.run_raiseIf_true ..)

theorem exec_xret (live : s.th.live = true) (level : s.th.level ≠ .user) (vldas : s.th.vldas = []) (loads : s.th.loads = [])
    (free : CanRelease s) : exec (.xret f) s = .next { s with th := xretThread s.th, chosen := .none } := by
  have zenc : (s.zjobs.any fun j => j.key == s.cur) = false := by
    simpa [CanRelease] using free
  refine (runWord_gone (t := { s with th := xretThread s.th }) live ?_).trans rfl
  rw [M.run_bind_ok (M.run_getTh s), M.run_bind_ok (M.run_raiseIf (decide_eq_false level) ..), vldas, loads, zenc]
  rfl

end

/-- Settles O40: each trap is the one delivered, which is put off while work runs or taken by the level of the thread. -/
theorem traps : Obligations.Traps := by
  refine ⟨fun f s live => ⟨fun h => ?_, exec_xret_user live, exec_xret live⟩, fun s code xval small => ?_⟩
  · unfold regsA at h
    cases hf : f.imm with
    | some i => exact ⟨exec_trap_imm live hf, exec_brk_imm live hf⟩
    | none =>
      rw [hf] at h
      exact ⟨exec_trap_reg h hf, exec_brk_reg h hf⟩
  let c : Cause := { code := code, xval := xval }
  have whole {code : Nat} (small : code < 512) : code % 512 = code := Nat.mod_eq_of_lt small
  obtain ⟨log, kept, logged⟩ := deliver_eq_delivered c s.th.resumeSlot1 s
  refine ⟨{ delivered c s.th.resumeSlot1 s with log := log, chosen := .none }, ?_, kept, fun waits => ?_, fun idle can => ?_,
    fun idle supervisor inh => ?_, fun p waits fits idle can => ?_, fun u npc idle step before after level => ?_⟩
  · unfold trapsWith
    rw [logged]
  · rw [delivered, if_pos waits]
  · rw [delivered, if_neg (by rw [idle]; decide), takeTrap_taken can]
    have stat : xstatOf s.th.resumeSlot1 false false true s.th.level 0 =
        BitVec.ofNat 64 (b2n s.th.resumeSlot1 + 8 + 16 * if s.th.level = .user then 0 else 1) := by
      rcases can with user | ⟨supervisor, -⟩
      · rw [user]; rfl
      · rw [supervisor]; rfl
    rw [Thread.trapped, whole small, stat]
  · rw [delivered, if_neg (by rw [idle]; decide), takeTrap_double supervisor inh]
    rfl
  · have taken := congrArg State.th (runMove_trap waits idle can)
    obtain ⟨slot, vpart, tpart, inh⟩ := xstatOf_fields p.slot1 p.cause.vpart p.cause.tpart true s.th.level p.cause.wlvl
    simp only [taken]
    exact ⟨congrArg (BitVec.ofNat 64) (whole fits), rfl, rfl, slot, vpart, tpart, inh, rfl, rfl, rfl, rfl⟩
  · have taken := complete_stepped npc idle step before after level
    simp only [taken]
    exact ⟨rfl, rfl, rfl, rfl, rfl⟩

end Sys2Proof.Machine
end

section
/-! SUPPORT. LD and ST at a cell, where an access lands with translation off, and the home slice of a line (spec/04 R50 to R52, R59,
spec/08 R170, R171): what settles O10. -/

namespace Sys2Proof.Machine

/-! ### A load and a store that land on a cell -/

theorem eight_mul_bytesOf (f : Fields) : 8 * bytesOf f = widthOf f.var.toNat := by
  unfold bytesOf widthOf
  split_ifs <;> rfl

section
variable {s s1 : State} {acc n pa : Nat} {ea : Word} {via : Option Nat} {clean : M Unit}

/-- A cell that holds no poison reads as the accessing agent sees it. -/
theorem M.run_loadPlace_cell (unpoisoned : poisonAt s pa n = none) (acc : Nat) (ea : Word) :
    loadPlace acc ea n (.cell pa via) s = .ok (readVia s via pa n).2 (readVia s via pa n).1 := by
  simp only [loadPlace, checkPoison, M.run_bind, M.run_get, unpoisoned, M.run_pure, M.run_set]

/-- A load that reaches a cell puts there what its cluster sees (R170). -/
theorem Reaches.loadReg {w : Nat} (h : Reaches s .load accLoad (w / 8) ea (w / 8) pa via s1) (d : BitVec 6) (zx : Bool)
    (passes : clean s1 = .ok () s1) : loadReg d w zx ea clean s =
      .ok () ((readVia s1 via pa (w / 8)).1.put d (loadResult w zx (BitVec.ofNat 64 (readVia s1 via pa (w / 8)).2))) := by
  obtain ⟨lands, unpoisoned⟩ := h
  unfold Machine.loadReg
  rw [M.run_bind_ok (M.run_getTh s), M.run_bind_ok lands.1, M.run_checked_clean passes, M.run_bind_ok lands.checkWatermark]
  have noPort : fifoShort accLoad ea (w / 8) (.cell pa via) s1 = .ok none s1 := rfl
  rw [M.run_bind_ok noPort]
  exact (M.run_bind_ok (M.run_loadPlace_cell unpoisoned ..)).trans (M.run_wrS ..)

/-- A store that lands on a cell writes there (R171). -/
theorem Lands.store (h : Lands s .store acc n ea n pa via s1) (v : Nat) (passes : clean s1 = .ok () s1) :
    store s.th.who acc n ea n v clean s = .ok () (writeVia s1 via pa n v) := by
  unfold Machine.store
  rw [M.run_bind_ok h.1, M.run_checked_clean passes, M.run_bind_ok h.checkWatermark]
  rfl

end

section
variable {f : Fields} {s s1 : State} {pa : Nat} {via : Option Nat}

theorem exec_ld (regs : Reads s (regsAB f)) (h : Reaches s .load 0 (bytesOf f) (s.addr f) (bytesOf f) pa via s1) :
    let r := readVia s1 via pa (bytesOf f)
    exec (.ld f) s = doneWith s (r.1.put f.d (loadResult (widthOf f.var.toNat) (f.var.getLsbD 2) (BitVec.ofNat 64 r.2))) := by
  refine runWord_ok regs.1 ?_
  rw [M.run_bind_ok (M.run_peekEA regs)]
  exact h.loadReg f.d (f.var.getLsbD 2) (h.1.spares.cleanEA regs)

theorem exec_st (regs : Reads s (f.d :: regsAB f)) (h : Lands s .store 1 (bytesOf f) (s.addr f) (bytesOf f) pa via s1) :
    exec (.st f) s = doneWith s (writeVia s1 via pa (bytesOf f) (s.th.getS f.d).toNat) := by
  obtain ⟨live, begun, readable⟩ := regs
  have readD := readable f.d List.mem_cons_self
  have regs : Reads s (regsAB f) := ⟨live, begun, fun r hr => readable r (List.mem_cons_of_mem _ hr)⟩
  refine runWord_ok live ?_
  rw [M.run_bind_ok (M.run_getTh s), M.run_bind_ok (M.run_peekS begun readD), M.run_bind_ok (M.run_peekEA regs)]
  exact h.store _ (M.run_both (h.spares.cleanEA regs) (h.spares.cleanS readD))

end

/-! ### Where an access lands with translation off (R50, R51, R54) -/

/-- An aligned access above user level to HBM lands there by way of the thread's cluster. -/
theorem locate_untranslated {s : State} {ea : Word} {n : Nat} (level : s.th.level ≠ .user) (off : (s.part s.th.part).ptroot.getLsbD 0 = false)
    (low : ea.toNat < hbmEnd) (aligned : ea.toNat % n = 0) (vldas : s.th.vldas = []) (zjobs : s.zjobs = []) (need : Need) (acc : Nat) :
    locate s.th.who need acc n ea n s = .ok (.cell ea.toNat (some s.th.clusterNo)) s := by
  have translated : translate s.th.who need ea s = _ := translate_of_physical (decide_eq_false level) (.inr off) low need
  have near : isFabric ea.toNat = false := isFabric_of_le_hbmEnd low.le
  have place : placeOf s s.th.who ea.toNat = .cell ea.toNat (some s.th.clusterNo) := by
    have hbm : isHbm ea.toNat = true := decide_eq_true low
    simp only [placeOf, hbm, Bool.true_or, if_true]
    rfl
  have window : windowCluster s.th.who ea.toNat = none := by
    unfold hbmEnd at low
    have h1 : ¬ windowBase ≤ ea.toNat := by unfold windowBase; omega
    have h2 : ¬ aliasBase ≤ ea.toNat := by unfold aliasBase; omega
    simp [windowCluster, h1, h2]
  have cache : (⟨ea.toNat, 0, false, none⟩ : Xlat).cacheable = true := rfl
  unfold locate locateX
  simp only [M.run_bind_ok translated, M.run_bind, M.run_get, window, cache, if_true, place, M.run_needHeld near]
  rw [M.run_raiseFirst (by simp [aligned])]
  dsimp only
  split
  · simp only [M.run_bind, M.run_holdForLoads_cell vldas, M.run_holdForZenc zjobs]
    rfl
  · simp only [M.run_bind, M.run_holdForZenc zjobs]
    rfl

/-! ### The home slice of a line (R52) -/

theorem homeSlice_hbm (s : State) {pa : Nat} (low : pa < hbmEnd) :
    homeSlice s pa = some (pa / 0x30_0000_0000, pa % 0xC_0000_0000 / 128 % 80) := by
  have hbm : isHbm pa = true := decide_eq_true low
  have die : hbmDie (pa / 128 * 128) = pa / 0x30_0000_0000 := by
    unfold hbmEnd at low
    unfold hbmDie
    split <;> omega
  have stack : pa / 128 * 128 % 0xC_0000_0000 / 128 = pa % 0xC_0000_0000 / 128 := by omega
  unfold homeSlice lineHome
  rw [if_pos hbm]
  dsimp only
  rw [die, stack]

theorem homeSlice_host (s : State) {pa : Nat} (low : 2 ^ 48 ≤ pa) (high : pa < 2 ^ 49) :
    homeSlice s pa = some (pa / 128 % 2, pa / 128 / 2 % 80) := by
  have hbm : isHbm pa = false := decide_eq_false (by unfold hbmEnd; omega)
  have host : isHost pa = true := by
    unfold isHost hostBase
    simp only [Bool.and_eq_true, decide_eq_true_eq]
    omega
  simp only [homeSlice, hbm, host, Bool.true_or, if_true, Bool.false_eq_true, if_false]

/-- Settles O10: a load and a store at the cell their access lands on, and where an untranslated access lands. -/
theorem loadsAndStores : Obligations.LoadsAndStores := by
  refine ⟨fun f s s1 pa via => ⟨fun regs h => ?_, fun regs h => exec_st regs h⟩, fun s need acc n ea level off low aligned vldas zjobs =>
    ⟨locate_untranslated level off low aligned vldas zjobs need acc, homeSlice_hbm s low, fun pa => homeSlice_host s⟩⟩
  have value (x : Nat) : loadResult (widthOf f.var.toNat) (f.var.getLsbD 2) (BitVec.ofNat 64 x) = _ :=
    extResult_eq (widthOf_le f.var.toNat) (BitVec.ofNat 64 x) (f.var.getLsbD 2)
  rw [exec_ld regs h, value, eight_mul_bytesOf]

end Sys2Proof.Machine
end

section
/-! SUPPORT. What a control register reads, what a write to it does, and the checks of its number (spec/06 R137, spec/07 R188, R189,
spec/19 R346, R352): what settles O25. -/

namespace Sys2Proof.Machine

/-! ### What a register reads (R188) -/

theorem Bank.word_eq (b : Bank) : b.word = BitVec.ofNat 64 (b.mode + 8 * b2n b.dec + 16 * b2n b.busy) := by
  rw [Nat.mul_comm 8, Nat.mul_comm 16]
  rfl

/-- A number with a register, which a word reads as `e` says. -/
def ReadsAs (s : State) (e : Nat × Word) : Prop := crAssigned e.1 = true ∧ crRead e.1 s = .ok e.2 s

section
variable (s : State) {j : Nat} (hj : j < 16)
include hj

theorem readsAs_bmode : ReadsAs s (0x090 + j, ((s.cluster s.th.clusterNo).banks.getD j Bank.reset).word) := by
  constructor <;> dsimp only <;> interval_cases j <;> rfl

theorem readsAs_xscr : ReadsAs s (0x070 + j, s.th.xscr.getD j 0) := by
  constructor <;> dsimp only <;> interval_cases j <;> rfl

theorem readsAs_cwm : ReadsAs s (0x010 + j, (s.chan s.th.part j).cwm) := by
  constructor <;> dsimp only <;> interval_cases j <;> rfl

end

theorem readsAs_vmaxlen (s : State) : ReadsAs s (0x050, if (s.core s.th.coreNo).full then 16 else 8) := by
  have value : BitVec.ofNat 64 (s.core s.th.coreNo).lpc = if (s.core s.th.coreNo).full then 16 else 8 := by
    unfold Core.lpc
    split <;> rfl
  rw [← value]
  exact ⟨rfl, rfl⟩

theorem crValues_read (s : State) : ∀ e ∈ crValues s, ReadsAs s e := by
  simp only [crValues, List.forall_mem_append, List.forall_mem_map, List.mem_range]
  refine ⟨⟨⟨?_, fun j hj => ?_⟩, fun j hj => readsAs_xscr s hj⟩, fun j hj => readsAs_cwm s hj⟩
  · iterate 19 refine List.forall_mem_cons.mpr ⟨⟨rfl, rfl⟩, ?_⟩
    refine List.forall_mem_cons.mpr ⟨readsAs_vmaxlen s, ?_⟩
    iterate 18 refine List.forall_mem_cons.mpr ⟨⟨rfl, rfl⟩, ?_⟩
    exact List.forall_mem_nil _
  · rw [← Bank.word_eq]
    exact readsAs_bmode s hj

/-! ### What a write does to a register of the thread or its partition (R137, R188, R346) -/

theorem vcfgWritten_eq (s : State) (v : Word) : vcfgWritten (threadLanes s s.th) s.th.vcfg v = vcfgAfter s s.th v := by
  have grp : bits v.toNat 18 17 % 4 = bits v.toNat 18 17 := Nat.mod_eq_of_lt (Nat.mod_lt _ (by decide))
  simp only [vcfgWritten, vcfgAfter, vlmaxOf, keepField, grp, decide_eq_true_eq]

/-- The bits of a field, in place. -/
theorem masked_field (x : Word) (hi lo : Nat) :
    masked x ((2 ^ (hi + 1 - lo) - 1) * 2 ^ lo) = BitVec.ofNat 64 (2 ^ lo * bits x.toNat hi lo) := by
  refine BitVec.eq_of_getLsbD_eq fun i inside => ?_
  simp only [masked, bits, BitVec.getLsbD_and, BitVec.getLsbD_ofNat, Nat.testBit_mul_two_pow, Nat.testBit_two_pow_sub_one,
    Nat.testBit_two_pow_mul, Nat.testBit_mod_two_pow, Nat.testBit_shiftRight, BitVec.testBit_toNat, inside, decide_true, Bool.true_and]
  by_cases above : lo ≤ i
  · rw [Nat.add_sub_cancel' above, decide_eq_true above, Bool.true_and, Bool.true_and, Bool.and_comm]
  · rw [decide_eq_false above, Bool.false_and, Bool.false_and, Bool.and_false]

theorem frmWritten_eq (old v : Word) : frmWritten old v = (v &&& 0x1F00) ||| BitVec.ofNat 64 (keepField old v 2 0 5) := by
  have rounding (x : Word) : masked x 7 = BitVec.ofNat 64 (bits x.toNat 2 0) := by
    rw [← Nat.one_mul (bits ..)]
    exact masked_field x 2 0
  unfold frmWritten keepField
  rw [rounding, rounding, apply_ite (BitVec.ofNat 64)]
  rfl

theorem xstatWritten_eq (old v : Word) : xstatWritten old v = (v &&& 0x1CF) ||| BitVec.ofNat 64 (16 * keepField old v 5 4 3) := by
  have level (x : Word) : masked x 0x30 = BitVec.ofNat 64 (16 * bits x.toNat 5 4) := masked_field x 5 4
  unfold xstatWritten keepField
  rw [level, level, apply_ite (16 * ·), apply_ite (BitVec.ofNat 64)]
  rfl

/-- A write of `v` to the register of number `e.1` leaves the state `e.2`. -/
def WritesTo (s : State) (v : Word) (e : Nat × State) : Prop := crWrite e.1 v s = .ok () e.2

theorem vector_mapIdx_set {α : Type} {n : Nat} (x : Vector α n) (j : Nat) (a : α) :
    (x.mapIdx fun i y => if i = j then a else y) = x.setIfInBounds j a := by
  ext i hi
  simp [Vector.getElem_setIfInBounds, eq_comm]

section
variable (s : State) (v : Word)

theorem writesTo_vcfg : WritesTo s v (0x000, { s with th := { s.th with vcfg := vcfgAfter s s.th v } }) := by
  rw [← vcfgWritten_eq]
  rfl

theorem writesTo_frm : WritesTo s v (0x007, { s with th := { s.th with
    frm := (v &&& 0x1F00) ||| BitVec.ofNat 64 (keepField s.th.frm v 2 0 5) } }) := by
  rw [← frmWritten_eq]
  rfl

theorem writesTo_xstat : WritesTo s v (0x033, { s with th := { s.th with
    xstat := (v &&& 0x1CF) ||| BitVec.ofNat 64 (16 * keepField s.th.xstat v 5 4 3)
    scan := if v.getLsbD 1 = s.th.xstat.getLsbD 1 then s.th.scan else none } }) := by
  rw [← xstatWritten_eq]
  rfl

theorem writesTo_xscr {j : Nat} (hj : j < 16) : WritesTo s v (0x070 + j, { s with th := { s.th with xscr := s.th.xscr.setIfInBounds j v } }) := by
  rw [← vector_mapIdx_set]
  interval_cases j <;> rfl

/-- The watermark of a channel is written by the channel alone. -/
theorem writesTo_cwm {j : Nat} (hj : j < 16) : WritesTo s v (j + 0x010, s) := by
  interval_cases j <;> rfl

theorem crAfter_write : ∀ e ∈ crAfter s v, WritesTo s v e := by
  simp only [crAfter, List.forall_mem_append, List.forall_mem_map, List.mem_range]
  refine ⟨⟨?_, fun j hj => writesTo_xscr s v hj⟩, ?_, fun j hj => writesTo_cwm s v hj⟩
  · refine List.forall_mem_cons.mpr ⟨writesTo_vcfg s v, ?_⟩
    iterate 6 refine List.forall_mem_cons.mpr ⟨rfl, ?_⟩
    refine List.forall_mem_cons.mpr ⟨writesTo_frm s v, ?_⟩
    iterate 4 refine List.forall_mem_cons.mpr ⟨rfl, ?_⟩
    refine List.forall_mem_cons.mpr ⟨writesTo_xstat s v, ?_⟩
    iterate 10 refine List.forall_mem_cons.mpr ⟨rfl, ?_⟩
    exact List.forall_mem_nil _
  · iterate 9 refine List.forall_mem_cons.mpr ⟨rfl, ?_⟩
    exact List.forall_mem_nil _

end

/-! ### What a write does to a register that acts on a unit (R58, R63, R73, R352) -/

section
variable (s : State) (v : Word)

theorem tlbinvHits_eq : tlbinvHits v.toNat = fun e => v.getLsbD 4 ||
    e.size == bits v.toNat 3 0 && e.va == bits v.toNat 56 12 * 4096 / pageBytes e.size * pageBytes e.size := by
  funext e
  have size : v.toNat % 16 = bits v.toNat 3 0 := rfl
  unfold tlbinvHits
  rw [size, BitVec.testBit_toNat]
  by_cases same : e.size = bits v.toNat 3 0
  · rw [same]
  · rw [beq_eq_false_iff_ne.mpr same, Bool.false_and, Bool.false_and]

theorem writesTo_tlbinv :
    let hit (e : TlbEntry) : Bool := v.getLsbD 4 ||
      e.size == bits v.toNat 3 0 && e.va == bits v.toNat 56 12 * 4096 / pageBytes e.size * pageBytes e.size
    WritesTo s v (0x082, reresolveChans s.th.part hit (s.setPart s.th.part { s.part s.th.part with
      tlb := (s.part s.th.part).tlb.filter fun e => !hit e })) := by
  intro hit
  have named : hit = tlbinvHits v.toNat := (tlbinvHits_eq v).symm
  rw [named]
  rfl

theorem writesTo_tvbase : WritesTo s v (0x084, s.setPart s.th.part { s.part s.th.part with
    tvbase := ((if (s.part s.th.part).tvbase.getLsbD 0 then (s.part s.th.part).tvbase else v) &&& 0x1FF_FFFF_FFFF_F000) ||| (v &&& 1)
    tfree := BitVec.ofNat 64 (s.tfreeNow s.th.part) }) := by
  rw [apply_ite (· &&& _)]
  rfl

theorem writesTo_pswap (idle : (s.die (s.th.part / 8)).busy = false) :
    let op := bits v.toNat 10 8
    WritesTo s v (0x0A4, { s with dies := s.dies.set (s.th.part / 8) { s.die (s.th.part / 8) with
      pswap := (v &&& 0xFFFF_FFFF_FFFF_0F07) ||| (if 1 ≤ op ∧ op ≤ 5 then 0x8000 else 0), ran := false } }) := by
  intro op
  have field : op < 8 := Nat.mod_lt _ (by decide)
  have starts : (if op = 0 ∨ op = 6 ∨ op = 7 then 0 else 0x8000 : Word) = if 1 ≤ op ∧ op ≤ 5 then 0x8000 else 0 := by
    interval_cases op <;> rfl
  rw [← starts]
  unfold WritesTo crWrite
  rw [M.run_bind_ok (M.run_get s)]
  dsimp only
  rw [idle]
  rfl

end

/-- A bank that keeps its mode takes DEC. -/
theorem writeBmode_keeps {j : Nat} (hj : j < 16) (s : State) (c : Nat) (v : Word)
    (keeps : ¬ (bits v.toNat 1 0 ≠ 3 ∧ bits v.toNat 1 0 ≠ ((s.cluster c).banks.getD j Bank.reset).mode)) :
    writeBmode c j v s = s.setCluster c { s.cluster c with
      banks := (s.cluster c).banks.setIfInBounds j { (s.cluster c).banks.getD j Bank.reset with dec := v.getLsbD 3 } } := by
  have same : (if bits v.toNat 1 0 = 3 then ((s.cluster c).banks.getD j Bank.reset).mode else bits v.toNat 1 0) =
      ((s.cluster c).banks.getD j Bank.reset).mode := by
    split
    · rfl
    · next other => exact not_not.mp fun h => keeps ⟨other, h⟩
  rw [← setBank_eq hj]
  exact if_pos same

/-- A bank that leaves its mode begins empty, after what it cached is written back. -/
theorem writeBmode_changes {j : Nat} (hj : j < 16) (s : State) (c : Nat) (v : Word)
    (changes : bits v.toNat 1 0 ≠ 3 ∧ bits v.toNat 1 0 ≠ ((s.cluster c).banks.getD j Bank.reset).mode) :
    let mode := bits v.toNat 1 0
    let u := if ((s.cluster c).banks.getD j Bank.reset).mode = 0 then
      (s.dirtyLines c).foldl (fun s l => writeBackLine c l s) s else s
    let w := u.setCluster c { u.cluster c with banks := (u.cluster c).banks.setIfInBounds j ⟨mode, v.getLsbD 3, true, false, 0, [], []⟩ }
    writeBmode c j v s = if mode = 1 then
      { w with frames := w.frames.set (windowBase + c * 0x40_0000 + j * 0x2_0000) ⟨.rest, 0x2_0000, w.free, []⟩, free := w.free + 0x2_0000 }
      else w := by
  intro mode u w
  have bank : w = setBank u c j ⟨mode, v.getLsbD 3, true, false, 0, [], []⟩ := (setBank_eq hj ..).symm
  have taken : (if bits v.toNat 1 0 = 3 then ((s.cluster c).banks.getD j Bank.reset).mode else bits v.toNat 1 0) = mode := if_neg changes.1
  rw [bank]
  unfold writeBmode
  dsimp only
  rw [taken]
  exact if_neg changes.2

theorem crWrite_bmode {s : State} {j : Nat} (hj : j < 16) (idle : ((s.cluster s.th.clusterNo).banks.getD j Bank.reset).busy = false) (v : Word) :
    crWrite (0x090 + j) v s = .ok () (writeBmode s.th.clusterNo j v s) := by
  have made : crWrite (0x090 + j) v s = (do
      if ((s.cluster s.th.clusterNo).banks.getD j Bank.reset).busy then throw (.wait (.bank s.th.clusterNo j))
      modify (writeBmode s.th.clusterNo j v) : M Unit) s := by
    interval_cases j <;> rfl
  rw [made, idle]
  rfl

theorem crActs_write {s : State} (free : NoWriteWaits s) (v : Word) : ∀ e ∈ crActs s v, WritesTo s v e := by
  obtain ⟨banks, die, -, -⟩ := free
  simp only [crActs, List.forall_mem_append, List.forall_mem_map, List.mem_range]
  refine ⟨?_, fun j hj => ?_⟩
  · exact List.forall_mem_cons.mpr ⟨rfl, List.forall_mem_cons.mpr ⟨writesTo_tlbinv s v, List.forall_mem_cons.mpr ⟨writesTo_tvbase s v,
      List.forall_mem_cons.mpr ⟨rfl, List.forall_mem_cons.mpr ⟨writesTo_pswap s v die, List.forall_mem_nil _⟩⟩⟩⟩⟩
  · unfold WritesTo
    dsimp only
    rw [crWrite_bmode hj (banks j hj)]
    by_cases changes : bits v.toNat 1 0 ≠ 3 ∧ bits v.toNat 1 0 ≠ ((s.cluster s.th.clusterNo).banks.getD j Bank.reset).mode
    · rw [writeBmode_changes hj s _ v changes]
      simp only [changes, true_and, and_self, if_true, ne_eq, not_false_eq_true]
    · rw [writeBmode_keeps hj s _ v changes]
      simp only [changes, false_and, if_false]

theorem crWrite_of_listed {s : State} (free : NoWriteWaits s) (v : Word) : ∀ e ∈ crAfter s v ++ crActs s v, WritesTo s v e :=
  List.forall_mem_append.mpr ⟨crAfter_write s v, crActs_write free v⟩

/-! ### The number of a register (R137, R188, R352) -/

theorem crAllowed_iff (s : State) (n : Nat) : crAllowed s.th.level n = true ↔ MayName s n := by
  unfold crAllowed MayName crUser
  cases s.th.level with
  | user =>
    simp
    omega
  | supervisor => simp
  | monitor => simp

theorem crAssigned_eq_false {n : Nat} (h : 0x020 ≤ n ∧ n < 0x030 ∨ 0x03C ≤ n ∧ n < 0x040 ∨ 0x041 ≤ n ∧ n < 0x050 ∨ 0x051 ≤ n ∧ n < 0x060 ∨
    0x061 ≤ n ∧ n < 0x070 ∨ n = 0x083 ∨ 0x08D ≤ n ∧ n < 0x090 ∨ 0x0A5 ≤ n) : crAssigned n = false := by
  simp only [crAssigned, Bool.or_eq_false_iff, Bool.and_eq_false_iff, decide_eq_false_iff_not, beq_eq_false_iff_ne]
  omega

section
variable {f : Fields} {s : State}

theorem crNumber_eq (h : Reads s (regsB f)) (i : Instr) :
    crNumber f i s = (do crCheck (some i) (s.crNum f); pure (s.crNum f) : M Nat) s := by
  unfold crNumber State.crNum
  cases hf : f.imm with
  | some x => rfl
  | none => exact M.run_bind_ok (M.run_peekS h.2.1 (h.2.2 f.b (by simp [regsB, hf])))

theorem M.run_crNumber (h : Reads s (regsB f)) (i : Instr) (assigned : crAssigned (s.crNum f) = true) (may : MayName s (s.crNum f)) :
    crNumber f i s = .ok (s.crNum f) s := by
  rw [crNumber_eq h]
  simp only [crCheck, M.run_bind, M.run_getTh, assigned, (crAllowed_iff s _).mpr may, Bool.not_true, M.run_raiseIf_false, M.run_pure]

theorem crNumber_unassigned (h : Reads s (regsB f)) (i : Instr) (unassigned : crAssigned (s.crNum f) = false) :
    crNumber f i s = .error (.cause { code := 0x015, xval := firstWord i }) s := by
  rw [crNumber_eq h]
  simp only [crCheck, M.run_bind, M.run_getTh, unassigned, Bool.not_false, M.run_raiseIf_true]
  rfl

theorem crNumber_refused (h : Reads s (regsB f)) (i : Instr) (assigned : crAssigned (s.crNum f) = true) (refused : ¬ MayName s (s.crNum f)) :
    crNumber f i s = .error (.cause { code := 0x030, xval := BitVec.ofNat 64 (s.crNum f) }) s := by
  have denied : crAllowed s.th.level (s.crNum f) = false := Bool.eq_false_iff.mpr fun allowed => refused ((crAllowed_iff s _).mp allowed)
  rw [crNumber_eq h]
  simp only [crCheck, M.run_bind, M.run_getTh, assigned, denied, Bool.not_true, Bool.not_false, M.run_raiseIf_false, M.run_raiseIf_true]

/-- A number that is refused refuses the word. -/
theorem exec_traps_of_crNumber (live : s.th.live = true) {code : Nat} (hc : code ≠ 0x1C3) {xval : Word} {i : Instr}
    (hi : i ∈ [Instr.crr f, .crw f, .crwSet f, .crwClr f]) (refused : crNumber f i s = .error (.cause { code := code, xval := xval }) s) :
    exec i s = trapsWith s code xval := by
  simp only [List.mem_cons, List.not_mem_nil, or_false] at hi
  rcases hi with rfl | rfl | rfl | rfl
  all_goals exact runWord_traps live hc (M.run_bind_error refused)

/-! ### The words (R188, R189) -/

theorem M.run_crReadInOrder (idle : s.th.mmaRun = []) (n : Nat) : crReadInOrder n s = crRead n s := by
  unfold crReadInOrder
  rw [M.run_bind_ok (M.run_getTh s), idle]
  simp

theorem exec_crr {t : State} {x : Word} (h : Reads s (regsB f)) (idle : s.th.mmaRun = []) (assigned : crAssigned (s.crNum f) = true)
    (may : MayName s (s.crNum f)) (read : crRead (s.crNum f) s = .ok x t) : exec (.crr f) s = doneWith s (t.put f.d x) := by
  refine runWord_ok h.1 ?_
  rw [M.run_bind_ok (M.run_crNumber h _ assigned may), M.run_bind_ok (M.run_cleanB h), M.run_bind_ok ((M.run_crReadInOrder idle _).trans read)]
  rfl

theorem M.run_crwM {t : State} {x : Word} {new : Word → Word → Word} (h : Reads s (f.a :: regsB f)) (idle : s.th.mmaRun = [])
    (assigned : crAssigned (s.crNum f) = true) (may : MayName s (s.crNum f)) (read : crRead (s.crNum f) s = .ok x s)
    (write : crWrite (s.crNum f) (new x (s.th.getS f.a)) s = .ok () t) (i : Instr) : crwM f i new s = .ok () (t.put f.d x) := by
  have readA := h.2.2 f.a List.mem_cons_self
  have hb : Reads s (regsB f) := h.mono fun r hr => List.mem_cons_of_mem _ hr
  unfold crwM
  rw [M.run_bind_ok (M.run_crNumber hb i assigned may), M.run_bind_ok (M.run_peekS h.2.1 readA),
    M.run_bind_ok ((M.run_crReadInOrder idle _).trans read)]
  refine (M.run_bind_ok ((M.run_checked_clean (M.run_both (M.run_cleanB hb) (M.run_cleanS readA)) _).trans write)).trans ?_
  rfl

theorem exec_crw {t : State} {x : Word} (h : Reads s (f.a :: regsB f)) (idle : s.th.mmaRun = []) (assigned : crAssigned (s.crNum f) = true)
    (may : MayName s (s.crNum f)) (read : crRead (s.crNum f) s = .ok x s) (write : crWrite (s.crNum f) (s.th.getS f.a) s = .ok () t) :
    exec (.crw f) s = doneWith s (t.put f.d x) :=
  runWord_ok h.1 (M.run_crwM h idle assigned may read (new := fun _ a => a) write (.crw f))

theorem exec_crwSet {t : State} {x : Word} (h : Reads s (f.a :: regsB f)) (idle : s.th.mmaRun = []) (assigned : crAssigned (s.crNum f) = true)
    (may : MayName s (s.crNum f)) (read : crRead (s.crNum f) s = .ok x s) (write : crWrite (s.crNum f) (x ||| s.th.getS f.a) s = .ok () t) :
    exec (.crwSet f) s = doneWith s (t.put f.d x) :=
  runWord_ok h.1 (M.run_crwM h idle assigned may read (new := fun o a => o ||| a) write (.crwSet f))

theorem exec_crwClr {t : State} {x : Word} (h : Reads s (f.a :: regsB f)) (idle : s.th.mmaRun = []) (assigned : crAssigned (s.crNum f) = true)
    (may : MayName s (s.crNum f)) (read : crRead (s.crNum f) s = .ok x s) (write : crWrite (s.crNum f) (x &&& ~~~s.th.getS f.a) s = .ok () t) :
    exec (.crwClr f) s = doneWith s (t.put f.d x) :=
  runWord_ok h.1 (M.run_crwM h idle assigned may read (new := fun o a => o &&& ~~~a) write (.crwClr f))

/-! ### VCLASS, XPROG and CCYC (R193, R347, R49) -/

variable {lc : Nat}

theorem M.run_lcNow (here : if s.th.isL then lc = 0 else s.th.lc = some lc) : lcNow s = .ok lc s := by
  unfold lcNow
  rw [M.run_bind_ok (M.run_getTh s)]
  split at here
  · next large => rw [here, if_pos large]; rfl
  · next small => rw [here, if_neg small]; rfl

theorem crRead_vclass (here : if s.th.isL then lc = 0 else s.th.lc = some lc) : crRead 0x008 s = .ok (BitVec.ofNat 64
    (16 * threadLanes s s.th * 2 ^ s.th.grp / 2 ^ s.th.sewCode * 2 ^ 16 + threadLanes s s.th * 2 ^ 8 + lc * 2 + b2n s.th.isL)) s := by
  have grp : s.th.grp % 4 = s.th.grp := Nat.mod_eq_of_lt (Nat.mod_lt _ (by decide))
  have sew : s.th.sewCode % 4 = s.th.sewCode := Nat.mod_mod _ _
  have value : vclassOf s lc = BitVec.ofNat 64 (16 * threadLanes s s.th * 2 ^ s.th.grp / 2 ^ s.th.sewCode * 2 ^ 16 +
      threadLanes s s.th * 2 ^ 8 + lc * 2 + b2n s.th.isL) := by
    simp only [vclassOf, vlmaxOf, grp, sew]
  rw [← value]
  exact M.run_bind_ok (M.run_lcNow here)

theorem xprogUsed_iff {isL : Bool} {j : Nat} : xprogUsed isL lc j = true ↔ isL ∨ j / 2 = lc := by
  simp only [xprogUsed, Bool.or_eq_true, beq_iff_eq]

theorem crRead_xprog {j : Nat} (hj : j < 8) (here : if s.th.isL then lc = 0 else s.th.lc = some lc) :
    crRead (0x034 + j) s = .ok (if s.th.isL ∨ j / 2 = lc then s.th.xprog.getD j 0 else 0) s := by
  have made : crRead (0x034 + j) s = (do
      let lc ← lcNow
      return if xprogUsed s.th.isL lc j then s.th.xprog.getD j 0 else 0 : M Word) s := by
    interval_cases j <;> rfl
  rw [made, M.run_bind_ok (M.run_lcNow here)]
  simp only [xprogUsed_iff, M.run_pure]

theorem crWrite_xprog {j : Nat} (hj : j < 8) (here : if s.th.isL then lc = 0 else s.th.lc = some lc) (v : Word) :
    crWrite (0x034 + j) v s = .ok () (if s.th.isL ∨ j / 2 = lc then { s with th := { s.th with
      xprog := s.th.xprog.setIfInBounds j (v &&& 0xFFFF)
      scan := if v &&& 0xFFFF = s.th.xprog.getD j 0 then s.th.scan else none } } else s) := by
  have made : crWrite (0x034 + j) v s = (do
      let lc ← lcNow
      if xprogUsed s.th.isL lc j then
        modTh fun t => { t with
          xprog := t.xprog.mapIdx fun i x => if i = j then v &&& 0xFFFF else x
          scan := if v &&& 0xFFFF = t.xprog.getD j 0 then t.scan else none } : M Unit) s := by
    interval_cases j <;> rfl
  rw [made, M.run_bind_ok (M.run_lcNow here), ← vector_mapIdx_set]
  by_cases used : s.th.isL ∨ j / 2 = lc
  · rw [if_pos (xprogUsed_iff.mpr used), if_pos used]
    rfl
  · rw [if_neg (mt xprogUsed_iff.mp used), if_neg used]
    rfl

/-- CCYC counts on by a free amount. -/
theorem crRead_ccyc (s : State) :
    let x := (s.cluster s.th.clusterNo).ccyc + Config.freeWord s.free
    crRead 0x00D s = .ok x ({ s with free := s.free + 1 }.setCluster s.th.clusterNo { s.cluster s.th.clusterNo with ccyc := x }) := rfl

theorem crAssigned_xprog {j : Nat} (hj : j < 8) : crAssigned (0x034 + j) = true := by
  interval_cases j <;> rfl

end

/-- Settles O25: register by register, what is read and what a write leaves; the checks of the number come first. -/
theorem controlRegisters : Obligations.ControlRegisters := by
  refine ⟨fun f s h free may => ?_, fun f s h i hi => ⟨fun unassigned => ?_, fun ⟨x, hx⟩ refused => ?_⟩⟩
  · have idle := free.2.2.2
    have hb : Reads s (regsB f) := h.mono fun r hr => List.mem_cons_of_mem _ hr
    refine ⟨fun x hx => ?_, fun lc here => ⟨fun vclass => ?_, fun j hj xprog => ?_⟩, fun ccyc => ?_⟩
    · obtain ⟨assigned, read⟩ := crValues_read s _ hx
      exact ⟨exec_crr hb idle assigned may read,
        fun t ht => exec_crw h idle assigned may read (crWrite_of_listed free _ _ ht),
        fun t ht => exec_crwSet h idle assigned may read (crWrite_of_listed free _ _ ht),
        fun t ht => exec_crwClr h idle assigned may read (crWrite_of_listed free _ _ ht)⟩
    · exact exec_crr hb idle (by rw [vclass]; rfl) may (by rw [vclass]; exact crRead_vclass here)
    · have assigned : crAssigned (s.crNum f) = true := by
        rw [xprog]
        exact crAssigned_xprog hj
      have read : crRead (s.crNum f) s = _ := (congrArg (crRead · s) xprog).trans (crRead_xprog hj here)
      have write : crWrite (s.crNum f) (s.th.getS f.a) s = _ := (congrArg (crWrite · (s.th.getS f.a) s) xprog).trans (crWrite_xprog hj here _)
      refine ⟨exec_crr hb idle assigned may read, (exec_crw h idle assigned may read write).trans ?_⟩
      by_cases used : s.th.isL ∨ j / 2 = lc
      · rw [if_pos used, if_pos used, if_pos used]
      · rw [if_neg used, if_neg used, if_neg used]
    · exact ⟨_, exec_crr hb idle (by rw [ccyc]; rfl) may (by rw [ccyc]; exact crRead_ccyc s)⟩
  · exact exec_traps_of_crNumber h.1 (by decide) hi (crNumber_unassigned h i (crAssigned_eq_false unassigned))
  · exact exec_traps_of_crNumber h.1 (by decide) hi (crNumber_refused h i (crValues_read s _ hx).1 refused)

end Sys2Proof.Machine
end
